-- ==== Sys2Proof/Word.lean ====
section
/-! DEFINITION. The word types of the model: bytes, byte strings, 32-bit words and instants. -/

namespace Sys2Proof

/-- One byte. -/
abbrev Byte := BitVec 8

/-- A byte string, the lowest offset first (00 R2). -/
abbrev Bytes := List Byte

/-- A 32-bit word of the host port, a FIFO or a record. -/
abbrev Word := BitVec 32

/-- An instant of TAI, or a difference of instants, in 1/65,536 ns (10 R231). -/
abbrev Inst := Int

end Sys2Proof
end

