-- ==== Sys2Proof/Syntax.lean ====
section
/-! DEFINITION. The commands the block takes: one constructor of `Instr` for each row of
spec/opcode_table.json, in the table's order, with the operands its rule gives it. -/

namespace Sys2Proof

/-- What the surroundings decide while Wiori serves messages: whether Wiori is free to take one (13 R319 gives no
processing time), how many 256-byte bursts a window transfer completes within its 200 µs (16 R400), the
object offsets of bursts that hold an uncorrectable error, and whether the grant watchdog withdraws the transfer's
grant (16 R414). -/
structure Env where
  free : Bool := true
  bursts : Nat := 65536
  bad : List Nat := []
  watchdog : Bool := false
  revoked : Option Nat := none
deriving DecidableEq, Repr

/-- A request taken from a mailbox: the header of 13 R320 without CODE (the command's row gives it), the payload and
the tag. -/
structure Req where
  mailbox : Nat
  version : Byte := 1
  flags : Byte
  origin : BitVec 32
  keySlot : Byte
  status : Byte := 0
  length : BitVec 16
  msgId : BitVec 32
  counter : BitVec 64
  dest : BitVec 32
  rsvd : BitVec 32 := 0
  payload : Bytes
  tag : Bytes
deriving DecidableEq, Repr

/-- The detectors of 03 R59 and R60. -/
inductive Detector
  | openWire | short | excOpen | excShort
deriving DecidableEq, Repr

/-- The memories whose ECC checks raise faults (15 R371). -/
inductive EccMem
  | sram | dram | flash | history
deriving DecidableEq, Repr

/-- What the failed burst of a DRAM_UE holds (16 R404): a record of the spill reserve by SEQ, positions of a capture, cells of a
channel's persistence map, a compression job's buffer, or bytes of firmware staging. -/
inductive EccHit
  | other
  | record (seq : Nat)
  | capture (def_ id pos count : Nat)
  | maps (def_ ch cell count : Nat)
  | job (j offset : Nat)
  | firmware (offset : Nat)
deriving DecidableEq, Repr

/-- An ECC check result: the memory, its partition (1 R17 order) or page number, whether it could not be corrected, the failing
address, the master and access of 15 R388, what the burst holds, and for a raw-window word whether its ring copy is bad too
(15 R376). -/
structure EccError where
  mem : EccMem
  unit : Nat
  uncorrectable : Bool
  address : Nat
  master : Nat
  access : Nat
  hit : EccHit := .other
  rawCopyBad : Bool := true
deriving DecidableEq, Repr

/-- The fields of an Announce that the hub uses (10 R234, R235, 11 R291). -/
structure Announce where
  domain : Byte
  priority1 : Byte
  clockClass : Byte
  clockAccuracy : Byte
  variance : BitVec 16
  priority2 : Byte
  grandmaster : BitVec 64
  steps : BitVec 16
  port : BitVec 64
  utcOffset : BitVec 16
  utcValid : Bool
  timeTraceable : Bool
deriving DecidableEq, Repr

/-- What the PTP port sends at an interval (11 R291). -/
inductive PtpSend
  | sync | announce | delayReq
deriving DecidableEq, Repr

/-- What the surroundings decide at the end of a bring-up phase (17 R423): the level of PAIR_SIDE, whether SRAM and DRAM
initialised, the result of the known-answer test, a PPS edge of the selected sense during CALIBRATE on the timebase that has
run since CLOCKS, the modulator bits of the 40 ms of each first-light run by front end, mode and range, the converter codes of each
run's path check (05 R118) by tile, mode and range, and those of the spare monitors by group, mode and range, and the tiles'
temperatures in 0.01 °C. -/
structure BootEnv where
  sideB : Bool := false
  ramOk : Bool := true
  kat : Bytes
  pps : Option Inst := none
  runs : List (Nat × Nat × Nat × List Bool) := []
  paths : List (Nat × Nat × Nat × List Nat) := []
  spares : List (Nat × Nat × Nat × List Nat) := []
  temps : List Int := []
deriving DecidableEq, Repr

/-- The commands, one constructor per row of the table. -/
inductive Instr
  /-- HOST_PORT_TRANSACTION, 13 R314: one transaction, `data` the bytes a write shifts in, `count` the words a read shifts out. -/
  | hostPortTransaction (opcode : Byte) (addr : BitVec 24) (data : Bytes) (count : Nat) (env : Env)
  /-- REGISTER_WRITE, 13 R315: a word written to a register or buffer with no behaviour of its own. -/
  | registerWrite (addr : BitVec 24) (word : Word)
  /-- DOORBELL, 13 R316. -/
  | doorbell (bits : Word) (env : Env)
  /-- ATTN_CLEAR, 13 R315. -/
  | attnClear (bits : Word)
  /-- FIFO_STATUS_CLEAR, 09 R221. -/
  | fifoStatusClear (bits : Word)
  /-- FIFO_DATA_READ, 09 R222. -/
  | fifoDataRead
  /-- COPY_DROPS_READ, 13 R315. -/
  | copyDropsRead
  /-- NOTICE_DELIVER, 13 R316. -/
  | noticeDeliver (mb : Nat)
  /-- MAILBOX_MESSAGE_ARRIVAL, 13 R318: a whole message for MB2 to MB5; `via` is the LANE_ID it came by, 7 for UDP. -/
  | mailboxMessageArrival (mb : Nat) (msg : Bytes) (via : Nat) (env : Env)
  /-- CFG_LABEL, R347: Wiori processes this message (13 R324, 14 R337). -/
  | cfgLabel (req : Req)
  /-- READ_IDENTITY, R348: Wiori processes this message (13 R324, 14 R337). -/
  | readIdentity (req : Req)
  /-- READ_LEDGER, R347: Wiori processes this message (13 R324, 14 R337). -/
  | readLedger (req : Req)
  /-- CFG_CHANNEL, R349: Wiori processes this message (13 R324, 14 R337). -/
  | cfgChannel (req : Req)
  /-- CFG_EXCITATION, R54: Wiori processes this message (13 R324, 14 R337). -/
  | cfgExcitation (req : Req)
  /-- CFG_REMAP, R349: Wiori processes this message (13 R324, 14 R337). -/
  | cfgRemap (req : Req)
  /-- REVIVE_CHANNEL, R349: Wiori processes this message (13 R324, 14 R337). -/
  | reviveChannel (req : Req)
  /-- READ_CHANNEL, R350: Wiori processes this message (13 R324, 14 R337). -/
  | readChannel (req : Req)
  /-- CFG_TICK, R42: Wiori processes this message (13 R324, 14 R337). -/
  | cfgTick (req : Req)
  /-- CFG_TIME, R233: Wiori processes this message (13 R324, 14 R337). -/
  | cfgTime (req : Req)
  /-- TIME_STEP, R255: Wiori processes this message (13 R324, 14 R337). -/
  | timeStep (req : Req)
  /-- READ_TIME, R352: Wiori processes this message (13 R324, 14 R337). -/
  | readTime (req : Req)
  /-- CFG_CALIBRATION, R103: Wiori processes this message (13 R324, 14 R337). -/
  | cfgCalibration (req : Req)
  /-- CAL_SELF, R353: Wiori processes this message (13 R324, 14 R337). -/
  | calSelf (req : Req)
  /-- CAL_SYSTEM, R111: Wiori processes this message (13 R324, 14 R337). -/
  | calSystem (req : Req)
  /-- CFG_HOUSEKEEPING, R116: Wiori processes this message (13 R324, 14 R337). -/
  | cfgHousekeeping (req : Req)
  /-- READ_CAL_QUALITY, R101: Wiori processes this message (13 R324, 14 R337). -/
  | readCalQuality (req : Req)
  /-- READ_HOUSEKEEPING, R353: Wiori processes this message (13 R324, 14 R337). -/
  | readHousekeeping (req : Req)
  /-- LOAD_GRAPH, R139: Wiori processes this message (13 R324, 14 R337). -/
  | loadGraph (req : Req)
  /-- ACTIVATE_GRAPH, R140: Wiori processes this message (13 R324, 14 R337). -/
  | activateGraph (req : Req)
  /-- READ_GRAPH, R355: Wiori processes this message (13 R324, 14 R337). -/
  | readGraph (req : Req)
  /-- CFG_FLARE, R147: Wiori processes this message (13 R324, 14 R337). -/
  | cfgFlare (req : Req)
  /-- CFG_CAPTURE, R154: Wiori processes this message (13 R324, 14 R337). -/
  | cfgCapture (req : Req)
  /-- FLARE_NOW, R356: Wiori processes this message (13 R324, 14 R337). -/
  | flareNow (req : Req)
  /-- RELEASE_CAPTURE, R164: Wiori processes this message (13 R324, 14 R337). -/
  | releaseCapture (req : Req)
  /-- CLEAR_CAPTURE_STATS, R167: Wiori processes this message (13 R324, 14 R337). -/
  | clearCaptureStats (req : Req)
  /-- READ_CAPTURES, R356: Wiori processes this message (13 R324, 14 R337). -/
  | readCaptures (req : Req)
  /-- CFG_COMPRESSION, R174: Wiori processes this message (13 R324, 14 R337). -/
  | cfgCompression (req : Req)
  /-- CUSTODY_ACK, R226: Wiori processes this message (13 R324, 14 R337). -/
  | custodyAck (req : Req)
  /-- CUSTODY_RETRANSMIT, R227: Wiori processes this message (13 R324, 14 R337). -/
  | custodyRetransmit (req : Req)
  /-- CFG_OUTLETS, R217: Wiori processes this message (13 R324, 14 R337). -/
  | cfgOutlets (req : Req)
  /-- COMPRESS_JOB, R194: Wiori processes this message (13 R324, 14 R337). -/
  | compressJob (req : Req)
  /-- RESUME_COMPRESS, R196: Wiori processes this message (13 R324, 14 R337). -/
  | resumeCompress (req : Req)
  /-- CANCEL_COMPRESS, R196: Wiori processes this message (13 R324, 14 R337). -/
  | cancelCompress (req : Req)
  /-- CFG_LANE, R258: Wiori processes this message (13 R324, 14 R337). -/
  | cfgLane (req : Req)
  /-- CFG_SLOT_TABLE, R281: Wiori processes this message (13 R324, 14 R337). -/
  | cfgSlotTable (req : Req)
  /-- CFG_UPLINK, R288: Wiori processes this message (13 R324, 14 R337). -/
  | cfgUplink (req : Req)
  /-- READ_LANE, R286: Wiori processes this message (13 R324, 14 R337). -/
  | readLane (req : Req)
  /-- OPEN_WINDOW, R360: Wiori processes this message (13 R324, 14 R337). -/
  | openWindow (req : Req)
  /-- CLOSE_WINDOW, R359: Wiori processes this message (13 R324, 14 R337). -/
  | closeWindow (req : Req)
  /-- TRANSFER, R400: Wiori processes this message (13 R324, 14 R337). -/
  | transfer (req : Req) (env : Env)
  /-- RESUME_TRANSFER, R400: Wiori processes this message (13 R324, 14 R337). -/
  | resumeTransfer (req : Req) (env : Env)
  /-- CFG_FAULT, R374: Wiori processes this message (13 R324, 14 R337). -/
  | cfgFault (req : Req)
  /-- FORCE_FAULT, R389: Wiori processes this message (13 R324, 14 R337). -/
  | forceFault (req : Req)
  /-- READ_FAULTS, R362: Wiori processes this message (13 R324, 14 R337). -/
  | readFaults (req : Req)
  /-- READ_JOURNAL, R362: Wiori processes this message (13 R324, 14 R337). -/
  | readJournal (req : Req)
  /-- CFG_PAIR, R295: Wiori processes this message (13 R324, 14 R337). -/
  | cfgPair (req : Req)
  /-- PAIR_RESYNC, R311: Wiori processes this message (13 R324, 14 R337). -/
  | pairResync (req : Req)
  /-- READ_PAIR, R363: Wiori processes this message (13 R324, 14 R337). -/
  | readPair (req : Req)
  /-- PROVISION, R332: Wiori processes this message (13 R324, 14 R337). -/
  | provision (req : Req)
  /-- COMMISSION, R332: Wiori processes this message (13 R324, 14 R337). -/
  | commission (req : Req)
  /-- ENTER_MAINTENANCE, R332: Wiori processes this message (13 R324, 14 R337). -/
  | enterMaintenance (req : Req)
  /-- EXIT_MAINTENANCE, R332: Wiori processes this message (13 R324, 14 R337). -/
  | exitMaintenance (req : Req)
  /-- DECOMMISSION, R332: Wiori processes this message (13 R324, 14 R337). -/
  | decommission (req : Req)
  /-- LOAD_KEY, R330: Wiori processes this message (13 R324, 14 R337). -/
  | loadKey (req : Req)
  /-- ERASE_KEY, R330: Wiori processes this message (13 R324, 14 R337). -/
  | eraseKey (req : Req)
  /-- FW_LOAD, R335: Wiori processes this message (13 R324, 14 R337). -/
  | fwLoad (req : Req)
  /-- FW_VERIFY, R334: Wiori processes this message (13 R324, 14 R337). -/
  | fwVerify (req : Req)
  /-- FW_INSTALL, R335: Wiori processes this message (13 R324, 14 R337). -/
  | fwInstall (req : Req)
  /-- FW_ACTIVATE, R335: Wiori processes this message (13 R324, 14 R337). -/
  | fwActivate (req : Req)
  /-- RESET, R420: Wiori processes this message (13 R324, 14 R337). -/
  | reset (req : Req)
  /-- CFG_LOOP_OUTPUT, R367: Wiori processes this message (13 R324, 14 R337). -/
  | cfgLoopOutput (req : Req)
  /-- READ_LOOP, R367: Wiori processes this message (13 R324, 14 R337). -/
  | readLoop (req : Req)
  /-- FW_VERIFY_DONE, 14 R366. -/
  | fwVerifyDone
  /-- FW_INSTALL_DONE, 14 R366: whether the slot reads back as written. -/
  | fwInstallDone (readBackOk : Bool)
  /-- COMPRESS_JOB_STOP, 08 R195: the job runs to a stop on a body boundary. -/
  | compressJobStop (job : Nat)
  /-- CAL_SYSTEM_WINDOW_CLOSE, 05 R111. -/
  | calSystemWindowClose (ch : Nat)
  /-- SYSTEM_COEFFICIENTS_EFFECT, 05 R113. -/
  | systemCoefficientsEffect
  /-- MERIDIAN_TICK, 06 R136: an `overrun` says that the array had not finished the interval's work (02 R40), and whether step 2 of
  R136 was among what it had not finished (R137). -/
  | meridianTick (overrun : Option Bool)
  /-- FRAME_SETTLE, 02 R31: `mismatch` says that the checker finds a CHECK mismatch (08 R191). -/
  | frameSettle (mismatch : Bool)
  /-- REDUCTION_PERIOD_CLOSE, 06 R129. -/
  | reductionPeriodClose (node : Nat)
  /-- LEDGER_PERIOD, 09 R211. -/
  | ledgerPeriod
  /-- SCHEDULE_FLARE, 07 R151. -/
  | scheduleFlare (unit : Nat)
  /-- CHANGE_INSTANT, 03 R68. -/
  | changeInstant
  /-- TICK_RATE_CHANGE, 02 R42. -/
  | tickRateChange
  /-- GRAPH_ACTIVATION, 06 R140. -/
  | graphActivation
  /-- SLOT_TABLE_SWAP, 11 R281. -/
  | slotTableSwap (lane : Nat)
  /-- TIME_STEP_APPLY, 10 R253. -/
  | timeStepApply
  /-- STEP_DISCARDED, 10 R447. -/
  | stepDiscarded
  /-- SAMPLE_SLOT_CREATE, 04 R76: `bits` are the modulator bits that feed the chain since its previous grid instant, true for +1. -/
  | sampleSlotCreate (ch : Nat) (bits : List Bool)
  /-- OVER_RANGE_START, 03 R62. -/
  | overRangeStart (fe : Nat) (high : Bool) (dt : Nat)
  /-- OVER_RANGE_END, 03 R64: `area` is the overload area in 0.001 V·µs. -/
  | overRangeEnd (fe : Nat) (dt : Nat) (area : Nat)
  /-- NEIGHBOUR_VERDICT_DEADLINE, 03 R65. -/
  | neighbourVerdictDeadline (fe : Nat)
  /-- AUTORANGE_DOWN, 03 R66. -/
  | autorangeDown (ch : Nat) (dt : Nat)
  /-- AUTORANGE_UP, 03 R66. -/
  | autorangeUp (ch : Nat) (dt : Nat)
  /-- DETECTOR_ASSERT, 03 R59: asserts at `dt`, its qualification time having started `qual` before. -/
  | detectorAssert (kind : Detector) (instance_ : Nat) (qual : Nat) (dt : Nat)
  /-- FAULT_OCCURRENCE_CLEAR, 15 R372. -/
  | faultOccurrenceClear (source instance_ : Nat) (dt : Nat)
  /-- EXC_VIN_RANGE, 03 R55: EXC_VIN has stood at `mv` for 10 ms. -/
  | excVinRange (mv : Nat) (dt : Nat)
  /-- LOOP_COMPLIANCE, 03 R73: the readback, in DAC steps, has stood for 10 ms. -/
  | loopCompliance (output : Nat) (readback : Nat) (dt : Nat)
  /-- STUCK_OVER, 15 R371. -/
  | stuckOver (ch : Nat) (dt : Nat)
  /-- FE_FAULT, 15 R371. -/
  | feFault (fe : Nat) (dt : Nat)
  /-- SOURCE_FAULT, 15 R371. -/
  | sourceFault (ch : Nat) (dt : Nat)
  /-- TEMPERATURE_LIMIT, 15 R371: housekeeping source 0 to 5 has stood at `centi` 0.01 °C for 1 s. -/
  | temperatureLimit (source : Nat) (centi : Int) (dt : Nat)
  /-- SUPPLY_RANGE, 15 R371: housekeeping source 9 to 15 off nominal by `deviation` 0.1 %, or source 8 reading `deviation` mV; tile supplies as 100 + tile. -/
  | supplyRange (source : Nat) (deviation : Int) (dt : Nat)
  /-- TILE_LINK_ERROR, 15 R371. -/
  | tileLinkError (tile : Nat) (parity : Bool) (dt : Nat)
  /-- ECC_ERROR, 15 R371. -/
  | eccError (err : EccError) (dt : Nat)
  /-- DMA_ERROR, 15 R371. -/
  | dmaError (channel : Nat) (dt : Nat)
  /-- LANE_TX_FAULT, 15 R371. -/
  | laneTxFault (lane : Nat) (dt : Nat)
  /-- CRYPTO_SELFTEST, 15 R371: the 16 bytes the engine computes for the known-answer test of 13 R327. -/
  | cryptoSelftest (result : Bytes)
  /-- COLLECTOR_SELF, 15 R387. -/
  | collectorSelf (register : Nat) (dt : Nat)
  /-- FAULT_RAISE, 15 R385. -/
  | faultRaise (source instance_ : Nat) (forced : Bool) (detail : BitVec 64) (dt : Nat)
  /-- FAULT_HANDLE, 15 R385. -/
  | faultHandle
  /-- PERSISTENCE_EXPIRE, 15 R373. -/
  | persistenceExpire (source instance_ : Nat)
  /-- ECLIPSE_EXIT, 15 R381. -/
  | eclipseExit
  /-- ECLIPSE_OCCULTATION, 09 R209. -/
  | eclipseOccultation
  /-- COLLECTOR_FORCED_RESET, 15 R382. -/
  | collectorForcedReset
  /-- CORE_WATCHDOG, 15 R383. -/
  | coreWatchdog (core : Nat) (dt : Nat)
  /-- GRANT_WATCHDOG, 16 R414. -/
  | grantWatchdog (requester : Nat) (dt : Nat)
  /-- RATE_LIMIT_REFILL, 15 R394. -/
  | rateLimitRefill
  /-- SUPPRESSED, 15 R394. -/
  | suppressed (code : BitVec 16)
  /-- JOURNAL_RECORD_PROGRAM, 15 R393. -/
  | journalRecordProgram
  /-- JOURNAL_SECTOR_ERASE, 15 R393. -/
  | journalSectorErase
  /-- CAL_RUN_START, 05 R104: `switchOk` is the continuity check of 15 R371 where the run isolates its channel (05 R108). -/
  | calRunStart (tile : Nat) (switchOk : Bool)
  /-- CAL_RUN_END, 05 R99: for each range of the run the bits that the front end's modulator decided in its 40 ms (R97), and the tile's
  temperature in 0.01 °C. -/
  | calRunEnd (tile : Nat) (bits : List (List Bool)) (temp : Int)
  /-- CAL_RETRY, 05 R99. -/
  | calRetry (fe : Nat)
  /-- TESTDAC_PATH_HOLD_END, 05 R118. -/
  | testdacPathHoldEnd (tile : Nat)
  /-- OVERLAP_COMPARE, 05 R105, R106: the sums of the bits, +1 or −1, that the modulators of the own front end and of the spare have
  decided in the comparison window, and the continuity check of 15 R371. -/
  | overlapCompare (ch : Nat) (own spare : Int) (switchOk : Bool)
  /-- BREAK_BEFORE_MAKE_HANDOVER, 05 R107: `switchOk` is the continuity check of 15 R371. -/
  | breakBeforeMakeHandover (ch : Nat) (switchOk : Bool)
  /-- HOUSEKEEPING_CONVERSION, 05 R115. -/
  | housekeepingConversion (code : BitVec 16)
  /-- URGENT_CONVERSION, 05 R117. -/
  | urgentConversion (code : BitVec 16)
  /-- CAPTURE_DATA_EXPORT, 07 R171. -/
  | captureDataExport (def_ : Nat)
  /-- CAPTURE_REARM, 07 R157. -/
  | captureRearm (def_ : Nat)
  /-- MEMBER_FLARE_EXPIRE, 07 R152. -/
  | memberFlareExpire (unit : Nat)
  /-- TRIG_IN_EDGE, 07 R153. -/
  | trigInEdge (rising : Bool) (dt : Nat)
  /-- FLARE_MESSAGE_RECEIPT, 07 R169. -/
  | flareMessageReceipt (link : Nat) (msg : Bytes)
  /-- OUTLET_SEND, 09 R224: outlet 0 lane, 1 Ethernet, 2 host. -/
  | outletSend (outlet : Nat)
  /-- CELL_TRANSMIT, 11 R279: a cell start of the lane in `slot`, its SOC leaving at `depart`. -/
  | cellTransmit (lane slot : Nat) (depart : Inst)
  /-- CELL_RECEIPT, 11 R270. -/
  | cellReceipt (lane : Nat) (cell : Bytes) (arrive : Inst)
  /-- NAK_GAP_TIMEOUT, 11 R272. -/
  | nakGapTimeout (link : Nat)
  /-- NAK, 11 R272. -/
  | nak (link : Nat) (missing : BitVec 16)
  /-- CREDIT, 11 R273: a CREDIT message of 24 bytes. -/
  | credit (link : Nat) (msg : Bytes)
  /-- CREDIT_RETURN_SEND, 11 R273. -/
  | creditReturnSend (link : Nat)
  /-- RESYNC, 11 R274: a RESYNC message of 24 bytes. -/
  | resync (link : Nat) (msg : Bytes)
  /-- LOOP_TEST, 11 R275: a returned LOOP_TEST message of 240 bytes. -/
  | loopTest (lane : Nat) (msg : Bytes) (lcrcOk : Bool)
  /-- TIME_MESSAGE_RECEIPT, 10 R238. -/
  | timeMessageReceipt (lane : Nat) (msg : Bytes) (arrive : Inst)
  /-- PASS_THROUGH_RECORD, 11 R285: the cells of one record of another hub. -/
  | passThroughRecord (link : Nat) (cells : List Bytes)
  /-- MAILBOX_CELL_MESSAGE, 11 R284. -/
  | mailboxCellMessage (link : Nat) (dest : Word) (hops mb : Nat) (msg : Bytes) (env : Env)
  /-- LANE_SEARCH_ATTEMPT, 11 R265. -/
  | laneSearchAttempt (lane : Nat)
  /-- TS_RECEIPT, 11 R260: bytes 1 to 15 of the training set. -/
  | tsReceipt (lane : Nat) (ts : Bytes)
  /-- RX_READY, 11 R263: the eye in 1/1,000 UI and mV held for 100 µs, and the code violations of the last 10^6 characters. -/
  | rxReady (lane : Nat) (eyeH eyeV violations : Nat)
  /-- TRAINING_TIMEOUT, 11 R264. -/
  | trainingTimeout (lane : Nat) (partnerHeard : Bool)
  /-- LATENCY_MEASURE, 11 R261: what the transmit and the receive side of the lane take. -/
  | latencyMeasure (lane : Nat) (latency : Nat × Nat)
  /-- LANE_LOS, 11 R268. -/
  | laneLos (lane : Nat) (dt : Nat)
  /-- LANE_LOL, 11 R268. -/
  | laneLol (lane : Nat) (dt : Nat)
  /-- LANE_REJOIN, 11 R277. -/
  | laneRejoin (lane : Nat)
  /-- UDP_MAILBOX_DATAGRAM, 11 R290. -/
  | udpMailboxDatagram (data : Bytes) (env : Env)
  /-- UDP_MAILBOX_TIMEOUT, 11 R290. -/
  | udpMailboxTimeout (dest : Word) (msgId : Word)
  /-- ARP_REQUEST, 11 R287. -/
  | arpRequest (targetIp senderIp : Word) (senderMac : BitVec 48)
  /-- PTP_SYNC, 10 R240: a Sync with its Follow_Up. -/
  | ptpSync (origin arrive : Inst) (correction : Int) (master : BitVec 64)
  /-- PTP_DELAY_RESP, 10 R240: completes a delay exchange. -/
  | ptpDelayResp (depart arrive : Inst) (correction : Int)
  /-- PTP_ANNOUNCE, 11 R291. -/
  | ptpAnnounce (data : Announce)
  /-- PTP_MESSAGE_SEND, 11 R291. -/
  | ptpMessageSend (kind : PtpSend) (at_ : Inst)
  /-- ANNOUNCE_RECEIPT_TIMEOUT, 10 R246. -/
  | announceReceiptTimeout
  /-- PPS_EDGE, 10 R241. -/
  | ppsEdge (rising : Bool) (edge : Inst)
  /-- REF10_LOCK_LOSS, 10 R246. -/
  | ref10LockLoss
  /-- REFCLK_ABSENT, 18 R441. -/
  | refclkAbsent
  /-- TIME_SOURCE_LOST, 10 R246. -/
  | timeSourceLost
  /-- SOURCE_QUALIFIED, 10 R248. -/
  | sourceQualified
  /-- SLEW_COMPLETE, 10 R248. -/
  | slewComplete
  /-- GRANT_IN, 12 R298: the pin has held this level for 100 µs. -/
  | grantIn (level : Bool)
  /-- PAIR_CONFLICT, 12 R299. -/
  | pairConflict
  /-- TAKEOVER, 12 R308. -/
  | takeover
  /-- RELEASE, 12 R310. -/
  | release
  /-- SHADOW_UNIT_RECEIPT, 12 R302. -/
  | shadowUnitReceipt (unit : Bytes)
  /-- STATUS_UNIT_TIMEOUT, 12 R296. -/
  | statusUnitTimeout
  /-- RESYNC_RETRY, 12 R313. -/
  | resyncRetry
  /-- RESYNC_COMPLETE, 12 R313. -/
  | resyncComplete
  /-- VIN_RISE, 17 R420. -/
  | vinRise
  /-- VIN_LOW, 17 R419. -/
  | vinLow
  /-- BROWN_OUT, 17 R419. -/
  | brownOut
  /-- RESET_N, 17 R420: held low for `lowNs`. -/
  | resetN (lowNs : Nat)
  /-- BRING_UP_PHASE_END, 17 R423. -/
  | bringUpPhaseEnd (env : BootEnv)
  /-- DRAM_WIPE_DONE, 17 R424. -/
  | dramWipeDone
  /-- FIRST_LIGHT, 17 R425: `elapsed` is the timebase reading 100 µs after the later of calibration and wipe. -/
  | firstLight (elapsed : Inst)
  /-- OP_SECONDS_LOG, 17 R422. -/
  | opSecondsLog
  /-- DRAIN_END, 17 R429: `timedOut` when 60 s have passed since the final tick. -/
  | drainEnd (timedOut : Bool)
  /-- DRAIN_FINAL_TICK, 17 R429. -/
  | drainFinalTick
  /-- PAGE_MOVE_DONE, 16 R403. -/
  | pageMoveDone (page : Nat)
  /-- PATROL_SCRUB, 16 R405: the pages in which a word was corrected. -/
  | patrolScrub (corrected : List Nat)
  /-- WINDOW_REVOKE, 16 R399. -/
  | windowRevoke (window : Nat)
  /-- ARBITER_REFILL, 16 R409. -/
  | arbiterRefill
  /-- POOL_BLOCK_FREE, 16 R406. -/
  | poolBlockFree
  /-- REFCLK_PRESENT, 17 R423. -/
  | refclkPresent
  /-- CHARACTER_ALIGNMENT, 11 R259: an ordered set, or a lone K28.5 when `comma`, at character boundary `boundary`. -/
  | characterAlignment (lane : Nat) (boundary : Nat) (comma : Bool)
  /-- ETH_LINK_UP, 11 R287. -/
  | ethLinkUp
  /-- ETH_LINK_DOWN, 11 R287. -/
  | ethLinkDown
  /-- ON_PHASE_START, 03 R446. -/
  | onPhaseStart (group : Nat)
  /-- ON_PHASE_END, 03 R446: which detectors of the port and of the eight channels held throughout the evaluated part (R59). -/
  | onPhaseEnd (group : Nat) (openHeld shortHeld : Bool) (chOpen chShort : BitVec 8)
  /-- LIMITER_FOLD_BACK, 03 R53: a BRIDGE group, or a LOOP_POWER channel. -/
  | limiterFoldBack (bridge : Bool) (index : Nat)
  /-- LIMITER_RETRY, 03 R53. -/
  | limiterRetry (ch : Nat)
  /-- ARBITRATION_ROUND, 16 R410: the requesters that ask anew at this break point. -/
  | arbitrationRound (encoder : Bool) (requests : List Nat)
  /-- PRIVILEGED_PREEMPTION, 16 R412: the bytes the holder's burst has moved. -/
  | privilegedPreemption (requester progress : Nat)
  /-- PTP_DELAY_REQ, 11 R291. -/
  | ptpDelayReq (arrive : Inst) (seqId : BitVec 16) (port : BitVec 80)
  /-- ARP_REPLY, 11 R287. -/
  | arpReply (ip : Word) (mac : BitVec 48)
deriving DecidableEq, Repr

end Sys2Proof
end

