-- ==== Sys2Proof/Decode.lean ====
section
/-! DEFINITION. The commands that words spell. No row of spec/opcode_table.json gives bits (each row's list of
fields is empty): a command comes from outside as an event, so no word spells one. -/

namespace Sys2Proof

/-- The command a word of `nbits` bits spells by the table's rows that give bits: none does. -/
def decodeTableWord (nbits w : Nat) : Option Instr :=
  match nbits, w with
  | _, _ => none

end Sys2Proof
end

