-- ==== Sys2Proof/Machine/State.lean ====
section
/-! DEFINITION. The state of the hub: every register, buffer, queue, counter, mode and pin the spec gives it, as
plain data, and `State.reset`. Instants are in 1/65,536 ns of TAI (10 R231); operating time is in 1/4,000 s (17 R422). -/

namespace Sys2Proof.Machine

/-- Reasons the machine could stop with. The spec names none: every condition it describes is a fault source, a held
bring-up state or a response code, each a next state. No meaning raises this; safe. -/
inductive Fault
  /-- Raised by nothing; it keeps the type inhabited. Safe. -/
  | none
deriving DecidableEq, Repr

/-- Reasons a command is refused by the model. -/
inductive Refusal
  /-- A row of the table without a meaning yet; raised by its arm of `exec` alone. Safe. -/
  | notModelled (mnemonic : String)
deriving DecidableEq, Repr

/-! ## Host port (13 R314 to R316, 09 R221) -/

/-- A word FIFO of an outlet (09 R220 to R223). -/
structure Fifo where
  /-- Words held, oldest first; LEVEL is their number. -/
  words : List Word := []
  /-- Complete packets held. -/
  packets : Nat := 0
  overrun : Bool := false
  notice : Bool := false
  /-- Words of the packet being written that found no room yet, the next one first (a packet longer than the FIFO
  streams through, R222). -/
  rest : List Word := []
  /-- SEQ of the records whose packets it holds or is being written, oldest first. -/
  seqs : List Nat := []
deriving DecidableEq, Repr

/-- One host mailbox: MB0, MB1 or MB7. -/
structure HostMb where
  /-- MB_STATE is BUSY; LOCKED follows from the life cycle. -/
  busy : Bool := false
  /-- Completion notices waiting, at most 8. -/
  notices : List Bytes := []
deriving DecidableEq, Repr

/-- What the hub drove in the latest transaction (13 R314). -/
structure HpReply where
  answered : Bool := false
  status : Byte := 0
  state : Byte := 0
  words : List Word := []
deriving DecidableEq, Repr

/-- The host port window. -/
structure HostPort where
  /-- ATTN but for bit 6, which is `fifo.notice`. -/
  attn : Word := 0
  attnEn : Word := 0xFF
  mb0 : HostMb := {}
  mb1 : HostMb := {}
  mb7 : HostMb := {}
  /-- REQUEST, RESPONSE and NOTICE buffers by window address, canonical, unlisted bytes 0. -/
  ram : List Host.Cell := []
  fifo : Fifo := {}
  packetsRead : Word := 0
  copyDrops : Word := 0
  reply : HpReply := {}
deriving DecidableEq, Repr

/-! ## Flash (01 R17, 13 R328 to R336, 15 R391, 17 R422) -/

/-- Life-cycle states (13 R331), in code order. -/
inductive LifeCycle
  | blank | provisioned | operational | maintenance | decommissioned
deriving DecidableEq, Repr

/-- A key slot (13 R328). -/
structure KeySlot where
  key : Option Bytes := none
  gen : BitVec 32 := 0
  rights : BitVec 16 := 0
deriving DecidableEq, Repr

/-- The eight key slots, empty: slot 0 always holds every right (13 R328). -/
def emptyKeys : List KeySlot := { rights := 0xFFFF } :: List.replicate 7 {}

/-- An entry of the counter table (13 R325). -/
structure CtrEntry where
  origin : BitVec 32
  slot : Nat
  counter : Nat
deriving DecidableEq, Repr

/-- A firmware image slot (13 R334, R335). -/
structure Image where
  cells : List Host.Cell := []
  installed : Bool := false
  /-- The image as shipped: its bytes are not in the spec (log 1). -/
  factory : Bool := false
  /-- The image has reached first light (13 R336). -/
  lit : Bool := false
deriving DecidableEq, Repr

/-- A stored system coefficient set (05 R113). -/
structure SysCoef where
  ch : Nat
  mode : Nat
  range : Nat
  g : Nat
  o : Int
deriving DecidableEq, Repr

/-- A journal record (15 R391) but for its CRC. -/
structure JRec where
  index : Nat := 0
  kind : Nat
  flags : Nat := 0
  opSeconds : Nat := 0
  powerCycles : Nat := 0
  epoch : Nat := 0
  code : Nat
  tai : Nat := 0
  mailbox : Nat := 0xFF
  keySlot : Nat := 0xFF
  origin : Nat := 0
  counter : Nat := 0
  detail : Bytes := []
  /-- The record failed its CRC after a power loss (R393). -/
  torn : Bool := false
deriving DecidableEq, Repr

/-- An operation graph (06 R119): its identifier and 64-byte node descriptors. -/
structure Graph where
  id : BitVec 32 := 0
  nodes : List Bytes := []
deriving DecidableEq, Repr, Inhabited

/-- Fault configuration of one source (15 R374). -/
structure FaultCfg where
  cls : Nat
  reaction : Nat
  retries : Nat
  windowS : Nat
deriving DecidableEq, Repr

/-- A whole configuration (the reset values of the layout tables). -/
structure Cfg where
  /-- Channel descriptors (03 R48). -/
  chan : List (BitVec 64) := List.replicate 512 3
  /-- Group descriptors (03 R54). -/
  group : List (BitVec 64) := List.replicate 64 0
  excMin : Nat := 0
  excMax : Nat := 0
  /-- T_CODE and V (02 R24, R29). -/
  tCode : Nat := 3
  v : Nat := 2
  /-- TIME_BLOCK, asymmetries of E0, E1, W0, W1, U and PPS_DELAY (10 R233). -/
  timeBlock : BitVec 64 := 0x6400
  asym : List Int := [0, 0, 0, 0, 0]
  ppsDelay : Nat := 0
  /-- Calibration block (05 R103). -/
  cal : BitVec 64 := 0x003203E8800A1828
  /-- Housekeeping sequence (05 R115, R116). -/
  hkSeq : List Word := ((List.range 8) ++ (List.range 8).map (28 + ·)).map fun s => BitVec.ofNat 32 (s + 4 * 2 ^ 13)
  graph : Graph := {}
  /-- Flare units (07 R147). -/
  flare : List Bytes := List.replicate 16 (List.replicate 32 0)
  /-- Capture definitions (07 R154): BUFFERS resets to 1. -/
  capture : List Bytes := List.replicate 8 (List.replicate 75 0 ++ [1] ++ List.replicate 20 0)
  /-- CAPTURE_MIB (16 R397). -/
  captureMib : Nat := 1472
  /-- Compression block and constellation map (08 R174). -/
  comp : BitVec 64 := 0x3E801
  map : List (BitVec 16) := List.replicate 512 0
  /-- Outlet block (09 R217). -/
  outlets : BitVec 64 := 0x03E803E8000000A0
  /-- Lane descriptors (11 R258). -/
  lane : List (BitVec 64) := List.replicate 6 0x19
  /-- Slot tables in force (11 R280). -/
  slots : List (List Nat) :=
    let bond := [0, 1, 2, 3, 3] ++ List.replicate 27 4 ++ [2, 3, 3] ++ List.replicate 29 4
    [bond, bond, bond, bond, [0, 1] ++ List.replicate 62 5, [0, 1] ++ List.replicate 8 3 ++ List.replicate 54 4]
  /-- Uplink block (11 R288). -/
  uplink : Bytes := List.replicate 26 0 ++ [1, 0, 3, 128, 128, 1]
  /-- Fault sources set by CFG_FAULT (15 R374), and SELF_MERGE (R387). -/
  fault : List (Nat × FaultCfg) := []
  selfMerge : Bool := false
  /-- Pair block (12 R295). -/
  pair : BitVec 64 := 0x40000
  /-- Loop outputs (14 R367) and V_L in 10 mV. -/
  loop : List Bytes := List.replicate 8 (List.replicate 16 0)
  loopV : Nat := 0
  label : Bytes := List.replicate 64 0
deriving DecidableEq, Repr

/-- Non-volatile contents: what no reset clears. -/
structure Flash where
  hubId : BitVec 32 := 0
  lifecycle : LifeCycle := .blank
  seqBlock : Nat := 0
  epoch : Nat := 0
  /-- Operating seconds of the rotating log (17 R422). -/
  opLog : Nat := 0
  powerCycles : Nat := 0
  bringUps : Nat := 0
  imageA : Image := { installed := true, factory := true, lit := true }
  imageB : Image := {}
  /-- 0 image A, 1 image B (14 R348). -/
  running : Nat := 0
  bootChoice : Nat := 0
  /-- RAISE_MIN of the latest activation; the activated image has not reached first light yet (13 R335, R336). -/
  raiseMin : Bool := false
  activated : Bool := false
  /-- Consecutive bring-ups of the boot choice without first light (R336). -/
  bootFails : Nat := 0
  minSec : Nat := 0
  revoked : Nat := 0
  keys : List KeySlot := emptyKeys
  ctrCheckpoint : List CtrEntry := []
  /-- Configuration store: the configuration with every accepted change (14 R344). -/
  store : Cfg := {}
  sysCal : List SysCoef := []
  /-- Accepted shadowed messages that made the configuration, in order (12 R312): EFFECT, mailbox, message. -/
  accepted : List (Nat × Nat × Bytes) := []
  /-- Journal records held, oldest first (15 R393). -/
  journal : List JRec := []
  nextIndex : Nat := 0
  /-- Records of a lower index have been mirrored into the stream (09 R215), or sent to the active partner. -/
  mirrored : Nat := 0
deriving DecidableEq, Repr

/-! ## Power and bring-up (17) -/

/-- Bring-up states (17 R423); `off` is VIN below the start threshold. -/
inductive Phase
  | off | supply | clocks | boot | selftest | restore | calibrate | align | run | draining
  | noRefclk | noImage | selftestFail
deriving DecidableEq, Repr

/-- A drain in progress (17 R429). -/
structure Drain where
  /-- Acceptance interval n. -/
  tick : Nat
  /-- 0 RESET, 1 life-cycle transition (17 R430), with the new state. -/
  cause : Nat
  kind : Nat
  target : Option LifeCycle := none
  finalReleased : Bool := false
  lastSeq : Nat := 0
  /-- Operating time of the final tick in 1/4,000 s. -/
  finalOp : Nat := 0
deriving DecidableEq, Repr

/-- A reset the hub has decided on and not carried out yet: kind (0 warm, 1 cold), cause, FORCE and new life-cycle
state (17 R420, R428). -/
structure ResetDue where
  kind : Nat
  cause : Nat
  force : Nat
  target : Option LifeCycle := none
  /-- DECOMMISSION and PROVISION wipe flash partitions (13 R332). -/
  wipe : Bool := false
deriving DecidableEq, Repr

/-- Power, clocks and bring-up. -/
structure Power where
  phase : Phase := .supply
  vinGood : Bool := true
  vinLow : Bool := false
  refclk : Bool := true
  ref10 : Bool := false
  dramWiping : Bool := false
  dramWiped : Bool := false
  calibrated : Bool := false
  /-- PAIR_SIDE as strapped and read during bring-up: true for hub B (12 R293). -/
  sideB : Bool := false
  /-- First measurement of a PPS source during CALIBRATE (17 R424). -/
  firstMeas : Option Inst := none
  drain : Option Drain := none
  /-- A reset that waits for its RESPONSE record to leave (14 R365, 09 R216). -/
  resetDue : Option ResetDue := none
  excVinMv : Nat := 0
  /-- The bring-up in progress is warm: PLLs are kept (17 R421). -/
  warm : Bool := false
  /-- Bring-up reached BOOT, so it is counted in `Flash.bootFails` (13 R336). -/
  bootCounted : Bool := false
  /-- Bring-up reached RESTORE, so the counters of R422 were raised. -/
  restored : Bool := false
  /-- Operating seconds at first light (05 R102). -/
  lightOp : Nat := 0
deriving DecidableEq, Repr

/-! ## Accepted changes and staged entries (14 R340 to R344) -/

/-- One accepted change of configuration or state that waits for its tick. -/
inductive Item
  | chan (ch : Nat) (desc : BitVec 64)
  | group (g : Nat) (desc : BitVec 64)
  | supply (emin emax : Nat)
  | remap (ch : Nat) (undo : Bool)
  | revive (ch : Nat)
  | time (block : BitVec 64) (asym : List Int) (pps : Nat)
  | cal (block : BitVec 64)
  | flare (unit : Nat) (desc : Bytes)
  | capture (def_ : Nat) (desc : Bytes)
  | clearStats (what : Nat)
  | comp (block : BitVec 64) (map : List (BitVec 16))
  | outlets (block : BitVec 64)
  | uplink (block : Bytes)
  | fault (source : Nat) (cfg : FaultCfg)
  | selfMerge (merge : Bool)
  | force (source inst mode : Nat)
  | loop (k : Nat) (entry : Bytes)
  | loopV (v : Nat)
deriving DecidableEq, Repr

/-- An item and its tick. -/
structure Change where
  tick : Nat
  item : Item
deriving DecidableEq, Repr

/-- Entries held under STAGE for one ORIGIN and command (14 R343). -/
structure Staged where
  origin : BitVec 32
  code : Nat
  items : List Item
deriving DecidableEq, Repr

/-! ## Time (10) -/

/-- A stamp (10 R231). -/
structure Stamp where
  epoch : Nat := 0
  inst : Inst := 0
  quality : Nat := 0
deriving DecidableEq, Repr

/-- Servo states (10 R232), in code order. -/
inductive Servo
  | freeRun | acquire | track | slew | holdover
deriving DecidableEq, Repr

/-- A lane's offset measurement (14 R352). -/
structure LaneMeas where
  theta : Int := 0
  delay : Int := 0
  valid : Bool := false
  age : Nat := 0
deriving DecidableEq, Repr

/-- What a read returns of a channel as of the latest tick, where it changes between ticks (14 R346, R350). -/
structure ChanView where
  rangeNow : Nat := 0
  settleLeft : Nat := 0
  arSwitches : Nat := 0
deriving DecidableEq, Repr

/-- What reads return as of the latest tick, where it changes between ticks (14 R346, R350, R352). -/
structure TickView where
  chans : List ChanView := List.replicate 512 {}
  theta : Int := 0
  freq : Int := 0
  outliers : Nat := 0
  laneMeas : List LaneMeas := List.replicate 6 {}
deriving DecidableEq, Repr

/-- The timebase, the tick generator and the servo. -/
structure TimeSt where
  /-- Latest tick number (02 R25); meaningful once `running`. -/
  tick : Nat := 0
  running : Bool := false
  /-- TAI instant of the latest tick. -/
  tickInst : Inst := 0
  tCode : Nat := 3
  v : Nat := 2
  /-- Flags and start of the open frame (09 R205). -/
  frameFlags : Nat := 0
  frameLen : Inst := 0
  epoch : Nat := 0
  servo : Servo := .freeRun
  source : Nat := 0
  /-- Integrator and correction in 2^-48 (10 R242). -/
  integ : Int := 0
  freq : Int := 0
  freqLimited : Bool := false
  /-- Correction y in force over the last 64 s of TRACK or SLEW, newest first, with its length in 1/4,000 s (R247). -/
  yHist : List (Int × Nat) := []
  theta : Int := 0
  /-- Outliers since the last accepted offset (R246, 14 R352). -/
  outliers : Nat := 0
  okRun : Nat := 0
  /-- Slew ramp r in 1/4,000 of a unit of an instant (R248), and whether the next accepted offset starts it (R250). -/
  ramp : Int := 0
  rampDue : Bool := false
  /-- Offset the servo predicts for the next measurement (R244); none before the first after a step. -/
  predicted : Option Int := none
  /-- The margin is STEP_THRESHOLD for the next measurement. -/
  firstAfterStep : Bool := false
  /-- Offsets that qualify a lost or new source, newest first (R248). -/
  qual : List Int := []
  lost : Bool := false
  /-- Ticks since a valid measurement of the source, and the operating time in 1/4,000 s of the interval that brought it; whether this
  interval brought one; PPS edges beyond 1 µs in succession (R246). -/
  missed : Nat := 0
  lastMeas : Nat := 0
  measuredThisTick : Bool := false
  /-- Operating time of the interval in which an offset of the source was accepted, in 1/4,000 s (R246). -/
  lastAccept : Nat := 0
  badEdges : Nat := 0
  /-- The lane of the source whose measurements count from the latest tick on (R239). -/
  srcLane : Nat := 0
  upHops : Nat := 0
  /-- HOPS as HOLDOVER holds it (R232). -/
  hopsHeld : Nat := 0
  upHold : Bool := false
  upTrace : Bool := false
  upEpoch : Option Nat := none
  /-- UTC offset in force, and the value a source has given since (R234). -/
  utc : Int := 0
  utcNew : Option Int := none
  utcKnown : Bool := false
  secondsSet : Bool := false
  /-- Sum of every step since tick 0: instants before a step move by it on the timebase after it. -/
  shift : Inst := 0
  /-- Pending TIME_STEP: tick and Δ (R255). -/
  step : Option (Nat × Inst) := none
  /-- Exit of R248 booked for a tick, by a step of Δ or by a slew of θ. -/
  exitAt : Nat := 0
  exitStep : Option Inst := none
  exitSlew : Option Inst := none
  /-- Booked for the coming tick: a step of Δ, and a new T_CODE and V. -/
  jump : Option Inst := none
  rateDue : Option (Nat × Nat) := none
  /-- Pending CFG_TICKs in order of B: B in TAI seconds, T_CODE, V (02 R42). -/
  newTicks : List (Nat × Nat × Nat) := []
  /-- Operating time: resumed seconds and 1/4,000 s since (17 R422). -/
  opBase : Nat := 0
  op4k : Nat := 0
  laneMeas : List LaneMeas := List.replicate 6 {}
deriving DecidableEq, Repr

/-! ## Channels, groups, front ends, tiles (03, 04, 05) -/

/-- Pair states (03 R50), in the code order of 14 R350. -/
inductive PairConn
  | bound | spare | overlap | isolated
deriving DecidableEq, Repr

/-- Registers of a decimation chain (04 R79): CIC integrators and combs, and each later stage's delay line, newest
first. Which inputs a stage decimates follows from the grid instant that ends them (04 R76). -/
structure Chain where
  cicInt : List (BitVec 20) := List.replicate 4 0
  cicComb : List (BitVec 20) := List.replicate 4 0
  /-- HB1, HB2, then the r HBx stages. -/
  hb : List (List Int) := []
  rom : List Int := []
  /-- The latest output y. -/
  y : Int := 0
deriving DecidableEq, Repr

/-- A system calibration window (05 R111) and the command it answers (13 R322). -/
structure CalWin where
  req : Req
  step : Nat
  n : Nat
  target : Int
  openTick : Nat
  count : Nat := 0
  /-- Sums of u over each half, in 2^-62 LSB. -/
  sum1 : Int := 0
  sum2 : Int := 0
  allGood : Bool := true
  /-- The channel's slot count at the window's first slot. -/
  firstSeq : Nat := 0
deriving DecidableEq, Repr

/-- A hold interval [start, end) of a pair (05 R107, R108): the chain is fed a synthesised stream during it, and slots whose
sampling instants lie in it are STALE; after a time step `staleLeft` counts those (04 R91, R94). -/
structure Hold where
  start : Inst
  stop : Inst
  marks : Bool := true
deriving DecidableEq, Repr

/-- Where a chain's bits pass from one setting or phase to the next (04 R89, R91): the last MOD edge before it on the timebase
before it, its instant on the timebase after it, RATE and RESPONSE before it, the half-band stages that keep their state, and
whether the ROM stage starts from zero. -/
structure ChainCut where
  before : Int
  start : Inst
  rate : Nat
  resp : Nat
  keep : Nat
  clear : Bool
deriving DecidableEq, Repr

/-- Run state of one channel. -/
structure Chan where
  /-- Slots created (00 R9). -/
  seq : Nat := 0
  settleLeft : Nat := 0
  /-- RECOVERING for this many slots more (03 R63, R67). -/
  recLeft : Nat := 0
  /-- RECOVERING for slots before this instant (03 R64). -/
  recUntil : Option Inst := none
  /-- Hold intervals that a slot to come may still meet, oldest first (05 R107, R108). -/
  holds : List Hold := []
  /-- The last chain output before the present hold, and the running error of the stream synthesised from it (04 R94). -/
  holdY : Int := 0
  holdErr : Int := 0
  /-- Grid instant of the latest slot, up to which the chain has been fed. -/
  fedTo : Option Inst := none
  /-- STALE slots still to come after a time step (04 R91). -/
  staleLeft : Nat := 0
  rangeNow : Nat := 0
  arSwitches : Nat := 0
  retired : Bool := false
  /-- Retired by a declaration of this interval: its slots carry RETIRED from the coming tick (03 R61). -/
  retireDue : Bool := false
  /-- The front end that served it when it was retired, until the coming tick: its occurrence still covers the interval's slots. -/
  leftFe : Option Nat := none
  remapped : Bool := false
  pair : PairConn := .isolated
  fe : Option Nat := none
  /-- What the pair becomes at the coming tick (05 R106). -/
  pairDue : Option (PairConn × Option Nat) := none
  /-- A remap's take (true) or undo waits for its overlap comparison, and a REMAP for the spare's run (05 R105, 15 R377). -/
  handover : Option Bool := none
  remapDue : Bool := false
  sourceOn : Bool := false
  folded : Bool := false
  /-- VALUE of the last slot outside a hold (04 R94). -/
  lastVal : Int := 0
  /-- Grid instant of the first of the slots that are OVER_HI or OVER_LO without break in the least sensitive allowed range (15 R371). -/
  overFrom : Option Inst := none
  /-- Phase d of a sparse channel (02 R27). -/
  phase : Nat := 0
  chain : Chain := {}
  /-- Changes of setting or phase that the chain's next bits pass, oldest first. -/
  cuts : List ChainCut := []
  /-- Slots created in the open frame. -/
  inFrame : Nat := 0
  created : Nat := 0
  custody : Nat := 0
  held : Nat := 0
  occulted : Nat := 0
  /-- System coefficients in force (04 R81). -/
  gSys : Nat := 0x40000000
  oSys : Int := 0
  /-- Accepted coefficients that take effect at the next tick, and those in force for their mode and range until then (05 R113). -/
  newSys : Option (SysCoef × Nat × Int) := none
  calWin : Option CalWin := none
  /-- An accepted ZERO: mode, range, m_z in 2^-8, z_ref (05 R112). -/
  zero : Option (Nat × Nat × Int × Int) := none
  /-- Encoder history: up to three VALUEs, newest first (08 R184). -/
  hist : List Int := []
  seedDue : Bool := true
  /-- Stream tick of the latest block. -/
  blockAt : Option Nat := none
  /-- Consecutive on-phases in which the open and the short detector held (03 R59). -/
  openPhases : Nat := 0
  shortPhases : Nat := 0
deriving DecidableEq, Repr

/-- Run state of one group. -/
structure Group where
  portOn : Bool := false
  /-- An EXC_* fault turned the port off (03 R61). -/
  faultOff : Bool := false
  offDue : Bool := false
  folded : Bool := false
  /-- Switched port: inside its on-phase; its front ends hold (R446). -/
  onPhase : Bool := false
  holding : Bool := false
  openPhases : Nat := 0
  shortPhases : Nat := 0
  phaseStart : Inst := 0
  /-- Starts of the latest three on-phases, newest first (R59). -/
  starts : List Inst := []
  /-- The spare is permanently faulty (03 R52). -/
  spareLost : Bool := false
  /-- SPARE_PATH stands against it (05 R118). -/
  sparePath : Bool := false
  /-- The channel whose pair the spare holds. -/
  spareOn : Option Nat := none
  /-- Channels whose pair's switch to the spare failed its check (15 R371). -/
  badSwitch : List Nat := []
deriving DecidableEq, Repr

/-- A quality entry (05 R101). -/
structure Quality where
  mode : Nat
  range : Nat
  result : Nat
  trigger : Nat := 0
  residual : Nat := 0
  agreement : Nat := 0
  temp : Int := 0
  opSeconds : Nat := 0
deriving DecidableEq, Repr

/-- Self-calibration coefficients of one mode and range (04 R81). -/
structure FeCoef where
  mode : Nat
  range : Nat
  /-- Q8.32 and 2.30. -/
  o : Int
  g : Nat
  /-- Tile temperature and operating seconds of the accepted run (05 R102). -/
  temp : Int := 0
  opSeconds : Nat := 0
deriving DecidableEq, Repr

/-- Run state of one front end. -/
structure Fe where
  /-- Coefficients accepted since first light; factory ones otherwise (05 R100). -/
  coefs : List FeCoef := []
  /-- Coefficients before the run of the present turn, and whether they return at the coming tick (05 R106). -/
  before : List FeCoef := []
  restoreDue : Bool := false
  quality : List Quality := []
  /-- Modes and ranges in which it is due by CAL_SELF (trigger 3) or a first-light run that was not accepted (trigger 0), until
  a run of that range is accepted (05 R99, R102, R110). -/
  due : List (Nat × Nat × Nat) := []
  /-- Its latest run was not accepted: the earliest retry, in operating time of 1/4,000 s (05 R99). -/
  retryAt : Option Nat := none
  /-- Over-range in progress: positive side, start, and the next frame whose neighbours are not yet marked (03 R62, R65). -/
  overRange : Option (Bool × Inst) := none
  /-- The channel it served when that over-range began (03 R63 to R65). -/
  overCh : Option Nat := none
  overDone : Nat := 0
  /-- The tick of the latest frame in whose comparison window an over-range that has ended lay (05 R106). -/
  overIn : Option Nat := none
  permFault : Bool := false
deriving DecidableEq, Repr

/-- The steps of a channel's turn (05 R105, R107). -/
inductive TurnStep
  | spareRun | overlapTake | handTake | ownRun | overlapReturn | handReturn | aloneRun
deriving DecidableEq, Repr

/-- A calibration run or turn on a tile's bus: the channel, or 512 + group for a turn of a spare alone. -/
structure Turn where
  ch : Nat
  step : TurnStep
  /-- Front end on the bus, its mode and the ranges of the run. -/
  fe : Nat
  mode : Nat
  ranges : List Nat
  trigger : Nat
  /-- Tick at which the run in progress started, and the operating time in 1/4,000 s at which it ends (05 R97). -/
  startTick : Option Nat := none
  endOp : Nat := 0
  /-- Readings of the path checks so far, range by range, in the order of R118: the reference, the DAC at zero, +0.9 FS and
  −0.9 FS, and the spare monitor at the three levels in a spare's run; in µV. -/
  path : List Int := []
  /-- The spare's run serves a REMAP (15 R377). -/
  remap : Bool := false
  /-- CAL_SELF_ACCEPTED details that wait for the return comparison (05 R106). -/
  accepted : List Bytes := []
deriving DecidableEq, Repr

/-- Run state of one tile. -/
structure Tile where
  turn : Option Turn := none
  /-- TESTDAC_PATH hold: no run before this operating time of 1/4,000 s (05 R118). -/
  holdUntil : Option Nat := none
  /-- The calibration chain, which runs response 6 at rate code 2 (04 R78, 05 R97). -/
  calChain : Chain := {}
  pathPerm : Bool := false
  /-- Latest 128 temperature readings in 0.01 °C, newest first (05 R102). -/
  temps : List Int := []
deriving DecidableEq, Repr

/-- Requesters of an urgent conversion (05 R117). -/
structure Urgent where
  source : Nat
  sub : Nat
  collector : Bool
  calibration : Bool
deriving DecidableEq, Repr

/-- The housekeeping converter. -/
structure Housekeeping where
  pass : Nat := 0
  pos : Nat := 0
  /-- Codes of the latest conversion of each entry of the sequence. -/
  codes : List (BitVec 16) := []
  shadow : Option (List Word) := none
  urgent : List Urgent := []
  /-- Results of urgent conversions, newest first: the request with its requesters, and its code (R117). -/
  urgentDone : List (Urgent × BitVec 16) := []
  /-- Latest reading of each source and SUB in the units of R114: 0.01 °C, mV, µA, µV. -/
  readings : List ((Nat × Nat) × Int) := []
deriving DecidableEq, Repr

/-- A loop output (03 R71 to R73). -/
structure Loop where
  setpoint : Nat := 9557
  readback : Nat := 0
  /-- 0 following, 1 fault current, 2 holding LATE, 3 disabled (14 R367). -/
  state : Nat := 3
deriving DecidableEq, Repr

/-! ## Frames and verdicts (02) -/

/-- A frame in the raw window. -/
structure Frame where
  n : Nat
  stamp : Stamp
  tCode : Nat
  v : Nat
  flags : Nat := 0
  len : Inst := 0
  /-- `TimeSt.shift` when it opened. -/
  shift : Inst := 0
  /-- Words by channel in ascending order, END clear until a block is built. -/
  words : List (Nat × List Word) := []
  /-- Channel and group descriptors of the frame. -/
  chan : List (BitVec 64) := []
  group : List (BitVec 64) := []
  /-- Compression block and map of the frame (08 R174). -/
  comp : BitVec 64 := 0x3E801
  map : List (BitVec 16) := []
  /-- Slots of the frame are occulted: no blocks are released (15 R379, 12 R309). -/
  occulted : Bool := false
  /-- Slots created and lost, by channel (00 R9). -/
  lost : List (Nat × Nat) := []
  /-- Slots whose words in the ring an uncorrectable error took: channel, first slot, slots (16 R404). -/
  bad : List (Nat × Nat × Nat) := []
deriving DecidableEq, Repr

/-- A verdict: frame, channel, first slot index, number of slots, status, cause (12 R302). -/
structure Verdict where
  frame : Nat
  ch : Nat
  first : Nat
  slots : Nat
  status : Nat
  cause : Nat
deriving DecidableEq, Repr

/-! ## Reduction array (06) -/

/-- CROSS threshold states (06 R127). -/
inductive Level
  | unknown | below | above
deriving DecidableEq, Repr

/-- One second-order section in direct form I (06 R126), values in 2^-16 LSB. -/
structure Section where
  x1 : Int := 0
  x2 : Int := 0
  y1 : Int := 0
  y2 : Int := 0
deriving DecidableEq, Repr

/-- A rainflow detector (06 R128). -/
structure Rain where
  started : Bool := false
  dir : Int := 0
  cand : Int := 0
  last : Int := 0
  /-- Reversal stack, newest first. -/
  stack : List Int := []
  cells : List Nat := []
deriving DecidableEq, Repr

/-- State of one node with its open period (06 R135). -/
structure NodeSt where
  e : Nat := 0
  a : Nat := 0
  clipHi : Bool := false
  clipLo : Bool := false
  ret : Bool := false
  /-- First frame of the open period, and why it is short. -/
  firstTick : Nat := 0
  trunc : Bool := false
  step : Bool := false
  replays : Nat := 0
  vmin : Int := 0
  vmax : Int := 0
  sum : Int := 0
  sumSq : Nat := 0
  /-- Filter sections by band, energies in 2^-32 LSB², samples since one was not admitted (none before the first). -/
  bands : List (List Section) := []
  energy : List Nat := []
  since : Option Nat := none
  cross : List Level := []
  counts : List Nat := []
  rain : Rain := {}
deriving DecidableEq, Repr

/-- An entry of the provisional queue (06 R137). -/
structure ProvEntry where
  /-- Closed frame. -/
  frame : Nat
  graph : BitVec 32
  node : Nat
  period : Nat
  firstTick : Nat
  ticks : Nat
  trunc : Bool
  step : Bool
  replays : Nat
  quality : Nat
  clipHi : Bool
  clipLo : Bool
  kind : Nat
  emit : Bool
  words : List Word
  stamp : Stamp
deriving DecidableEq, Repr

/-- A checkpoint K_n: the state of the graph that runs frame n (06 R135, R141). -/
structure Ckpt where
  n : Nat
  nodes : List NodeSt
deriving DecidableEq, Repr

/-- What a tick lays down for the close of the frame before it: the TAI tick index, whether every open period closes there,
with TRUNCATED or with STEP, and the tick's stamp (06 R129, R140, R143). -/
structure CloseMark where
  tick : Nat
  index : Nat
  trunc : Bool
  step : Bool
  stamp : Stamp
deriving DecidableEq, Repr

/-- The reduction array. -/
structure Arr where
  active : Graph := {}
  shadow : Option Graph := none
  /-- The graph that ran before `since` (06 R141). -/
  outgoing : Option Graph := none
  since : Nat := 0
  loading : Option (Nat × Graph) := none
  /-- Pending activation: graph identifier and tick (06 R140). -/
  activate : Option (BitVec 32 × Nat) := none
  /-- The shadow that the pending activation names, once a later load has taken its place as the shadow. -/
  named : Option Graph := none
  nodes : List NodeSt := []
  ckpts : List Ckpt := []
  marks : List CloseMark := []
  provQ : List ProvEntry := []
  replays : Nat := 0
  overruns : Nat := 0
  /-- Frames whose derived results are late, and settled frames among them whose entries wait for a replay's end (02 R41, 06 R137). -/
  late : List Nat := []
  waits : List Nat := []
  /-- Band filters to restart at the first frame at or after a RATE change: channel and frame (06 R142). -/
  rateChanged : List (Nat × Nat) := []
deriving DecidableEq, Repr, Inhabited

/-! ## Flares and captures (07) -/

/-- Armed states of a flare unit (07 R150): unknown, condition held, not held (armed). -/
inductive Armed
  | unknown | held | notHeld
deriving DecidableEq, Repr

/-- A flare unit's run state. -/
structure FlareUnit where
  armed : Armed := .unknown
  /-- Ticks from whose frames on it starts anew as UNKNOWN: a step, or a change of its channel's RATE or mode (R150). -/
  disarmAt : List Nat := []
  lastFlare : Option Inst := none
  /-- Values of the last 257 samples, newest first, none where not admitted (SLOPE). -/
  recent : List (Option Int) := []
  sections : List Section := []
  /-- y² of the last 2^C samples in 2^-32, newest first (BAND). -/
  ys : List Nat := []
deriving DecidableEq, Repr

/-- A decided flare kept for coincidences (07 R152). -/
structure Member where
  unit : Nat
  /-- Its instant on the present timebase; a REMOTE unit's as its message carries it. -/
  inst : Inst
  /-- Operating time of its decision, in 1/4,000 s. -/
  decided : Nat
  /-- COINCIDENCE units whose firing consumed it. -/
  consumed : List Nat := []
deriving DecidableEq, Repr

/-- An event flare not yet decided (07 R151). -/
structure EventFlare where
  unit : Nat
  inst : Inst
  epoch : Nat
  /-- `TimeSt.shift` of the timebase it was stamped on; none for a message's stamp. -/
  shift : Option Inst := none
  /-- The tick at which it is decided. -/
  due : Nat
deriving DecidableEq, Repr

/-- A flare to be decided: its instant, the epoch it is stamped with and `TimeSt.shift` of the timebase it was read on, each the present
one where none is given (07 R151, 10 R231). -/
structure Cand where
  unit : Nat
  inst : Inst
  epoch : Option Nat := none
  shift : Option Inst := none
deriving DecidableEq, Repr

/-- Consecutive capture positions within one frame (07 R157, R171): frame, index of the first slot in it, slots; the words
of each channel of the set where they were copied to the post buffer, none while they stand in the ring; the gap reason
where they are lost, 0 otherwise. -/
structure CapSeg where
  tick : Nat
  first : Nat
  count : Nat
  copy : Option (List (List Word)) := none
  lost : Nat := 0
deriving DecidableEq, Repr

/-- A capture (07 R156 to R170). -/
structure Capture where
  id : Nat
  /-- The descriptor it was started under (07 R154). -/
  desc : Bytes
  rate : Nat
  units : List Nat
  trig : Stamp
  /-- Decision tick, and the trigger slot's place on the reference channel's present grid, whose RATE code stands beside it: as many
  grid instants before the latest tick as there are slots between them. -/
  decided : Nat
  trigGrid : Inst
  gridRate : Nat
  /-- Frame and index of the trigger slot, once that frame has settled. -/
  trigAt : Option (Nat × Nat) := none
  /-- Slots still to pass before the first captured one. -/
  skip : Nat := 0
  pre : Nat
  preShort : Bool
  post : Nat
  extended : Bool := false
  /-- Closed by CUT: the post window ends at the last slot before this tick. -/
  cut : Option Nat := none
  stepped : Bool := false
  retrigs : Nat := 0
  retrigList : List (Nat × Nat) := []
  hasBuffer : Bool
  /-- Its buffer was taken by a later capture, or released before its header was emitted (07 R164). -/
  recycled : Bool := false
  segs : List CapSeg := []
  /-- The header has been emitted; the record whole, once it is released (16 R396). -/
  headerDone : Bool := false
  header : Bytes := []
  /-- Positions exported, and the segments they leave. -/
  exported : Nat := 0
deriving DecidableEq, Repr

/-- States of a capture definition (14 R356), in code order. -/
inductive CapState
  | armed | running | rearm | disabled
deriving DecidableEq, Repr

/-- Run state of one capture definition. -/
structure CapDef where
  state : CapState := .disabled
  nextId : Nat := 0
  caps : List Capture := []
  /-- The latest REARM interval [from, to) (07 R157, R162). -/
  rearmFrom : Inst := 0
  rearmTo : Inst := 0
  missedRearm : Nat := 0
  missedOld : Nat := 0
  missedFirst : Option Stamp := none
  missedTotal : Nat := 0
  /-- Export budget in bytes·T not yet used; below 0 while a header's bytes are still to be made up (07 R171). -/
  budget : Int := 0
deriving DecidableEq, Repr

/-- The capture engine. -/
structure Cap where
  units : List FlareUnit := List.replicate 16 {}
  members : List Member := []
  events : List EventFlare := []
  /-- Pending FLARE_NOW: unit and instant (14 R356). -/
  now : List (Nat × Inst) := []
  flareSeq : Nat := 0
  lastTrig : Option Inst := none
  defs : List CapDef := List.replicate 8 {}
  /-- The capture ring's settled frames, oldest first (07 R145). -/
  ring : List Frame := []
  /-- Histogram bins by channel and bin, only those not 0 (07 R166). -/
  hist : List ((Nat × Nat) × Nat) := []
  /-- Map cells by definition, channel and cell, only those not 0 (07 R167). -/
  maps : List ((Nat × Nat × Nat) × Nat) := []
  /-- Slots already counted: area (0 histograms, d + 1 the maps of definition d), channel, frame, first index, count. -/
  counted : List (Nat × Nat × Nat × Nat × Nat) := []
deriving DecidableEq, Repr, Inhabited

/-- Why a compression job stopped (08 R195), in code order. -/
inductive JobStop
  | done | outputFull | sourceLost | cancelled
deriving DecidableEq, Repr

/-- A compression job (08 R194). -/
structure Job where
  req : Req
  def_ : Nat
  capId : Nat
  outSize : Nat
  pos : Nat
  /-- Slots per channel consumed since the job began. -/
  slots : Nat := 0
  running : Bool := true
  stop : Option JobStop := none
  cancelAsked : Bool := false
  sourceLost : Bool := false
  buf : Bytes := []
  bodies : Nat := 0
  /-- Channels whose next block is seeded. -/
  seeds : List Nat := []
  hist : List (Nat × List Int) := []
  /-- Bursts of 256 bytes of the buffer that an uncorrectable error took, by their offset (16 R404). -/
  lost : List Nat := []
deriving DecidableEq, Repr

/-! ## Record stream (09) -/

/-- A channel's words of one body, as the encoder meets them (08 R188). -/
structure BlockIn where
  ch : Nat
  words : List Word
  /-- A seed is due; up to three history values, newest first; the neighbour the map enables. -/
  seed : Bool
  hist : List Int
  nb : Option Nat
  /-- A copied block that could not be decoded for want of a history: its bytes as received, and its words (08 R192). -/
  kept : Bytes := []
  lost : Nat := 0
deriving DecidableEq, Repr

/-- A record (09 R198). -/
structure Rec where
  ty : Nat
  /-- Order of release within the tick (09 R204). -/
  order : Nat
  late : Bool := false
  seq : Nat := 0
  stamp : Stamp := {}
  payload : Bytes := []
  /-- FRAME: the frame, and its blocks as they were encoded, for reseed repair (08 R190). -/
  frame : Option Nat := none
  blocks : List BlockIn := []
  /-- LEDGER: the payload is built at the release. -/
  ledger : Bool := false
  /-- OCCULTATION: the withdrawn numbers it names, and the slots it counts by channel. -/
  names : List Nat := []
  occSlots : List (Nat × Nat) := []
deriving DecidableEq, Repr

/-- A record held in the spill reserve. -/
structure Held where
  record : Rec
  /-- Tick of its release; below 0 for a copy released before the hub's own tick 0. -/
  tick : Int
  sent : Bool := false
  /-- Copied to the outlets that ask for copies, or passed over there (09 R218). -/
  copied : Bool := false
  /-- Cells left that the far link has not acknowledged, or sent whole and acknowledged (11 R278). -/
  linkAcked : Bool := false
  /-- Its data was lost to a DRAM_UE: the trailer fails (16 R404). -/
  damaged : Bool := false
deriving DecidableEq, Repr

/-- Withdrawn records and the number of the OCCULTATION that names them (09 R227); of one that a standby copied, the range it
names. -/
structure Withdrawn where
  seqs : List Nat := []
  span : Option (Nat × Nat) := none
  occSeq : Nat
deriving DecidableEq, Repr

/-- Frames whose slots wait for an ECLIPSE occultation (09 R209). -/
structure EclSpan where
  firstTick : Nat
  ticks : Nat
  slots : List (Nat × Nat)
deriving DecidableEq, Repr

/-- The record assembler, the spill reserve and custody. -/
structure Stream where
  nextSeq : Nat := 0
  firstSeq : Nat := 0
  due : List Rec := []
  reserve : List Held := []
  assigned : Nat := 0
  acked : Nat := 0
  /-- Records of a snapshot's ledger whose copies have not arrived yet (12 R311). -/
  uncopied : Nat := 0
  withdrawn : Nat := 0
  withdrawnBy : List Withdrawn := []
  /-- Freed FRAME records above the lowest one held, with the channels of their blocks (08 R190). -/
  freedFrames : List (Nat × List Nat) := []
  acks : List (Nat × Nat) := []
  retx : List (Nat × Nat) := []
  ledgerFirst : Bool := true
  /-- Rate, delay or state of a channel changed at the coming tick (09 R207). -/
  ledgerDue : Bool := false
  eclSpan : Option EclSpan := none
  /-- Records to resend, by sequence number, ahead of those not yet sent (09 R227). -/
  resend : List Nat := []
  /-- Settled frames held back for order (02 R32). -/
  lastFrame : Option Nat := none
  /-- ENABLE of the latest frame encoded, and bodies to come that an engine gets wrong (08 R189, R191). -/
  wasEnabled : Bool := true
  badBodies : Nat := 0
deriving DecidableEq, Repr

/-- Outlet FIFOs but the host's, and copy-drop counts. -/
structure Outlets where
  lane : Fifo := {}
  eth : Fifo := {}
  ethDrops : Nat := 0
  /-- The record on its way into datagrams: SEQ, LENGTH and bytes sent (11 R289). -/
  ethCur : Option (Nat × Nat × Nat) := none
deriving DecidableEq, Repr

/-! ## Lanes, links, Ethernet (11) -/

/-- Lane states (11 R286), in code order. -/
inductive LaneState
  | off | searching | training | up | miswired | retired | loopback | farLooped | ethDown | ethUp
deriving DecidableEq, Repr

/-- Training phases (11 R261). -/
inductive Train
  | idle | search | caps | adapt | step | revert | settle
deriving DecidableEq, Repr

/-- Transmitter taps (11 R262). -/
structure Taps where
  pre : Nat := 0
  main : Nat := 63
  post : Nat := 0
deriving DecidableEq, Repr

/-- One lane. -/
structure Lane where
  state : LaneState := .searching
  rate : Option Nat := some 0
  train : Train := .idle
  /-- Wait before the next attempt in ms, 0 before the first (11 R265). -/
  waitMs : Nat := 0
  /-- Character boundary held, consecutive sets on one boundary, lone K28.5 run (11 R259). -/
  aligned : Option Nat := none
  setRun : Nat × Nat := (0, 0)
  commaRun : Nat × Nat := (0, 0)
  heard : Bool := false
  farHeard : Bool := false
  taps : Taps := {}
  tapReq : Nat := 0
  tapSts : Nat := 0
  rxReady : Bool := false
  farLane : Nat := 0xFF
  farHub : BitVec 32 := 0
  topRate : Nat := 0
  passed : Option Nat := none
  passedTaps : Taps := {}
  doneSent : Bool := false
  doneHeard : Bool := false
  reachedCaps : Bool := false
  countdown : Nat := 15
  /-- Operating times of failed trainings, newest first, in 1/4,000 s (11 R267). -/
  fails : List Nat := []
  upSince : Option Nat := none
  eyeH : Nat := 0
  eyeV : Nat := 0
  crcErrors : Word := 0
  replays : Word := 0
  lockLosses : Word := 0
  prbsErrors : Word := 0
  /-- Own latency of the trained rate in 1/65,536 ns: serialiser; deserialiser and equaliser (R237). -/
  latTx : Nat := 0
  latRx : Nat := 0
  /-- Settled and measured: the lane waits for first light (11 R261). -/
  measured : Bool := false
  /-- UP again, and back in its bond from the coming tick; stopped for the far side's loss (11 R277). -/
  rejoin : Bool := false
  stopped : Bool := false
  /-- A sound cell has come since the lane reached UP; instants of the replays its errors asked for (11 R268). -/
  carried : Bool := false
  /-- It has reported LOS or LOL since it was last UP, or has not been UP yet (10 R246). -/
  silent : Bool := true
  asked : List Inst := []
  /-- Running disparity of what it sends, above zero (11 R259); PRBS31 sent and checked in a test loop (11 R269). -/
  disparity : Bool := false
  prbsTx : BitVec 31 := 0x7FFFFFFF
  prbsRx : Option (BitVec 31) := none
  shadowTable : Option (Nat × List Nat) := none
  /-- TIME messages: next TX_ID, own departures, far message echoed (TX_ID, T_DEP stamp bytes, arrival). -/
  txId : Nat := 0
  departures : List (Nat × Inst × Nat) := []
  farMsg : Option (Nat × Bytes × Stamp) := none
  timeDue : Bool := false
  loopReq : Bool := false
  loopCount : Nat := 0
  loopSeen : List Nat := []
deriving DecidableEq, Repr

/-- A unit partly received: class, origin, cells so far in order. -/
structure Partial where
  cls : Nat
  origin : BitVec 32
  data : Bytes
deriving DecidableEq, Repr

/-- A sequenced cell without LSEQ and ACK (11 R270): CLASS, FLAGS, HOPS, ORIGIN and the payload bytes used; for a cell that is
forwarded, the link and the class index of the receive buffer it stands in. -/
structure Cell where
  cls : Nat
  flags : Nat
  hops : Nat := 0
  origin : BitVec 32
  data : Bytes
  src : Option (Nat × Nat) := none
deriving DecidableEq, Repr

/-- One link: the east bond, the west bond, lane P or lane U in KSP. -/
structure Link where
  up : Bool := false
  initialised : Bool := false
  ready : Bool := false
  /-- A RESYNC is to leave as the next cell; it answers one already heard; one has left and the far side's has not come; one has been
  heard since the link was initialised (11 R274, R277). -/
  resyncDue : Bool := false
  resyncAnswer : Bool := false
  resyncSent : Bool := false
  resyncHeard : Bool := false
  /-- A CREDIT is to leave ahead of other cells (11 R273). -/
  creditDue : Bool := false
  nextLseq : BitVec 16 := 0
  /-- Sequenced cells not yet acknowledged, oldest first. -/
  replay : List (BitVec 16 × Cell) := []
  /-- Cells to send again. -/
  resendQ : List (BitVec 16 × Cell) := []
  /-- Credits held for MAILBOX, FLARE, DATA, PASS, SHADOW. -/
  credits : List Nat := [0, 0, 0, 0, 0]
  /-- Far side's cumulative freed counts as last received. -/
  farFreed : List Nat := [0, 0, 0, 0, 0]
  /-- Own cumulative freed counts, and those last reported. -/
  freed : List Nat := [0, 0, 0, 0, 0]
  reported : List Nat := [0, 0, 0, 0, 0]
  /-- Own receive buffers free; all of them at reset (11 R273). -/
  rxFree : List Nat := [32, 16, 192, 272, 0]
  expect : BitVec 16 := 0
  /-- LSEQ of the last cell accepted in order, and whether one has been since first light (11 R275). -/
  accepted : BitVec 16 := 0
  acceptedValid : Bool := false
  ahead : List (BitVec 16 × Cell) := []
  /-- Lanes that delivered a cell beyond the gap (11 R272). -/
  beyond : List Nat := []
  partials : List Partial := []
  /-- LINK messages waiting to be sent, oldest first. -/
  linkQ : List Bytes := []
  /-- Cells waiting by class: MAILBOX, FLARE, DATA, PASS, SHADOW. -/
  outQ : List (List Cell) := [[], [], [], [], []]
  /-- Last cells of own records with the record's SEQ, and the record on its way: SEQ, LENGTH, bytes sent (11 R271). -/
  lastCells : List (BitVec 16 × Nat) := []
  cur : Option (Nat × Nat × Nat) := none
  /-- PASS: the origin whose record is on its way, and the origin last served (11 R285). -/
  passCur : Option (BitVec 32) := none
  passLast : BitVec 32 := 0
  /-- Records discarded because they came from the custody direction (11 R285). -/
  discarded : Nat := 0
deriving DecidableEq, Repr

/-- A mailbox message being reassembled from datagrams (11 R290). -/
structure Reasm where
  dest : BitVec 32
  mb : Nat
  msgId : BitVec 32
  total : Nat
  data : List (Nat × Bytes)
deriving DecidableEq, Repr

/-- The PTP port (11 R291). -/
structure Ptp where
  master : Option Announce := none
  portMaster : Bool := false
  /-- t3 and t4 of the latest completed delay exchange, with its correction (10 R240). -/
  delay : Option (Inst × Inst × Int) := none
  reqSent : Option Inst := none
  /-- Operating time of the selected master's latest Announce, in 1/4,000 s. -/
  announceAt : Nat := 0
  syncSeq : Nat := 0
  announceSeq : Nat := 0
  delaySeq : Nat := 0
  wasTraceable : Bool := false
deriving DecidableEq, Repr

/-- A record of another hub on its way into datagrams (11 R289): ORIGIN, SEQ, offset of the first byte held, bytes held. -/
structure EthFwd where
  origin : BitVec 32
  seq : Nat
  offset : Nat
  data : Bytes
deriving DecidableEq, Repr

/-- Lane U in Ethernet. -/
structure Eth where
  arp : List (BitVec 32 × BitVec 48) := []
  fwd : List EthFwd := []
  reasm : List Reasm := []
  ptp : Ptp := {}
deriving DecidableEq, Repr

/-- A message that has left the hub (log 12). -/
inductive OutMsg
  | cell (lane : Nat) (bytes : Bytes)
  | ts (lane : Nat) (bytes : Bytes)
  | idle (lane : Nat)
  /-- 256 bytes of PRBS31, least significant bit first. -/
  | prbs (lane : Nat) (bytes : Bytes)
  /-- A UDP datagram: address and port it goes to, SRC_PORT, DSCP, payload (11 R288, R289); sent with DF set. -/
  | datagram (dst : BitVec 32) (port src dscp : Nat) (bytes : Bytes)
  /-- An ARP message: the address asked for, or the asker's; the asker's MAC in a reply; the hub's own MAC (11 R287). -/
  | arp (isReply : Bool) (ip : BitVec 32) (mac own : BitVec 48)
  /-- The base page of Clause 37 auto-negotiation (11 R287). -/
  | autoneg (page : Nat)
  /-- A PTP message: PTP_TRANSPORT, PTP_DOMAIN, messageType, the first octet of flagField, sourcePortIdentity, sequenceId, body (11 R288,
  R291). -/
  | ptp (transport domain : Nat) (kind flags port : Nat) (seq : Nat) (bytes : Bytes)
  /-- The response of a command that resets the hub. -/
  | mailbox (mb : Nat) (bytes : Bytes)
deriving DecidableEq, Repr

/-! ## Pair (12) -/

/-- Pair states (12 R296), in code order. -/
inductive PairState
  | active | activeSolo | shadowing | resyncing | detached
deriving DecidableEq, Repr

/-- The latest STATUS unit of the partner (12 R302). -/
structure Partner where
  state : Nat
  eclipse : Bool
  granted : Bool
  epoch : Nat
  nextSeq : Nat
  tick : Nat
deriving DecidableEq, Repr

/-- Pair state of the hub. -/
structure PairSt where
  /-- PAIRED and GRANT_LOW of the first light (12 R295). -/
  paired : Bool := false
  grantLow : Bool := false
  conflictTicks : Nat := 4
  state : PairState := .active
  partner : Option Partner := none
  /-- GRANT_IN qualified since first light. -/
  grant : Bool := false
  unreadyRaised : Bool := false
  hbStopped : Bool := false
  conflict : Nat := 0
  offset : Int := 0
  unitsRx : Nat := 0
  shadowLost : Nat := 0
  relaySent : Nat := 0
  lastVerdict : Option Nat := none
  lastRaw : Option Nat := none
  rawTiles : List (Nat × Nat) := []
  silent : Nat := 0
  takeoverAt : Option Nat := none
  /-- Active: live units flow to the partner (12 R311), snapshot tick and records still to copy. -/
  live : Bool := false
  snapshot : Option Nat := none
  copyLeft : List Nat := []
  /-- Standby: resynchronisation asked for, snapshot taken, copy complete, first digest passed; PAIR_RESYNC messages sent, and the
  operating time before which none is sent again (R313). -/
  resyncWait : Bool := false
  snapped : Bool := false
  copyDone : Bool := false
  digestOk : Bool := false
  resyncSent : Nat := 0
  retryAt : Option Nat := none
  /-- Units for ticks that the hub's own clock has not reached yet, oldest first. -/
  early : List Bytes := []
  /-- Standby, in own ticks: the latest tick whose frames have settled, the latest whose records are released; flares of settled
  frames that wait for their tick's EVENT unit: tick, unit, instant. -/
  settledTick : Nat := 0
  doneTick : Nat := 0
  flares : List (Nat × Cand) := []
  /-- Verdicts applied at the latest ticks, for a snapshot (R312). -/
  applied : List (Nat × List Verdict) := []
  /-- The takeover verdict of R308 has been issued for the coming tick. -/
  taken : Bool := false
  /-- The stamp of the latest RAW unit. -/
  rawStamp : Stamp := {}
  /-- Trailers of the records released at the latest tick, for DIGEST. -/
  released : List (Nat × BitVec 32) := []
  /-- Records of RECORD units that wait for their tick's release: tick, record. -/
  records : List (Nat × Rec) := []
  /-- SHADOW cells queued and covered by a link-level ACK since the link initialised (R305), the count queued when each
  tick's DIGEST was, and answers to shadowed commands that wait for their COMMAND unit: mark, mailbox, message. -/
  queuedCells : Nat := 0
  coveredCells : Nat := 0
  marks : List (Nat × Nat) := []
  heldResp : List (Nat × Nat × Bytes) := []
deriving DecidableEq, Repr

/-! ## Mailboxes (13) -/

/-- A message that waits in a mailbox. -/
structure Waiting where
  mb : Nat
  msg : Bytes
  /-- The lane it came by, 7 for a UDP datagram (12 R302). -/
  via : Nat := 7
deriving DecidableEq, Repr

/-- Wiori's mailboxes. -/
structure Mbx where
  waiting : List Waiting := []
  last : Nat := 7
  counters : List CtrEntry := []
  /-- PENDING commands by mailbox (13 R316, R322). -/
  pendingIn : List (Nat × Nat) := []
  /-- Critical requests that have answered PENDING, with the key their tag verified under (R322). -/
  noticeKeys : List (Req × Option Bytes) := []
deriving DecidableEq, Repr

/-- Firmware update state (13 R335). -/
structure Fw where
  staging : List Host.Cell := []
  verified : Bool := false
  verifying : Option Req := none
  installing : Option Req := none
deriving DecidableEq, Repr

/-! ## Faults and journal (15) -/

/-- A raise in the collector's queue (15 R385). -/
structure Raise where
  source : Nat
  inst : Nat
  start : Inst
  capture : Inst
  forced : Bool := false
  real : Bool := true
  sub : Nat := 0
  detail : BitVec 64 := 0
  /-- The condition cleared while the raise waited. -/
  ended : Option Inst := none
  /-- A raw-window word restored from its ring copy: handled as TRANSIENT with reaction LOG (15 R376). -/
  soft : Bool := false
  /-- Raises that found the queue full and were merged into this one: source, instance. -/
  merged : List (Nat × Nat) := []
deriving DecidableEq, Repr

/-- An occurrence that is asserted (15 R372). -/
structure Occ where
  source : Nat
  inst : Nat
  start : Inst
  forced : Bool
  real : Bool
  handled : Bool := false
  since : Nat := 0
  /-- A MODE 1 force asserts it for one tick interval (15 R389). -/
  once : Bool := false
  /-- Cleared in this tick interval: an assertion before the tick continues it (15 R372); and at which instant. -/
  cleared : Bool := false
  endAt : Option Inst := none
  /-- Asserted again in this tick interval from an instant on: its verdict over the pause is due (15 R372, R375). -/
  again : Option Inst := none
  /-- A force applied ahead of the coming tick, from which its interval counts (15 R389). -/
  ahead : Bool := false
  /-- The CFG_FAULT entry of its source in force when it began: new values apply from the next occurrence (15 R374). -/
  conf : Option FaultCfg := none
deriving DecidableEq, Repr

/-- An entry of the history queue (15 R384). -/
structure Hist where
  source : Nat
  inst : Nat
  cls : Nat
  reaction : Nat
  flags : Nat
  merges : Nat := 0
  occurrences : Nat
  secondary : List Nat := []
  opSeconds : Nat
  stamp : Stamp
  detail : BitVec 64
deriving DecidableEq, Repr

/-- The fallback capture set (15 R388). -/
structure Fallback where
  valid : Bool := false
  master : Nat := 0xFF
  access : Nat := 0
  later : Nat := 0
  source : Nat := 0
  address : Nat := 0
  stamp : Stamp := {}
deriving DecidableEq, Repr

/-- The eclipse state (15 R379 to R381): entry tick and instant, causing source instances with the operating time at which each
cleared. -/
structure Eclipse where
  tick : Nat
  inst : Inst
  causes : List (Nat × Nat × Option Nat)
  fatal : Bool
  /-- The hub leaves the state at the coming tick. -/
  exitDue : Bool := false
deriving DecidableEq, Repr

/-- The fault collector. -/
structure Faults where
  queue : List Raise := []
  occ : List Occ := []
  /-- Capture times of occurrences per source instance, newest first, in operating seconds. -/
  counts : List ((Nat × Nat) × List Nat) := []
  perm : List (Nat × Nat) := []
  /-- REMAP reactions declared in the interval: front end and source, resolved at the coming tick (15 R377, R378). -/
  remaps : List (Nat × Nat) := []
  /-- Force bits: source, instance, held (MODE 2). -/
  force : List (Nat × Nat × Bool) := []
  history : List Hist := []
  fallback : Fallback := {}
  historyOk : Bool := true
  eclipse : Option Eclipse := none
  /-- The collector's hardware carries the eclipse state since this operating time (15 R382). -/
  hardware : Option Nat := none
deriving DecidableEq, Repr

/-- An open suppression run (15 R394). -/
structure SuppRun where
  code : Nat
  count : Nat
  first : Nat
deriving DecidableEq, Repr

/-- The journal's SRAM side. -/
structure Journal where
  queue : List JRec := []
  /-- Tokens of the buckets that are not full, by code. -/
  buckets : List (Nat × Nat) := []
  runs : List SuppRun := []
  /-- 6-s periods of operating time whose tokens have been added (15 R394). -/
  refilled : Nat := 0
  /-- Records of a lower index stand in erased sectors (R393). -/
  erasedTo : Nat := 0
deriving DecidableEq, Repr

/-! ## Memory, windows, arbiter (16) -/

/-- A transfer window (14 R359, R360, 16 R399, R400). -/
structure Window where
  isOpen : Bool := false
  object : Nat := 0
  def_ : Nat := 0
  job : Nat := 0
  capId : Nat := 0
  first : Nat := 0
  count : Nat := 0
  rate : Nat := 0
  mailbox : Nat := 0
  length : Nat := 0
  revoked : Bool := false
  /-- Resumable remainder: offset and bytes. -/
  rest : Option (Nat × Nat) := none
  /-- Translation table: the physical page of each page of the object, of the size of 16 R395; empty once revoked (R398, R399). -/
  table : List Nat := []
deriving DecidableEq, Repr

/-- Pages and pool blocks (16 R403, R406). -/
structure Mem where
  sparePages : Nat := 1024
  /-- Retired pages and their replacements; those whose move runs. -/
  retired : List (Nat × Nat) := []
  moving : List (Nat × Nat) := []
  poolFree : Nat := 1024
  poolUse : Nat := 0
  poolMoving : Nat := 0
deriving DecidableEq, Repr

/-- One requester on one resource (16 R407 to R411). -/
structure Requester where
  cls : Nat
  weight : Nat
  credit : Int := 0
deriving DecidableEq, Repr

/-- The pending queue of a requester (16 R411): its parked requests in arrival order, true for the encoder pair and false for the DRAM
port, and the request it stalls on while 4 are parked. -/
structure PendQueue where
  parked : List Bool := []
  stalled : Option Bool := none
deriving DecidableEq, Repr

/-- A resource of the arbiter. -/
structure Resource where
  reqs : List Requester
  holder : Option Nat := none
  /-- Last winner by class. -/
  last : List Nat := [0, 0, 0, 0]
  /-- A preempted burst: requester and bytes moved (16 R412). -/
  preempted : Option (Nat × Nat) := none
deriving DecidableEq, Repr

/-- The requesters' classes and weights (16 R407). -/
def requesters : List Requester :=
  let q (cls weight : Nat) : Requester := { cls := cls, weight := weight }
  [q 0 16, q 0 16, q 0 16, q 0 16, q 0 16, q 1 16, q 2 8, q 2 4, q 2 4, q 1 16, q 2 4, q 3 2, q 1 8, q 3 1, q 2 2, q 2 2, q 3 4, q 1 4, q 1 4, q 1 2]

/-- The arbiter. -/
structure Arb where
  dram : Resource := { reqs := requesters }
  enc : Resource := { reqs := requesters }
  pend : List PendQueue := List.replicate 20 {}
deriving DecidableEq, Repr

/-! ## The hub and the machine -/

/-- Everything but the host port and the command queue. -/
structure Hub where
  power : Power := {}
  flash : Flash := {}
  cfg : Cfg := {}
  changes : List Change := []
  staged : List Staged := []
  time : TimeSt := {}
  view : TickView := {}
  chans : List Chan := List.replicate 512 {}
  groups : List Group := List.replicate 64 {}
  fes : List Fe := List.replicate 576 {}
  tiles : List Tile := List.replicate 4 {}
  hk : Housekeeping := {}
  loops : List Loop := List.replicate 8 {}
  frames : List Frame := []
  verdicts : List Verdict := []
  arr : Arr := {}
  cap : Cap := {}
  jobs : List (Option Job) := [none, none, none, none]
  stream : Stream := {}
  outlets : Outlets := {}
  lanes : List Lane := List.replicate 6 {}
  links : List Link := [{}, {}, { rxFree := [32, 0, 0, 0, 480] }, {}]
  eth : Eth := {}
  pair : PairSt := {}
  hbOut : Bool := false
  mbx : Mbx := {}
  fw : Fw := {}
  faults : Faults := {}
  jr : Journal := {}
  windows : List Window := List.replicate 16 {}
  mem : Mem := {}
  arb : Arb := {}
  /-- What has left the hub, oldest first: the model's own view of its wires (log 12). -/
  out : List OutMsg := []
  /-- Free values drawn so far (log 9): a field of the model, not of the spec. -/
  free : Nat := 0
deriving DecidableEq, Repr

/-- The machine: the host port, the hub and the queue of commands that wait, first in first out. -/
structure State where
  host : HostPort := {}
  hub : Hub := {}
  pending : List Instr := []
deriving DecidableEq, Repr

/-- The hub right after a power-on reset, as shipped: BLANK, in SUPPLY, every register at its reset value. -/
def State.reset : State := {}

end Sys2Proof.Machine
end

