-- ==== Sys2Proof/Config.lean ====
section
/-! DEFINITION. What an implementation fixes and the spec does not give: constants without a body, so that nothing can be
proved about the value of one, and every claim holds for every value. -/

namespace Sys2Proof.Config

/-- A free value drawn by counter (log 9): a value the spec leaves open and the hub still produces. -/
opaque freeValue : Nat → BitVec 32

/-- Coefficient word of tap i of ROM stage k, two's complement times 2^-23: responses 0 to 15, HB1 16, HB2 17, HBx 18
(04 R96; log 7). -/
opaque romCoef : Nat → Nat → BitVec 24

/-- Band ROM: band code i, word j (0 to 19: b0, b1, b2, a1, a2 of each section) in signed Q2.30 (06 R126; log 7). -/
opaque bandCoef : Nat → Nat → BitVec 32

/-- Dither of the stream synthesised in a hold, for a channel and a MOD edge, in 2^-32: 04 R94 gives the stream's mean and not its
bits (log 9). -/
opaque holdDither : Nat → Int → BitVec 34

/-- Factory value of a tile's reference, in µV (05 R118; log 8). -/
opaque tileReference : Nat → BitVec 32

/-- Level of a tile's test DAC in µV at zero, +0.9 FS and −0.9 FS of a mode and range, computed from the measured reference in µV
(05 R118; log 8). -/
opaque dacLevel : Nat → Nat → Nat → Nat → Int → BitVec 32

/-- Expected level of a tile's spare monitor in µV at the same three levels (05 R118; log 8). -/
opaque spareLevel : Nat → Nat → Nat → Nat → Int → BitVec 32

/-- The urgent conversion, by source and SUB, that the fault collector asks for when it handles an occurrence of a fault source and
instance, if it asks for one (05 R117; log 9). -/
opaque collectorConversion : Nat → Nat → Option (Nat × Nat)

/-- Factory offset o_s in Q8.32 of a front end, mode and range (05 R100; log 8). -/
opaque factoryOffset : Nat → Nat → Nat → BitVec 40

/-- Factory gain g_s in 2.30 of a front end, mode and range (05 R100; log 8). -/
opaque factoryGain : Nat → Nat → Nat → BitVec 32

/-- Level factor k_t in 2.30 of a tile's test DAC, corrected for a tile temperature in 0.01 °C (05 R98; log 8). -/
opaque levelFactor : Nat → Int → BitVec 32

/-- The factory transport key (13 R329; log 8). -/
opaque transportKey : Nat → BitVec 8

/-- Public signing keys 0 to 3, coordinates x and y (13 R334; log 8). -/
opaque signerX : Nat → BitVec 256

/-- The y coordinate of a signing key. -/
opaque signerY : Nat → BitVec 256

/-- Serial number (14 R348; log 8). -/
opaque serial : Nat → BitVec 64

/-- Lane U MAC address (11 R287; log 8). -/
opaque mac : Nat → BitVec 48

/-- offsetScaledLogVariance of the hub's clock in its Announce messages (11 R291; log 25). -/
opaque clockVariance : Nat → BitVec 16

/-- Byte i of the firmware image in slot A as shipped (13 R334; log 1). -/
opaque factoryImage : Nat → BitVec 8

/-- The firmware's image of the reduction state in snapshot section 6, on a hub with a tick offset, and what it reads back from
one (12 R312; log 9). -/
opaque reductionImage : Int → Machine.Arr → Bytes

/-- The reduction state read from an image. -/
opaque reductionOfImage : Int → Bytes → Machine.Arr

/-- The firmware's image of the flare, capture and encoder state in snapshot section 7, and what it reads back from one
(12 R312; log 9). -/
opaque captureImage : Machine.Hub → Bytes

/-- The flare and capture state read from an image. -/
opaque captureOfImage : Int → Bytes → Machine.Cap

/-- The encoder history of a channel read from an image: values, whether a seed is due, stream tick of the latest block. -/
opaque historyOfImage : Int → Bytes → Nat → List Int × Bool × Option Nat

/-- The FORMAT number this firmware writes for snapshot section 6 or 7 (12 R312; log 9). -/
opaque sectionFormat : Nat → BitVec 16

/-- The physical page that holds a page of a window's object, by object, definition or job, and page (16 R398): where an object lies in its
memory is the implementation's. -/
opaque objectPage : Nat → Nat → Nat → BitVec 17

end Sys2Proof.Config
end

