-- ==== Sys2Proof/Machine/Bits.lean ====
section
/-! DEFINITION. Byte order, check values, hashes, exact rounding and binary32: the helpers every other file of
the machine uses (00 R2, 04 R80, 08 R187, 13 R321). -/

namespace Sys2Proof.Machine

/-! ## Little-endian fields (00 R2) -/

/-- The `n` low bytes of a number, least significant first. -/
def leNat : Nat → Nat → Bytes
  | 0, _ => []
  | n + 1, v => BitVec.ofNat 8 v :: leNat n (v / 256)

/-- The number a byte string spells, least significant byte first. -/
def ofLe : Bytes → Nat
  | [] => 0
  | b :: bs => b.toNat + 256 * ofLe bs

/-- A two's complement number of `n` bytes. -/
def leInt (n : Nat) (v : Int) : Bytes := leNat n (v % (2 ^ (8 * n) : Nat)).toNat

/-- Sign extension of a `w`-bit number. -/
def sext (w : Nat) (v : Nat) : Int :=
  let m := v % 2 ^ w
  if m < 2 ^ (w - 1) then (m : Int) else (m : Int) - (2 ^ w : Nat)

/-- The two's complement pattern of a number in `w` bits. -/
def twos (w : Nat) (v : Int) : Nat := (v % (2 ^ w : Nat)).toNat

/-- The field of `n` bytes at an offset. -/
def fieldAt (bs : Bytes) (off n : Nat) : Nat := ofLe ((bs.drop off).take n)

/-- The signed field of `n` bytes at an offset. -/
def sfieldAt (bs : Bytes) (off n : Nat) : Int := sext (8 * n) (fieldAt bs off n)

/-- Bits [hi:lo] of a number. -/
def bitsOf (v hi lo : Nat) : Nat := v / 2 ^ lo % 2 ^ (hi + 1 - lo)

/-- Bit `i` of a number. -/
def bitOf (v i : Nat) : Bool := v / 2 ^ i % 2 == 1

/-- A flag as a number. -/
def b2n (b : Bool) : Nat := if b then 1 else 0

/-- `n` zero bytes. -/
def zeros (n : Nat) : Bytes := List.replicate n 0

/-- A byte string cut or padded with zeros to `n` bytes. -/
def padTo (n : Nat) (bs : Bytes) : Bytes := (bs ++ zeros (n - bs.length)).take n

/-- Every byte of a string is zero: a reserved field written as zero (00 R3). -/
def allZero (bs : Bytes) : Bool := bs.all (· == 0)

/-- A byte string cut into pieces of `n` bytes, at most `fuel` of them. -/
def chunksFuel (n : Nat) : Nat → Bytes → List Bytes
  | 0, _ => []
  | fuel + 1, bs => if bs.isEmpty then [] else bs.take n :: chunksFuel n fuel (bs.drop n)

/-- A byte string cut into pieces of `n` bytes. -/
def chunks (n : Nat) (bs : Bytes) : List Bytes := chunksFuel n bs.length bs

/-- The bits of a number, bit 0 first. -/
def bitsLe : Nat → Nat → List Bool
  | 0, _ => []
  | w + 1, v => (v % 2 == 1) :: bitsLe w (v / 2)

/-- The number a list of bits spells, bit 0 first. -/
def ofBits : List Bool → Nat
  | [] => 0
  | b :: bs => b2n b + 2 * ofBits bs

/-! ## CRC-32C (08 R187) -/

/-- One bit step of the reflected CRC with polynomial 0x1EDC_6F41. -/
def crcBit (c : BitVec 32) : BitVec 32 :=
  if c.getLsbD 0 then (c >>> 1) ^^^ 0x82F63B78#32 else c >>> 1

/-- One byte step. -/
def crcByte (c : BitVec 32) (b : Byte) : BitVec 32 :=
  crcBit (crcBit (crcBit (crcBit (crcBit (crcBit (crcBit (crcBit (c ^^^ b.setWidth 32))))))))

/-- CRC-32C of a byte string. -/
def crc32c (bs : Bytes) : BitVec 32 := (bs.foldl crcByte 0xFFFFFFFF#32) ^^^ 0xFFFFFFFF#32

/-! ## SHA-256 and HMAC-SHA-256 (13 R321)

The hash works on lists of 32-bit words.  A number stands for the words of its hexadecimal digits, eight digits
a word, the first word in the highest digits: the same order in which the hash reads its message. -/

/-- The `n` 32-bit words of a number, the highest first. -/
def words32 : Nat → Nat → List (BitVec 32)
  | 0, _ => []
  | n + 1, v => BitVec.ofNat 32 (v / 2 ^ (32 * n)) :: words32 n v

/-- The number a byte string spells, most significant byte first. -/
def ofBe (bs : Bytes) : Nat := bs.foldl (fun n b => 256 * n + b.toNat) 0

/-- The 64 additive constants, eight a row: the fractions of the cube roots of the first 64 primes. -/
def cubeRoots : List (BitVec 32) :=
  words32 8 0x428A2F9871374491B5C0FBCFE9B5DBA53956C25B59F111F1923F82A4AB1C5ED5 ++
  words32 8 0xD807AA9812835B01243185BE550C7DC372BE5D7480DEB1FE9BDC06A7C19BF174 ++
  words32 8 0xE49B69C1EFBE47860FC19DC6240CA1CC2DE92C6F4A7484AA5CB0A9DC76F988DA ++
  words32 8 0x983E5152A831C66DB00327C8BF597FC7C6E00BF3D5A7914706CA635114292967 ++
  words32 8 0x27B70A852E1B21384D2C6DFC53380D13650A7354766A0ABB81C2C92E92722C85 ++
  words32 8 0xA2BFE8A1A81A664BC24B8B70C76C51A3D192E819D6990624F40E3585106AA070 ++
  words32 8 0x19A4C1161E376C082748774C34B0BCB5391C0CB34ED8AA4A5B9CCA4F682E6FF3 ++
  words32 8 0x748F82EE78A5636F84C878148CC7020890BEFFFAA4506CEBBEF9A3F7C67178F2

/-- The chaining value before the first block: the fractions of the square roots of the first eight primes. -/
def squareRoots : List (BitVec 32) :=
  words32 8 0x6A09E667BB67AE853C6EF372A54FF53A510E527F9B05688C1F83D9AB5BE0CD19

/-- The exclusive or of a word turned right by each of three counts. -/
def turns (w : BitVec 32) (i j k : Nat) : BitVec 32 := w.rotateRight i ^^^ w.rotateRight j ^^^ w.rotateRight k

/-- The exclusive or of a word turned right by two counts and shifted right by a third. -/
def turnsShift (w : BitVec 32) (i j k : Nat) : BitVec 32 := w.rotateRight i ^^^ w.rotateRight j ^^^ (w >>> k)

/-- The word that enters the sliding window of sixteen message words, oldest first. -/
def windowNext (win : List (BitVec 32)) : BitVec 32 :=
  win.headD 0 + win.getD 9 0 + turnsShift (win.getD 1 0) 7 18 3 + turnsShift (win.getD 14 0) 17 19 10

/-- The words that leave the window in `n` moves: the message schedule of a block. -/
def slideWindow : Nat → List (BitVec 32) → List (BitVec 32)
  | 0, _ => []
  | n + 1, win => win.headD 0 :: slideWindow n (win.drop 1 ++ [windowNext win])

/-- One round on the eight working words, with the sum of its constant and its schedule word. -/
def hashRound (vs : List (BitVec 32)) (kw : BitVec 32) : List (BitVec 32) :=
  match vs with
  | [a, b, c, d, e, f, g, h] =>
    let low := kw + h + turns e 6 11 25 + (g ^^^ (e &&& (f ^^^ g)))
    let high := turns a 2 13 22 + ((a &&& (b ||| c)) ||| (b &&& c))
    [low + high, a, b, c, d + low, e, f, g]
  | _ => vs

/-- The chaining value after one 64-byte block. -/
def hashBlock (cv : List (BitVec 32)) (block : Bytes) : List (BitVec 32) :=
  let sched := slideWindow 64 (words32 16 (ofBe block))
  List.zipWith (· + ·) cv ((List.zipWith (· + ·) cubeRoots sched).foldl hashRound cv)

/-- A message followed by the bit 1, zeros, and its length in bits as eight bytes, to whole blocks. -/
def hashPadded (m : Bytes) : Bytes :=
  let tail := (leNat 8 (8 * m.length)).reverse
  (m ++ [0x80]) ++ zeros ((64 - (m.length + 9) % 64) % 64) ++ tail

/-- SHA-256 of a byte string. -/
def sha256 (m : Bytes) : Bytes :=
  ((chunks 64 (hashPadded m)).foldl hashBlock squareRoots).flatMap fun w => (leNat 4 w.toNat).reverse

/-- HMAC-SHA-256 of a message under a key of at most 64 bytes. -/
def hmac (key m : Bytes) : Bytes :=
  let k := padTo 64 key
  sha256 (k.map (· ^^^ 0x5c) ++ sha256 (k.map (· ^^^ 0x36) ++ m))

/-- The tag: the leftmost 16 bytes of the HMAC (R321). -/
def tagOf (key m : Bytes) : Bytes := (hmac key m).take 16

/-- The ASCII bytes of a label. -/
def ascii (s : String) : Bytes := s.toList.map fun c => BitVec.ofNat 8 c.toNat

/-! ## ECDSA P-256 verification (13 R334) -/

/-- The field prime, group order and curve constants of P-256. -/
def p256p : Nat := 0xFFFFFFFF00000001000000000000000000000000FFFFFFFFFFFFFFFFFFFFFFFF
/-- The order of the base point. -/
def p256n : Nat := 0xFFFFFFFF00000000FFFFFFFFFFFFFFFFBCE6FAADA7179E84F3B9CAC2FC632551
/-- The curve coefficient b. -/
def p256b : Nat := 0x5AC635D8AA3A93E7B3EBBD55769886BC651D06B0CC53B0F63BCE3C3E27D2604B
/-- The base point. -/
def p256g : Nat × Nat :=
  (0x6B17D1F2E12C4247F8BCE6E563A440F277037D812DEB33A0F4A13945D898C296,
   0x4FE342E2FE1A7F9B8EE7EB4A7C0F9E162BCE33576B315ECECBB6406837BF51F5)

/-- Modular power by `fuel` bits of the exponent. -/
def powModFuel : Nat → Nat → Nat → Nat → Nat
  | 0, _, _, m => 1 % m
  | fuel + 1, b, e, m =>
    let r := powModFuel fuel (b * b % m) (e / 2) m
    if e % 2 = 1 then b * r % m else r

/-- The inverse modulo a prime below 2^256. -/
def invMod (a m : Nat) : Nat := powModFuel 256 (a % m) (m - 2) m

/-- Point addition, `none` being the point at infinity. -/
def ecAdd : Option (Nat × Nat) → Option (Nat × Nat) → Option (Nat × Nat)
  | none, q => q
  | p, none => p
  | some (x1, y1), some (x2, y2) =>
    let p := p256p
    if x1 = x2 ∧ (y1 + y2) % p = 0 then none
    else
      let l := if x1 = x2 then 3 * (x1 * x1 + (p - 1)) % p * invMod (2 * y1) p % p
        else (y2 + p - y1) % p * invMod ((x2 + p - x1) % p) p % p
      let x3 := (l * l + 2 * p - x1 - x2) % p
      some (x3, (l * ((x1 + p - x3) % p) + p - y1) % p)

/-- Scalar multiplication over `fuel` bits. -/
def ecMulFuel : Nat → Nat → Option (Nat × Nat) → Option (Nat × Nat)
  | 0, _, _ => none
  | fuel + 1, k, q =>
    let r := ecMulFuel fuel (k / 2) (ecAdd q q)
    if k % 2 = 1 then ecAdd q r else r

/-- FIPS 186-5 verification of a signature (r, s) over a SHA-256 digest. -/
def ecdsaVerify (pub : Nat × Nat) (digest : Bytes) (r s : Nat) : Bool :=
  let n := p256n
  let e := ofLe digest.reverse
  let onCurve := decide (pub.1 < p256p ∧ pub.2 < p256p ∧
    pub.2 * pub.2 % p256p = (pub.1 * pub.1 * pub.1 + (p256p - 3) * pub.1 + p256b) % p256p)
  let w := invMod s n
  let pt := ecAdd (ecMulFuel 256 (e * w % n) (some p256g)) (ecMulFuel 256 (r * w % n) (some pub))
  onCurve && decide (1 ≤ r ∧ r < n ∧ 1 ≤ s ∧ s < n) &&
    match pt with
    | none => false
    | some (x, _) => x % n == r

/-! ## Exact rounding (04 R80) -/

/-- Convergent rounding of num / den to an integer: the nearest, a tie to the even one. -/
def roundEven (num : Int) (den : Nat) : Int :=
  let q := num / (den : Int)
  let r := num - q * den
  if 2 * r < den then q else if 2 * r > den then q + 1 else if q % 2 = 0 then q else q + 1

/-- Convergent rounding of num / den for a denominator of either sign. -/
def roundDiv (num den : Int) : Int :=
  if den < 0 then roundEven (-num) den.natAbs else roundEven num den.natAbs

/-- A number held within bounds. -/
def clampInt (lo hi v : Int) : Int := if v < lo then lo else if hi < v then hi else v

/-- Ceiling division. -/
def ceilDiv (a b : Nat) : Nat := (a + b - 1) / b

/-- The integer square root, bit by bit from weight 2^k down. -/
def isqrtFrom : Nat → Nat → Nat → Nat
  | 0, n, r => if (r + 1) * (r + 1) ≤ n then r + 1 else r
  | k + 1, n, r =>
    let t := r + 2 ^ (k + 1)
    isqrtFrom k n (if t * t ≤ n then t else r)

/-- The integer square root. -/
def isqrt (n : Nat) : Nat := isqrtFrom (n.log2 / 2 + 1) n 0

/-- The square root of num / den rounded to the nearest integer, ties to even: √(num/den) lies at or above k + 1/2
exactly when 4·num ≥ (4·(k² + k) + 1)·den. -/
def roundSqrt (num den : Nat) : Nat :=
  let k := isqrt (num / den)
  let lhs := 4 * num
  let rhs := (4 * (k * k + k) + 1) * den
  if lhs < rhs then k else if rhs < lhs then k + 1 else if k % 2 = 0 then k else k + 1

/-! ## IEEE 754 binary32 (06 R126, 07 R149) -/

/-- floor(log2 (num / den)) of a positive fraction. -/
def floorLog2 (num den : Nat) : Int :=
  let e : Int := (num.log2 : Int) - den.log2
  let lt : Bool := if e < 0 then num * 2 ^ e.natAbs < den else decide (num < den * 2 ^ e.natAbs)
  if lt then e - 1 else e

/-- num / den · 2^k rounded to an integer. -/
def scaleRound (num den : Nat) (k : Int) : Nat :=
  (if k < 0 then roundEven num (den * 2 ^ k.natAbs) else roundEven (num * 2 ^ k.natAbs : Nat) den).toNat

/-- The binary32 nearest to a non-negative fraction, ties to even. -/
def toBinary32 (num den : Nat) : BitVec 32 :=
  if num = 0 then 0
  else
    let e := max (floorLog2 num den) (-126)
    let m := scaleRound num den (23 - e)
    let bits : Int := (e + 126) * 2 ^ 23 + m
    if bits ≥ 0x7F800000 then 0x7F800000 else BitVec.ofInt 32 bits

/-- Whether the fraction num / den is at least the binary32 value: never for a NaN, always for a negative. -/
def geBinary32 (num den : Nat) (f : BitVec 32) : Bool :=
  let v := f.toNat
  let ex := bitsOf v 30 23
  let mant := bitsOf v 22 0
  if ex = 255 then mant = 0 && bitOf v 31
  else if bitOf v 31 then true
  else
    let m := if ex = 0 then mant else mant + 2 ^ 23
    let k : Int := (if ex = 0 then 1 else (ex : Int)) - 150
    if k < 0 then decide (m * den ≤ num * 2 ^ k.natAbs) else decide (m * 2 ^ k.natAbs * den ≤ num)

/-- Whether one binary32 value, not a NaN, is at most another. -/
def leBinary32 (a b : BitVec 32) : Bool :=
  let key (f : BitVec 32) : Int := if f.getLsbD 31 then -((bitsOf f.toNat 30 0 : Nat) : Int) else (bitsOf f.toNat 30 0 : Nat)
  let nan (f : BitVec 32) : Bool := bitsOf f.toNat 30 0 > 0x7F800000
  !nan a && !nan b && decide (key a ≤ key b)

/-! ## Lists as tables -/

/-- Replaces the entry at an index. -/
def setAt {α : Type} (l : List α) (i : Nat) (v : α) : List α := l.set i v

/-- Updates the entry at an index. -/
def updAt {α : Type} (l : List α) (i : Nat) (f : α → α) : List α := l.modify i f

/-- Updates every entry with its index. -/
def mapI {α β : Type} (f : Nat → α → β) (l : List α) : List β := l.mapIdx f

/-- The numbers a, a+1, … of a range of n. -/
def rangeFrom (a n : Nat) : List Nat := (List.range n).map (a + ·)

/-- The sum of a list. -/
def sumNat (l : List Nat) : Nat := l.foldl (· + ·) 0

/-- Insertion into a list kept in ascending order of a key, equal keys in arrival order. -/
def insertBy {α : Type} (key : α → Nat) (x : α) : List α → List α
  | [] => [x]
  | y :: ys => if key x < key y then x :: y :: ys else y :: insertBy key x ys

/-- Stable sorting by a key. -/
def sortBy {α : Type} (key : α → Nat) (l : List α) : List α := l.foldl (fun acc x => insertBy key x acc) []

end Sys2Proof.Machine
end

