-- ==== Sys2Proof/Machine/Ops.lean ====
section
/-! DEFINITION. The operations every meaning is built from: addressed memory, instants and ticks, stamps, the journal,
fault raises, records that fall due, and what leaves the hub. -/

namespace Sys2Proof.Machine

/-- The answer of a meaning: a next state, always (no rule of the spec stops the block). -/
abbrev Out := Host.Outcome State Fault Refusal

/-- The next state in which the hub alone has changed. -/
def hubNext (s : State) (h : Hub) : Out := .next { s with hub := h }

/-! ## Addressed memory: canonical lists of cells -/

/-- What an unlisted address reads as (13 R315: the buffers reset to 0). -/
def cellDefault : Byte := 0

/-- The canonical form: addresses strictly rising from a bound, no entry equal to what an unlisted address reads as. -/
def Memory.wfFrom : Nat → List Host.Cell → Bool
  | _, [] => true
  | lo, (a, b) :: m => decide (lo ≤ a) && b != cellDefault && Memory.wfFrom (a + 1) m

/-- The canonical form of a memory. -/
def Memory.wf (m : List Host.Cell) : Bool := Memory.wfFrom 0 m

/-- The byte at an address. -/
def readByte : List Host.Cell → Nat → Byte
  | [], _ => cellDefault
  | (a, b) :: m, k => if k = a then b else if k < a then cellDefault else readByte m k

/-- Stores a byte at an address. -/
def writeByte : List Host.Cell → Nat → Byte → List Host.Cell
  | [], k, v => if v = cellDefault then [] else [(k, v)]
  | (a, b) :: m, k, v =>
    if k < a then (if v = cellDefault then (a, b) :: m else (k, v) :: (a, b) :: m)
    else if k = a then (if v = cellDefault then m else (k, v) :: m)
    else (a, b) :: writeByte m k v

/-- The `n` bytes from an address up. -/
def readBytes (m : List Host.Cell) (a : Nat) : Nat → Bytes
  | 0 => []
  | n + 1 => readByte m a :: readBytes m (a + 1) n

/-- Stores a byte string from an address up. -/
def writeBytes (m : List Host.Cell) (a : Nat) : Bytes → List Host.Cell
  | [] => m
  | b :: bs => writeBytes (writeByte m a b) (a + 1) bs

/-! ## Ticks, instants, operating time -/

/-- The tick rate of a T_CODE in Hz (02 R24, 09 R205). -/
def tickHz (tCode : Nat) : Nat := 125 * 2 ^ tCode

/-- One second in units of an instant. -/
def secUnits : Int := 65536000000000

/-- The period of a tick in units of an instant: 8 ms / 2^T_CODE. -/
def tickLen (tCode : Nat) : Int := 524288000000 / (2 ^ tCode : Nat)

/-- One MOD period, 1 / 16.384 MHz, is 15625/256 ns (01 R15): the instant after `n` of them. -/
def modLen (n : Nat) : Int := 4000000 * (n : Int)

/-- Operating seconds (17 R422). -/
def opSeconds (h : Hub) : Nat := h.time.opBase + h.time.op4k / 4000

/-- `SECONDS` of the timebase; 0 before first light (15 R391). -/
def taiSeconds (h : Hub) : Nat := if h.time.running then (h.time.tickInst / secUnits).toNat else 0

/-- The instant `dt` after the latest tick (log 5). -/
def instAt (h : Hub) (dt : Nat) : Inst := h.time.tickInst + dt

/-- Operating time at an instant, in periods of 250 µs: the first one not before it (log 5). -/
def opAt (h : Hub) (i : Inst) : Nat := h.time.op4k + ((i - h.time.tickInst).toNat + 16383999999) / 16384000000

/-- The stream tick number of the latest tick (12 R303). -/
def streamTick (h : Hub) : Nat := ((h.time.tick : Int) + h.pair.offset).toNat

/-- The hub runs: from tick 0 on (17 R425). -/
def isUp (h : Hub) : Bool := h.time.running && (h.power.phase == .run || h.power.phase == .draining)

/-- Source codes 1 to 3 are lanes (10 R233). -/
def laneSource (src : Nat) : Bool := decide (1 ≤ src ∧ src ≤ 3)

/-- Holds the active role (13 R315): a paired hub in ACTIVE or ACTIVE_SOLO, an unpaired one from first light. -/
def isActive (h : Hub) : Bool :=
  isUp h && (!h.pair.paired || h.pair.state == .active || h.pair.state == .activeSolo)

/-- In the eclipse state (15 R379). -/
def inEclipse (h : Hub) : Bool := h.faults.eclipse.isSome || h.faults.hardware.isSome

/-- Channels behave as IDLE from the tick after a DRAIN was accepted (17 R429). -/
def drained (h : Hub) : Bool :=
  h.power.phase == .draining && match h.power.drain with | some d => decide (d.tick < h.time.tick) | none => false

/-- The hub runs in full: the life-cycle states that measure and emit a record stream (13 R331, log 27). -/
def runsInFull (h : Hub) : Bool := h.flash.lifecycle == .operational || h.flash.lifecycle == .maintenance

/-- The hub creates slots and connects pairs: active, not in the eclipse state, not drained, and running in full. -/
def measures (h : Hub) : Bool :=
  isActive h && !inEclipse h && !drained h && runsInFull h

/-! ## Stamps (10 R231, R232, R235) -/

/-- Codes of the servo states (10 R232). -/
def servoCode : Servo → Nat
  | .freeRun => 0 | .acquire => 1 | .track => 2 | .slew => 3 | .holdover => 4

/-- TRACEABLE (10 R235). -/
def traceable (h : Hub) : Bool :=
  (h.time.servo == .track || h.time.servo == .slew) &&
    (if h.time.source == 4 then match h.eth.ptp.master with | some a => a.timeTraceable | none => false
     else if h.time.source == 5 || h.time.source == 6 then h.time.secondsSet
     else laneSource h.time.source && h.time.upTrace)

/-- HOLDOVER (10 R232). -/
def holdoverFlag (h : Hub) : Bool :=
  h.time.servo == .freeRun || h.time.servo == .holdover || (laneSource h.time.source && h.time.upHold)

/-- HOPS (10 R232), held in HOLDOVER. -/
def hops (h : Hub) : Nat :=
  if h.time.servo == .holdover then h.time.hopsHeld else if laneSource h.time.source then min 31 (h.time.upHops + 1) else 0

/-- QUALITY (10 R232). -/
def qualityOf (h : Hub) : Nat :=
  servoCode h.time.servo + 8 * b2n (holdoverFlag h) + 16 * h.time.source + 128 * b2n (traceable h) + 256 * hops h

/-- The stamp of an instant on the timebase in force. -/
def stampOf (h : Hub) (i : Inst) : Stamp := { epoch := h.time.epoch, inst := i, quality := qualityOf h }

/-- The stamp of the latest tick. -/
def tickStamp (h : Hub) : Stamp := stampOf h h.time.tickInst

/-- The 16 bytes of a stamp (10 R231). -/
def stampBytes (s : Stamp) : Bytes :=
  let sec := (s.inst / secUnits).toNat
  let sub := (s.inst % secUnits).toNat
  leNat 2 s.epoch ++ leNat 6 sec ++ leNat 4 (sub / 65536) ++ leNat 2 (sub % 65536) ++ leNat 2 s.quality

/-- The instant, epoch and quality of 16 stamp bytes. -/
def stampFrom (bs : Bytes) : Stamp :=
  { epoch := fieldAt bs 0 2, quality := fieldAt bs 14 2
    inst := (fieldAt bs 2 6 : Int) * secUnits + (fieldAt bs 8 4 : Int) * 65536 + fieldAt bs 12 2 }

/-! ## The journal (15 R391 to R394, 13 R325, R326) -/

/-- Life-cycle codes (13 R331). -/
def lifeCode : LifeCycle → Nat
  | .blank => 0 | .provisioned => 1 | .operational => 2 | .maintenance => 3 | .decommissioned => 4

/-- A journal record as it stands in flash (15 R391). -/
def journalBytes (r : JRec) : Bytes :=
  let b := leNat 6 r.index ++ leNat 1 r.kind ++ leNat 1 r.flags ++ leNat 5 r.opSeconds ++ zeros 3 ++
    leNat 4 r.powerCycles ++ leNat 2 r.epoch ++ leNat 2 r.code ++ leNat 6 r.tai ++ leNat 1 r.mailbox ++
    leNat 1 r.keySlot ++ leNat 4 r.origin ++ leNat 8 r.counter ++ padTo 16 r.detail
  b ++ leNat 4 (crc32c b).toNat

/-- Records per 64 KiB sector and in the partition (15 R393). -/
def sectorRecords : Nat := 1024

/-- Slots of the journal partition. -/
def journalSlots : Nat := 262144

/-- An object of OPEN_WINDOW lies in DRAM (16 R395): captures, job output, persistence maps. -/
def objectInDram (object : Nat) : Bool := object == 0 || object == 2 || object == 4

/-- A window is revoked, and every entry of its table invalidated (16 R399). -/
def revokeWindow (w : Window) : Window := { w with revoked := true, table := [] }

/-- Revokes the open windows that a condition selects. -/
def revokeWindows (sel : Window → Bool) (h : Hub) : Hub :=
  { h with windows := h.windows.map fun w => if w.isOpen && sel w then revokeWindow w else w }

/-- Windows onto journal records that an erase has removed are revoked (16 R399). -/
def revokeErased (h : Hub) : Hub := revokeWindows (fun w => w.object == 1 && !h.flash.journal.any (·.index == w.first)) h

/-- Enters the sector of index `n`: the counter checkpoint is rewritten, then the sector is erased (13 R326, 15 R393), which revokes the
windows onto its records. -/
def eraseSector (n : Nat) (h : Hub) : Hub :=
  let base := n / sectorRecords * sectorRecords
  revokeErased { h with
    flash.ctrCheckpoint := h.mbx.counters
    flash.journal := h.flash.journal.filter fun r => decide (base + sectorRecords ≤ r.index + journalSlots)
    jr.erasedTo := base + sectorRecords }

/-- Programs the oldest queued record, its sector erased first where it is not. -/
def programOne (h : Hub) : Hub :=
  match h.jr.queue with
  | [] => h
  | r :: q =>
    let h := if r.index < h.jr.erasedTo then h else eraseSector r.index h
    { h with jr.queue := q, flash.journal := h.flash.journal ++ [r] }

/-- Programs queued records, at most `fuel`. -/
def programFuel : Nat → Hub → Hub
  | 0, h => h
  | n + 1, h => programFuel n (programOne h)

/-- FLASH_PROGRAM of the journal partition or FLASH_ERASE stands: the journal cannot take records (15 R376; log 15). -/
def journalBlocked (h : Hub) : Bool :=
  h.faults.occ.any fun o => !o.cleared && ((o.source == 0xD6 && o.inst == 2) || o.source == 0xD7)

/-- Programs the whole queue; nothing while the journal cannot take records (15 R376). -/
def programAll (h : Hub) : Hub := if journalBlocked h then h else programFuel h.jr.queue.length h

/-- Queues a record with the fields the hub fills (15 R391); a full queue of 1,024 programs its oldest first. -/
def queueRec (r : JRec) (h : Hub) : Hub :=
  let h := if h.jr.queue.length < 1024 then h else programOne h
  let r := { r with
    index := h.flash.nextIndex
    opSeconds := opSeconds h
    powerCycles := h.flash.powerCycles
    epoch := h.time.epoch
    tai := taiSeconds h }
  { h with jr.queue := h.jr.queue ++ [r], flash.nextIndex := h.flash.nextIndex + 1 }

/-- Writes a change record of origin HARDWARE, programmed at once (15 R392, R393). -/
def jChange (code : Nat) (detail : Bytes) (h : Hub) : Hub :=
  programAll (queueRec { kind := 0, code := code, detail := padTo 16 detail } h)

/-- Tokens of a code's bucket: 20 when it stands full (15 R394). -/
def tokens (h : Hub) (code : Nat) : Nat := ((h.jr.buckets.find? (·.1 == code)).map (·.2)).getD 20

/-- Queues a FAULT or EVENT record under the rate limit of its code (15 R394). -/
def jLimited (r : JRec) (h : Hub) : Hub :=
  let t := tokens h r.code
  if 0 < t then
    queueRec r { h with jr.buckets := (r.code, t - 1) :: h.jr.buckets.filter (·.1 != r.code) }
  else if h.jr.runs.any (·.code == r.code) then
    { h with jr.runs := h.jr.runs.map fun x => if x.code == r.code then { x with count := x.count + 1 } else x }
  else { h with jr.runs := h.jr.runs ++ [{ code := r.code, count := 1, first := opSeconds h }] }

/-- Queues an EVENT record. -/
def jEvent (code : Nat) (detail : Bytes) (h : Hub) : Hub :=
  jLimited { kind := 2, code := code, detail := padTo 16 detail } h

/-- Closes the suppression run of a code with its SUPPRESSED record, which is never limited (15 R394). -/
def closeRun (code : Nat) (h : Hub) : Hub :=
  match h.jr.runs.find? (·.code == code) with
  | none => h
  | some r =>
    let d := leNat 2 code ++ zeros 2 ++ leNat 4 r.count ++ leNat 5 r.first ++ zeros 3
    queueRec { kind := 2, code := 0x2001, detail := d } { h with jr.runs := h.jr.runs.filter (·.code != code) }

/-- Closes every open run and programs the records: before a reset the hub starts itself (15 R394). -/
def closeRuns (h : Hub) : Hub := programAll (h.jr.runs.foldl (fun h r => closeRun r.code h) h)

/-! ## Fault raises (15 R385, R386, R390) -/

/-- First source of a tile and of a lane (15 R369). -/
def tileBase (t : Nat) : Nat := 0x10 + 0x10 * t

/-- First source of a lane. -/
def laneBase (l : Nat) : Nat := 0x90 + 8 * l

/-- Tile of a channel, and of a front end numbered 9g + i (01 R11, 05). -/
def tileOfCh (ch : Nat) : Nat := ch / 128

/-- Tile of a front end. -/
def tileOfFe (fe : Nat) : Nat := fe / 144

/-- Sources of the collector itself, the SRAM control partition and the flash controller (15 R386). -/
def ofCollector (source inst : Nat) : Bool :=
  source == 0x124 || ((source == 0xD0 || source == 0xD1) && inst == 5) || (0xD6 ≤ source && source ≤ 0xD8)

/-- Places a raise behind those that wait, ahead of those of its own instant with a higher source number (15 R385). -/
def insertRaise (r : Raise) (q : List Raise) : List Raise :=
  let later (x : Raise) : Bool := x.capture == r.capture && decide (r.source < x.source)
  (q.reverse.dropWhile later).reverse ++ r :: (q.reverse.takeWhile later).reverse

/-- Queues a raise: one instance waits once; an error of the collector's own is merged into the raise being handled, the one at the
front, and a full queue of 64 merges into its newest (15 R385, R386). -/
def enqueueRaise (r : Raise) (h : Hub) : Hub :=
  if h.faults.queue.any fun x => x.source == r.source && x.inst == r.inst then
    { h with faults.queue := h.faults.queue.map fun x =>
        if x.source == r.source && x.inst == r.inst then
          { x with forced := x.forced || r.forced, real := x.real || r.real }
        else x }
  else if ofCollector r.source r.inst && !h.faults.queue.isEmpty then
    { h with faults.queue := updAt h.faults.queue 0 fun x => { x with merged := x.merged ++ [(r.source, r.inst)] } }
  else if h.faults.queue.length < 64 then { h with faults.queue := insertRaise r h.faults.queue }
  else
    { h with faults.queue := updAt h.faults.queue 63 fun x => { x with merged := x.merged ++ [(r.source, r.inst)] } }

/-- An occurrence that had cleared in this tick interval goes on (15 R372): what waits in the queue has not ended, and a cause
of the eclipse state holds. -/
def holdsAgain (source inst : Nat) (h : Hub) : Hub :=
  { h with
    faults.queue := h.faults.queue.map fun x =>
      if x.source == source && x.inst == inst then { x with ended := none } else x
    faults.eclipse := h.faults.eclipse.map fun e =>
      { e with causes := e.causes.map fun c => if c.1 == source && c.2.1 == inst then (source, inst, none) else c } }

/-- SWITCH_FAULT: the spare is not usable for the pair from then on (15 R371). -/
def noteSwitch (r : Raise) (h : Hub) : Hub :=
  if 0x10 ≤ r.source ∧ r.source < 0x50 ∧ r.source % 16 = 10 then
    { h with groups := updAt h.groups (r.inst / 8) fun g => { g with badSwitch := (r.inst :: g.badSwitch).eraseDups } }
  else h

/-- One source instance begins to hold. A second raise of an asserted instance is the same occurrence (15 R390); its history
entry then carries both flags. `once` occurrences clear at the next tick. -/
def raiseFault (r : Raise) (once : Bool) (h : Hub) : Hub :=
  match h.faults.occ.find? fun o => o.source == r.source && o.inst == r.inst with
  | some o =>
    let o' := { o with forced := o.forced || r.forced, real := o.real || r.real, once := o.once && once, cleared := false, endAt := none
                       again := if o.cleared then some r.start else o.again }
    let h := { h with faults.occ := h.faults.occ.map fun x => if x.source == r.source && x.inst == r.inst then o' else x }
    let h := if o.cleared then holdsAgain r.source r.inst h else h
    if o.handled then
      { h with faults.history := mapI (fun i e =>
          if e.source == r.source && e.inst == r.inst &&
              !((h.faults.history.drop (i + 1)).any fun x => x.source == r.source && x.inst == r.inst) then
            { e with flags := e.flags ||| (b2n o'.forced + 2 * b2n o'.real) }
          else e) h.faults.history }
    else enqueueRaise r h
  | none =>
    enqueueRaise r { noteSwitch r h with faults.occ := h.faults.occ ++
      [{ source := r.source, inst := r.inst, start := r.start, forced := r.forced, real := r.real, once := once,
         since := h.time.op4k, conf := (h.cfg.fault.find? (·.1 == r.source)).map (·.2) }] }

/-- A source instance clears: the occurrence ends at the coming tick unless a held force bit keeps it (15 R372, R389). -/
def clearOcc (source inst : Nat) (at_ : Inst) (h : Hub) : Hub :=
  if h.faults.force.contains (source, inst, true) then
    { h with faults.occ := h.faults.occ.map fun o =>
        if o.source == source && o.inst == inst then { o with real := false } else o }
  else
    { h with
      faults.occ := h.faults.occ.map fun o =>
        if o.source == source && o.inst == inst then { o with cleared := true, endAt := some at_ } else o
      faults.queue := h.faults.queue.map fun x =>
        if x.source == source && x.inst == inst then { x with ended := some at_ } else x
      faults.eclipse := h.faults.eclipse.map fun e =>
        { e with causes := e.causes.map fun c =>
            if c.1 == source && c.2.1 == inst then (source, inst, some (c.2.2.getD (opAt h at_))) else c } }

/-- Raises a source at the present tick instant, for a condition that lasts no longer than the moment. -/
def raiseNow (source inst sub : Nat) (detail : BitVec 64) (h : Hub) : Hub :=
  raiseFault { source := source, inst := inst, start := h.time.tickInst, capture := h.time.tickInst, sub := sub,
               detail := detail } true h

/-- Raises a source whose condition lasts until it clears. -/
def raiseHeld (source inst : Nat) (start capture : Inst) (detail : BitVec 64) (h : Hub) : Hub :=
  raiseFault { source := source, inst := inst, start := start, capture := capture, detail := detail } false h

/-- A source instance is asserted. -/
def asserted (h : Hub) (source inst : Nat) : Bool :=
  h.faults.occ.any fun o => o.source == source && o.inst == inst && !o.cleared

/-- A source instance is declared permanent (15 R373). -/
def declared (h : Hub) (source inst : Nat) : Bool := h.faults.perm.contains (source, inst)

/-! ## Records that fall due (09 R204) -/

/-- Queues a record for the coming tick's release. -/
def emit (r : Rec) (h : Hub) : Hub := { h with stream.due := h.stream.due ++ [r] }

/-- TIME_NOTICE of a kind that applies at a stream tick (09 R214). -/
def timeNotice (kind : Nat) (tick : Nat) (before after : Stamp) (h : Hub) : Hub :=
  emit { ty := 7, order := 1, stamp := after
         payload := leNat 1 kind ++ leNat 1 h.time.source ++ leInt 2 h.time.utc ++ zeros 4 ++ leNat 8 tick ++
           stampBytes before ++ stampBytes after } h

/-- A mask of 512 channels as 64 bytes. -/
def chanMask (chs : List Nat) : Bytes :=
  (List.range 64).map fun i => BitVec.ofNat 8 (ofBits ((List.range 8).map fun j => chs.contains (8 * i + j)))

/-- OCCULTATION (09 R208): reason, flags, records, sequence range, first frame, frames, slots, channels. -/
def occPayload (reason flags records first last tick ticks : Nat) (slots : List (Nat × Nat)) : Bytes :=
  leNat 1 reason ++ leNat 1 flags ++ zeros 2 ++ leNat 4 records ++ leNat 8 first ++ leNat 8 last ++ leNat 8 tick ++
    leNat 4 ticks ++ zeros 4 ++ leNat 8 (sumNat (slots.map (·.2))) ++
    chanMask ((slots.filter fun x => 0 < x.2).map (·.1))

/-- Adds slot counts to a table by channel. -/
def addSlots (t : List (Nat × Nat)) (more : List (Nat × Nat)) : List (Nat × Nat) :=
  more.foldl (fun t x =>
    if t.any (·.1 == x.1) then t.map fun y => if y.1 == x.1 then (y.1, y.2 + x.2) else y
    else insertBy (·.1) x t) t

/-! ## What leaves the hub (log 12) -/

/-- Sends a message. -/
def sendOut (m : OutMsg) (h : Hub) : Hub := { h with out := h.out ++ [m] }

/-- Draws a free value (log 9). -/
def drawFree (h : Hub) : BitVec 32 × Hub := (Config.freeValue h.free, { h with free := h.free + 1 })

/-- Draws the result of a continuity check that no command carries (15 R371; log 9). -/
def drawSound (h : Hub) : Bool × Hub := let x := drawFree h; (x.1.getLsbD 0, x.2)

/-! ## Entries of the tables of State -/

/-- A channel's run state. -/
def chanAt (h : Hub) (c : Nat) : Chan := h.chans.getD c {}

/-- Updates a channel's run state. -/
def updChan (c : Nat) (f : Chan → Chan) (h : Hub) : Hub := { h with chans := updAt h.chans c f }

/-- A group's run state. -/
def groupAt (h : Hub) (g : Nat) : Group := h.groups.getD g {}

/-- Updates a group's run state. -/
def updGroup (g : Nat) (f : Group → Group) (h : Hub) : Hub := { h with groups := updAt h.groups g f }

/-- A front end's run state. -/
def feAt (h : Hub) (i : Nat) : Fe := h.fes.getD i {}

/-- Updates a front end. -/
def updFe (i : Nat) (f : Fe → Fe) (h : Hub) : Hub := { h with fes := updAt h.fes i f }

/-- A tile's run state. -/
def tileAt (h : Hub) (t : Nat) : Tile := h.tiles.getD t {}

/-- Updates a tile. -/
def updTile (t : Nat) (f : Tile → Tile) (h : Hub) : Hub := { h with tiles := updAt h.tiles t f }

/-- A lane. -/
def laneAt (h : Hub) (l : Nat) : Lane := h.lanes.getD l {}

/-- Updates a lane. -/
def updLane (l : Nat) (f : Lane → Lane) (h : Hub) : Hub := { h with lanes := updAt h.lanes l f }

/-- A link: 0 east bond, 1 west bond, 2 lane P, 3 lane U. -/
def linkAt (h : Hub) (k : Nat) : Link := h.links.getD k {}

/-- Updates a link. -/
def updLink (k : Nat) (f : Link → Link) (h : Hub) : Hub := { h with links := updAt h.links k f }

/-- A capture definition's run state. -/
def defAt (h : Hub) (d : Nat) : CapDef := h.cap.defs.getD d {}

/-- Updates a capture definition. -/
def updDef (d : Nat) (f : CapDef → CapDef) (h : Hub) : Hub := { h with cap.defs := updAt h.cap.defs d f }

/-- Descriptor of a channel in force (03 R48). -/
def chDesc (h : Hub) (c : Nat) : Nat := (h.cfg.chan.getD c 3).toNat

/-- Descriptor of a group in force (03 R54). -/
def grDesc (h : Hub) (g : Nat) : Nat := (h.cfg.group.getD g 0).toNat

end Sys2Proof.Machine
end

