-- ==== Sys2Proof/Machine/Operands.lean ====
section
/-! DEFINITION. The operand forms: the message of 13 R320, its response, the refusal payload of 14 R338, the
configuration head of 14 R340 and the ticks commands name. -/

namespace Sys2Proof.Machine

/-! ## Response codes (14 R337) -/

/-- Codes of STATUS. -/
def rOk : Nat := 0x00
def rPartial : Nat := 0x01
def rPending : Nat := 0x02
def rNotReady : Nat := 0x10
def rBusy : Nat := 0x11
def rAuth : Nat := 0x20
def rReplay : Nat := 0x21
def rLifecycle : Nat := 0x22
def rBudget : Nat := 0x23
def rArgument : Nat := 0x24
def rState : Nat := 0x25
def rFault : Nat := 0x30

/-- What a command answers: STATUS, payload, what its change record carries (R345, R448) and the reset it starts. -/
structure Reply where
  status : Nat := 0
  payload : Bytes := []
  /-- EFFECT and ARGS of the change record. -/
  effect : Nat := 0
  args : Bytes := []
  staged : Bool := false
  /-- The whole DETAIL, where it is not by R448; the command writes its own records. -/
  detail : Option Bytes := none
  ownRecord : Bool := false
  reset : Option ResetDue := none
deriving DecidableEq, Repr

/-- The payload of every refusal (R338). -/
def refusalPayload (off entry check demand limit : Nat) : Bytes :=
  leNat 2 off ++ leNat 2 entry ++ leNat 1 check ++ zeros 3 ++ leNat 8 demand ++ leNat 8 limit

/-- A refusal that names a field and an entry. -/
def refuseAt (code off entry : Nat) : Reply := { status := code, payload := refusalPayload off entry 0 0 0 }

/-- A refusal with no single failing field. -/
def refuse (code : Nat) : Reply := refuseAt code 0xFFFF 0xFFFF

/-- REFUSED_BUDGET: the failing check with demand and limit (R339). -/
def refuseBudget (check demand limit : Nat) : Reply :=
  { status := rBudget, payload := refusalPayload 0xFFFF 0xFFFF check demand limit }

/-- An answer with no refusal payload. -/
def answer (code : Nat) (payload : Bytes) : Reply := { status := code, payload := payload }

/-- What a command meets: its code, its request and what the surroundings decide. -/
structure Ctx where
  code : Nat
  req : Req
  env : Env := {}
deriving DecidableEq, Repr

/-- Step 7 of a command: the refusal, or the answer with the hub after it. -/
abbrev Cmd := Ctx → Hub → Except Reply (Reply × Hub)

/-- A check of a command. -/
abbrev Chk := Except Reply Unit

/-- Refuses with REFUSED_ARGUMENT at an offset unless a condition holds. -/
def needArg (off : Nat) (b : Bool) : Chk := if b then .ok () else .error (refuseAt rArgument off 0xFFFF)

/-- Refuses an entry with REFUSED_ARGUMENT unless a condition holds. -/
def needEntry (off entry : Nat) (b : Bool) : Chk := if b then .ok () else .error (refuseAt rArgument off entry)

/-- Refuses with REFUSED_STATE unless a condition on the field at an offset holds. -/
def needStateAt (off : Nat) (b : Bool) : Chk := if b then .ok () else .error (refuseAt rState off 0xFFFF)

/-- Refuses with REFUSED_STATE unless a condition holds. -/
def needState (b : Bool) : Chk := if b then .ok () else .error (refuse rState)

/-- Refuses with BUSY unless a condition holds. -/
def needRoom (b : Bool) : Chk := if b then .ok () else .error (answer rBusy [])

/-- Runs a check on every element with its index. -/
def checkAll {α : Type} (f : Nat → α → Chk) : Nat → List α → Chk
  | _, [] => .ok ()
  | i, x :: xs => do f i x; checkAll f (i + 1) xs

/-- The payload has exactly the length the row gives. -/
def needLen (c : Ctx) (n : Nat) : Chk :=
  if c.req.payload.length = n then .ok () else .error (refuse rArgument)

/-- The bytes of a range of the payload are zero: reserved (00 R3). -/
def needZero (c : Ctx) (off n : Nat) : Chk := needArg off (allZero ((c.req.payload.drop off).take n))

/-- A field of the payload. -/
def pf (c : Ctx) (off n : Nat) : Nat := fieldAt c.req.payload off n

/-! ## Messages (13 R320 to R322) -/

/-- The 32-byte header (R320). -/
def headerBytes (code flags origin slot status len msgId counter dest : Nat) (rsvd : Nat) : Bytes :=
  leNat 1 1 ++ leNat 1 flags ++ leNat 2 code ++ leNat 4 origin ++ leNat 1 slot ++ leNat 1 status ++ leNat 2 len ++
    leNat 4 msgId ++ leNat 8 counter ++ leNat 4 dest ++ leNat 4 rsvd

/-- Header and payload of a request exactly as sent: what its tag covers (R321). -/
def reqBytes (code : Nat) (r : Req) : Bytes :=
  leNat 1 r.version.toNat ++
    (headerBytes code r.flags.toNat r.origin.toNat r.keySlot.toNat r.status.toNat r.length.toNat r.msgId.toNat
      r.counter.toNat r.dest.toNat r.rsvd.toNat).drop 1 ++ r.payload

/-- A message whole: header, payload, tag. -/
def msgBytes (code : Nat) (r : Req) : Bytes := reqBytes code r ++ r.tag

/-- The code and request a message's bytes hold; none for a message shorter than its header (R324). -/
def parseMsg (mb : Nat) (m : Bytes) : Option (Nat × Req) :=
  if m.length < 32 then none
  else
    let len := fieldAt m 10 2
    let body := m.drop 32
    some (fieldAt m 2 2,
      { mailbox := mb, version := m.getD 0 0, flags := m.getD 1 0, origin := BitVec.ofNat 32 (fieldAt m 4 4)
        keySlot := m.getD 8 0, status := m.getD 9 0, length := BitVec.ofNat 16 len
        msgId := BitVec.ofNat 32 (fieldAt m 12 4), counter := BitVec.ofNat 64 (fieldAt m 16 8)
        dest := BitVec.ofNat 32 (fieldAt m 24 4), rsvd := BitVec.ofNat 32 (fieldAt m 28 4)
        payload := body.take len, tag := body.drop len })

/-- CRITICAL, RESPONSE and NOTICE of a request. -/
def isCritical (r : Req) : Bool := bitOf r.flags.toNat 0
def isResponse (r : Req) : Bool := bitOf r.flags.toNat 1
def isNotice (r : Req) : Bool := bitOf r.flags.toNat 2

/-- A command code that changes state: bytes 0x00 to 0x7F (chapter 14). -/
def changes (code : Nat) : Bool := decide (code % 256 < 0x80)

/-- A response or notice to a request (R322), tagged when the request's tag verified. -/
def responseBytes (h : Hub) (code : Nat) (r : Req) (key : Option Bytes) (notice : Bool) (status : Nat) (payload : Bytes) :
    Bytes :=
  let m := headerBytes code (b2n key.isSome + 2 + 4 * b2n notice) h.flash.hubId.toNat r.keySlot.toNat status
    payload.length r.msgId.toNat r.counter.toNat r.origin.toNat 0 ++ payload
  match key with
  | some k => m ++ tagOf k m
  | none => m

/-! ## Ticks that commands name (14 R341, 12 R303) -/

/-- A tick of this hub as a stream tick. -/
def toStream (h : Hub) (t : Nat) : Nat := ((t : Int) + h.pair.offset).toNat

/-- A stream tick as a tick of this hub. -/
def fromStream (h : Hub) (t : Nat) : Nat := ((t : Int) - h.pair.offset).toNat

/-- The tick at which a change takes effect: the named one, at least `lead` and at most 2^32 ticks ahead, or the earliest
for 0 (R341); none when refused. -/
def effectTick (h : Hub) (named lead : Nat) : Option Nat :=
  if named = 0 then some (h.time.tick + lead)
  else
    let now := streamTick h
    if now + lead ≤ named ∧ named ≤ now + 2 ^ 32 then some (fromStream h named) else none

/-- The tick a field names, or REFUSED_ARGUMENT at its offset. -/
def needTick (h : Hub) (off named lead : Nat) : Except Reply Nat :=
  match effectTick h named lead with
  | some t => .ok t
  | none => .error (refuseAt rArgument off 0xFFFF)

/-- The configuration head (R340). -/
structure Head where
  at_ : Nat
  first : Nat
  count : Nat
  stage : Bool
  arg : Nat
  body : Bytes
deriving DecidableEq, Repr

/-- Reads the head and checks its reserved fields, its COUNT, its subjects and the length of its entries: `lo` to `hi`
entries of `size` bytes for subjects below `limit`. -/
def readHead (c : Ctx) (stageOk : Bool) (lo hi limit size : Nat) : Except Reply Head := do
  if c.req.payload.length < 24 then throw (refuse rArgument)
  let hd : Head := { at_ := pf c 0 8, first := pf c 8 2, count := pf c 10 2, stage := bitOf (pf c 12 1) 0
                     arg := pf c 16 8, body := c.req.payload.drop 24 }
  needArg 12 (pf c 12 1 < 2 && (stageOk || !hd.stage))
  needZero c 13 3
  needArg 10 (lo ≤ hd.count && hd.count ≤ hi)
  needArg 8 (hd.first < limit)
  needArg 10 (hd.first + hd.count ≤ limit)
  if hd.body.length ≠ hd.count * size then throw (refuse rArgument)
  return hd

/-- The head of a command without subjects: COUNT 0, FIRST 0, then a body of `n` bytes. DESIGN CHOICE (log 28): R340 states no range for
a FIRST that stands beside COUNT 0, nor for an ARG of which the command's row names no argument: a nonzero one of either is refused, here
and wherever a row names no argument. -/
def readBareHead (c : Ctx) (n : Nat) : Except Reply Head := do
  if c.req.payload.length < 24 then throw (refuse rArgument)
  needArg 12 (pf c 12 1 = 0)
  needZero c 13 3
  needArg 10 (pf c 10 2 = 0)
  needArg 8 (pf c 8 2 = 0)
  if c.req.payload.length ≠ 24 + n then throw (refuse rArgument)
  return { at_ := pf c 0 8, first := 0, count := 0, stage := false, arg := pf c 16 8, body := c.req.payload.drop 24 }

/-- Entries of a head, `size` bytes each. -/
def entries (hd : Head) (size : Nat) : List Bytes := chunks size hd.body

/-- Subjects and CRC of entries in ARGS (R448): FIRST, COUNT, CRC-32C. -/
def argsList (hd : Head) : Bytes := leNat 2 hd.first ++ leNat 2 hd.count ++ leNat 4 (crc32c hd.body).toNat

/-- An accepted change: EFFECT, then the rest of the response. -/
def acceptedAt (h : Hub) (tick : Nat) (rest : Bytes) (args : Bytes) : Reply :=
  { payload := leNat 8 (toStream h tick) ++ rest, effect := toStream h tick, args := args }

/-- The configuration waits in the store for COMMISSION (13 R331, R333). -/
def stored (h : Hub) : Bool := h.flash.lifecycle == .provisioned

/-- An accepted change of stored configuration: EFFECT is 0 while it waits for the next first light (R340). -/
def accepted (h : Hub) (tick : Nat) (rest : Bytes) (args : Bytes) : Reply :=
  if stored h then { payload := leNat 8 0 ++ rest, args := args } else acceptedAt h tick rest args

/-- A held entry list: OK with EFFECT 0 (R343). -/
def stagedReply (args : Bytes) : Reply := { payload := leNat 8 0, args := args, staged := true }

/-! ## Staging (14 R343) -/

/-- Items held for an ORIGIN and command code. -/
def stagedItems (h : Hub) (origin : BitVec 32) (code : Nat) : List Item :=
  ((h.staged.find? fun s => s.origin == origin && s.code == code).map (·.items)).getD []

/-- Drops what is held for an ORIGIN and code. -/
def dropStaged (origin : BitVec 32) (code : Nat) (h : Hub) : Hub :=
  { h with staged := h.staged.filter fun s => !(s.origin == origin && s.code == code) }

/-- Two items set the same subject of a command that STAGE may hold (R343), or of one that stores what it sets. -/
def sameSubject : Item → Item → Bool
  | .chan a _, .chan b _ => a == b
  | .group a _, .group b _ => a == b
  | .supply _ _, .supply _ _ => true
  | .flare a _, .flare b _ => a == b
  | .capture a _, .capture b _ => a == b
  | .fault a _, .fault b _ => a == b
  | .selfMerge _, .selfMerge _ => true
  | .time _ _ _, .time _ _ _ => true
  | .cal _, .cal _ => true
  | .comp _ _, .comp _ _ => true
  | .outlets _, .outlets _ => true
  | .uplink _, .uplink _ => true
  | .loop a _, .loop b _ => a == b
  | .loopV _, .loopV _ => true
  | _, _ => false

/-- Adds items, a later one for the same subject replacing an earlier one. -/
def addItems (held more : List Item) : List Item :=
  more.foldl (fun l x => (l.filter fun y => !sameSubject y x) ++ [x]) held

/-- Holds items under STAGE; at most 4 origins may hold entries. -/
def stage (origin : BitVec 32) (code : Nat) (items : List Item) (h : Hub) : Except Reply Hub :=
  let held := stagedItems h origin code
  let others := (h.staged.map (·.origin)).eraseDups
  if others.contains origin || others.length < 4 then
    .ok { dropStaged origin code h with
      staged := (dropStaged origin code h).staged ++ [⟨origin, code, addItems held items⟩] }
  else .error (answer rBusy [])

/-- Accepts items for a tick: they wait in processing order and enter the configuration store at once (R319, R344). -/
def schedule (tick : Nat) (items : List Item) (h : Hub) : Hub :=
  { h with changes := h.changes ++ items.map fun i => ⟨tick, i⟩ }

end Sys2Proof.Machine
end

