-- ==== Sys2Proof/Machine/Channel.lean ====
section
/-! DEFINITION. Channel and group descriptors, their checks, settling counts, delays, the decimation chain and the status
of a slot (chapters 03 and 04). -/

namespace Sys2Proof.Machine

/-! ## Fields of a channel descriptor (03 R48) -/

def dMode (d : Nat) : Nat := bitsOf d 1 0
def dRange (d : Nat) : Nat := bitsOf d 4 2
def dRestore (d : Nat) : Nat := bitsOf d 6 5
def dArEn (d : Nat) : Bool := bitOf d 7
def dArLo (d : Nat) : Nat := bitsOf d 10 8
def dArHi (d : Nat) : Nat := bitsOf d 13 11
def dRate (d : Nat) : Nat := bitsOf d 17 14
def dResp (d : Nat) : Nat := bitsOf d 21 18
def dProbe (d : Nat) : Bool := bitOf d 22
def dSrcEn (d : Nat) : Bool := bitOf d 23
def dLiveZero (d : Nat) : Nat := bitsOf d 31 24
def dSettle (d : Nat) : Nat := bitsOf d 47 32
/-- MODE is IDLE. -/
def dIdle (d : Nat) : Bool := dMode d == 3

/-! ## Fields of a group descriptor (03 R54) -/

def gExc (g : Nat) : Nat := bitsOf g 2 0
def gVb (g : Nat) : Nat := bitsOf g 4 3
/-- SWITCHED, which only a BRIDGE setting uses. -/
def gSwitched (g : Nat) : Bool := gExc g == 1 && bitOf g 5
def gIiepe (g : Nat) : Nat := bitsOf g 7 6
def gOnOffset (g : Nat) : Nat := bitsOf g 31 16
def gOnLength (g : Nat) : Nat := bitsOf g 47 32
def gLoad (g : Nat) : Nat := bitsOf g 63 48

/-- Range codes of a mode (03 R45). -/
def rangeCount (mode : Nat) : Nat := if mode = 0 then 6 else if mode = 1 then 5 else if mode = 2 then 3 else 6

/-- MOD periods per output sample: D = 128 × 2^r (04 R76). -/
def decim (r : Nat) : Nat := 128 * 2 ^ r

/-- The channel's output rate is at or above the tick rate (02 R27): 1,024 / 2^r ≥ 2^T_CODE. -/
def isDense (r tCode : Nat) : Bool := decide (r + tCode ≤ 10)

/-- Slots per frame of a dense channel, f / T. -/
def slotsPerFrame (r tCode : Nat) : Nat := 2 ^ (10 - r - tCode)

/-- Frames per slot of a sparse channel, k = T / f. -/
def framesPerSlot (r tCode : Nat) : Nat := 2 ^ (r + tCode - 10)

/-- The rate exceeds T/2 (03 R49, R56). -/
def aboveHalfTick (r tCode : Nat) : Bool := decide (r + tCode < 11)

/-- Fields of R48 that every descriptor must satisfy: the bit of the first that fails. DESIGN CHOICE (log 16): R48 states the
codes beyond the mode's table as refused for RANGE; AR_LO and AR_HI are range codes too, and the model refuses such codes in
them as reserved by 00 R3, whatever AR_EN says. -/
def chanFieldFault (d : Nat) : Option Nat :=
  if bitsOf d 63 48 ≠ 0 then some 48
  else if dRange d ≥ rangeCount (dMode d) then some 2
  else if dRestore d = 3 then some 5
  else if dArLo d ≥ rangeCount (dMode d) then some 8
  else if dArHi d ≥ rangeCount (dMode d) then some 11
  else if dRate d > 10 then some 14
  else if dLiveZero d > 100 then some 24
  else if dIdle d then none
  else if dArLo d > dRange d then some 8
  else if dRange d > dArHi d then some 11
  else none

/-- The pairings of a measuring descriptor with its group's excitation and the rate limit of a switched group (R49, R56). -/
def chanGroupFault (d g tCode : Nat) : Option Nat :=
  if dIdle d then none
  else if dMode d = 2 ∧ gExc g ≠ 0 then some 0
  else if dSrcEn d ∧ gExc g = 2 ∧ dMode d ≠ 0 then some 23
  else if dSrcEn d ∧ gExc g = 3 ∧ dMode d ≠ 1 then some 23
  else if gExc g = 1 ∧ dMode d ≠ 0 then some 0
  else if gSwitched g ∧ aboveHalfTick (dRate d) tCode then some 14
  else none

/-- The checks of a group descriptor by itself (R53 to R56): the bit of the first field that fails. -/
def groupFault (g tCode excMin : Nat) : Option Nat :=
  if bitsOf g 15 8 ≠ 0 then some 8
  else if gExc g > 3 then some 0
  else if gVb g = 3 then some 3
  else if gIiepe g = 3 then some 6
  else if gExc g = 3 ∧ excMin < 2550 then some 0
  else if gExc g = 1 ∧ gLoad g = 0 then some 48
  else if gSwitched g ∧ gOnLength g < 150 then some 32
  else if gSwitched g ∧ (gOnOffset g + gOnLength g + 10) * tickHz tCode > 1000000 then some 16
  else none

/-! ## Settling (03 R68 to R70) -/

/-- The ROM tap count N of a response (04 R82). -/
def romTaps (k : Nat) : Nat :=
  [241, 121, 61, 69, 101, 201, 29, 193, 97, 129, 193, 385, 121, 69, 161, 321].getD k 0

/-- K of a response (04 R82). -/
def romK (k : Nat) : Nat :=
  [8384, 4544, 2624, 2880, 3904, 7104, 1600, 6848, 3776, 4800, 6848, 12992, 1568, 1152, 1888, 3072].getD k 0

/-- S of a response: 2m + 14 with m = (N − 1)/4 (04 R85). -/
def romS (k : Nat) : Nat := (romTaps k - 1) / 2 + 14

/-- The range term of a mode and range in ns; the CHARGE term is 5τ, by R47. -/
def rangeTerm (mode range restore : Nat) : Nat :=
  if mode = 0 then [20000, 20000, 20000, 20000, 40000, 80000].getD range 0
  else if mode = 1 then [20000, 20000, 50000, 200000, 2000000].getD range 0
  else if mode = 2 then 5000000 * 10 ^ (restore + range)
  else 0

/-- The excitation a channel's sensor sees: setting, level, switched. A pair that is IDLE has its source off (R50). -/
def excSeen (d g : Nat) : Nat × Nat × Bool :=
  if gExc g = 1 then (1, gVb g, gSwitched g)
  else if (gExc g = 2 || gExc g = 3) && dSrcEn d && !dIdle d then (gExc g, if gExc g = 2 then gIiepe g else 0, false)
  else (0, 0, false)

/-- t_fe in ns of a change from one descriptor pair to another; no old descriptor is first light and its like, a change
of mode and excitation together (R68, R70). -/
def tFe (old : Option (Nat × Nat)) (d g tCode : Nat) : Nat :=
  let before := match old with | some (d0, g0) => excSeen d0 g0 | none => (0, 0, false)
  let after := excSeen d g
  let modeChg := match old with | some (d0, _) => dMode d0 != dMode d | none => true
  let rangeChg := modeChg || (match old with
    | some (d0, _) => dRange d0 != dRange d || (dMode d == 2 && dRestore d0 != dRestore d)
    | none => true)
  let excChg := before != after
  let srcChg := match old with
    | some (d0, g0) => dSrcEn d0 != dSrcEn d && gExc g0 == gExc g && (gExc g == 2 || gExc g == 3)
    | none => false
  let tRange := if rangeChg then rangeTerm (dMode d) (dRange d) (dRestore d) else 0
  let tBridge := if excChg && (before.1 == 1 || after.1 == 1) then
    (if after.1 == 1 && after.2.2 then 1000000000 / tickHz tCode else 1000000) else 0
  let tIepe := if (excChg && after.1 == 2) || (srcChg && gExc g == 2) then 200000000 else 0
  let tLoop := if (excChg && after.1 == 3 && before.1 != 3) || (srcChg && gExc g == 3) then 50000000 else 0
  max (max tRange tBridge) (max tIepe tLoop) + (if modeChg || excChg || srcChg then dSettle d * 1000000 else 0)

/-- N = ⌈t_fe × f⌉ + S (R69); an IDLE channel has no slots. -/
def settleN (tfe d : Nat) : Nat :=
  if dIdle d then 0 else ceilDiv (tfe * 128000) (1000000000 * 2 ^ dRate d) + romS (dResp d)

/-- Whether two descriptors differ at most in fields that are no change: PROBE, LIVE_ZERO, AR_EN, AR_LO, AR_HI,
SENSOR_SETTLE (R69). -/
def sameSettings (d0 d : Nat) : Bool :=
  dMode d0 == dMode d && dRange d0 == dRange d && dRestore d0 == dRestore d && dRate d0 == dRate d &&
    dResp d0 == dResp d && dSrcEn d0 == dSrcEn d

/-- N that a change of a channel's descriptor returns: 0 where it is no change. -/
def chanChangeN (d0 d g tCode : Nat) : Nat :=
  if sameSettings d0 d then 0 else settleN (tFe (some (d0, g)) d g tCode) d

/-- A channel is affected by a change of its group's descriptor. -/
def groupAffects (d g0 g : Nat) : Bool := !dIdle d && excSeen d g0 != excSeen d g

/-- Total delay in MOD periods (04 R83, R86, 03 R57). -/
def totalDelay (d g tCode : Nat) : Nat :=
  110 + romK (dResp d) * 2 ^ dRate d + (if gSwitched g then 8192000 / tickHz tCode else 0)

/-- Total delay of a channel as configured. -/
def chanDelay (h : Hub) (c : Nat) : Nat := totalDelay (chDesc h c) (grDesc h (c / 8)) h.time.tCode

/-- The first-light N of a channel (R70). -/
def firstLightN (h : Hub) (c : Nat) : Nat :=
  settleN (tFe none (chDesc h c) (grDesc h (c / 8)) h.time.tCode) (chDesc h c)

/-- Starts a SETTLING window of n slots, discarding one that runs (R70). -/
def startSettling (n : Nat) (c : Chan) : Chan := { c with settleLeft := n }

/-! ## The grid (04 R76, 02 R26 to R28) -/

/-- The spacing of grid instants: 7,812.5 ns × 2^r. -/
def gridStep (r : Nat) : Int := 512000000 * (2 ^ r : Nat)

/-- The first grid instant at or after an instant. -/
def gridCeil (r : Nat) (i : Inst) : Inst := -((-i) / gridStep r) * gridStep r

/-- The instant of the open frame's slot i of a channel. -/
def slotInst (h : Hub) (r i : Nat) : Inst := gridCeil r h.time.tickInst + i * gridStep r

/-- The end of the open frame. -/
def frameEnd (h : Hub) : Inst := h.time.tickInst + h.time.frameLen

/-- The instant of the coming tick. -/
def nextInst (h : Hub) : Inst := frameEnd h + h.time.jump.getD 0

/-- The tick that follows one at an instant: the first on the tick grid at least one half period later (02 R24, R43). -/
def tickAfterStep (tCode : Nat) (i : Inst) : Inst :=
  let l := tickLen tCode
  let k := -((-(i + l / 2)) / l)
  k * l

/-- Ticks from one at an instant, which a step may have moved off the tick grid, to the next that lies on a channel's grid. -/
def ticksToGrid (inst : Inst) (r tCode : Nat) : Nat :=
  if gridCeil r inst = inst then 0
  else
    let next := tickAfterStep tCode inst
    1 + ((gridCeil r next - next) / tickLen tCode).toNat

/-- The phase d of a sparse channel set at the latest tick n: the next tick on the channel's grid has (n + d) mod k = 0
(02 R28). -/
def phaseAt (tick : Nat) (inst : Inst) (r tCode : Nat) : Nat :=
  if isDense r tCode then 0
  else
    let k := framesPerSlot r tCode
    (k - (tick + ticksToGrid inst r tCode) % k) % k

/-- Slots a measuring channel has in frame n by the phase rule of R27, at the full length of a frame. -/
def nominalSlots (h : Hub) (c n : Nat) : Nat :=
  let d := chDesc h c
  if dIdle d then 0
  else if isDense (dRate d) h.time.tCode then slotsPerFrame (dRate d) h.time.tCode
  else if (n + (chanAt h c).phase) % framesPerSlot (dRate d) h.time.tCode = 0 then 1 else 0

/-- Slots a measuring channel has in the frame that opened at the latest tick, whatever its length. -/
def openSlots (h : Hub) (c : Nat) : Nat :=
  let d := chDesc h c
  if dIdle d then 0
  else if isDense (dRate d) h.time.tCode then
    ((gridCeil (dRate d) (frameEnd h) - gridCeil (dRate d) h.time.tickInst) / gridStep (dRate d)).toNat
  else nominalSlots h c h.time.tick

/-! ## The decimation chain (04 R79) -/

/-- A FIR stage of the ROM over a delay line, newest first: tap i, counted from the oldest input, weighs coefficient i. -/
def firOut (stage taps : Nat) (line : List Int) : Int :=
  let s := (List.range taps).foldl (fun acc i =>
    acc + (Config.romCoef stage i).toInt * line.getD (taps - 1 - i) 0) 0
  roundEven s (2 ^ 23)

/-- Runs a decimate-by-2 stage over inputs in order; its outputs fall on every second input, the last of them with `after`
inputs behind it. -/
def halfStage (stage taps after : Nat) : List Int → List Int → List Int × List Int
  | line, [] => (line, [])
  | line, x :: xs =>
    let line := (x :: line).take taps
    let r := halfStage stage taps after line xs
    if xs.length % 2 = after then (r.1, firOut stage taps line :: r.2) else r

/-- One modulator bit through the four integrators. -/
def cicIntegrate (s : List (BitVec 20)) (bit : Bool) : List (BitVec 20) :=
  let x : BitVec 20 := if bit then 1 else -1
  let a := s.getD 0 0 + x
  let b := s.getD 1 0 + a
  let c := s.getD 2 0 + b
  [a, b, c, s.getD 3 0 + c]

/-- One decimated value through the four combs: the differences, and the inputs kept for the next. -/
def cicComb : List (BitVec 20) → BitVec 20 → BitVec 20 × List (BitVec 20)
  | [], v => (v, [])
  | p :: ps, v => let r := cicComb ps (v - p); (r.1, v :: r.2)

/-- Runs the CIC over bits in order, one output c per 16 bits, the last of them with `after` bits behind it; c × 2^-16 in
Q8.32. -/
def cicRun (after : Nat) : List (BitVec 20) → List (BitVec 20) → List Bool → List (BitVec 20) × List (BitVec 20) × List Int
  | i, k, [] => (i, k, [])
  | i, k, b :: bs =>
    let i := cicIntegrate i b
    if bs.length % 16 = after then
      let r := cicComb k (i.getD 3 0)
      let rest := cicRun after i r.2 bs
      (rest.1, rest.2.1, r.1.toInt * 2 ^ 16 :: rest.2.2)
    else cicRun after i k bs

/-- Inputs of stage j behind its last output, where the last bit is that of MOD edge `e`: stage j decimates inputs that come
every 16 × 2^j edges to those on whole multiples of twice that (04 R76). -/
def behind (e : Int) (j : Nat) : Nat := (e / (16 * 2 ^ j : Nat) % 2).toNat

/-- Runs the half-band stages in order up to MOD edge `e`; stage j uses ROM stage 16, 17, then 18. -/
def hbRun (e : Int) : Nat → List (List Int) → List Int → List (List Int) × List Int
  | _, [], xs => ([], xs)
  | j, l :: ls, xs =>
    let taps := if j = 1 then 39 else 23
    let r := halfStage (16 + min j 2) taps (behind e j) l xs
    let rest := hbRun e (j + 1) ls r.2
    (r.1 :: rest.1, rest.2)

/-- The delay lines of r HBx stages: those present keep their state, others start from zero (04 R89). -/
def chainFor (r : Nat) (c : Chain) : Chain := { c with hb := c.hb.take (2 + r) ++ List.replicate (2 + r - c.hb.length) [] }

/-- Feeds bits up to MOD edge `e` to a chain of RATE r and response k: the chain after them, and its outputs in order. -/
def chainOuts (e : Int) (r k : Nat) (bits : List Bool) (c : Chain) : Chain × List Int :=
  let c := chainFor r c
  let a := cicRun (e % 16).toNat c.cicInt c.cicComb bits
  let b := hbRun e 0 c.hb a.2.2
  let d := halfStage k (romTaps k) (behind e (2 + r)) c.rom b.2
  ({ cicInt := a.1, cicComb := a.2.1, hb := b.1, rom := d.1, y := d.2.getLastD c.y }, d.2)

/-- The chain after bits up to MOD edge `e`; y is its last output. -/
def chainRun (e : Int) (r k : Nat) (bits : List Bool) (c : Chain) : Chain := (chainOuts e r k bits c).1

/-! ## Changes of setting or phase under a running chain (04 R89, R91) -/

/-- The number of an instant's last MOD edge at or before it, counted from TAI 0 (04 R75). -/
def edgeAt (i : Inst) : Int := i / modLen 1

/-- The number of the last MOD edge before an instant. -/
def edgeBefore (i : Inst) : Int := edgeAt (i - 1)

/-- Bits decided from a cut on, up to MOD edge `e`, the cuts behind it taken on the way. -/
def bitsFrom (e : Int) : ChainCut → List ChainCut → Nat
  | c, [] => (e - edgeBefore c.start).toNat
  | c, d :: ds => (d.before - edgeBefore c.start).toNat + bitsFrom e d ds

/-- Feeds bits up to MOD edge `e` to a chain through its cuts: those before a cut run with the settings and the phase before it. -/
def chainThrough (e : Int) (r k : Nat) : List ChainCut → List Bool → Chain → Chain
  | [], bits, c => chainRun e r k bits c
  | x :: xs, bits, c =>
    let n := bits.length - bitsFrom e x xs
    let c := chainRun x.before x.rate x.resp (bits.take n) c
    chainThrough e r k xs (bits.drop n) { c with hb := c.hb.take x.keep, rom := if x.clear then [] else c.rom }

/-! ## The stream of a hold (04 R94) -/

/-- One bit of the stream synthesised from an output y in Q8.32, of MOD edge `e` of a channel, and the running error after it.
The error stays bounded whatever the free dither, so the mean of the stream is y. -/
def holdBit (ch : Nat) (e y err : Int) : Bool × Int :=
  let bit := decide (0 ≤ err + (Config.holdDither ch e).toInt)
  (bit, err + y - if bit then 2 ^ 32 else -(2 ^ 32))

/-- The bits that reach a chain: those of edges in a hold are the synthesised ones. The first bit is that of MOD edge `e`. -/
def heldBits (ch : Nat) (held : Int → Bool) (y : Int) : Int → Int → List Bool → List Bool × Int
  | _, err, [] => ([], err)
  | e, err, b :: bs =>
    if held e then
      let x := holdBit ch e y err
      let r := heldBits ch held y (e + 1) x.2 bs
      (x.1 :: r.1, r.2)
    else
      let r := heldBits ch held y (e + 1) err bs
      (b :: r.1, r.2)

/-! ## Calibration correction (04 R81) -/

/-- Self-calibration coefficients of a front end for a mode and range: accepted ones, or the factory's (05 R100). -/
def feCoef (h : Hub) (fe mode range : Nat) : FeCoef :=
  match (feAt h fe).coefs.find? fun c => c.mode == mode && c.range == range with
  | some c => c
  | none =>
    { mode := mode, range := range, o := (Config.factoryOffset fe mode range).toInt
      g := (Config.factoryGain fe mode range).toNat }

/-- u = g_s × (y − o_s) × 2^23 in units of 2^-39 LSB (05 R111). -/
def selfCorrect (c : FeCoef) (y : Int) : Int := (c.g : Int) * (y - c.o)

/-- VALUE before clamping: v rounded by R80. -/
def correct (c : FeCoef) (gSys : Nat) (oSys : Int) (y : Int) : Int :=
  roundEven ((gSys : Int) * (selfCorrect c y - oSys * 2 ^ 31)) (2 ^ 69)

/-! ## The status of a slot (00 R7, 04 R93) -/

/-- Status codes (00 R6). -/
def sGood : Nat := 0
def sSettling : Nat := 1
def sOverHi : Nat := 2
def sOverLo : Nat := 3
def sRecovering : Nat := 4
def sStale : Nat := 5
def sInvalid : Nat := 7
def sRetired : Nat := 8
def sFill : Nat := 9
def sNotValid : Nat := 15

/-- The conditions that hold for a slot at its instant. -/
structure SlotCauses where
  retired : Bool
  invalid : Bool
  overHi : Bool
  overLo : Bool
  stale : Bool
  settling : Bool
  recovering : Bool
deriving DecidableEq, Repr

/-- The first applicable code (00 R7). DESIGN CHOICE (log 28): R7 gives OVER_HI and OVER_LO one rank and does not say which holds
when a comparator trips on one side and the corrected value lies beyond the range on the other; the model sets OVER_HI. -/
def slotStatus (c : SlotCauses) : Nat :=
  if c.retired then sRetired else if c.invalid then sInvalid else if c.overHi then sOverHi
  else if c.overLo then sOverLo else if c.stale then sStale else if c.settling then sSettling
  else if c.recovering then sRecovering else sGood

/-- Rank of a code in the order of R7, for verdicts between causes. -/
def statusRank (s : Nat) : Nat :=
  if s = sRetired then 0 else if s = sInvalid then 1 else if s = sOverHi ∨ s = sOverLo then 2 else if s = sStale then 3
  else if s = sSettling then 4 else if s = sRecovering then 5 else 6

/-- A sample word (00 R5). -/
def sampleWord (value : Int) (status seq : Nat) : Word :=
  BitVec.ofNat 32 (twos 24 value * 256 + status % 16 * 16 + seq % 8)

/-- Fields of a sample word. -/
def wValue (w : Word) : Int := sext 24 (w.toNat / 256)
def wStatus (w : Word) : Nat := bitsOf w.toNat 7 4
def wSeq (w : Word) : Nat := bitsOf w.toNat 2 0

/-- The word with another status: VALUE, END and SEQ stay (04 R95). -/
def withStatus (w : Word) (s : Nat) : Word := BitVec.ofNat 32 (w.toNat - wStatus w * 16 + s % 16 * 16)

/-- The word with END set or clear. -/
def withEnd (w : Word) (e : Bool) : Word := (w &&& 0xFFFFFFF7) ||| (if e then 8 else 0)

/-- A verdict's effect on a word (02 R30, R34): the rank of R7 decides between causes. -/
def applyVerdict (s : Nat) (w : Word) : Word := if statusRank s < statusRank (wStatus w) then withStatus w s else w

end Sys2Proof.Machine
end

