-- ==== Sys2Proof/Machine/Compress.lean ====
section
/-! DEFINITION. The encoder of channel blocks and bodies, with the choices of 08 R188 (chapter 08). -/

namespace Sys2Proof.Machine

/-- An encoded block with what later blocks need: values and the history before each word. -/
structure BlockOut where
  ch : Nat
  bytes : Bytes
  words : List Word
  vals : List Int
  ctxs : List (List Int)
  seeded : Bool
  raw : Bool
  hist : List Int
deriving DecidableEq, Repr

/-! ## Prediction (R184, R185) -/

/-- The polynomial prediction of order p from the history before a word, newest first. -/
def poly (p : Nat) (ctx : List Int) : Int :=
  match min p ctx.length with
  | 0 => 0
  | 1 => ctx.getD 0 0
  | 2 => 2 * ctx.getD 0 0 - ctx.getD 1 0
  | _ => 3 * ctx.getD 0 0 - 3 * ctx.getD 1 0 + ctx.getD 2 0

/-- The history before each word: at most three values, newest first. -/
def contexts : List Int → List Int → List (List Int)
  | _, [] => []
  | hist, v :: vs => hist :: contexts ((v :: hist).take 3) vs

/-- History after values. -/
def histAfter (hist vals : List Int) : List Int := vals.foldl (fun h v => (v :: h).take 3) hist

/-- WEIGHT codes in quarters. -/
def weightOf (w : Nat) : Int := if w < 4 then (w : Int) + 1 else 3 - (w : Int)

/-- What prediction of one word needs: its value, its history, its neighbour's value and history. -/
structure PredIn where
  v : Int
  ctx : List Int
  z : Int
  zctx : List Int
deriving DecidableEq, Repr

/-- The residue of a word under a MODE and a WEIGHT. -/
def residue (mode weight : Nat) (x : PredIn) : Int :=
  let p := mode % 4
  let nb := if 4 ≤ mode then roundEven (weightOf weight * (x.z - poly p x.zctx)) 4 else 0
  x.v - (poly p x.ctx + nb)

/-- The unsigned map of a residue (R186). -/
def zigzag (e : Int) : Nat := if 0 ≤ e then (2 * e).toNat else (-2 * e - 1).toNat

/-! ## Residue coding (R186, R188) -/

/-- Bits of a value under a Rice parameter. -/
def riceCost (k u : Nat) : Nat := if u / 2 ^ k < 24 then u / 2 ^ k + 1 + k else 48

/-- Bits of a sub-block's values under a PARAM. -/
def paramCost (k : Nat) (us : List Nat) : Nat :=
  if k = 31 then 24 * us.length else us.foldl (fun a u => a + riceCost k u) 0

/-- A choice of MODE, WEIGHT and PARAM with its bits, header included. -/
structure SubChoice where
  mode : Nat
  weight : Nat
  param : Nat
  cost : Nat
deriving DecidableEq, Repr

/-- The better of two choices; the earlier one wins a tie. -/
def better (a b : SubChoice) : SubChoice := if b.cost < a.cost then b else a

/-- PARAM values in the order of ties: 0 to 24, then 31. -/
def paramList : List Nat := List.range 25 ++ [31]

/-- The best PARAM for a MODE and WEIGHT. -/
def bestParam (xs : List PredIn) (mode weight : Nat) (acc : SubChoice) : SubChoice :=
  let us := xs.map fun x => zigzag (residue mode weight x)
  let head := if 4 ≤ mode then 11 else 8
  paramList.foldl (fun a k => better a ⟨mode, weight, k, head + paramCost k us⟩) acc

/-- MODE and WEIGHT pairs in the order of ties. -/
def modeList (nb : Bool) : List (Nat × Nat) :=
  (List.range 4).map (·, 0) ++
    (if nb then (rangeFrom 4 4).flatMap fun m => (List.range 8).map (m, ·) else [])

/-- The choice of R188 step 2 for a sub-block. -/
def bestSub (nb : Bool) (xs : List PredIn) : SubChoice :=
  (modeList nb).foldl (fun a mw => bestParam xs mw.1 mw.2 a) ⟨0, 0, 31, 9 + 24 * xs.length + 48⟩

/-- Bits of one value (R186). -/
def valueBits (param : Nat) (v : Int) (u : Nat) : List Bool :=
  if param = 31 then bitsLe 24 (twos 24 v)
  else
    let q := u / 2 ^ param
    if q < 24 then List.replicate q true ++ [false] ++ bitsLe param u
    else List.replicate 24 true ++ bitsLe 24 (twos 24 v)

/-- Bits of a sub-block. -/
def subBits (c : SubChoice) (xs : List PredIn) : List Bool :=
  bitsLe 3 c.mode ++ (if 4 ≤ c.mode then bitsLe 3 c.weight else []) ++ bitsLe 5 c.param ++
    xs.flatMap fun x => valueBits c.param x.v (zigzag (residue c.mode c.weight x))

/-- Sub-blocks of 64 words, at most `fuel` of them. -/
def subBlocks : Nat → List PredIn → List (List PredIn)
  | 0, _ => []
  | fuel + 1, xs => if xs.isEmpty then [] else xs.take 64 :: subBlocks fuel (xs.drop 64)

/-! ## Blocks (R179 to R182) -/

/-- ⌈log2 n⌉. -/
def ceilLog2 (n : Nat) : Nat := if n ≤ 1 then 0 else (n - 1).log2 + 1

/-- Maximal runs of equal values with their lengths. -/
def runs : List Nat → List (Nat × Nat)
  | [] => []
  | s :: ss =>
    match runs ss with
    | (t, n) :: r => if s = t then (t, n + 1) :: r else (s, 1) :: (t, n) :: r
    | [] => [(s, 1)]

/-- STAT and the status field. -/
def statusBits (ss : List Nat) : Bool × List Bool :=
  match runs ss with
  | [(s, _)] => (false, bitsLe 4 s)
  | rs => (true, rs.flatMap fun r => bitsLe 4 r.1 ++ bitsLe (ceilLog2 ss.length) (r.2 - 1))

/-- SEQ values run consecutively modulo 8. -/
def seqRuns : List Nat → Bool
  | a :: b :: r => (a + 1) % 8 == b && seqRuns (b :: r)
  | _ => true

/-- Bits to bytes, the last padded with zeros (R178). -/
def packBits (bs : List Bool) : Bytes :=
  let n := ceilDiv bs.length 8
  (List.range n).map fun i => BitVec.ofNat 8 (ofBits ((bs.drop (8 * i)).take 8))

/-- A raw block (R180). -/
def rawBlock (ch : Nat) (ws : List Word) : Bytes :=
  packBits (bitsLe 2 1 ++ bitsLe 9 ch ++ bitsLe 11 ws.length) ++ ws.flatMap fun w => leNat 4 w.toNat

/-- A coded block with or without the neighbour. -/
def codedBlock (ch : Nat) (ws : List Word) (seed : Bool) (nb : Option Nat) (subs : List (List PredIn))
    (cs : List SubChoice) : Bytes :=
  let seqs := ws.map wSeq
  let st := statusBits (ws.map wStatus)
  let v0 := twos 24 (wValue (ws.getD 0 0))
  packBits (bitsLe 2 0 ++ bitsLe 9 ch ++ bitsLe 11 ws.length ++ [seed] ++ bitsLe 3 (seqs.getD 0 0) ++ [!seqRuns seqs] ++
    [nb.isSome] ++ [st.1] ++ (match nb with | some c => bitsLe 9 c | none => []) ++
    (if seqRuns seqs then [] else seqs.flatMap (bitsLe 3)) ++ st.2 ++ (if seed then bitsLe 24 v0 else []) ++
    (cs.zip subs).flatMap fun x => subBits x.1 x.2)

/-- A block as raw, continuing its history and passing a due seed on. -/
def rawOut (b : BlockIn) (vals : List Int) : BlockOut :=
  { ch := b.ch, bytes := rawBlock b.ch b.words, words := b.words, vals := vals, ctxs := contexts b.hist vals
    seeded := false, raw := true, hist := histAfter b.hist vals }

/-- Encodes a block after those before it in its body (R188). -/
def encodeBlock (done : List BlockOut) (b : BlockIn) : BlockOut :=
  let vals := b.words.map wValue
  let hist := if b.seed then [] else b.hist
  let ctxs := contexts hist vals
  let nbOut := b.nb.bind fun n => done.reverse.find? fun o => o.ch == n && o.words.length == b.words.length && decide (n < b.ch)
  let z := match nbOut with | some o => (o.vals, o.ctxs) | none => ([], [])
  let preds := mapI (fun i v =>
    { v := v, ctx := ctxs.getD i [], z := z.1.getD i 0, zctx := z.2.getD i [] : PredIn }) vals
  let subs := subBlocks b.words.length (if b.seed then preds.drop 1 else preds)
  let cs := subs.map (bestSub nbOut.isSome)
  let nb := if cs.any fun c => decide (4 ≤ c.mode) then b.nb else none
  let coded := codedBlock b.ch b.words b.seed nb subs cs
  if coded.length < 3 + 4 * b.words.length then
    { ch := b.ch, bytes := coded, words := b.words, vals := vals, ctxs := ctxs, seeded := b.seed, raw := false
      hist := histAfter hist vals }
  else rawOut b vals

/-! ## Bodies (R177, R187) -/

/-- CHECK: CRC-32C over the words of all blocks. -/
def bodyCheck (ws : List Word) : BitVec 32 := crc32c (ws.flatMap fun w => leNat 4 w.toNat)

/-- END on the last word of a block and on no other (R181). -/
def markEnd (ws : List Word) : List Word := mapI (fun i w => withEnd w (i + 1 == ws.length)) ws

/-- A block that could not be decoded, as it was received. -/
def keptOut (b : BlockIn) : BlockOut :=
  { ch := b.ch, bytes := b.kept, words := [], vals := [], ctxs := [], seeded := b.seed, raw := false, hist := [] }

/-- Encodes blocks in order, each after those before it. -/
def encodeBlocks (enable : Bool) (bs : List BlockIn) : List BlockOut :=
  bs.foldl (fun done b =>
    let b := { b with words := markEnd b.words }
    done ++ [if b.lost ≠ 0 then keptOut b else if enable then encodeBlock done b else rawOut b (b.words.map wValue)]) []

/-- A body of encoded blocks. -/
def bodyBytes (format flags : Nat) (outs : List BlockOut) : Bytes :=
  let ws := outs.flatMap (·.words)
  leNat 1 format ++ leNat 1 flags ++ leNat 2 outs.length ++ leNat 4 ws.length ++ outs.flatMap (·.bytes) ++
    leNat 4 (bodyCheck ws).toNat

/-- ENABLE and SEED_PERIOD of a block, and an entry of a map (R174). -/
def compEnable (block : BitVec 64) : Bool := bitOf block.toNat 0

/-- SEED_PERIOD. -/
def seedPeriod (block : BitVec 64) : Nat := bitsOf block.toNat 23 8

/-- The neighbour an enabled map entry names. -/
def mapNb (map : List (BitVec 16)) (c : Nat) : Option Nat :=
  let e := (map.getD c 0).toNat
  if bitOf e 15 then some (bitsOf e 9 0) else none

/-- A capture body on its way: its blocks, the channels still to be seeded, and the history of each channel (R193, R194). -/
structure SliceRun where
  outs : List BlockOut := []
  seeds : List Nat
  hists : List (Nat × List Int) := []
deriving DecidableEq, Repr

/-- Encodes one more slice of a capture body: every channel's words in order, with neighbours of the same slice (R176). A channel without words, or with a raw block, keeps the
seed it is due; one without words keeps its history. -/
def encodeSlice (h : Hub) (enable : Bool) (chans : List Nat) (words : List (List Word)) (r : SliceRun) : SliceRun :=
  let ins := (chans.zip words).map fun x =>
    { ch := x.1, words := x.2, seed := r.seeds.contains x.1, hist := ((r.hists.find? (·.1 == x.1)).map (·.2)).getD []
      nb := (mapNb h.cfg.map x.1).filter chans.contains : BlockIn }
  let new := encodeBlocks enable ins
  { outs := r.outs ++ new, seeds := r.seeds.filter fun c => !new.any fun o => o.ch == c && !o.raw
    hists := new.map (fun o => (o.ch, o.hist)) ++ r.hists.filter fun x => !new.any (·.ch == x.1) }

/-- ENABLE for the next body: one that an engine gets wrong is rebuilt in format 0 (R191). -/
def bodyEnable (h : Hub) : Bool := compEnable h.cfg.comp && h.stream.badBodies == 0

/-- A body has left the compression stage. -/
def bodyChecked (h : Hub) : Hub := { h with stream.badBodies := h.stream.badBodies - 1 }

end Sys2Proof.Machine
end

