-- ==== Sys2Proof/Machine/Faults.lean ====
section
/-! DEFINITION. Fault sources with their defaults, the slots an occurrence invalidates, verdicts, occurrence counts, the
history queue (15 R369 to R375, R384, R386, 02 R30). -/

namespace Sys2Proof.Machine

/-- What a source's instance number names. -/
inductive InstKind
  | none | channel | group | fe | lane | hkRail | partition | page | window | sector | register
deriving DecidableEq, Repr

/-- Which slots a source's verdict marks (15 R375). -/
inductive VerdictKind
  | none | channel | group | fe | tile | excited
deriving DecidableEq, Repr

/-- A row of R370. -/
structure Source where
  cls : Nat
  retries : Nat := 0
  window : Nat := 0
  /-- Persistence time in 1/4,000 s; 0 for none. -/
  persist : Nat := 0
  reaction : Nat := 0
  fixed : Bool := false
  verdict : VerdictKind := .none
  inst : InstKind := .none
deriving DecidableEq, Repr

/-- Sources of a front-end tile by offset from b_t. -/
def tileSource (k : Nat) : Source :=
  ([ { cls := 0, retries := 3, window := 3600, persist := 40000, reaction := 2, verdict := .channel, inst := .channel },
    { cls := 0, retries := 3, window := 3600, persist := 40000, reaction := 2, verdict := .channel, inst := .channel },
    { cls := 0, retries := 3, window := 3600, persist := 40000, reaction := 2, verdict := .group, inst := .group },
    { cls := 0, retries := 3, window := 3600, persist := 40000, reaction := 2, verdict := .group, inst := .group },
    { cls := 0, retries := 3, window := 3600, persist := 240000, reaction := 2, inst := .channel },
    { cls := 0, retries := 2, window := 600, persist := 4000, reaction := 3, verdict := .fe, inst := .fe },
    { cls := 1, reaction := 3, inst := .fe },
    { cls := 0, retries := 3, window := 86400, reaction := 3, inst := .fe },
    { cls := 0, retries := 3, window := 86400, inst := .group },
    { cls := 0, retries := 3, window := 3600 },
    { cls := 1, inst := .channel },
    { cls := 0, retries := 3, window := 3600, persist := 40000, reaction := 2, verdict := .channel, inst := .channel },
    { cls := 0, retries := 8, window := 60, persist := 4000, reaction := 6, verdict := .tile },
    { cls := 0, retries := 2, window := 3600, reaction := 6, verdict := .tile },
    { cls := 1, reaction := 7 },
    { cls := 1, reaction := 7, verdict := .tile } ] : List Source).getD k { cls := 0 }

/-- Lane sources by offset from their base; offsets 6 and 7 are reserved. -/
def laneFaultSource (k : Nat) : Option Source :=
  ([ { cls := 0, retries := 255, window := 60, reaction := 1 },
    { cls := 0, retries := 255, window := 60, reaction := 1 },
    { cls := 0, retries := 2, window := 600, reaction := 4 },
    { cls := 1 },
    { cls := 1, reaction := 4 },
    { cls := 0, retries := 2, window := 600, reaction := 4 } ] : List Source)[k]?

/-- The other sources with a number of their own. -/
def plainSources : List (Nat × Source) :=
  [ (0x050, { cls := 0, retries := 3, window := 600, persist := 4000, reaction := 7, verdict := .excited }),
    (0x051, { cls := 1, reaction := 7 }), (0x052, { cls := 1, reaction := 7, inst := .hkRail }),
    (0x053, { cls := 1, reaction := 7 }), (0x054, { cls := 1 }), (0x055, { cls := 1 }),
    (0x060, { cls := 2, reaction := 7, fixed := true }),
    (0x067, { cls := 0, retries := 10, window := 3600 }), (0x068, { cls := 0, retries := 3, window := 3600 }),
    (0x070, { cls := 0, retries := 3, window := 60, reaction := 6 }), (0x071, { cls := 1, reaction := 6 }) ] ++
  [ (0x074, { cls := 0, retries := 3, window := 3600, reaction := 6 }),
    (0x0C0, { cls := 1 }), (0x0C1, { cls := 1 }), (0x0C2, { cls := 0, retries := 3, window := 600 }),
    (0x0C3, { cls := 0, retries := 2, window := 3600, reaction := 6 }),
    (0x0D0, { cls := 0, retries := 255, window := 60, inst := .partition }),
    (0x0D1, { cls := 2, reaction := 7, fixed := true, inst := .partition }),
    (0x0D2, { cls := 0, retries := 7, window := 86400, reaction := 5, inst := .page }),
    (0x0D3, { cls := 1, reaction := 5, inst := .page }), (0x0D4, { cls := 1 }),
    (0x0D5, { cls := 0, retries := 3, window := 600, inst := .window }),
    (0x0D6, { cls := 0, retries := 3, window := 3600, inst := .partition }),
    (0x0D7, { cls := 0, retries := 3, window := 3600, inst := .sector }),
    (0x0D8, { cls := 1, inst := .partition }), (0x125, { cls := 1, reaction := 7 }) ]

/-- The defaults of a source number (15 R370); none for a reserved number. -/
def sourceOf (n : Nat) : Option Source :=
  if 0x10 ≤ n ∧ n < 0x50 then some (tileSource (n % 16))
  else if 0x58 ≤ n ∧ n ≤ 0x5F then some { cls := 0, retries := 3, window := 600, persist := 40000 }
  else if 0x61 ≤ n ∧ n ≤ 0x66 then some { cls := 2, reaction := 7, fixed := true }
  else if n = 0x72 ∨ n = 0x73 then some { cls := 0, retries := 3, window := 3600 }
  else if 0x78 ≤ n ∧ n ≤ 0x7B then some { cls := 0, retries := 2, window := 3600, reaction := 6 }
  else if 0x80 ≤ n ∧ n ≤ 0x82 then some { cls := 0, retries := 3, window := 60, reaction := 6 }
  else if 0x90 ≤ n ∧ n < 0xC0 then laneFaultSource (n % 8)
  else if 0xE0 ≤ n ∧ n ≤ 0xF3 then some { cls := 0, retries := 3, window := 60, reaction := 6 }
  else if 0x100 ≤ n ∧ n ≤ 0x11F then some { cls := 0, retries := 3, window := 60 }
  else if 0x120 ≤ n ∧ n ≤ 0x123 then some { cls := 2, reaction := 7, fixed := true }
  else if n = 0x124 then some { cls := 2, reaction := 7, inst := .register }
  else (plainSources.find? (·.1 == n)).map (·.2)

/-- A source whose offset within its tile's block is k. -/
def isTileSource (n k : Nat) : Bool := decide (0x10 ≤ n ∧ n < 0x50) && n % 16 == k

/-- The tile of a tile source. -/
def sourceTile (n : Nat) : Nat := (n - 0x10) / 16

/-- An instance number a source has (15 R369, R370). -/
def instOk (n i : Nat) : Bool :=
  match sourceOf n with
  | none => false
  | some s =>
    match s.inst with
    | .none => i == 0
    | .channel => decide (i < 512) && tileOfCh i == sourceTile n
    | .group => decide (i < 64) && i / 16 == sourceTile n
    | .fe => decide (i < 576) && tileOfFe i == sourceTile n
    | .lane => decide (i < 6)
    | .hkRail => decide (9 ≤ i ∧ i ≤ 15)
    | .partition => decide (i < (if n = 0xD0 ∨ n = 0xD1 then 6 else 8))
    | .page => decide (i < 131072)
    | .window => decide (i < 16)
    | .sector => decide (i < 65536)
    | .register => decide (i < 65536)

/-- Class, reaction, RETRIES and WINDOW_S of a source under an entry of CFG_FAULT, or its defaults. A COLLECTOR_SELF that reaches the
queue is FATAL and enters the eclipse state, whatever an entry says; under SELF_MERGE it is merged and never does (15 R387). -/
def cfgWith (n : Nat) (entry : Option FaultCfg) : FaultCfg :=
  if n = 0x124 then ⟨2, 7, 0, 0⟩
  else match entry with
    | some f => f
    | none =>
      match sourceOf n with
      | some s => ⟨s.cls, s.reaction, s.retries, s.window⟩
      | none => ⟨0, 0, 0, 0⟩

/-- What is in force for a source. -/
def cfgOfSource (h : Hub) (n : Nat) : FaultCfg := cfgWith n ((h.cfg.fault.find? (·.1 == n)).map (·.2))

/-- What applies to the occurrence of a source instance: what was in force when it began (15 R374). -/
def cfgOfOcc (h : Hub) (source inst : Nat) : FaultCfg :=
  match h.faults.occ.find? fun o => o.source == source && o.inst == inst with
  | some o => cfgWith source o.conf
  | none => cfgOfSource h source

/-- Whether R374 allows a reaction for a source. -/
def reactionAllowed (n r : Nat) : Bool :=
  let inst := ((sourceOf n).map (·.inst)).getD .none
  r == 0 || r == 6 || r == 7 ||
    (r == 1 && decide (0x90 ≤ n ∧ n < 0xC0) && decide (n % 8 < 2)) ||
    (r == 2 && decide (0x10 ≤ n ∧ n < 0x50) && (inst == .channel || inst == .group || inst == .fe)) ||
    (r == 3 && decide (0x10 ≤ n ∧ n < 0x50) && decide (5 ≤ n % 16 ∧ n % 16 ≤ 7)) ||
    (r == 4 && decide (0x90 ≤ n ∧ n < 0xC0)) || (r == 5 && (n == 0xD2 || n == 0xD3))

/-! ## Slots that an occurrence invalidates (15 R375) -/

/-- The channel whose pair a front end measures. -/
def servedBy (h : Hub) (fe : Nat) : Option Nat :=
  (List.range 8).map (fe / 9 * 8 + ·) |>.find? fun c => (chanAt h c).fe == some fe

/-- A channel measures: it is neither IDLE nor retired. -/
def measuring (h : Hub) (c : Nat) : Bool := !dIdle (chDesc h c) && !(chanAt h c).retired

/-- A channel takes part from now on: it is neither IDLE nor retired, nor retired from the coming tick (03 R61). -/
def remains (h : Hub) (c : Nat) : Bool := measuring h c && !(chanAt h c).retireDue

/-- The channel whose pair a front end holds: the one it measures, and for a spare that of its overlap too (03 R65). -/
def heldBy (h : Hub) (fe : Nat) : Option Nat :=
  match servedBy h fe with
  | some c => some c
  | none => if fe % 9 = 8 then (groupAt h (fe / 9)).spareOn else none

/-- An occurrence of a source instance invalidates a channel's slots. -/
def affects (h : Hub) (source inst c : Nat) : Bool :=
  match ((sourceOf source).map (·.verdict)).getD .none with
  | .none => false
  | .channel => inst == c
  | .group => c / 8 == inst && !dIdle (chDesc h c)
  | .fe => servedBy h inst == some c || (chanAt h c).leftFe == some inst
  | .tile => tileOfCh c == sourceTile source && measuring h c
  | .excited => measuring h c && gExc (grDesc h (c / 8)) != 0

/-- A fault asserted now invalidates the channel's slots at stage 3 (04 R93). -/
def faultInvalid (h : Hub) (c : Nat) : Bool := h.faults.occ.any fun o => !o.cleared && affects h o.source o.inst c

/-! ## Verdicts (02 R30, 12 R302) -/

/-- Frames a verdict issued in the present interval still reaches: it is applied at the next tick, no later than tick
f + V. -/
def reachable (h : Hub) (f : Frame) : Bool := decide (h.time.tick + 1 ≤ f.n + f.v)

/-- Descriptor of a channel in a frame. -/
def frDesc (f : Frame) (c : Nat) : Nat := (f.chan.getD c 3).toNat

/-- Total delay of a channel in a frame. -/
def frDelay (f : Frame) (c : Nat) : Nat := totalDelay (frDesc f c) (f.group.getD (c / 8) 0).toNat f.tCode

/-- Instant of slot i of a channel in a frame of the raw window. -/
def frameSlotInst (r : Nat) (f : Frame) (i : Nat) : Inst := gridCeil r f.stamp.inst + i * gridStep r

/-- Verdicts over a channel's slots of the raw window whose instants, brought to the present timebase, lie in [a, b), one entry
per frame. -/
def verdictsFor (h : Hub) (c status cause : Nat) (a b : Inst) : List Verdict :=
  h.frames.filterMap fun f =>
    if reachable h f then
      match f.words.find? (·.1 == c) with
      | none => none
      | some w =>
        let hit := (List.range w.2.length).filter fun i =>
          let t := frameSlotInst (dRate (frDesc f c)) f i + (h.time.shift - f.shift)
          decide (a ≤ t) && decide (t < b)
        match hit with
        | [] => none
        | i :: _ => some { frame := f.n, ch := c, first := i, slots := hit.length, status := status, cause := cause }
    else none

/-- Start of the oldest frame that a verdict still reaches. -/
def reachStart (h : Hub) : Inst :=
  ((h.frames.find? (reachable h)).map fun f => f.stamp.inst + (h.time.shift - f.shift)).getD h.time.tickInst

/-- Slots of a channel with instants from `a` that fell beyond reach. -/
def clippedSlots (h : Hub) (c : Nat) (a : Inst) : Nat :=
  let r := dRate (chDesc h c)
  if measuring h c then ((gridCeil r (reachStart h) - gridCeil r a) / gridStep r).toNat else 0

/-- Issues verdicts; they are applied together at the next tick. -/
def issue (vs : List Verdict) (h : Hub) : Hub := { h with verdicts := h.verdicts ++ vs }

/-- INVALID verdicts of an occurrence from an instant to another, and how many slots were clipped. -/
def faultVerdicts (h : Hub) (source inst : Nat) (start stop : Inst) : List Verdict × Nat :=
  let cs := (List.range 512).filter (affects h source inst)
  (cs.flatMap fun c => verdictsFor h c sInvalid 0 start stop, sumNat (cs.map fun c => clippedSlots h c start))

/-! ## History and counts (15 R373, R384) -/

/-- Flag bits of a fault record (15 R391). -/
def faultFlags (forced real perm merged fallback : Bool) : Nat :=
  b2n forced + 2 * b2n real + 4 * b2n perm + 8 * b2n merged + 16 * b2n fallback

/-- Appends an entry, the oldest of 32 falling out. -/
def pushHistory (e : Hist) (h : Hub) : Hub :=
  { h with faults.history := (h.faults.history ++ [e]).drop (h.faults.history.length + 1 - 32) }

/-- The 48 bytes of a history entry. -/
def histBytes (e : Hist) : Bytes :=
  let sec := (e.secondary ++ [0xFFFF, 0xFFFF, 0xFFFF]).take 3
  leNat 2 e.source ++ leNat 2 e.inst ++ leNat 1 e.cls ++ leNat 1 e.reaction ++ leNat 1 e.flags ++ leNat 1 e.merges ++
    leNat 1 (min 255 e.occurrences) ++ zeros 1 ++ sec.flatMap (leNat 2) ++ leNat 8 e.opSeconds ++
    stampBytes e.stamp ++ leNat 8 e.detail.toNat

/-- The 32 bytes of the fallback capture set (15 R388). -/
def fallbackBytes (f : Fallback) : Bytes :=
  leNat 1 (b2n f.valid) ++ leNat 1 f.master ++ leNat 1 f.access ++ leNat 1 f.later ++ leNat 2 f.source ++ zeros 2 ++
    leNat 8 f.address ++ stampBytes f.stamp

/-- Capture times of a source instance. -/
def countsOf (h : Hub) (source inst : Nat) : List Nat :=
  ((h.faults.counts.find? (·.1 == (source, inst))).map (·.2)).getD []

/-- Counts a capture now: the times within the window, this one first. -/
def countCapture (h : Hub) (source inst window : Nat) : List Nat :=
  opSeconds h :: (countsOf h source inst).filter fun t => decide (opSeconds h < t + window)

/-- Stores the capture times of an instance. -/
def setCounts (source inst : Nat) (ts : List Nat) (h : Hub) : Hub :=
  { h with faults.counts := ((source, inst), ts) :: h.faults.counts.filter (·.1 != (source, inst)) }

/-- Clears counts, declarations and occurrences of instances that a condition selects. -/
def forgetFaults (sel : Nat → Nat → Bool) (h : Hub) : Hub :=
  { h with
    faults.counts := h.faults.counts.filter fun x => !sel x.1.1 x.1.2
    faults.perm := h.faults.perm.filter fun x => !sel x.1 x.2 }

end Sys2Proof.Machine
end

