-- ==== Sys2Proof/Machine/Samples.lean ====
section
/-! DEFINITION. Sample slots, over-range, autorange, on-phases and limiters (chapters 03 and 04). -/

namespace Sys2Proof.Machine

/-! ## Creating a slot (04 R76 to R95) -/

/-- The least sensitive allowed range (03 R66). Codes rise with sensitivity in VOLTAGE and CURRENT and fall with it in
CHARGE (DEDUCED from 03 R45, log 16). -/
def leastRange (d : Nat) : Nat := if dMode d = 2 then dArHi d else dArLo d

/-- A trip in this range sets OVER_HI or OVER_LO: without autorange, or in the least sensitive allowed range. In another range
it is a crossing that starts an autorange step (03 R66). -/
def overCounts (d rangeNow : Nat) : Bool := !dArEn d || rangeNow == leastRange d

/-- The front end whose coefficients correct a channel's chain: the one that feeds it, else the one that serves the channel
(04 R78, R81). -/
def chainFe (c : Nat) (ch : Chan) : Nat := ch.fe.getD (if ch.remapped then c / 8 * 9 + 8 else c / 8 * 9 + c % 8)

/-- The sampling instant lies in a hold interval, or a hold was carried over a time step (05 R107, 04 R91). -/
def inHold (ch : Chan) (sampling : Inst) : Bool :=
  decide (0 < ch.staleLeft) || ch.holds.any fun k => k.marks && decide (k.start ≤ sampling) && decide (sampling < k.stop)

/-- A slot of a channel at grid instant `t` lies in a hold. -/
def slotHeld (h : Hub) (c : Nat) (t : Inst) : Bool := inHold (chanAt h c) (t - modLen (chanDelay h c))

/-- An instant moved past the hold intervals of a channel that it lies in: a front end connected at the end of one is first compared at
that end (04 R94). -/
def pastHolds (ch : Chan) (i : Inst) : Inst :=
  ch.holds.foldl (fun i k => if k.start ≤ i ∧ i < k.stop then k.stop else i) i

/-- The causes that hold for a slot of a channel at grid instant `t`, with v its rounded value (04 R93). -/
def slotCauses (h : Hub) (c : Nat) (t : Inst) (v : Int) : SlotCauses :=
  let ch := chanAt h c
  let held := slotHeld h c t
  let trip := match (feAt h (chainFe c ch)).overRange with
    | some (hi, start) => if pastHolds ch start ≤ t then some hi else none
    | none => none
  let counts := overCounts (chDesc h c) ch.rangeNow
  let clamps := !held && (counts || trip.isNone)
  { retired := ch.retired
    invalid := faultInvalid h c
    overHi := clamps && (trip == some true || decide (v > 8388607))
    overLo := clamps && (trip == some false || decide (v < -8388608))
    stale := held
    settling := decide (0 < ch.settleLeft)
    recovering := decide (0 < ch.recLeft) || (match ch.recUntil with | some u => decide (t < u) | none => false) }

/-- The VALUE a status carries (00 R6, 04 R95). -/
def slotValue (status : Nat) (v last : Int) : Int :=
  if status = sRetired then 0 else if status = sOverHi then 8388607 else if status = sOverLo then -8388608
  else if status = sStale then last else clampInt (-8388608) 8388607 v

/-- Adds the inner term of a channel's slot number `seq` to an open system calibration window (05 R111). -/
def winAdd (tick seq status : Nat) (u : Int) (w : CalWin) : CalWin :=
  if w.openTick ≤ tick ∧ w.count < w.n then
    { w with count := w.count + 1, firstSeq := if w.count = 0 then seq else w.firstSeq, allGood := w.allGood && status == sGood
             sum1 := if w.count < w.n / 2 then w.sum1 + u else w.sum1
             sum2 := if w.count < w.n / 2 then w.sum2 else w.sum2 + u }
  else w

/-- Adds a word to the open frame. -/
def addWord (tick c : Nat) (w : Word) (h : Hub) : Hub :=
  { h with frames := h.frames.map fun f =>
      if f.n = tick then
        { f with words :=
            if f.words.any (·.1 == c) then f.words.map fun x => if x.1 == c then (c, x.2 ++ [w]) else x
            else insertBy (·.1) (c, [w]) f.words }
      else f }

/-- A hold begins between a channel's previous slot and grid instant `t`: the stream then starts from the last output before it. -/
def holdBegins (t : Inst) (ch : Chan) : Bool :=
  ch.holds.any fun k => (match ch.fedTo with | some u => decide (u < k.start) | none => true) && decide (k.start ≤ t)

/-- The chain of a channel after the bits up to grid instant `t`: in a hold the synthesised stream takes their place (04 R94). -/
def feedChain (c d : Nat) (t : Inst) (bits : List Bool) (ch : Chan) : Chan :=
  let r := dRate d
  let e := edgeAt t
  let y := if holdBegins t ch then ch.chain.y else ch.holdY
  let err := if holdBegins t ch then 0 else ch.holdErr
  let held (k : Int) : Bool := ch.holds.any fun x => decide (x.start ≤ k * modLen 1) && decide (k * modLen 1 < x.stop)
  let fed := heldBits c held y (e + 1 - bits.length) err bits
  { ch with
    chain := chainThrough e r (dResp d) ch.cuts fed.1 ch.chain, cuts := []
    holdY := y, holdErr := fed.2, fedTo := some t
    holds := ch.holds.filter fun x => decide (t < x.stop + secUnits) }

/-- Creates the next slot of a channel from the bits since its previous grid instant. -/
def createSlot (c : Nat) (bits : List Bool) (h : Hub) : Hub :=
  let ch := chanAt h c
  let d := chDesc h c
  let t := slotInst h (dRate d) ch.inFrame
  let fed := feedChain c d t bits ch
  let chain := fed.chain
  let coef := feCoef h (chainFe c ch) (dMode d) ch.rangeNow
  let v := correct coef ch.gSys ch.oSys chain.y
  let status := slotStatus (slotCauses h c t v)
  let value := slotValue status v ch.lastVal
  let ch' := { fed with
    seq := ch.seq + 1, inFrame := ch.inFrame + 1
    settleLeft := ch.settleLeft - 1, recLeft := ch.recLeft - 1, staleLeft := ch.staleLeft - 1
    lastVal := if slotHeld h c t then ch.lastVal else value
    overFrom := if overCounts d ch.rangeNow && (status == sOverHi || status == sOverLo) then some (ch.overFrom.getD t) else none
    calWin := ch.calWin.map (winAdd h.time.tick ch.seq status (selfCorrect coef chain.y)) }
  addWord h.time.tick c (sampleWord value status ch.seq) (updChan c (fun _ => ch') h)

/-- A channel has a slot still to come in the open frame: the hub measures and the channel is not IDLE. -/
def slotDue (h : Hub) (c : Nat) : Bool :=
  measures h && decide (c < 512) && decide ((chanAt h c).inFrame < openSlots h c)

/-- SAMPLE_SLOT_CREATE (04 R76): a slot that is not due is not created (log 4). -/
def execSampleSlotCreate (ch : Nat) (bits : List Bool) (s : State) : Out :=
  hubNext s (if slotDue s.hub ch then createSlot ch bits s.hub else s.hub)

/-! ## Over-range (03 R62 to R65) -/

/-- OVER_RANGE_START (03 R62). -/
def execOverRangeStart (fe : Nat) (high : Bool) (dt : Nat) (s : State) : Out :=
  hubNext s (updFe fe (fun f =>
    if f.overRange.isNone then { f with overRange := some (high, instAt s.hub dt), overCh := heldBy s.hub fe, overDone := s.hub.time.tick } else f) s.hub)

/-- The neighbours an over-range of a channel can disturb: the other channels of its group that are not IDLE and not
RETIRED (03 R64). -/
def neighbours (h : Hub) (c : Nat) : List Nat :=
  (rangeFrom (c / 8 * 8) 8).filter fun k => k != c && measuring h k

/-- 20 µs and 50 µs in units of an instant. -/
def us (n : Nat) : Int := 65536000 * (n : Int)

/-- RECOVERING samples after an over-range: ⌈20 µs × f⌉ + S (03 R63). -/
def recoverN (tNs d : Nat) : Nat := ceilDiv (tNs * 128000) (1000000000 * 2 ^ dRate d) + romS (dResp d)

/-- The comparison window of an overlap: from 20 µs after the tick that opens the frame to 20 µs before the one that closes it (05
R105). -/
def overlapWindow (h : Hub) : Inst × Inst := (h.time.tickInst + us 20, frameEnd h - us 20)

/-- The channel whose over-range a front end's is: the one it served when it began, else the one whose pair it holds now (R63 to R65). -/
def overChan (h : Hub) (fe : Nat) : Option Nat := match (feAt h fe).overCh with | some c => some c | none => heldBy h fe

/-- A front end's over-range is over; whether it lay in the frame's comparison window. -/
def closeOver (start end_ : Inst) (h : Hub) (f : Fe) : Fe :=
  { f with
    overRange := none
    overCh := none
    overIn := if start < (overlapWindow h).2 ∧ (overlapWindow h).1 < end_ then some h.time.tick else f.overIn }

/-- The end of an over-range: the channel recovers, and an area above 1.0 V·µs disturbs its neighbours (R63, R64). One that ends
within a hold interval of its channel has shown nothing (04 R94). -/
def overEnd (fe : Nat) (end_ : Inst) (area : Nat) (h : Hub) : Hub :=
  match (feAt h fe).overRange, overChan h fe with
  | some (_, first), some c =>
    let d := chDesc h c
    let start := pastHolds (chanAt h c) first
    let h := updFe fe (closeOver start end_ h) h
    if end_ < start then h else
    let h := if overCounts d (chanAt h c).rangeNow then
      updChan c (fun x => { x with recLeft := max x.recLeft (recoverN 20000 d) }) h else h
    if 1000 < area then
      let ns := neighbours h c
      let h := issue (ns.flatMap fun k => verdictsFor h k sRecovering 1 start end_) h
      ns.foldl (fun h k => updChan k (fun x =>
        { x with recUntil := some (max (x.recUntil.getD end_) (end_ + us 50)) }) h) h
    else h
  | some (_, start), none => updFe fe (closeOver start end_ h) h
  | none, _ => h

/-- OVER_RANGE_END (03 R64). -/
def execOverRangeEnd (fe dt area : Nat) (s : State) : Out :=
  hubNext s (overEnd fe (instAt s.hub dt) area s.hub)

/-- The verdict of R65: frames whose deadline is the coming tick, since the start, without waiting for the area. -/
def deadlineVerdict (fe : Nat) (h : Hub) : Hub :=
  match (feAt h fe).overRange, overChan h fe with
  | some (_, first), some c =>
    let start := pastHolds (chanAt h c) first
    let due := (neighbours h c).flatMap fun k => verdictsFor h k sRecovering 1 start (frameEnd h)
    let last (v : Verdict) : Bool := h.frames.any fun f => f.n == v.frame && h.time.tick + 1 == f.n + f.v
    updFe fe (fun f => { f with overDone := h.time.tick + 1 }) (issue (due.filter last) h)
  | _, _ => h

/-- NEIGHBOUR_VERDICT_DEADLINE (03 R65). -/
def execNeighbourVerdictDeadline (fe : Nat) (s : State) : Out := hubNext s (deadlineVerdict fe s.hub)

/-! ## Autorange (03 R66, R67) -/

/-- A stored set is that of a channel's mode and range. -/
def isSys (c mode range : Nat) (x : SysCoef) : Bool := x.ch == c && x.mode == mode && x.range == range

/-- The system coefficients a channel uses in a mode and range: stored, or nominal; a set accepted in this interval is not in force
before the coming tick (05 R113). -/
def storedSys (h : Hub) (c mode range : Nat) : Nat × Int :=
  let flash := match h.flash.sysCal.find? (isSys c mode range) with
    | some x => (x.g, x.o)
    | none => (0x40000000, 0)
  match (chanAt h c).newSys with
  | some (x, old) => if isSys c mode range x then old else flash
  | none => flash

/-- Moves a channel to a range: its system coefficients, the count, and RECOVERING through ⌈t_ar × f⌉ + S samples. -/
def switchRange (c range : Nat) (h : Hub) : Hub :=
  let d := chDesc h c
  let tAr := if dMode d = 2 then 20000 else rangeTerm (dMode d) range 0
  let sys := storedSys h c (dMode d) range
  updChan c (fun x =>
    { x with rangeNow := range, gSys := sys.1, oSys := sys.2, arSwitches := (x.arSwitches + 1) % 2 ^ 32
             recLeft := max x.recLeft (recoverN tAr d) }) h

/-- The next range towards less or more sensitivity within AR_LO to AR_HI. -/
def nextRange (d now : Nat) (less : Bool) : Option Nat :=
  let up := if dMode d = 2 then less else !less
  if up then (if now < dArHi d then some (now + 1) else none)
  else if dArLo d < now then some (now - 1) else none

/-- One autorange step of a measuring channel. -/
def autorange (c : Nat) (less : Bool) (h : Hub) : Hub :=
  let d := chDesc h c
  if measures h && measuring h c && dArEn d && decide (c < 512) then
    match nextRange d (chanAt h c).rangeNow less with
    | some r => switchRange c r h
    | none => h
  else h

/-- AUTORANGE_DOWN (03 R66): to the next less sensitive range. -/
def execAutorangeDown (ch _dt : Nat) (s : State) : Out := hubNext s (autorange ch true s.hub)

/-- AUTORANGE_UP (03 R66): to the next more sensitive range. -/
def execAutorangeUp (ch _dt : Nat) (s : State) : Out := hubNext s (autorange ch false s.hub)

/-! ## On-phases and limiters (03 R53, R59, R446) -/

/-- The port of a switched group is driven. -/
def phased (h : Hub) (g : Nat) : Bool := gSwitched (grDesc h g) && (groupAt h g).portOn

/-- ON_PHASE_START (R446): the group's front ends track. -/
def execOnPhaseStart (group : Nat) (s : State) : Out :=
  let h := s.hub
  hubNext s (if phased h group then
    let start := h.time.tickInst + us (gOnOffset (grDesc h group))
    updGroup group (fun x => { x with onPhase := true, holding := false, phaseStart := start
                                      starts := (start :: x.starts).take 3 }) h else h)

/-- The row of R59 for a channel: MODE, and the excitation its pair sees. DESIGN CHOICE (log 28): R59 has no row for a channel
with SRC_EN = 0 in an IEPE or LOOP_POWER group; its pair has no source, so the row of OFF applies in CURRENT mode and the row
without detectors in VOLTAGE mode, where PROBE belongs to a group that is OFF. -/
def detectorRow (h : Hub) (c : Nat) : Nat × Nat :=
  let d := chDesc h c
  let exc := gExc (grDesc h (c / 8))
  (dMode d, if (exc == 2 || exc == 3) && !dSrcEn d then (if dMode d = 0 then 4 else 0) else exc)

/-- Whether a row has an open or a short detector. -/
def detectable (h : Hub) (c : Nat) (short : Bool) : Bool :=
  let d := chDesc h c
  match detectorRow h c with
  | (0, exc) => exc == 1 || exc == 2 || (exc == 0 && dProbe d && !short)
  | (1, exc) => exc == 3 || short || dLiveZero d != 0
  | (2, _) => true
  | _ => false

/-- The qualification time of a row: 10 ms for CURRENT without a source, none for the check of a swap, else 1 ms (R59). -/
def qualTime (h : Hub) (c : Nat) : Int :=
  match detectorRow h c with
  | (1, 0) => us 10000
  | (2, _) => 0
  | _ => us 1000

/-- Source number of a detector for an instance. -/
def detectorSource (k : Detector) (inst : Nat) : Nat :=
  match k with
  | .openWire => tileBase (tileOfCh inst)
  | .short => tileBase (tileOfCh inst) + 1
  | .excOpen => tileBase (inst / 16) + 2
  | .excShort => tileBase (inst / 16) + 3

/-- A detector is evaluated: the channel is neither IDLE nor RETIRED, or the port is driven (03 R59). -/
def evaluated (h : Hub) (k : Detector) (inst : Nat) : Bool :=
  measures h &&
    match k with
    | .openWire => decide (inst < 512) && measuring h inst && detectable h inst false
    | .short => decide (inst < 512) && measuring h inst && detectable h inst true
    | _ => decide (inst < 64) && gExc (grDesc h inst) == 1 && (groupAt h inst).portOn

/-- Asserts a detector whose condition has held since `start` (03 R60). -/
def assertDetector (k : Detector) (inst : Nat) (start now : Inst) (h : Hub) : Hub :=
  if evaluated h k inst then raiseHeld (detectorSource k inst) inst start now 0 h else h

/-- One on-phase's result for a detector: the count, and the assertion at the third in succession. -/
def phaseCount (held : Bool) (n : Nat) : Nat := if held then n + 1 else 0

/-- The end of an on-phase: the front ends hold, and the detectors count (R59). The qualification time starts with the
evaluated part of the first of the three on-phases. -/
def onPhaseEnd (g : Nat) (openHeld shortHeld : Bool) (chOpen chShort : Nat) (h : Hub) : Hub :=
  let gr := groupAt h g
  let now := gr.phaseStart + us (gOnLength (grDesc h g))
  let start := gr.starts.getLastD gr.phaseStart + us 100
  let po := phaseCount openHeld gr.openPhases
  let ps := phaseCount shortHeld gr.shortPhases
  let h := updGroup g (fun x => { x with onPhase := false, holding := true, openPhases := po, shortPhases := ps }) h
  let h := if 3 ≤ po then assertDetector .excOpen g start now h else h
  let h := if 3 ≤ ps then assertDetector .excShort g start now h else h
  (List.range 8).foldl (fun h i =>
    let c := 8 * g + i
    let no := phaseCount (bitOf chOpen i) (chanAt h c).openPhases
    let ns := phaseCount (bitOf chShort i) (chanAt h c).shortPhases
    let h := updChan c (fun x => { x with openPhases := no, shortPhases := ns }) h
    let h := if 3 ≤ no then assertDetector .openWire c start now h else h
    if 3 ≤ ns then assertDetector .short c start now h else h) h

/-- ON_PHASE_END (R446, R59). -/
def execOnPhaseEnd (group : Nat) (openHeld shortHeld : Bool) (chOpen chShort : BitVec 8) (s : State) : Out :=
  let h := s.hub
  hubNext s (if phased h group && (groupAt h group).onPhase then
    onPhaseEnd group openHeld shortHeld chOpen.toNat chShort.toNat h else h)

/-- LIMITER_FOLD_BACK (03 R53). -/
def execLimiterFoldBack (bridge : Bool) (index : Nat) (s : State) : Out :=
  let h := s.hub
  hubNext s (if bridge then
      (if (groupAt h index).portOn then updGroup index (fun x => { x with folded := true }) h else h)
    else if (chanAt h index).sourceOn && gExc (grDesc h (index / 8)) == 3 then
      updChan index (fun x => { x with folded := true }) h
    else h)

/-- LIMITER_RETRY (03 R53): a LOOP_POWER limiter retries at full limit. -/
def execLimiterRetry (ch : Nat) (s : State) : Out :=
  hubNext s (updChan ch (fun x => { x with folded := false }) s.hub)

end Sys2Proof.Machine
end

