-- ==== Sys2Proof/Machine/Detect.lean ====
section
/-! DEFINITION. The detectors that raise fault sources (03 R55, R59, R73, 15 R371, R372, R387, R389). -/

namespace Sys2Proof.Machine

/-- A condition that has stood for its qualification time raises its source; one that no longer stands clears it. -/
def condition (holds : Bool) (source inst : Nat) (qual : Int) (detail : BitVec 64) (dt : Nat) (h : Hub) : Hub :=
  if holds then raiseHeld source inst (instAt h dt - qual) (instAt h dt) detail h
  else if asserted h source inst then clearOcc source inst (instAt h dt) h else h

/-- A signed measured value as DETAIL. -/
def asDetail (v : Int) : BitVec 64 := BitVec.ofInt 64 v

/-- The calibration swap of a CHARGE channel is at its check: the spare holds the pair, or the channel calibrates alone (03 R59). -/
def swapCheck (h : Hub) (c : Nat) : Bool :=
  match (tileAt h (tileOfCh c)).turn with
  | some u => u.ch == c && ((u.step == .handReturn || u.step == .ownRun) && (chanAt h c).pair == .spare ||
      u.step == .aloneRun && u.startTick.isSome)
  | none => false

/-- The group of a detector's instance, and the qualification time of its row (03 R59). -/
def detectorQual (h : Hub) (k : Detector) (inst : Nat) : Nat × Int :=
  match k with
  | .openWire | .short => (inst / 8, qualTime h inst)
  | _ => (inst, us 1000)

/-- A detector asserts outside the on-phases of a switched group: its condition has held for the qualification time, which the
three on-phases take in a switched group, and in CHARGE a swap is at its check (R59). -/
def assertsNow (h : Hub) (k : Detector) (inst qual : Nat) : Bool :=
  let q := detectorQual h k inst
  !gSwitched (grDesc h q.1) && decide (q.2 ≤ (qual : Int)) &&
    (match k with | .openWire | .short => dMode (chDesc h inst) != 2 || swapCheck h inst | _ => true)

/-- DETECTOR_ASSERT (03 R59): the condition has held for `qual`. -/
def execDetectorAssert (kind : Detector) (instance_ qual dt : Nat) (s : State) : Out :=
  hubNext s (if assertsNow s.hub kind instance_ qual then
      assertDetector kind instance_ (instAt s.hub dt - qual) (instAt s.hub dt) s.hub
    else s.hub)

/-- FAULT_OCCURRENCE_CLEAR (15 R372). -/
def execFaultOccurrenceClear (source instance_ dt : Nat) (s : State) : Out :=
  hubNext s (clearOcc source instance_ (instAt s.hub dt) s.hub)

/-- EXC_VIN lies more than 0.5 V outside the declared range (03 R55). -/
def excVinOut (h : Hub) (mv : Nat) : Bool :=
  decide (mv + 500 < 10 * h.cfg.excMin) || decide (10 * h.cfg.excMax + 500 < mv)

/-- EXC_VIN_RANGE (03 R55): EXC_VIN has stood at a level for 10 ms. -/
def execExcVinRange (mv dt : Nat) (s : State) : Out :=
  hubNext s (condition (excVinOut s.hub mv) 0x50 0 (us 10000) (BitVec.ofNat 64 mv) dt
    { s.hub with power.excVinMv := mv })

/-- The readback is more than 0.2 mA off the setpoint, in steps of 24 mA / 65,536 (03 R73). -/
def loopOff (setpoint readback : Nat) : Bool :=
  decide (200 * 65536 < ((setpoint : Int) - readback).natAbs * 24000)

/-- CFG_LOOP_OUTPUT has enabled an output: bit 0 of its FLAGS (14 R367). -/
def loopOn (h : Hub) (k : Nat) : Bool := bitOf (fieldAt (h.cfg.loop.getD k []) 0 1) 0

/-- LOOP_COMPLIANCE (03 R73): the readback has stood for 10 ms. -/
def execLoopCompliance (output readback dt : Nat) (s : State) : Out :=
  let h := s.hub
  let h := { h with loops := updAt h.loops output fun x => { x with readback := readback } }
  hubNext s (if output < 8 then
    condition (loopOn h output && loopOff (h.loops.getD output {}).setpoint readback) (0x58 + output) 0 (us 10000)
      (BitVec.ofNat 64 readback) dt h else h)

/-- A channel-scope source raised only while the channel measures (15 R378). -/
def raiseChannel (k ch : Nat) (qual : Int) (dt : Nat) (h : Hub) : Hub :=
  if decide (ch < 512) && measuring h ch then
    raiseHeld (tileBase (tileOfCh ch) + k) ch (instAt h dt - qual) (instAt h dt) 0 h
  else h

/-- A channel's slots have been OVER without break for 10 s in its least sensitive allowed range at an instant. -/
def overTenSeconds (h : Hub) (ch : Nat) (now : Inst) : Bool :=
  match (chanAt h ch).overFrom with | some t => decide (t + us 10000000 ≤ now) | none => false

/-- STUCK_OVER (15 R371): OVER for 10 s in the least sensitive allowed range. -/
def execStuckOver (ch dt : Nat) (s : State) : Out :=
  hubNext s (if overTenSeconds s.hub ch (instAt s.hub dt) then raiseChannel 4 ch (us 10000000) dt s.hub else s.hub)

/-- FE_FAULT (15 R371). -/
def execFeFault (fe dt : Nat) (s : State) : Out :=
  hubNext s (if fe < 576 then raiseHeld (tileBase (tileOfFe fe) + 5) fe (instAt s.hub dt) (instAt s.hub dt) 0 s.hub
    else s.hub)

/-- SOURCE_FAULT (15 R371): outside ±5 % for 10 ms while its limiter is inactive. -/
def execSourceFault (ch dt : Nat) (s : State) : Out :=
  hubNext s (if (chanAt s.hub ch).folded then s.hub else raiseChannel 0xB ch (us 10000) dt s.hub)

/-- The source and limit in 0.01 °C of a temperature: TILE_TEMP, KZC_TEMP, DRAM_TEMP. -/
def tempSource (source : Nat) : Option (Nat × Int) :=
  if source < 4 then some (tileBase source + 0xE, 11500)
  else if source = 4 then some (0x53, 11500) else if source = 5 then some (0x54, 9500) else none

/-- TEMPERATURE_LIMIT (15 R371): a temperature has stood for 1 s. -/
def execTemperatureLimit (source : Nat) (centi : Int) (dt : Nat) (s : State) : Out :=
  hubNext s (match tempSource source with
    | some (n, limit) => condition (decide (limit < centi)) n 0 (us 1000000) (asDetail centi) dt s.hub
    | none => s.hub)

/-- SUPPLY_RANGE (15 R371): a rail off nominal for 1 ms, or the loop supply above V_L for 1 s. -/
def execSupplyRange (source : Nat) (deviation : Int) (dt : Nat) (s : State) : Out :=
  let h := s.hub
  hubNext s (
    if 100 ≤ source ∧ source < 104 then
      condition (decide (50 < deviation.natAbs)) (tileBase (source - 100) + 0xF) 0 (us 1000) (asDetail deviation) dt h
    else if 9 ≤ source ∧ source ≤ 15 then
      condition (decide (50 < deviation.natAbs)) 0x52 source (us 1000) (asDetail deviation) dt h
    else if source = 8 then
      condition (decide ((10 * h.cfg.loopV + 500 : Nat) < deviation)) 0x55 0 (us 1000000) (asDetail deviation) dt h
    else h)

/-- TILE_LINK_ERROR (15 R371): the link fails its CRC, or the tile port's configuration fails parity. -/
def execTileLinkError (tile : Nat) (parity : Bool) (dt : Nat) (s : State) : Out :=
  hubNext s (if tile < 4 then
    raiseHeld (tileBase tile + if parity then 0xD else 0xC) 0 (instAt s.hub dt) (instAt s.hub dt) 0 s.hub else s.hub)

/-- DMA_ERROR (15 R371): one error response. -/
def execDmaError (channel dt : Nat) (s : State) : Out :=
  hubNext s (if channel < 32 then
    raiseFault { source := 0x100 + channel, inst := 0, start := instAt s.hub dt, capture := instAt s.hub dt } true s.hub
    else s.hub)

/-- LANE_TX_FAULT (15 R371). -/
def execLaneTxFault (lane dt : Nat) (s : State) : Out :=
  hubNext s (if lane < 6 then
    raiseHeld (laneBase lane + 4) 0 (instAt s.hub dt) (instAt s.hub dt) 0 s.hub else s.hub)

/-- The result of the known-answer test (13 R327). -/
def knownAnswer : Bytes :=
  [0x5B, 0xDC, 0xC1, 0x46, 0xBF, 0x60, 0x75, 0x4E, 0x6A, 0x04, 0x24, 0x26, 0x08, 0x95, 0x75, 0xC7]

/-- CRYPTO_SELFTEST (15 R371): a mismatch raises the source. -/
def execCryptoSelftest (result : Bytes) (s : State) : Out :=
  hubNext s (condition (result != knownAnswer) 0x125 0 0 0 0 s.hub)

/-- Merges an error into the raise being handled, or into the newest history entry where none is (15 R386, R387). -/
def mergeNewest (source inst : Nat) (h : Hub) : Hub :=
  if !h.faults.queue.isEmpty then
    { h with faults.queue := updAt h.faults.queue 0 fun x => { x with merged := x.merged ++ [(source, inst)] } }
  else { h with faults.history := updAt h.faults.history (h.faults.history.length - 1) fun e =>
      { e with merges := min 255 (e.merges + 1), flags := e.flags ||| 8, secondary := (e.secondary ++ [source]).take 3 } }

/-- Asserts an occurrence that a command or an event forces; one of COLLECTOR_SELF merges under SELF_MERGE (15 R387, R389). -/
def raiseOrMerge (r : Raise) (once : Bool) (h : Hub) : Hub :=
  if r.source = 0x124 ∧ h.cfg.selfMerge then mergeNewest r.source r.inst h else raiseFault r once h

/-- COLLECTOR_SELF (15 R387): under SELF_MERGE the register reloads from its shadow copy and the error merges. -/
def execCollectorSelf (register dt : Nat) (s : State) : Out :=
  let h := s.hub
  hubNext s (if h.cfg.selfMerge then mergeNewest 0x124 register h
    else raiseHeld 0x124 register (instAt h dt) (instAt h dt) (BitVec.ofNat 64 register) h)

end Sys2Proof.Machine
end

