-- ==== Sys2Proof/Machine/Records.lean ====
section
/-! DEFINITION. The record stream: records, outlet FIFOs, ledger, drops with reseed repair, custody, the release of a tick
(chapter 09, 08 R189 to R191). -/

namespace Sys2Proof.Machine

/-! ## Records (09 R198 to R201) -/

/-- LENGTH of a record: header, payload, trailer. -/
def recLen (r : Rec) : Nat := 36 + r.payload.length

/-- A record whole, with its trailer (R201). -/
def recBytes (h : Hub) (r : Rec) : Bytes :=
  let b := leNat 4 (r.ty + 64 * b2n r.late + 1024 * recLen r) ++ leNat 4 h.flash.hubId.toNat ++ leNat 8 r.seq ++
    stampBytes r.stamp ++ r.payload
  b ++ leNat 4 (crc32c b).toNat

/-- The trailer of a record. -/
def recTrailer (h : Hub) (r : Rec) : BitVec 32 := BitVec.ofNat 32 (ofLe ((recBytes h r).drop (recLen r - 4)))

/-- The slots of a FRAME record by channel. -/
def recSlots (r : Rec) : List (Nat × Nat) := r.blocks.map fun b => (b.ch, b.words.length + b.lost)

/-! ## Outlet FIFOs (09 R220 to R223) -/

/-- Words of a FIFO. -/
def fifoCapacity : Nat := 4096

/-- A record as a packet of words (R220). -/
def packetWords (bs : Bytes) : List Word :=
  let ps := chunks 3 bs
  mapI (fun k p => BitVec.ofNat 32 (ofLe p * 256 + 8 * b2n (k + 1 == ps.length) + k % 8)) ps

/-- END of a FIFO word. -/
def wEnd (w : Word) : Bool := w.getLsbD 3

/-- Packets that words complete. -/
def endCount (ws : List Word) : Nat := (ws.filter wEnd).length

/-- Writes as many waiting words of the current packet as there is room for. -/
def fifoFill (f : Fifo) : Fifo :=
  let room := fifoCapacity - f.words.length
  let now := f.rest.take room
  { f with words := f.words ++ now, rest := f.rest.drop room, packets := f.packets + endCount now
           notice := f.notice || decide (0 < endCount now) }

/-- Starts the packet of a record: only when none is being written. -/
def fifoStart (seq : Nat) (ws : List Word) (f : Fifo) : Fifo := fifoFill { f with rest := ws, seqs := f.seqs ++ [seq] }

/-- What an empty FIFO answers: NOT_VALID (R222). -/
def notValidWord : Word := 0xF0

/-- Reads a word: the oldest, removed, or NOT_VALID and no change. The room it leaves is filled. -/
def fifoPop (f : Fifo) : Word × Fifo :=
  match f.words with
  | [] => (notValidWord, f)
  | w :: ws => (w, fifoFill { f with
      words := ws
      packets := if wEnd w then f.packets - 1 else f.packets
      seqs := if wEnd w then f.seqs.drop 1 else f.seqs })

/-- A write that finds the FIFO full: OVERRUN, the packet is abandoned, one closing word follows when space returns (R223). -/
def fifoOverrun (f : Fifo) : Fifo :=
  match f.rest with
  | [] => { f with overrun := true }
  | w :: _ => fifoFill { f with overrun := true, rest := [BitVec.ofNat 32 (8 + wSeq w)] }

/-- A FIFO emptied of what it holds; its flags stay. -/
def fifoFlush (f : Fifo) : Fifo := { overrun := f.overrun, notice := f.notice }

/-- Free words. -/
def fifoFree (f : Fifo) : Nat := fifoCapacity - f.words.length

/-! ## Configuration of the outlets (09 R217) -/

/-- The custody outlet: 0 LANE, 1 ETH, 2 HOST. -/
def custodyOutlet (h : Hub) : Nat := bitsOf h.cfg.outlets.toNat 1 0
def hostCopy (h : Hub) (ty : Nat) : Bool := bitOf h.cfg.outlets.toNat (8 + ty - 1)
def ethCopy (h : Hub) (ty : Nat) : Bool := bitOf h.cfg.outlets.toNat (17 + ty - 1)
def ledgerPeriod (h : Hub) : Nat := bitsOf h.cfg.outlets.toNat 47 32
def dropTicks (h : Hub) : Nat := bitsOf h.cfg.outlets.toNat 63 48

/-- Bytes of the spill reserve (16 R397). -/
def reserveSize (h : Hub) : Nat := (7616 - h.cfg.captureMib) * 1048576

/-- Bytes held. -/
def reserveUsed (h : Hub) : Nat := sumNat (h.stream.reserve.map fun x => recLen x.record)

/-- Free bytes. -/
def reserveFree (h : Hub) : Nat := reserveSize h - reserveUsed h

/-! ## The ledger (09 R210 to R213) -/

/-- Channels a ledger lists: not IDLE, or with slots created. -/
def ledgerChans (h : Hub) : List Nat :=
  (List.range 512).filter fun c => !dIdle (chDesc h c) || decide (0 < (chanAt h c).created)

/-- One 40-byte entry. -/
def ledgerEntry (h : Hub) (c : Nat) : Bytes :=
  let ch := chanAt h c
  let d := chDesc h c
  leNat 2 c ++ leNat 1 (dRate d) ++ leNat 1 (if ch.retired then 1 else if dIdle d then 2 else 0) ++
    leNat 4 (chanDelay h c) ++ leNat 8 ch.created ++ leNat 8 ch.custody ++ leNat 8 ch.held ++ leNat 8 ch.occulted

/-- A LEDGER payload for the channels given. -/
def ledgerPayload (h : Hub) (chs : List Nat) : Bytes :=
  leNat 8 (streamTick h) ++ leNat 2 (b2n h.stream.ledgerFirst + 2 * b2n (inEclipse h)) ++ leNat 2 chs.length ++ zeros 4 ++
    leNat 8 h.stream.assigned ++ leNat 8 h.stream.acked ++ leNat 8 (h.stream.reserve.length + h.stream.uncopied) ++
    leNat 8 h.stream.withdrawn ++ leNat 8 h.stream.firstSeq ++ leNat 8 (reserveFree h) ++ chs.flatMap (ledgerEntry h)

/-- Moves slot counts of channels between columns of the ledger. -/
def countSlots (ss : List (Nat × Nat)) (f : Nat → Chan → Chan) (h : Hub) : Hub :=
  ss.foldl (fun h x => updChan x.1 (f x.2) h) h

/-- Slots enter CREATED and HELD (R212). -/
def bookCreated (ss : List (Nat × Nat)) (h : Hub) : Hub :=
  countSlots ss (fun n c => { c with created := c.created + n, held := c.held + n }) h

/-- HELD slots become CUSTODY. -/
def bookCustody (ss : List (Nat × Nat)) (h : Hub) : Hub :=
  countSlots ss (fun n c => { c with held := c.held - n, custody := c.custody + n }) h

/-- HELD slots become OCCULTED. -/
def bookOcculted (ss : List (Nat × Nat)) (h : Hub) : Hub :=
  countSlots ss (fun n c => { c with held := c.held - n, occulted := c.occulted + n }) h

/-! ## FRAME records (09 R205, R206, 08 R189) -/

/-- The frame header. -/
def frameHeader (h : Hub) (f : Frame) : Bytes :=
  leNat 8 (toStream h f.n) ++ leNat 2 f.flags ++ leNat 1 f.tCode ++ leNat 1 f.v ++ leNat 4 (f.len / 65536).toNat

/-- Whether a channel's block of a frame is due to seed: a seed passed on or asked for, or the channel's first block at or after the
most recent seed point (R189). -/
def seedDue (h : Hub) (f : Frame) (c : Nat) : Bool :=
  let ch := chanAt h c
  let n := toStream h f.n
  ch.seedDue || match ch.blockAt with
    | some b => decide (b < n / seedPeriod f.comp * seedPeriod f.comp)
    | none => true

/-- The blocks of a settled frame as they meet the encoder. -/
def frameBlocks (h : Hub) (f : Frame) : List BlockIn :=
  if f.occulted then []
  else f.words.filterMap fun x =>
    if x.2.isEmpty then none
    else some { ch := x.1, words := markEnd x.2, seed := seedDue h f x.1, hist := (chanAt h x.1).hist
                nb := mapNb f.map x.1 : BlockIn }

/-- The FRAME record of blocks, in format 0 where they are not coded. -/
def frameRec (h : Hub) (f : Frame) (enable : Bool) (bs : List BlockIn) : Rec :=
  { ty := 1, order := 3, stamp := f.stamp, frame := some f.n, blocks := bs
    payload := frameHeader h f ++ bodyBytes (b2n enable) 0 (encodeBlocks enable bs) }

/-- What the encoder keeps of each block for the channel's next one; a raw block passes a due seed on. -/
def afterBlocks (n : Nat) (xs : List (BlockIn × BlockOut)) (h : Hub) : Hub :=
  xs.foldl (fun h x => updChan x.1.ch (fun c =>
    { c with hist := x.2.hist, seedDue := x.1.seed && !x.2.seeded, blockAt := some n }) h) h

/-- The next blocks of channels are to be seeded. -/
def seedNext (cs : List Nat) (h : Hub) : Hub := cs.foldl (fun h c => updChan c (fun x => { x with seedDue := true }) h) h

/-- ENABLE of a frame follows that of the frame before it: every channel's next block is seeded where it went from 0 to 1 (R189). -/
def noteEnable (f : Frame) (h : Hub) : Hub :=
  let h := if compEnable f.comp && !h.stream.wasEnabled then seedNext (List.range 512) h else h
  { h with stream.wasEnabled := compEnable f.comp }

/-- Encodes a settled frame's record. A CHECK mismatch found by the checker raises COMPRESS_MISMATCH and rebuilds the
body in format 0, and the channels' next blocks are seeded (08 R191). -/
def encodeFrame (f : Frame) (mismatch : Bool) (h : Hub) : Hub :=
  let h := noteEnable f h
  let bs := frameBlocks h f
  let bad := mismatch || h.stream.badBodies != 0
  let on := compEnable f.comp && !bad
  let outs := encodeBlocks on bs
  let h1 := afterBlocks (toStream h f.n) (bs.zip outs) (emit (frameRec h f on bs) h)
  let h2 := if bad then seedNext (bs.map (·.ch)) h1 else h1
  if mismatch then raiseNow 0x72 0 0 0 h2 else bodyChecked h2

/-! ## Reseed repair (08 R190) -/

/-- A record holds a block of a channel. -/
def hasBlock (c : Nat) (r : Rec) : Bool := r.blocks.any (·.ch == c)

/-- Re-encodes a FRAME record with a channel's block seeded, in format 0 where the engine gets it wrong; the second part says that the
block came out raw. SEQ, the frame header, the block counts and CHECK stay. -/
def reseedRec (bad : Bool) (c : Nat) (r : Rec) : Rec × Bool :=
  let bs := r.blocks.map fun b => if b.ch == c then { b with seed := true } else b
  let on := r.payload.getD 16 0 == 1 && !bad
  let outs := encodeBlocks on bs
  ({ r with
      blocks := bs
      payload := r.payload.take 16 ++ leNat 1 (b2n on) ++ leNat 1 1 ++ (r.payload.drop 18).take 6 ++ outs.flatMap (·.bytes) ++
        r.payload.drop (r.payload.length - 4) },
    outs.any fun o => o.ch == c && o.raw)

/-- A channel's block of a record was copied and could not be decoded: it cannot be re-encoded (log 26). -/
def undecoded (c : Nat) (r : Rec) : Bool := r.blocks.any fun b => b.ch == c && b.lost != 0

/-- Where a channel's next block after a number lies. -/
inductive NextBlock
  | held (seq : Nat)
  | freed
  | due (k : Nat)
  | none
deriving DecidableEq, Repr

/-- The least number above `seq` of a FRAME record with a block of a channel, among some. -/
def nextSeqOf (c seq : Nat) (rs : List (Nat × List Nat)) : Option Nat :=
  ((rs.filter fun x => decide (seq < x.1) && x.2.contains c).map (·.1)).min?

/-- Place among the records due of the first with a block of a channel after record `seq`; the record due in place k counts as number
NEXT_SEQ + k, so that it lies after every record released. -/
def nextDueOf (c seq : Nat) (h : Hub) : Option Nat :=
  (h.stream.due.zipIdx.find? fun x => hasBlock c x.1 && decide (seq < h.stream.nextSeq + x.2)).map (·.2)

/-- Finds a channel's next block after record `seq`: in a held record, in one freed by custody or discarded with it, in one that falls
due, or not there yet. -/
def nextBlock (gone : List Rec) (seq c : Nat) (h : Hub) : NextBlock :=
  let chans (r : Rec) : Nat × List Nat := (r.seq, r.blocks.map (·.ch))
  let out := nextSeqOf c seq (h.stream.freedFrames ++ gone.map chans)
  match nextSeqOf c seq (h.stream.reserve.map fun x => chans x.record), out with
  | some q, some o => if o < q then .freed else .held q
  | some q, none => .held q
  | none, some _ => .freed
  | none, none => match nextDueOf c seq h with
    | some k => .due k
    | none => .none

/-- Re-encodes the record in a place of a list with a channel's block seeded. -/
def reseedAt (bad : Bool) (c : Nat) : Nat → List Rec → List Rec × Option (Rec × Bool)
  | _, [] => ([], .none)
  | 0, r :: rest => let x := reseedRec bad c r; (x.1 :: rest, some x)
  | k + 1, r :: rest => let y := reseedAt bad c k rest; (r :: y.1, y.2)

/-- The blocks to repair next after one in record q: those of every channel of a body rebuilt in format 0, the channel's own where it came
out raw (R190, R191). -/
def repairOn (bad : Bool) (c q : Nat) (x : Option (Rec × Bool)) : List (Nat × Nat) :=
  match x with
  | some y => if bad then y.1.blocks.map fun b => (b.ch, q) else if y.2 then [(c, q)] else []
  | none => []

/-- Repairs channels, each after a record number, at most `fuel` blocks: a block that comes out raw passes the seed on, and a body
rebuilt in format 0 passes one to every channel in it (R190, R191). -/
def repairFuel (gone : List Rec) : Nat → List (Nat × Nat) → Hub → Hub
  | 0, _, h => h
  | _, [], h => h
  | n + 1, (c, seq) :: more, h =>
    let bad := h.stream.badBodies != 0
    match nextBlock gone seq c h with
    | .freed => repairFuel gone n more h
    | .none => repairFuel gone n more (updChan c (fun x => { x with seedDue := true }) h)
    | .held q =>
      if h.stream.reserve.any fun x => x.record.seq == q && undecoded c x.record then repairFuel gone n more h
      else
        let rs := h.stream.reserve.map (·.record)
        let x := reseedAt bad c (rs.findIdx (·.seq == q)) rs
        let h := bodyChecked { h with stream.reserve := (h.stream.reserve.zip x.1).map fun y => { y.1 with record := y.2 } }
        repairFuel gone n (repairOn bad c q x.2 ++ more) h
    | .due k =>
      let x := reseedAt bad c k h.stream.due
      repairFuel gone n (repairOn bad c (h.stream.nextSeq + k) x.2 ++ more) (bodyChecked { h with stream.due := x.1 })

/-- Repairs every channel of discarded records (R190). -/
def repair (gone : List Rec) (h : Hub) : Hub :=
  let work := gone.flatMap fun r => r.blocks.map fun b => (b.ch, r.seq)
  repairFuel gone (work.length + 512 * (h.stream.badBodies + 2) * (h.stream.reserve.length + h.stream.due.length + 1)) work h

/-! ## Withdrawing and dropping (09 R223, R225) -/

/-- Records that are never withdrawn: OCCULTATION and TIME_NOTICE. -/
def droppable (r : Rec) : Bool := r.ty != 5 && r.ty != 7

/-- The OCCULTATION that names withdrawn records (R208, R209). -/
def withdrawalRec (h : Hub) (reason : Nat) (gone : List Rec) : Rec :=
  let seqs := gone.map (·.seq)
  let frames := gone.filterMap (·.frame) |>.map (toStream h)
  let first := frames.min?.getD 0
  let last := frames.max?.getD 0
  let slots := (gone.filter (·.ty == 1)).foldl (fun t r => addSlots t (recSlots r)) []
  { ty := 5, order := 2, names := seqs, occSlots := slots
    payload := occPayload reason (1 + 2 * b2n (!frames.isEmpty)) gone.length (seqs.min?.getD 0) (seqs.max?.getD 0) first
      (if frames.isEmpty then 0 else last + 1 - first) slots }

/-- Withdraws held records that a condition selects, with repair and their OCCULTATION. -/
def withdraw (reason : Nat) (sel : Held → Bool) (h : Hub) : Hub :=
  let gone := (h.stream.reserve.filter sel).map (·.record)
  if gone.isEmpty then h
  else
    let h := { h with stream.reserve := h.stream.reserve.filter (!sel ·)
                      stream.resend := h.stream.resend.filter fun q => !(gone.any (·.seq == q))
                      stream.withdrawn := h.stream.withdrawn + gone.length }
    let h := repair (gone.filter (·.ty == 1)) h
    emit (withdrawalRec h reason gone) h

/-- One drop span: from the oldest tick with a record that may be dropped, DROP_TICKS ticks. -/
def dropSpan (h : Hub) : Hub :=
  match h.stream.reserve.find? fun x => droppable x.record with
  | none => h
  | some x => withdraw 1 (fun y => droppable y.record && decide (y.tick < x.tick + dropTicks h)) h

/-- Bytes of the records due; the LEDGER's payload is built at its release. -/
def dueBytes (h : Hub) : Nat :=
  sumNat (h.stream.due.map fun r => if r.ledger then 36 + 64 + 40 * (ledgerChans h).length else recLen r)

/-- Drops span by span until the records due fit (R225). -/
def dropFuel : Nat → Hub → Hub
  | 0, h => h
  | n + 1, h =>
    if dueBytes h ≤ reserveFree h then h
    else if h.stream.reserve.any fun x => droppable x.record then dropFuel n (dropSpan h) else h

/-- The drops of a tick; a standby makes none of its own (12 R306). -/
def makeDrops (h : Hub) : Hub := if isActive h then dropFuel (h.stream.reserve.length + 1) h else h

/-! ## Custody (09 R226 to R228) -/

/-- A number lies in one of some inclusive ranges. -/
def inRanges (rs : List (Nat × Nat)) (n : Nat) : Bool := rs.any fun r => decide (r.1 ≤ n) && decide (n ≤ r.2)

/-- Applies the acknowledgements accepted in the previous interval. -/
def applyAcks (h : Hub) : Hub :=
  let hit (x : Held) : Bool := inRanges h.stream.acks x.record.seq
  let gone := (h.stream.reserve.filter hit).map (·.record)
  let kept := h.stream.reserve.filter (!hit ·)
  let low := ((kept.filter fun x => x.record.ty == 1).map (·.record.seq)).min?.getD h.stream.nextSeq
  let freed := (gone.filter (·.ty == 1)).map fun r => (r.seq, r.blocks.map (·.ch))
  let h := { h with
    stream.reserve := kept
    stream.acked := h.stream.acked + gone.length
    stream.acks := []
    stream.resend := h.stream.resend.filter fun q => !(gone.any (·.seq == q))
    stream.freedFrames := (h.stream.freedFrames ++ freed).filter fun x => decide (low < x.1) }
  gone.foldl (fun h r => bookCustody (recSlots r) h) h

/-- An OCCULTATION names a withdrawn record of some ranges; of the numbers that it names by a range only, those count that the hub does not
hold (log 26). -/
def namesAny (h : Hub) (rs : List (Nat × Nat)) (w : Withdrawn) : Bool :=
  w.seqs.any (inRanges rs) || match w.span with
    | some x => rs.any fun r =>
        let lo := max r.1 x.1
        let hi := min r.2 x.2
        decide (lo ≤ hi) &&
          decide ((h.stream.reserve.filter fun y => decide (lo ≤ y.record.seq ∧ y.record.seq ≤ hi)).length < hi - lo + 1)
    | none => false

/-- Serves the retransmission requests accepted in the previous interval: held records in sequence order, and for a
withdrawn one the OCCULTATION that names it, once (R227). -/
def serveRetx (h : Hub) : Hub :=
  let held := (h.stream.reserve.filter fun x => inRanges h.stream.retx x.record.seq).map (·.record.seq)
  let occs := (h.stream.withdrawnBy.filter (namesAny h h.stream.retx)).map (·.occSeq)
  let all := sortBy id ((held ++ occs.filter fun q => h.stream.reserve.any (·.record.seq == q)).eraseDups)
  { h with stream.resend := h.stream.resend ++ all, stream.retx := [] }

/-! ## Release (09 R203, R204) -/

/-- The range of withdrawn numbers that an OCCULTATION names; RESTART names those of another run. -/
def namedSpan (r : Rec) : Option (Nat × Nat) :=
  if r.ty = 5 && bitOf (fieldAt r.payload 1 1) 0 && fieldAt r.payload 0 1 != 5 then
    some (fieldAt r.payload 8 8, fieldAt r.payload 16 8)
  else none

/-- Assigns the next number to a record and writes it to the reserve with a tick's stamp; the LEDGER is built from the counts so
far. -/
def assignAt (st : Stamp) (h : Hub) (r : Rec) : Hub :=
  let q := h.stream.nextSeq
  let r := { r with
    seq := q
    stamp := if r.order = 3 ∨ r.order = 4 then r.stamp else st
    payload := if r.ledger then ledgerPayload h (ledgerChans h) else r.payload }
  let h := if r.ledger then { h with stream.ledgerFirst := false } else h
  let h := bookOcculted r.occSlots h
  let span := if r.ty = 5 && r.names.length < fieldAt r.payload 4 4 then namedSpan r else none
  let h := if r.names.isEmpty && span.isNone then h
    else { h with stream.withdrawnBy := h.stream.withdrawnBy ++ [{ seqs := r.names, span := span, occSeq := q }] }
  let h := { h with
    stream.nextSeq := q + 1
    stream.assigned := h.stream.assigned + 1
    stream.reserve := h.stream.reserve ++ [{ record := r, tick := h.time.tick }]
    pair.released := h.pair.released ++ [(q, recTrailer h r)] }
  if (q + 1) % 2 ^ 32 = 0 then
    jChange 0x3002 (leNat 4 ((q + 1) / 2 ^ 32)) { h with flash.seqBlock := (q + 1) / 2 ^ 32 }
  else h

/-- The same at the latest tick. -/
def assign (h : Hub) (r : Rec) : Hub := assignAt (tickStamp h) h r

/-- Mirrors of at most 64 journal records each (R215). -/
def mirrorCut : Nat → List JRec → List Rec
  | 0, _ => []
  | n + 1, l =>
    match l with
    | [] => []
    | j :: _ =>
      let k := l.take 64
      let r : Rec := { ty := 8, order := 8
                       payload := leNat 8 j.index ++ leNat 2 k.length ++ zeros 6 ++ k.flatMap journalBytes }
      r :: mirrorCut n (l.drop 64)

/-- Queues the mirror of the journal records written since the last one. -/
def mirrorJournal (h : Hub) : Hub :=
  let js := h.flash.journal.filter fun j => decide (h.flash.mirrored ≤ j.index) && !j.torn
  let last := js.foldl (fun m j => max m (j.index + 1)) h.flash.mirrored
  let h := (mirrorCut js.length js).foldl (fun h r => emit r h) h
  { h with flash.mirrored := last }

/-- The place of a record in the order of R204: CAPTURE_HEADER and CAPTURE_DATA go by definition. -/
def releaseKey (r : Rec) : Nat := 8 * r.order + if r.order = 5 ∨ r.order = 6 then fieldAt r.payload 4 1 % 8 else 0

/-- Releases the records due at a tick, in the order of R204; a hub that does not run in full emits no stream (13 R331). -/
def releaseDue (h : Hub) : Hub :=
  let due := if runsInFull h then sortBy releaseKey h.stream.due else []
  due.foldl assign { h with stream.due := [], pair.released := [] }

/-! ## Feeding the outlets (09 R218, R224, 12 R305) -/

/-- The records of a tick may leave: an ACTIVE hub of a pair waits for its DIGEST's acknowledgement (12 R305). -/
def mayLeave (h : Hub) (tick : Int) : Bool :=
  isActive h &&
    (!(h.pair.paired && h.pair.state == .active) ||
      match h.pair.marks.find? fun m => (m.1 : Int) == tick with
      | some m => decide (m.2 ≤ h.pair.coveredCells)
      | none => true)

/-- The next record for the custody outlet, once it may leave: retransmissions first, then those not yet sent, in sequence order. -/
def nextToSend (h : Hub) : Option Held :=
  let next := match h.stream.resend.filterMap fun q => h.stream.reserve.find? (·.record.seq == q) with
    | x :: _ => some x
    | [] => h.stream.reserve.find? fun x => !x.sent
  next.filter fun x => mayLeave h x.tick

/-- Marks a record sent through the custody outlet; only the lane outlet waits for an acknowledgement at link level (11 R278). -/
def markSent (seq : Nat) (h : Hub) : Hub :=
  { h with
    stream.resend := h.stream.resend.erase seq
    stream.reserve := h.stream.reserve.map fun x =>
      if x.record.seq == seq then { x with sent := true, linkAcked := custodyOutlet h != 0 } else x }

/-- The bytes of a held record as they are sent: one hit by a DRAM_UE fails its trailer (16 R404). -/
def heldBytes (h : Hub) (x : Held) : Bytes :=
  let b := recBytes h x.record
  if x.damaged then b.set (b.length - 1) (b.getLastD 0 ^^^ 0xFF) else b

/-- Fills the custody outlet's FIFO from the reserve while there is room. -/
def feedFuel : Nat → Hub × Fifo → Hub × Fifo
  | 0, x => x
  | n + 1, (h, f) =>
    if !f.rest.isEmpty || fifoFree f = 0 then (h, f)
    else
      match nextToSend h with
      | none => (h, f)
      | some x => feedFuel n (markSent x.record.seq h, fifoStart x.record.seq (packetWords (heldBytes h x)) f)

/-- Feeds a FIFO that carries the custody stream. -/
def feed (h : Hub) (f : Fifo) : Hub × Fifo := feedFuel fifoCapacity (h, fifoFill f)

/-- Feeds the custody outlet. -/
def feedCustody (s : State) : State :=
  match custodyOutlet s.hub with
  | 0 => let r := feed s.hub s.hub.outlets.lane; { s with hub := { r.1 with outlets.lane := r.2 } }
  | 1 => let r := feed s.hub s.hub.outlets.eth; { s with hub := { r.1 with outlets.eth := r.2 } }
  | _ => let r := feed s.hub s.host.fifo; { s with hub := r.1, host.fifo := r.2 }

/-- Writes a copy whole, or skips it (R218). -/
def copyTo (seq : Nat) (ws : List Word) (f : Fifo) : Fifo × Bool :=
  if f.rest.isEmpty && decide (ws.length ≤ fifoFree f) then (fifoStart seq ws f, true) else (f, false)

/-- Copies one released record to the outlets that ask for its type. -/
def copyRecord (s : State) (x : Held) : State :=
  let ws := packetWords (recBytes s.hub x.record)
  let s := if hostCopy s.hub x.record.ty then
      let r := copyTo x.record.seq ws s.host.fifo
      { s with host.fifo := r.1, host.copyDrops := if r.2 then s.host.copyDrops else s.host.copyDrops + 1 }
    else s
  if ethCopy s.hub x.record.ty then
    let r := copyTo x.record.seq ws s.hub.outlets.eth
    { s with hub := { s.hub with outlets.eth := r.1
                                 outlets.ethDrops := if r.2 then s.hub.outlets.ethDrops else s.hub.outlets.ethDrops + 1 } }
  else s

/-- Copies of the records released and not copied yet; only an active hub sends, and a paired one when R305 lets it. -/
def copyReleased (s : State) : State :=
  let due := s.hub.stream.reserve.filter fun x => !x.copied && mayLeave s.hub x.tick
  let s := due.foldl copyRecord s
  let mark (x : Held) : Held := if due.any fun y => y.record.seq == x.record.seq then { x with copied := true } else x
  { s with hub := { s.hub with stream.reserve := s.hub.stream.reserve.map mark } }

/-! ## A change of the custody outlet (R218) -/

/-- Records go again through the custody outlet as ones not yet sent. -/
def unsend (sel : Held → Bool) (h : Hub) : Hub :=
  { h with stream.reserve := h.stream.reserve.map fun x => if x.sent && sel x then { x with sent := false } else x }

/-- Takes back the records whose packets the lane outlet's FIFO still holds. -/
def flushLane (h : Hub) : Hub :=
  let seqs := h.outlets.lane.seqs
  unsend (fun x => seqs.contains x.record.seq) { h with outlets.lane := fifoFlush h.outlets.lane }

/-- The same for the Ethernet outlet. -/
def flushEth (h : Hub) : Hub :=
  let seqs := h.outlets.eth.seqs
  unsend (fun x => seqs.contains x.record.seq) { h with outlets.eth := fifoFlush h.outlets.eth, outlets.ethCur := none }

/-- CUSTODY has changed: a record whose packet has not left the old FIFO whole is not yet sent, and goes through the new outlet; what
stands in the host's FIFO is the host's to read. Copies that wait where the custody stream now goes are skipped (log 17). -/
def custodyChange (before : Hub) (h : Hub) : Hub :=
  let a := custodyOutlet before
  let b := custodyOutlet h
  if a = b then h
  else
    let h := if a = 0 then flushLane h else if a = 1 then flushEth h else h
    if b = 1 then
      { h with outlets.ethDrops := h.outlets.ethDrops + h.outlets.eth.seqs.length
               outlets.eth := fifoFlush h.outlets.eth, outlets.ethCur := none }
    else h

/-! ## Outlet overrun and generic raises -/

/-- The record whose packet is being written to a FIFO. -/
def writing (f : Fifo) : Option Nat := if f.rest.isEmpty then none else f.seqs.getLast?

/-- An outlet's FIFO. -/
def outletFifo (o : Nat) (s : State) : Fifo :=
  match o with
  | 0 => s.hub.outlets.lane
  | 1 => s.hub.outlets.eth
  | _ => s.host.fifo

/-- A write found an outlet's FIFO full (R223): the packet is abandoned, and on the custody outlet its record is withdrawn. -/
def outletOverrun (o : Nat) (s : State) : State :=
  let cut := writing (outletFifo o s)
  let s := match o with
    | 0 => { s with hub := { s.hub with outlets.lane := fifoOverrun s.hub.outlets.lane } }
    | 1 => { s with hub := { s.hub with outlets.eth := fifoOverrun s.hub.outlets.eth } }
    | _ => { s with host.fifo := fifoOverrun s.host.fifo }
  match cut with
  | some q =>
    if custodyOutlet s.hub = o then { s with hub := withdraw 2 (fun x => x.record.seq == q && droppable x.record) s.hub } else s
  | none => s

/-- FAULT_RAISE (15 R385): a source whose raising condition another rule lays down. A channel that is IDLE or retired
raises no channel-scope fault (R378). OUTLET_OVERRUN stands for the ignored write of 09 R223, and COMPRESS_MISMATCH for a mismatch that
the checker finds in the next body its engine codes (08 R191). -/
def execFaultRaise (source instance_ : Nat) (forced : Bool) (detail : BitVec 64) (dt : Nat) (s : State) : Out :=
  let h := s.hub
  let scope := match (sourceOf source).map (·.inst) with
    | some .channel => measuring h instance_
    | _ => true
  if instOk source instance_ && scope then
    let s := if 0x80 ≤ source ∧ source ≤ 0x82 ∧ !forced then outletOverrun (source - 0x80) s
      else if (source = 0x72 ∨ source = 0x73) ∧ !forced then { s with hub := { s.hub with stream.badBodies := s.hub.stream.badBodies + 1 } }
      else s
    hubNext s (raiseOrMerge { source := source, inst := instance_, start := instAt h dt, capture := instAt h dt,
                              forced := forced, real := !forced, detail := detail }
      (decide (0x80 ≤ source ∧ source ≤ 0x82)) s.hub)
  else .next s

end Sys2Proof.Machine
end

