-- ==== Sys2Proof/Machine/Reduction.lean ====
section
/-! DEFINITION. The reduction array: node descriptors, derived samples, accumulating nodes, periods, run-ahead with
checkpoints, and SUMMARY records (chapter 06). -/

namespace Sys2Proof.Machine

/-! ## Node descriptors (R120, R121) -/

def ndKind (d : Bytes) : Nat := fieldAt d 0 1
def ndEmit (d : Bytes) : Bool := bitOf (fieldAt d 1 1) 0
def ndAdmit (d : Bytes) : Nat := fieldAt d 2 1
def ndInputs (d : Bytes) : Nat := fieldAt d 3 1
def ndPeriod (d : Bytes) : Nat := fieldAt d 4 4
def ndRef (d : Bytes) (i : Nat) : Nat := fieldAt d (8 + 2 * i) 2
def ndMinFill (d : Bytes) : Nat := fieldAt d 24 1
/-- Kind word K_i. -/
def ndK (d : Bytes) (i : Nat) : Nat := fieldAt d (28 + 4 * i) 4
/-- An input reference names a node. -/
def refNode (r : Nat) : Bool := bitOf r 15
def refNum (r : Nat) : Nat := r % 1024
/-- The references a node uses. -/
def ndRefs (d : Bytes) : List Nat := (List.range (ndInputs d)).map (ndRef d)

def ndMask (d : Bytes) : Nat := bitsOf (ndK d 0) 5 0
def ndNb (d : Bytes) : Nat := bitsOf (ndK d 0) 4 0
def ndHoldoff (d : Bytes) : Nat := bitsOf (ndK d 0) 23 8
/-- Band code j of a BAND node. -/
def ndBand (d : Bytes) (j : Nat) : Nat := fieldAt d (32 + j) 1
def ndNt (d : Bytes) : Nat := bitsOf (ndK d 0) 3 0
def ndDir (d : Bytes) : Nat := bitsOf (ndK d 0) 5 4
/-- HYST of CROSS and GATE of RAINFLOW. -/
def ndHyst (d : Bytes) : Nat := bitsOf (ndK d 0) 31 8
/-- Signed kind word: thresholds, LO and HI, coefficients. -/
def ndKs (d : Bytes) (i : Nat) : Int := sext 32 (ndK d i)
/-- Range and mean bins of RAINFLOW. -/
def ndRb (d : Bytes) : Nat := 4 * 2 ^ bitsOf (ndK d 0) 1 0
def ndMb (d : Bytes) : Nat := 4 * 2 ^ bitsOf (ndK d 0) 3 2

/-- Value words of an entry (R121). -/
def entryWords (d : Bytes) : Nat :=
  match ndKind d with
  | 2 => ((List.range 6).filter (bitOf (ndMask d))).length
  | 3 => ndNb d
  | 4 => ndNt d
  | 5 => ndRb d * ndMb d / 2
  | _ => 0

/-- State bytes of a node (R121). -/
def stateBytes (d : Bytes) : Nat :=
  match ndKind d with
  | 2 => 64
  | 3 => 32 + 64 * ndNb d
  | 4 => 16 + 16 * ndNt d
  | 5 => 304 + 2 * (ndRb d * ndMb d)
  | _ => 0

/-- Bytes of a node's entry. -/
def entrySize (d : Bytes) : Nat := 4 + 4 * entryWords d

/-! ## Samples and derived samples (R122, R123) -/

/-- The value and status of a sample. -/
abbrev Sample := Int × Nat

/-- The order of R7 over status codes. DESIGN CHOICE (log 28): R7 puts OVER_HI and OVER_LO on one rank; where both occur among the inputs of
a COMBINE and its clamp, OVER_HI comes first. -/
def statusOrder : List Nat := [sRetired, sInvalid, sOverHi, sOverLo, sStale, sSettling, sRecovering, sGood]

/-- The first status in the order of R7 among some. -/
def firstStatus (ss : List Nat) : Nat := (statusOrder.find? ss.contains).getD sGood

/-- Samples of a channel in a frame. -/
def chanSamples (f : Frame) (c : Nat) : List Sample :=
  ((f.words.find? (·.1 == c)).map fun x => x.2.map fun w => (wValue w, wStatus w)).getD []

/-- One derived sample from its inputs' samples, with Q24.8 offset and Q4.28 coefficients. -/
def combine (d : Bytes) (xs : List Sample) : Sample :=
  let sum := (xs.zipIdx).foldl (fun a x => a + ndKs d (1 + x.2) * x.1.1) (ndKs d 0 * 2 ^ 20)
  let v := roundEven sum (2 ^ 28)
  let st := xs.map (·.2) ++ (if v > 8388607 then [sOverHi] else []) ++ (if v < -8388608 then [sOverLo] else [])
  (clampInt (-8388608) 8388607 v, firstStatus st)

/-- Derived samples stand where every input has a slot. -/
def combineAll (d : Bytes) (ins : List (List Sample)) : List Sample :=
  let n := (ins.map (·.length)).min?.getD 0
  (List.range n).map fun i => combine d (ins.map fun l => l.getD i (0, sGood))

/-- The samples an input reference stands for, given the derived samples of earlier nodes. -/
def refSamples (f : Frame) (derived : List (List Sample)) (r : Nat) : List Sample :=
  if refNode r then derived.getD (refNum r) [] else chanSamples f (refNum r)

/-- Derived samples of every node of a graph in a frame, in node order; none for accumulating nodes. -/
def deriveAll (g : Graph) (f : Frame) : List (List Sample) :=
  g.nodes.foldl (fun acc d =>
    acc ++ [if ndKind d = 1 then combineAll d ((ndRefs d).map (refSamples f acc)) else []]) []

/-- Channels whose samples reach a reference, through COMBINE nodes; at most `fuel` nodes deep. -/
def rootChans (g : Graph) : Nat → Nat → List Nat
  | 0, _ => []
  | fuel + 1, r =>
    if refNode r then (ndRefs (g.nodes.getD (refNum r) [])).flatMap (rootChans g fuel) else [refNum r]

/-- A status is listed for an ADMIT code (R123). -/
def admits (code status : Nat) : Bool :=
  status == sGood || (decide (1 ≤ code) && status == sRecovering) || (decide (2 ≤ code) && status == sSettling)

/-! ## Band filters (R126) -/

/-- One section in direct form I: its output in 2^-16 LSB from an input in 2^-16 LSB. DESIGN CHOICE (log 28): R126 gives the coefficients
without the sign with which they enter: b0, b1 and b2 are added, a1 and a2 subtracted. -/
def sectionStep (coef : Nat → Int) (s : Section) (x : Int) : Section × Int :=
  let y := roundEven (coef 0 * x + coef 1 * s.x1 + coef 2 * s.x2 - coef 3 * s.y1 - coef 4 * s.y2) (2 ^ 30)
  ({ x1 := x, x2 := s.x1, y1 := y, y2 := s.y1 }, y)

/-- The sections of a band filter in turn. -/
def sectionsRun (band : Nat) : Nat → List Section → Int → List Section × Int
  | _, [], x => ([], x)
  | j, s :: ss, x =>
    let a := sectionStep (fun i => (Config.bandCoef band (5 * j + i)).toInt) s x
    let b := sectionsRun band (j + 1) ss a.2
    (a.1 :: b.1, b.2)

/-- A band filter at rest. -/
def bandRest : List Section := List.replicate 4 {}

/-- One input VALUE through a band filter: the output in 2^-16 LSB. -/
def bandStep (band : Nat) (ss : List Section) (value : Int) : List Section × Int :=
  sectionsRun band 0 ss (value * 2 ^ 16)

/-! ## CROSS and RAINFLOW (R127, R128) -/

/-- The state after an admitted sample, and whether it crossed upward or downward. -/
def crossStep (lo hi x : Int) (l : Level) : Level × Bool × Bool :=
  if hi ≤ x then (.above, l == .below, false) else if x ≤ lo then (.below, false, l == .above) else (l, false, false)

/-- Counts one cycle of 1 or 2 half cycles from a to b. -/
def rainCount (d : Bytes) (a b : Int) (halves : Nat) (cells : List Nat) : List Nat :=
  let lo := ndKs d 1
  let span := ndKs d 2 - lo
  let r := min (ndRb d - 1) ((((a - b).natAbs * ndRb d : Nat) : Int) / span).toNat
  let m := (clampInt 0 (ndMb d - 1 : Nat) ((a + b - 2 * lo) * ndMb d / (2 * span))).toNat
  updAt cells (r * ndMb d + m) fun n => min 65535 (n + halves)

/-- The counting loop of push over a stack kept newest first, at most `fuel` rounds. -/
def rainLoop (d : Bytes) : Nat → List Int → List Nat → List Int × List Nat
  | 0, s, cells => (s, cells)
  | fuel + 1, s, cells =>
    match s with
    | a :: b :: c :: rest =>
      if (a - b).natAbs < (b - c).natAbs then (s, cells)
      else if rest.isEmpty then rainLoop d fuel [a, b] (rainCount d c b 1 cells)
      else rainLoop d fuel (a :: rest) (rainCount d c b 2 cells)
    | _ => (s, cells)

/-- push(r): a new reversal, the counting, and the bounded residue. -/
def rainPush (d : Bytes) (x : Int) (r : Rain) : Rain :=
  let a := rainLoop d 70 (x :: r.stack) r.cells
  if a.1.length > 64 then
    { r with stack := a.1.dropLast
             cells := rainCount d (a.1.getLastD 0) (a.1.getD (a.1.length - 2) 0) 1 a.2 }
  else { r with stack := a.1, cells := a.2 }

/-- An admitted sample. -/
def rainStep (d : Bytes) (x : Int) (r : Rain) : Rain :=
  let gate : Int := ndHyst d
  if !r.started then { rainPush d x r with started := true, last := x, dir := 0 }
  else if r.dir = 0 then
    if r.last + gate ≤ x then { r with dir := 1, cand := x }
    else if x ≤ r.last - gate then { r with dir := -1, cand := x }
    else r
  else if r.dir = 1 then
    if r.cand < x then { r with cand := x }
    else if x ≤ r.cand - gate then { rainPush d r.cand r with last := r.cand, dir := -1, cand := x }
    else r
  else
    if x < r.cand then { r with cand := x }
    else if r.cand + gate ≤ x then { rainPush d r.cand r with last := r.cand, dir := 1, cand := x }
    else r

/-! ## A node's step (R123 to R128) -/

/-- A node at rest whose period starts at a frame. -/
def nodeRest (d : Bytes) (tick : Nat) (trunc step : Bool) : NodeSt :=
  { firstTick := tick, trunc := trunc, step := step
    bands := if ndKind d = 3 then List.replicate (ndNb d) bandRest else []
    energy := if ndKind d = 3 then List.replicate (ndNb d) 0 else []
    cross := if ndKind d = 4 then List.replicate (ndNt d) .unknown else []
    counts := if ndKind d = 4 then List.replicate (ndNt d) 0 else []
    rain := { cells := if ndKind d = 5 then List.replicate (ndRb d * ndMb d) 0 else [] } }

/-- The filters run on every VALUE; energy accumulates beyond the holdoff (R126). -/
def bandFeed (d : Bytes) (admitted : Bool) (x : Int) (s : NodeSt) : NodeSt :=
  let outs := mapI (fun j ss => bandStep (ndBand d j) ss x) s.bands
  let since := if admitted then s.since.map (· + 1) else some 0
  let counts := admitted && (match since with | none => true | some n => decide (ndHoldoff d < n))
  { s with
    bands := outs.map (·.1), since := since
    a := if counts then s.a + 1 else s.a
    energy := if counts then (s.energy.zip outs).map fun z => z.1 + z.2.2.natAbs ^ 2 else s.energy }

/-- An admitted sample of any kind but BAND. -/
def admitFeed (d : Bytes) (x : Int) (s : NodeSt) : NodeSt :=
  match ndKind d with
  | 2 =>
    { s with
      a := s.a + 1, vmin := if s.a = 0 then x else min s.vmin x, vmax := if s.a = 0 then x else max s.vmax x
      sum := s.sum + x, sumSq := s.sumSq + x.natAbs ^ 2 }
  | 4 =>
    let rs := mapI (fun i l => crossStep (ndKs d (1 + i) - ndHyst d) (ndKs d (1 + i) + ndHyst d) x l) s.cross
    { s with
      a := s.a + 1, cross := rs.map (·.1)
      counts := (s.counts.zip rs).map fun z =>
        if (z.2.2.1 && ndDir d != 1) || (z.2.2.2 && ndDir d != 0) then min (2 ^ 32 - 1) (z.1 + 1) else z.1 }
  | 5 => { s with a := s.a + 1, rain := rainStep d x s.rain }
  | _ => s

/-- One input sample. -/
def nodeFeed (d : Bytes) (s : NodeSt) (x : Sample) : NodeSt :=
  let s := { s with
    e := s.e + 1
    clipHi := s.clipHi || x.2 == sOverHi, clipLo := s.clipLo || x.2 == sOverLo, ret := s.ret || x.2 == sRetired }
  let ok := admits (ndAdmit d) x.2
  if ndKind d = 3 then bandFeed d ok x.1 s else if ok then admitFeed d x.1 s else s

/-! ## Period close (R124 to R128) -/

/-- QUALITY of a period. -/
def nodeQuality (d : Bytes) (s : NodeSt) : Nat :=
  if s.ret then 3 else if s.a = 0 ∨ s.a * 256 < ndMinFill d * s.e then 2 else if s.a < s.e then 1 else 0

/-- The six words of STATS in bit order. -/
def statsWords (s : NodeSt) : List Nat :=
  if s.a = 0 then List.replicate 6 0
  else
    let mn := if s.clipLo then -8388608 else s.vmin
    let mx := if s.clipHi then 8388607 else s.vmax
    let m := max mn.natAbs mx.natAbs
    [twos 32 mn, twos 32 mx, twos 32 (roundDiv (s.sum * 256) s.a), roundSqrt (s.sumSq * 2 ^ 16) s.a, twos 32 (mx - mn),
      if s.sumSq = 0 then 0 else min (2 ^ 32 - 1) (roundSqrt (m ^ 2 * 2 ^ 48 * s.a) s.sumSq)]

/-- The value words of a closing period. -/
def closeWords (d : Bytes) (s : NodeSt) : List Word :=
  match ndKind d with
  | 2 => ((statsWords s).zipIdx.filter fun x => bitOf (ndMask d) x.2).map fun x => BitVec.ofNat 32 x.1
  | 3 => s.energy.map fun e => if s.a = 0 then 0 else toBinary32 e (s.a * 2 ^ 32)
  | 4 => s.counts.map (BitVec.ofNat 32)
  | 5 => (List.range (s.rain.cells.length / 2)).map fun i =>
      BitVec.ofNat 32 (s.rain.cells.getD (2 * i) 0 + 65536 * s.rain.cells.getD (2 * i + 1) 0)
  | _ => []

/-- A node after the close: accumulators reset; filters, threshold states and the reversal detector run on. -/
def nodeReopen (d : Bytes) (tick : Nat) (trunc step : Bool) (s : NodeSt) : NodeSt :=
  { nodeRest d tick trunc step with
    bands := s.bands, since := s.since, cross := s.cross
    rain := { s.rain with cells := List.replicate s.rain.cells.length 0 } }

/-- The entry of a period that closes with frame `f` at a mark. -/
def closeEntry (gid : BitVec 32) (i f : Nat) (m : CloseMark) (d : Bytes) (s : NodeSt) : ProvEntry :=
  let ticks := f + 1 - s.firstTick
  let short := decide (ticks < ndPeriod d)
  { frame := f, graph := gid, node := i, period := ndPeriod d, firstTick := s.firstTick, ticks := ticks
    trunc := (m.trunc && m.index % ndPeriod d != 0) || (s.trunc && short)
    step := m.step || (s.step && short)
    replays := s.replays, quality := nodeQuality d s, clipHi := s.clipHi, clipLo := s.clipLo
    kind := ndKind d, emit := ndEmit d, words := closeWords d s, stamp := m.stamp }

/-- A period closes at a mark (R129, R140, R143). -/
def closesAt (d : Bytes) (m : CloseMark) : Bool := m.trunc || m.step || m.index % ndPeriod d == 0

/-! ## Applying and closing a frame (R136) -/

/-- The graph that runs a frame (R141). -/
def graphFor (a : Arr) (n : Nat) : Graph := if n < a.since then a.outgoing.getD {} else a.active

/-- Slots of a frame that an input reference stands for and that were created and lost. -/
def refLost (g : Graph) (f : Frame) (fuel r : Nat) : Nat :=
  (((rootChans g fuel r).map fun c => ((f.lost.find? (·.1 == c)).map (·.2)).getD 0).min?).getD 0

/-- Slots created and lost: they count in E, and nothing is admitted of them (R124). -/
def nodeLose (d : Bytes) (n : Nat) (s : NodeSt) : NodeSt :=
  if n = 0 then s else { s with e := s.e + n, since := if ndKind d = 3 then some 0 else s.since }

/-- The state of a node after the samples of a frame. -/
def nodeFrame (a : Arr) (g : Graph) (f : Frame) (derived : List (List Sample)) (i : Nat) (d : Bytes) (s : NodeSt) :
    NodeSt :=
  let r := ndRef d 0
  let s := if ndKind d = 3 && (rootChans g (i + 1) r).any fun c => a.rateChanged.contains (c, f.n) then
      { s with bands := List.replicate (ndNb d) bandRest, since := some 0 }
    else s
  nodeLose d (refLost g f (i + 1) r) ((refSamples f derived r).foldl (nodeFeed d) s)

/-- Replays counted so far for a node's period: by its entry, or by its open state. -/
def replaysOf (a : Arr) (gid : BitVec 32) (i first : Nat) : Nat :=
  match a.provQ.find? fun e => e.graph == gid && e.node == i && e.firstTick == first with
  | some e => e.replays
  | none =>
    match a.nodes[i]? with
    | some s => if s.firstTick = first then s.replays else 0
    | none => 0

/-- Applies a frame to the states at its start and closes it: states after the close, and the entries. -/
def runFrame (a : Arr) (f : Frame) (m : CloseMark) (nodes : List NodeSt) : List NodeSt × List ProvEntry :=
  let g := graphFor a f.n
  let derived := deriveAll g f
  let fed := mapI (fun i d => (d, nodeFrame a g f derived i d (nodes.getD i {}))) g.nodes
  (mapI (fun _ x => if ndKind x.1 != 1 && closesAt x.1 m then nodeReopen x.1 (f.n + 1) m.trunc m.step x.2 else x.2) fed,
    (mapI (fun i x => (i, x)) fed).filterMap fun y =>
      if ndKind y.2.1 != 1 && closesAt y.2.1 m then some (closeEntry g.id y.1 f.n m y.2.1 y.2.2) else none)

/-- States at the start of frame n: zero states where a graph starts there (R140). -/
def startNodes (a : Arr) (n : Nat) (nodes : List NodeSt) : List NodeSt :=
  if n = a.since then a.active.nodes.map fun d => nodeRest d n true false else nodes

/-- Marks the periods that a replay re-applies (R130). -/
def touch (old : Arr) (n : Nat) (nodes : List NodeSt) : List NodeSt :=
  let gid := (graphFor old n).id
  mapI (fun i s => { s with replays := min 65535 (replaysOf old gid i s.firstTick + 1) }) nodes

/-- Runs closed frames in order from checkpoint states, rewriting checkpoints and entries. Frames up to `redo` are
replayed ones. -/
def runFrames (old : Arr) (redo : Nat) : List (Frame × CloseMark) → Arr → Arr
  | [], a => a
  | (f, m) :: rest, a =>
    let nodes := if f.n < redo then touch old f.n a.nodes else a.nodes
    let r := runFrame a f m nodes
    let next := startNodes a (f.n + 1) r.1
    runFrames old redo rest { a with
      nodes := next
      provQ := (a.provQ.filter fun e => e.frame != f.n) ++ r.2
      ckpts := (a.ckpts.filter fun k => k.n != f.n + 1) ++ [⟨f.n + 1, next⟩] }

/-- Step 2 of R136 at tick n: closes frame n − 1, or restores the checkpoint of the earliest changed frame and
re-applies from there. -/
def arrClose (earliest : Option Nat) (h : Hub) : Hub :=
  let a := h.arr
  let n := h.time.tick
  let from_ := match earliest with | some f => f | none => n - 1
  let work := (h.frames.filter fun f => decide (from_ ≤ f.n ∧ f.n < n)).filterMap fun f =>
    (a.marks.find? fun m => m.tick == f.n + 1).map fun m => (f, m)
  match earliest with
  | none => { h with arr := runFrames a 0 work a }
  | some f =>
    match a.ckpts.find? (·.n == f) with
    | some k => { h with arr := { runFrames a n work { a with nodes := k.nodes } with replays := a.replays + 1 } }
    | none => { h with arr := runFrames a 0 (work.filter fun x => x.1.n + 1 == n) a }

/-- Forgets checkpoints, marks and rate changes that no replay can reach. -/
def arrPrune (h : Hub) : Hub :=
  let low := ((h.frames.head?).map (·.n)).getD h.time.tick
  { h with
    arr.ckpts := h.arr.ckpts.filter fun k => decide (low ≤ k.n)
    arr.marks := h.arr.marks.filter fun m => decide (low < m.tick)
    arr.rateChanged := h.arr.rateChanged.filter fun x => decide (low ≤ x.2) }

/-! ## Activation (R140, R141, R144) -/

/-- The graph that an identifier activates. -/
def graphNamed (a : Arr) (gid : BitVec 32) : Graph := if gid = 0 then {} else (a.named <|> a.shadow).getD {}

/-- Makes the named graph the active one at a tick: states from zero, the outgoing graph kept for replays. -/
def activateAt (tick : Nat) (gid : BitVec 32) (h : Hub) : Hub :=
  let a := h.arr
  let g := graphNamed a gid
  let a := { a with
    outgoing := some a.active, active := g, named := none, since := tick
    shadow := if gid = 0 ∨ a.named.isSome then a.shadow else none }
  { h with cfg.graph := g, arr := a }

/-- The pending activation takes effect at tick n (before frame n − 1 is closed). -/
def activateDue (n : Nat) (h : Hub) : Hub :=
  match h.arr.activate with
  | some (gid, a) => if a = n ∧ h.arr.since ≠ n then activateAt n gid h else h
  | none => h

/-- An activation at tick n is due or has been carried out. -/
def activates (h : Hub) (n : Nat) : Bool := match h.arr.activate with | some (_, a) => a == n | none => false

/-- The activation is no longer pending, and the outgoing graph's state is released, from tick a + V + 1, and not while a frame
before a is provisional, as one with a longer V may be (R141, 02 R42). -/
def activationDone (n : Nat) (h : Hub) : Hub :=
  match h.arr.activate with
  | some (_, a) =>
    if a + h.time.v + 1 ≤ n ∧ h.frames.all (fun f => decide (a ≤ f.n)) ∧ h.arr.waits.all (fun f => decide (a ≤ f)) then { h with arr.activate := none, arr.outgoing := none }
    else h
  | none => h

/-- A loaded graph becomes the shadow; one that a pending activation names stays for it (R139, R140). -/
def takeShadow (g : Graph) (a : Arr) : Arr :=
  let waits := match a.activate with | some (gid, t) => gid != 0 && a.since != t | none => false
  { a with loading := none, shadow := some g, named := if waits then a.named <|> a.shadow else none }

/-! ## SUMMARY records (R130, R131, R137) -/

/-- The entry of R131. -/
def entryBytes (e : ProvEntry) : Bytes :=
  leNat 4 (e.node + 1024 * e.quality + 4096 * b2n e.clipHi + 8192 * b2n e.clipLo + 65536 * e.words.length +
    16777216 * e.kind) ++ e.words.flatMap fun w => leNat 4 w.toNat

/-- Splits entries at entry boundaries into parts of at most 32,768 bytes, each filled in order. -/
def splitParts (fuel : Nat) (es : List ProvEntry) : List (List ProvEntry) :=
  match fuel with
  | 0 => []
  | n + 1 =>
    if es.isEmpty then []
    else
      let k := (List.range (es.length + 1)).foldl (fun best j =>
        if decide ((((es.take j).flatMap entryBytes).length) ≤ 32768) then j else best) 1
      es.take k :: splitParts n (es.drop k)

/-- One part as a record. -/
def summaryRec (h : Hub) (late : Bool) (parts k : Nat) (es : List ProvEntry) : Rec :=
  let e0 := es.head?
  let body := es.flatMap entryBytes
  let get {α : Type} (f : ProvEntry → α) (z : α) : α := (e0.map f).getD z
  let reps := es.foldl (fun m e => max m e.replays) 0
  { ty := 2, order := 4, late := late, stamp := get (·.stamp) {}
    payload := leNat 4 (get (·.graph) 0).toNat ++ leNat 4 (get (·.period) 0) ++
      leNat 8 (toStream h (get (·.firstTick) 0)) ++ leNat 4 (get (·.ticks) 0) ++ leNat 2 es.length ++
      leNat 2 (b2n (get (·.trunc) false) + 2 * b2n (get (·.step) false) + 4 * b2n (decide (0 < reps))) ++ leNat 2 reps ++
      leNat 1 k ++ leNat 1 parts ++ leNat 4 body.length ++ body }

/-- The SUMMARY records of the entries tagged with a frame: one for each P, in ascending P. -/
def summaryRecs (h : Hub) (late : Bool) (es : List ProvEntry) : List Rec :=
  let es := es.filter (·.emit)
  let ps := sortBy id ((es.map (·.period)).eraseDups)
  ps.flatMap fun p =>
    let parts := splitParts es.length (es.filter (·.period == p))
    mapI (fun k part => summaryRec h late parts.length k part) parts

/-- Takes the entries tagged with a frame out of the provisional queue. -/
def takeEntries (f : Nat) (h : Hub) : List ProvEntry × Hub :=
  (h.arr.provQ.filter (·.frame == f), { h with arr.provQ := h.arr.provQ.filter (·.frame != f) })

end Sys2Proof.Machine
end

