-- ==== Sys2Proof/Machine/Capture.lean ====
section
/-! DEFINITION. Flare units, coincidences, the capture ring, captures, their records and statistics (chapter 07). -/

namespace Sys2Proof.Machine

/-! ## Descriptors (R147, R154) -/

def fSource (d : Bytes) : Nat := fieldAt d 0 1
def fCond (d : Bytes) : Nat := fieldAt d 1 1
def fAdmit (d : Bytes) : Nat := fieldAt d 2 1
def fEnable (d : Bytes) : Bool := bitOf (fieldAt d 3 1) 0
def fBelow (d : Bytes) : Bool := bitOf (fieldAt d 3 1) 1
def fOutside (d : Bytes) : Bool := bitOf (fieldAt d 3 1) 2
def fRef (d : Bytes) : Nat := fieldAt d 4 2
def fWord (d : Bytes) : Nat := fieldAt d 6 1
def fCaptures (d : Bytes) : Nat := fieldAt d 7 1
def fA (d : Bytes) : Nat := fieldAt d 8 4
def fB (d : Bytes) : Nat := fieldAt d 12 4
def fC (d : Bytes) : Nat := fieldAt d 16 4
def fMembers (d : Bytes) : Nat := fieldAt d 20 2
def fHoldoff (d : Bytes) : Nat := fieldAt d 22 2
def fHops (d : Bytes) : Nat := fieldAt d 24 1

/-- Descriptor of a unit in force. -/
def unitDesc (h : Hub) (u : Nat) : Bytes := h.cfg.flare.getD u (zeros 32)

/-- A unit is enabled with a source. -/
def unitOn (h : Hub) (u source : Nat) : Bool := fEnable (unitDesc h u) && fSource (unitDesc h u) == source

/-- The channels of a capture set, ascending. -/
def cChans (d : Bytes) : List Nat := (List.range 512).filter fun c => bitOf (fieldAt d (c / 8) 1) (c % 8)

/-- The reference channel of a set (R156). -/
def refChan (d : Bytes) : Nat := (cChans d).headD 0
def cPre (d : Bytes) : Nat := fieldAt d 64 4
def cPost (d : Bytes) : Nat := fieldAt d 68 4
def cExtend (d : Bytes) : Bool := fieldAt d 72 1 == 1
def cWindow (d : Bytes) : Bool := fieldAt d 73 1 == 1
def cRecycle (d : Bytes) : Bool := fieldAt d 74 1 == 1
def cBuffers (d : Bytes) : Nat := fieldAt d 75 1
def cHist (d : Bytes) : Bool := bitOf (fieldAt d 76 1) 0
def cPersist (d : Bytes) : Bool := bitOf (fieldAt d 76 1) 1
def cExportRate (d : Bytes) : Nat := fieldAt d 80 4

/-- Descriptor of a definition in force. -/
def defDesc (h : Hub) (d : Nat) : Bytes := h.cfg.capture.getD d (zeros 96)

/-- Bytes of a definition's post region, whole 64 KiB (R155). -/
def regionBytes (d : Bytes) : Nat :=
  ceilDiv (cBuffers d * ((if cExtend d then 4 else 1) * cPost d * (cChans d).length * 4)) 65536 * 65536

/-- Offset of a definition's post region in the capture partition: the regions stand in definition order from its start (16 R397). -/
def regionStart (defs : List Bytes) (d : Nat) : Nat := sumNat ((defs.take d).map regionBytes)

/-- Bytes of the ring with some definitions in a partition of some MiB: what lies behind the last region (R146, 16 R397). -/
def ringBytes (mib : Nat) (defs : List Bytes) : Int := (mib * 1048576 : Nat) - (regionStart defs defs.length : Int)

/-! ## The ring (R145) -/

/-- Words of a frame. -/
def frameWords (f : Frame) : Nat := sumNat (f.words.map fun x => x.2.length)

/-- Overwrites the oldest frames while the ring and the frames not yet settled exceed it. -/
def ringEvict (room : Int) (open_ : Nat) : List Frame → List Frame
  | [] => []
  | f :: fs =>
    if ((4 * (open_ + sumNat ((f :: fs).map frameWords)) : Nat) : Int) ≤ room then f :: fs else ringEvict room open_ fs

/-- A settled frame enters the ring as it settled. -/
def ringPush (f : Frame) (h : Hub) : Hub :=
  { h with
    cap.ring := ringEvict (ringBytes h.cfg.captureMib h.cfg.capture)
      (sumNat ((h.frames.filter fun x => decide (f.n < x.n)).map frameWords)) (h.cap.ring ++ [f]) }

/-- End of a frame. -/
def frEnd (f : Frame) : Inst := f.stamp.inst + f.len

/-- Grid instants of a rate in a frame. -/
def gridCount (r : Nat) (f : Frame) : Nat := ((gridCeil r (frEnd f) - gridCeil r f.stamp.inst) / gridStep r).toNat

/-- Slots of a channel's grid in a frame, at the RATE it had there. -/
def frameGrid (c : Nat) (f : Frame) : Nat := gridCount (dRate (frDesc f c)) f

/-! ## Windows and jobs on a capture (R164, 16 R399, 08 R195) -/

/-- Revokes every window onto a capture, and ends any job on it with SOURCE_LOST. -/
def revokeCapture (d id : Nat) (h : Hub) : Hub :=
  { revokeWindows (fun w => w.object == 0 && w.def_ == d && w.capId == id) h with
    jobs := h.jobs.map fun j => j.map fun x =>
      if x.running && x.def_ == d && x.capId == id then { x with sourceLost := true } else x }

/-! ## Taking slots into a capture (R156, R157, R171) -/

/-- Positions a capture has taken. -/
def capTaken (c : Capture) : Nat := sumNat (c.segs.map (·.count))

/-- Words of a channel in a frame. -/
def wordsOf (f : Frame) (c : Nat) : List Word := ((f.words.find? (·.1 == c)).map (·.2)).getD []

/-- The capture closed by CUT takes nothing more after a frame. -/
def cutDone (c : Capture) (n : Nat) : Bool := match c.cut with | some t => decide (t ≤ n + 1) | none => false

/-- A settled frame passes a capture: the slots of its window are taken, from the ring for frames settled by its decision,
else copied to its buffer; without a buffer they are a gap (R164), and slots that do not exist are ABSENT. -/
def takeFrame (fromRing : Bool) (f : Frame) (c : Capture) : Capture :=
  let n := frameGrid (refChan c.desc) f
  let chs := cChans c.desc
  let have_ := (chs.map fun ch => (wordsOf f ch).length).foldl max 0
  let a := min c.skip n
  let left := c.pre + c.post - capTaken c
  let limit := match c.cut with
    | some t => if t ≤ f.n then 0 else if t = f.n + 1 then max a (min n have_) - a else n - a
    | none => n - a
  let k := min left limit
  let taken := capTaken c
  let c := if decide (taken ≤ c.pre ∧ c.pre < taken + k) then { c with trigAt := some (f.n, a + c.pre - taken) } else c
  let present := min k (have_ - a)
  let copy := if fromRing || !c.hasBuffer then none else some (chs.map fun ch => ((wordsOf f ch).drop a).take present)
  let seg : CapSeg := { tick := f.n, first := a, count := present, copy := copy
                        lost := if fromRing || c.hasBuffer then 0 else if c.recycled then 3 else 2 }
  let gap : CapSeg := { tick := f.n, first := a + present, count := k - present, lost := 4 }
  { c with
    skip := c.skip - a
    segs := c.segs ++ (if present = 0 then [] else [seg]) ++ if k = present then [] else [gap] }

/-- Slots of a ring frame that no channel of a set has lost: an index is lost where an uncorrectable error took a word of it (16 R404). -/
def slotLost (f : Frame) (chs : List Nat) (i : Nat) : Bool :=
  f.bad.any fun b => chs.contains b.1 && decide (b.2.1 ≤ i ∧ i < b.2.1 + b.2.2)

/-- Slots of a segment one by one, neighbours of one kind joined: those lost in the ring are a gap of reason ABSENT. -/
def splitLost (lost : Nat → Bool) (s : CapSeg) : List CapSeg :=
  ((List.range s.count).foldl (fun acc i =>
    let kind := if lost (s.first + i) then 4 else 0
    match acc with
    | x :: xs => if x.lost = kind then { x with count := x.count + 1 } :: xs else { s with first := s.first + i, count := 1, lost := kind } :: acc
    | [] => [{ s with first := s.first + i, count := 1, lost := kind }]) []).reverse

/-- The segments of a capture that reads the ring, cut at what the ring has lost. -/
def segsLost (h : Hub) (c : Capture) : List CapSeg :=
  c.segs.flatMap fun s =>
    match h.cap.ring.find? fun f => f.n == s.tick && !f.bad.isEmpty with
    | some f => if s.lost = 0 && s.copy.isNone then splitLost (slotLost f (cChans c.desc)) s else [s]
    | none => [s]

/-- A capture has taken its last slot, once frame n has settled. -/
def capComplete (c : Capture) (n : Nat) : Bool := decide (c.pre + c.post ≤ capTaken c) || cutDone c n

/-- Grid instant of the last post slot. -/
def lastGrid (c : Capture) : Inst := c.trigGrid + ((c.post : Int) - 1) * gridStep c.gridRate

/-- A capture runs at an instant: its post window has not ended (R157). -/
def capRuns (c : Capture) (now : Inst) : Bool := c.cut.isNone && decide (now ≤ lastGrid c)

/-! ## Statistics (R166, R167) -/

/-- Adds one to an entry of a saturating table. -/
def bump {κ : Type} [DecidableEq κ] (cap : Nat) (k : κ) (t : List (κ × Nat)) : List (κ × Nat) :=
  if t.any fun x => decide (x.1 = k) then t.map fun x => if x.1 = k then (k, min cap (x.2 + 1)) else x else t ++ [(k, 1)]

/-- A status that is counted. -/
def counted (s : Nat) : Bool := [sGood, sSettling, sRecovering, sOverHi, sOverLo].contains s

/-- The bin of a VALUE. -/
def valueBin (v : Int) : Nat := (v / 65536 + 128).toNat

/-- A slot has not been counted in an area. -/
def fresh (h : Hub) (area ch tick i : Nat) : Bool :=
  !h.cap.counted.any fun x => x.1 == area && x.2.1 == ch && x.2.2.1 == tick &&
    decide (x.2.2.2.1 ≤ i ∧ i < x.2.2.2.1 + x.2.2.2.2)

/-- Counts the words of one channel of a segment whose first position is `pos`. -/
def countWords (d : Nat) (c : Capture) (s : CapSeg) (pos ch : Nat) (ws : List Word) (h : Hub) : Hub :=
  let total := cPre c.desc + cPost c.desc
  let hs := if cHist c.desc then
      (ws.zipIdx).foldl (fun t x =>
        if counted (wStatus x.1) && fresh h 0 ch s.tick (s.first + x.2) then
          bump (2 ^ 32 - 1) (ch, valueBin (wValue x.1)) t else t) h.cap.hist
    else h.cap.hist
  let ms := if cPersist c.desc then
      (ws.zipIdx).foldl (fun t x =>
        if counted (wStatus x.1) && fresh h (d + 1) ch s.tick (s.first + x.2) then
          bump 65535 (d, ch, min 1023 ((pos + x.2) * 1024 / total) * 256 + valueBin (wValue x.1)) t else t) h.cap.maps
    else h.cap.maps
  { h with
    cap.hist := hs, cap.maps := ms
    cap.counted := h.cap.counted ++
      (if cHist c.desc then [(0, ch, s.tick, s.first, ws.length)] else []) ++
      (if cPersist c.desc then [(d + 1, ch, s.tick, s.first, ws.length)] else []) }

/-- Words of a segment by channel of the set; none where they are lost. -/
def segWords (h : Hub) (c : Capture) (s : CapSeg) : Option (List (List Word)) :=
  if s.lost ≠ 0 then none
  else
    match s.copy with
    | some ws => some ws
    | none => (h.cap.ring.find? (·.n == s.tick)).map fun f =>
        (cChans c.desc).map fun ch => ((wordsOf f ch).drop s.first).take s.count

/-- Counts a segment's words, where they are delivered. -/
def countSeg (d : Nat) (c : Capture) (pos : Nat) (s : CapSeg) (h : Hub) : Hub :=
  match segWords h c s with
  | none => h
  | some wss => ((cChans c.desc).zip wss).foldl (fun h x => countWords d c s pos x.1 x.2 h) h

/-- Counts segments from a position on. -/
def countSegs (d : Nat) (c : Capture) : Nat → List CapSeg → Hub → Hub
  | _, [], h => h
  | pos, s :: ss, h => countSegs d c (pos + s.count) ss (countSeg d c pos s h)

/-! ## Records (R170, R171) -/

/-- CAPTURE_HEADER of a capture. -/
def capHeader (h : Hub) (d : Nat) (c : Capture) : Rec :=
  let df := defAt h d
  let at_ := c.trigAt.getD (0, 0)
  let flags := b2n c.preShort + 2 * b2n c.extended + 4 * b2n c.cut.isSome + 8 * b2n c.stepped + 16 * b2n (cWindow c.desc)
  let listed := c.retrigList.take 8
  { ty := 3, order := 5
    payload := leNat 4 c.id ++ leNat 1 d ++ leNat 1 flags ++ leNat 1 c.units.length ++ leNat 1 listed.length ++
      (c.units.map (BitVec.ofNat 8) ++ List.replicate 16 0xFF).take 16 ++ stampBytes c.trig ++
      leNat 8 (toStream h at_.1) ++ leNat 4 at_.2 ++ leNat 4 c.pre ++ leNat 4 (capTaken c - c.pre) ++
      leNat 2 (min 65535 c.retrigs) ++ leNat 1 c.rate ++ zeros 1 ++ leNat 2 (min 65535 df.missedRearm) ++
      leNat 2 (min 65535 df.missedOld) ++ zeros 4 ++
      (match df.missedFirst with | some s => stampBytes s | none => zeros 16) ++
      padTo 64 (listed.flatMap fun x => leNat 1 x.1 ++ zeros 3 ++ leNat 4 x.2) ++ c.desc.take 64 }

/-- The 32-byte data header. -/
def dataHeader (h : Hub) (d : Nat) (c : Capture) (gap tick pos slots : Nat) : Bytes :=
  leNat 4 c.id ++ leNat 1 d ++ leNat 1 (b2n (gap != 0)) ++ leNat 1 gap ++ zeros 1 ++ leNat 8 (toStream h tick) ++
    leNat 4 pos ++ leNat 4 slots ++ zeros 8

/-- Segments from a position on. -/
def segsFrom : Nat → List CapSeg → List CapSeg
  | _, [] => []
  | n, s :: ss =>
    if n = 0 then s :: ss
    else if s.count ≤ n then segsFrom (n - s.count) ss
    else { s with first := s.first + n, count := s.count - n
                  copy := s.copy.map fun ws => ws.map (·.drop n) } :: ss

/-- Segments up to a position. -/
def segsTo : Nat → List CapSeg → List CapSeg
  | _, [] => []
  | n, s :: ss =>
    if n = 0 then []
    else if s.count ≤ n then s :: segsTo (n - s.count) ss
    else [{ s with count := n, copy := s.copy.map fun ws => ws.map (·.take n) }]

/-- The gap reason of a segment; 0 where its words can be read. -/
def segGap (h : Hub) (c : Capture) (s : CapSeg) : Nat :=
  if s.lost ≠ 0 then s.lost else if (segWords h c s).isSome then 0 else 1

/-- The leading segments that share a gap reason, cut to at most `room` positions. -/
def segRun (h : Hub) (c : Capture) (reason : Nat) : Nat → List CapSeg → List CapSeg
  | _, [] => []
  | room, s :: ss =>
    if room = 0 || segGap h c s != reason then []
    else if s.count ≤ room then s :: segRun h c reason (room - s.count) ss
    else [{ s with count := room, copy := s.copy.map fun ws => ws.map (·.take room) }]

/-- The words of a run of segments, by channel of the set. -/
def runWords (h : Hub) (c : Capture) (ss : List CapSeg) : List (List Word) :=
  ss.foldl (fun acc s => match segWords h c s with
    | some ws => (acc.zip ws).map fun x => x.1 ++ x.2
    | none => acc) ((cChans c.desc).map fun _ => [])

/-- One slice of a capture from a position: the channels that have words, and their words (08 R193). -/
def sliceOf (h : Hub) (c : Capture) (ss : List CapSeg) : List Nat × List (List Word) :=
  (((cChans c.desc).zip (runWords h c ss)).filter fun x => !x.2.isEmpty).unzip

/-- Bytes of a capture body's blocks. -/
def runBlockBytes (r : SliceRun) : Nat := sumNat (r.outs.map (·.bytes.length))

/-- Slices of a DATA record: one, and as many more as the record holds within a number of block bytes; the segments they cover
(08 R193, 09 R201). -/
def dataSlices (h : Hub) (c : Capture) (limit : Nat) : Nat → List CapSeg → SliceRun → SliceRun × List CapSeg
  | 0, _, r => (r, [])
  | n + 1, ss, r =>
    let run := segRun h c 0 1024 ss
    let sl := sliceOf h c run
    let x := encodeSlice h (bodyEnable h) sl.1 sl.2 r
    if run.isEmpty || (!r.outs.isEmpty && decide (limit < runBlockBytes x)) then (r, [])
    else
      let y := dataSlices h c limit n (segsFrom (sumNat (run.map (·.count))) ss) x
      (y.1, run ++ y.2)

/-- Block bytes a DATA record may hold: what the budget in hand pays for, within the longest record of 09 R201; beside them it has 80
bytes. -/
def dataRoom (h : Hub) (d : Nat) : Nat := min 4194300 ((defAt h d).budget.toNat / tickHz h.time.tCode) - 80

/-- The next CAPTURE_DATA record of a capture, with the segments it covers: a gap whole, or slices of words. -/
def nextData (h : Hub) (d : Nat) (c : Capture) : Option (Rec × List CapSeg) :=
  match segsFrom c.exported c.segs with
  | [] => none
  | s :: ss =>
    let g := segGap h c s
    let r := if g = 0 then dataSlices h c (dataRoom h d) (capTaken c) (s :: ss) { seeds := cChans c.desc }
      else ({ seeds := [] }, segRun h c g (2 ^ 32 - 1) (s :: ss))
    let n := sumNat (r.2.map (·.count))
    let body := if g = 0 then bodyBytes (b2n (bodyEnable h)) 2 r.1.outs else []
    some ({ ty := 4, order := 6, payload := dataHeader h d c g s.tick c.exported n ++ body }, r.2)

/-- The hub once a CAPTURE_DATA record has been built: a body of it has been checked. -/
def dataChecked (r : Rec) (h : Hub) : Hub := if 68 < recLen r then bodyChecked h else h

/-! ## Export under STREAM (R171) -/

/-- Replaces a capture of a definition. -/
def updCapture (d id : Nat) (f : Capture → Capture) (h : Hub) : Hub :=
  updDef d (fun x => { x with caps := x.caps.map fun c => if c.id = id then f c else c }) h

/-- Drops a capture, whose buffer becomes free. -/
def dropCapture (d id : Nat) (h : Hub) : Hub := updDef d (fun x => { x with caps := x.caps.filter (·.id != id) }) h

/-- The capture whose words are exported next: the oldest under STREAM with its header emitted. -/
def exporting (x : CapDef) : Option Capture := x.caps.find? fun c => c.headerDone && !cWindow c.desc

/-- Exports one record if the budget pays for it; true when it did. -/
def exportOne (d : Nat) (h : Hub) : Hub × Bool :=
  let x := defAt h d
  match exporting x with
  | none => (h, false)
  | some c =>
    match nextData h d c with
    | none => (dropCapture d c.id h, true)
    | some (r, run) =>
      let cost : Int := (recLen r * tickHz h.time.tCode : Nat)
      if cost ≤ x.budget then
        let h := countSegs d c c.exported run (emit r (dataChecked r h))
        let h := updCapture d c.id (fun c => { c with exported := c.exported + sumNat (run.map (·.count)) }) h
        (updDef d (fun x => { x with budget := x.budget - cost }) h, true)
      else (h, false)

/-- Exports while the budget lasts. -/
def exportFuel : Nat → Nat → Hub → Hub
  | 0, _, h => h
  | n + 1, d, h => let r := exportOne d h; if r.2 then exportFuel n d r.1 else r.1

/-- Records one tick's budget can pay for, at 36 bytes and more each. -/
def exportBound (h : Hub) (d : Nat) : Nat := (defAt h d).budget.toNat / (36 * tickHz h.time.tCode) + (defAt h d).caps.length + 1

/-- A tick's export of a definition: the budget grows while words wait, and else only makes up a header's bytes. -/
def exportTick (h : Hub) (d : Nat) : Hub :=
  match exporting (defAt h d) with
  | none => updDef d (fun x => { x with budget := min 0 (x.budget + cExportRate (defDesc h d)) }) h
  | some c =>
    let h := updDef d (fun x => { x with budget := x.budget + cExportRate c.desc }) h
    exportFuel (exportBound h d) d h

/-- CAPTURE_DATA_EXPORT (R171): what the budget in hand pays for. -/
def execCaptureDataExport (def_ : Nat) (s : State) : Out :=
  hubNext s (exportFuel (exportBound s.hub def_) def_ s.hub)

/-! ## The end of a capture (R170) -/

/-- The header goes out when the frame of the last post slot settles, and under STREAM its bytes count against EXPORT_RATE; under
WINDOW the statistics are taken then. -/
def capFinish (d n : Nat) (h : Hub) (c : Capture) : Hub :=
  if c.headerDone || !capComplete c n then h
  else
    let r := capHeader h d c
    let cost : Int := if cWindow c.desc then 0 else (recLen r * tickHz h.time.tCode : Nat)
    let h := updDef d (fun x => { x with missedRearm := 0, missedOld := 0, missedFirst := none, budget := x.budget - cost }) (emit r h)
    let h := if cWindow c.desc then countSegs d c 0 c.segs h else h
    if cWindow c.desc && c.recycled then dropCapture d c.id h
    else updCapture d c.id (fun c => { c with headerDone := true }) h

/-- The slots of a capture under WINDOW that the ring has overwritten are a gap from now on, and its windows are revoked by that loss, once
(R172, 16 R399). -/
def overwritten (d : Nat) (c : Capture) (h : Hub) : Hub :=
  let gone (s : CapSeg) : Bool := s.lost == 0 && segGap h c s == 1
  if cWindow c.desc && c.headerDone && c.segs.any gone then
    updCapture d c.id (fun x => { x with segs := c.segs.map fun s => if gone s then { s with lost := 1 } else s })
      (revokeWindows (fun w => w.object == 0 && w.def_ == d && w.capId == c.id) h)
  else h

/-- The same of every capture. -/
def revokeOverwritten (h : Hub) : Hub :=
  (List.range 8).foldl (fun h d => (defAt h d).caps.foldl (fun h c => overwritten d c h) h) h

/-- A settled frame passes every capture; WINDOW captures that lose a held pre-trigger slot lose their windows (R172). -/
def capSettle (f : Frame) (h : Hub) : Hub :=
  let h := { h with cap.defs := h.cap.defs.map fun x => { x with
    caps := x.caps.map fun c => if c.headerDone || capComplete c (f.n - 1) then c else takeFrame false f c } }
  let h := ringPush f h
  let h := (List.range 8).foldl (fun h d => (defAt h d).caps.foldl (capFinish d f.n) h) h
  revokeOverwritten h

/-- Every RUNNING capture of a definition closes with CUT: its post window ends before a tick (R165). -/
def cutDef (d tick : Nat) (h : Hub) : Hub :=
  updDef d (fun x => { x with
    caps := x.caps.map fun c => if !c.headerDone && capRuns c h.time.tickInst then { c with cut := some tick } else c
    state := if x.state == .running then .armed else x.state }) h

/-! ## Triggering (R156 to R164) -/

/-- Free buffers of a definition. -/
def freeBuffers (h : Hub) (d : Nat) : Nat := cBuffers (defDesc h d) - ((defAt h d).caps.filter (·.hasBuffer)).length

/-- A missed flare: counted by reason, its instant kept, journalled (R163). -/
def missFlare (d unit : Nat) (tooOld : Bool) (st : Stamp) (h : Hub) : Hub :=
  jEvent 0x2002 (leNat 1 unit ++ leNat 1 d ++ (stampBytes st).take 14)
    (updDef d (fun x => { x with
      missedOld := x.missedOld + b2n tooOld, missedRearm := x.missedRearm + b2n (!tooOld)
      missedFirst := some (x.missedFirst.getD st), missedTotal := (x.missedTotal + 1) % 2 ^ 32 }) h)

/-- The frames held before the latest tick, oldest first: the ring and the frames not yet settled. -/
def heldFrames (h : Hub) : List Frame := h.cap.ring ++ h.frames.filter fun f => decide (f.n < h.time.tick)

/-- Slots of a channel from a frame's first to the one a sampling instant at or after `t` takes: RATE and delay are those of the frame,
and `t`, an instant of the present timebase, is read on the frame's. -/
def slotIn (h : Hub) (c : Nat) (t : Inst) (f : Frame) : Int :=
  let r := dRate (frDesc f c)
  (gridCeil r (t - (h.time.shift - f.shift) + modLen (frDelay f c)) - gridCeil r f.stamp.inst) / gridStep r

/-- The same from the latest tick on, by the configuration in force. -/
def slotAhead (h : Hub) (c : Nat) (t : Inst) : Int :=
  let r := dRate (chDesc h c)
  (gridCeil r (t + modLen (chanDelay h c)) - gridCeil r h.time.tickInst) / gridStep r

/-- Position of a trigger slot from the first slot of some frames on. -/
def trigIn (h : Hub) (c : Nat) (t : Inst) : List Frame → Int
  | [] => max 0 (slotAhead h c t)
  | f :: fs =>
    if slotIn h c t f < frameGrid c f then max 0 (slotIn h c t f) else frameGrid c f + trigIn h c t fs

/-- Position of the trigger slot of a flare from the first slot held on; below 0 where it is held no longer (R156, R161). -/
def trigPos (h : Hub) (c : Nat) (t : Inst) : Int :=
  match heldFrames h with
  | [] => slotAhead h c t
  | f :: fs => if slotIn h c t f < 0 then slotIn h c t f else trigIn h c t (f :: fs)

/-- The place of a position on the channel's present grid. -/
def gridOf (h : Hub) (c : Nat) (pos : Int) : Inst :=
  let r := dRate (chDesc h c)
  gridCeil r h.time.tickInst + (pos - (sumNat ((heldFrames h).map (frameGrid c)) : Nat)) * gridStep r

/-- Positions up to the end of the frame that holds a position. -/
def frameEndPos (c : Nat) (pos : Int) : Int → List Frame → Int
  | n, [] => n
  | n, f :: fs => if pos < n + frameGrid c f then n + frameGrid c f else frameEndPos c pos (n + frameGrid c f) fs

/-- A capture gives up its buffer: windows onto it are revoked and its jobs end; one under WINDOW whose header has been emitted is gone,
another's undelivered data becomes a gap (R164). DESIGN CHOICE (log 28): a capture under WINDOW released before its header still emits it at its
end, and is held no longer. -/
def giveUpBuffer (d : Nat) (c : Capture) (h : Hub) : Hub :=
  let h := revokeCapture d c.id h
  if cWindow c.desc && c.headerDone then dropCapture d c.id h
  else
    updCapture d c.id (fun c => { c with
      hasBuffer := false, recycled := true
      segs := segsTo c.exported c.segs ++ (segsFrom c.exported c.segs).map fun s =>
        { s with copy := none, lost := if s.lost = 0 then 3 else s.lost } }) h

/-- The buffer of the oldest capture is taken (R164). -/
def recycle (d : Nat) (h : Hub) : Hub :=
  match (defAt h d).caps.find? (·.hasBuffer) with
  | none => h
  | some c => giveUpBuffer d c h

/-- Starts a capture whose trigger slot has so many slots held before it. -/
def startCapture (d unit : Nat) (st : Stamp) (before : Nat) (h : Hub) : Hub :=
  let desc := defDesc h d
  let r := dRate (chDesc h (refChan desc))
  let pre := min (cPre desc) before
  let free := freeBuffers h d
  let h := if free = 0 && cRecycle desc then recycle d h else h
  let c : Capture :=
    { id := (defAt h d).nextId, desc := desc, rate := r, units := [unit], trig := st, decided := h.time.tick
      trigGrid := gridOf h (refChan desc) before, gridRate := r, skip := before - pre, pre := pre, preShort := decide (pre < cPre desc), post := cPost desc
      hasBuffer := decide (0 < free) || cRecycle desc }
  let c := h.cap.ring.foldl (fun c f => takeFrame true f c) c
  let c := { c with segs := segsLost h c }
  updDef d (fun x => { x with
    caps := x.caps ++ [c], nextId := (x.nextId + 1) % 2 ^ 32
    state := if capRuns c h.time.tickInst then .running else x.state
    rearmFrom := if capRuns c h.time.tickInst then x.rearmFrom else lastGrid c
    rearmTo := if capRuns c h.time.tickInst then x.rearmTo
      else gridOf h (refChan desc) (frameEndPos (refChan desc) ((before : Int) + c.post - 1) 0 (heldFrames h)) }) h

/-- A retrigger of a running capture (R159). -/
def retrigger (unit off : Nat) (c : Capture) : Capture :=
  let p := cPost c.desc
  let post := if cExtend c.desc then max c.post (min (off + p) (4 * p)) else c.post
  { c with retrigs := c.retrigs + 1, retrigList := (c.retrigList ++ [(unit, off)]).take 8, post := post
           extended := c.extended || decide (c.post < post) }

/-- Offset in slots of a trigger slot from that of a capture. -/
def offsetOf (c : Capture) (g : Inst) : Int := (g - c.trigGrid) / gridStep c.gridRate

/-- The tick that closes the frame of a grid instant not yet past: the open frame's end, or a later tick at the present length. -/
def closingTick (h : Hub) (g : Inst) : Inst :=
  if g < frameEnd h then frameEnd h
  else frameEnd h + ((g - frameEnd h) / tickLen h.time.tCode + 1) * tickLen h.time.tCode

/-- A trigger slot lies in the REARM interval that a running capture will leave (R157, R162): a flare may be decided before the grid
instant of its trigger slot. -/
def inComingRearm (h : Hub) (x : CapDef) (g : Inst) : Bool :=
  x.caps.any fun c => capRuns c h.time.tickInst && decide (lastGrid c ≤ g ∧ g < closingTick h (lastGrid c))

/-- A flare of an instant, read on the present timebase, triggers a definition. DESIGN CHOICE (log 28): while a capture runs, a flare whose
trigger slot is held but lies before that capture's trigger slot is neither a retrigger nor missed: it has no effect on the definition. -/
def triggerDef (unit : Nat) (st : Stamp) (t : Inst) (h : Hub) (d : Nat) : Hub :=
  let x := defAt h d
  if x.state == .disabled || (cChans (defDesc h d)).isEmpty then h
  else
    let p := trigPos h (refChan (defDesc h d)) t
    let g := gridOf h (refChan (defDesc h d)) p
    match x.caps.find? fun c => decide (c.trigGrid = g) && c.decided == h.time.tick with
    | some c =>
      updCapture d c.id (fun c => { c with units := sortBy id ((c.units ++ [unit]).eraseDups)
                                           trig := if st.inst < c.trig.inst then st else c.trig }) h
    | none =>
      match x.caps.find? fun c => capRuns c h.time.tickInst && decide (0 ≤ offsetOf c g ∧ offsetOf c g < c.post) with
      | some c => updCapture d c.id (retrigger unit (offsetOf c g).toNat) h
      | none =>
        if p < 0 then missFlare d unit true st h
        else if x.caps.any fun c => capRuns c h.time.tickInst && decide (g < c.trigGrid) then h
        else if (x.rearmFrom ≤ g ∧ g < x.rearmTo) ∨ inComingRearm h x g then missFlare d unit false st h
        else startCapture d unit st p.toNat h

/-- A definition whose last post slot's frame closes by an instant becomes ARMED again (R157). -/
def rearmDef (now : Inst) (x : CapDef) : CapDef :=
  if x.state == .running && !x.caps.any (fun c => capRuns c now) then
    { x with state := .armed, rearmFrom := ((x.caps.getLast?).map lastGrid).getD x.rearmFrom, rearmTo := now }
  else x

/-- CAPTURE_REARM (R157), at the coming tick. -/
def execCaptureRearm (def_ : Nat) (s : State) : Out := hubNext s (updDef def_ (rearmDef (frameEnd s.hub)) s.hub)

/-! ## Conditions (R149, R150) -/

/-- The state after an admitted sample at which the condition holds or re-arms; true on a flare. `off` says that the
holdoff suppresses it: the edge re-arms the unit (R150). -/
def armStep (holds rearms off : Bool) (a : Armed) : Armed × Bool :=
  match a with
  | .unknown => (if holds then .held else .notHeld, false)
  | .notHeld => if holds then (if off then (.notHeld, false) else (.held, true)) else (.notHeld, false)
  | .held => (if rearms then .notHeld else .held, false)

/-- An instant lies within HOLDOFF ticks after the unit's previous flare. -/
def heldOff (d : Bytes) (tick : Inst) (last : Option Inst) (t : Inst) : Bool :=
  fHoldoff d != 0 && match last with
    | some l => decide (l ≤ t) && decide (t ≤ l + fHoldoff d * tick)
    | none => false

/-- LEVEL and WINDOW on a value: holds, re-arms. -/
def valueCond (d : Bytes) (a b x : Int) : Bool × Bool :=
  if fCond d = 0 then
    if fBelow d then (decide (x ≤ a), decide (a + b < x)) else (decide (a ≤ x), decide (x < a - b))
  else
    let inside := decide (a ≤ x) && decide (x ≤ b)
    let holds := inside != fOutside d
    (holds, !holds)

/-- SLOPE on a difference. -/
def slopeCond (d : Bytes) (diff : Option Int) : Bool × Bool :=
  let a := sext 32 (fA d)
  let b := sext 32 (fB d)
  match diff with
  | none => (false, false)
  | some x => (if fBelow d then decide (x ≤ -a) else decide (a ≤ x), decide ((x.natAbs : Int) < a - b))

/-- BAND on a sum of squares over 2^C samples. -/
def bandCond (d : Bytes) (sum : Nat) : Bool × Bool :=
  let den := 2 ^ (fC d + 32)
  (geBinary32 sum den (BitVec.ofNat 32 (fA d)), !geBinary32 sum den (BitVec.ofNat 32 (fB d)))

/-- A unit with its condition's memory moved on by one input sample. -/
def unitMemory (d : Bytes) (ok : Bool) (x : Int) (u : FlareUnit) : FlareUnit :=
  match fCond d with
  | 2 => { u with recent := ((if ok then some x else none) :: u.recent).take 257 }
  | 3 =>
    let r := bandStep (fWord d) (if u.sections.isEmpty then bandRest else u.sections) x
    { u with sections := r.1, ys := ((if ok then r.2.natAbs ^ 2 else 0) :: u.ys).take (2 ^ fC d) }
  | _ => u

/-- One sample of a CHANNEL or DERIVED source at an instant; the instant of a flare. -/
def unitSample (d : Bytes) (tick : Inst) (u : FlareUnit) (x : Sample) (t : Inst) : FlareUnit × Option Inst :=
  let ok := admits (fAdmit d) x.2
  let u := unitMemory d ok x.1 u
  if !ok then (u, none)
  else
    let hr := match fCond d with
      | 2 => slopeCond d (match u.recent.getD (fC d) none with | some y => some (x.1 - y) | none => none)
      | 3 => bandCond d (sumNat u.ys)
      | _ => valueCond d (sext 32 (fA d)) (sext 32 (fB d)) x.1
    let r := armStep hr.1 hr.2 (heldOff d tick u.lastFlare t) u.armed
    ({ u with armed := r.1, lastFlare := if r.2 then some t else u.lastFlare }, if r.2 then some t else none)

/-- A run of samples with instants `t`, `t + dt`, …; the flares. -/
def unitSamples (d : Bytes) (tick dt : Inst) : FlareUnit → Inst → List Sample → FlareUnit × List Inst
  | u, _, [] => (u, [])
  | u, t, x :: xs =>
    let r := unitSample d tick u x t
    let rest := unitSamples d tick dt r.1 (t + dt) xs
    (rest.1, r.2.toList ++ rest.2)

/-! ## Formats of value words (R125, R126) -/

/-- A binary32 value in 2^-149; infinities lie beyond every finite value. -/
def binary32Scaled (w : Nat) : Int :=
  let ex := bitsOf w 30 23
  let m := bitsOf w 22 0
  let v : Nat := if ex = 255 then 2 ^ 300 else if ex = 0 then m else (m + 2 ^ 23) * 2 ^ (ex - 1)
  if bitOf w 31 then -(v : Int) else v

/-- The MASK bit of word i of a STATS entry. -/
def statsBit (mask i : Nat) : Nat := ((List.range 6).filter (bitOf mask)).getD i 0

/-- A value word of a node as a number that compares as R149 says: signed, unsigned or binary32. -/
def wordValue (nd : Bytes) (i w : Nat) : Int :=
  match ndKind nd with
  | 2 => if statsBit (ndMask nd) i ≤ 2 then sext 32 w else w
  | 3 => binary32Scaled w
  | _ => w

/-- An entry meets a REDUCTION unit: its state and the flare, at the tick that closed the period. -/
def unitEntry (d nd : Bytes) (tick : Inst) (e : ProvEntry) (u : FlareUnit) : FlareUnit × Option Inst :=
  if 1 < e.quality then (u, none)
  else
    let v := wordValue nd (fWord d)
    let hr := valueCond d (v (fA d)) (v (fB d)) (v (e.words.getD (fWord d) 0).toNat)
    let t := e.stamp.inst
    let r := armStep hr.1 hr.2 (heldOff d tick u.lastFlare t) u.armed
    ({ u with armed := r.1, lastFlare := if r.2 then some t else u.lastFlare }, if r.2 then some t else none)

/-! ## Deciding flares (R151, R152) -/

/-- A flare's instant read on the present timebase: how far that has stepped since. -/
def candInst (h : Hub) (c : Cand) : Inst := c.inst + (h.time.shift - c.shift.getD h.time.shift)

/-- A flare's stamp: its instant with the epoch of the timebase it was read on (10 R231). -/
def candStamp (h : Hub) (c : Cand) : Stamp := { stampOf h c.inst with epoch := c.epoch.getD h.time.epoch }

/-- A unit's run state. -/
def unitAt (h : Hub) (u : Nat) : FlareUnit := h.cap.units.getD u {}

/-- Sets a unit's run state. -/
def setUnit (u : Nat) (x : FlareUnit) (h : Hub) : Hub := { h with cap.units := setAt h.cap.units u x }

/-- A unit that starts anew with a frame, or did before it. -/
def startUnit (n : Nat) (u : FlareUnit) : FlareUnit :=
  if u.disarmAt.any (fun t => decide (t ≤ n)) then
    { u with armed := .unknown, disarmAt := u.disarmAt.filter fun t => decide (n < t) }
  else u

/-- A unit with the instant of its previous flare moved. -/
def lastBy (d : Inst) (u : FlareUnit) : FlareUnit := { u with lastFlare := u.lastFlare.map (· + d) }

/-- Flares of CHANNEL and DERIVED units on a settled frame, with instants of its timebase. -/
def frameFlares (f : Frame) (h : Hub) : Hub × List Cand :=
  let h := { h with cap.units := h.cap.units.map (startUnit f.n) }
  let g := graphFor h.arr f.n
  let derived := deriveAll g f
  (List.range 16).foldl (fun acc u =>
    let d := unitDesc acc.1 u
    let on := fEnable d && (fSource d == 1 || fSource d == 2)
    if !on then acc
    else
      let num := fRef d % 1024
      let c := if fSource d = 1 then num else (rootChans g 1024 (32768 + num)).headD 0
      let xs := if fSource d = 1 then chanSamples f num else derived.getD num []
      let r := dRate (frDesc f c)
      let t0 := gridCeil r f.stamp.inst - modLen (frDelay f c)
      let by_ := h.time.shift - f.shift
      let z := unitSamples d (tickLen f.tCode) (gridStep r) (lastBy (-by_) (unitAt acc.1 u)) t0 xs
      (setUnit u (lastBy by_ z.1) acc.1, acc.2 ++ z.2.map fun t =>
        { unit := u, inst := t, epoch := some f.stamp.epoch, shift := some f.shift })) (h, [])

/-- `TimeSt.shift` at the tick that closed an entry's period: that of the frame it opened. -/
def entryShift (h : Hub) (e : ProvEntry) : Inst :=
  (((h.cap.ring ++ h.frames).find? (·.n == e.frame + 1)).map (·.shift)).getD h.time.shift

/-- Flares of REDUCTION units on released entries. -/
def entryFlares (es : List ProvEntry) (h : Hub) : Hub × List Cand :=
  es.foldl (fun acc e =>
    (List.range 16).foldl (fun acc u =>
      let d := unitDesc acc.1 u
      if fEnable d && fSource d == 3 && fRef d % 1024 == e.node then
        let nd := (graphFor acc.1.arr e.frame).nodes.getD e.node []
        let by_ := h.time.shift - entryShift h e
        let z := unitEntry d nd (tickLen acc.1.time.tCode) e (lastBy (-by_) (unitAt acc.1 u))
        (setUnit u (lastBy by_ z.1) acc.1, acc.2 ++ z.2.toList.map fun t =>
          { unit := u, inst := t, epoch := some e.stamp.epoch, shift := some (entryShift h e) })
      else acc) acc) (h, [])

/-- Event flares due at a tick, and FLARE_NOW instants that have passed. -/
def eventFlares (h : Hub) : Hub × List Cand :=
  let due := h.cap.events.filter fun e => decide (e.due ≤ h.time.tick)
  let now := h.cap.now.filter fun x => decide (x.2 < h.time.tickInst)
  ({ h with cap.events := h.cap.events.filter fun e => decide (h.time.tick < e.due)
            cap.now := h.cap.now.filter fun x => !decide (x.2 < h.time.tickInst) },
    (due.map fun e => { unit := e.unit, inst := e.inst, epoch := some e.epoch, shift := e.shift }) ++
      now.map fun x => { unit := x.1, inst := x.2 })

/-- The selection of R152 for a coincidence of k flares within `w`: the new flare and the latest others of distinct members,
the window ending at the latest possible instant. -/
def selectMembers (k : Nat) (w : Inst) (new : Member) (others : List Member) : Option (List Member) :=
  let others := others.filter fun m => m.unit != new.unit
  let tops := (new :: others).filter fun m => decide (new.inst ≤ m.inst) && decide (m.inst ≤ new.inst + w)
  let tryTop (top : Inst) : Option (List Member) :=
    let inWin := (sortBy (fun m => m.inst.toNat) (others.filter fun m => decide (top - w ≤ m.inst) && decide (m.inst ≤ top))).reverse
    let latest := inWin.foldl (fun acc m => if acc.any fun x : Member => x.unit == m.unit then acc else acc ++ [m]) []
    if k ≤ latest.length + 1 then some (new :: latest.take (k - 1)) else none
  (sortBy (fun m => m.inst.toNat) tops).reverse.findSome? fun m => tryTop m.inst

/-- Members that a coincidence unit names. -/
def isMember (h : Hub) (cu u : Nat) : Bool := unitOn h cu 8 && bitOf (fMembers (unitDesc h cu)) u

/-- A member flare is kept for a coincidence unit: W + 1 s from its decision (R152). -/
def keptFor (h : Hub) (cu : Nat) (m : Member) : Bool :=
  isMember h cu m.unit && decide (h.time.op4k * 250000 ≤ m.decided * 250000 + fC (unitDesc h cu) + 1000000000)

/-- The same flare, whatever has consumed it. -/
def sameFlare (a b : Member) : Bool := a.unit == b.unit && decide (a.inst = b.inst) && a.decided == b.decided

/-- One coincidence unit meets a newly decided member flare. -/
def coincide (new : Member) (acc : Hub × List Cand) (cu : Nat) : Hub × List Cand :=
  let h := acc.1
  if !isMember h cu new.unit then acc
  else
    let d := unitDesc h cu
    let others := h.cap.members.filter fun m => keptFor h cu m && !m.consumed.contains cu && !sameFlare m new
    match selectMembers (fA d) (65536 * (fC d : Int)) new others with
    | none => acc
    | some sel =>
      let t := sel.foldl (fun a m => max a m.inst) new.inst
      if heldOff d (tickLen h.time.tCode) (unitAt h cu).lastFlare t then acc
      else
        let h := { h with
          cap.members := h.cap.members.map fun m =>
            if sel.any (sameFlare m) then { m with consumed := m.consumed ++ [cu] } else m }
        (h, acc.2 ++ [{ unit := cu, inst := t }])

/-- Keeps a candidate list in the order of decision: ascending instants, then units. -/
def candKey (h : Hub) (c : Cand) : Nat := (candInst h c).toNat * 16 + c.unit

/-- Decides candidates in order; the decided flares, oldest first. -/
def decideFuel : Nat → List Cand → List Cand → Hub → Hub × List Cand
  | 0, _, done, h => (h, done)
  | _, [], done, h => (h, done)
  | n + 1, c :: cs, done, h =>
    let d := unitDesc h c.unit
    let t := candInst h c
    let off := fCond d == 5 && heldOff d (tickLen h.time.tCode) (unitAt h c.unit).lastFlare t
    if !fEnable d || off then decideFuel n cs done h
    else
      let u := unitAt h c.unit
      let h := setUnit c.unit { u with lastFlare := some t } h
      let m : Member := { unit := c.unit, inst := t, decided := h.time.op4k }
      let h := { h with cap.members := h.cap.members ++ [m] }
      let r := (List.range 16).foldl (coincide m) (h, [])
      let cs := r.2.foldl (fun l x => insertBy (candKey h) x l) cs
      decideFuel n cs (done ++ [c]) r.1

/-- Decides the flares of a tick and triggers their captures (R151, R158); the decided flares. -/
def decideFlares (cs : List Cand) (h : Hub) : Hub × List Cand :=
  let r := decideFuel (17 * cs.length + 1) (sortBy (candKey h) cs) [] h
  (r.2.foldl (fun h c =>
    ((List.range 8).filter (bitOf (fCaptures (unitDesc h c.unit)))).foldl (triggerDef c.unit (candStamp h c) (candInst h c)) h) r.1, r.2)

/-- Drops member flares of units that a condition selects W + 1 s after their decision (R152). -/
def expireMembers (sel : Nat → Bool) (h : Hub) : Hub :=
  { h with
    cap.members := h.cap.members.filter fun m =>
      !sel m.unit || (List.range 16).any fun cu => keptFor h cu m }

/-- MEMBER_FLARE_EXPIRE (R152). -/
def execMemberFlareExpire (unit : Nat) (s : State) : Out := hubNext s (expireMembers (· == unit) s.hub)

/-! ## Events (R151, R153, R169) -/

/-- Queues an event flare for an enabled unit. -/
def queueEvent (e : EventFlare) (h : Hub) : Hub :=
  if h.cap.events.any fun x => x.unit == e.unit && decide (x.inst = e.inst) then h
  else { h with cap.events := h.cap.events ++ [e] }

/-- The hub takes flare events: it is active; a standby has them from EVENT units (12 R306). In the eclipse state an event waits for its
end, since only its decision is put off (R165). -/
def takesFlares (h : Hub) : Bool := isActive h

/-- TRIG_IN_EDGE (R153). -/
def trigInEdge (rising : Bool) (t : Inst) (h : Hub) : Hub :=
  let st := t / 262144 * 262144
  let ok := match h.cap.lastTrig with | some l => decide (l + us 1 < st) | none => true
  if !takesFlares h || !ok then h
  else
    (List.range 16).foldl (fun h u =>
      if unitOn h u 4 && fBelow (unitDesc h u) != rising then
        queueEvent { unit := u, inst := st, epoch := h.time.epoch, shift := some h.time.shift, due := h.time.tick + 1 } h
      else h) { h with cap.lastTrig := some st }

/-- TRIG_IN_EDGE (R153). -/
def execTrigInEdge (rising : Bool) (dt : Nat) (s : State) : Out :=
  hubNext s (trigInEdge rising (instAt s.hub dt) s.hub)

/-- The TAI tick index of a tick at an instant (06 R129). -/
def tickIndex (tCode : Nat) (i : Inst) : Nat := (i / tickLen tCode).toNat

/-- A SCHEDULE unit raises its event for a tick at an instant (R151), with the shift of the timebase it is read on. -/
def scheduleAt (u tick : Nat) (i shift : Inst) (tCode : Nat) (h : Hub) : Hub :=
  let d := unitDesc h u
  if takesFlares h && unitOn h u 5 && fA d != 0 && tickIndex tCode i % fA d == fB d % fA d then
    queueEvent { unit := u, inst := i, epoch := h.time.epoch, shift := some shift, due := tick + 1 } h
  else h

/-- SCHEDULE_FLARE (R151), for the coming tick: at its instant on the timebase that a step booked for it leaves, by the tick rate it
brings (10 R256). -/
def execScheduleFlare (unit : Nat) (s : State) : Out :=
  let h := s.hub
  hubNext s (scheduleAt unit (h.time.tick + 1) (nextInst h) (h.time.shift + h.time.jump.getD 0)
    (h.time.rateDue.getD (h.time.tCode, h.time.v)).1 h)

/-- A flare message of R168. -/
def flareMessage (origin unit left done seq : Nat) (stamp : Bytes) : Bytes :=
  leNat 4 origin ++ leNat 1 unit ++ leNat 1 left ++ leNat 1 done ++ zeros 1 ++ leNat 4 seq ++ zeros 4 ++ stamp

/-- A REMOTE unit's filter matches a message with its hops counted (R148). -/
def remoteMatch (d : Bytes) (origin unit hops : Nat) : Bool :=
  (fA d == 0 || fA d == origin) && (bitOf (fRef d) 4 || fRef d % 16 == unit) && decide (hops ≤ fC d)

/-- Queues a flare message in its cell (11 R283) on a link that is up; on one that is down it is lost. -/
def putFlare (m : Bytes) (k : Link) : Link :=
  if k.up then
    { k with outQ := updAt k.outQ 1 (· ++ [{ cls := 2, flags := 3, origin := BitVec.ofNat 32 (fieldAt m 0 4), data := m }]) }
  else k

/-- REMOTE units that match a message whose hops, this hub's included, are `done` raise their event (R148, R169). -/
def matchRemote (done : Nat) (msg : Bytes) (h : Hub) : Hub :=
  if !takesFlares h then h
  else
    let st := stampFrom (msg.drop 16)
    (List.range 16).foldl (fun h u =>
      if unitOn h u 6 && remoteMatch (unitDesc h u) (fieldAt msg 0 4) (fieldAt msg 4 1) done then
        { h with cap.events := h.cap.events ++
            [{ unit := u, inst := st.inst / 65536 * 65536, epoch := st.epoch, due := h.time.tick + 1 }] }
      else h) h

/-- Receipt of a flare message on a link: counted, forwarded on the other bond while hops remain, matched (R169). -/
def flareReceipt (link : Nat) (msg : Bytes) (h : Hub) : Hub :=
  if link > 1 || msg.length ≠ 32 then h
  else
    let left := fieldAt msg 5 1
    let done := fieldAt msg 6 1 + 1
    let on := flareMessage (fieldAt msg 0 4) (fieldAt msg 4 1) (left - 1) done (fieldAt msg 8 4) (msg.drop 16)
    matchRemote done msg (if 1 < left then updLink (1 - link) (putFlare on) h else h)

/-- The messages of decided flares leave on both bonds; a standby sends none (R168). -/
def broadcastFlares (cs : List Cand) (h : Hub) : Hub :=
  cs.foldl (fun h c =>
    let d := unitDesc h c.unit
    if fHops d = 0 || !isActive h then h
    else
      let m := flareMessage h.flash.hubId.toNat c.unit (fHops d) 0 h.cap.flareSeq (stampBytes (candStamp h c))
      { updLink 1 (putFlare m) (updLink 0 (putFlare m) h) with cap.flareSeq := (h.cap.flareSeq + 1) % 2 ^ 32 }) h

/-! ## Resets of armed states and time steps (R150, R165) -/

/-- A unit starts as UNKNOWN. -/
def disarm (u : FlareUnit) : FlareUnit := { u with armed := .unknown }

/-- A unit starts as UNKNOWN with the samples of a tick's frame; those of frames before it still meet its present state. -/
def disarmFrom (t : Nat) (u : FlareUnit) : FlareUnit := { u with disarmAt := u.disarmAt ++ [t] }

/-- Units whose source channel is given start as UNKNOWN from a tick on: a change of RATE or mode. -/
def disarmChannel (t c : Nat) (h : Hub) : Hub :=
  (List.range 16).foldl (fun h u =>
    let d := unitDesc h u
    let src := if fSource d = 1 then [fRef d % 1024]
      else if fSource d = 2 then rootChans h.arr.active 1024 (32768 + fRef d % 1024) else []
    if src.contains c then setUnit u (disarmFrom t (unitAt h u)) h else h) h

/-- A place on a grid of one RATE, carried over a tick to the grid of another: as many slots before the tick, at its instants before and
after a step. -/
def rebase (r r' : Nat) (before after g : Inst) : Inst :=
  gridCeil r' after + (g - gridCeil r before) / gridStep r * gridStep r'

/-- A time step disarms the units, and running captures carry STEP (R150, R165). -/
def stepCaptures (h : Hub) : Hub :=
  { h with
    cap.units := h.cap.units.map (disarmFrom h.time.tick)
    cap.defs := h.cap.defs.map fun x => { x with
      caps := x.caps.map fun c => if !c.headerDone && capRuns c h.time.tickInst then { c with stepped := true } else c } }

/-- Captures and REARM intervals keep their slots over a tick, at its instants before and after a step, and over a change of RATE from
what a hub has in force (R165). -/
def moveCaptures (old : Hub) (before after : Inst) (h : Hub) : Hub :=
  { h with cap.defs := mapI (fun d x =>
      let r := dRate (chDesc old (refChan (defDesc old d)))
      let r' := dRate (chDesc h (refChan (defDesc old d)))
      { x with
        rearmFrom := rebase r r' before after x.rearmFrom
        rearmTo := rebase r r' before after (gridCeil r x.rearmTo)
        caps := x.caps.map fun c =>
          let rate := dRate (chDesc h (refChan c.desc))
          { c with trigGrid := rebase c.gridRate rate before after c.trigGrid, gridRate := rate } }) h.cap.defs }

end Sys2Proof.Machine
end

