-- ==== Sys2Proof/Machine/Budget.lean ====
section
/-! DEFINITION. Accepted changes applied to a configuration, and the configuration check of 02 R36 with every check it
includes (14 R339), over every tick from a command's own on (14 R342). -/

namespace Sys2Proof.Machine

/-! ## Changes of the configuration -/

/-- What an accepted item writes into a configuration. -/
def cfgItem (i : Item) (c : Cfg) : Cfg :=
  match i with
  | .chan ch d => { c with chan := setAt c.chan ch d }
  | .group g d => { c with group := setAt c.group g d }
  | .supply lo hi => { c with excMin := lo, excMax := hi }
  | .remap _ _ => c
  | .revive _ => c
  | .time b asym pps => { c with timeBlock := b, asym := asym, ppsDelay := pps }
  | .cal b => { c with cal := b }
  | .flare u d => { c with flare := setAt c.flare u d }
  | .capture k d => { c with capture := setAt c.capture k d }
  | .clearStats _ => c
  | .comp b m => { c with comp := b, map := m }
  | .outlets b => { c with outlets := b }
  | .uplink b => { c with uplink := b }
  | .fault s f => { c with fault := (s, f) :: c.fault.filter (·.1 != s) }
  | .selfMerge m => { c with selfMerge := m }
  | .force _ _ _ => c
  | .loop k e => { c with loop := setAt c.loop k e }
  | .loopV v => { c with loopV := v }

/-- The items of a tick that the configuration store takes: at first light the change of the latest tick counts, so none of a subject that
an accepted change of a later tick has set (14 R344). -/
def storedItems (tick : Nat) (items : List Item) (h : Hub) : List Item :=
  items.filter fun i => !(h.changes.any fun c => decide (tick < c.tick) && sameSubject c.item i)

/-- Accepts items for a tick: in the queue of changes, and in the configuration store at once (14 R344). -/
def acceptItems (tick : Nat) (items : List Item) (h : Hub) : Hub :=
  { schedule tick items h with flash.store := (storedItems tick items h).foldl (fun c i => cfgItem i c) h.flash.store }

/-! ## The configuration in force at a tick (R342) -/

/-- A configuration with the graph, tick rate and verdict window that go with it. -/
structure Plan where
  cfg : Cfg
  tCode : Nat
  v : Nat
deriving DecidableEq, Repr

/-- A tick to come: its number and instant, the instant of the tick after it, the rate, and the TIME_STEP still ahead. -/
structure Clock where
  tick : Nat
  inst : Inst
  next : Inst
  tCode : Nat
  step : Option (Nat × Inst)
deriving DecidableEq, Repr

/-- The latest tick. -/
def clockNow (h : Hub) : Clock :=
  { tick := h.time.tick, inst := h.time.tickInst, next := h.time.tickInst + h.time.frameLen, tCode := h.time.tCode
    step := h.time.step }

/-- The first tick at or after a clock's that reads an instant or later, no step between. -/
def clockReach (b : Inst) (c : Clock) : Clock :=
  if b ≤ c.inst then c
  else
    let l := tickLen c.tCode
    let k := (-((c.next - b) / l)).toNat
    { c with tick := c.tick + 1 + k, inst := c.next + k * l, next := c.next + (k + 1 : Nat) * l }

/-- The first tick that reads an instant or later, the pending TIME_STEP taken on the way (02 R42, 10 R256). -/
def clockTo (b : Inst) (c : Clock) : Clock :=
  let plain := clockReach b c
  match c.step with
  | some (s, d) =>
    if s ≤ plain.tick ∧ c.tick < s then
      let i := c.next + ((s - c.tick - 1 : Nat) : Int) * tickLen c.tCode + d
      clockReach b { c with tick := s, inst := i, next := tickAfterStep c.tCode i, step := none }
    else plain
  | none => plain

/-- Tick, T_CODE and V of each pending CFG_TICK in order of its boundary. -/
def rateTicksFrom (c : Clock) : List (Nat × Nat × Nat) → List (Nat × Nat × Nat)
  | [] => []
  | (b, tc, v) :: xs =>
    let r := clockTo ((b : Int) * secUnits) c
    (r.tick, tc, v) :: rateTicksFrom { r with tCode := tc, next := tickAfterStep tc r.inst } xs

/-- Tick, T_CODE and V of each pending CFG_TICK. -/
def rateTicks (h : Hub) : List (Nat × Nat × Nat) := rateTicksFrom (clockNow h) h.time.newTicks

/-- Slot tables in force at a tick. -/
def slotsAt (h : Hub) (t : Nat) : List (List Nat) :=
  mapI (fun l tab => match (laneAt h l).shadowTable with
    | some (a, new) => if a ≤ t then new else tab
    | none => tab) h.cfg.slots

/-- The configuration in force at a tick, every accepted change included, in the order of their ticks. -/
def planAt (h : Hub) (t : Nat) : Plan :=
  let cfg := (sortBy (·.tick) (h.changes.filter fun c => decide (c.tick ≤ t))).foldl (fun c x => cfgItem x.item c) h.cfg
  let graph := match h.arr.activate with
    | some (gid, a) => if a ≤ t ∧ h.arr.since ≠ a then graphNamed h.arr gid else cfg.graph
    | none => cfg.graph
  let rate := (((rateTicks h).filter fun x => decide (x.1 ≤ t)).getLast?.map (·.2)).getD (h.time.tCode, h.time.v)
  { cfg := { cfg with graph := graph, slots := slotsAt h t }, tCode := rate.1, v := rate.2 }

/-- Ticks after `t0` at which the configuration changes, and `t0`. -/
def planTicks (h : Hub) (t0 : Nat) : List Nat :=
  let more := h.changes.map (·.tick) ++
    (match h.arr.activate with | some (_, a) => [a] | none => []) ++
    (rateTicks h).map (·.1) ++
    h.lanes.filterMap fun l => l.shadowTable.map (·.1)
  t0 :: (more.filter fun t => decide (t0 < t)).eraseDups

/-! ## Load of the heaviest frame (02 R36 to R38, 06 R132) -/

/-- Samples of a channel in its heaviest frame. -/
def maxSlots (p : Plan) (c : Nat) : Nat :=
  let d := (p.cfg.chan.getD c 3).toNat
  if dIdle d then 0 else if isDense (dRate d) p.tCode then slotsPerFrame (dRate d) p.tCode else 1

/-- Sample words of the heaviest frame over some channels. -/
def maxWords (p : Plan) (cs : List Nat) : Nat := sumNat (cs.map (maxSlots p))

/-- All channels. -/
def allChans : List Nat := List.range 512

/-- Samples that each node of a graph takes or forms, in node order. -/
def nodeSamples (p : Plan) (g : Graph) : List Nat :=
  g.nodes.foldl (fun acc d =>
    let one (r : Nat) : Nat := if refNode r then acc.getD (refNum r) 0 else maxSlots p (refNum r)
    acc ++ [if ndKind d = 1 then (((ndRefs d).map one).min?).getD 0 else one (ndRef d 0)]) []

/-- Charge of one node with n samples and its close. -/
def nodeCharge (d : Bytes) (n : Nat) : Nat :=
  512 + (match ndKind d with
    | 1 => (16 + 8 * ndInputs d) * n
    | 2 => 64 * n + 512
    | 3 => 200 * ndNb d * n + 64 * ndNb d
    | 4 => 32 * ndNt d * n + 64 * ndNt d
    | 5 => 512 * n + 4 * (ndRb d * ndMb d)
    | _ => 0) + (if ndEmit d then 2 * entrySize d else 0)

/-- State bytes of a graph (R134). -/
def graphState (g : Graph) : Nat := sumNat (g.nodes.map stateBytes)

/-- The planned work W of a graph in lane-cycles (R132); the empty graph costs nothing (R119). -/
def graphWork (p : Plan) (g : Graph) : Nat :=
  if g.nodes.isEmpty then 0
  else 16384 + sumNat ((g.nodes.zip (nodeSamples p g)).map fun x => nodeCharge x.1 x.2) + graphState g / 4

/-- Capacity C of a frame in lane-cycles. -/
def frameCycles (tCode : Nat) : Nat := 64000000000 / tickHz tCode

/-- Entry bytes of a graph's emitting nodes that a condition selects. -/
def entryBytesOf (g : Graph) (sel : Bytes → Bool) : Nat :=
  sumNat ((g.nodes.filter fun d => ndKind d != 1 && ndEmit d && sel d).map entrySize)

/-- Entry bytes of the heaviest run of V + 1 frames, every period closing at its first (R134). -/
def runBytes (v : Nat) (g : Graph) : Nat :=
  sumNat ((g.nodes.filter fun d => ndKind d != 1 && ndEmit d).map fun d => entrySize d * (v / ndPeriod d + 1))

/-- Packs entry sizes into parts of at most 32,768 bytes; the bytes of each part. -/
def packParts : Nat → List Nat → List Nat
  | acc, [] => if acc = 0 then [] else [acc]
  | acc, n :: ns => if acc + n ≤ 32768 then packParts (acc + n) ns else acc :: packParts n ns

/-- Sizes of the SUMMARY records due in the heaviest frame. -/
def summarySizes (g : Graph) : List Nat :=
  let es := g.nodes.filter fun d => ndKind d != 1 && ndEmit d
  ((es.map ndPeriod).eraseDups).flatMap fun p =>
    (packParts 0 ((es.filter fun d => ndPeriod d == p).map entrySize)).map (· + 68)

/-- Planned size of the FRAME record. -/
def frameSize (p : Plan) : Nat :=
  64 + 4 * maxWords p allChans + 8 * (allChans.filter fun c => decide (0 < maxSlots p c)).length

/-- Enabled capture definitions. -/
def enabledDefs (p : Plan) : List Bytes := p.cfg.capture.filter fun d => !(cChans d).isEmpty

/-- Declared export rates of the enabled STREAM definitions. -/
def exportRates (p : Plan) : List Nat := ((enabledDefs p).filter fun d => !cWindow d).map cExportRate

/-- Planned record bytes of the heaviest frame, times T. -/
def recordBytesT (p : Plan) : Nat :=
  (frameSize p + sumNat (summarySizes p.cfg.graph)) * tickHz p.tCode + sumNat (exportRates p)

/-- Declared RATE of every open window. -/
def windowRates (h : Hub) : Nat := sumNat ((h.windows.filter (·.isOpen)).map (·.rate))

/-- D of R38, times T. -/
def dramT (h : Hub) (p : Plan) : Nat :=
  let t := tickHz p.tCode
  4 * maxWords p allChans * t + 4 * sumNat ((enabledDefs p).map fun d => maxWords p (cChans d)) * t + 2 * recordBytesT p +
    4 * sumNat (((enabledDefs p).filter cPersist).map fun d => maxWords p (cChans d)) * t + windowRates h

/-! ## Lanes (02 R39, 11 R292, 12 R307, 09 R219) -/

/-- Line rate of a KSP rate code in bits per second. -/
def lineRate (code : Nat) : Nat := [1250000000, 3125000000, 6250000000, 12500000000].getD code 0

/-- Cells per slot at a rate. -/
def cellsPerSlot (rate tCode : Nat) : Nat := lineRate rate / (64 * tickHz tCode * 2640)

/-- Entries of a class in a table. -/
def slotCount (p : Plan) (lane cls : Nat) : Nat := ((p.cfg.slots.getD lane []).filter (· == cls)).length

def lMode (d : BitVec 64) : Nat := bitsOf d.toNat 2 0
def lMaxRate (d : BitVec 64) : Nat := bitsOf d.toNat 4 3
def lLoop (d : BitVec 64) : Nat := bitsOf d.toNat 7 5
def lAllowFar (d : BitVec 64) : Bool := bitOf d.toNat 8
def lPrbs (d : BitVec 64) : Bool := bitOf d.toNat 9

/-- Descriptor of a lane in force. -/
def laneDesc (h : Hub) (l : Nat) : BitVec 64 := h.cfg.lane.getD l 0

/-- Lanes of a link. -/
def linkLanes (k : Nat) : List Nat := [[0, 1], [2, 3], [4], [5]].getD k []

/-- The link of a lane. -/
def laneLink (l : Nat) : Nat := if l < 2 then 0 else if l < 4 then 1 else l - 2

/-- The SOURCE of a time block (10 R233). -/
def tbSource (b : BitVec 64) : Nat := bitsOf b.toNat 2 0

/-- The link of the custody direction (01 R21): lane U where CUSTODY is ETH (09 R217), else the link the hub takes its time from,
and lane U on a hub that heads its chain. The spec names no field that sets the direction apart from CUSTODY (log 19). -/
def custodyLink (c : Cfg) : Nat :=
  if bitsOf c.outlets.toNat 1 0 = 1 then 3 else if tbSource c.timeBlock = 1 then 0 else if tbSource c.timeBlock = 2 then 1 else 3

/-- DATA cells per frame of the custody direction. -/
def dataCells (h : Hub) (p : Plan) : Nat :=
  let ls := linkLanes (custodyLink p.cfg)
  let up := ls.filter fun l => (laneAt h l).state == .up
  if up.isEmpty then
    sumNat ((ls.filter fun l => lMode (laneDesc h l) == 1).map fun l =>
      slotCount p l 3 * cellsPerSlot (lMaxRate (laneDesc h l)) p.tCode)
  else sumNat (up.map fun l => slotCount p l 3 * cellsPerSlot ((laneAt h l).rate.getD 0) p.tCode)

/-- Cells or datagrams of the planned records at `n` bytes each. -/
def unitsOf (p : Plan) (n : Nat) : Nat :=
  ceilDiv (frameSize p) n + sumNat ((summarySizes p.cfg.graph).map fun b => ceilDiv b n) +
    sumNat ((exportRates p).map fun r => ceilDiv r (n * tickHz p.tCode))

/-- Shadow cells of the heaviest frame (12 R307). DEDUCED (log 26): a tile without words counts no cell, as the rule's example counts. -/
def shadowCells (p : Plan) : Nat :=
  18 + sumNat ((List.range 4).map fun t =>
    let n := maxWords p (rangeFrom (128 * t) 128)
    if n = 0 then 0 else ceilDiv (32 + 4 * n) 240)

/-! ## Excitation and loops (03 R58, R74) -/

/-- A non-negative fraction. -/
abbrev Frac := Nat × Nat

/-- Sum of fractions. -/
def fracSum (l : List Frac) : Frac := l.foldl (fun a b => (a.1 * b.2 + b.1 * a.2, a.2 * b.2)) (0, 1)

/-- A fraction exceeds a whole number. -/
def fracAbove (f : Frac) (n : Nat) : Bool := decide (n * f.2 < f.1)

/-- Rounded up. -/
def fracCeil (f : Frac) : Nat := ceilDiv f.1 f.2

/-- V_bridge in mV. -/
def bridgeMv (g : Nat) : Nat := [2500, 5000, 10000].getD (gVb g) 0

/-- Channels of a group with SRC_EN = 1. -/
def sources (p : Plan) (g : Nat) : Nat :=
  ((List.range 8).filter fun i => dSrcEn (p.cfg.chan.getD (8 * g + i) 3).toNat).length

/-- Current of a group's excitation in mA. DESIGN CHOICE (log 28): LOAD_DECL is in 0.1 Ω, as the table of 03 R54 has it; the worked
budget of that chapter writes 43.75 Ω as 4,375. -/
def groupMa (p : Plan) (g : Nat) : Frac :=
  let d := (p.cfg.group.getD g 0).toNat
  match gExc d with
  | 1 => (10 * bridgeMv d, max 1 (gLoad d))
  | 2 => (sources p g * 2 * 2 ^ gIiepe d, 1)
  | 3 => (sources p g * 30, 1)
  | _ => (0, 1)

/-- Package dissipation of a group's excitation in mW. -/
def groupMw (p : Plan) (g : Nat) : Frac :=
  let d := (p.cfg.group.getD g 0).toNat
  let vmax := 10 * p.cfg.excMax
  let drop := vmax - (match gExc d with | 1 => bridgeMv d | 2 => 10 * gLoad d | _ => 24000)
  let duty : Frac := if gSwitched d then (gOnLength d * tickHz p.tCode, 1000000) else (1, 1)
  let i := groupMa p g
  (i.1 * drop * duty.1, i.2 * 1000 * duty.2)

/-- EXC_VIN current in mA: continuous terms and the largest sum of switched terms whose on-phases overlap. -/
def excMa (p : Plan) : Frac :=
  let gs := List.range 64
  let d (g : Nat) : Nat := (p.cfg.group.getD g 0).toNat
  let sw := gs.filter fun g => gSwitched (d g)
  let cont := fracSum ((gs.filter fun g => !gSwitched (d g)).map (groupMa p))
  let at_ (s : Nat) : Frac := fracSum ((sw.filter fun g =>
    decide (gOnOffset (d g) ≤ s ∧ s < gOnOffset (d g) + gOnLength (d g))).map (groupMa p))
  let peak := (sw.map fun g => at_ (gOnOffset (d g))).foldl (fun a b => if a.1 * b.2 < b.1 * a.2 then b else a) (0, 1)
  fracSum [cont, peak]

/-- Fields of a loop output entry (14 R367). -/
def loEnable (e : Bytes) : Bool := bitOf (fieldAt e 0 1) 0
def loHigh (e : Bytes) : Bool := bitOf (fieldAt e 0 1) 1
def loWord (e : Bytes) : Nat := fieldAt e 1 1
def loNode (e : Bytes) : Nat := fieldAt e 2 2
def loX4 (e : Bytes) : Nat := fieldAt e 4 4
def loX20 (e : Bytes) : Nat := fieldAt e 8 4
def loRl (e : Bytes) : Nat := fieldAt e 12 2

/-- Loop dissipation in 1/4 µW (R74). -/
def loopUw4 (p : Plan) : Int :=
  (p.cfg.loop.filter loEnable).foldl (fun a e => a + (860 * p.cfg.loopV : Nat) - (1849 * loRl e : Nat)) 0

/-! ## The capture ring (07 R146, R155) -/

/-- Ring bytes that R146 asks for. -/
def ringNeed (p : Plan) : Nat :=
  let rateOf (c : Nat) : Frac :=
    let d := (p.cfg.chan.getD c 3).toNat
    if dIdle d then (0, 1) else (128000, 2 ^ dRate d)
  let perSec := fracSum (allChans.map rateOf)
  (enabledDefs p).foldl (fun m d =>
    let f := rateOf ((cChans d).headD 0)
    let span : Frac := if f.1 = 0 then (1, 1) else (cPre d * f.2 + f.1, f.1)
    max m (fracCeil (4 * perSec.1 * span.1, perSec.2 * span.2))) (64 * 1048576)

/-- Channels of the enabled definitions with PERSIST. -/
def persistChans (p : Plan) : Nat := sumNat (((enabledDefs p).filter cPersist).map fun d => (cChans d).length)

/-! ## The checks (R339) -/

/-- A failing check with demand and limit. -/
abbrev Failure := Nat × Nat × Nat

/-- One check: `over` says that it fails. -/
def check1 (code : Nat) (exceeds : Bool) (demand limit : Nat) : List Failure := if exceeds then [(code, demand, limit)] else []

/-- The checks of one configuration. -/
def planFailures (h : Hub) (p : Plan) : List Failure :=
  let t := tickHz p.tCode
  let w := graphWork p p.cfg.graph
  let wMax := frameCycles p.tCode * (if p.v = 4 then 20 else 25) / 100
  let d := dramT h p
  let mw := fracSum ((List.range 64).map (groupMw p))
  let ma := excMa p
  let loop := loopUw4 p
  let ring := ringBytes p.cfg.captureMib p.cfg.capture
  let run := runBytes p.v p.cfg.graph
  check1 1 (decide (wMax < w)) w wMax ++
    check1 2 (decide (12800000000 < d)) (ceilDiv d t) (12800000000 / t) ++
    (match bitsOf p.cfg.outlets.toNat 1 0 with
      | 0 => check1 3 (decide (dataCells h p < unitsOf p 240)) (unitsOf p 240) (dataCells h p)
      | 1 =>
        let rate := if lMode (laneDesc h 5) = 2 then 1000000000 else 10000000000
        let line := 1522 * unitsOf p 1440
        check1 12 (decide (rate < line * 16 * t)) line (rate / (16 * t))
      | _ =>
        let b := recordBytesT p
        let lim := 6000000 * bitsOf p.cfg.outlets.toNat 7 2
        check1 14 (decide (lim < 16 * b)) (ceilDiv b t) (lim / (16 * t))) ++
    check1 4 (fracAbove mw 5000) (fracCeil mw) 5000 ++ check1 5 (fracAbove ma 1500) (fracCeil ma) 1500 ++
    check1 6 (decide (6000000 < loop)) (ceilDiv loop.toNat 4000) 1500 ++
    check1 7 (decide (ring < ringNeed p)) (ringNeed p) ring.toNat ++
    check1 8 (decide (512 < persistChans p)) (persistChans p) 512 ++
    check1 9 (decide (655360 < graphState p.cfg.graph)) (graphState p.cfg.graph) 655360 ++
    check1 10 (decide (393216 < run)) run 393216 ++
    (if (laneAt h 4).state == .up then
      let cap := slotCount p 4 5 * cellsPerSlot ((laneAt h 4).rate.getD 0) p.tCode
      check1 11 (decide (cap < 2 * shadowCells p)) (shadowCells p) (cap / 2)
    else [])

/-- The check of R42 around a change of rate or V at tick b. -/
def rateFailures (h : Hub) (b : Nat) : List Failure :=
  let vOld := (planAt h (b - 1)).v
  let vNew := (planAt h b).v
  let work (f : Nat) : Nat := let p := planAt h f; graphWork p p.cfg.graph
  (rangeFrom (b - vOld) (vOld + vNew + 1)).flatMap fun t =>
    let back := (rangeFrom (t - 4) 4).filter fun f =>
      decide (f < t) && decide (t ≤ f + (if f < b then vOld else vNew))
    let sum := sumNat (back.map work) + work t
    let cap := frameCycles (planAt h t).tCode
    check1 1 (decide (cap < sum)) sum cap

/-- A clock moved on to a tick, at its rate and over the step that still lies ahead of it. -/
def clockOn (t : Nat) (c : Clock) : Clock :=
  let plain (t : Nat) (c : Clock) : Clock :=
    if t ≤ c.tick then c
    else
      let l := tickLen c.tCode
      { c with tick := t, inst := c.next + ((t - c.tick - 1 : Nat) : Int) * l, next := c.next + ((t - c.tick : Nat) : Int) * l }
  match c.step with
  | some (s, d) =>
    if s ≤ t ∧ c.tick < s then
      let x := plain s c
      plain t { x with inst := x.inst + d, next := tickAfterStep c.tCode (x.inst + d), step := none }
    else plain t c
  | none => plain t c

/-- The clock at a tick to come, every pending change of rate and step before it taken on the way. -/
def clockAt (h : Hub) (t : Nat) : Clock :=
  clockOn t (((rateTicks h).filter fun x => decide (x.1 ≤ t)).foldl (fun c x =>
    let y := clockOn x.1 c
    { y with tCode := x.2.1, next := tickAfterStep x.2.1 y.inst }) (clockNow h))

/-- Every open period closes at a tick: an activation at tick a, a change of rate, a step. -/
def closesAll (h : Hub) (a t : Nat) : Bool :=
  t == a || (rateTicks h).any (·.1 == t) || (match h.time.step with | some (s, _) => s == t | none => false)

/-- The close at a tick, taken around an activation at tick a: whether every open period closes there, and the TAI tick index. One that
has been laid down stands as it was (06 R129); of one before the marks the index counts back from the latest tick. -/
def closeAt (h : Hub) (a t : Nat) : Bool × Int :=
  match h.arr.marks.find? (·.tick == t) with
  | some m => (m.trunc || m.step, m.index)
  | none =>
    if t ≤ h.time.tick then (closesAll h a t, (tickIndex h.time.tCode h.time.tickInst : Int) - (h.time.tick - t : Nat))
    else let c := clockAt h t; (closesAll h a t, tickIndex c.tCode c.inst)

/-- Entry bytes of frame f around an activation at tick a: those of the graph that closes periods in it (R134). -/
def frameEntryBytes (h : Hub) (old new : Graph) (a f : Nat) : Nat :=
  let g := if f < a then old else new
  let c := closeAt h a (f + 1)
  entryBytesOf g fun d => c.1 || c.2 % (ndPeriod d : Nat) == 0

/-- The check of R134 around an activation at tick a: every run of V + 1 frames, V being that of its first frame, that contains
frame a − 1 or frame a. -/
def activationFailures (h : Hub) (a : Nat) : List Failure :=
  let old := (planAt h (a - 1)).cfg.graph
  let new := (planAt h a).cfg.graph
  (rangeFrom (a - 5) 6).flatMap fun s =>
    let v := (planAt h s).v
    let sum := sumNat ((rangeFrom s (v + 1)).map (frameEntryBytes h old new a))
    check1 10 (decide (a ≤ s + v + 1 ∧ s ≤ a) && decide (393216 < sum)) sum 393216

/-- The lowest failing check among some. -/
def worst (fs : List Failure) : Option Failure :=
  fs.foldl (fun a f => match a with | some x => if f.1 < x.1 then some f else some x | none => some f) none

/-- R36 on the configuration that results, at every tick from a command's own (R342). DESIGN CHOICE (log 28): R42 states its sums
for the check of CFG_TICK; while a CFG_TICK is pending the model refuses a later configuration command by those sums too. -/
def budgetFault (h : Hub) (t0 : Nat) : Option Failure :=
  worst (((planTicks h t0).flatMap fun t => planFailures h (planAt h t)) ++
    (rateTicks h).flatMap fun x => rateFailures h x.1)

/-- Refuses with REFUSED_BUDGET where a check fails. -/
def needBudget (f : Option Failure) : Chk :=
  match f with
  | none => .ok ()
  | some (c, d, l) => .error (refuseBudget c d l)

end Sys2Proof.Machine
end

