-- ==== Sys2Proof/Machine/Cal.lean ====
section
/-! DEFINITION. Self-calibration runs and turns, handovers, system calibration arithmetic, housekeeping conversions
(chapter 05). -/

namespace Sys2Proof.Machine

/-! ## Parameters (R103) -/

def calDeltaT (h : Hub) : Nat := bitsOf h.cfg.cal.toNat 7 0
def calInterval (h : Hub) : Nat := bitsOf h.cfg.cal.toNat 15 8
def calAgreeTol (h : Hub) : Nat := bitsOf h.cfg.cal.toNat 25 16
def calRotate (h : Hub) : Bool := bitOf h.cfg.cal.toNat 31
def calOverlapTol (h : Hub) : Nat := bitsOf h.cfg.cal.toNat 47 32
def calSysTol (h : Hub) : Nat := bitsOf h.cfg.cal.toNat 63 48

/-! ## Coefficients of a run (R98, R99) -/

/-- The result of one range of a run: coefficients, agreement and residual in 0.1 ppm, and RESULT. -/
structure RunOut where
  o : Int
  g : Nat
  agreement : Nat
  residual : Nat
  result : Nat
deriving DecidableEq, Repr

/-- The mean of chain outputs in 2^-32, rounded by R80. -/
def meanOut (l : List Int) : Int := roundEven (l.foldl (· + ·) 0) (max 1 l.length)

/-- MOD periods of one range of a run, 40 ms (R97). -/
def rangeBits : Nat := 655360

/-- The outputs that the six measurements of a range average, of those of its 40 ms: 160 each, from 1 ms after the start of its
phase, the phases of 6 ms following one another from 2 ms on (R97). -/
def phaseOutputs (ys : List Int) : List (List Int) := (List.range 6).map fun p => (ys.drop (96 + 192 * p)).take 160

/-- The outputs of a run, range by range, from its front end's bits of each range, the last bit being that of MOD edge `e`: the
calibration chain runs response 6 at rate code 2 (04 R78). -/
def calOutputs (e : Int) : List (List Bool) → Chain → List (List (List Int)) × Chain
  | [], c => ([], c)
  | b :: bs, c =>
    let x := chainOuts (e - (rangeBits * bs.length : Nat)) 2 6 b c
    let rest := calOutputs e bs x.1
    (phaseOutputs x.2 :: rest.1, rest.2)

/-- 10^7 × num / den, saturating at 65,535: a figure in 0.1 ppm. -/
def tenthPpm (num den : Nat) : Nat := if den = 0 then 65535 else min 65535 (roundEven ((10000000 * num : Nat) : Int) den).toNat

/-- A quotient of whole numbers rounded by R80. -/
def roundQuot (n d : Int) : Int := roundEven (n * d.sign) d.natAbs

/-- One range from its six means and the level factor k in 2.30: p = 0.675 k, o_i = Z_i, g_i = (4/3)(p − q)/(P_i − Q_i). DESIGN
CHOICE (log 28): where P_i = Q_i, or the two gains cancel, R98 divides by zero and states no figures; the run then disagrees and
both figures saturate. -/
def runRange (k tol : Nat) (m : List Int) : RunOut :=
  let z1 := m.getD 0 0
  let z2 := m.getD 3 0
  let d1 := m.getD 1 0 - m.getD 2 0
  let d2 := m.getD 4 0 - m.getD 5 0
  let g := if d1 = 0 ∨ d2 = 0 then 0 else roundQuot (2 ^ 30 * 18 * (k : Int) * (d1 + d2)) (5 * d1 * d2)
  if g = 0 then { o := 0, g := 0, agreement := 65535, residual := 65535, result := 1 }
  else
    let o := roundEven (z1 + z2) 2
    -- g_s × |o_1 − o_2| = g·|z1 − z2| / 2^62;  |g_1 − g_2| / g_s = 36k|d2 − d1|·2^30 / (5·|d1·d2|·g); neither exceeds 0 for g < 0
    let pos := g.toNat
    let a1 : Nat × Nat := (pos * (z1 - z2).natAbs, 2 ^ 62)
    let a2 : Nat × Nat := if 0 < g then (36 * k * (d2 - d1).natAbs * 2 ^ 30, 5 * (d1 * d2).natAbs * pos) else (0, 1)
    let a := if a1.1 * a2.2 < a2.1 * a1.2 then a2 else a1
    let resid (x : Int) (s : Int) : Nat := (10 * g * (x - o) - s * 9 * k * 2 ^ 32).natAbs
    let worst := ((m.zip [0, 1, -1, 0, 1, -1]).map fun y => resid y.1 y.2).foldl max 0
    let agrees := decide (1000000 * a.1 ≤ tol * a.2)
    let inLimit := decide (4 * 97 * 2 ^ 30 ≤ 300 * g ∧ 300 * g ≤ 4 * 103 * 2 ^ 30 ∧ 50 * o.natAbs ≤ 2 ^ 32)
    { o := o, g := pos, agreement := tenthPpm a.1 a.2, residual := tenthPpm worst (10 * 2 ^ 62)
      result := if !agrees then 1 else if !inLimit then 2 else 0 }

/-! ## When a front end is due (R102, R104) -/

/-- A front end's group and place in it; place 8 is the spare. -/
def feGroup (fe : Nat) : Nat := fe / 9
def feSlot (fe : Nat) : Nat := fe % 9
/-- A channel's own front end, and a group's spare. -/
def ownFe (c : Nat) : Nat := c / 8 * 9 + c % 8
def spareFe (g : Nat) : Nat := 9 * g + 8

/-- Measuring channels of a group. -/
def groupMeasuring (h : Hub) (g : Nat) : List Nat := (rangeFrom (8 * g) 8).filter (measuring h)

/-- Ranges a channel's descriptor may use. -/
def rangesOf (d : Nat) : List Nat := if dArEn d then rangeFrom (dArLo d) (dArHi d + 1 - dArLo d) else [dRange d]

/-- The channel a group's spare serves by a remap (R52). -/
def remappedIn (h : Hub) (g : Nat) : Option Nat := (rangeFrom (8 * g) 8).find? fun c => (chanAt h c).remapped

/-- Modes and ranges of channels, by mode. -/
def usesOf (h : Hub) (cs : List Nat) : List (Nat × List Nat) :=
  [0, 1, 2].filterMap fun m =>
    match cs.filter fun c => dMode (chDesc h c) == m with
    | [] => none
    | l => some (m, sortBy id (l.flatMap fun c => rangesOf (chDesc h c)).eraseDups)

/-- Modes and ranges a front end may use (R102): those of its channel, or for a spare those of every measuring channel of its
group, whether or not a remap stands. -/
def feUses (h : Hub) (fe : Nat) : List (Nat × List Nat) :=
  if feSlot fe < 8 then usesOf h ([8 * feGroup fe + feSlot fe].filter (measuring h)) else usesOf h (groupMeasuring h (feGroup fe))

/-- The front end that serves a channel outside a turn: the spare under a remap, else its own (R52). -/
def homeFe (h : Hub) (c : Nat) : Nat := if (chanAt h c).remapped then spareFe (c / 8) else ownFe c

/-- The channel that a run of a front end takes off its pair: its own, none for one whose channel is remapped, and for a spare the
channel it serves by a remap. -/
def feChannel (h : Hub) (fe : Nat) : Option Nat :=
  if feSlot fe < 8 then
    let c := 8 * feGroup fe + feSlot fe
    if (chanAt h c).remapped then none else some c
  else remappedIn h (feGroup fe)

/-- Mean of the last 128 readings of a tile's temperature. DESIGN CHOICE (log 28): with fewer readings, that of those there are,
and 0 °C with none, which triggers nothing. -/
def meanTemp (h : Hub) (t : Nat) : Int :=
  let l := (tileAt h t).temps
  roundEven (l.foldl (· + ·) 0) (max 1 l.length)

/-- The class in which a front end is due in ranges of a mode, the first served first: 3 command, 1 temperature, 2 interval, 0 a
first-light run that was not accepted (R102, R104). -/
def dueIn (h : Hub) (fe mode : Nat) (ranges : List Nat) : Option Nat :=
  let f := feAt h fe
  let last (r : Nat) : Option FeCoef := f.coefs.find? fun c => c.mode == mode && c.range == r
  let again (g : Nat) : Bool := f.due.any fun x => x.1 == mode && ranges.contains x.2.1 && x.2.2 == g
  let temp := calRotate h && !(tileAt h (tileOfFe fe)).temps.isEmpty && ranges.any fun r => match last r with
    | some c => decide ((10 * calDeltaT h : Nat) < ((meanTemp h (tileOfFe fe)) - c.temp).natAbs)
    | none => false
  let age := calRotate h && ranges.any fun r => match last r with
    | some c => decide (c.opSeconds + 3600 * calInterval h ≤ opSeconds h)
    | none => decide (h.power.lightOp + 3600 * calInterval h ≤ opSeconds h)
  if again 3 then some 3 else if temp || again 1 then some 1 else if age || again 2 then some 2
  else if again 0 then some 0 else none

/-- What a front end is due for: class, mode and ranges. -/
def dueFor (h : Hub) (fe : Nat) : Option (Nat × Nat × List Nat) :=
  let f := feAt h fe
  let waits := match f.retryAt with | some t => decide (h.time.op4k < t) | none => false
  if waits || f.permFault then none
  else
    let uses := feUses h fe
    [3, 1, 2, 0].findSome? fun g => (uses.find? fun u => dueIn h fe u.1 u.2 == some g).map fun u => (g, u)

/-- The channel that a front end's run would take off its pair has an open system calibration window. -/
def windowOpen (h : Hub) (fe : Nat) : Bool :=
  match (feChannel h fe).bind fun c => (chanAt h c).calWin with
  | some w => decide (w.openTick ≤ h.time.tick)
  | none => false

/-- The spare is taking or giving back a pair by a remap's overlap. -/
def spareMoving (h : Hub) (g : Nat) : Bool := (rangeFrom (8 * g) 8).any fun c => (chanAt h c).handover.isSome

/-- A front end could start its turn: no system calibration window on its channel, and its spare is not in a handover. -/
def canTurn (h : Hub) (fe : Nat) : Bool := !windowOpen h fe && !spareMoving h (feGroup fe)

/-- The due front end a tile serves next, with class, mode and ranges: by class, then in ascending order. DESIGN CHOICE (log 28): R104
gives no class to a front end that is due because its first-light run was not accepted (R110): the model serves it last. -/
def nextDue (h : Hub) (t : Nat) : Option (Nat × Nat × Nat × List Nat) :=
  let due := ((rangeFrom (144 * t) 144).filter (canTurn h)).filterMap fun fe => (dueFor h fe).map fun g => (fe, g)
  [3, 1, 2, 0].findSome? fun g => due.find? (·.2.1 == g)

/-! ## The spare (R52, R108, 15 R371) -/

/-- The group's spare can be taken for a channel: not bound to another channel by a remap, its handover or a REMAP that waits, not
lost, not barred, its switch sound. -/
def spareFree (h : Hub) (c : Nat) : Bool :=
  let g := groupAt h (c / 8)
  !g.spareLost && !g.sparePath && !g.badSwitch.contains c && !(feAt h (spareFe (c / 8))).permFault &&
    (rangeFrom (c / 8 * 8) 8).all fun x =>
      x == c || (!(chanAt h x).remapped && (chanAt h x).handover.isNone && !(chanAt h x).remapDue)

/-- The spare's last run for a mode and range was not accepted; one that was abandoned (R109) says nothing against it. -/
def spareRefused (h : Hub) (g mode range : Nat) : Bool :=
  match (feAt h (spareFe g)).quality.find? fun q => q.mode == mode && q.range == range with
  | some q => q.result == 1 || q.result == 2 || q.result == 4
  | none => false

/-- The spare is usable for a channel by R108. -/
def spareUsable (h : Hub) (c : Nat) : Bool :=
  spareFree h c && (rangesOf (chDesc h c)).all fun r => !spareRefused h (c / 8) (dMode (chDesc h c)) r

/-- The spare has accepted coefficients for every range of a channel. -/
def spareReady (h : Hub) (c : Nat) : Bool :=
  (rangesOf (chDesc h c)).all fun r =>
    (feAt h (spareFe (c / 8))).coefs.any fun x => x.mode == dMode (chDesc h c) && x.range == r

/-- t_hold of a mode and range in µs (R107, R108). -/
def holdUs (mode range : Nat) : Nat :=
  if mode = 0 then 20 else if mode = 1 then [25, 25, 50, 100, 250].getD range 25 else 25

/-- Connects a channel's pair; in SPARE and OVERLAP the group's spare holds it (03 R50, R51). -/
def connect (c : Nat) (p : PairConn) (fe : Option Nat) (h : Hub) : Hub :=
  let takes := p == .spare || p == .overlap
  updGroup (c / 8) (fun g => { g with
      spareOn := if takes then some c else if g.spareOn == some c then none else g.spareOn })
    (updChan c (fun x => { x with pair := p, fe := fe }) h)

/-- Connects a channel's pair to its own front end and the spare, the chain fed by its own (04 R78). -/
def overlap (c : Nat) (h : Hub) : Hub := connect c .overlap (some (ownFe c)) h

/-- Connects a channel's pair to the front end that serves it: the spare under a remap, else its own. -/
def rejoin (c : Nat) (h : Hub) : Hub :=
  connect c (if (chanAt h c).remapped then .spare else .bound) (some (homeFe h c)) h

/-- Adds a hold interval of a channel (R107, R108). -/
def addHold (c : Nat) (start stop : Inst) (h : Hub) : Hub :=
  updChan c (fun x => { x with holds := x.holds ++ [{ start := start, stop := stop }] }) h

/-- Moves the end of a channel's latest hold interval. -/
def endHold (c : Nat) (stop : Inst) (h : Hub) : Hub :=
  updChan c (fun x => { x with holds := updAt x.holds (x.holds.length - 1) fun k => { k with stop := stop } }) h

/-- A break-before-make handover at an instant: the pair moves, with the hold interval of R107. -/
def breakMake (c : Nat) (toSpare : Bool) (t : Inst) (h : Hub) : Hub :=
  let hold := us (holdUs (dMode (chDesc h c)) (chanAt h c).rangeNow)
  connect c (if toSpare then .spare else .bound) (some (if toSpare then spareFe (c / 8) else ownFe c))
    (addHold c t (t + hold) h)

/-! ## Turns (R104 to R109) -/

/-- Ends a tile's turn. -/
def endTurn (t : Nat) (h : Hub) : Hub := updTile t (fun x => { x with turn := none }) h

/-- Sets the step of a tile's turn. -/
def setStep (t : Nat) (f : Turn → Turn) (h : Hub) : Hub := updTile t (fun x => { x with turn := x.turn.map f }) h

/-- A standby whose front ends calibrate: its pairs are isolated, so no rotation takes place (12 R294). -/
def calibratesIdle (h : Hub) : Bool := isUp h && h.pair.paired && !isActive h && !inEclipse h && runsInFull h

/-- The turn of a front end that is due in a class, mode and ranges. A spare that serves a remapped channel takes that channel's
pair off for its run, and a channel whose spare is not usable calibrates alone (R108). On a standby every front end's turn is its
own run, and so is that of a front end whose channel is remapped. -/
def turnFor (h : Hub) (fe : Nat) (due : Nat × Nat × List Nat) : Turn :=
  let g := feGroup fe
  let c := 8 * g + feSlot fe
  let u : Turn := { ch := 512 + g, step := .spareRun, fe := fe, mode := due.2.1, ranges := due.2.2, trigger := due.1 }
  if calibratesIdle h then u
  else if feSlot fe = 8 then
    match remappedIn h g with
    | some c => { u with ch := c, step := .aloneRun }
    | none => u
  else if (chanAt h c).remapped then u
  else if spareUsable h c && (groupAt h g).spareOn.isNone then { u with ch := c, fe := spareFe g }
  else { u with ch := c, step := .aloneRun }

/-- The spare's run that a REMAP waits for, once the spare is free of other pairs (15 R377). DESIGN CHOICE (log 28): TRIGGER of R101 has
no code for it, and the model records 3, command. -/
def remapTurn (h : Hub) (t : Nat) : Option Turn :=
  ((rangeFrom (128 * t) 128).find? fun c =>
      (chanAt h c).remapDue && !spareReady h c && (groupAt h (c / 8)).spareOn.isNone).map fun c =>
    { ch := c, step := .spareRun, fe := spareFe (c / 8), mode := dMode (chDesc h c), ranges := rangesOf (chDesc h c)
      trigger := 3, remap := true }

/-- The turn whose run starts next on a tile: the present one where its run has not started, else the next due one. -/
def turnToStart (h : Hub) (t : Nat) : Option Turn :=
  match (tileAt h t).turn with
  | some u =>
    if u.startTick.isSome then none
    else match u.step with
      | .spareRun | .ownRun | .aloneRun => some u
      | _ => none
  | none =>
    match remapTurn h t with
    | some u => some u
    | none => (nextDue h t).map fun x => turnFor h x.1 x.2

/-- The queue of urgent conversions with a request, merged with one queued for the same source and SUB; requests of the collector stand
ahead of all others (R117). -/
def urgentQueue (source sub : Nat) (collector calibration : Bool) (q : List Urgent) : List Urgent :=
  let q := if q.any fun u => u.source == source && u.sub == sub then
      q.map fun u => if u.source == source && u.sub == sub then
        { u with collector := u.collector || collector, calibration := u.calibration || calibration } else u
    else if q.length < 8 then q ++ [⟨source, sub, collector, calibration⟩]
    else q
  q.filter (·.collector) ++ q.filter (!·.collector)

/-- Requests an urgent conversion (R117). -/
def urgent (source sub : Nat) (collector calibration : Bool) (h : Hub) : Hub :=
  { h with hk.urgent := urgentQueue source sub collector calibration h.hk.urgent }

/-- Writes quality entries of a run. -/
def writeQuality (fe : Nat) (qs : List Quality) (h : Hub) : Hub :=
  updFe fe (fun f => { f with
    quality := f.quality.filter (fun q => !qs.any fun p => p.mode == q.mode && p.range == q.range) ++ qs }) h

/-- Quality entries with one RESULT for every range of a turn's run. -/
def runQuality (h : Hub) (u : Turn) (result : Nat) : List Quality :=
  u.ranges.map fun r =>
    { mode := u.mode, range := r, result := result, trigger := u.trigger, temp := meanTemp h (tileOfFe u.fe)
      opSeconds := opSeconds h }

/-- The end of the hold of a channel that calibrates alone, after its run (R108). -/
def aloneHold (h : Hub) (c : Nat) : Inst :=
  let d := chDesc h c
  let g := grDesc h (c / 8)
  let src := dSrcEn d && (gExc g == 2 || gExc g == 3)
  us (holdUs (dMode d) (chanAt h c).rangeNow) +
    (if src then us ((if gExc g == 2 then 200000 else 50000) + 1000 * dSettle d) else 0)

/-- The pair returns to the own front end after a turn that did not finish or a run of its own. -/
def beginReturn (t c : Nat) (h : Hub) : Hub :=
  if dMode (chDesc h c) = 0 then
    setStep t (fun u => { u with step := .overlapReturn, startTick := none }) (overlap c h)
  else setStep t (fun u => { u with step := .handReturn, startTick := none }) h

/-- A channel's source is on as configured (03 R50, R53). -/
def sourceWanted (h : Hub) (c : Nat) : Bool :=
  measures h && remains h c && dSrcEn (chDesc h c) && (gExc (grDesc h (c / 8)) == 2 || gExc (grDesc h (c / 8)) == 3)

/-- A channel's source is as configured again. -/
def sourceBack (c : Nat) (h : Hub) : Hub := updChan c (fun x => { x with sourceOn := sourceWanted h c }) h

/-- A channel that calibrated alone measures again: its source is as configured, its hold ends after the terms of R108. -/
def aloneEnd (t c : Nat) (h : Hub) : Hub :=
  endTurn t (rejoin c (sourceBack c (endHold c (h.time.tickInst + aloneHold h c) h)))

/-- A channel's turn ends at an instant: a run in progress is abandoned and the old coefficients stand; the pair returns with no
overlap test and no hold interval; coefficients accepted before the return stand with their record (R109). -/
def abandonTurn (c : Nat) (at_ : Inst) (h : Hub) : Hub :=
  let t := tileOfCh c
  match (tileAt h t).turn with
  | none => h
  | some u =>
    if u.ch ≠ c then h
    else
      let h := if u.startTick.isSome then writeQuality u.fe (runQuality h u 3) h else h
      let h := u.accepted.foldl (fun h d => jChange 0x3001 d h) (endTurn t h)
      match u.step with
      | .spareRun => h
      | .aloneRun => if u.startTick.isSome then rejoin c (sourceBack c (endHold c at_ h)) else h
      | _ => connect c .bound (some (ownFe c)) (updChan c (fun x => { x with pairDue := none }) h)

/-! ## The path check (R118) -/

/-- The conversions of the path check of one range, in order: the reference, the DAC at zero, +0.9 FS and −0.9 FS, and the spare
monitor at the three levels in a spare's run. -/
def pathChunk (t : Nat) (u : Turn) : List (Nat × Nat) :=
  (40 + t, 0) :: List.replicate 3 (36 + t, 0) ++
    if feSlot u.fe = 8 then List.replicate 3 (44 + t, feGroup u.fe % 16) else []

/-- The conversions of a run's path checks: one check in the first 2 ms of each range's 40 ms (R97). -/
def pathSources (t : Nat) (u : Turn) : List (Nat × Nat) := u.ranges.flatMap fun _ => pathChunk t u

/-- The readings of range number i of a run so far. -/
def pathOf (t : Nat) (u : Turn) (i : Nat) : List Int :=
  (u.path.drop (i * (pathChunk t u).length)).take (pathChunk t u).length

/-- The range number whose check the next reading belongs to. -/
def pathRange (t : Nat) (u : Turn) : Nat := u.path.length / (pathChunk t u).length

/-- The reference lies more than 0.2 % from its factory value, or a DAC level more than 0.1 % of its span from the level computed
from the measured reference; readings in µV. -/
def pathFails (t mode range : Nat) (path : List Int) : Bool :=
  let ref := path.getD 0 0
  let factory := (Config.tileReference t).toNat
  let level (i : Nat) : Int := (Config.dacLevel t mode range i ref).toInt
  decide (2 * factory < 1000 * (ref - factory).natAbs) ||
    (List.range 3).any fun i =>
      decide ((level 1 - level 2).natAbs < 1000 * (path.getD (1 + i) 0 - level i).natAbs)

/-- The spare monitor lies more than 0.5 % of the ±2.4 V full scale from its expected level. -/
def spareFails (t mode range : Nat) (path : List Int) : Bool :=
  (List.range 3).any fun i =>
    decide (12000 < (path.getD (4 + i) 0 - (Config.spareLevel t mode range i (path.getD 0 0)).toInt).natAbs)

/-- A run is abandoned because the test-voltage path failed (R118). -/
def abandonPath (t : Nat) (u : Turn) (h : Hub) : Hub :=
  let h := writeQuality u.fe (runQuality h u 4) h
  let h := raiseNow (tileBase t + 9) 0 0 0 (updTile t (fun x => { x with holdUntil := some (h.time.op4k + 240000) }) h)
  match u.step with
  | .ownRun => beginReturn t u.ch h
  | .aloneRun => aloneEnd t u.ch h
  | _ => endTurn t h

/-- The spare's monitor levels of a range are known: SPARE_PATH is raised, or the last range of a run that passes clears it. -/
def noteSparePath (t g : Nat) (bad last : Bool) (h : Hub) : Hub :=
  if bad then raiseNow (tileBase t + 8) g 0 0 (updGroup g (fun x => { x with sparePath := true }) h)
  else if last then updGroup g (fun x => { x with sparePath := false }) h
  else h

/-- The spare's monitor fails in a range number of a run. -/
def spareFailsAt (t : Nat) (u : Turn) (i : Nat) : Bool := spareFails t u.mode (u.ranges.getD i 0) (pathOf t u i)

/-- A conversion of a run's path check is complete: the next one of its range is requested, or what the check shows follows. -/
def pathReading (t : Nat) (v : Int) (u : Turn) (h : Hub) : Hub :=
  let i := pathRange t u
  let u := { u with path := u.path ++ [v] }
  let h := setStep t (fun x => { x with path := u.path }) h
  let path := pathOf t u i
  if path.length = 4 && pathFails t u.mode (u.ranges.getD i 0) path then abandonPath t u h
  else
    match (pathChunk t u)[path.length]? with
    | some x => urgent x.1 x.2 false true h
    | none =>
      if feSlot u.fe = 8 then
        noteSparePath t (feGroup u.fe) (spareFailsAt t u i)
          (i + 1 == u.ranges.length && !(List.range u.ranges.length).any (spareFailsAt t u)) h
      else h

/-- The check of a range number of the run in progress begins at the range's own 40 ms (R97): its reference is asked for, until it is
read. -/
def pathTick (t : Nat) (h : Hub) : Hub :=
  match (tileAt h t).turn with
  | some u =>
    let i := pathRange t u
    if u.startTick.isSome && i < u.ranges.length && u.path.length == i * (pathChunk t u).length &&
        decide (u.endOp ≤ h.time.op4k + 160 * (u.ranges.length - i)) then
      urgent (40 + t) 0 false true h
    else h
  | none => h

/-- The path check of a run is complete. -/
def pathDone (t : Nat) (u : Turn) : Bool := u.path.length == (pathSources t u).length

/-! ## Runs (R97, R104) -/

/-- SWITCH_FAULT: a switch of the pair failed the continuity check of a swap (15 R371). -/
def switchFault (c : Nat) (h : Hub) : Hub := raiseNow (tileBase (tileOfCh c) + 0xA) c 0 0 h

/-- The start of a run: its first urgent conversion, and the isolation of a channel that calibrates alone. -/
def runStart (t : Nat) (u : Turn) (h : Hub) : Hub :=
  let u := { u with startTick := some h.time.tick, endOp := h.time.op4k + 160 * u.ranges.length, path := [] }
  let h := urgent (40 + t) 0 false true (updTile t (fun x => { x with turn := some u, holdUntil := none }) h)
  if u.step == .aloneRun then
    connect u.ch .isolated none (updChan u.ch (fun x => { x with sourceOn := false })
      (addHold u.ch h.time.tickInst (h.time.tickInst + us 40000 * u.ranges.length + aloneHold h u.ch) h))
  else h

/-- A tile may start a run: the hub measures or stands by, no TESTDAC_PATH hold, and the source is not permanent. -/
def mayRun (h : Hub) (t : Nat) : Bool :=
  (measures h || calibratesIdle h) && decide (t < 4) && !(tileAt h t).pathPerm && !declared h (tileBase t + 9) 0 &&
    match (tileAt h t).holdUntil with | some e => decide (e ≤ h.time.op4k) | none => true

/-- CAL_RUN_START (R104): the run starts, and a switch that fails its check as a channel is isolated is raised (R108). -/
def execCalRunStart (tile : Nat) (switchOk : Bool) (s : State) : Out :=
  hubNext s (if mayRun s.hub tile then
      match turnToStart s.hub tile with
      | some u =>
        let h := runStart tile u s.hub
        if u.step == .aloneRun && !switchOk then switchFault u.ch h else h
      | none => s.hub
    else s.hub)

/-- DETAIL of CAL_SELF_ACCEPTED: front end, mode, range, agreement in 0.1 ppm (R100). -/
def acceptedDetail (fe : Nat) (q : Quality) : Bytes :=
  leNat 2 fe ++ leNat 1 q.mode ++ leNat 1 q.range ++ leNat 2 q.agreement

/-- Stores accepted coefficients of a front end, which is no longer due in their ranges; those they replace are kept for R106. -/
def acceptCoefs (fe : Nat) (cs : List FeCoef) (h : Hub) : Hub :=
  updFe fe (fun f => { f with
    before := f.coefs
    coefs := f.coefs.filter (fun c => !cs.any fun x => x.mode == c.mode && x.range == c.range) ++ cs
    due := f.due.filter (fun d => !cs.any fun x => x.mode == d.1 && x.range == d.2.1)
    retryAt := none }) h

/-- A front end stays due in ranges whose run was not accepted, in the class of that run, and is retried no sooner than 10 s later
(R99). -/
def stayDue (fe mode trigger : Nat) (ranges : List Nat) (h : Hub) : Hub :=
  updFe fe (fun f => { f with
    due := f.due ++ (ranges.filter fun r => !f.due.any fun d => d.1 == mode && d.2.1 == r).map fun r => (mode, r, trigger)
    retryAt := some (h.time.op4k + 40000) }) h

/-! ## Retirement (03 R61, 15 R376 to R378) -/

/-- DETAIL of RETIRED (R449). -/
def retiredDetail (unit source flags mask : Nat) : Bytes :=
  leNat 2 unit ++ leNat 2 source ++ leNat 1 flags ++ leNat 1 mask

/-- A channel's pair is ISOLATED and its source off. -/
def isolate (c : Nat) (h : Hub) : Hub :=
  connect c .isolated none (updChan c (fun x => { x with
    sourceOn := false, pairDue := none, handover := none, remapDue := false }) h)

/-- A channel is retired: its turn ends, its pair is ISOLATED, its slots carry RETIRED from the coming tick. A remap of it stands, and
keeps the group's spare, until a command undoes it or the next reset (R52). -/
def retire (c : Nat) (h : Hub) : Hub :=
  let fe := (chanAt h c).fe
  updChan c (fun x => { x with retireDue := true, leftFe := fe }) (isolate c (abandonTurn c h.time.tickInst h))

/-- A channel is retired already, or from the coming tick. -/
def retiring (h : Hub) (c : Nat) : Bool := (chanAt h c).retired || (chanAt h c).retireDue

/-- Retires one channel with its record; one that is retired is left as it is (R378). -/
def retireChannel (c source : Nat) (noSpare : Bool) (h : Hub) : Hub :=
  if retiring h c then h
  else jChange 0x3009 (retiredDetail c source (b2n noSpare) 0) (retire c h)

/-- The newest history entry of an instance shows the reaction of a later declaration. -/
def markEntry (source inst reaction : Nat) (h : Hub) : Hub :=
  { h with faults.history := mapI (fun i e =>
      if e.source == source && e.inst == inst &&
          !((h.faults.history.drop (i + 1)).any fun x => x.source == source && x.inst == inst) then
        { e with reaction := reaction, flags := e.flags ||| 4 }
      else e) h.faults.history }

/-- A REMAP without a usable spare becomes RETIRE_CHANNEL with NO_SPARE, and the history entry shows it as the reaction taken
(R377, R384). -/
def noSpareLeft (c fe source : Nat) (h : Hub) : Hub := retireChannel c source true (markEntry source fe 2 h)

/-- A REMAP's handover: break-before-make in every mode, with its record (15 R377, R392; log 13). While pairs are ISOLATED the
remap stands and the pair follows it when they connect again. -/
def remapTo (c tick : Nat) (inst : Inst) (h : Hub) : Hub :=
  jChange 0x300A (leNat 2 c ++ leNat 2 (ownFe c) ++ leNat 6 (toStream h tick))
    (updChan c (fun x => { x with remapped := true }) (if measures h then breakMake c true inst h else h))

/-- What follows a run of a turn (R105 to R108, 15 R377). -/
def afterRun (t : Nat) (u : Turn) (ok : Bool) (details : List Bytes) (h : Hub) : Hub :=
  let volt := u.mode == 0
  let journal (h : Hub) : Hub := details.foldl (fun h d => jChange 0x3001 d h) h
  if 512 ≤ u.ch then endTurn t (journal h)
  else
    match u.step with
    | .spareRun =>
      let h := journal h
      if u.remap then
        let h := updChan u.ch (fun x => { x with remapDue := false }) (endTurn t h)
        let source := ((h.faults.remaps.find? (·.1 == ownFe u.ch)).map (·.2)).getD 0
        let h := { h with faults.remaps := h.faults.remaps.filter (·.1 != ownFe u.ch) }
        if !remains h u.ch then h
        else if ok && spareUsable h u.ch then remapTo u.ch h.time.tick h.time.tickInst h
        else noSpareLeft u.ch (ownFe u.ch) source h
      else if !ok || !spareUsable h u.ch then endTurn t h
      else if volt then
        setStep t (fun x => { x with step := .overlapTake, startTick := none }) (overlap u.ch h)
      else setStep t (fun x => { x with step := .handTake, startTick := none }) h
    | .ownRun =>
      let h := if volt then setStep t (fun x => { x with accepted := details }) h else journal h
      beginReturn t u.ch h
    | .aloneRun => aloneEnd t u.ch (journal h)
    | _ => h

/-- The end of a run: coefficients, quality entries, faults, and the turn's next step (R98 to R100). -/
def runEnd (t : Nat) (outputs : List (List (List Int))) (temp : Int) (u : Turn) (h : Hub) : Hub :=
  let k := (Config.levelFactor t temp).toNat
  let outs := (u.ranges.zip outputs).map fun x => (x.1, runRange k (calAgreeTol h) (x.2.map meanOut))
  let qs := outs.map fun x =>
    { mode := u.mode, range := x.1, result := x.2.result, trigger := u.trigger, residual := x.2.residual
      agreement := x.2.agreement, temp := temp, opSeconds := opSeconds h : Quality }
  let good := outs.filter fun x => x.2.result == 0
  let ok := decide (good.length = u.ranges.length)
  let h := writeQuality u.fe qs h
  let h := if good.isEmpty then h else acceptCoefs u.fe (good.map fun x =>
    { mode := u.mode, range := x.1, o := x.2.o, g := x.2.g, temp := temp, opSeconds := opSeconds h }) h
  let bad := (outs.filter fun x => x.2.result != 0).map (·.1)
  let h := if ok then h else stayDue u.fe u.mode u.trigger bad h
  let h := if outs.any fun x => x.2.result == 1 then raiseNow (tileBase t + 7) u.fe 0 0 h else h
  let h := if outs.any fun x => x.2.result == 2 then raiseNow (tileBase t + 6) u.fe 0 0 h else h
  afterRun t u ok ((qs.filter fun q => q.result == 0).map (acceptedDetail u.fe)) h

/-- A run has lasted 40 ms per range, and its path check is complete (R97, R118). -/
def runOver (h : Hub) (t : Nat) (u : Turn) : Bool :=
  u.startTick.isSome && decide (u.endOp ≤ h.time.op4k) && pathDone t u

/-- The last MOD edge before the end of a run that is over. -/
def runEdge (h : Hub) (u : Turn) : Int := edgeBefore (h.time.tickInst - (h.time.op4k - u.endOp : Nat) * 16384000000)

/-- What the calibration chain of a tile makes of a run's bits, range by range. -/
def runOutputs (h : Hub) (t : Nat) (u : Turn) (bits : List (List Bool)) : List (List (List Int)) × Chain :=
  calOutputs (runEdge h u) bits (tileAt h t).calChain

/-- CAL_RUN_END (R99): the tick that ends the run, with the bits its front end has decided in each range. -/
def execCalRunEnd (tile : Nat) (bits : List (List Bool)) (temp : Int) (s : State) : Out :=
  let h := s.hub
  hubNext s (match (tileAt h tile).turn with
    | some u =>
      if runOver h tile u then
        let x := runOutputs h tile u bits
        runEnd tile x.1 temp u (updTile tile (fun y => { y with calChain := x.2 }) h)
      else h
    | none => h)

/-- CAL_RETRY (R99): the 10 s after a run that was not accepted have passed; the front end is served at its tile's next free turn. -/
def execCalRetry (fe : Nat) (s : State) : Out :=
  let h := s.hub
  hubNext s (match (feAt h fe).retryAt with
    | some t => if t ≤ h.time.op4k then updFe fe (fun f => { f with retryAt := none }) h else h
    | none => h)

/-- TESTDAC_PATH_HOLD_END (R118): 60 s after the failed check the tile may run again. -/
def execTestdacPathHoldEnd (tile : Nat) (s : State) : Out :=
  let h := s.hub
  hubNext s (match (tileAt h tile).holdUntil with
    | some e => if e ≤ h.time.op4k then updTile tile (fun x => { x with holdUntil := none }) h else h
    | none => h)

/-! ## Overlap comparison (R105, R106) -/

/-- N, the MOD edges within the comparison window. -/
def overlapBits (h : Hub) : Nat := (edgeBefore (overlapWindow h).2 - edgeBefore (overlapWindow h).1).toNat

/-- The mean of a front end's corrected stream over the window for the channel's mode and range, from the sum of its bits: a fraction of
full scale in 2^-62 / N. -/
def overlapMean (h : Hub) (c fe : Nat) (sum : Int) : Int :=
  let k := feCoef h fe (dMode (chDesc h c)) (chanAt h c).rangeNow
  k.g * (sum * 2 ^ 32 - k.o * overlapBits h)

/-- The overlap agrees: the means differ by no more than OVERLAP_TOL + 8 × 10^6 / N ppm. -/
def overlapAgrees (h : Hub) (c : Nat) (own spare : Int) : Bool :=
  decide ((overlapMean h c (ownFe c) own - overlapMean h c (spareFe (c / 8)) spare).natAbs * 1000000 ≤
    (calOverlapTol h * overlapBits h + 8000000) * 2 ^ 62)

/-- A front end has over-ranged within the comparison window of the open frame. -/
def overInWindow (h : Hub) (fe : Nat) : Bool :=
  (feAt h fe).overIn == some h.time.tick ||
    match (feAt h fe).overRange with | some (_, start) => decide (start < (overlapWindow h).2) | none => false

/-- The comparison of a channel's overlap is void. -/
def overlapVoid (h : Hub) (c : Nat) : Bool := overInWindow h (ownFe c) || overInWindow h (spareFe (c / 8))

/-- The verdict and the raise of a disagreement in the open frame. -/
def overlapFail (c fe sub : Nat) (h : Hub) : Hub :=
  raiseNow (tileBase (tileOfCh c) + 7) fe sub 0
    (issue (verdictsFor h c sInvalid 2 h.time.tickInst (frameEnd h)) h)

/-- Leaves what the pair becomes to the closing tick. -/
def pairAtTick (c : Nat) (p : PairConn) (fe : Nat) (h : Hub) : Hub := updChan c (fun x => { x with pairDue := some (p, some fe) }) h

/-- The comparison of a turn's overlap; a take whose switch failed its check ends the turn. -/
def overlapTurn (t c : Nat) (agrees void_ switchOk : Bool) (u : Turn) (h : Hub) : Hub :=
  match u.step with
  | .overlapTake =>
    if agrees && !void_ && switchOk then
      setStep t (fun x => { x with step := .ownRun, fe := ownFe c }) (pairAtTick c .spare (spareFe (c / 8)) h)
    else
      let h := if agrees || void_ then h else overlapFail c (spareFe (c / 8)) 1 h
      endTurn t (pairAtTick c .bound (ownFe c) h)
  | .overlapReturn =>
    let h := endTurn t (pairAtTick c .bound (ownFe c) h)
    if agrees || void_ then
      u.accepted.foldl (fun h d => jChange 0x3001 (if void_ then d ++ [1] else d) h) h
    else
      let h := overlapFail c (ownFe c) 2 h
      updFe (ownFe c) (fun f => { f with
        restoreDue := !u.accepted.isEmpty
        quality := f.quality.map fun q => if q.mode == u.mode && u.ranges.contains q.range then { q with result := 1 } else q })
        (stayDue (ownFe c) u.mode u.trigger u.ranges h)
  | _ => h

/-- The comparison of a remap's overlap (14 R349); a take whose switch failed its check leaves the pair bound. -/
def overlapRemap (c : Nat) (take agrees void_ switchOk : Bool) (h : Hub) : Hub :=
  let h := updChan c (fun x => { x with handover := none }) h
  if take then
    if agrees && !void_ && switchOk then pairAtTick c .spare (spareFe (c / 8)) (updChan c (fun x => { x with remapped := true }) h)
    else pairAtTick c .bound (ownFe c) (if agrees || void_ then h else overlapFail c (spareFe (c / 8)) 1 h)
  else
    let h := updChan c (fun x => { x with remapped := false }) h
    pairAtTick c .bound (ownFe c) (if agrees || void_ then h else overlapFail c (ownFe c) 2 h)

/-- OVERLAP_COMPARE (R106), with the continuity check of the swap (15 R371). -/
def execOverlapCompare (ch : Nat) (own spare : Int) (switchOk : Bool) (s : State) : Out :=
  let t := tileOfCh ch
  let agrees := overlapAgrees s.hub ch own spare
  hubNext s (
    if (chanAt s.hub ch).pair != .overlap then s.hub
    else
      let h := if switchOk then s.hub else switchFault ch s.hub
      match (chanAt h ch).handover with
      | some take => overlapRemap ch take agrees (overlapVoid h ch) switchOk h
      | none =>
        match (tileAt h t).turn with
        | some u => if u.ch = ch then overlapTurn t ch agrees (overlapVoid h ch) switchOk u h else h
        | none => h)

/-- What becomes of pairs and coefficients at a tick. -/
def applyPairs (h : Hub) : Hub :=
  let due := (List.range 512).filter fun c => (chanAt h c).pairDue.isSome
  let h := due.foldl (fun h c => match (chanAt h c).pairDue with
    | some (p, fe) => updChan c (fun x => { x with pairDue := none }) (connect c p fe h)
    | none => h) h
  { h with fes := h.fes.map fun f => if f.restoreDue then { f with coefs := f.before, restoreDue := false } else f }

/-- BREAK_BEFORE_MAKE_HANDOVER (R107), at the latest tick. -/
def handover (ch : Nat) (switchOk : Bool) (h : Hub) : Hub :=
  let t := tileOfCh ch
  match (tileAt h t).turn with
  | none => h
  | some u =>
    if u.ch ≠ ch then h
    else
      match u.step with
      | .handTake =>
        if switchOk then
          setStep t (fun x => { x with step := .ownRun, fe := ownFe ch }) (breakMake ch true h.time.tickInst h)
        else endTurn t (switchFault ch h)
      | .handReturn =>
        let h := endTurn t (breakMake ch false h.time.tickInst h)
        if switchOk then h else switchFault ch h
      | _ => h

/-- BREAK_BEFORE_MAKE_HANDOVER (R107). -/
def execBreakBeforeMakeHandover (ch : Nat) (switchOk : Bool) (s : State) : Out := hubNext s (handover ch switchOk s.hub)

/-- A turn of a spare alone ends; a run in progress is abandoned. -/
def abandonSpare (t : Nat) (u : Turn) (h : Hub) : Hub :=
  endTurn t (if u.startTick.isSome then writeQuality u.fe (runQuality h u 3) h else h)

/-- The return handover of R107 at a tick: at once where the hub is at that tick, else when it comes. The result of its continuity check
is a free value (15 R371; logs 9 and 21). -/
def returnAt (c : Nat) (inst : Inst) (h : Hub) : Hub :=
  let x := drawSound h
  let h := if x.1 then x.2 else switchFault c x.2
  if inst = h.time.tickInst then breakMake c false inst h
  else
    pairAtTick c .bound (ownFe c)
      (addHold c inst (inst + us (holdUs (dMode (chDesc h c)) (chanAt h c).rangeNow)) h)

/-- A turn ends because its spare is needed elsewhere or has become unusable: the pair returns to the own front end by R105 or
R107 (R108). -/
def giveBack (t : Nat) (u : Turn) (inst : Inst) (h : Hub) : Hub :=
  if 512 ≤ u.ch then abandonSpare t u h
  else
    let volt := dMode (chDesc h u.ch) == 0
    let drop (h : Hub) : Hub := updChan u.ch (fun x => { x with pairDue := none }) h
    let h := if u.startTick.isSome then writeQuality u.fe (runQuality h u 3) h else h
    match u.step with
    | .spareRun | .handTake => endTurn t h
    | .overlapReturn | .aloneRun => h
    | .overlapTake => endTurn t (pairAtTick u.ch .bound (ownFe u.ch) h)
    | .handReturn => endTurn t (returnAt u.ch inst h)
    | .ownRun => if volt then beginReturn t u.ch (drop h) else endTurn t (returnAt u.ch inst (drop h))

/-! ## System calibration (R111 to R113) -/

/-- The mean of a sum of u in 2^-39 LSB over n, in 2^-8 LSB. -/
def winMean (sum : Int) (n : Nat) : Int := roundEven sum (max 1 n * 2 ^ 31)

/-- 8.388608 LSB × SYS_TOL is the limit for the difference of half-means in 2^-8 LSB. -/
def halvesDisagree (tol : Nat) (a b : Int) : Bool := decide (tol * 8388608 * 256 < (a - b).natAbs * 1000000)

/-- g_sys of a SPAN, in 2.30; none outside 0.25 to below 4. -/
def spanGain (pRef zRef mp mz : Int) : Option Nat :=
  if mp = mz then none
  else
    let g := roundDiv ((pRef - zRef) * 2 ^ 38) (mp - mz)
    if 2 ^ 28 ≤ g ∧ g < 2 ^ 32 then some g.toNat else none

/-- o_sys = m_z − z_ref / g_sys, in 2^-8 LSB. -/
def offsetSys (mz zRef : Int) (g : Nat) : Int := roundDiv (mz * g - zRef * 2 ^ 38) (max 1 (g : Int))

/-- The outcome of a window: RESULT, the three means, and the coefficients in force after it. -/
structure WinOut where
  result : Nat
  half1 : Int
  half2 : Int
  mean : Int
  g : Nat
  o : Int
deriving DecidableEq, Repr

/-- Evaluates a window (R111, R112). DESIGN CHOICE (log 28): a SPAN whose ZERO was discarded while its window was open has no m_z
to compute g_sys from, and reports RANGE. -/
def winEval (h : Hub) (c : Nat) (w : CalWin) : WinOut :=
  let ch := chanAt h c
  let h1 := winMean w.sum1 (w.n / 2)
  let h2 := winMean w.sum2 (w.n / 2)
  let m := winMean (w.sum1 + w.sum2) w.n
  let out (r : Nat) (g : Nat) (o : Int) : WinOut := ⟨r, h1, h2, m, g, o⟩
  if !w.allGood then ⟨1, 0, 0, 0, ch.gSys, ch.oSys⟩
  else if halvesDisagree (calSysTol h) h1 h2 then out 2 ch.gSys ch.oSys
  else
    match w.step with
    | 0 => out 0 ch.gSys ch.oSys
    | 1 =>
      match ch.zero with
      | none => out 3 ch.gSys ch.oSys
      | some (_, _, mz, zRef) =>
        match spanGain w.target zRef m mz with
        | none => out 3 ch.gSys ch.oSys
        | some g => out 0 g (offsetSys mz zRef g)
    | _ => out 0 ch.gSys (offsetSys m w.target ch.gSys)

/-- Stores a set in flash. -/
def storeSys (x : SysCoef) (h : Hub) : Hub :=
  { h with flash.sysCal := h.flash.sysCal.filter (fun y => !isSys x.ch x.mode x.range y) ++ [x] }

/-- Accepted coefficients take effect at the first tick after their write, where the channel is in their mode and range (R113). -/
def sysEffect (h : Hub) (i : Nat) (c : Chan) : Chan :=
  match c.newSys with
  | some (x, _) =>
    if isSys i (dMode (chDesc h i)) c.rangeNow x then { c with gSys := x.g, oSys := x.o, newSys := none }
    else { c with newSys := none }
  | none => c

/-- Accepted coefficients of every channel take effect. -/
def applySys (h : Hub) : Hub := { h with chans := mapI (sysEffect h) h.chans }

/-- SYSTEM_COEFFICIENTS_EFFECT (R113). -/
def execSystemCoefficientsEffect (s : State) : Out := hubNext s (applySys s.hub)

/-! ## Housekeeping (R114 to R117) -/

def hkSource (w : Word) : Nat := bitsOf w.toNat 5 0
def hkSub (w : Word) : Nat := bitsOf w.toNat 12 6
def hkGain (w : Word) : Nat := 2 ^ bitsOf w.toNat 18 17

/-- The scaling of a source at gain 1 (R114): what code 0 reads, or code 32,768 of a bipolar source, the span of the 65,536 codes,
and whether it is bipolar; temperatures in 0.01 °C, supplies in mV, rails up to 2.5 V, sense voltages and test voltages in µV,
currents in µA. -/
def hkRange (source : Nat) : Int × Nat × Bool :=
  if source < 6 then (-5500, 20000, false)
  else if source = 6 then (0, 50000, false)
  else if source < 9 then (0, 40000, false)
  else if source < 13 then (0, 2500000, false)
  else if source = 13 then (0, 5000, false)
  else if source = 14 then (0, 10000, false)
  else if source = 15 then (-10000, 10000, false)
  else if source < 20 then (0, 300000, false)
  else if source < 24 then (0, 12500000, false)
  else if source < 28 then (0, 40000, false)
  else if source < 36 then (0, 25000, false)
  else if source < 40 then (0, 5000000, true)
  else if source < 44 then (0, 2500000, false)
  else (0, 5000000, true)

/-- A code of a source at a gain in the units of `hkRange`, rounded by 04 R80. -/
def hkValue (source gain code : Nat) : Int :=
  let r := hkRange source
  r.1 + roundEven ((r.2.1 : Int) * ((code : Int) - if r.2.2 then 32768 else 0)) (65536 * gain)

/-- A reading of a source and SUB reaches what the hub keeps of it: the latest reading, tile temperatures, EXC_VIN, and loop
readbacks in DAC steps. -/
def hkReading (source sub gain code : Nat) (h : Hub) : Hub :=
  let v := hkValue source gain code
  let h := { h with hk.readings := insertBy (fun x => 128 * x.1.1 + x.1.2) ((source, sub), v) (h.hk.readings.filter (·.1 != (source, sub))) }
  if source < 4 then updTile source (fun t => { t with temps := (v :: t.temps).take 128 }) h
  else if source = 7 then { h with power.excVinMv := v.toNat }
  else if 28 ≤ source ∧ source ≤ 35 then
    { h with loops := updAt h.loops (source - 28) fun l =>
        { l with readback := (roundEven ((25 * code : Nat) : Int) (24 * gain)).toNat } }
  else h

/-- The end of an entry: its code is kept, and at the end of a pass a shadow sequence takes over (R116). -/
def hkConvert (code : BitVec 16) (h : Hub) : Hub :=
  let w := h.cfg.hkSeq.getD h.hk.pos 0
  let h := hkReading (hkSource w) (hkSub w) (hkGain w) code.toNat h
  let codes := (h.hk.codes ++ List.replicate (h.cfg.hkSeq.length - h.hk.codes.length) 0).set h.hk.pos code
  if h.hk.pos + 1 < h.cfg.hkSeq.length then { h with hk.codes := codes, hk.pos := h.hk.pos + 1 }
  else
    match h.hk.shadow with
    | some seq =>
      { h with hk.codes := [], hk.pos := 0, hk.pass := h.hk.pass + 1, hk.shadow := none, cfg.hkSeq := seq }
    | none => { h with hk.codes := codes, hk.pos := 0, hk.pass := h.hk.pass + 1 }

/-- HOUSEKEEPING_CONVERSION (R115). -/
def execHousekeepingConversion (code : BitVec 16) (s : State) : Out :=
  hubNext s (if isUp s.hub then hkConvert code s.hub else s.hub)

/-- The running path check that waits for a source and SUB. -/
def pathWaits (h : Hub) (t : Nat) (u : Urgent) : Option Turn :=
  match (tileAt h t).turn with
  | some x => if x.startTick.isSome && (pathSources t x)[x.path.length]? == some (u.source, u.sub) then some x else none
  | none => none

/-- The result of an urgent conversion reaches its requesters (R117): the collector's stands in `urgentDone`, and the path check
takes its own. -/
def urgentResult (u : Urgent) (gain code : Nat) (h : Hub) : Hub :=
  let t := u.source % 4
  if u.calibration then
    match pathWaits h t u with
    | some x => pathReading t (hkValue u.source gain code) x h
    | none => h
  else h

/-- URGENT_CONVERSION (R117): the request at the front is served, with the gain of the sequence entry for its source and SUB. -/
def execUrgentConversion (code : BitVec 16) (s : State) : Out :=
  let h := s.hub
  hubNext s (match h.hk.urgent with
    | [] => h
    | u :: us =>
      let gain := ((h.cfg.hkSeq.find? fun w => hkSource w == u.source && hkSub w == u.sub).map hkGain).getD 1
      urgentResult u gain code.toNat (hkReading u.source u.sub gain code.toNat
        { h with hk.urgent := us, hk.urgentDone := ((u, code) :: h.hk.urgentDone).take 16 }))

end Sys2Proof.Machine
end

