-- ==== Sys2Proof/Machine/Commit.lean ====
section
/-! DEFINITION. The relations a configuration must keep besides its budget (R49, R56, R122, R142, R155), and how a
configuration command is held, stored or committed (13 R333, 14 R340 to R344). -/

namespace Sys2Proof.Machine

/-! ## Relations over one configuration -/

/-- The first channel whose pairing with its group breaks R49 or R56, with the bit of the field. -/
def chanRel (p : Plan) : Option (Nat × Nat) :=
  allChans.findSome? fun c =>
    (chanGroupFault (p.cfg.chan.getD c 3).toNat (p.cfg.group.getD (c / 8) 0).toNat p.tCode).map fun b => (c, b)

/-- The first group whose descriptor breaks R53 to R56 in the configuration, with the bit of the field. -/
def groupRel (p : Plan) : Option (Nat × Nat) :=
  (List.range 64).findSome? fun g =>
    (groupFault (p.cfg.group.getD g 0).toNat p.tCode p.cfg.excMin).map fun b => (g, b)

/-- RATE of a channel in a plan. -/
def planRate (p : Plan) (c : Nat) : Nat := dRate (p.cfg.chan.getD c 3).toNat

/-- The first capture definition whose channels do not share one RATE (07 R155). -/
def captureRel (p : Plan) : Option Nat :=
  (List.range 8).find? fun d =>
    let cs := cChans (p.cfg.capture.getD d [])
    cs.any fun c => planRate p c != planRate p (cs.headD 0)

/-- What the inputs of a COMBINE node must share: RATE, RESPONSE, and whether they lie in switched groups (06 R122). -/
def inputKey (p : Plan) (c : Nat) : Nat × Nat × Bool :=
  let d := (p.cfg.chan.getD c 3).toNat
  (dRate d, dResp d, gSwitched (p.cfg.group.getD (c / 8) 0).toNat)

/-- The first COMBINE node whose inputs break R122. -/
def combineRel (p : Plan) (g : Graph) : Option Nat :=
  (List.range g.nodes.length).find? fun i =>
    let d := g.nodes.getD i []
    let roots := (ndRefs d).flatMap (rootChans g (i + 1))
    ndKind d == 1 && roots.any fun c => inputKey p c != inputKey p (roots.headD 0)

/-- The relations of one configuration: the channel or group with the bit of its field, or the channels that break R122,
R142 or R155 together. -/
structure RelFault where
  chan : Option (Nat × Nat) := none
  group : Option (Nat × Nat) := none
  others : List Nat := []
deriving DecidableEq, Repr

/-- The channels under a COMBINE node. -/
def combineChans (g : Graph) (i : Nat) : List Nat := (ndRefs (g.nodes.getD i [])).flatMap (rootChans g (i + 1))

/-- The relations that hold of a configuration, COMBINE nodes of a held shadow included. -/
def relFault (shadow : Graph) (p : Plan) : Option RelFault :=
  match groupRel p with
  | some x => some { group := some x }
  | none => match chanRel p with
    | some x => some { chan := some x }
    | none =>
      match captureRel p, combineRel p p.cfg.graph, combineRel p shadow with
      | some d, _, _ => some { others := cChans (p.cfg.capture.getD d []) }
      | none, some i, _ => some { others := combineChans p.cfg.graph i }
      | none, none, some i => some { others := combineChans shadow i }
      | none, none, none => none

/-- The relations at every tick from one on (R342). -/
def relFaultFrom (h : Hub) (t0 : Nat) : Option RelFault :=
  (planTicks h t0).findSome? fun t => relFault (h.arr.shadow.getD {}) (planAt h t)

/-- Refuses with REFUSED_ARGUMENT where a relation breaks. DESIGN CHOICE (log 28): 06 R142 names CFG_CHANNEL alone for the inputs of a
COMBINE; a CFG_EXCITATION that would split them between switched and unswitched groups is refused in the same way. The refusal
names the entry of the command's own list where there is one: `chans` says that the entries are channels, otherwise groups. -/
def needRel (chans : Option Bool) (hd : Head) (f : Option RelFault) : Chk :=
  match f with
  | none => .ok ()
  | some r =>
    let own (i : Nat) : Bool := decide (hd.first ≤ i ∧ i < hd.first + hd.count)
    let at_ (i b : Nat) : Chk :=
      if own i then .error (refuseAt rArgument (24 + 8 * (i - hd.first) + b / 8) (i - hd.first))
      else .error (refuse rArgument)
    let among (is : List Nat) : Chk :=
      match is.find? own with
      | some i => .error (refuseAt rArgument 0xFFFF (i - hd.first))
      | none => .error (refuse rArgument)
    match chans, r.chan, r.group with
    | some true, some (c, b), _ => at_ c b
    | some false, _, some (g, b) => at_ g b
    | some false, some (c, _), _ => at_ (c / 8) 0
    | some true, none, none => among r.others
    | some false, none, none => among (r.others.map (· / 8))
    | _, _, _ => .error (refuse rArgument)

/-! ## Holding, storing and committing -/

/-- The hub a command's configuration is checked on: as it stands, or in PROVISIONED with the store in force (13 R333). -/
def checkBase (h : Hub) : Hub :=
  if stored h then
    { h with
      cfg := h.flash.store, changes := [], arr.activate := none
      time.tCode := h.flash.store.tCode, time.v := h.flash.store.v, time.newTicks := [] }
  else h

/-- Accepts items for a tick, every check passed: in PROVISIONED the store alone takes them. -/
def takeItems (tick : Nat) (items : List Item) (h : Hub) : Hub :=
  if stored h then { h with flash.store := (storedItems tick items h).foldl (fun c i => cfgItem i c) h.flash.store }
  else acceptItems tick items h

/-- Checks the configuration that items give, at every tick from the command's own on, and accepts them. -/
def commitItems (chans : Option Bool) (hd : Head) (tick : Nat) (items : List Item) (h : Hub) : Except Reply Hub := do
  let after := schedule tick items (checkBase h)
  needRel chans hd (relFaultFrom after tick)
  needBudget (budgetFault after tick)
  return takeItems tick items h

/-- Everything a committing command commits: what is held for it, then its own entries (R343). -/
def commitList (c : Ctx) (items : List Item) (h : Hub) : List Item := addItems (stagedItems h c.req.origin c.code) items

/-- Holds a command's entries under STAGE, or commits them with those held; `rest` answers for what is committed. -/
def stageOrCommit (chans : Option Bool) (c : Ctx) (hd : Head) (tick : Nat) (items : List Item) (args : Bytes)
    (rest : List Item → Bytes) (h : Hub) : Except Reply (Reply × Hub) :=
  if hd.stage then do
    let h' ← stage c.req.origin c.code items h
    return (stagedReply args, h')
  else do
    let all := commitList c items h
    let h' ← commitItems chans hd tick all (dropStaged c.req.origin c.code h)
    return (accepted h tick (rest all) args, h')

/-- Commits the items of a command that does not change what R36 names. -/
def simpleCommit (c : Ctx) (hd : Head) (tick : Nat) (items : List Item) (args : Bytes) (h : Hub) :
    Except Reply (Reply × Hub) :=
  if hd.stage then do
    let h' ← stage c.req.origin c.code items h
    return (stagedReply args, h')
  else
    .ok (accepted h tick [] args, takeItems tick (commitList c items h) (dropStaged c.req.origin c.code h))

end Sys2Proof.Machine
end

