-- ==== Sys2Proof/Machine/CmdChannel.lean ====
section
/-! DEFINITION. The commands of groups 0x00 and 0x01: information, channels and excitation (14 R347 to R350). -/

namespace Sys2Proof.Machine

/-! ## Group 0x00 (R347, R348) -/

/-- CFG_LABEL: the 64 bytes enter the configuration store as given; its record holds the first 8. -/
def cmdCfgLabel : Cmd := fun c h => do
  needLen c 64
  return ({ args := c.req.payload.take 8 }, { h with flash.store.label := c.req.payload })

/-- A byte of an image: as shipped, or as installed (13 R334). -/
def imageByte (i : Image) (a : Nat) : Byte := if i.factory then Config.factoryImage a else readByte i.cells a

/-- A field of an image. -/
def imageField (i : Image) (a n : Nat) : Nat := ofLe ((rangeFrom a n).map (imageByte i))

/-- VERSION of an image slot; 0 where none is installed. -/
def imageVersion (i : Image) : Nat := if i.installed then imageField i 4 4 else 0

/-- The image of a slot: 0 A, 1 B. -/
def imageOf (h : Hub) (slot : Nat) : Image := if slot = 0 then h.flash.imageA else h.flash.imageB

/-- REVISION of R315. -/
def revision (h : Hub) : Nat := 1 + imageVersion (imageOf h h.flash.running) % 65536 * 65536

/-- The 168 bytes of R348. -/
def identityBytes (h : Hub) : Bytes :=
  leNat 4 0x4B5A0512 ++ leNat 4 (revision h) ++ leNat 4 h.flash.hubId.toNat ++ leNat 1 (lifeCode h.flash.lifecycle) ++
    leNat 1 h.flash.running ++ leNat 1 h.flash.bootChoice ++ leNat 1 (b2n h.power.sideB) ++
    leNat 8 (Config.serial 0).toNat ++ leNat 8 (opSeconds h) ++ leNat 4 h.flash.powerCycles ++
    leNat 4 h.flash.seqBlock ++ leNat 2 h.time.epoch ++ zeros 2 ++ leNat 4 (imageVersion h.flash.imageA) ++
    leNat 4 (imageVersion h.flash.imageB) ++ leNat 4 h.flash.minSec ++ leNat 1 h.flash.revoked ++
    leNat 1 (ofBits (h.flash.keys.map (·.key.isSome))) ++ zeros 2 ++ leNat 6 (Config.mac 0).toNat ++ zeros 2 ++
    leNat 4 h.flash.bringUps ++ h.flash.keys.flatMap (fun k => leNat 4 k.gen.toNat) ++ h.flash.store.label

/-- READ_IDENTITY. -/
def cmdReadIdentity : Cmd := fun c h => do
  needLen c 0
  return (answer rOk (identityBytes h), h)

/-- READ_LEDGER: the named channels that a ledger lists. -/
def cmdReadLedger : Cmd := fun c h => do
  needLen c 4
  let first := pf c 0 2
  let count := pf c 2 2
  needArg 2 (1 ≤ count && count ≤ 100)
  return (answer rOk (ledgerPayload h ((ledgerChans h).filter fun x => first ≤ x && x < first + count)), h)

/-! ## Group 0x01 (R349, R350) -/

/-- A descriptor's own fields, then its pairing with its group at the tick (R48, R49, R56). -/
def chanEntryCheck (h : Hub) (p : Plan) (first i d : Nat) : Chk :=
  let ch := first + i
  match chanFieldFault d with
  | some b => .error (refuseAt rArgument (24 + 8 * i + b / 8) i)
  | none => match chanGroupFault d (p.cfg.group.getD (ch / 8) 0).toNat p.tCode with
    | some b => .error (refuseAt rArgument (24 + 8 * i + b / 8) i)
    | none =>
      if (chanAt h ch).retired && !dIdle d then .error (refuseAt rState (24 + 8 * i) i) else .ok ()

/-- N and delay of each channel of a commit, ascending (R69, 04 R87). -/
def chanReply (p : Plan) (items : List Item) : Bytes :=
  (sortBy (·.1) (items.filterMap fun i => match i with | .chan c d => some (c, d.toNat) | _ => none)).flatMap fun x =>
    let g := (p.cfg.group.getD (x.1 / 8) 0).toNat
    leNat 4 (chanChangeN (p.cfg.chan.getD x.1 3).toNat x.2 g p.tCode) ++ leNat 4 (totalDelay x.2 g p.tCode)

/-- CFG_CHANNEL. -/
def cmdCfgChannel : Cmd := fun c h => do
  let hd ← readHead c true 1 256 512 8
  needArg 16 (hd.arg = 0)
  let t ← needTick h 0 hd.at_ 1
  let ds := (entries hd 8).map ofLe
  let p := planAt (checkBase h) t
  checkAll (chanEntryCheck h p hd.first) 0 ds
  let items := mapI (fun i d => Item.chan (hd.first + i) (BitVec.ofNat 64 d)) ds
  stageOrCommit (some true) c hd t items (argsList hd) (chanReply p) h

/-- A group descriptor by itself (R53 to R56). -/
def groupEntryCheck (p : Plan) (excMin i g : Nat) : Chk :=
  match groupFault g p.tCode excMin with
  | some b => .error (refuseAt rArgument (24 + 8 * i + b / 8) i)
  | none => .ok ()

/-- Channels affected by the group descriptors of a commit, with N, ascending (R68, R69). -/
def excAffected (h : Hub) (p : Plan) (items : List Item) : List (Nat × Nat) :=
  allChans.filterMap fun c =>
    items.findSome? fun i => match i with
      | .group g d =>
        let ch := (p.cfg.chan.getD c 3).toNat
        let g0 := (p.cfg.group.getD g 0).toNat
        if c / 8 = g ∧ groupAffects ch g0 d.toNat ∧ !(chanAt h c).retired then
          some (c, settleN (tFe (some (ch, g0)) ch d.toNat p.tCode) ch)
        else none
      | _ => none

/-- The mask of affected channels, then N of each. -/
def excReply (h : Hub) (p : Plan) (items : List Item) : Bytes :=
  let xs := excAffected h p items
  chanMask (xs.map (·.1)) ++ xs.flatMap fun x => leNat 4 x.2

/-- CFG_EXCITATION. -/
def cmdCfgExcitation : Cmd := fun c h => do
  let hd ← readHead c true 1 64 64 8
  let lo := hd.arg % 65536
  let hi := hd.arg / 65536 % 65536
  needArg 20 (hd.arg < 2 ^ 32)
  needArg 16 (lo ≤ hi)
  let t ← needTick h 0 hd.at_ 1
  let ds := (entries hd 8).map ofLe
  let p := planAt (checkBase h) t
  checkAll (groupEntryCheck p lo) 0 ds
  let items := Item.supply lo hi :: mapI (fun i d => Item.group (hd.first + i) (BitVec.ofNat 64 d)) ds
  let args := leNat 2 hd.first ++ leNat 2 hd.count ++ leNat 4 (crc32c (c.req.payload.drop 16)).toNat
  stageOrCommit (some false) c hd t items args (excReply h p) h

/-- CFG_REMAP may be accepted (R349, 05 R108). -/
def remapOk (h : Hub) (ch : Nat) (undo : Bool) : Bool :=
  if undo then (chanAt h ch).remapped && !(feAt h (ownFe ch)).permFault
  else spareUsable h ch && !(chanAt h ch).remapped && !dIdle (chDesc h ch) && !(chanAt h ch).retired

/-- CFG_REMAP. -/
def cmdCfgRemap : Cmd := fun c h => do
  needLen c 16
  let ch := pf c 0 2
  let action := pf c 2 1
  needArg 0 (ch < 512)
  needArg 2 (action < 2)
  needZero c 3 5
  let t ← needTick h 8 (pf c 8 8) 1
  needState (remapOk h ch (action == 0))
  return (acceptedAt h t [] (leNat 2 ch ++ leNat 1 action), acceptItems t [.remap ch (action == 0)] h)

/-- REVIVE_CHANNEL. -/
def cmdReviveChannel : Cmd := fun c h => do
  needLen c 16
  let g := pf c 0 1
  let mask := pf c 1 1
  needArg 0 (g < 64)
  needArg 1 (mask ≠ 0)
  needZero c 2 6
  let t ← needTick h 8 (pf c 8 8) 1
  let chs := ((List.range 8).filter (bitOf mask)).map (8 * g + ·)
  needStateAt 1 (chs.all fun x => (chanAt h x).retired)
  let p := planAt h t
  let n (x : Nat) : Bytes :=
    let d := (p.cfg.chan.getD x 3).toNat
    leNat 4 (settleN (tFe none d (p.cfg.group.getD g 0).toNat p.tCode) d)
  return (acceptedAt h t (chs.flatMap n) (leNat 1 g ++ leNat 1 mask), acceptItems t (chs.map .revive) h)

/-- Codes of the pair states (R350). -/
def pairCode : PairConn → Nat
  | .bound => 0 | .spare => 1 | .overlap => 2 | .isolated => 3

/-- STATE of a channel (R350). -/
def chanState (h : Hub) (c : Nat) : Nat :=
  if (chanAt h c).retired then 1 else if dIdle (chDesc h c) then 2 else if (chanAt h c).remapped then 3 else 0

/-- An entry of READ_CHANNEL (R350), as of the latest tick (R346). -/
def chanEntry (h : Hub) (c : Nat) : Bytes :=
  let ch := chanAt h c
  let v := h.view.chans.getD c {}
  leNat 8 (chDesc h c) ++ leNat 1 (pairCode ch.pair) ++ leNat 1 (chanState h c) ++ leNat 1 v.rangeNow ++ zeros 1 ++
    leNat 4 (chanDelay h c) ++ leNat 4 v.settleLeft ++ leNat 4 v.arSwitches ++ leNat 2 (ch.fe.getD 0xFFFF) ++ zeros 6

/-- READ_CHANNEL. -/
def cmdReadChannel : Cmd := fun c h => do
  needLen c 4
  let first := pf c 0 2
  let count := pf c 2 2
  needArg 2 (1 ≤ count && count ≤ 64)
  let chs := (rangeFrom first count).filter fun x => x < 512
  return (answer rOk (leNat 2 chs.length ++ zeros 6 ++ chs.flatMap (chanEntry h)), h)

end Sys2Proof.Machine
end

