-- ==== Sys2Proof/Machine/CmdTime.lean ====
section
/-! DEFINITION. The commands of group 0x02: tick rate, time source, time steps (14 R351, R352). -/

namespace Sys2Proof.Machine

/-! ## CFG_TICK (02 R42) -/

/-- The first TAI second boundary at least 1 s after the latest tick. -/
def earliestB (h : Hub) : Nat := (-((-(h.time.tickInst + secUnits)) / secUnits)).toNat

/-- Adds a pending rate change, in order of B; a later command for one boundary overrides an earlier one. -/
def addRate (b tc v : Nat) (h : Hub) : Hub :=
  { h with time.newTicks := insertBy (·.1) (b, tc, v) (h.time.newTicks.filter (·.1 != b)) }

/-- The hub CFG_TICK is checked on: the change pending, or in PROVISIONED in the store. -/
def rateChecked (b tc v : Nat) (h : Hub) : Hub :=
  if stored h then { checkBase h with time.tCode := tc, time.v := v } else addRate b tc v h

/-- The tick at which the rate of boundary b comes into force. -/
def rateTickOf (h : Hub) (b : Nat) : Nat :=
  (((h.time.newTicks.zip (rateTicks h)).find? fun x => x.1.1 == b).map (·.2.1)).getD h.time.tick

/-- CFG_TICK; the store takes the rate of the latest boundary accepted (14 R344). -/
def cmdCfgTick : Cmd := fun c h => do
  let hd ← readBareHead c 0
  needArg 0 (hd.at_ = 0)
  let b0 := hd.arg % 2 ^ 48
  let tc := bitsOf hd.arg 51 48
  let v := bitsOf hd.arg 54 52
  needArg 22 (tc ≤ 5 && 1 ≤ v && v ≤ 4 && bitsOf hd.arg 63 55 = 0)
  let b := if b0 = 0 then earliestB h else b0
  needArg 16 (earliestB h ≤ b)
  let after := rateChecked b tc v h
  let t := rateTickOf after b
  needRel none hd (relFaultFrom after t)
  needBudget (budgetFault after t)
  let old := checkBase h
  let args := leNat 6 b ++ leNat 1 (old.time.tCode + 16 * tc) ++ leNat 1 (old.time.v + 16 * v)
  let h' := if stored h then h else addRate b tc v h
  let last := if stored h then (tc, v) else (h'.time.newTicks.getLast?.map (·.2)).getD (tc, v)
  return (accepted h t [] args, { h' with flash.store.tCode := last.1, flash.store.v := last.2 })

/-! ## CFG_TIME (10 R233, R234) -/

/-- Lane U is set to an Ethernet mode (11 R258). -/
def laneUEth (c : Cfg) : Bool := decide (2 ≤ lMode (c.lane.getD 5 0))

/-- STEP_THRESHOLD in units of an instant. -/
def stepThreshold (b : BitVec 64) : Int := 655360 * ((bitsOf b.toNat 23 8 : Nat) : Int)

/-- CFG_TIME. -/
def cmdCfgTime : Cmd := fun c h => do
  let hd ← readBareHead c 24
  let b : BitVec 64 := BitVec.ofNat 64 hd.arg
  needArg 16 (bitsOf hd.arg 7 4 = 0)
  needArg 21 (bitsOf hd.arg 63 41 = 0)
  needArg 17 (10 ≤ bitsOf hd.arg 23 8)
  let t ← needTick h 0 hd.at_ 1
  let eth := laneUEth (checkBase h).cfg
  needState (!(tbSource b == 4 && !eth) && !(tbSource b == 3 && eth))
  let asym := (List.range 5).map fun i => sfieldAt hd.body (4 * i) 4
  let items := [Item.time b asym (fieldAt hd.body 20 4)]
  return (accepted h t [] (leNat 8 hd.arg), takeItems t items h)

/-! ## TIME_STEP (10 R255) -/

/-- Δ of the request, in units of an instant (R351). -/
def stepDelta (c : Ctx) : Inst :=
  sfieldAt c.req.payload 0 8 * secUnits + (pf c 8 4 : Int) * 65536 + pf c 12 2

/-- The reading of the timebase in force at a tick to come, at the present rate. -/
def readingAt (h : Hub) (t : Nat) : Inst := h.time.tickInst + ((t : Int) - h.time.tick) * tickLen h.time.tCode

/-- TIME_STEP. -/
def cmdTimeStep : Cmd := fun c h => do
  needLen c 24
  needArg 8 (pf c 8 4 < 1000000000)
  needZero c 14 2
  let t ← needTick h 16 (pf c 16 8) 2
  let d := stepDelta c
  let src := h.time.source
  needState (!((laneSource src || src == 4) && h.time.servo != .holdover))
  needState h.time.step.isNone
  needArg 0 (d ≠ 0)
  needArg 0 (0 ≤ readingAt h t + d)
  needArg 8 (!((src == 5 || src == 6) && d % secUnits ≠ 0))
  let e := toStream h t
  let detail := c.req.payload.take 6 ++ leNat 4 (pf c 8 4) ++ leNat 2 (pf c 12 2) ++ leNat 4 e
  return ({ payload := leNat 8 e, effect := e, detail := some detail }, { h with time.step := some (t, d) })

/-! ## READ_TIME (R352) -/

/-- A lane entry of READ_TIME. -/
def laneMeasBytes (m : LaneMeas) : Bytes :=
  leInt 8 m.theta ++ leInt 4 (m.delay / 256) ++ leNat 1 (b2n m.valid) ++ leNat 1 m.age ++ zeros 2

/-- The 160 bytes of READ_TIME, as of the latest tick (R346). -/
def timeBytes (h : Hub) : Bytes :=
  let t := h.time
  let v := h.view
  leNat 8 (streamTick h) ++ stampBytes (tickStamp h) ++ leInt 8 v.theta ++ leInt 8 v.freq ++ leNat 1 (servoCode t.servo) ++
    leNat 1 t.source ++ leInt 2 t.utc ++ leNat 2 v.outliers ++ zeros 2 ++
    leNat 8 (match t.step with | some (n, _) => toStream h n | none => 0) ++ zeros 8 ++ v.laneMeas.flatMap laneMeasBytes

/-- READ_TIME. -/
def cmdReadTime : Cmd := fun c h => do
  needLen c 0
  return (answer rOk (timeBytes h), h)

end Sys2Proof.Machine
end

