-- ==== Sys2Proof/Machine/CmdCal.lean ====
section
/-! DEFINITION. The commands of group 0x03: calibration and housekeeping (14 R353, R354; 05 R101 to R116). -/

namespace Sys2Proof.Machine

/-- The ranges of R103. -/
def calBlockOk (b : Nat) : Bool :=
  let dt := bitsOf b 7 0
  let mi := bitsOf b 15 8
  let ag := bitsOf b 25 16
  let ov := bitsOf b 47 32
  let sy := bitsOf b 63 48
  decide (5 ≤ dt ∧ dt ≤ 200 ∧ 1 ≤ mi ∧ mi ≤ 240 ∧ 1 ≤ ag ∧ ag ≤ 1000 ∧ bitsOf b 30 26 = 0 ∧ 100 ≤ ov ∧ ov ≤ 50000 ∧
    1 ≤ sy ∧ sy ≤ 10000)

/-- CFG_CALIBRATION. -/
def cmdCfgCalibration : Cmd := fun c h => do
  let hd ← readBareHead c 0
  needArg 16 (calBlockOk hd.arg)
  let t ← needTick h 0 hd.at_ 1
  return (accepted h t [] (leNat 8 hd.arg), takeItems t [.cal (BitVec.ofNat 64 hd.arg)] h)

/-- CAL_SELF makes a front end due in every mode and range it may use (R102). -/
def makeDue (h : Hub) (fe : Nat) (f : Fe) : Fe :=
  { f with due := ((feUses h fe).flatMap fun u => u.2.map fun r => (u.1, r, 3)) ++ f.due.filter fun d =>
      !(feUses h fe).any fun u => u.1 == d.1 && u.2.contains d.2.1 }

/-- CAL_SELF: the named front ends, or those that serve the named channels, are due (R102); DUE counts those that have a mode and
range to be due in. -/
def cmdCalSelf : Cmd := fun c h => do
  needLen c 6
  let kind := pf c 0 1
  let first := pf c 2 2
  let count := pf c 4 2
  needArg 0 (kind < 2)
  needZero c 1 1
  needArg 2 (first + count ≤ (if kind = 0 then 512 else 576))
  let fes := ((rangeFrom first count).map fun i => if kind = 0 then (chanAt h i).fe.getD (homeFe h i) else i).eraseDups
  let h' := fes.foldl (fun h fe => updFe fe (makeDue h fe) h) h
  return ({ payload := leNat 2 (fes.filter fun fe => !(feUses h fe).isEmpty).length, args := leNat 1 kind ++ leNat 2 first ++ leNat 2 count }, h')

/-- Open windows, those that open at a coming tick included. -/
def openWindows (h : Hub) : Nat := (h.chans.filter (·.calWin.isSome)).length

/-- The mode and range of a channel in force. -/
def chanModeRange (h : Hub) (ch : Nat) : Nat × Nat := (dMode (chDesc h ch), (chanAt h ch).rangeNow)

/-- A SPAN may run: an accepted ZERO stands for the channel's mode and range (R112). -/
def zeroStands (h : Hub) (ch : Nat) : Bool :=
  match (chanAt h ch).zero with
  | some (m, r, _, _) => (m, r) == chanModeRange h ch
  | none => false

/-- CAL_SYSTEM. -/
def cmdCalSystem : Cmd := fun c h => do
  needLen c 24
  let ch := pf c 0 2
  let step := pf c 2 1
  let n := pf c 4 4
  needArg 0 (ch < 512)
  needArg 2 (step < 3)
  needZero c 3 1
  needArg 4 (16 ≤ n && n ≤ 16777216 && n % 2 = 0)
  needZero c 12 4
  let t ← needTick h 16 (pf c 16 8) 1
  needState (step ≠ 1 || zeroStands h ch)
  needRoom ((chanAt h ch).calWin.isNone && openWindows h < 16)
  let w : CalWin := { req := c.req, step := step, n := n, target := sfieldAt c.req.payload 8 4, openTick := t }
  return ({ acceptedAt h t [] (leNat 2 ch ++ leNat 1 step ++ leNat 4 n) with status := rPending },
    updChan ch (fun x => { x with calWin := some w }) h)

/-- SUB-selects that exist for a source (R114): none beyond 0 where none applies. -/
def hkSubs (source : Nat) : Nat :=
  if 24 ≤ source ∧ source ≤ 27 then 128
  else if (16 ≤ source ∧ source ≤ 23) ∨ (44 ≤ source ∧ source ≤ 47) then 16 else 1

/-- A housekeeping entry by itself (R115). -/
def hkEntryOk (w : Nat) : Bool :=
  decide (bitsOf w 5 0 < 48 ∧ bitsOf w 12 6 < hkSubs (bitsOf w 5 0) ∧ bitsOf w 16 13 ≤ 8 ∧ bitsOf w 31 19 = 0)

/-- A sequence has a source. -/
def seqHas (seq : List Word) (source : Nat) : Bool := seq.any fun w => hkSource w == source

/-- The sequence serves every tile with a measuring channel while ROTATE_EN is 1, and every enabled loop output (R116). -/
def hkSeqOk (h : Hub) (cfg : Cfg) (seq : List Word) : Bool :=
  (!bitOf cfg.cal.toNat 31 || (List.range 4).all fun t =>
      seqHas seq t || (rangeFrom (128 * t) 128).all fun c => dIdle (cfg.chan.getD c 3).toNat || (chanAt h c).retired) &&
    (List.range 8).all fun k => seqHas seq (28 + k) || !loEnable (cfg.loop.getD k [])

/-- CFG_HOUSEKEEPING: the sequence waits in the shadow for the next pass; EFFECT is the number of that pass. DESIGN CHOICE (log 28): a
named AT_TICK is held to R341 and moves nothing, since R116 has the sequence take effect at the next pass; a nonzero FIRST is refused,
since the entries have no subjects. -/
def cmdCfgHousekeeping : Cmd := fun c h => do
  let hd ← readHead c false 1 16 16 4
  let _ ← needTick h 0 hd.at_ 1
  needArg 8 (hd.first = 0)
  needArg 16 (hd.arg = 0)
  let ws := (entries hd 4).map ofLe
  checkAll (fun i w => needEntry (24 + 4 * i) i (hkEntryOk w)) 0 ws
  let seq := ws.map (BitVec.ofNat 32)
  needArg 24 (hkSeqOk h (checkBase h).cfg seq)
  let e := if stored h then 0 else h.hk.pass + 1
  let h' := if stored h then h else { h with hk.shadow := some seq }
  return ({ payload := leNat 8 e, effect := e, args := leNat 4 (crc32c hd.body).toNat },
    { h' with flash.store.hkSeq := seq })

/-- Quality entries of one front end: those of its runs, or FACTORY where none has run in a mode and range in use. -/
def feQuality (h : Hub) (fe : Nat) : List Quality :=
  let own := (feAt h fe).quality
  own ++ (feUses h fe).flatMap fun u =>
    (u.2.filter fun r => !own.any fun q => q.mode == u.1 && q.range == r).map fun r => { mode := u.1, range := r, result := 5 }

/-- An entry of READ_CAL_QUALITY (R101). -/
def qualityBytes (fe : Nat) (q : Quality) : Bytes :=
  leNat 2 fe ++ leNat 1 q.mode ++ leNat 1 q.range ++ leNat 1 q.result ++ leNat 1 q.trigger ++ leNat 2 q.residual ++
    leNat 2 q.agreement ++ leInt 2 q.temp ++ leNat 4 q.opSeconds

/-- Whole front ends' entries while at most 255 fit; the first front end left out. -/
def takeQuality (h : Hub) : List Nat → List Bytes → List Bytes × Option Nat
  | [], acc => (acc, none)
  | fe :: fes, acc =>
    let more := acc ++ (feQuality h fe).map (qualityBytes fe)
    if 255 < more.length then (acc, some fe) else takeQuality h fes more

/-- READ_CAL_QUALITY: NEXT_FE is the first front end not reported, or the one after the range. -/
def cmdReadCalQuality : Cmd := fun c h => do
  needLen c 4
  let first := pf c 0 2
  let count := pf c 2 2
  let r := takeQuality h ((rangeFrom first count).filter fun x => x < 576) []
  return (answer rOk (leNat 2 r.1.length ++ leNat 2 (r.2.getD (min 576 (first + count))) ++ zeros 4 ++ r.1.flatten), h)

/-- READ_HOUSEKEEPING: a code of 0 or 65,535 is flagged as clipped (R114). -/
def cmdReadHousekeeping : Cmd := fun c h => do
  needLen c 0
  let es := mapI (fun i w =>
    let code := (h.hk.codes.getD i 0).toNat
    leNat 2 code ++ leNat 1 (b2n (code == 0 || code == 0xFFFF)) ++ zeros 1 ++ leNat 1 (hkSource w) ++ leNat 1 (hkSub w) ++ zeros 2)
    h.cfg.hkSeq
  return (answer rOk (leNat 8 h.hk.pass ++ es.flatten), h)

end Sys2Proof.Machine
end

