-- ==== Sys2Proof/Machine/CmdGraph.lean ====
section
/-! DEFINITION. The commands of group 0x04: reduction graphs (14 R355, 06 R119 to R122, R139, R140). -/

namespace Sys2Proof.Machine

/-- The 24-bit range of VALUE. -/
def in24 (v : Int) : Bool := decide (-8388608 ≤ v ∧ v ≤ 8388607)

/-- The offset of the first kind word from one on that is not zero where they are reserved. -/
def restFault (d : Bytes) (from_ : Nat) : Option Nat :=
  ((rangeFrom from_ (9 - from_)).find? fun i => ndK d i != 0).map fun i => 28 + 4 * i

/-- The offset in a descriptor of the first kind word, or band code, that fails (R121, R126). -/
def kindWordsFault (d : Bytes) : Option Nat :=
  let k0 := ndK d 0
  match ndKind d with
  | 1 => none
  | 2 => if 1 ≤ k0 ∧ k0 < 64 then restFault d 1 else some 28
  | 3 =>
    if 1 ≤ ndNb d ∧ ndNb d ≤ 16 ∧ bitsOf k0 7 5 = 0 ∧ bitsOf k0 31 24 = 0 then
      match (List.range (ndNb d)).find? fun j => decide (48 ≤ ndBand d j) with
      | some j => some (32 + j)
      | none => restFault d 5
    else some 28
  | 4 =>
    if 1 ≤ ndNt d ∧ ndNt d ≤ 8 ∧ ndDir d < 3 ∧ bitsOf k0 7 6 = 0 ∧ 1 ≤ ndHyst d ∧ ndHyst d ≤ 8388608 then
      ((List.range (ndNt d)).find? fun i => !in24 (ndKs d (i + 1))).map fun i => 32 + 4 * i
    else some 28
  | 5 =>
    if bitsOf k0 1 0 < 3 ∧ bitsOf k0 3 2 < 3 ∧ bitsOf k0 7 4 = 0 ∧ 1 ≤ ndHyst d ∧ ndHyst d ≤ 8388608 then
      (if ndKs d 1 < ndKs d 2 then restFault d 3 else some 32)
    else some 28
  | _ => none

/-- An input reference: a channel, or a COMBINE node with a lower number (R119, R120). -/
def refOk (nodes : List Bytes) (i r : Nat) : Bool :=
  bitsOf r 14 10 == 0 &&
    (if refNode r then decide (refNum r < i) && ndKind (nodes.getD (refNum r) []) == 1 else decide (refNum r < 512))

/-- The offset in its descriptor of the first field of node i that fails (R119 to R121, R123). -/
def nodeFault (nodes : List Bytes) (i : Nat) : Option Nat :=
  let d := nodes.getD i []
  if ndKind d = 0 ∨ 5 < ndKind d then some 0
  else if 1 < fieldAt d 1 1 ∨ (ndKind d = 1 ∧ ndEmit d) then some 1
  else if 2 < ndAdmit d then some 2
  else if ndInputs d = 0 ∨ 8 < ndInputs d ∨ (ndKind d ≠ 1 ∧ ndInputs d ≠ 1) then some 3
  else if (if ndKind d = 1 then ndPeriod d ≠ 0 else ndPeriod d = 0 ∨ 16777216 < ndPeriod d) then some 4
  else if !(ndRefs d).all (refOk nodes i) then some 8
  else if !allZero ((d.drop 25).take 3) then some 25
  else kindWordsFault d

/-- A graph passes the checks of R139: relations and budget with it in place of the active one. -/
def graphChecked (g : Graph) (h : Hub) : Hub :=
  let b := checkBase h
  { b with cfg.graph := g, arr.activate := none }

/-- LOAD_GRAPH: one segment. A first segment while a load is incomplete breaks the order too; the descriptors are checked when the
last one is in (R139). -/
def cmdLoadGraph : Cmd := fun c h => do
  let gid := BitVec.ofNat 32 (pf c 0 4)
  let total := pf c 4 2
  let first := pf c 6 2
  let count := pf c 8 1
  needArg 8 (1 ≤ count && count ≤ 63)
  needLen c (16 + 64 * count)
  needArg 0 (gid ≠ 0)
  needArg 4 (1 ≤ total && total ≤ 1024)
  needZero c 9 7
  let held : Nat × Graph := h.arr.loading.getD (total, { id := gid })
  needState (first ≠ 0 || h.arr.activate.isNone)
  needStateAt 6 (held.1 == total && held.2.id == gid && held.2.nodes.length == first)
  needArg 8 (first + count ≤ total)
  let nodes := held.2.nodes ++ chunks 64 (c.req.payload.drop 16)
  let g : Graph := { id := gid, nodes := nodes }
  if first + count < total then
    return ({ args := leNat 4 gid.toNat }, { h with arr.loading := some (total, g) })
  else
    checkAll (fun i _ => match nodeFault nodes i with
      | some o => .error (if first ≤ i then refuseAt rArgument (16 + 64 * (i - first) + o) (i - first) else refuse rArgument)
      | none => .ok ()) 0 nodes
    let after := graphChecked g h
    let p := planAt after h.time.tick
    match (planTicks after h.time.tick).findSome? fun t => combineRel (planAt after t) g with
    | some i => throw (refuseAt rArgument 0xFFFF (if first ≤ i then i - first else 0xFFFF))
    | none => pure ()
    needBudget (budgetFault after h.time.tick)
    return ({ payload := leNat 8 (graphWork p g) ++ leNat 4 (graphState g) ++ leNat 4 (entryBytesOf g fun _ => true)
              args := leNat 4 gid.toNat ++ leNat 4 (crc32c nodes.flatten).toNat },
      { h with arr := takeShadow g h.arr })

/-- ACTIVATE_GRAPH. -/
def cmdActivateGraph : Cmd := fun c h => do
  needLen c 16
  let gid := BitVec.ofNat 32 (pf c 0 4)
  needZero c 4 4
  let t ← needTick h 8 (pf c 8 8) 2
  needStateAt 0 (gid == 0 || (match h.arr.shadow with | some g => g.id == gid | none => false))
  needState h.arr.activate.isNone
  let g := graphNamed h.arr gid
  let after := if stored h then graphChecked g h else { h with arr.activate := some (gid, t) }
  if ((planTicks after t).any fun u => (combineRel (planAt after u) g).isSome) then throw (refuse rArgument)
  needBudget (worst ((budgetFault after t).toList ++ if stored h then [] else activationFailures after t))
  let h' := if stored h then h else after
  return (accepted h t [] (leNat 4 gid.toNat), { h' with flash.store.graph := g })

/-- READ_GRAPH. -/
def cmdReadGraph : Cmd := fun c h => do
  needLen c 0
  let p := planAt h h.time.tick
  return (answer rOk (leNat 4 h.arr.active.id.toNat ++ leNat 4 ((h.arr.shadow.map (·.id.toNat)).getD 0) ++
    leNat 8 (match h.arr.activate with | some (_, a) => toStream h a | none => 0) ++ leNat 8 (graphWork p h.arr.active) ++
    leNat 4 h.arr.replays ++ leNat 4 h.arr.overruns), h)

end Sys2Proof.Machine
end

