-- ==== Sys2Proof/Machine/CmdCapture.lean ====
section
/-! DEFINITION. The commands of group 0x05: flares and captures (14 R356; 07 R147 to R167, 16 R397). -/

namespace Sys2Proof.Machine

/-! ## CFG_FLARE (07 R147 to R152) -/

/-- A reduction value is emitted: a node that is no COMBINE, with EMIT, and the word in it (06 R131). -/
def valueEmitted (g : Graph) (node word : Nat) : Bool :=
  let d := g.nodes.getD node []
  decide (node < g.nodes.length) && ndKind d != 1 && ndEmit d && decide (word < entryWords d)

/-- Conditions allowed for a source (R148). -/
def condAllowed (source cond : Nat) : Bool :=
  match source with
  | 0 => decide (cond < 6)
  | 1 => decide (cond < 4)
  | 2 => decide (cond < 4)
  | 3 => decide (cond < 2)
  | 8 => cond == 4
  | _ => cond == 5

/-- REF of a source (R148). -/
def flareRefOk (g : Graph) (d : Bytes) : Bool :=
  let r := fRef d
  match fSource d with
  | 1 => decide (r < 512)
  | 2 => decide (r < g.nodes.length) && ndKind (g.nodes.getD r []) == 1
  | 3 => decide (r < 1024) && valueEmitted g r (fWord d)
  | 6 => decide (r < 32)
  | _ => true

/-- The operands of a condition (R149, R152), checked under SOURCE OFF too (00 R3). -/
def condOperandsOk (u : Nat) (d : Bytes) : Bool :=
  match fCond d with
  | 2 => decide (1 ≤ fC d ∧ fC d ≤ 256)
  | 3 => decide (fWord d < 48 ∧ 4 ≤ fC d ∧ fC d ≤ 12) && leBinary32 (BitVec.ofNat 32 (fB d)) (BitVec.ofNat 32 (fA d))
  | 4 => decide (1 ≤ fA d ∧ fA d ≤ 16 ∧ 1 ≤ fC d ∧ fC d ≤ 1000000000) && !bitOf (fMembers d) u
  | _ => true

/-- The operands of an event source (R148), and those of the condition. -/
def flareOperandsOk (u : Nat) (d : Bytes) : Bool :=
  (match fSource d with
    | 5 => decide (1 ≤ fA d ∧ fB d < fA d)
    | 6 => decide (1 ≤ fC d ∧ fC d ≤ 24)
    | _ => true) && condOperandsOk u d

/-- The offset in its descriptor of the first field of a flare unit that fails. -/
def flareFault (g : Graph) (u : Nat) (d : Bytes) : Option Nat :=
  if 8 < fSource d then some 0
  else if !condAllowed (fSource d) (fCond d) then some 1
  else if 2 < fAdmit d then some 2
  else if 7 < fieldAt d 3 1 then some 3
  else if !flareRefOk g d then some 4
  else if !flareOperandsOk u d then some 8
  else if 24 < fHops d then some 24
  else if !allZero ((d.drop 25).take 7) then some 25
  else none

/-- A COINCIDENCE unit is a member of another (R152). -/
def coincidenceNested (p : Plan) : Bool :=
  p.cfg.flare.any fun d => fSource d == 8 &&
    (List.range 16).any fun i => bitOf (fMembers d) i && fSource (p.cfg.flare.getD i []) == 8

/-- CFG_FLARE. -/
def cmdCfgFlare : Cmd := fun c h => do
  let hd ← readHead c true 1 16 16 32
  needArg 16 (hd.arg = 0)
  let t ← needTick h 0 hd.at_ 1
  let g := (planAt (checkBase h) t).cfg.graph
  let ds := entries hd 32
  checkAll (fun i d => match flareFault g (hd.first + i) d with
    | some o => .error (refuseAt rArgument (24 + 32 * i + o) i)
    | none => .ok ()) 0 ds
  let items := mapI (fun i d => Item.flare (hd.first + i) d) ds
  let after := schedule t (commitList c items h) (checkBase h)
  if !hd.stage && coincidenceNested (planAt after t) then throw (refuseAt rArgument 44 0xFFFF)
  simpleCommit c hd t items (argsList hd) h

/-! ## CFG_CAPTURE (07 R154, R155, 16 R397) -/

/-- The offset in its descriptor of the first field of a capture definition that fails (07 R154, R155). -/
def captureFault (d : Bytes) : Option Nat :=
  if 16777216 < cPre d then some 64
  else if 16777216 < cPost d ∨ cPost d = 0 then some 68
  else if 1 < fieldAt d 72 1 then some 72
  else if 1 < fieldAt d 73 1 then some 73
  else if 1 < fieldAt d 74 1 then some 74
  else if cBuffers d = 0 ∨ 64 < cBuffers d then some 75
  else if 3 < fieldAt d 76 1 then some 76
  else if !allZero ((d.drop 77).take 3) then some 77
  else if !cWindow d ∧ cExportRate d = 0 then some 80
  else if !allZero (d.drop 84) then some 84
  else none

/-- A CAPTURE_MIB is 0, or a multiple of 64 from 256 to 6,592. -/
def mibOk (m : Nat) : Bool := m == 0 || decide (256 ≤ m ∧ m ≤ 6592 ∧ m % 64 = 0)

/-- R146 against a new size, at every tick from one on. -/
def ringFailures (h : Hub) (mib t0 : Nat) : List Failure :=
  (planTicks h t0).flatMap fun t =>
    let p := planAt h t
    let ring := ringBytes mib p.cfg.capture
    check1 7 (decide (ring < ringNeed p)) (ringNeed p) ring.toNat

/-- CFG_CAPTURE. -/
def cmdCfgCapture : Cmd := fun c h => do
  let hd ← readHead c true 0 8 8 96
  let mib := hd.arg % 65536
  needArg 18 (hd.arg < 65536)
  needArg 16 (mibOk mib)
  let t ← needTick h 0 hd.at_ 1
  let ds := entries hd 96
  checkAll (fun i d => match captureFault d with
    | some o => .error (refuseAt rArgument (24 + 96 * i + o) i)
    | none => .ok ()) 0 ds
  let items := mapI (fun i d => Item.capture (hd.first + i) d) ds
  let args := leNat 2 hd.first ++ leNat 2 hd.count ++ leNat 2 mib
  if hd.stage then
    let h' ← stage c.req.origin c.code items h
    return (stagedReply args, h')
  else
    let all := commitList c items h
    let h0 := dropStaged c.req.origin c.code h
    let after := schedule t all (checkBase h0)
    needRel none hd (relFaultFrom after t)
    needBudget (worst ((budgetFault after t).toList ++ if mib = 0 then [] else ringFailures after mib t))
    let h' := takeItems t all h0
    let rep := if all.isEmpty then { payload := leNat 8 0, args := args } else accepted h t [] args
    return (rep, if mib = 0 then h' else { h' with flash.store.captureMib := mib })

/-! ## FLARE_NOW, RELEASE_CAPTURE, CLEAR_CAPTURE_STATS, READ_CAPTURES -/

/-- A QUALITY with no reserved code or bit (10 R232); every SOURCE code has a meaning (R233). -/
def qualityOk (q : Nat) : Bool := decide (bitsOf q 2 0 ≤ 4 ∧ bitsOf q 15 13 = 0)

/-- FLARE_NOW. -/
def cmdFlareNow : Cmd := fun c h => do
  needLen c 24
  let u := pf c 0 1
  needZero c 1 7
  needArg 0 (u < 16 && unitOn h u 7)
  let bs := c.req.payload.drop 8
  let st := stampFrom bs
  needArg 16 (fieldAt bs 8 4 < 1000000000)
  needArg 22 (qualityOk st.quality)
  needArg 8 (st.inst ≤ h.time.tickInst + 3600 * secUnits)
  needState (!(h.cap.now.any (·.1 == u)))
  let i := if allZero bs then frameEnd h else st.inst
  return ({ args := leNat 1 u ++ leNat 3 (fieldAt bs 2 6) ++ leNat 4 (fieldAt bs 8 4) },
    { h with cap.now := h.cap.now ++ [(u, i)] })

/-- The capture a definition holds under WINDOW: one neither released nor recycled (R357). -/
def windowCapture (h : Hub) (d id : Nat) : Option Capture :=
  (defAt h d).caps.find? fun x => x.id == id && cWindow x.desc && !x.recycled

/-- RELEASE_CAPTURE: the buffer is free, its windows are revoked and any job on it ends. -/
def cmdReleaseCapture : Cmd := fun c h => do
  needLen c 8
  let d := pf c 0 1
  let id := pf c 4 4
  needZero c 1 3
  match (if d < 8 then windowCapture h d id else none) with
  | none => throw (refuseAt rArgument 4 0xFFFF)
  | some x => return ({ args := leNat 1 d ++ leNat 4 id }, giveUpBuffer d x h)

/-- CLEAR_CAPTURE_STATS. -/
def cmdClearCaptureStats : Cmd := fun c h => do
  needLen c 16
  let what := pf c 0 1
  needArg 0 (what < 4)
  needZero c 1 7
  let t ← needTick h 8 (pf c 8 8) 1
  return (acceptedAt h t [] (leNat 1 what), acceptItems t [.clearStats what] h)

/-- Code of a definition's state. -/
def capCode : CapState → Nat
  | .armed => 0 | .running => 1 | .rearm => 2 | .disabled => 3

/-- The grid instant of the last post slot lies before the latest tick. -/
def pastLast (h : Hub) (c : Capture) : Bool := decide (lastGrid c < h.time.tickInst)

/-- A definition's state at the latest tick: REARM from the grid instant of the last post slot on (07 R157). -/
def defState (x : CapDef) (h : Hub) : CapState :=
  match x.state with
  | .running => match x.caps.getLast? with
    | some c => if pastLast h c then .rearm else .running
    | none => .running
  | s => s

/-- READ_CAPTURES. -/
def cmdReadCaptures : Cmd := fun c h => do
  needLen c 0
  return (answer rOk ((List.range 8).flatMap fun d =>
    let x := defAt h d
    leNat 1 (capCode (defState x h)) ++ leNat 1 (freeBuffers h d) ++ zeros 2 ++ leNat 4 x.nextId ++
      leNat 4 x.missedTotal ++ zeros 4), h)

end Sys2Proof.Machine
end

