-- ==== Sys2Proof/Machine/CmdStream.lean ====
section
/-! DEFINITION. The commands of group 0x06: compression, outlets, custody and compression jobs (14 R357). -/

namespace Sys2Proof.Machine

/-! ## CFG_COMPRESSION (08 R174 to R176) -/

/-- A map entry of channel c: an enabled one names a lower channel of the same RATE. -/
def mapEntryOk (cfg : Cfg) (c e : Nat) : Bool :=
  let rate (x : Nat) : Nat := dRate (cfg.chan.getD x 3).toNat
  bitsOf e 14 10 == 0 && decide (bitsOf e 9 0 < 512) &&
    (!bitOf e 15 || (decide (bitsOf e 9 0 < c) && rate (bitsOf e 9 0) == rate c))

/-- CFG_COMPRESSION. -/
def cmdCfgCompression : Cmd := fun c h => do
  let hd ← readHead c false 512 512 512 2
  needArg 16 (bitsOf hd.arg 7 1 = 0)
  needArg 17 (1 ≤ bitsOf hd.arg 23 8)
  needArg 19 (bitsOf hd.arg 63 24 = 0)
  let t ← needTick h 0 hd.at_ 1
  let es := (entries hd 2).map ofLe
  checkAll (fun i e => needEntry (24 + 2 * i) i (mapEntryOk (checkBase h).cfg i e)) 0 es
  let args := leNat 3 hd.arg ++ leNat 4 (crc32c hd.body).toNat
  return (accepted h t [] args,
    takeItems t [.comp (BitVec.ofNat 64 hd.arg) (es.map (BitVec.ofNat 16))] h)

/-! ## Custody (09 R226, R227) -/

/-- The ranges of a payload. -/
def seqRanges (c : Ctx) : List (Nat × Nat) :=
  (chunks 16 (c.req.payload.drop 8)).map fun b => (fieldAt b 0 8, fieldAt b 8 8)

/-- Ranges ascend without overlap, and every number has been assigned; `lo` is the least first number left. -/
def rangesOk (next : Nat) : Nat → List (Nat × Nat) → Bool
  | _, [] => true
  | lo, (a, b) :: rs => decide (lo ≤ a ∧ a ≤ b ∧ b < next) && rangesOk next (b + 1) rs

/-- The entry and the offset of the first field that breaks the order or names a number not assigned: FIRST_SEQ below `lo`,
LAST_SEQ below FIRST_SEQ, then either of them beyond the numbers assigned. -/
def rangeFault (next : Nat) : Nat → Nat → List (Nat × Nat) → Option (Nat × Nat)
  | _, _, [] => none
  | i, lo, (a, b) :: rs =>
    if a < lo then some (i, 8 + 16 * i)
    else if b < a then some (i, 16 + 16 * i)
    else if next ≤ a then some (i, 8 + 16 * i)
    else if next ≤ b then some (i, 16 + 16 * i)
    else rangeFault next (i + 1) (b + 1) rs

/-- The common checks of the two commands, for at most `most` ranges. -/
def needRanges (c : Ctx) (h : Hub) (most : Nat) : Except Reply (List (Nat × Nat)) := do
  let n := pf c 0 1
  needArg 0 (1 ≤ n && n ≤ most)
  needLen c (8 + 16 * n)
  needZero c 1 7
  needState (1 < c.req.mailbox || custodyOutlet h == 2)
  match rangeFault h.stream.nextSeq 0 0 (seqRanges c) with
  | some x => throw (refuseAt rArgument x.2 x.1)
  | none => return seqRanges c

/-- Held records that a number list selects and no acknowledgement of this interval has freed. -/
def heldIn (h : Hub) (rs : List (Nat × Nat)) : List Held :=
  h.stream.reserve.filter fun x => inRanges rs x.record.seq && !inRanges h.stream.acks x.record.seq

/-- CUSTODY_ACK: the records are freed at the next tick (09 R228). -/
def cmdCustodyAck : Cmd := fun c h => do
  let rs ← needRanges c h 255
  let freed := (heldIn h rs).length
  return ({ payload := leNat 8 freed
            args := leNat 4 ((rs.map (·.1)).headD 0) ++ leNat 4 (min (2 ^ 32 - 1) freed) },
    { h with stream.acks := h.stream.acks ++ rs })

/-- CUSTODY_RETRANSMIT: served at the next tick. -/
def cmdCustodyRetransmit : Cmd := fun c h => do
  let rs ← needRanges c h 64
  needArg 8 (sumNat (rs.map fun r => r.2 + 1 - r.1) ≤ 65536)
  let held := (heldIn h rs).map (·.record.seq)
  let occs := ((h.stream.withdrawnBy.filter fun w => namesAny h rs w).map (·.occSeq)).eraseDups
  let occ := (occs.filter fun q => !held.contains q && h.stream.reserve.any (·.record.seq == q)).length
  return ({ payload := leNat 4 held.length ++ leNat 4 occ
            args := leNat 4 ((rs.map (·.1)).headD 0) ++ leNat 2 (min 65535 held.length) ++ leNat 2 (min 65535 occ) },
    { h with stream.retx := h.stream.retx ++ rs })

/-! ## CFG_OUTLETS (09 R217 to R219) -/

/-- CFG_OUTLETS. -/
def cmdCfgOutlets : Cmd := fun c h => do
  let hd ← readBareHead c 0
  let a := hd.arg
  let custody := bitsOf a 1 0
  needArg 16 (custody ≠ 3 && 1 ≤ bitsOf a 7 2 && bitsOf a 7 2 ≤ 40)
  needArg 19 (bitsOf a 31 26 = 0)
  needArg 20 (1 ≤ bitsOf a 47 32)
  needArg 22 (1 ≤ bitsOf a 63 48)
  let t ← needTick h 0 hd.at_ 1
  needStateAt 16 (custody ≠ 1 || laneUEth (checkBase h).cfg)
  needStateAt 17 (!(custody == 2 && bitsOf a 16 8 != 0))
  needStateAt 18 (!(custody == 1 && bitsOf a 25 17 != 0))
  let h' ← commitItems none hd t [.outlets (BitVec.ofNat 64 a)] h
  return (accepted h t [] (leNat 8 a), h')

/-! ## Compression jobs (08 R194 to R196) -/

/-- Bytes of transfer staging (16 R397), and of it in job buffers. -/
def stagingBytes : Nat := 192 * 1048576

/-- Bytes of staging free. -/
def stagingFree (h : Hub) : Nat := stagingBytes - sumNat (h.jobs.map fun j => (j.map (·.outSize)).getD 0)

/-- The job of an identifier. -/
def jobAt (h : Hub) (j : Nat) : Option Job := (h.jobs.getD j none)

/-- Sets a job. -/
def setJob (j : Nat) (x : Option Job) (h : Hub) : Hub := { h with jobs := setAt h.jobs j x }

/-- Positions of a capture. -/
def capPositions (x : Capture) : Nat := capTaken x

/-- COMPRESS_JOB. -/
def cmdCompressJob : Cmd := fun c h => do
  needLen c 16
  let d := pf c 0 1
  let size := pf c 2 2 * 65536
  let id := pf c 4 4
  let first := pf c 8 4
  needZero c 1 1
  needZero c 12 4
  match (if d < 8 then windowCapture h d id else none) with
  | none => throw (refuseAt rArgument 4 0xFFFF)
  | some x =>
    needState x.headerDone
    needArg 8 (first < capPositions x)
    needArg 2 (12 + (cChans x.desc).length * 4099 ≤ size)
    match h.jobs.findIdx? (·.isNone) with
    | none => throw (answer rBusy [])
    | some j =>
      needBudget (if stagingFree h < size then some (13, size, stagingFree h) else none)
      let job : Job := { req := c.req, def_ := d, capId := id, outSize := size, pos := first, seeds := cChans x.desc }
      return ({ status := rPending, payload := leNat 1 j, args := leNat 1 d ++ leNat 4 id ++ leNat 1 j },
        setJob j (some job) h)

/-- RESUME_COMPRESS: the run continues from NEXT_POS, writing from offset 0. -/
def cmdResumeCompress : Cmd := fun c h => do
  needLen c 1
  let j := pf c 0 1
  match jobAt h j with
  | none => throw (refuse rState)
  | some x =>
    needState (x.stop == some .outputFull)
    return ({ status := rPending, args := leNat 1 j },
      setJob j (some { x with req := c.req, running := true, stop := none, buf := [], bodies := 0, lost := [] }) h)

/-- Revokes the windows onto a job's output (R196). -/
def revokeJob (j : Nat) (h : Hub) : Hub := revokeWindows (fun w => w.object == 2 && w.job == j) h

/-- CANCEL_COMPRESS. -/
def cmdCancelCompress : Cmd := fun c h => do
  needLen c 1
  let j := pf c 0 1
  match jobAt h j with
  | none => throw (refuse rState)
  | some x =>
    return ({ args := leNat 1 j },
      if x.running then setJob j (some { x with cancelAsked := true }) h else setJob j none (revokeJob j h))

end Sys2Proof.Machine
end

