-- ==== Sys2Proof/Machine/CmdWindow.lean ====
section
/-! DEFINITION. Transfer windows: what each object shows, and the commands of group 0x08 (16 R395 to R402, 14 R359 to
R361). -/

namespace Sys2Proof.Machine

/-! ## The objects (16 R395, R396) -/

/-- A word of the response ROM entry of a stage: header, then taps (04 R96). -/
def stageWords (k : Nat) : List Nat :=
  let n := if k < 16 then romTaps k else if k = 17 then 39 else 23
  (n + k * 65536) :: (List.range n).map fun i => (Config.romCoef k i).toNat

/-- The response ROM. -/
def responseRom : List Nat := (List.range 19).flatMap stageWords

/-- The band ROM (06 R126). -/
def bandRom : List Nat :=
  (List.range 48).flatMap fun b => (20 + b * 65536) :: (List.range 20).map fun j => (Config.bandCoef b j).toNat

/-- Gap runs of a capture in position order: position, first frame, slots, reason. -/
def gapRuns (h : Hub) (c : Capture) : Nat → List CapSeg → List (Nat × Nat × Nat × Nat)
  | _, [] => []
  | pos, s :: ss =>
    let rest := gapRuns h c (pos + s.count) ss
    let g := segGap h c s
    if g = 0 then rest
    else match rest with
      | (p, _, n, r) :: more =>
        if p = pos + s.count ∧ r = g then (pos, s.tick, s.count + n, g) :: more else (pos, s.tick, s.count, g) :: rest
      | [] => [(pos, s.tick, s.count, g)]

/-- Sample words of a capture's held slots, slot-major. -/
def slotMajor (h : Hub) (c : Capture) : List Word :=
  c.segs.flatMap fun s => match segWords h c s with
    | none => []
    | some wss => (List.range s.count).flatMap fun i => wss.map fun ws => ws.getD i 0

/-- A capture window's three parts. -/
def captureImage (h : Hub) (d : Nat) (c : Capture) : Bytes :=
  let gaps := gapRuns h c 0 c.segs
  c.header ++ leNat 4 gaps.length ++ zeros 28 ++
    gaps.flatMap (fun g => dataHeader h d c g.2.2.2 g.2.1 g.1 g.2.2.1) ++
    (slotMajor h c).flatMap fun w => leNat 4 w.toNat

/-- A journal record as it reads: a torn one fails its CRC (15 R393). -/
def storedRec (r : JRec) : Bytes :=
  let b := journalBytes r
  if r.torn then b.take 60 ++ (b.drop 60).map (~~~·) else b

/-- Records of a running index range. -/
def journalRange (h : Hub) (first count : Nat) : List JRec :=
  h.flash.journal.filter fun r => decide (first ≤ r.index ∧ r.index < first + count)

/-- Words of a histogram and of a persistence map. -/
def histWord (h : Hub) (k : Nat) : Nat := ((h.cap.hist.find? (·.1 == (k / 256, k % 256))).map (·.2)).getD 0

/-- Two cells of the maps of a definition. -/
def mapWord (h : Hub) (d k : Nat) : Nat :=
  let ch := (cChans (defDesc h d)).getD (k / 131072) 512
  let cell (i : Nat) : Nat := ((h.cap.maps.find? (·.1 == (d, ch, i))).map (·.2)).getD 0
  cell (2 * (k % 131072)) + 65536 * cell (2 * (k % 131072) + 1)

/-- Length of the object a window was opened on. -/
def objectLength (h : Hub) (w : Window) : Nat :=
  match w.object with
  | 0 => ((windowCapture h w.def_ w.capId).map fun c => (captureImage h w.def_ c).length).getD 0
  | 1 => 64 * w.count
  | 2 => ((jobAt h w.job).map (·.outSize)).getD 0
  | 3 => 524288
  | 4 => 524288 * (cChans (defDesc h w.def_)).length
  | 5 => 10384
  | _ => 4032

/-- `n` bytes of a window from an offset; offset and `n` are multiples of 4. -/
def windowBytes (h : Hub) (w : Window) (off n : Nat) : Bytes :=
  let cut (b : Bytes) : Bytes := padTo n (b.drop off)
  let words (f : Nat → Nat) : Bytes := (rangeFrom (off / 4) (n / 4)).flatMap fun k => leNat 4 (f k)
  match w.object with
  | 0 => ((windowCapture h w.def_ w.capId).map fun c => cut (captureImage h w.def_ c)).getD (zeros n)
  | 1 => cut ((journalRange h w.first w.count).flatMap storedRec)
  | 2 => ((jobAt h w.job).map fun j => cut j.buf).getD (zeros n)
  | 3 => words (histWord h)
  | 4 => words (mapWord h w.def_)
  | 5 => words (responseRom.getD · 0)
  | _ => words (bandRom.getD · 0)

/-- The object of a window to be opened exists (R359, R395). -/
def objectExists (h : Hub) (w : Window) : Bool :=
  match w.object with
  | 0 => decide (w.def_ < 8) && ((windowCapture h w.def_ w.capId).map fun c => !c.header.isEmpty).getD false
  | 1 =>
    decide (1 ≤ w.count ∧ w.count ≤ 262144) && h.flash.journal.any (·.index == w.first) &&
      h.flash.journal.any fun r => decide (w.first + w.count ≤ r.index + 1)
  | 2 => (jobAt h w.job).isSome
  | 4 => decide (w.def_ < 8) && cPersist (defDesc h w.def_) && !(cChans (defDesc h w.def_)).isEmpty
  | n => n == 3 || n == 5 || n == 6

/-! ## Translation (16 R395, R398) -/

/-- Bytes of an IOMMU page of an object. -/
def pageSize (object : Nat) : Nat := if objectInDram object then 65536 else 4096

/-- The translation table of a window opened on an object: where its pages lie is the implementation's, and a DRAM page that has been
retired is shown at its replacement. -/
def windowTable (h : Hub) (w : Window) : List Nat :=
  (List.range (ceilDiv w.length (pageSize w.object))).map fun k =>
    let p := (Config.objectPage w.object (if w.object = 2 then w.job else w.def_) k).toNat
    if objectInDram w.object then ((h.mem.retired.find? (·.1 == p)).map (·.2)).getD p else p

/-! ## Group 0x08 -/

/-- OPEN_WINDOW. -/
def cmdOpenWindow : Cmd := fun c h => do
  needLen c 24
  needZero c 3 1
  let w : Window := { isOpen := true, object := pf c 0 1, def_ := pf c 1 1, job := pf c 2 1, capId := pf c 4 4
                      first := pf c 8 8, count := pf c 16 4, rate := pf c 20 4, mailbox := c.req.mailbox }
  match h.windows.findIdx? (!·.isOpen) with
  | none => throw (answer rBusy [])
  | some i =>
    needArg 0 (objectExists h w)
    let w := { w with length := objectLength h w }
    let w := { w with table := windowTable h w }
    let h' := { h with windows := setAt h.windows i w }
    needBudget (if w.rate = 0 then none else budgetFault h' h.time.tick)
    return ({ payload := leNat 1 i ++ zeros 7 ++ leNat 8 w.length, args := leNat 1 w.object ++ leNat 4 w.rate ++ leNat 1 i }, h')

/-- The open window that a request names, opened from its mailbox. -/
def needWindow (c : Ctx) (h : Hub) : Except Reply (Nat × Window) := do
  let i := pf c 0 1
  let w := h.windows.getD i {}
  needState (w.isOpen && w.mailbox == c.req.mailbox)
  return (i, w)

/-- CLOSE_WINDOW. -/
def cmdCloseWindow : Cmd := fun c h => do
  needLen c 1
  let x ← needWindow c h
  return ({ args := leNat 1 x.1 }, { h with windows := setAt h.windows x.1 {} })

/-- How far a transfer gets: bytes done, REASON, and where a resumption starts. -/
structure Span where
  done : Nat
  reason : Nat
  next : Nat
deriving DecidableEq, Repr

/-- Bytes from `at_` to `stop` in bursts aligned to 256: those that hold an uncorrectable error, those that complete within
200 µs, and a write offset that bounds them decide where it stops (R400, R402). -/
def spanRun (bad : List Nat) (limit : Option Nat) (stop : Nat) : Nat → Nat → Nat → Span
  | 0, at_, done => ⟨done, if at_ < stop then 3 else 0, at_⟩
  | n + 1, at_, done =>
    if stop ≤ at_ then ⟨done, 0, at_⟩
    else
      let base := at_ / 256 * 256
      let next := min stop (base + 256)
      if bad.contains base then ⟨done, 2, next⟩
      else if (match limit with | some l => decide (l < next) | none => false) then ⟨done, 3, at_⟩
      else spanRun bad limit stop n next (done + (next - at_))

/-- Serves a span of a window (R361, R400). A transfer whose grant the watchdog withdraws answers FAULT and raises
GRANT_WATCHDOG for requester 14 (R414). -/
def serveSpan (env : Env) (i : Nat) (w : Window) (off len : Nat) (h : Hub) : Reply × Hub :=
  if env.watchdog && !w.revoked then
    ({ status := rFault }, raiseNow 0xEE 0 0 0 { h with windows := setAt h.windows i { w with rest := none } })
  else
  let limit := if w.object = 2 then (jobAt h w.job).bind fun j => if j.running then some j.buf.length else none else none
  let lost := if w.object = 2 then ((jobAt h w.job).map (·.lost)).getD [] else []
  let x := spanRun (env.bad ++ lost) limit (cut env w off (off + len)) env.bursts off 0
  let hit := x.reason == 0 && decide (x.next < off + len)
  let r := if w.revoked then ⟨0, 1, off⟩ else if hit then { x with reason := 1 } else x
  let w := if hit && !w.revoked then revokeWindow w else w
  let rest := if r.reason = 2 ∨ r.reason = 3 then some (r.next, off + len - r.next) else none
  ({ status := if r.reason = 0 then rOk else rPartial
     payload := leNat 4 r.done ++ leNat 1 r.reason ++ zeros 3 ++ windowBytes h w off r.done },
    { h with windows := setAt h.windows i { w with rest := rest } })
where
  /-- Where a revocation by the hardware meets a transfer in progress (14 R361): the burst, counted from the first, that finds the window of a
  capture or a journal range revoked. -/
  cut (env : Env) (w : Window) (off stop : Nat) : Nat :=
    match env.revoked with
    | some k => if w.object < 2 then min stop (if k = 0 then off else (off / 256 + k) * 256) else stop
    | none => stop

/-- TRANSFER. -/
def cmdTransfer : Cmd := fun c h => do
  needLen c 16
  needZero c 1 3
  let off := pf c 4 8
  let len := pf c 12 4
  let x ← needWindow c h
  needState (!x.2.revoked)
  needArg 4 (off % 4 = 0)
  needArg 12 (len % 4 = 0 && 4 ≤ len && len ≤ 4064)
  needArg 4 (off + len ≤ x.2.length)
  return serveSpan c.env x.1 x.2 off len h

/-- RESUME_TRANSFER. -/
def cmdResumeTransfer : Cmd := fun c h => do
  needLen c 1
  let x ← needWindow c h
  match x.2.rest with
  | none => throw (refuse rState)
  | some (off, len) => return serveSpan c.env x.1 x.2 off len h

end Sys2Proof.Machine
end

