-- ==== Sys2Proof/Machine/CmdFault.lean ====
section
/-! DEFINITION. The commands of groups 0x09 and 0x0C: faults, journal and loop outputs (14 R362, R367). -/

namespace Sys2Proof.Machine

/-! ## Group 0x09 (R362, 15 R374, R389) -/

/-- The offset in its entry of the first field of a fault entry that R374 refuses; an all-zero entry of a reserved source
is ignored. -/
def faultEntryFault (n : Nat) (e : Bytes) : Option Nat :=
  let cls := fieldAt e 0 1
  let reaction := fieldAt e 1 1
  let retries := fieldAt e 2 1
  let window := fieldAt e 4 4
  match sourceOf n with
  | none => if allZero e then none else some 0
  | some s =>
    if s.fixed then
      if cls ≠ 2 then some 0
      else if reaction ≠ 7 then some 1
      else if retries ≠ 0 then some 2
      else if fieldAt e 3 1 ≠ 0 then some 3
      else if window ≠ 0 then some 4
      else none
    else if 2 < cls then some 0
    else if !reactionAllowed n reaction || (cls == 2 && reaction != 7) then some 1
    else if fieldAt e 3 1 ≠ 0 then some 3
    else if 1000000 < window ∨ (window = 0 ∧ cls = 0) then some 4
    else none

/-- The configuration an entry sets. -/
def faultItem (n : Nat) (e : Bytes) : Option Item :=
  (sourceOf n).map fun _ => .fault n ⟨fieldAt e 0 1, fieldAt e 1 1, fieldAt e 2 1, fieldAt e 4 4⟩

/-- CFG_FAULT. -/
def cmdCfgFault : Cmd := fun c h => do
  let hd ← readHead c true 1 256 65536 8
  needArg 16 (hd.arg < 2)
  let t ← needTick h 0 hd.at_ 1
  let es := entries hd 8
  checkAll (fun i e => match faultEntryFault (hd.first + i) e with
    | some o => .error (refuseAt rArgument (24 + 8 * i + o) i)
    | none => .ok ()) 0 es
  let items := Item.selfMerge (hd.arg == 0) :: (mapI (fun i e => faultItem (hd.first + i) e) es).filterMap id
  if hd.stage then
    let h' ← stage c.req.origin c.code items h
    return (stagedReply (argsList hd), h')
  else
    return (acceptedAt h t [] (argsList hd),
      acceptItems t (commitList c items h) (dropStaged c.req.origin c.code h))

/-- FORCE_FAULT. -/
def cmdForceFault : Cmd := fun c h => do
  needLen c 16
  let n := pf c 0 2
  let i := pf c 2 2
  let mode := pf c 4 1
  needArg 0 (sourceOf n).isSome
  needArg 2 (instOk n i)
  needArg 4 (mode < 3)
  needZero c 5 3
  let t ← needTick h 8 (pf c 8 8) 1
  return (acceptedAt h t [] (leNat 2 n ++ leNat 2 i ++ leNat 1 mode), acceptItems t [.force n i mode] h)

/-- READ_FAULTS: the history queue oldest first, then the fallback capture set. -/
def cmdReadFaults : Cmd := fun c h => do
  needLen c 0
  return (answer rOk (leNat 1 h.faults.history.length ++ zeros 7 ++ h.faults.history.flatMap histBytes ++
    fallbackBytes h.faults.fallback), h)

/-- READ_JOURNAL: records from an index, or from the oldest held; a torn record is never among them (15 R393). -/
def cmdReadJournal : Cmd := fun c h => do
  needLen c 9
  let first := pf c 0 8
  let count := pf c 8 1
  needArg 8 (1 ≤ count && count ≤ 63)
  let rs := (h.flash.journal.filter fun r => decide (first ≤ r.index) && !r.torn).take count
  return (answer rOk (leNat 8 ((rs.map (·.index)).headD first) ++ leNat 2 rs.length ++ zeros 6 ++ rs.flatMap storedRec), h)

/-! ## Group 0x0C (R367, 03 R71 to R74, 05 R116) -/

/-- V_L covers an enabled output: 4.0 V and 21.5 mA through R_L (18 R438). -/
def loopComplies (vL : Nat) (e : Bytes) : Bool := !loEnable e || decide (8000 + 43 * loRl e ≤ 20 * vL)

/-- The offset in its entry of the first field of a loop output entry that fails; V_L in 10 mV. -/
def loopFault (g : Graph) (seq : List Word) (vL k : Nat) (e : Bytes) : Option Nat :=
  if 3 < fieldAt e 0 1 then some 0
  else if !valueEmitted g (loNode e) (loWord e) then some 2
  else if loX4 e = loX20 e then some 4
  else if !loopComplies vL e then some 12
  else if fieldAt e 14 2 ≠ 0 then some 14
  else if loEnable e && !seqHas seq (28 + k) then some 0
  else none

/-- CFG_LOOP_OUTPUT. -/
def cmdCfgLoopOutput : Cmd := fun c h => do
  let hd ← readHead c false 1 8 8 16
  needArg 18 (hd.arg < 65536)
  let t ← needTick h 0 hd.at_ 1
  let p := planAt (checkBase h) t
  let es := entries hd 16
  checkAll (fun i e => match loopFault p.cfg.graph (checkBase h).cfg.hkSeq hd.arg (hd.first + i) e with
    | some o => .error (refuseAt rArgument (24 + 16 * i + o) i)
    | none => .ok ()) 0 es
  let items := Item.loopV hd.arg :: mapI (fun i e => Item.loop (hd.first + i) e) es
  let h' ← commitItems none hd t items h
  return (accepted h t [] (argsList hd), h')

/-- READ_LOOP. -/
def cmdReadLoop : Cmd := fun c h => do
  needLen c 0
  return (answer rOk (h.loops.flatMap fun l => leNat 2 l.setpoint ++ leNat 2 l.readback ++ leNat 1 l.state ++ zeros 3), h)

end Sys2Proof.Machine
end

