-- ==== Sys2Proof/Machine/Line.lean ====
section
/-! DEFINITION. What stands on a KSP lane: characters, ordered sets, framed cells, 8b/10b code groups (11 R259, R260), and the PRBS31
of the test loops (11 R269). The spec names both codes and prints neither: PRESUMED (log 24). -/

namespace Sys2Proof.Machine

/-! ## Characters and ordered sets (R259) -/

/-- A character: control or data. -/
structure LineChar where
  control : Bool := false
  byte : Byte
deriving DecidableEq, Repr

/-- Dx.y and Kx.y. -/
def charD (x y : Nat) : LineChar := { byte := BitVec.ofNat 8 (32 * y + x) }
def charK (x y : Nat) : LineChar := { control := true, byte := BitVec.ofNat 8 (32 * y + x) }

/-- The ordered sets. -/
def idleSet : List LineChar := [charK 28 5, charD 10 2, charD 10 2, charD 10 2]
def socSet : List LineChar := [charK 27 7, charD 0 0, charD 0 0, charD 0 0]
def eocSet : List LineChar := [charK 29 7, charK 28 5, charD 10 2, charD 10 2]

/-- The characters of data bytes. -/
def dataChars (bs : Bytes) : List LineChar := bs.map fun b => { byte := b }

/-- A cell on the line: SOC, its 256 bytes, EOC. -/
def cellChars (bs : Bytes) : List LineChar := socSet ++ dataChars bs ++ eocSet

/-- A training set on the line. -/
def tsChars (bs : Bytes) : List LineChar := charK 28 5 :: dataChars bs

/-! ## 8b/10b -/

/-- abcdei of the 32 values of EDCBA, a the most significant bit, for running disparity below zero. -/
def sixB : List Nat :=
  [0b100111, 0b011101, 0b101101, 0b110001, 0b110101, 0b101001, 0b011001, 0b111000] ++
  [0b111001, 0b100101, 0b010101, 0b110100, 0b001101, 0b101100, 0b011100, 0b010111] ++
  [0b011011, 0b100011, 0b010011, 0b110010, 0b001011, 0b101010, 0b011010, 0b111010] ++
  [0b110011, 0b100110, 0b010110, 0b110110, 0b001110, 0b101110, 0b011110, 0b101011]

/-- fghj of the 8 values of HGF, for running disparity below zero: data, and control. -/
def fourB : List Nat := [0b1011, 0b1001, 0b0101, 0b1100, 0b1101, 0b1010, 0b0110, 0b1110]
def fourK : List Nat := [0b1011, 0b0110, 0b1010, 0b1100, 0b1101, 0b0101, 0b1001, 0b0111]

/-- Ones among the low `n` bits. -/
def onesOf (n v : Nat) : Nat := ((List.range n).filter fun i => v.testBit i).length

/-- A block of `n` bits at a running disparity (true: above zero): one that has two forms is complemented above zero, and an uneven
one turns the disparity. -/
def codeBlock (n : Nat) (two : Bool) (v : Nat) (rd : Bool) : Nat × Bool :=
  (if rd && two then 2 ^ n - 1 - v else v, if 2 * onesOf n v = n then rd else !rd)

/-- The code group of a character, its first bit the most significant, and the disparity after it. -/
def codeGroup (rd : Bool) (c : LineChar) : BitVec 10 × Bool :=
  let x := c.byte.toNat % 32
  let y := c.byte.toNat / 32
  let v6 := if c.control && x == 28 then 0b001111 else sixB.getD x 0
  let six := codeBlock 6 (2 * onesOf 6 v6 != 6 || v6 == 0b111000) v6 rd
  let alt := !c.control && y == 7 && (if six.2 then [11, 13, 14] else [17, 18, 20]).contains x
  let v4 := if alt then 0b0111 else if c.control then fourK.getD y 0 else fourB.getD y 0
  let four := codeBlock 4 (2 * onesOf 4 v4 != 4 || v4 == 0b1100 || c.control) v4 six.2
  (BitVec.ofNat 10 (16 * six.1 + four.1), four.2)

/-- The code groups of characters, and the disparity after them. -/
def codeGroups : Bool → List LineChar → List (BitVec 10) × Bool
  | rd, [] => ([], rd)
  | rd, c :: cs =>
    let x := codeGroup rd c
    let y := codeGroups x.2 cs
    (x.1 :: y.1, y.2)

/-- The characters a lane's message stands for. -/
def lineChars (m : OutMsg) : List LineChar :=
  match m with
  | .cell _ b => cellChars b
  | .ts _ b => tsChars b
  | .idle _ => idleSet
  | _ => []

/-- Sends a message on a lane; its characters carry the running disparity on. -/
def sendLine (l : Nat) (m : OutMsg) (h : Hub) : Hub :=
  sendOut m (updLane l (fun x => { x with disparity := (codeGroups x.disparity (lineChars m)).2 }) h)

/-! ## PRBS31 -/

/-- The next bit of x^31 + x^28 + 1 from the last 31, the newest in bit 0, and the register after it. -/
def prbsNext (r : BitVec 31) : Bool × BitVec 31 :=
  let b := r.getLsbD 30 ^^ r.getLsbD 27
  (b, r <<< 1 ||| BitVec.ofNat 31 (b2n b))

/-- The next `n` bits. -/
def prbsBits : Nat → BitVec 31 → List Bool × BitVec 31
  | 0, r => ([], r)
  | n + 1, r =>
    let x := prbsNext r
    let y := prbsBits n x.2
    (x.1 :: y.1, y.2)

/-- Checks received bits against a register: the bits that differ. -/
def prbsCheck : BitVec 31 → List Bool → Nat × BitVec 31
  | r, [] => (0, r)
  | r, b :: bs =>
    let x := prbsNext r
    let y := prbsCheck x.2 bs
    (y.1 + b2n (b != x.1), y.2)

/-- A register filled from bits received, the newest in bit 0. -/
def prbsSeed (bs : List Bool) : BitVec 31 := bs.foldl (fun r b => r <<< 1 ||| BitVec.ofNat 31 (b2n b)) 0

/-- What a checker makes of received bits: the first 31 of a loop fill its register. -/
def prbsTake (r : Option (BitVec 31)) (bs : List Bool) : Nat × Option (BitVec 31) :=
  match r with
  | some r => let x := prbsCheck r bs; (x.1, some x.2)
  | none => if bs.length < 31 then (0, none) else let x := prbsCheck (prbsSeed (bs.take 31)) (bs.drop 31); (x.1, some x.2)

end Sys2Proof.Machine
end

