-- ==== Sys2Proof/Machine/Link.lean ====
section
/-! DEFINITION. The span protocol's links: cells, sequence, replay, credits, resynchronisation, forwarding (11 R270 to R278,
R284, R285). -/

namespace Sys2Proof.Machine

/-! ## Cells (R270) -/

/-- A cell whole: LSEQ, CLASS, FLAGS, ACK, LEN, HOPS, ORIGIN, payload, LCRC. -/
def cellBytes (lseq ack : BitVec 16) (c : Cell) : Bytes :=
  let b := leNat 2 lseq.toNat ++ leNat 1 c.cls ++ leNat 1 c.flags ++ leNat 2 ack.toNat ++ leNat 1 c.data.length ++
    leNat 1 c.hops ++ leNat 4 c.origin.toNat ++ padTo 240 c.data
  b ++ leNat 4 (crc32c b).toNat

/-- The LCRC of a received cell holds. -/
def lcrcOk (b : Bytes) : Bool := b.length == 256 && fieldAt b 252 4 == (crc32c (b.take 252)).toNat

/-- LSEQ, ACK and the cell of received bytes. -/
def cellFrom (b : Bytes) : BitVec 16 × BitVec 16 × Cell :=
  (BitVec.ofNat 16 (fieldAt b 0 2), BitVec.ofNat 16 (fieldAt b 4 2),
    { cls := fieldAt b 2 1, flags := fieldAt b 3 1, hops := fieldAt b 7 1, origin := BitVec.ofNat 32 (fieldAt b 8 4)
      data := (b.drop 12).take (fieldAt b 6 1) })

def cFirst (c : Cell) : Bool := bitOf c.flags 0
def cLast (c : Cell) : Bool := bitOf c.flags 1
def cAbort (c : Cell) : Bool := bitOf c.flags 2
def cMailbox (c : Cell) : Nat := bitsOf c.flags 6 4

/-- Reserved codes of a cell are set: it is discarded (R270). -/
def cellReserved (b : Bytes) : Bool :=
  let cls := fieldAt b 2 1
  let flags := fieldAt b 3 1
  let mb := bitsOf flags 6 4
  decide (6 < cls) || bitOf flags 3 || bitOf flags 7 || decide (240 < fieldAt b 6 1) ||
    (if cls = 1 then decide (mb < 2 ∨ 6 < mb) else mb != 0 || fieldAt b 7 1 != 0) ||
    (cls == 6 && !(decide (1 ≤ fieldAt b 12 1 ∧ fieldAt b 12 1 ≤ 4)))

/-- The class index of a sequenced class code. -/
def clsIdx (cls : Nat) : Nat := cls - 1

/-- The cells of a unit (R271): 240 bytes each, FIRST and LAST. -/
def unitCells (cls mb hops : Nat) (origin : BitVec 32) (bs : Bytes) : List Cell :=
  let ps := if bs.isEmpty then [[]] else chunks 240 bs
  mapI (fun i p => { cls := cls, hops := hops, origin := origin, data := p
                     flags := b2n (i == 0) + 2 * b2n (i + 1 == ps.length) + 16 * mb : Cell }) ps

/-- A cell that closes a unit cut off (R271). -/
def abortCell (cls : Nat) (origin : BitVec 32) : Cell := { cls := cls, flags := 6, origin := origin, data := [] }

/-- Receive buffers by class (R273). -/
def rxCaps (k : Nat) : List Nat := if k = 2 then [32, 0, 0, 0, 480] else [32, 16, 192, 272, 0]

/-- Adds to one class's count. -/
def raiseCls (i n : Nat) (l : List Nat) : List Nat := updAt l i (· + n)

/-- Takes from one class's count. -/
def lowerCls (i n : Nat) (l : List Nat) : List Nat := updAt l i (· - n)

/-- Lanes of a link that are UP and carry its traffic. -/
def upLanes (h : Hub) (k : Nat) : List Nat :=
  (linkLanes k).filter fun l => let x := laneAt h l; x.state == .up && !x.rejoin && !x.stopped

/-- Queues cells of one class on a link that is up; on one that is down they are lost. -/
def queueCells (k : Nat) (cs : List Cell) (h : Hub) : Hub :=
  if (linkAt h k).up then
    updLink k (fun x => { x with outQ := cs.foldl (fun q c => updAt q (clsIdx c.cls) (· ++ [c])) x.outQ }) h
  else h

/-! ## LINK messages (R275) -/

/-- A CREDIT message. -/
def creditMsg (l : Link) : Bytes := leNat 4 1 ++ l.freed.flatMap (leNat 4)

/-- A RESYNC message. -/
def resyncMsg (l : Link) : Bytes :=
  leNat 1 2 ++ leNat 1 (b2n l.acceptedValid) ++ leNat 2 l.nextLseq.toNat ++
    leNat 2 (if l.acceptedValid then l.accepted.toNat else 0) ++ zeros 2 ++ l.rxFree.flatMap (leNat 2) ++ zeros 6

/-- A NAK message. -/
def nakMsg (missing : BitVec 16) : Bytes := leNat 1 3 ++ zeros 1 ++ leNat 2 missing.toNat

/-- A LOOP_TEST message. -/
def loopTestMsg (count : Nat) : Bytes :=
  leNat 4 4 ++ leNat 4 count ++ (List.range 232).map fun i => BitVec.ofNat 8 (count + i)

/-- Queues a LINK message behind those that wait. -/
def queueLink (m : Bytes) (l : Link) : Link := { l with linkQ := l.linkQ ++ [m] }

/-- Free receive buffers once the cells held ahead of a gap are discarded. -/
def heldBack (l : Link) : List Nat := l.ahead.foldl (fun f x => raiseCls (clsIdx x.2.cls) 1 f) l.rxFree

/-- The RESYNC leaves: cells held ahead of a gap are discarded first, and the counts of buffers freed restart (R274, R275, log 24). -/
def resyncLeaves (l : Link) : Bytes × Link :=
  let l := { l with rxFree := heldBack l, ahead := [], beyond := [] }
  (resyncMsg l,
    { l with resyncDue := false, resyncAnswer := false, resyncSent := !l.resyncAnswer, creditDue := false
             freed := [0, 0, 0, 0, 0], reported := [0, 0, 0, 0, 0] })

/-- The CREDIT leaves, with the counts of that moment (R273). -/
def creditLeaves (l : Link) : Bytes × Link := (creditMsg l, { l with reported := l.freed, creditDue := false })

/-- Frees one receive buffer of a class; eight frees since the last report send a CREDIT (R273). -/
def freeBuffer (i : Nat) (l : Link) : Link :=
  let l := { l with rxFree := raiseCls i 1 l.rxFree, freed := raiseCls i 1 l.freed }
  if l.reported.getD i 0 + 8 ≤ l.freed.getD i 0 then { l with creditDue := true } else l

/-! ## Acknowledgements and replay (R272) -/

/-- A sequence number is covered by an acknowledgement, modulo 65,536. -/
def covers (ack s : BitVec 16) : Bool := decide ((ack - s).toNat < 32768)

/-- Marks own records acknowledged at link level (R278). -/
def markLinkAcked (seqs : List Nat) (h : Hub) : Hub :=
  if seqs.isEmpty then h
  else { h with stream.reserve := h.stream.reserve.map fun x =>
    if seqs.contains x.record.seq then { x with linkAcked := true } else x }

/-- Applies an acknowledgement: the cells it covers leave the replay buffer. -/
def applyAck (k : Nat) (ack : BitVec 16) (h : Hub) : Hub :=
  let l := linkAt h k
  let gone := l.replay.filter fun x => covers ack x.1
  if gone.isEmpty then h
  else
    let seqs := (l.lastCells.filter fun x => covers ack x.1).map (·.2)
    let h := updLink k (fun l => { l with
      replay := l.replay.filter fun x => !covers ack x.1
      resendQ := l.resendQ.filter fun x => !covers ack x.1
      lastCells := l.lastCells.filter fun x => !covers ack x.1 }) h
    let shadow := (gone.filter fun x => x.2.cls == 5 && !cAbort x.2).length
    markLinkAcked seqs { h with pair.coveredCells := h.pair.coveredCells + shadow }

/-- A NAK: every cell from the missing one onwards is sent again, in order. -/
def nakReceipt (k : Nat) (missing : BitVec 16) (h : Hub) : Hub :=
  updLink k (fun l => { l with resendQ := l.replay.filter fun x => covers x.1 missing }) h

/-- The receiver's NAK for its lowest missing cell. -/
def sendNak (k : Nat) (h : Hub) : Hub :=
  updLink k (fun l => { queueLink (nakMsg l.expect) l with beyond := [] }) h

/-! ## Credits (R273, 09 R229) -/

/-- Cells of a class not yet acknowledged. -/
def inFlight (l : Link) (i : Nat) : Nat := (l.replay.filter fun x => clsIdx x.2.cls == i).length

/-- Receipt of a CREDIT: the credits grow by the buffers freed since the last one; one that breaks the book raises
LANE_CREDIT for the lane it came on, and is not applied. -/
def creditReceipt (k lane : Nat) (msg : Bytes) (h : Hub) : Hub :=
  let l := linkAt h k
  let freed := (List.range 5).map fun i => fieldAt msg (4 + 4 * i) 4
  let gain (i : Nat) : Nat := ((BitVec.ofNat 32 (freed.getD i 0)) - BitVec.ofNat 32 (l.farFreed.getD i 0)).toNat
  let credits := mapI (fun i c => c + gain i) l.credits
  if (List.range 5).any fun i => decide ((rxCaps k).getD i 0 < credits.getD i 0 + inFlight l i) then
    raiseNow (laneBase lane + 5) 0 0 0 h
  else updLink k (fun l => { l with credits := credits, farFreed := freed }) h

/-! ## Initialisation and resynchronisation (R274, R277) -/

/-- Initialises a link: LSEQ starts at 0 and RESYNC is to be sent; the far side's tells which LSEQ comes next (R274). -/
def linkInit (k : Nat) (h : Hub) : Hub :=
  updLink k (fun l => { l with
    up := true, initialised := true, nextLseq := 0, replay := [], resendQ := [], lastCells := []
    resyncDue := true, resyncAnswer := false, resyncSent := false }) h

/-- Resynchronises a link on the lane that remains (R277). -/
def linkResync (k : Nat) (h : Hub) : Hub := updLink k (fun l => { l with resyncDue := true }) h

/-- The far side of a link has lost a lane: sending on it stops (R277). -/
def stopLost (k lane : Nat) (h : Hub) : Hub :=
  ((linkLanes k).filter fun l => l != lane && (laneAt h l).state == .up && !(laneAt h l).rejoin).foldl
    (fun h l => updLane l (fun x => { x with stopped := true }) h) h

/-- Receipt of a RESYNC: what was accepted leaves the replay buffer, the rest is sent again, the credits are the far side's free buffers
less what is sent again, and the counts of buffers freed restart on either side. While the link is not ready this completes its initialisation; on a link that
carries traffic the far side has lost a lane, and the side that did not start it answers with its own. -/
def resyncReceipt (k lane : Nat) (msg : Bytes) (h : Hub) : Hub :=
  let free := (List.range 5).map fun i => fieldAt msg (8 + 2 * i) 2
  if (List.range 5).any fun i => decide ((rxCaps k).getD i 0 < free.getD i 0) then raiseNow (laneBase lane + 5) 0 0 0 h
  else
    let valid := bitOf (fieldAt msg 1 1) 0
    let h := if valid && (linkAt h k).ready then applyAck k (BitVec.ofNat 16 (fieldAt msg 4 2)) h else h
    let h := if (linkAt h k).ready then stopLost k lane h else h
    updLink k (fun l =>
      let l := { l with
        resendQ := l.replay
        credits := mapI (fun i f => f - inFlight l i) free
        farFreed := [0, 0, 0, 0, 0], freed := [0, 0, 0, 0, 0], reported := [0, 0, 0, 0, 0] }
      if !l.ready then { l with expect := BitVec.ofNat 16 (fieldAt msg 2 2), resyncHeard := true }
      else if l.resyncSent then { l with resyncSent := false }
      else { l with resyncDue := true, resyncAnswer := true }) h

/-- A tick of a link: its own RESYNC has left and the far side's has come, it carries traffic from here (R274); a credit return a
tick (R273). -/
def linkTick (l : Link) : Link :=
  let l := if l.initialised && !l.ready && l.resyncSent && l.resyncHeard then
      { l with ready := true, resyncSent := false } else l
  { l with creditDue := l.ready }

/-! ## Forwarding (R285, R289) -/

/-- The uplink's fields (R288). -/
def upAddr (h : Hub) : Nat := fieldAt h.cfg.uplink 0 4
def upPrefix (h : Hub) : Nat := fieldAt h.cfg.uplink 4 1
def upGateway (h : Hub) : Nat := fieldAt h.cfg.uplink 8 4
def upSink (h : Hub) : Nat := fieldAt h.cfg.uplink 12 4
def upSinkPort (h : Hub) : Nat := fieldAt h.cfg.uplink 16 2
def upCopyPort (h : Hub) : Nat := fieldAt h.cfg.uplink 18 2

/-- Lane U runs Ethernet, and its link is up. -/
def ethMode (h : Hub) : Bool := decide (2 ≤ lMode (laneDesc h 5))
def ethUp (h : Hub) : Bool := ethMode h && (laneAt h 5).state == .ethUp

/-- The address the hub resolves: the custody sink, or the gateway where the sink lies outside the prefix (R287). -/
def nextHop (h : Hub) : Nat :=
  let m := 2 ^ (32 - upPrefix h)
  if upAddr h / m = upSink h / m then upSink h else upGateway h

/-- That address is resolved. -/
def hopResolved (h : Hub) : Bool := h.eth.arp.any fun x => x.1.toNat == nextHop h

/-- Record datagrams may leave: lane U is ETH_UP, the hub has an address and the next hop's is resolved. -/
def ethReady (h : Hub) : Bool := ethUp h && upAddr h != 0 && hopResolved h

/-- Sends one record datagram (R289); with IPV4_ADDR 0 the hub sends none (R288). -/
def recordDatagram (origin offset seq port : Nat) (bs : Bytes) (h : Hub) : Hub :=
  if upAddr h = 0 || !ethUp h then h
  else sendOut (.datagram (BitVec.ofNat 32 (upSink h)) port (fieldAt h.cfg.uplink 20 2) (fieldAt h.cfg.uplink 5 1) (leNat 4 origin ++ leNat 4 offset ++ leNat 8 seq ++ bs)) h

/-- A cell of another hub's record goes into datagrams of six cells each. -/
def forwardEth (c : Cell) (h : Hub) : Hub :=
  let cur : EthFwd := if cFirst c then { origin := c.origin, seq := fieldAt c.data 8 8, offset := 0, data := [] }
    else ((h.eth.fwd.find? (·.origin == c.origin)).getD { origin := c.origin, seq := 0, offset := 0, data := [] })
  let others := h.eth.fwd.filter (·.origin != c.origin)
  if cAbort c then { h with eth.fwd := others }
  else
    let data := cur.data ++ c.data
    if cLast c || data.length == 1440 then
      let h := recordDatagram c.origin.toNat cur.offset cur.seq (upSinkPort h) data h
      { h with eth.fwd := if cLast c then others else others ++ [{ cur with offset := cur.offset + data.length, data := [] }] }
    else { h with eth.fwd := others ++ [{ cur with data := data }] }

/-- Gives the receive buffers of cells that have left back to the links they came by. -/
def freeSources (cs : List Cell) (h : Hub) : Hub :=
  cs.foldl (fun h c => match c.src with | some (k, i) => updLink k (freeBuffer i) h | none => h) h

/-- Cells that wait to be forwarded on Ethernet go into datagrams once those may leave. -/
def drainPass (h : Hub) : Hub :=
  if ethReady h then
    let q := (linkAt h 3).outQ.getD 3 []
    freeSources q (q.foldl (fun h c => forwardEth c h) (updLink 3 (fun l => { l with outQ := setAt l.outQ 3 [] }) h))
  else h

/-- Queues cells to be forwarded on a link, its buffers kept until they leave; on Ethernet they leave at once where they may. -/
def queuePass (toward : Nat) (cs : List Cell) (h : Hub) : Hub :=
  let h := updLink toward (fun l => { l with outQ := updAt l.outQ 3 (· ++ cs) }) h
  if toward = 3 && ethMode h then drainPass h else h

/-- A unit that is being forwarded. -/
def forwards (origin : BitVec 32) (p : Partial) : Bool := p.cls == 4 && p.origin == origin

/-- A DATA or PASS cell accepted from a link: forwarded in the custody direction as PASS, its buffer kept until it leaves; discarded
where its unit has been cut off, or, with its record counted, when it comes from that direction. -/
def forwardCell (k : Nat) (c : Cell) (h : Hub) : Hub :=
  let i := clsIdx c.cls
  let toward := custodyLink h.cfg
  let track (l : Link) : Link :=
    let ps := l.partials.filter (!forwards c.origin ·)
    { l with partials := if cLast c then ps else ps ++ [{ cls := 4, origin := c.origin, data := [] }] }
  if toward = k then
    updLink k (fun l => freeBuffer i { l with discarded := l.discarded + b2n (cFirst c) }) h
  else if !cFirst c && !(linkAt h k).partials.any (forwards c.origin) then updLink k (freeBuffer i) h
  else queuePass toward [{ c with cls := 4, src := some (k, i) }] (updLink k track h)

/-! ## Acceptance in order (R271, R272) -/

/-- A unit that a link delivers whole. -/
inductive Delivery
  | mail (dest : BitVec 32) (hops mb : Nat) (msg : Bytes)
  | flare (msg : Bytes)
  | shadow (bytes : Bytes)
deriving DecidableEq, Repr

/-- Adds a cell to the unit it belongs to; the unit whole on its LAST cell. ABORT discards the part. -/
def assemble (c : Cell) (ps : List Partial) : List Partial × Option Bytes :=
  let mine (p : Partial) : Bool := p.cls == c.cls && p.origin == c.origin
  let others := ps.filter (!mine ·)
  if cAbort c then (others, none)
  else
    let held := if cFirst c then some [] else (ps.find? mine).map (·.data)
    match held with
    | none => (ps, none)
    | some d =>
      if cLast c then (others, some (d ++ c.data))
      else (others ++ [{ cls := c.cls, origin := c.origin, data := d ++ c.data }], none)

/-- Passes on a cell accepted in order. -/
def passOn (k : Nat) (c : Cell) (h : Hub) : Hub × List Delivery :=
  if c.cls = 3 ∨ c.cls = 4 then (forwardCell k c h, [])
  else
    let r := assemble c (linkAt h k).partials
    let h := updLink k (fun l => freeBuffer (clsIdx c.cls) { l with partials := r.1 }) h
    (h, match r.2 with
      | none => []
      | some bs =>
        if c.cls = 1 then [.mail c.origin c.hops (cMailbox c) bs]
        else if c.cls = 2 then [.flare bs] else [.shadow bs])

/-- Accepts a cell in order, then those held that now follow; at most `fuel` cells. -/
def acceptFuel (k : Nat) : Nat → Cell → Hub → Hub × List Delivery
  | 0, _, h => (h, [])
  | n + 1, c, h =>
    let h := updLink k (fun l => { l with expect := l.expect + 1, accepted := l.expect, acceptedValid := true, beyond := [] }) h
    let r := passOn k c h
    let l := linkAt r.1 k
    match l.ahead.find? (·.1 == l.expect) with
    | none => r
    | some x =>
      let h := updLink k (fun l => { l with ahead := l.ahead.filter (·.1 != x.1) }) r.1
      let r2 := acceptFuel k n x.2 h
      (r2.1, r.2 ++ r2.2)

/-- Receipt of a sequenced cell on a lane of a link: accepted in order, held ahead of a gap, or dropped as a repeat. Once
every UP lane has delivered a cell beyond the gap, a NAK is sent. -/
def sequencedReceipt (k lane : Nat) (lseq : BitVec 16) (c : Cell) (h : Hub) : Hub × List Delivery :=
  let l := linkAt h k
  let i := clsIdx c.cls
  if covers (l.expect - 1) lseq then (h, [])
  else if l.rxFree.getD i 0 = 0 then (h, [])
  else if lseq = l.expect then
    acceptFuel k 1024 c (updLink k (fun l => { l with rxFree := lowerCls i 1 l.rxFree }) h)
  else if l.ahead.any (·.1 == lseq) then (h, [])
  else
    let beyond := (lane :: l.beyond).eraseDups
    let h := updLink k (fun l => { l with
      rxFree := lowerCls i 1 l.rxFree, ahead := l.ahead ++ [(lseq, c)], beyond := beyond }) h
    if (upLanes h k).all beyond.contains then (sendNak k h, []) else (h, [])

/-! ## Loss of a link (R278) -/

/-- A unit that a link was bringing to be forwarded is closed with ABORT, whether or not the onward link is up. -/
def abortOnward (origin : BitVec 32) (h : Hub) : Hub := queuePass (custodyLink h.cfg) [abortCell 4 origin] h

/-- The queued cells of the unit an origin has on its way: up to its LAST. -/
def unitTail (origin : BitVec 32) (q : List Cell) : List Cell :=
  let mine := q.filter (·.origin == origin)
  let n := (mine.takeWhile (!cLast ·)).length
  mine.take (n + 1)

/-- The record that a link was sending for another hub is cut off: what is left of it is dropped, with what is still to come, and an
ABORT stands in its place (R271, R278). -/
def cutPass (k : Nat) (h : Hub) : Hub :=
  let l := linkAt h k
  match l.passCur with
  | none => h
  | some o =>
    let q := l.outQ.getD 3 []
    let tail := unitTail o q
    let whole := tail.any cLast
    let h := freeSources tail h
    let h := if whole then h
      else { h with links := h.links.map fun x => { x with partials := x.partials.filter (!forwards o ·) } }
    updLink k (fun l => { l with passCur := none, outQ := setAt l.outQ 3 (abortCell 4 o :: tail.foldl (·.erase ·) q) }) h

/-- The own record on its way over a link is cut off: it goes again whole, and an ABORT closes what has left. -/
def cutOwn (k : Nat) (h : Hub) : Hub :=
  match (linkAt h k).cur with
  | none => h
  | some _ => updLink k (fun l => { l with cur := none, outQ := updAt l.outQ 2 (· ++ [abortCell 3 h.flash.hubId]) }) h

/-- What is left of a queue of MAILBOX or SHADOW cells: a unit partly sent is closed with ABORT once the link returns (R271). -/
def cutUnit (q : List Cell) : List Cell :=
  match q with
  | c :: _ => if cFirst c then [] else [{ c with flags := 6 + 16 * cMailbox c, data := [] }]
  | [] => []

/-- Every lane of a link is lost: the replay buffer is emptied, units being forwarded onwards are closed with ABORT, in either
direction, and own records not acknowledged at link level are to be sent whole again (R278). -/
def linkDown (k : Nat) (h : Hub) : Hub :=
  let l := linkAt h k
  let h := if l.up then (l.partials.filter (·.cls == 4)).foldl (fun h p => abortOnward p.origin h) h else h
  let h := cutOwn k (cutPass k h)
  let h := updLink k (fun l => { l with
    up := false, initialised := false, ready := false, resyncDue := false, resyncAnswer := false, resyncSent := false
    resyncHeard := false, creditDue := false
    replay := [], resendQ := [], ahead := [], beyond := [], partials := [], linkQ := [], lastCells := []
    rxFree := heldBack l
    outQ := [cutUnit (l.outQ.getD 0 []), [], l.outQ.getD 2 [], l.outQ.getD 3 [], cutUnit (l.outQ.getD 4 [])] }) h
  if k = custodyLink h.cfg then unsend (fun x => !x.linkAcked) (flushLane h) else h

/-! ## A change of the custody direction (01 R21, 09 R218) -/

/-- PASS cells that wait on the old link, but for its first `keep`, go to the new one; those that came by it are discarded. -/
def redirectPass (old new keep : Nat) (h : Hub) : Hub :=
  let q := (linkAt h old).outQ.getD 3 []
  let back := (q.drop keep).filter fun c => (c.src.map (·.1)) == some new
  let on := (q.drop keep).filter fun c => (c.src.map (·.1)) != some new
  let h := updLink old (fun l => { l with outQ := setAt l.outQ 3 (q.take keep) }) h
  let h := updLink new (fun l => { l with discarded := l.discarded + (back.filter cFirst).length }) (freeSources back h)
  queuePass new on h

/-- The custody direction has changed: what is on its way over the old link is cut off there, and the rest goes the new way. -/
def directionChange (before : Hub) (h : Hub) : Hub :=
  let old := custodyLink before.cfg
  let new := custodyLink h.cfg
  if old = new then h
  else
    let h := redirectPass old new (b2n (linkAt h old).passCur.isSome) (cutOwn old (cutPass old h))
    { flushLane h with eth.fwd := if old = 3 then [] else h.eth.fwd }

/-! ## Choosing a cell (R276, R279) -/

/-- The class may leave now: a credit, and room in the replay buffer of 512 cells. -/
def mayStart (l : Link) (i : Nat) : Bool := l.ready && decide (0 < l.credits.getD i 0) && decide (l.replay.length < 512)

/-- Sends a sequenced cell: it takes the next LSEQ and a credit of its class, and stays in the replay buffer. -/
def startCell (k : Nat) (c : Cell) (h : Hub) : Bytes × Hub :=
  let l := linkAt h k
  let s := l.nextLseq
  (cellBytes s (l.expect - 1) c,
    updLink k (fun l => { l with
      nextLseq := s + 1, replay := l.replay ++ [(s, c)], credits := lowerCls (clsIdx c.cls) 1 l.credits }) h)

/-- The first queued PASS cell of the origin whose turn it is: the record on its way goes on to its end, then the origins take turns
(R285). -/
def nextPass (l : Link) : Option Cell :=
  let q := l.outQ.getD 3 []
  match l.passCur with
  | some o => q.find? (·.origin == o)
  | none =>
    let after := q.filter fun c => decide (l.passLast.toNat < c.origin.toNat)
    let pick (xs : List Cell) : Option Cell :=
      (xs.map (·.origin.toNat)).min?.bind fun o => xs.find? (·.origin.toNat == o)
    (pick after).orElse fun _ => pick q

/-- Takes a queued cell of MAILBOX, FLARE, PASS or SHADOW. -/
def takeQueued (k i : Nat) (h : Hub) : Option (Cell × Hub) :=
  let l := linkAt h k
  if i = 3 then
    (nextPass l).map fun c =>
      let h := updLink k (fun l => { l with
        outQ := updAt l.outQ 3 (·.erase c)
        passCur := if cLast c then none else some c.origin, passLast := c.origin }) h
      (c, match c.src with
        | some (k', i') => updLink k' (freeBuffer i') h
        | none => h)
  else
    match l.outQ.getD i [] with
    | [] => none
    | c :: cs => some (c, updLink k (fun l => { l with outQ := setAt l.outQ i cs }) h)

/-- Words of the packet at the front of a FIFO that one cell takes: 80, or fewer up to its END; none while it holds fewer. -/
def cellWords (f : Fifo) : Option (List Word) :=
  let ws := f.words.take 80
  let n := (ws.takeWhile (!wEnd ·)).length
  if n < ws.length then some (ws.take (n + 1)) else if ws.length = 80 then some ws else none

/-- Takes words from the front of a FIFO; the room they leave is filled. -/
def fifoTake (ws : List Word) (f : Fifo) : Fifo :=
  fifoFill { f with words := f.words.drop ws.length, packets := f.packets - endCount ws, seqs := f.seqs.drop (endCount ws) }

/-- The next cell of the own record on its way from the lane outlet's FIFO (R271). A packet that ends before the record's
LENGTH is closed with ABORT. -/
def takeData (k : Nat) (h : Hub) : Option (Cell × Option Nat × Hub) :=
  if custodyOutlet h != 0 || custodyLink h.cfg != k then none
  else
    (cellWords h.outlets.lane).map fun ws =>
      let l := linkAt h k
      let bs := ws.flatMap fun w => leNat 3 (w.toNat / 256)
      let cur := l.cur.getD (fieldAt bs 8 8, fieldAt bs 0 4 / 1024, 0)
      let first := l.cur.isNone
      let ended := wEnd (ws.getLastD 0)
      let left := cur.2.1 - cur.2.2
      let hub := h.flash.hubId
      let h := { h with outlets.lane := fifoTake ws h.outlets.lane }
      if ended && decide (bs.length < left) then
        (abortCell 3 hub, none, updLink k (fun l => { l with cur := none }) h)
      else
        ({ cls := 3, flags := b2n first + 2 * b2n ended, origin := hub, data := bs.take left },
          if ended then some cur.1 else none,
          updLink k (fun l => { l with cur := if ended then none else some (cur.1, cur.2.1, cur.2.2 + bs.length) }) h)

/-- Starts a cell of one class on a link, if it may. -/
def startClass (k i : Nat) (h : Hub) : Option (Bytes × Hub) :=
  let l := linkAt h k
  if !mayStart l i then none
  else if i = 2 && (l.outQ.getD 2 []).isEmpty then
    (takeData k h).map fun (c, seq, h') =>
      let s := l.nextLseq
      let r := startCell k c h'
      (r.1, match seq with
        | some q => updLink k (fun l => { l with lastCells := l.lastCells ++ [(s, q)] }) r.2
        | none => r.2)
  else (takeQueued k i h).map fun (c, h') => startCell k c h'

/-- The first class of an order that can start a cell. -/
def startFirst (k : Nat) (h : Hub) : List Nat → Option (Bytes × Hub)
  | [] => none
  | i :: is => (startClass k i h).orElse fun _ => startFirst k h is

/-- The order in which classes borrow a start: FLARE, MAILBOX, DATA, PASS, SHADOW (R279). -/
def borrowOrder : List Nat := [1, 0, 2, 3, 4]

/-- The next LINK message of a link and the link after it: a RESYNC that is due, then a CREDIT, then those that wait. -/
def nextLink (l : Link) : Option (Bytes × Link) :=
  if l.resyncDue then some (resyncLeaves l)
  else if l.creditDue then some (creditLeaves l)
  else match l.linkQ with
    | [] => none
    | m :: ms => some (m, { l with linkQ := ms })

/-- The next LINK cell of a link. -/
def startLink (k : Nat) (h : Hub) : Option (Bytes × Hub) :=
  (nextLink (linkAt h k)).map fun x =>
    (cellBytes 0 ((linkAt h k).expect - 1) { cls := 6, flags := 3, origin := h.flash.hubId, data := x.1 }, updLink k (fun _ => x.2) h)

/-- The next cell to send again; each is a replay of the lane it leaves on (R272). -/
def startResend (k lane : Nat) (h : Hub) : Option (Bytes × Hub) :=
  let l := linkAt h k
  match l.resendQ with
  | [] => none
  | x :: xs =>
    if l.ready then
      some (cellBytes x.1 (l.expect - 1) x.2,
        updLane lane (fun y => { y with replays := y.replays + 1 }) (updLink k (fun l => { l with resendQ := xs }) h))
    else none

end Sys2Proof.Machine
end

