-- ==== Sys2Proof/Machine/Lanes.lean ====
section
/-! DEFINITION. The lanes: alignment, training, loss, bonds, test loops (11 R257 to R269, R277). -/

namespace Sys2Proof.Machine

/-! ## Entering and leaving UP (R265 to R268, R277) -/

/-- The preset of a rate (R262). -/
def preset (rate : Nat) : Taps := [⟨0, 63, 0⟩, ⟨0, 55, 8⟩, ⟨2, 49, 12⟩, ⟨4, 43, 16⟩].getD rate {}

/-- A lane out of training, nothing heard. -/
def idleLane (x : Lane) : Lane :=
  { x with
    rate := none, train := .idle, aligned := none, setRun := (0, 0), commaRun := (0, 0), heard := false
    farHeard := false, tapReq := 0, tapSts := 0, rxReady := false, passed := none, doneSent := false, doneHeard := false
    reachedCaps := false, measured := false, rejoin := false, stopped := false, carried := false, asked := [], upSince := none
    timeDue := false, loopReq := false, farMsg := none, departures := [], prbsTx := 0x7FFFFFFF, prbsRx := none }

/-- The other lane of a bond, where there is one. -/
def bondMate (l : Nat) : Option Nat := [some 1, some 0, some 3, some 2].getD l none

/-- A lane that was UP leaves its link: the link goes on, on the lane that remains, be it only about to rejoin, or is down (R277,
R278). -/
def leaveLink (l : Nat) (h : Hub) : Hub :=
  let k := laneLink l
  if (linkAt h k).up then
    if (linkLanes k).any fun m => (laneAt h m).state == .up then linkResync k h else linkDown k h
  else h

/-- The rate of a lane out of training: a searching one is back at 1.25 Gb/s, and NEAR_SERIAL runs at MAX_RATE (R265, R269). -/
def restRate (st : LaneState) (d : BitVec 64) : Option Nat :=
  match st with
  | .searching | .miswired => some 0
  | .loopback => if lLoop d = 1 then some (lMaxRate d) else none
  | _ => none

/-- A lane leaves what it was doing for another state. -/
def laneTo (st : LaneState) (l : Nat) (h : Hub) : Hub :=
  let was := (laneAt h l).state
  let h := updLane l (fun x => { idleLane x with state := st, rate := restRate st (laneDesc h l) }) h
  if was == .up then leaveLink l h else h

/-- The wait before the next attempt: 10 ms, then doubled up to 1,280 ms (R265). -/
def nextWait (w : Nat) : Nat := if w = 0 then 10 else min 1280 (2 * w)

/-- Ends an attempt with the partner absent. -/
def attemptEnds (l : Nat) (h : Hub) : Hub :=
  updLane l (fun x => { x with waitMs := nextWait x.waitMs }) (laneTo .searching l h)

/-- Failed trainings of the last 10 min (R267). -/
def recentFails (h : Hub) (x : Lane) : List Nat := x.fails.filter fun t => decide (h.time.op4k ≤ t + 2400000)

/-- Counts a failed training. -/
def failTraining (l : Nat) (h : Hub) : Hub :=
  raiseNow (laneBase l + 2) 0 0 0 (updLane l (fun x => { x with fails := h.time.op4k :: recentFails h x }) h)

/-- A test loop ends: the counts still out never return (R275). -/
def loopEnds (x : Lane) : Lane :=
  { x with prbsErrors := x.prbsErrors + BitVec.ofNat 32 (1856 * x.loopSeen.length), loopSeen := [], loopCount := 0 }

/-- LOS or LOL of a lane (R268): an UP lane raises its source and retrains from search; within 60 s of reaching UP it is a
failed training. A training lane ends its attempt, which has failed if it reached CAPS and had not settled (R267). A far-end loop ends,
and the lane retrains; near-end loops do not hear the balls. -/
def laneLoss (k : Nat) (l : Nat) (dt : Nat) (h : Hub) : Hub :=
  let x := laneAt h l
  let counted := updLane l (fun x => { x with lockLosses := x.lockLosses + 1 }) h
  if x.state == .up then
    let r : Raise := { source := laneBase l + k, inst := 0, start := instAt h dt, capture := instAt h dt }
    let h1 := raiseFault r true (updLane l (fun x => { x with silent := true }) (laneTo .searching l counted))
    let soon := match x.upSince with | some t => decide (h.time.op4k < t + 240000) | none => false
    if soon then failTraining l h1 else h1
  else if x.train != .idle then
    let h1 := attemptEnds l counted
    if (x.reachedCaps || x.train == .caps) && x.train != .settle then failTraining l h1 else h1
  else match x.state with
    | .searching | .miswired => counted
    | .farLooped => laneTo .searching l counted
    | .loopback => if lLoop (laneDesc h l) = 3 then laneTo .searching l (updLane l loopEnds counted) else counted
    | _ => h

/-- A lane enters UP: its link is initialised, or the lane rejoins it at the next tick (R274, R277). -/
def laneUp (l : Nat) (h : Hub) : Hub :=
  let k := laneLink l
  let linked := (linkAt h k).up
  let h := updLane l (fun x => { x with
    state := .up, train := .idle, waitMs := 0, upSince := some h.time.op4k, rejoin := linked, measured := false, silent := false }) h
  if linked then h else linkInit k h

/-- Retires a lane (R267, 15 R376). -/
def retireLane (l source : Nat) (h : Hub) : Hub :=
  if (laneAt h l).state == .retired then h
  else jChange 0x300B (leNat 1 l ++ leNat 2 source) (laneTo .retired l h)

/-! ## Training sets (R260) -/

/-- Bytes 1 to 15 of a TS that a lane sends. -/
def tsBytes (type rate countdown caps : Nat) (l : Nat) (h : Hub) : Bytes :=
  let x := laneAt h l
  let d := laneDesc h l
  let b := leNat 1 type ++ leNat 1 rate ++ leNat 1 l ++ leNat 1 (lMaxRate d) ++ leNat 4 h.flash.hubId.toNat ++
    leNat 1 x.tapReq ++ leNat 1 (x.tapSts + 64 * b2n x.rxReady) ++ leNat 1 countdown ++
    leNat 1 (b2n x.heard + 2 * b2n (lAllowFar d) + 4 * caps) ++ zeros 2
  b ++ [~~~(b.foldl (· ^^^ ·) 0)]

/-- Sends a TS (log 12). -/
def sendTs (type rate countdown caps : Nat) (l : Nat) (h : Hub) : Hub :=
  sendLine l (.ts l (tsBytes type rate countdown caps l h)) h

/-- A received TS whose check holds and whose type is not reserved. -/
def tsValid (ts : Bytes) : Bool :=
  ts.length == 15 && ts.getD 14 0 == ~~~((ts.take 14).foldl (· ^^^ ·) 0) && decide (1 ≤ fieldAt ts 0 1 ∧ fieldAt ts 0 1 ≤ 7)

/-- The code of a training rate in use. -/
def rateOf (x : Lane) : Nat := x.rate.getD 0

/-! ## Taps (R262) -/

/-- One tap moved by a request of 1 INC or 2 DEC, with the status: 1 UPDATED, 2 AT_LIMIT. -/
def moveTap (req v lo hi room : Nat) : Nat × Nat :=
  if req = 1 then (if v < hi ∧ 0 < room then (v + 1, 1) else (v, 2))
  else if req = 2 then (if lo < v then (v - 1, 1) else (v, 2))
  else (v, 0)

/-- Applies a far side's TAP_REQ: pre, main and post in that order, each once until the far side sends HOLD. -/
def applyTapReq (req : Nat) (x : Lane) : Lane :=
  let old (i : Nat) : Nat := x.tapSts / 4 ^ i % 4
  let ask (i : Nat) : Nat := if old i = 0 then req / 4 ^ i % 4 else 0
  let room (t : Taps) : Nat := 63 - (t.pre + t.main + t.post)
  if bitOf req 6 then { x with taps := preset (rateOf x), tapSts := 21 }
  else
    let t := x.taps
    let p := moveTap (ask 0) t.pre 0 15 (room t)
    let t := { t with pre := p.1 }
    let m := moveTap (ask 1) t.main 24 63 (room t)
    let t := { t with main := m.1 }
    let q := moveTap (ask 2) t.post 0 23 (room t)
    let t := { t with post := q.1 }
    let sts (i s : Nat) : Nat := if req / 4 ^ i % 4 = 0 then 0 else if old i = 0 then s else old i
    { x with taps := t, tapSts := sts 0 p.2 + 4 * sts 1 m.2 + 16 * sts 2 q.2 }

/-- The request this receiver makes next: taps to move, or PRESET. Which it asks for is not laid down: a free value (log 9). A request
stands until the far status answers every field of it, then HOLD. -/
def nextTapReq (farSts : Nat) (l : Nat) (h : Hub) : Hub :=
  let x := laneAt h l
  let done := (List.range 3).all fun i => (!bitOf x.tapReq 6 && x.tapReq / 4 ^ i % 4 == 0) || farSts / 4 ^ i % 4 != 0
  if x.tapReq != 0 then
    if done then updLane l (fun x => { x with tapReq := 0 }) h else h
  else if farSts % 64 = 0 && !x.rxReady then
    let r := drawFree h
    let v := r.1.toNat
    updLane l (fun x => { x with tapReq := if bitOf v 6 then 64 else v % 3 + 4 * (v / 4 % 3) + 16 * (v / 16 % 3) }) r.2
  else h

/-! ## The steps of training (R261) -/

/-- LANE_ID of the far lane by the wiring of 01 R20. -/
def farLaneOf (l : Nat) : Nat := [2, 3, 0, 1, 4, 6].getD l 6

/-- The wiring check of a lane's CAPS: the far lane it faces, and one HUB_ID for both lanes of a bond, where the other has exchanged
CAPS since it was last out of training. -/
def wiringOk (l farLane : Nat) (farHub : BitVec 32) (h : Hub) : Bool :=
  farLane == farLaneOf l && match bondMate l with
    | some m => let y := laneAt h m; !y.reachedCaps || y.farHub == farHub
    | none => true

/-- A rate begins to adapt, from its preset. -/
def beginAdapt (rate : Nat) (x : Lane) : Lane :=
  { x with rate := some rate, train := .adapt, taps := preset rate, tapReq := 0, tapSts := 0, rxReady := false
           doneSent := false, doneHeard := false }

/-- DONE has gone both ways: the rate is passed, and the lane steps up or settles. -/
def tryPass (l : Nat) (h : Hub) : Hub :=
  let x := laneAt h l
  if x.doneSent && x.doneHeard && (x.train == .adapt || x.train == .revert) then
    let rate := rateOf x
    if x.train == .adapt && decide (rate < x.topRate) then
      sendTs 3 (rate + 1) 15 0 l (updLane l (fun x => { x with
        passed := some rate, passedTaps := x.taps, train := .step, countdown := 15 }) h)
    else sendTs 5 rate 0 0 l (updLane l (fun x => { x with passed := some rate, passedTaps := x.taps, train := .settle }) h)
  else h

/-- Search: the partner's TS is heard; both having HEARD, CAPS follows. -/
def searchStep (l : Nat) (farHeard : Bool) (h : Hub) : Hub :=
  let h := updLane l (fun x => { x with heard := x.heard || x.aligned.isSome, farHeard := farHeard }) h
  let x := laneAt h l
  if x.heard && farHeard then
    sendTs 2 0 0 0 l (updLane l (fun x => { x with train := .caps, state := .training }) h)
  else sendTs 1 0 0 0 l h

/-- Capabilities: the wiring check, then adaptation at 1.25 Gb/s up to the lower MAX_RATE. -/
def capsStep (l : Nat) (ts : Bytes) (h : Hub) : Hub :=
  let farLane := fieldAt ts 2 1
  let farHub := BitVec.ofNat 32 (fieldAt ts 4 4)
  if wiringOk l farLane farHub h then
    let h := if asserted h (laneBase l + 3) 0 then clearOcc (laneBase l + 3) 0 h.time.tickInst h else h
    sendTs 4 0 0 0 l (updLane l (fun x => { beginAdapt 0 x with
      farLane := farLane, farHub := farHub, reachedCaps := true
      topRate := min (lMaxRate (laneDesc h l)) (fieldAt ts 3 1) }) h)
  else
    let h := updLane l (fun x => { x with state := .miswired, farLane := farLane, farHub := farHub }) (attemptEnds l h)
    raiseHeld (laneBase l + 3) 0 h.time.tickInst h.time.tickInst 0 h

/-- A far-end loop request met in settle: a lane that allows it loops back, another denies it (R269). -/
def loopRequested (l : Nat) (h : Hub) : Hub :=
  if lAllowFar (laneDesc h l) then
    sendTs 7 (rateOf (laneAt h l)) 0 0 l (updLane l (fun x => { x with state := .farLooped, train := .idle }) h)
  else sendTs 5 (rateOf (laneAt h l)) 0 1 l h

/-- The answer to a lane's own loop request: LOOP_ACK puts it in LOOPBACK, LOOP_DENIED lets it link and is journalled. -/
def loopAnswered (l : Nat) (ok : Bool) (h : Hub) : Hub :=
  if ok then updLane l (fun x => { x with state := .loopback, train := .idle, loopReq := false, loopCount := 0, loopSeen := [] }) h
  else jEvent 0x2004 (leNat 1 l) (laneUp l (updLane l (fun x => { x with loopReq := false }) h))

/-- The TS that carries the own request and status while adapting (R262). -/
def answerTs (l : Nat) (h : Hub) : Hub := sendTs (if (laneAt h l).doneSent then 5 else 4) (rateOf (laneAt h l)) 0 0 l h

/-- The STEP sets this side still sends: COUNTDOWN `n` down to 0. -/
def countDown (rate : Nat) (l : Nat) : Nat → Hub → Hub
  | 0, h => sendTs 3 rate 0 0 l h
  | n + 1, h => countDown rate l n (sendTs 3 rate (n + 1) 0 l h)

/-- A STEP set of the far side: each side counts its own sets down and switches after both have sent 0. `n` is the far COUNTDOWN; a
far side that has switched hears no more sets, so the rest of the own ones leave at once. -/
def stepSet (l n : Nat) (h : Hub) : Hub :=
  let x := laneAt h l
  let r := rateOf x + 1
  if n = 0 then
    let h := if x.countdown = 0 then h else countDown r l (x.countdown - 1) h
    sendTs 4 r 0 0 l (updLane l (fun x => beginAdapt r { x with countdown := 0 }) h)
  else if x.countdown = 0 then h
  else sendTs 3 r (x.countdown - 1) 0 l (updLane l (fun x => { x with countdown := x.countdown - 1 }) h)

/-- A TS on a lane that is UP: loss of lock (R268), but for the DONE sets that a partner in bring-up sends until its first light
(R261), before any cell has come (log 24). -/
def tsWhileUp (l type : Nat) (h : Hub) : Hub := if type = 5 && !(laneAt h l).carried then h else laneLoss 1 l 0 h

/-- TS_RECEIPT: one training set. -/
def tsReceipt (l : Nat) (ts : Bytes) (h : Hub) : Hub :=
  let x := laneAt h l
  let type := fieldAt ts 0 1
  if !tsValid ts then h
  else if x.state == .up then tsWhileUp l type h
  else if x.state == .farLooped then (if type = 6 then sendTs 7 (rateOf x) 0 0 l h else laneTo .searching l h)
  else match x.train with
    | .idle => h
    | .search => if x.aligned.isSome then searchStep l (bitOf (fieldAt ts 11 1) 0) h else h
    | .caps => if type = 2 then capsStep l ts h else h
    | .adapt | .revert =>
      let h := updLane l (fun x => { applyTapReq (fieldAt ts 8 1) x with doneHeard := x.doneHeard || type == 5 }) h
      tryPass l (answerTs l (nextTapReq (fieldAt ts 9 1) l h))
    | .step => if type = 3 then stepSet l (fieldAt ts 10 1) h else h
    | .settle =>
      if type = 6 then loopRequested l h
      else if type = 7 && x.loopReq then loopAnswered l true h
      else if bitOf (fieldAt ts 11 1) 2 && x.loopReq then loopAnswered l false h
      else h

/-- The eye figure of R263 is met. -/
def eyeMet (eyeH eyeV violations : Nat) : Bool := decide (300 ≤ eyeH ∧ 30 ≤ eyeV ∧ violations = 0)

/-- RX_READY: a measurement of the eye. Once the figure has held, a training receiver is ready and sends DONE. -/
def rxReadyAt (l eyeH eyeV violations : Nat) (h : Hub) : Hub :=
  let ok := eyeMet eyeH eyeV violations
  let h := updLane l (fun x => { x with eyeH := eyeH, eyeV := eyeV, rxReady := ok }) h
  let x := laneAt h l
  if (x.train == .adapt || x.train == .revert) && ok then
    tryPass l (sendTs 5 (rateOf x) 0 0 l (updLane l (fun x => { x with doneSent := true }) h))
  else h

/-- TRAINING_TIMEOUT (R264): the limit of the phase has passed; `partnerHeard`: sets of the expected type still come. -/
def trainingTimeout (l : Nat) (partnerHeard : Bool) (h : Hub) : Hub :=
  let x := laneAt h l
  match x.train with
  | .idle => h
  | .settle => if partnerHeard then h else attemptEnds l h
  | .search | .caps | .revert => attemptEnds l h
  | .adapt | .step =>
    if !partnerHeard then attemptEnds l h
    else match x.passed with
      | some r => sendTs 4 r 0 0 l (updLane l (fun x => { beginAdapt r x with train := .revert, taps := x.passedTaps }) h)
      | none => failTraining l (attemptEnds l h)

/-- A lane that has settled and measured joins its link, or asks for its far-end loop. -/
def joinLink (l : Nat) (h : Hub) : Hub :=
  if lLoop (laneDesc h l) = 3 then
    sendTs 6 (rateOf (laneAt h l)) 0 0 l (updLane l (fun x => { x with loopReq := true }) h)
  else laneUp l h

/-- LATENCY_MEASURE (R261): the settled lane's own latency; before first light the lane waits. -/
def latencyMeasured (l tx rx : Nat) (h : Hub) : Hub :=
  let x := laneAt h l
  if x.train == .settle && !x.loopReq then
    let h := updLane l (fun x => { x with latTx := tx, latRx := rx }) h
    if h.time.running then joinLink l h else updLane l (fun x => { x with measured := true }) h
  else h

/-- First light: the lanes that wait join, and their links are initialised (R274). -/
def lanesFirstLight (h : Hub) : Hub :=
  (List.range 6).foldl (fun h l => if (laneAt h l).measured then joinLink l h else h) h

/-- The lanes run: power has them from the end of CLOCKS on, and a BLANK hub trains none (13 R331). -/
def lanesPowered (h : Hub) : Bool :=
  h.flash.lifecycle != .blank && match h.power.phase with
  | .off | .supply | .clocks | .noRefclk => false
  | _ => true

/-- LANE_SEARCH_ATTEMPT (R265): an attempt starts. -/
def searchAttempt (l : Nat) (h : Hub) : Hub :=
  let x := laneAt h l
  let d := laneDesc h l
  if lanesPowered h && lMode d == 1 && (lLoop d == 0 || lLoop d == 3) && x.train == .idle &&
      (x.state == .searching || x.state == .miswired) then
    sendTs 1 0 0 0 l (updLane l (fun x => { idleLane x with
      state := .searching, train := .search, rate := some 0, taps := preset 0 }) h)
  else h

/-- CHARACTER_ALIGNMENT (R259): four consecutive sets on one boundary hold it; two consecutive K28.5 on another move it. -/
def alignAt (boundary : Nat) (comma : Bool) (x : Lane) : Lane :=
  let next (r : Nat × Nat) : Nat × Nat := if r.1 == boundary then (boundary, r.2 + 1) else (boundary, 1)
  if comma then
    let r := next x.commaRun
    if r.2 < 2 || x.aligned == some boundary then { x with commaRun := r }
    else { x with commaRun := r, aligned := x.aligned.map fun _ => boundary, setRun := (boundary, 0) }
  else
    let r := next x.setRun
    { x with setRun := r, commaRun := (0, 0)
             aligned := if x.aligned.isNone && decide (4 ≤ r.2) then some boundary else x.aligned }

/-! ## Test loops (R269, R275) -/

/-- Bits in which two bytes differ. -/
def bitDiff (a b : Byte) : Nat := ((bitsLe 8 (a ^^^ b).toNat).filter id).length

/-- LOOP_TEST: a returned test cell. Counts before its own that are still out never return. -/
def loopReturned (l : Nat) (msg : Bytes) (ok : Bool) (h : Hub) : Hub :=
  if !ok then updLane l (fun x => { x with crcErrors := x.crcErrors + 1 }) h
  else
    let n := fieldAt msg 4 4
    let bad := sumNat (mapI (fun i b => bitDiff b (BitVec.ofNat 8 (n + i))) (padTo 232 (msg.drop 8)))
    updLane l (fun x =>
      let lost := (x.loopSeen.filter fun c => decide (c < n)).length
      { x with prbsErrors := x.prbsErrors + BitVec.ofNat 32 (bad + 1856 * lost)
               loopSeen := x.loopSeen.filter fun c => decide (n < c) }) h

/-- The next 256 bytes of PRBS31 of a lane in LOOPBACK with PRBS 1. -/
def sendPrbs (l : Nat) (h : Hub) : Hub :=
  let x := prbsBits 2048 (laneAt h l).prbsTx
  sendOut (.prbs l (packBits x.1)) (updLane l (fun y => { y with prbsTx := x.2 }) h)

/-- PRBS31 comes back: the bits that differ are counted (R286). -/
def prbsReturned (l : Nat) (bytes : Bytes) (h : Hub) : Hub :=
  updLane l (fun x =>
    let r := prbsTake x.prbsRx (bytes.flatMap fun b => bitsLe 8 b.toNat)
    { x with prbsErrors := x.prbsErrors + BitVec.ofNat 32 r.1, prbsRx := r.2 }) h

/-- The next LOOP_TEST cell of a lane in LOOPBACK with PRBS 0. -/
def startLoopTest (l : Nat) (h : Hub) : Option (Bytes × Hub) :=
  let x := laneAt h l
  if x.state == .loopback && !lPrbs (laneDesc h l) then
    some (cellBytes 0 ((linkAt h (laneLink l)).expect - 1)
        { cls := 6, flags := 3, origin := h.flash.hubId, data := loopTestMsg x.loopCount },
      updLane l (fun x => { x with loopCount := x.loopCount + 1, loopSeen := x.loopSeen ++ [x.loopCount] }) h)
  else none

/-! ## A new lane descriptor (R258, R267, R269) -/

/-- The state a descriptor puts a lane in before any training. -/
def modeState (d : BitVec 64) : LaneState :=
  if lMode d = 0 then .off else if lLoop d = 1 ∨ lLoop d = 2 then .loopback
  else if 2 ≤ lMode d then .ethDown else .searching

/-- Declarations of a lane's sources are cleared with the resource they retired (15 R373). -/
def clearLaneFaults (l : Nat) (h : Hub) : Hub :=
  let mine (s : Nat) : Bool := decide (laneBase l ≤ s ∧ s < laneBase l + 8)
  { h with faults.perm := h.faults.perm.filter fun x => !mine x.1
           faults.counts := h.faults.counts.filter fun x => !mine x.1.1 }

/-- A new descriptor takes effect at once: a change of MODE or MAX_RATE, or of LOOP, restarts the lane; the wait returns to
its start. A retired lane stays so without REVIVE. -/
def applyLane (l : Nat) (d : BitVec 64) (h : Hub) : Hub :=
  let old := laneDesc h l
  let revive := bitOf d.toNat 10
  let keep : BitVec 64 := d &&& ~~~(0x400 : BitVec 64)
  let h := { h with cfg.lane := setAt h.cfg.lane l keep, flash.store.lane := setAt h.flash.store.lane l keep }
  let retired := (laneAt h l).state == .retired
  let h := updLane l (fun x => { x with waitMs := 0 }) h
  if retired then
    if revive then clearLaneFaults l (laneTo (modeState keep) l (updLane l (fun x => { x with fails := [] }) h)) else h
  else if lMode old != lMode keep || lMaxRate old != lMaxRate keep || lLoop old != lLoop keep then
    laneTo (modeState keep) l (updLane l loopEnds h)
  else h

end Sys2Proof.Machine
end

