-- ==== Sys2Proof/Machine/CmdLane.lean ====
section
/-! DEFINITION. The commands of group 0x07: lanes, slot tables, the uplink (14 R358; 11 R258, R280, R281, R286, R288). -/

namespace Sys2Proof.Machine

/-! ## CFG_LANE (11 R258) -/

/-- The bit of the first field of a lane descriptor that fails. -/
def laneFault (l : Nat) (d : Nat) : Option Nat :=
  if 3 < bitsOf d 2 0 ∨ (l ≠ 5 ∧ 2 ≤ bitsOf d 2 0) then some 0
  else if 3 < bitsOf d 7 5 then some 5
  else if bitsOf d 63 11 ≠ 0 then some 11
  else none

/-- CFG_LANE: at once, in PROVISIONED too, where lanes train (13 R331, R333). -/
def cmdCfgLane : Cmd := fun c h => do
  let hd ← readHead c false 1 6 6 8
  needArg 0 (hd.at_ = 0)
  needArg 16 (hd.arg = 0)
  let ds := (entries hd 8).map ofLe
  checkAll (fun i d => match laneFault (hd.first + i) d with
    | some b => .error (refuseAt rArgument (24 + 8 * i + b / 8) i)
    | none => .ok ()) 0 ds
  let cfg := (checkBase h).cfg
  let moved := (mapI (fun i d => decide (hd.first + i = 5) && bitsOf d 2 0 != lMode (cfg.lane.getD 5 0)) ds).any id
  let src := tbSource cfg.timeBlock
  needState (!(moved && (bitsOf cfg.outlets.toNat 1 0 == 1 || src == 3 || src == 4)))
  return ({ payload := leNat 8 0, args := argsList hd },
    (mapI (fun i d => (hd.first + i, d)) ds).foldl (fun h x => applyLane x.1 (BitVec.ofNat 64 x.2) h) h)

/-! ## CFG_SLOT_TABLE (11 R280, R281) -/

/-- Entries of a 32-byte table. -/
def tableOf (b : Bytes) : List Nat := b.flatMap fun x => [bitsOf x.toNat 3 0, bitsOf x.toNat 7 4]

/-- Classes a lane carries in its slots (11 R257). -/
def laneClasses (l : Nat) : List Nat := if l < 4 then [0, 1, 2, 3, 4] else if l = 4 then [0, 1, 5] else [0, 1, 3, 4]

/-- A table meets R280 on a lane. -/
def tableOk (l : Nat) (t : List Nat) : Bool :=
  t.headD 15 == 0 && !(t.drop 1).contains 0 && t.contains 1 && (decide (4 ≤ l) || t.contains 2) &&
    t.all (laneClasses l).contains

/-- Lanes a command names, the other lane of a bond included. -/
def tableLanes (hd : Head) : List Nat :=
  (List.range 6).filter fun l =>
    let named (x : Nat) : Bool := decide (hd.first ≤ x ∧ x < hd.first + hd.count)
    named l || (match bondMate l with | some m => named m | none => false)

/-- CFG_SLOT_TABLE: the table waits as each lane's shadow; in PROVISIONED the plan of R39 is that of the stored configuration. -/
def cmdCfgSlotTable : Cmd := fun c h => do
  if c.req.payload.length ≠ 56 then throw (refuse rArgument)
  needArg 12 (pf c 12 1 = 0)
  needZero c 13 3
  let hd : Head := { at_ := pf c 0 8, first := pf c 8 2, count := pf c 10 2, stage := false, arg := pf c 16 8
                     body := c.req.payload.drop 24 }
  needArg 10 (1 ≤ hd.count && hd.count ≤ 6)
  needArg 8 (hd.first + hd.count ≤ 6)
  needArg 16 (hd.arg = 0)
  let t ← needTick h 0 hd.at_ 1
  let tab := tableOf hd.body
  let ls := tableLanes hd
  needArg 24 (ls.all fun l => tableOk l tab)
  let put (l : List (List Nat)) : List (List Nat) := ls.foldl (fun l i => setAt l i tab) l
  let shadowed (h : Hub) : Hub := ls.foldl (fun h i => updLane i (fun x => { x with shadowTable := some (t, tab) }) h) h
  let after := if stored h then let b := checkBase h; { b with cfg.slots := put b.cfg.slots } else shadowed h
  needBudget (budgetFault after t)
  return (acceptedAt h t [] (argsList hd), { shadowed h with flash.store.slots := put h.flash.store.slots })

/-! ## CFG_UPLINK (11 R288) -/

/-- The offset of the first field of an uplink block that fails. -/
def uplinkFault (b : Bytes) : Option Nat :=
  let f (o : Nat) : Nat := fieldAt b o 1
  if f 4 < 8 ∨ 30 < f 4 then some 4
  else if 63 < f 5 then some 5
  else if 127 < f 6 then some 6
  else if 2 < f 7 then some 7
  else if 1 < f 24 then some 24
  else if 1 < (sfieldAt b 25 1).natAbs then some 25
  else if 4 < f 26 then some 26
  else if 5 < f 27 then some 27
  else if f 28 < 2 then some 28
  else if 1 < f 31 then some 31
  else none

/-- CFG_UPLINK. -/
def cmdCfgUplink : Cmd := fun c h => do
  let hd ← readBareHead c 32
  needArg 16 (hd.arg = 0)
  match uplinkFault hd.body with
  | some o => throw (refuseAt rArgument (24 + o) 0xFFFF)
  | none => pure ()
  let t ← needTick h 0 hd.at_ 1
  return (acceptedAt h t [] (leNat 4 (crc32c hd.body).toNat), acceptItems t [.uplink hd.body] h)

/-! ## READ_LANE (11 R286) -/

/-- Codes of the lane states. -/
def laneCode : LaneState → Nat
  | .off => 0 | .searching => 1 | .training => 2 | .up => 3 | .miswired => 4 | .retired => 5 | .loopback => 6
  | .farLooped => 7 | .ethDown => 8 | .ethUp => 9

/-- BOND of a lane. -/
def bondCode (h : Hub) (l : Nat) : Nat :=
  match bondMate l with
  | none => 0
  | some m =>
    match (laneAt h l).state == .up, (laneAt h m).state == .up with
    | true, true => 1
    | false, false => 3
    | _, _ => 2

/-- RATE of a lane. -/
def rateCode (h : Hub) (l : Nat) : Nat :=
  match lMode (laneDesc h l) with
  | 2 => 4
  | 3 => 5
  | _ => (laneAt h l).rate.getD 0xFF

/-- One entry of READ_LANE. -/
def laneEntry (h : Hub) (l : Nat) : Bytes :=
  let x := laneAt h l
  leNat 1 (laneCode x.state) ++ leNat 1 (rateCode h l) ++ leNat 1 x.farLane ++ leNat 1 (bondCode h l) ++
    leNat 4 x.farHub.toNat ++ leNat 1 x.taps.pre ++ leNat 1 x.taps.main ++ leNat 1 x.taps.post ++
    leNat 1 (recentFails h x).length ++ leNat 2 x.eyeH ++ leNat 2 x.eyeV ++ leNat 4 x.crcErrors.toNat ++
    leNat 4 x.replays.toNat ++ leNat 4 x.lockLosses.toNat ++ leNat 4 x.prbsErrors.toNat

/-- READ_LANE: the counters are cleared by the read. -/
def cmdReadLane : Cmd := fun c h => do
  needLen c 0
  return (answer rOk ((List.range 6).flatMap (laneEntry h)),
    { h with lanes := h.lanes.map fun x => { x with crcErrors := 0, replays := 0, lockLosses := 0, prbsErrors := 0 } })

end Sys2Proof.Machine
end

