-- ==== Sys2Proof/Machine/CmdLife.lean ====
section
/-! DEFINITION. The commands of group 0x0B: life cycle, keys, firmware, reset (14 R365, R366; 13 R328 to R335, 17 R420, R428,
R429). -/

namespace Sys2Proof.Machine

/-! ## Change records of commands (13 R325, 14 R345, R448) -/

/-- Writes the change record of a message, programmed at once. -/
def changeRec (r : Req) (code : Nat) (detail : Bytes) (h : Hub) : Hub :=
  programAll (queueRec
    { kind := 0, code := code, mailbox := r.mailbox, keySlot := r.keySlot.toNat, origin := r.origin.toNat
      counter := r.counter.toNat, detail := padTo 16 detail } h)

/-! ## Custody before a reset (13 R332, 17 R428 to R430) -/

/-- Records not under custody, those acknowledged in this interval left out. -/
def notInCustody (h : Hub) : List Held := h.stream.reserve.filter fun x => !inRanges h.stream.acks x.record.seq

/-- R332 refuses a transition out of OPERATIONAL or MAINTENANCE, and a RESET, without FORCE. -/
def custodyOpen (h : Hub) : Bool :=
  (h.flash.lifecycle == .operational || h.flash.lifecycle == .maintenance) && isActive h && !(notInCustody h).isEmpty

/-- DETAIL of the forced-reset record (17 R430). -/
def forcedDetail (kind force cause : Nat) (h : Hub) : Bytes :=
  let xs := (notInCustody h).map (·.record.seq)
  let last := (h.stream.nextSeq - 1) % 2 ^ 32
  leNat 4 (match xs with | [] => last | q :: _ => q) ++ leNat 4 last ++ leNat 4 xs.length ++ leNat 1 kind ++ leNat 1 force ++
    leNat 1 cause ++ zeros 1

/-- Starts what a reset command asks for: a drain, or the reset once the response has left. -/
def startReset (kind cause force : Nat) (target : Option LifeCycle) (h : Hub) : Reply × Hub :=
  if custodyOpen h && force == 1 then
    ({}, { h with
      power.phase := .draining
      power.drain := some { tick := ((h.power.drain.map (·.tick)).getD h.time.tick), cause := cause, kind := kind, target := target } })
  else ({ reset := some { kind := kind, cause := cause, force := if custodyOpen h then force else 0, target := target } }, h)

/-! ## Life cycle (13 R332) -/

/-- The LIFECYCLE record: old and new state and FORCE. -/
def lifeRec (c : Ctx) (new : LifeCycle) (force : Nat) (h : Hub) : Hub :=
  changeRec c.req 0x3003 (leNat 1 (lifeCode h.flash.lifecycle) ++ leNat 1 (lifeCode new) ++ leNat 1 force) h

/-- A transition out of OPERATIONAL or MAINTENANCE. -/
def transition (new : LifeCycle) : Cmd := fun c h => do
  needLen c 1
  let force := pf c 0 1
  needArg 0 (force < 3)
  needState (force ≠ 0 || !custodyOpen h)
  let r := startReset 0 1 force (some new) (lifeRec c new force h)
  return ({ r.1 with ownRecord := true }, r.2)

/-- The 32 bytes of the transport key. -/
def transportKey : Bytes := (List.range 32).map Config.transportKey

/-- WRAP_TAG of a wrapped key verifies under a wrapping key (R329). -/
def wrapOk (w k : Bytes) : Bool := tagOf w (ascii "KZ-WRAP-A" ++ k.take 56) == (k.drop 56).take 16

/-- The key a wrapped key holds. -/
def unwrap (w k : Bytes) : Bytes :=
  let e := hmac w (ascii "KZ-WRAP-E" ++ (k.drop 8).take 16 ++ k.take 8)
  ((k.drop 24).take 32).zipWith (· ^^^ ·) e

/-- Checks a wrapped key whose bytes stand at an offset of the payload. -/
def needWrapped (c : Ctx) (off : Nat) (w : Bytes) (stored : BitVec 32) : Except Reply Bytes := do
  let k := (c.req.payload.drop off).take 72
  needArg (off + 1) (fieldAt k 1 1 = 0)
  if !wrapOk w k then throw (refuse rAuth)
  if fieldAt k 4 4 ≤ stored.toNat then throw (refuse rReplay)
  return k

/-- The slot a wrapped key fills; slot 0 holds every right. -/
def slotFrom (w k : Bytes) : KeySlot :=
  { key := some (unwrap w k), gen := BitVec.ofNat 32 (fieldAt k 4 4)
    rights := if fieldAt k 0 1 = 0 then 0xFFFF else BitVec.ofNat 16 (fieldAt k 2 2) }

/-- A key slot. -/
def slotAt (h : Hub) (s : Nat) : KeySlot := h.flash.keys.getD s {}

/-- PROVISION: HUB_ID and slot 0 written, the configuration store, system coefficients and the other slots wiped. -/
def cmdProvision : Cmd := fun c h => do
  needLen c 80
  needArg 0 (pf c 0 4 ≠ 0)
  needZero c 4 4
  needArg 8 (pf c 8 1 = 0)
  let k ← needWrapped c 8 transportKey (slotAt h 0).gen
  let h := lifeRec c .provisioned 0 h
  return ({ ownRecord := true, reset := some { kind := 0, cause := 1, force := 0, target := some .provisioned } },
    { h with
      flash.hubId := BitVec.ofNat 32 (pf c 0 4)
      flash.keys := slotFrom transportKey k :: List.replicate 7 {}
      flash.ctrCheckpoint := []
      flash.store := {}
      flash.accepted := []
      flash.sysCal := []
      mbx.counters := [] })

/-- The running image verified at bring-up, or it would not run (R336). -/
def runningVerified (h : Hub) : Bool := (imageOf h h.flash.running).installed

/-- COMMISSION: the stored configuration passes R36. -/
def cmdCommission : Cmd := fun c h => do
  needLen c 0
  needState (runningVerified h)
  needBudget (budgetFault (checkBase h) h.time.tick)
  return ({ ownRecord := true, reset := some { kind := 0, cause := 1, force := 0, target := some .operational } },
    lifeRec c .operational 0 h)

/-- ENTER_MAINTENANCE. -/
def cmdEnterMaintenance : Cmd := transition .maintenance

/-- EXIT_MAINTENANCE. -/
def cmdExitMaintenance : Cmd := transition .operational

/-- DECOMMISSION. -/
def cmdDecommission : Cmd := transition .decommissioned

/-! ## Keys (13 R329, R330) -/

/-- LOAD_KEY: the new key replaces the old one, and the slot's counters are cleared. -/
def cmdLoadKey : Cmd := fun c h => do
  needLen c 72
  let s := pf c 0 1
  needArg 0 (s < 8)
  let w := (slotAt h 0).key.getD []
  let k ← needWrapped c 0 w (slotAt h s).gen
  let h := { h with flash.keys := setAt h.flash.keys s (slotFrom w k)
                    mbx.counters := h.mbx.counters.filter (·.slot != s) }
  return ({ ownRecord := true }, changeRec c.req 0x3005 (leNat 1 s ++ leNat 4 (fieldAt k 4 4)) h)

/-- ERASE_KEY: the slot keeps its generation. -/
def cmdEraseKey : Cmd := fun c h => do
  needLen c 1
  let s := pf c 0 1
  needArg 0 (1 ≤ s && s ≤ 7)
  let g := (slotAt h s).gen
  let h := { h with flash.keys := setAt h.flash.keys s { gen := g }
                    mbx.counters := h.mbx.counters.filter (·.slot != s) }
  return ({ ownRecord := true }, changeRec c.req 0x3006 (leNat 1 s ++ leNat 4 g.toNat) h)

/-! ## Firmware (13 R334, R335) -/

/-- Bytes of an image from an address. -/
def imageBytes (get : Nat → Byte) (a n : Nat) : Bytes := (rangeFrom a n).map get

/-- A field of an image's bytes. -/
def imgNum (get : Nat → Byte) (a n : Nat) : Nat := ofLe (imageBytes get a n)

/-- The header is malformed. -/
def headerBad (get : Nat → Byte) : Bool :=
  let len := imgNum get 12 4
  let signer := imgNum get 16 1
  let revoke := imgNum get 17 1
  imgNum get 0 4 != 0x57465A4B || decide (len < 1 ∨ 16776960 < len ∨ 3 < signer ∨ 15 < revoke) || bitOf revoke signer ||
    !allZero (imageBytes get 18 14) || !allZero (imageBytes get 128 128)

/-- RESULT of a verification by R334 (R366), 0 to 5. -/
def imageCheck (get : Nat → Byte) (h : Hub) : Nat :=
  let signer := imgNum get 16 1
  if headerBad get then 5
  else if sha256 (imageBytes get 256 (imgNum get 12 4)) != imageBytes get 32 32 then 1
  else if !ecdsaVerify ((Config.signerX signer).toNat, (Config.signerY signer).toNat) (sha256 (imageBytes get 0 64))
      (imgNum get 64 32) (imgNum get 96 32) then 2
  else if bitOf h.flash.revoked signer then 3
  else if imgNum get 8 4 < h.flash.minSec then 4
  else 0

/-- An image slot verifies at bring-up; the image as shipped does (log 1) until its signer is revoked or the minimum
passes it. -/
def imageVerifies (i : Image) (h : Hub) : Bool :=
  if i.factory then
    !bitOf h.flash.revoked (imageField i 16 1 % 4) && decide (h.flash.minSec ≤ imageField i 8 4)
  else i.installed && imageCheck (imageByte i) h == 0

/-- FW_LOAD: a segment into the staging partition. -/
def cmdFwLoad : Cmd := fun c h => do
  let n := c.req.payload.length
  if n < 9 ∨ 4096 < n then throw (refuse rArgument)
  needZero c 4 4
  let off := pf c 0 4
  needArg 0 (off + (n - 8) ≤ 16777216)
  return ({ args := leNat 4 off ++ leNat 2 (n - 8) },
    { h with fw.staging := writeBytes h.fw.staging off (c.req.payload.drop 8), fw.verified := false })

/-- VERSION of the staged image. -/
def stagedVersion (h : Hub) : Nat := imgNum (readByte h.fw.staging) 4 4

/-- FW_VERIFY: the notice follows at FW_VERIFY_DONE. -/
def cmdFwVerify : Cmd := fun c h => do
  needLen c 0
  needRoom (h.fw.verifying.isNone && h.fw.installing.isNone)
  return ({ status := rPending, args := leNat 4 (stagedVersion h) }, { h with fw.verifying := some c.req })

/-- Writes the image slot that is not running. -/
def setOther (i : Image) (h : Hub) : Hub :=
  if h.flash.running = 0 then { h with flash.imageB := i } else { h with flash.imageA := i }

/-- FW_INSTALL: the notice follows at FW_INSTALL_DONE. The slot written is not installed until then, an interrupted install left so
(14 R366). -/
def cmdFwInstall : Cmd := fun c h => do
  needLen c 0
  needState h.fw.verified
  needRoom (h.fw.verifying.isNone && h.fw.installing.isNone)
  return ({ status := rPending, args := leNat 4 (imageVersion (imageOf h h.flash.running)) ++ leNat 4 (stagedVersion h) },
    setOther { imageOf h (1 - h.flash.running) with installed := false, factory := false } { h with fw.installing := some c.req })

/-- FW_ACTIVATE: the installed image is the boot choice for the next reset. -/
def cmdFwActivate : Cmd := fun c h => do
  needLen c 1
  needArg 0 (pf c 0 1 < 2)
  let other := 1 - h.flash.running
  needState (imageOf h other).installed
  return ({ args := leNat 4 (imageVersion (imageOf h h.flash.running)) ++ leNat 4 (imageVersion (imageOf h other)) },
    { h with flash.bootChoice := other, flash.raiseMin := pf c 0 1 == 1, flash.activated := true, flash.bootFails := 0 })

/-! ## RESET (17 R420, R428) -/

/-- RESET. -/
def cmdReset : Cmd := fun c h => do
  needLen c 2
  let kind := pf c 0 1
  let force := pf c 1 1
  needArg 0 (kind < 2)
  needArg 1 (force < 3)
  needState (force ≠ 0 || !custodyOpen h)
  let r := startReset kind 0 force none h
  return ({ r.1 with args := leNat 1 kind ++ leNat 1 force }, r.2)

end Sys2Proof.Machine
end

