-- ==== Sys2Proof/Machine/CmdPair.lean ====
section
/-! DEFINITION. The commands of group 0x0A: the pair (14 R363; 12 R295, R311). -/

namespace Sys2Proof.Machine

/-- Codes of the pair states. -/
def pairStateCode : PairState → Nat
  | .active => 0 | .activeSolo => 1 | .shadowing => 2 | .resyncing => 3 | .detached => 4

/-- HB_OUT toggles in the present state (12 R296, R297): not in bring-up, in the eclipse state or once stopped. -/
def heartbeats (h : Hub) : Bool :=
  isUp h && h.pair.paired && !h.pair.hbStopped && !inEclipse h &&
    (h.pair.state == .active || h.pair.state == .activeSolo || h.pair.state == .shadowing)

/-- CFG_PAIR: kept in the store, in effect at the next first light. -/
def cmdCfgPair : Cmd := fun c h => do
  let hd ← readBareHead c 0
  needArg 0 (hd.at_ = 0)
  needArg 16 (bitsOf hd.arg 15 2 = 0)
  needArg 18 (1 ≤ bitsOf hd.arg 23 16)
  needArg 19 (bitsOf hd.arg 63 24 = 0)
  return ({ payload := leNat 8 0, args := leNat 8 hd.arg }, { h with flash.store.pair := BitVec.ofNat 64 hd.arg })

/-- PAIR_RESYNC: the active names the snapshot tick. -/
def cmdPairResync : Cmd := fun c h => do
  needLen c 8
  needZero c 4 4
  needState (h.pair.paired && isActive h && (h.pair.partner.map (·.state)) == some 3)
  let lo := pf c 0 2
  let hi := pf c 2 2
  let reads (s : Nat) : Bool := decide (lo ≤ (Config.sectionFormat s).toNat ∧ (Config.sectionFormat s).toNat ≤ hi)
  if !(reads 6 && reads 7) then throw (refuseAt rState 0 0xFFFF)
  needRoom (h.pair.snapshot.isNone && h.pair.copyLeft.isEmpty)
  let t := h.time.tick + 2
  return ({ payload := leNat 8 (toStream h t), args := leNat 8 (toStream h t) }, { h with pair.snapshot := some t })

/-- READ_PAIR. PARTNER is 0xFF while no STATUS was heard (log 22). -/
def cmdReadPair : Cmd := fun c h => do
  needLen c 0
  let p := h.pair
  return (answer rOk
    (leNat 1 (pairStateCode p.state) ++ leNat 1 ((p.partner.map (·.state)).getD 0xFF) ++ leNat 1 (b2n p.grant) ++
      leNat 1 (b2n (heartbeats h)) ++ zeros 4 ++ leNat 8 p.unitsRx ++ leNat 4 p.shadowLost ++ leNat 4 p.relaySent ++
      leInt 8 p.offset), h)

end Sys2Proof.Machine
end

