-- ==== Sys2Proof/Machine/Reset.lean ====
section
/-! DEFINITION. The resets: what each kind keeps, clears and wipes (17 R420 to R422, R430, 13 R332). -/

namespace Sys2Proof.Machine

/-- Flash after a life-cycle transition into a state (13 R332). -/
def wipeFlash (target : LifeCycle) (f : Flash) : Flash :=
  let f := { f with lifecycle := target }
  match target with
  | .decommissioned => { f with keys := emptyKeys, ctrCheckpoint := [], store := {}, sysCal := [], accepted := [] }
  | _ => f

/-- The machine at the start of a bring-up: SRAM and DRAM wiped, every register reset, flash and the outer supplies as they
are. `phase` is where bring-up starts, `warm` that the PLLs are kept; PAIR_SIDE keeps its sample until SUPPLY takes another (18 R442).
What has been sent stays so. -/
def restart (phase : Phase) (warm : Bool) (s : State) : State :=
  let h := s.hub
  { host := {}
    hub := {
      flash := h.flash
      power := { phase := phase, vinGood := h.power.vinGood, refclk := h.power.refclk, ref10 := h.power.ref10
                 excVinMv := h.power.excVinMv, warm := warm, sideB := h.power.sideB }
      hbOut := h.hbOut, out := h.out, free := h.free }
    pending := s.pending }

/-- A reset the hub starts itself: open suppression runs close, a forced one leaves its record, and the new state and its
wipes are written (15 R394, 17 R430). -/
def doReset (r : ResetDue) (s : State) : State :=
  let h := closeRuns s.hub
  let h := if r.force = 0 then h else jChange 0x3013 (forcedDetail r.kind r.force r.cause h) h
  let h := match r.target with
    | some t => { h with flash := wipeFlash t h.flash }
    | none => h
  restart (if r.kind = 0 then .clocks else .supply) (r.kind == 0) { s with hub := h }

/-- A reset from outside (17 R420): what waits in SRAM is lost. -/
def hardReset (phase : Phase) (s : State) : State := restart phase false s

/-- The record being programmed at a loss of power may be torn (15 R393): which is a free value (log 9). -/
def tearRecord (h : Hub) : Hub :=
  match h.jr.queue with
  | [] => h
  | r :: _ =>
    let x := drawFree h
    if x.1.getLsbD 0 then { x.2 with flash.journal := x.2.flash.journal ++ [{ r with torn := true }] } else x.2

end Sys2Proof.Machine
end

