-- ==== Sys2Proof/Machine/Shadow.lean ====
section
/-! DEFINITION. The pair's shadow as it is sent: units, the live flow, its marks (12 R301 to R305), and what a loss of lane P
does (R296). -/

namespace Sys2Proof.Machine

/-- A command is shadowed (12 R304). -/
def isShadowed (code : Nat) : Bool := [1, 3, 4, 5, 6, 12].contains (code / 256) || code == 0x0200

/-- The hub is the standby of a pair. -/
def isStandby (h : Hub) : Bool := isUp h && h.pair.paired && !isActive h

/-- Live units flow to the partner. -/
def shadowing (h : Hub) : Bool := isUp h && h.pair.paired && isActive h && h.pair.live && (linkAt h 2).up

/-- Sends a unit (R301) on lane P. -/
def sendUnit (kind tile tick : Nat) (body : Bytes) (h : Hub) : Hub :=
  if (linkAt h 2).up then
    let cs := unitCells 5 0 0 h.flash.hubId
      (leNat 1 kind ++ leNat 1 tile ++ zeros 2 ++ leNat 4 (16 + body.length) ++ leNat 8 tick ++ body)
    { queueCells 2 cs h with pair.queuedCells := h.pair.queuedCells + cs.length }
  else h

/-- A COMMAND body (R302). -/
def commandBody (effect mailbox : Nat) (msg : Bytes) : Bytes := leNat 8 effect ++ leNat 1 mailbox ++ zeros 7 ++ msg

/-- The COMMAND unit of an accepted shadowed command. -/
def shadowCommand (effect mailbox : Nat) (msg : Bytes) (h : Hub) : Hub :=
  if shadowing h then
    sendUnit 3 0 (streamTick h) (commandBody (if effect = 0 then streamTick h + 1 else effect) mailbox msg) h
  else h

/-- The RELAY unit of a message that reached a standby (R304, R306). -/
def relay (kind mailbox arrived : Nat) (msg : Bytes) (h : Hub) : Hub :=
  if (linkAt h 2).up then
    let h := sendUnit 8 0 (streamTick h) (leNat 1 kind ++ leNat 1 mailbox ++ leNat 1 arrived ++ zeros 5 ++ msg) h
    { h with pair.relaySent := h.pair.relaySent + 1 }
  else h

/-! ## The messages that made the configuration (R312) -/

/-- Codes of the shadowed commands whose effect waits for a tick: those of configuration, and CLEAR_CAPTURE_STATS. -/
def configCode (code : Nat) : Bool :=
  [0x0100, 0x0101, 0x0102, 0x0103, 0x0200, 0x0300, 0x0303, 0x0400, 0x0401, 0x0500, 0x0501, 0x0504, 0x0600, 0x0603, 0x0C00].contains code

/-- Codes whose effect leaves no entry in force once it is done: REVIVE_CHANNEL, CLEAR_CAPTURE_STATS. -/
def doneOnce (code : Nat) : Bool := code == 0x0103 || code == 0x0504

/-- Code and payload of a message. -/
def msgCode (m : Bytes) : Nat := fieldAt m 2 2
def msgPayload (m : Bytes) : Bytes := (m.drop 32).take (fieldAt m 10 2)

/-- The subjects of a message: the first, and how many. -/
def subjectsOf (m : Bytes) : Nat × Nat :=
  let p := msgPayload m
  if [0x0100, 0x0101, 0x0500, 0x0501, 0x0C00].contains (msgCode m) then (fieldAt p 8 2, fieldAt p 10 2)
  else if msgCode m = 0x0102 then (fieldAt p 0 2, 1) else (0, 1)

/-- A message holds its entries under STAGE. -/
def msgStaged (m : Bytes) : Bool :=
  [0x0100, 0x0101, 0x0500, 0x0501].contains (msgCode m) && bitOf (fieldAt (msgPayload m) 12 1) 0

/-- A message in force by a stream tick leaves nothing of one of an earlier tick, or of its own tick and accepted before it; entries held under
STAGE are kept with their commit, and graphs keep every segment. -/
def supersedes (now : Nat) (all : List (Nat × Nat × Bytes)) (new old : Nat × Nat × Bytes) : Bool :=
  let a := subjectsOf new.2.2
  let b := subjectsOf old.2.2
  let code := msgCode old.2.2
  msgCode new.2.2 == code && !(code == 0x0400 || code == 0x0401 || doneOnce code) && decide (new.1 ≤ now) && !msgStaged new.2.2 &&
    !(all.any fun x => msgCode x.2.2 == code && msgStaged x.2.2) && decide (a.1 ≤ b.1 ∧ b.1 + b.2 ≤ a.1 + a.2)

/-- The entries from some on that no entry of a list replaces; `before` are those accepted earlier. -/
def currentFrom (now : Nat) (before : List (Nat × Nat × Bytes)) : List (Nat × Nat × Bytes) → List (Nat × Nat × Bytes)
  | [] => []
  | x :: xs =>
    let all := before ++ x :: xs
    let gone := (doneOnce (msgCode x.2.2) && decide (x.1 ≤ now)) ||
      xs.any (fun y => decide (x.1 ≤ y.1) && supersedes now all y x) || before.any (fun y => decide (x.1 < y.1) && supersedes now all y x)
    let rest := currentFrom now (before ++ [x]) xs
    if gone then rest else x :: rest

/-- The list without what other entries have replaced. -/
def currentMsgs (now : Nat) (l : List (Nat × Nat × Bytes)) : List (Nat × Nat × Bytes) := currentFrom now [] l

/-- Notes an accepted message with its EFFECT; in PROVISIONED it is in force from the next first light. -/
def noteAccepted (effect mailbox : Nat) (m : Bytes) (h : Hub) : Hub :=
  if configCode (msgCode m) then
    let e := if effect = 0 && isUp h && h.flash.lifecycle != .provisioned then streamTick h + 1 else effect
    { h with flash.accepted := currentMsgs (streamTick h) (h.flash.accepted ++ [(e, mailbox, m)]) }
  else h

/-! ## Loss of the shadow -/

/-- Nothing more flows to the partner. -/
def stopLive (h : Hub) : Hub := { h with pair.live := false, pair.snapshot := none, pair.copyLeft := [] }

/-- What a standby has of the stream goes. -/
def dropShadow (h : Hub) : Hub :=
  { h with
    pair.resyncWait := false, pair.snapped := false, pair.copyDone := false, pair.digestOk := false, pair.early := []
    pair.records := [], pair.flares := [], pair.rawTiles := [], pair.lastVerdict := none, pair.lastRaw := none, pair.retryAt := none }

/-- A standby without an active partner is detached: a resynchronisation under way discards what has arrived (R296, R313). -/
def detach (h : Hub) : Hub :=
  match h.pair.state with
  | .shadowing => { h with pair.state := .detached }
  | .resyncing => { dropShadow h with pair.state := .detached }
  | _ => h

/-- Lane P is down (R296, R313): an active hub goes on alone, a standby is detached; a resynchronisation that failed by it is
asked for again no sooner than 1 s later. -/
def pairLinkLost (h : Hub) : Hub :=
  let h := { stopLive h with pair.coveredCells := h.pair.queuedCells }
  if !h.pair.paired then h
  else if h.pair.state == .active then { h with pair.state := .activeSolo }
  else if h.pair.state == .resyncing then { detach h with pair.retryAt := some (h.time.op4k + 4000) }
  else detach h

/-- Carries a change of the lanes through to the pair. -/
def afterLanes (before : Hub) (h : Hub) : Hub :=
  if (linkAt before 2).up && !(linkAt h 2).up then pairLinkLost h else h

/-- Discards the shadow and resynchronises: SHADOW_LOST, SHADOW_DIVERGE, release, eclipse exit (R296, R306, R310, R313); a
failed resynchronisation is asked for again after 1 s. -/
def toResync (wait : Bool) (h : Hub) : Hub :=
  { dropShadow h with
    pair.state := .resyncing, pair.silent := 0, pair.takeoverAt := none, pair.taken := false
    pair.retryAt := if wait then some (h.time.op4k + 4000) else none }

/-- SHADOW_LOST (R302, R303, R313). -/
def shadowLost (h : Hub) : Hub :=
  let h := raiseNow 0xC2 0 0 0 { h with pair.shadowLost := h.pair.shadowLost + 1 }
  if h.pair.state == .shadowing || h.pair.state == .resyncing then toResync true h else h

end Sys2Proof.Machine
end

