-- ==== Sys2Proof/Machine/Mailbox.lean ====
section
/-! DEFINITION. The mailboxes: the command table, the seven steps, counters, answers and notices, and the order in which Wiori
serves (13 R316 to R326, 14 R337, R338, R345, R368, 12 R304, R305). -/

namespace Sys2Proof.Machine

/-! ## The command table (chapter 14) -/

/-- Groups 0x00 to 0x03. -/
def table0 : List (Nat × Cmd) :=
  [(0x0010, cmdCfgLabel), (0x0080, cmdReadIdentity), (0x0081, cmdReadLedger), (0x0100, cmdCfgChannel),
   (0x0101, cmdCfgExcitation), (0x0102, cmdCfgRemap), (0x0103, cmdReviveChannel), (0x0180, cmdReadChannel),
   (0x0200, cmdCfgTick), (0x0201, cmdCfgTime), (0x0202, cmdTimeStep), (0x0280, cmdReadTime),
   (0x0300, cmdCfgCalibration), (0x0301, cmdCalSelf), (0x0302, cmdCalSystem), (0x0303, cmdCfgHousekeeping),
   (0x0380, cmdReadCalQuality), (0x0381, cmdReadHousekeeping)]

/-- Groups 0x04 to 0x07. -/
def table4 : List (Nat × Cmd) :=
  [(0x0400, cmdLoadGraph), (0x0401, cmdActivateGraph), (0x0480, cmdReadGraph), (0x0500, cmdCfgFlare),
   (0x0501, cmdCfgCapture), (0x0502, cmdFlareNow), (0x0503, cmdReleaseCapture), (0x0504, cmdClearCaptureStats),
   (0x0580, cmdReadCaptures), (0x0600, cmdCfgCompression), (0x0601, cmdCustodyAck), (0x0602, cmdCustodyRetransmit),
   (0x0603, cmdCfgOutlets), (0x0604, cmdCompressJob), (0x0605, cmdResumeCompress), (0x0606, cmdCancelCompress),
   (0x0700, cmdCfgLane), (0x0701, cmdCfgSlotTable), (0x0702, cmdCfgUplink), (0x0780, cmdReadLane)]

/-- Groups 0x08 to 0x0C. -/
def table8 : List (Nat × Cmd) :=
  [(0x0800, cmdOpenWindow), (0x0801, cmdCloseWindow), (0x0880, cmdTransfer), (0x0881, cmdResumeTransfer),
   (0x0900, cmdCfgFault), (0x0901, cmdForceFault), (0x0980, cmdReadFaults), (0x0981, cmdReadJournal),
   (0x0A00, cmdCfgPair), (0x0A01, cmdPairResync), (0x0A80, cmdReadPair), (0x0B00, cmdProvision), (0x0B01, cmdCommission),
   (0x0B02, cmdEnterMaintenance), (0x0B03, cmdExitMaintenance), (0x0B04, cmdDecommission), (0x0B05, cmdLoadKey),
   (0x0B06, cmdEraseKey), (0x0B07, cmdFwLoad), (0x0B08, cmdFwVerify), (0x0B09, cmdFwInstall), (0x0B0A, cmdFwActivate),
   (0x0B0B, cmdReset), (0x0C00, cmdCfgLoopOutput), (0x0C80, cmdReadLoop)]

/-- The command of a code; none for a code not listed. -/
def cmdOf (code : Nat) : Option Cmd := ((table0 ++ table4 ++ table8).find? (·.1 == code)).map (·.2)

/-! ## Answers (13 R316, R318, R322, 09 R216) -/

/-- The window base of a host mailbox (R315). -/
def hostBase (mb : Nat) : Nat := if mb = 0 then 0x10000 else if mb = 1 then 0x20000 else 0x70000

/-- The place of a host mailbox in ATTN, DOORBELL and MB_STATE: 0, 1, 2. -/
def hostIndex (mb : Nat) : Nat := if mb = 7 then 2 else mb

/-- MB0, MB1 and MB7. -/
def isHostMb (mb : Nat) : Bool := mb == 0 || mb == 1 || mb == 7

/-- A host mailbox. -/
def hostMb (s : State) (mb : Nat) : HostMb := if mb = 0 then s.host.mb0 else if mb = 1 then s.host.mb1 else s.host.mb7

/-- Updates a host mailbox. -/
def updMb (mb : Nat) (f : HostMb → HostMb) (s : State) : State :=
  if mb = 0 then { s with host.mb0 := f s.host.mb0 }
  else if mb = 1 then { s with host.mb1 := f s.host.mb1 }
  else { s with host.mb7 := f s.host.mb7 }

/-- Sets bits of ATTN. -/
def setAttn (bits : Nat) (s : State) : State := { s with host.attn := s.host.attn ||| BitVec.ofNat 32 bits }

/-- PENDING commands of a mailbox. -/
def pendingOf (h : Hub) (mb : Nat) : Nat := ((h.mbx.pendingIn.find? (·.1 == mb)).map (·.2)).getD 0

/-- Counts a PENDING command of a mailbox. -/
def setPending (mb n : Nat) (h : Hub) : Hub :=
  { h with mbx.pendingIn := (mb, n) :: h.mbx.pendingIn.filter (·.1 != mb) }

/-- Writes the oldest waiting notice of a host mailbox when its notice bit is clear (R316). DEDUCED (log 28): a command is pending until its
notice has left the queue of 8, which so never overflows. -/
def deliverNotice (mb : Nat) (s : State) : State :=
  let bit := 2 ^ (3 + hostIndex mb)
  match (hostMb s mb).notices with
  | [] => s
  | n :: ns =>
    if bitOf s.host.attn.toNat (3 + hostIndex mb) then s
    else
      let s := updMb mb (fun x => { x with notices := ns }) { s with hub := setPending mb (pendingOf s.hub mb - 1) s.hub }
      setAttn bit { s with host.ram := writeBytes s.host.ram (hostBase mb + 0x4000) n }

/-- A RESPONSE record (09 R216). -/
def responseRec (mb kind : Nat) (m : Bytes) : Rec :=
  { ty := 9, order := 9, payload := leNat 1 mb ++ leNat 1 kind ++ zeros 2 ++ m }

/-- Sends a response out of a mailbox. -/
def deliverResponse (mb : Nat) (m : Bytes) (s : State) : State :=
  if isHostMb mb then
    setAttn (2 ^ hostIndex mb)
      (updMb mb (fun x => { x with busy := false }) { s with host.ram := writeBytes s.host.ram (hostBase mb + 0x2000) m })
  else if mb = 6 then { s with hub := queueCells 2 (unitCells 1 6 0 s.hub.flash.hubId m) s.hub }
  else { s with hub := emit (responseRec mb 0 m) s.hub }

/-- Sends a completion notice out of a mailbox. -/
def deliverNoticeMsg (mb : Nat) (m : Bytes) (s : State) : State :=
  if isHostMb mb then deliverNotice mb (updMb mb (fun x => { x with notices := x.notices ++ [m] }) s)
  else if mb = 6 then { s with hub := queueCells 2 (unitCells 1 6 0 s.hub.flash.hubId m) s.hub }
  else { s with hub := emit (responseRec mb 1 m) s.hub }

/-- Answers to shadowed commands leave once lane P has acknowledged their COMMAND unit (12 R305). -/
def releaseHeld (s : State) : State :=
  let ready (x : Nat × Nat × Bytes) : Bool :=
    decide (x.1 ≤ s.hub.pair.coveredCells) || s.hub.pair.state != .active || !s.hub.pair.paired
  let out := s.hub.pair.heldResp.filter ready
  let s := { s with hub := { s.hub with pair.heldResp := s.hub.pair.heldResp.filter (!ready ·) } }
  out.foldl (fun s x => deliverResponse x.2.1 x.2.2 s) s

/-- A response, held where R305 asks for it: a shadowed command of a host mailbox on a hub in ACTIVE. -/
def respond (code mb : Nat) (m : Bytes) (s : State) : State :=
  let p := s.hub.pair
  if isShadowed code && p.paired && p.state == .active && isActive s.hub && isHostMb mb &&
      decide (p.coveredCells < p.queuedCells) then
    { s with hub := { s.hub with pair.heldResp := p.heldResp ++ [(p.queuedCells, mb, m)] } }
  else deliverResponse mb m s

/-! ## The steps (R324) -/

/-- The key a slot names: 0xFE the transport key. -/
def keyOf (h : Hub) (slot : Nat) : Option Bytes :=
  if slot = 0xFE then some transportKey else if slot < 8 then (slotAt h slot).key else none

/-- The two origins reserved for PAIR_RESYNC (14 R364). -/
def pairOrigin (o : BitVec 32) : Bool := o == 0xFFFFFF0A || o == 0xFFFFFF0B

/-- Step 1. -/
def wellFormed (code : Nat) (known : Bool) (r : Req) (h : Hub) : Bool :=
  known && r.version == 1 && decide (r.flags.toNat < 2) && r.status == 0 && r.rsvd == 0 &&
    r.payload.length == r.length.toNat && decide (r.length.toNat ≤ 4096) &&
    r.tag.length == (if isCritical r then 16 else 0) && r.origin != 0 && (!pairOrigin r.origin || r.mailbox == 6) &&
    r.dest == h.flash.hubId && (isCritical r || changes code || (r.keySlot == 0xFF && r.counter == 0))

/-- The window a command names was opened from another mailbox. -/
def otherWindow (code : Nat) (r : Req) (h : Hub) : Bool :=
  [0x0801, 0x0880, 0x0881].contains code &&
    (let w := h.windows.getD (fieldAt r.payload 0 1) {}
     w.isOpen && w.mailbox != r.mailbox)

/-- Step 2: the mailboxes of R368. -/
def mailboxOk (code : Nat) (r : Req) (h : Hub) : Bool :=
  let mb := r.mailbox
  if code = 0x0A01 then mb == 6
  else if mb = 6 then false
  else if code = 0x0B00 ∨ code = 0x0B01 then mb == 0 || mb == 1
  else if code = 0x0B05 ∨ code = 0x0B06 ∨ code = 0x0B04 then mb == 0 || mb == 1 || mb == 7
  else if code = 0x0B03 ∨ code = 0x0901 then mb == 7
  else if code = 0x0B0A then
    ((mb == 0 || mb == 1) && h.flash.lifecycle == .provisioned) || (mb == 7 && h.flash.lifecycle == .maintenance)
  else !otherWindow code r h

/-- Step 3 of a message checked as critical. -/
def authentic (code : Nat) (r : Req) (h : Hub) : Bool :=
  (r.keySlot != 0xFE || code == 0x0B00) &&
    match keyOf h r.keySlot.toNat with
    | some k => tagOf k (reqBytes code r) == r.tag
    | none => false

/-- Commands that only slot 0 tags (R330, R365). -/
def slot0Only (code : Nat) : Bool := [0x0B01, 0x0B04, 0x0B05, 0x0B06].contains code

/-- Step 4. -/
def rightsOk (code : Nat) (r : Req) (h : Hub) : Bool :=
  if code = 0x0B00 then r.keySlot == 0xFE
  else if slot0Only code && r.keySlot != 0 then false
  else bitOf (slotAt h r.keySlot.toNat).rights.toNat (code / 256)

/-- The last counter accepted for an origin and slot. -/
def lastCounter (h : Hub) (o : BitVec 32) (slot : Nat) : Option Nat :=
  (h.mbx.counters.find? fun e => e.origin == o && e.slot == slot).map (·.counter)

/-- Raises an entry of the counter table to at least a value; a full table of 1,024 takes no new entry (R325). -/
def raiseCounter (o : BitVec 32) (slot n : Nat) (h : Hub) : Hub :=
  if h.mbx.counters.any fun e => e.origin == o && e.slot == slot then
    { h with mbx.counters := h.mbx.counters.map fun e =>
        if e.origin == o && e.slot == slot then { e with counter := max e.counter n } else e }
  else if 1024 ≤ h.mbx.counters.length then h
  else { h with mbx.counters := h.mbx.counters ++ [⟨o, slot, n⟩] }

/-- Step 5: the refusal, if any. -/
def counterFault (r : Req) (h : Hub) : Option Nat :=
  let last := lastCounter h r.origin r.keySlot.toNat
  if r.counter.toNat ≤ last.getD 0 then some rReplay
  else if last.isNone && decide (1024 ≤ h.mbx.counters.length) then some rState
  else none

/-- Step 6: the table of R333. -/
def lifecycleOk (code : Nat) (r : Req) (l : LifeCycle) : Bool :=
  let runs := l == .operational || l == .maintenance
  if code / 256 = 0x0B then
    match code with
    | 0x0B00 => l == .blank
    | 0x0B01 => l == .provisioned
    | 0x0B02 => l == .operational
    | 0x0B03 => l == .maintenance
    | 0x0B04 => runs
    | 0x0B05 | 0x0B06 => (l == .provisioned && r.mailbox != 7) || (l == .maintenance && r.mailbox == 7)
    | 0x0B0A => l == .provisioned || (l == .maintenance && r.mailbox == 7)
    | _ => l == .provisioned || runs
  else if code = 0x0901 then l == .maintenance && r.mailbox == 7
  else l == .provisioned || runs

/-- The event AUTH_FAIL (15 R449). -/
def authFail (code step : Nat) (r : Req) (h : Hub) : Hub :=
  jLimited
    { kind := 2, code := 0x2003, mailbox := r.mailbox, keySlot := r.keySlot.toNat, origin := r.origin.toNat
      counter := r.counter.toNat
      detail := leNat 2 code ++ leNat 1 step ++ zeros 1 ++ leNat 4 r.msgId.toNat ++ zeros 8 } h

/-- DETAIL of an accepted command's record (15 R448). -/
def recordDetail (p : Reply) : Bytes :=
  p.detail.getD (leNat 6 p.effect ++ leNat 1 (b2n p.staged) ++ zeros 1 ++ padTo 8 p.args)

/-- The record an accepted critical message leaves (14 R345). -/
def acceptRec (code : Nat) (r : Req) (p : Reply) (h : Hub) : Hub :=
  if changes code then (if p.ownRecord then h else changeRec r code (recordDetail p) h) else changeRec r code [] h

/-- What a refusal at steps 6 and 7 takes with it: the entries held for a committing command, an incomplete graph load, and
the counter's COMMAND_REFUSED record (14 R337). -/
def refusedAfter (code status : Nat) (r : Req) (h : Hub) : Hub :=
  let h := if [0x0100, 0x0101, 0x0500, 0x0501, 0x0900].contains code && !bitOf (fieldAt r.payload 12 1) 0 then
      dropStaged r.origin code h else h
  let h := if code = 0x0400 then { h with arr.loading := none } else h
  if isCritical r then changeRec r 0x3004 (leNat 2 code ++ leNat 1 status) h else h

/-- What a message comes to: the reply, whether it is tagged, and the hub after it. -/
structure Handled where
  reply : Reply
  tagged : Bool
  hub : Hub
deriving DecidableEq, Repr

/-- A command has answered PENDING: it is counted, and the key of its tag kept for its notice (R322). -/
def notePending (r : Req) (h : Hub) : Hub :=
  let g := setPending r.mailbox (pendingOf h r.mailbox + 1) h
  if isCritical r then { g with mbx.noticeKeys := (r, keyOf h r.keySlot.toNat) :: h.mbx.noticeKeys.filter (·.1 != r) } else g

/-- Step 7 and what follows it. -/
def execute (code : Nat) (cmd : Cmd) (env : Env) (r : Req) (h : Hub) : Handled :=
  match cmd { code := code, req := r, env := env } h with
  | .error p => ⟨p, isCritical r, refusedAfter code p.status r h⟩
  | .ok (p, h') =>
    if p.status == rPending && isHostMb r.mailbox && decide (8 ≤ pendingOf h r.mailbox) then
      ⟨answer rBusy [], isCritical r, refusedAfter code rBusy r h⟩
    else
      let h' := if p.status == rPending then notePending r h' else h'
      let h' := if isCritical r then acceptRec code r p h' else h'
      let m := msgBytes code r
      ⟨p, isCritical r, if isShadowed code then shadowCommand p.effect r.mailbox m (noteAccepted p.effect r.mailbox m h') else h'⟩

/-- A standby's refusal of a shadowed command (12 R304). -/
def standbyRefuses (code : Nat) (r : Req) (h : Hub) : Bool :=
  isStandby h && isShadowed code && (r.mailbox == 0 || r.mailbox == 1)

/-- In the eclipse state the critical commands of groups 0x01 to 0x05 and 0x0C are refused (15 R380). -/
def eclipseRefuses (code : Nat) (h : Hub) : Bool :=
  changes code && inEclipse h && (decide (1 ≤ code / 256 ∧ code / 256 ≤ 5) || code / 256 == 0x0C)

/-- The seven steps of a request. While the journal cannot take records every critical command ends in FAULT before its
counter is consumed (15 R376). -/
def handle (code : Nat) (cmd : Option Cmd) (env : Env) (r : Req) (h : Hub) : Handled :=
  match cmd with
  | none => ⟨refuse rArgument, false, h⟩
  | some f =>
    if !wellFormed code true r h then ⟨refuse rArgument, false, h⟩
    else if !mailboxOk code r h || standbyRefuses code r h then ⟨refuse rState, false, h⟩
    else if !isCritical r then
      if changes code then ⟨refuse rAuth, false, authFail code 3 r h⟩ else execute code f env r h
    else if !authentic code r h then ⟨refuse rAuth, false, authFail code 3 r h⟩
    else if !rightsOk code r h then ⟨refuse rAuth, true, authFail code 4 r h⟩
    else if journalBlocked h then ⟨answer rFault [], true, h⟩
    else match counterFault r h with
      | some st => ⟨refuse st, true, h⟩
      | none =>
        let h := raiseCounter r.origin r.keySlot.toNat r.counter.toNat h
        if changes code && !lifecycleOk code r h.flash.lifecycle then
          ⟨refuse rLifecycle, true, refusedAfter code rLifecycle r h⟩
        else if eclipseRefuses code h then ⟨refuse rState, true, refusedAfter code rState r h⟩
        else execute code f env r h

/-! ## Serving (R317 to R319) -/

/-- A mailbox is served in the present state (R317, R318). -/
def served (h : Hub) (mb : Nat) : Bool :=
  isUp h && decide (mb < 8) &&
    (if mb = 0 ∨ mb = 1 then true
     else if mb = 6 then h.pair.paired && h.flash.lifecycle != .blank
     else if mb = 7 then h.flash.lifecycle == .maintenance
     else h.flash.lifecycle == .operational || h.flash.lifecycle == .maintenance)

/-- Wiori processes one request of a mailbox in its entirety. The response is made with the key and HUB_ID in force when the
message was taken; a reset starts once it has left (14 R365): one in a host mailbox leaves at once, which the model keeps in `hub.out`
(log 12), one that is a RESPONSE record by the custody outlet. -/
def process (code : Nat) (cmd : Option Cmd) (env : Env) (r : Req) (s : State) : State :=
  let h := s.hub
  let x := handle code cmd env r h
  let m := responseBytes h code r (if x.tagged then keyOf h r.keySlot.toNat else none) false x.reply.status x.reply.payload
  let s := respond code r.mailbox m { s with hub := x.hub }
  match x.reply.reset with
  | some d =>
    if isHostMb r.mailbox || !runsInFull s.hub || !isUp s.hub then doReset d { s with hub := sendOut (.mailbox r.mailbox m) s.hub }
    else { s with hub := { s.hub with power.resetDue := some d } }
  | none => s

/-- The partner's answer to PAIR_RESYNC: a refused request is sent again after 1 s (12 R312, R313). -/
def resyncAnswer (m : Bytes) (h : Hub) : Hub :=
  if isStandby h && h.pair.resyncWait && msgCode m == 0x0A01 && fieldAt m 9 1 != rOk then
    { h with pair.resyncWait := false, pair.retryAt := some (h.time.op4k + 4000) }
  else h

/-- A message of a mailbox is taken: discarded when it is shorter than its header or has RESPONSE set. -/
def takeMessage (env : Env) (w : Waiting) (s : State) : State :=
  let idle (s : State) : State := if isHostMb w.mb then updMb w.mb (fun x => { x with busy := false }) s else s
  match parseMsg w.mb w.msg with
  | none => idle s
  | some (code, r) =>
    if isResponse r then
      let s := idle s
      if w.mb = 6 then { s with hub := resyncAnswer w.msg s.hub } else s
    else process code (cmdOf code) env r s

/-- The mailbox whose turn it is: round robin after the one served last. -/
def nextMailbox (h : Hub) : Option Nat :=
  ((List.range 8).map fun k => (h.mbx.last + 1 + k) % 8).find? fun mb => h.mbx.waiting.any (·.mb == mb)

/-- A standby relays a message of MB2 to MB5; what is shorter than a header is no message. -/
def relayMessage (mb via : Nat) (msg : Bytes) (h : Hub) : Hub := if msg.length < 32 then h else relay 0 mb via msg h

/-- Takes the oldest message of the mailbox whose turn it is; one that came before the hub became a standby is relayed (12 R304). -/
def serveOne (env : Env) (s : State) : State :=
  match nextMailbox s.hub with
  | none => s
  | some mb =>
    match s.hub.mbx.waiting.find? (·.mb == mb) with
    | none => s
    | some w =>
      let s := { s with hub := { s.hub with mbx.waiting := s.hub.mbx.waiting.erase w, mbx.last := mb } }
      if !served s.hub mb then s
      else if decide (2 ≤ mb ∧ mb ≤ 5) && isStandby s.hub then { s with hub := relayMessage mb w.via w.msg s.hub }
      else takeMessage env w s

/-- Serves at most `n` messages. -/
def serveFuel (env : Env) : Nat → State → State
  | 0, s => s
  | n + 1, s => if s.hub.mbx.waiting.isEmpty then s else serveFuel env n (serveOne env s)

/-- Wiori takes what waits when it is free (13 R319; log 6) and still runs (15 R382). -/
def serve (env : Env) (s : State) : State := if env.free && s.hub.faults.hardware.isNone then serveFuel env s.hub.mbx.waiting.length s else s

/-- The answer BUSY of a full mailbox, untagged; nothing but the header is examined (R318). -/
def answerBusy (mb : Nat) (msg : Bytes) (s : State) : State :=
  match parseMsg mb msg with
  | none => s
  | some (code, r) =>
    if isResponse r then s else deliverResponse mb (responseBytes s.hub code r none false rBusy []) s

/-- Arrival of a whole message for MB2 to MB5 or MB6: relayed on a standby, discarded where the mailbox is not served, and
answered with BUSY when 4 wait. -/
def arrive (mb via : Nat) (msg : Bytes) (env : Env) (s : State) : State :=
  let h := s.hub
  if !served h mb then s
  else if decide (2 ≤ mb ∧ mb ≤ 5) && isStandby h then { s with hub := relayMessage mb via msg h }
  else if 4 ≤ (h.mbx.waiting.filter (·.mb == mb)).length then answerBusy mb msg s
  else serve env { s with hub := { h with mbx.waiting := h.mbx.waiting ++ [⟨mb, msg, via⟩] } }

/-- MAILBOX_MESSAGE_ARRIVAL (R318). -/
def execMailboxMessageArrival (mb : Nat) (msg : Bytes) (via : Nat) (env : Env) (s : State) : Out :=
  .next (if 2 ≤ mb ∧ mb ≤ 5 then arrive mb via msg env s else s)

/-- Wiori processes a request of a row of chapter 14: while it runs (15 R382), where its mailbox is served, and relayed by a
standby. -/
def runCommand (code : Nat) (cmd : Cmd) (env : Env) (r : Req) (s : State) : Out :=
  .next (
    if !served s.hub r.mailbox || s.hub.faults.hardware.isSome then s
    else if isResponse r then s
    else if decide (2 ≤ r.mailbox ∧ r.mailbox ≤ 5) && isStandby s.hub then
      { s with hub := relay 0 r.mailbox 7 (msgBytes code r) s.hub }
    else process code (some cmd) env r { s with hub := { s.hub with mbx.last := r.mailbox } })

/-! ## Completion notices (R322) -/

/-- The key a notice is tagged with: the one its request's tag verified under, whatever its slot holds since. -/
def noticeKey (r : Req) (h : Hub) : Option Bytes :=
  match h.mbx.noticeKeys.find? (·.1 == r) with
  | some x => x.2
  | none => keyOf h r.keySlot.toNat

/-- The notice that answers a PENDING command; a standby sends none for a shadowed one, which it did not answer either. -/
def sendNotice (code : Nat) (r : Req) (status : Nat) (payload : Bytes) (s : State) : State :=
  let h := s.hub
  if isShadowed code && isStandby h then s else
  let key := if isCritical r then noticeKey r h else none
  let m := responseBytes h code r key true status payload
  let h := { h with mbx.noticeKeys := h.mbx.noticeKeys.filter (·.1 != r) }
  deliverNoticeMsg r.mailbox m { s with
    hub := if isHostMb r.mailbox then h else setPending r.mailbox (pendingOf h r.mailbox - 1) h }

/-- NOTICE_DELIVER (R316). -/
def execNoticeDeliver (mb : Nat) (s : State) : Out := .next (if isHostMb mb then deliverNotice mb s else s)

end Sys2Proof.Machine
end

