-- ==== Sys2Proof/Machine/Commands.lean ====
section
/-! DEFINITION. The commands of chapter 14 as rows: one meaning for each, the request processed by the seven steps of 13 R324
with the command's own step 7. -/

namespace Sys2Proof.Machine

/-! ## Group 0x00: identity and ledger -/

/-- CFG_LABEL (R347). -/
def execCfgLabel (req : Req) (s : State) : Out := runCommand 0x0010 cmdCfgLabel {} req s

/-- READ_IDENTITY (R348). -/
def execReadIdentity (req : Req) (s : State) : Out := runCommand 0x0080 cmdReadIdentity {} req s

/-- READ_LEDGER (R347). -/
def execReadLedger (req : Req) (s : State) : Out := runCommand 0x0081 cmdReadLedger {} req s

/-! ## Group 0x01: channels and excitation -/

/-- CFG_CHANNEL (R349). -/
def execCfgChannel (req : Req) (s : State) : Out := runCommand 0x0100 cmdCfgChannel {} req s

/-- CFG_EXCITATION (R54). -/
def execCfgExcitation (req : Req) (s : State) : Out := runCommand 0x0101 cmdCfgExcitation {} req s

/-- CFG_REMAP (R349). -/
def execCfgRemap (req : Req) (s : State) : Out := runCommand 0x0102 cmdCfgRemap {} req s

/-- REVIVE_CHANNEL (R349). -/
def execReviveChannel (req : Req) (s : State) : Out := runCommand 0x0103 cmdReviveChannel {} req s

/-- READ_CHANNEL (R350). -/
def execReadChannel (req : Req) (s : State) : Out := runCommand 0x0180 cmdReadChannel {} req s

/-! ## Group 0x02: time -/

/-- CFG_TICK (R42). -/
def execCfgTick (req : Req) (s : State) : Out := runCommand 0x0200 cmdCfgTick {} req s

/-- CFG_TIME (R233). -/
def execCfgTime (req : Req) (s : State) : Out := runCommand 0x0201 cmdCfgTime {} req s

/-- TIME_STEP (R255). -/
def execTimeStep (req : Req) (s : State) : Out := runCommand 0x0202 cmdTimeStep {} req s

/-- READ_TIME (R352). -/
def execReadTime (req : Req) (s : State) : Out := runCommand 0x0280 cmdReadTime {} req s

/-! ## Group 0x03: calibration -/

/-- CFG_CALIBRATION (R103). -/
def execCfgCalibration (req : Req) (s : State) : Out := runCommand 0x0300 cmdCfgCalibration {} req s

/-- CAL_SELF (R353). -/
def execCalSelf (req : Req) (s : State) : Out := runCommand 0x0301 cmdCalSelf {} req s

/-- CAL_SYSTEM (R111). -/
def execCalSystem (req : Req) (s : State) : Out := runCommand 0x0302 cmdCalSystem {} req s

/-- CFG_HOUSEKEEPING (R116). -/
def execCfgHousekeeping (req : Req) (s : State) : Out := runCommand 0x0303 cmdCfgHousekeeping {} req s

/-- READ_CAL_QUALITY (R101). -/
def execReadCalQuality (req : Req) (s : State) : Out := runCommand 0x0380 cmdReadCalQuality {} req s

/-- READ_HOUSEKEEPING (R353). -/
def execReadHousekeeping (req : Req) (s : State) : Out := runCommand 0x0381 cmdReadHousekeeping {} req s

/-! ## Group 0x04: reduction -/

/-- LOAD_GRAPH (R139). -/
def execLoadGraph (req : Req) (s : State) : Out := runCommand 0x0400 cmdLoadGraph {} req s

/-- ACTIVATE_GRAPH (R140). -/
def execActivateGraph (req : Req) (s : State) : Out := runCommand 0x0401 cmdActivateGraph {} req s

/-- READ_GRAPH (R355). -/
def execReadGraph (req : Req) (s : State) : Out := runCommand 0x0480 cmdReadGraph {} req s

/-! ## Group 0x05: flares and captures -/

/-- CFG_FLARE (R147). -/
def execCfgFlare (req : Req) (s : State) : Out := runCommand 0x0500 cmdCfgFlare {} req s

/-- CFG_CAPTURE (R154). -/
def execCfgCapture (req : Req) (s : State) : Out := runCommand 0x0501 cmdCfgCapture {} req s

/-- FLARE_NOW (R356). -/
def execFlareNow (req : Req) (s : State) : Out := runCommand 0x0502 cmdFlareNow {} req s

/-- RELEASE_CAPTURE (R164). -/
def execReleaseCapture (req : Req) (s : State) : Out := runCommand 0x0503 cmdReleaseCapture {} req s

/-- CLEAR_CAPTURE_STATS (R167). -/
def execClearCaptureStats (req : Req) (s : State) : Out := runCommand 0x0504 cmdClearCaptureStats {} req s

/-- READ_CAPTURES (R356). -/
def execReadCaptures (req : Req) (s : State) : Out := runCommand 0x0580 cmdReadCaptures {} req s

/-! ## Group 0x06: compression, custody and outlets -/

/-- CFG_COMPRESSION (R174). -/
def execCfgCompression (req : Req) (s : State) : Out := runCommand 0x0600 cmdCfgCompression {} req s

/-- CUSTODY_ACK (R226). -/
def execCustodyAck (req : Req) (s : State) : Out := runCommand 0x0601 cmdCustodyAck {} req s

/-- CUSTODY_RETRANSMIT (R227). -/
def execCustodyRetransmit (req : Req) (s : State) : Out := runCommand 0x0602 cmdCustodyRetransmit {} req s

/-- CFG_OUTLETS (R217). -/
def execCfgOutlets (req : Req) (s : State) : Out := runCommand 0x0603 cmdCfgOutlets {} req s

/-- COMPRESS_JOB (R194). -/
def execCompressJob (req : Req) (s : State) : Out := runCommand 0x0604 cmdCompressJob {} req s

/-- RESUME_COMPRESS (R196). -/
def execResumeCompress (req : Req) (s : State) : Out := runCommand 0x0605 cmdResumeCompress {} req s

/-- CANCEL_COMPRESS (R196). -/
def execCancelCompress (req : Req) (s : State) : Out := runCommand 0x0606 cmdCancelCompress {} req s

/-! ## Group 0x07: lanes -/

/-- CFG_LANE (R258). -/
def execCfgLane (req : Req) (s : State) : Out := runCommand 0x0700 cmdCfgLane {} req s

/-- CFG_SLOT_TABLE (R281). -/
def execCfgSlotTable (req : Req) (s : State) : Out := runCommand 0x0701 cmdCfgSlotTable {} req s

/-- CFG_UPLINK (R288). -/
def execCfgUplink (req : Req) (s : State) : Out := runCommand 0x0702 cmdCfgUplink {} req s

/-- READ_LANE (R286). -/
def execReadLane (req : Req) (s : State) : Out := runCommand 0x0780 cmdReadLane {} req s

/-! ## Group 0x08: transfer windows -/

/-- OPEN_WINDOW (R360). -/
def execOpenWindow (req : Req) (s : State) : Out := runCommand 0x0800 cmdOpenWindow {} req s

/-- CLOSE_WINDOW (R359). -/
def execCloseWindow (req : Req) (s : State) : Out := runCommand 0x0801 cmdCloseWindow {} req s

/-- TRANSFER (R400). -/
def execTransfer (req : Req) (env : Env) (s : State) : Out := runCommand 0x0880 cmdTransfer env req s

/-- RESUME_TRANSFER (R400). -/
def execResumeTransfer (req : Req) (env : Env) (s : State) : Out := runCommand 0x0881 cmdResumeTransfer env req s

/-! ## Group 0x09: faults and journal -/

/-- CFG_FAULT (R374). -/
def execCfgFault (req : Req) (s : State) : Out := runCommand 0x0900 cmdCfgFault {} req s

/-- FORCE_FAULT (R389). -/
def execForceFault (req : Req) (s : State) : Out := runCommand 0x0901 cmdForceFault {} req s

/-- READ_FAULTS (R362). -/
def execReadFaults (req : Req) (s : State) : Out := runCommand 0x0980 cmdReadFaults {} req s

/-- READ_JOURNAL (R362). -/
def execReadJournal (req : Req) (s : State) : Out := runCommand 0x0981 cmdReadJournal {} req s

/-! ## Group 0x0A: pair -/

/-- CFG_PAIR (R295). -/
def execCfgPair (req : Req) (s : State) : Out := runCommand 0x0A00 cmdCfgPair {} req s

/-- PAIR_RESYNC (R311). -/
def execPairResync (req : Req) (s : State) : Out := runCommand 0x0A01 cmdPairResync {} req s

/-- READ_PAIR (R363). -/
def execReadPair (req : Req) (s : State) : Out := runCommand 0x0A80 cmdReadPair {} req s

/-! ## Group 0x0B: keys, life cycle, firmware and reset -/

/-- PROVISION (R332). -/
def execProvision (req : Req) (s : State) : Out := runCommand 0x0B00 cmdProvision {} req s

/-- COMMISSION (R332). -/
def execCommission (req : Req) (s : State) : Out := runCommand 0x0B01 cmdCommission {} req s

/-- ENTER_MAINTENANCE (R332). -/
def execEnterMaintenance (req : Req) (s : State) : Out := runCommand 0x0B02 cmdEnterMaintenance {} req s

/-- EXIT_MAINTENANCE (R332). -/
def execExitMaintenance (req : Req) (s : State) : Out := runCommand 0x0B03 cmdExitMaintenance {} req s

/-- DECOMMISSION (R332). -/
def execDecommission (req : Req) (s : State) : Out := runCommand 0x0B04 cmdDecommission {} req s

/-- LOAD_KEY (R330). -/
def execLoadKey (req : Req) (s : State) : Out := runCommand 0x0B05 cmdLoadKey {} req s

/-- ERASE_KEY (R330). -/
def execEraseKey (req : Req) (s : State) : Out := runCommand 0x0B06 cmdEraseKey {} req s

/-- FW_LOAD (R335). -/
def execFwLoad (req : Req) (s : State) : Out := runCommand 0x0B07 cmdFwLoad {} req s

/-- FW_VERIFY (R334). -/
def execFwVerify (req : Req) (s : State) : Out := runCommand 0x0B08 cmdFwVerify {} req s

/-- FW_INSTALL (R335). -/
def execFwInstall (req : Req) (s : State) : Out := runCommand 0x0B09 cmdFwInstall {} req s

/-- FW_ACTIVATE (R335). -/
def execFwActivate (req : Req) (s : State) : Out := runCommand 0x0B0A cmdFwActivate {} req s

/-- RESET (R420). -/
def execReset (req : Req) (s : State) : Out := runCommand 0x0B0B cmdReset {} req s

/-! ## Group 0x0C: loop outputs -/

/-- CFG_LOOP_OUTPUT (R367). -/
def execCfgLoopOutput (req : Req) (s : State) : Out := runCommand 0x0C00 cmdCfgLoopOutput {} req s

/-- READ_LOOP (R367). -/
def execReadLoop (req : Req) (s : State) : Out := runCommand 0x0C80 cmdReadLoop {} req s

end Sys2Proof.Machine
end

