-- ==== Sys2Proof/Machine/HostPort.lean ====
section
/-! DEFINITION. The host port: its window, transactions, doorbells, the host FIFO (13 R314 to R317, 09 R221, R222). -/

namespace Sys2Proof.Machine

/-- Bring-up state codes (17 R423). -/
def phaseCode : Phase → Nat
  | .off | .supply => 0x01 | .clocks => 0x02 | .boot => 0x03 | .selftest => 0x04 | .restore => 0x05
  | .calibrate => 0x06 | .align => 0x07 | .run => 0x00 | .draining => 0x08 | .noRefclk => 0x81 | .noImage => 0x82
  | .selftestFail => 0x83

/-- The host port answers from CLOCKS onwards (17 R423). -/
def portAnswers (h : Hub) : Bool := h.power.phase != .off && h.power.phase != .supply

/-- Bring-up is complete. -/
def portReady (h : Hub) : Bool := h.power.phase == .run || h.power.phase == .draining

/-! ## Registers -/

/-- STATE. -/
def stateWord (h : Hub) : Nat :=
  phaseCode h.power.phase + 256 * lifeCode h.flash.lifecycle + 2048 * b2n h.power.sideB + 4096 * b2n (isActive h)

/-- ATTN, its bit 6 the NOTICE bit of the host FIFO. -/
def attnWord (s : State) : Word :=
  (s.host.attn &&& 0xFFFFFFBF) ||| (if s.host.fifo.notice then 0x40 else 0)

/-- The ball HP_ATTN_N: low while an enabled bit of ATTN is set. -/
def hpAttnN (s : State) : Bool := attnWord s &&& s.host.attnEn == 0

/-- MB_STATE of one mailbox. -/
def mbState (s : State) (mb : Nat) : Nat :=
  if mb = 7 && s.hub.flash.lifecycle != .maintenance then 2 else b2n (hostMb s mb).busy

/-- A FIFO's status word (R221). -/
def fifoStatus (f : Fifo) : Nat :=
  f.words.length + 65536 * (f.packets % 4096) + 2 ^ 28 * b2n (decide (f.words.length = fifoCapacity)) +
    2 ^ 29 * b2n f.words.isEmpty + 2 ^ 30 * b2n f.overrun + 2 ^ 31 * b2n f.notice

/-- Offsets of REQUEST, RESPONSE and NOTICE from the base of their mailbox. -/
def bufferAt (addr : Nat) : Option (Nat × Nat) :=
  let b := addr / 65536
  let o := addr % 65536
  if b = 1 ∨ b = 2 ∨ b = 7 then
    if o % 8192 < 4144 ∧ o / 8192 < 3 then some (b, o / 8192) else none
  else none

/-- An address of the window holds a register or a buffer. -/
def mapped (addr : Nat) : Bool := decide (addr < 0x30) || (bufferAt addr).isSome

/-- What a read of an address returns, side effects apart. -/
def readWindow (s : State) (addr : Nat) : Word :=
  match addr with
  | 0x00 => 0x4B5A0512
  | 0x04 => BitVec.ofNat 32 (revision s.hub)
  | 0x08 => s.hub.flash.hubId
  | 0x0C => BitVec.ofNat 32 (stateWord s.hub)
  | 0x10 => attnWord s
  | 0x14 => s.host.attnEn
  | 0x1C => BitVec.ofNat 32 (mbState s 0 + 4 * mbState s 1 + 16 * mbState s 7)
  | 0x20 => BitVec.ofNat 32 (fifoStatus s.host.fifo)
  | 0x24 => (fifoPop s.host.fifo).1
  | 0x28 => s.host.packetsRead
  | 0x2C => s.host.copyDrops
  | _ => if (bufferAt addr).isSome then BitVec.ofNat 32 (ofLe (readBytes s.host.ram addr 4)) else 0

/-- A read of FIFO_DATA removes a word; the reserve reader fills the room (R222, R224). -/
def fifoDataRead (s : State) : State :=
  let r := fifoPop s.host.fifo
  let took := !s.host.fifo.words.isEmpty && wEnd r.1
  let s := { s with
    host.fifo := r.2
    host.packetsRead := if took then s.host.packetsRead + 1 else s.host.packetsRead }
  if custodyOutlet s.hub = 2 then feedCustody s else s

/-- A read of one word of the window. -/
def readOne (addr : Nat) (s : State) : Word × State :=
  (readWindow s addr,
    if addr = 0x24 then fifoDataRead s else if addr = 0x2C then { s with host.copyDrops := 0 } else s)

/-- A W1C write to ATTN: bit 6 clears the FIFO's NOTICE. -/
def attnClear (bits : Word) (s : State) : State :=
  { s with host.attn := s.host.attn &&& ~~~bits, host.fifo.notice := s.host.fifo.notice && !bits.getLsbD 6 }

/-- A W1C write to FIFO_STATUS. -/
def fifoStatusClear (bits : Word) (s : State) : State :=
  { s with host.fifo.overrun := s.host.fifo.overrun && !bits.getLsbD 30
           host.fifo.notice := s.host.fifo.notice && !bits.getLsbD 31 }

/-- A write to ATTN_EN or a REQUEST buffer stores the word; every other address with no behaviour of its own ignores it. -/
def storeWord (addr : Nat) (w : Word) (s : State) : State :=
  if addr = 0x14 then { s with host.attnEn := w }
  else match bufferAt addr with
    | some (_, 0) => { s with host.ram := writeBytes s.host.ram addr (leNat 4 w.toNat) }
    | _ => s

/-! ## Doorbells (R316) -/

/-- The message a REQUEST buffer holds, by its own LENGTH and CRITICAL. -/
def requestBytesAt (s : State) (mb : Nat) : Bytes :=
  let b := hostBase mb
  let len := ofLe (readBytes s.host.ram (b + 10) 2)
  let tag := if (readByte s.host.ram (b + 1)).getLsbD 0 then 16 else 0
  readBytes s.host.ram b (min 4144 (32 + len + tag))

/-- Submits one mailbox, or sets DOORBELL_LOST where it is BUSY or LOCKED. -/
def submit (mb : Nat) (s : State) : State :=
  if mbState s mb ≠ 0 then setAttn 0x80 s
  else
    let m := requestBytesAt s mb
    let s := updMb mb (fun x => { x with busy := true }) s
    { s with hub := { s.hub with mbx.waiting := s.hub.mbx.waiting ++ [{ mb := mb, msg := m }] } }

/-- A write to DOORBELL; during bring-up it has no effect (R317). -/
def doorbell (bits : Word) (env : Env) (s : State) : State :=
  if !portReady s.hub then s
  else serve env ((([0, 1, 7] : List Nat).filter fun mb => bits.getLsbD (hostIndex mb)).foldl (fun s mb => submit mb s) s)

/-- A write of one word of the window. -/
def writeOne (env : Env) (addr : Nat) (w : Word) (s : State) : State :=
  match addr with
  | 0x10 => attnClear w s
  | 0x18 => doorbell w env s
  | 0x20 => fifoStatusClear w s
  | _ => storeWord addr w s

/-! ## Transactions (R314) -/

/-- The address after a word: it stays at FIFO_DATA. -/
def nextAddr (addr : Nat) : Nat := if addr = 0x24 then addr else (addr + 4) % 2 ^ 24

/-- Reads words of a burst. -/
def readBurst : Nat → Nat → State → List Word × State
  | 0, _, s => ([], s)
  | n + 1, addr, s =>
    let r := readOne addr s
    let rest := readBurst n (nextAddr addr) r.2
    (r.1 :: rest.1, rest.2)

/-- Writes the whole words of a burst; one cut short is discarded. -/
def writeBurst (env : Env) : Nat → List Bytes → State → State
  | _, [], s => s
  | addr, b :: bs, s =>
    if b.length = 4 then writeBurst env (nextAddr addr) bs (writeOne env addr (BitVec.ofNat 32 (ofLe b)) s) else s

/-- HOST_PORT_TRANSACTION (R314). -/
def execHostPortTransaction (opcode : Byte) (addr : BitVec 24) (data : Bytes) (count : Nat) (env : Env) (s : State) : Out :=
  let a := addr.toNat
  let isRead := opcode == 0xA5
  let state := BitVec.ofNat 8 (phaseCode s.hub.power.phase)
  let reply (st : Nat) (ws : List Word) : HpReply :=
    { answered := true, status := BitVec.ofNat 8 st, state := state, words := ws }
  .next (
    if !portAnswers s.hub || !(isRead || opcode == 0x5A) then { s with host.reply := {} }
    else
      let zero := if isRead then List.replicate count 0 else []
      if !portReady s.hub then { s with host.reply := reply rNotReady zero }
      else if a % 4 ≠ 0 || !mapped a then { s with host.reply := reply rArgument zero }
      else if isRead then
        let r := readBurst count a s
        { r.2 with host.reply := reply rOk r.1 }
      else
        let s' := writeBurst env a (chunks 4 data) s
        { s' with host.reply := reply rOk [] })

/-- REGISTER_WRITE (R315). -/
def execRegisterWrite (addr : BitVec 24) (word : Word) (s : State) : Out :=
  .next (if portReady s.hub && addr.toNat % 4 = 0 then storeWord addr.toNat word s else s)

/-- DOORBELL (R316). -/
def execDoorbell (bits : Word) (env : Env) (s : State) : Out := .next (doorbell bits env s)

/-- ATTN_CLEAR (R315). -/
def execAttnClear (bits : Word) (s : State) : Out := .next (if portReady s.hub then attnClear bits s else s)

/-- FIFO_STATUS_CLEAR (R221). -/
def execFifoStatusClear (bits : Word) (s : State) : Out := .next (if portReady s.hub then fifoStatusClear bits s else s)

/-- The answer of a read of one register in the reply. -/
def readReply (addr : Nat) (s : State) : State :=
  let r := readOne addr s
  { r.2 with host.reply := { answered := true, status := 0, state := BitVec.ofNat 8 (phaseCode s.hub.power.phase)
                             words := [r.1] } }

/-- FIFO_DATA_READ (R222). -/
def execFifoDataRead (s : State) : Out := .next (if portReady s.hub then readReply 0x24 s else s)

/-- COPY_DROPS_READ (R315). -/
def execCopyDropsRead (s : State) : Out := .next (if portReady s.hub then readReply 0x2C s else s)

end Sys2Proof.Machine
end

