-- ==== Sys2Proof/Machine/Jobs.lean ====
section
/-! DEFINITION. Commands that end later, and their completion notices: compression jobs, system calibration windows, firmware
verification and installation (08 R194 to R196, 05 R111 to R113, 13 R334, R335, 14 R354, R366). -/

namespace Sys2Proof.Machine

/-! ## Compression jobs (08 R195) -/

/-- STOP codes, and the response code of each. -/
def stopCode : JobStop → Nat
  | .done => 0 | .outputFull => 1 | .sourceLost => 2 | .cancelled => 3

/-- The response code of a STOP reason. -/
def stopStatus : JobStop → Nat
  | .done => rOk | .outputFull => rPartial | .sourceLost => rFault | .cancelled => rOk

/-- One body of a job, or why it stops: positions that are gaps in the capture hold no words and are passed over; `failed` says that the
encoder's check of the body fails. -/
def jobBody (h : Hub) (c : Capture) (failed : Bool) (x : Job) : Job × Option JobStop :=
  if x.cancelAsked then (x, some .cancelled)
  else if x.sourceLost then (x, some .sourceLost)
  else
    match segsFrom x.pos c.segs with
    | [] => (x, some .done)
    | s :: ss =>
      if segGap h c s ≠ 0 then ({ x with pos := x.pos + s.count }, none)
      else
        let run := segRun h c 0 1024 (s :: ss)
        let n := sumNat (run.map (·.count))
        let sl := sliceOf h c run
        let on := compEnable h.cfg.comp && !failed
        let r := encodeSlice h on sl.1 sl.2 { seeds := x.seeds, hists := x.hist }
        let b := bodyBytes (b2n on) 6 r.outs
        if x.outSize < x.buf.length + b.length then (x, some .outputFull)
        else
          ({ x with pos := x.pos + n, slots := x.slots + n, buf := x.buf ++ b, bodies := x.bodies + 1
                    seeds := if failed then (x.seeds ++ sl.1).eraseDups else r.seeds, hist := r.hists }, none)

/-- Runs a job for at most `n` bodies or gaps, or to its stop; `bad` bodies to come fail their check, of which it returns those left. -/
def jobFuel (h : Hub) (c : Capture) : Nat → Nat → Job → Nat × Job × Option JobStop
  | 0, bad, x => (bad, x, none)
  | n + 1, bad, x =>
    match jobBody h c (0 < bad) x with
    | (y, some r) => (bad, y, some r)
    | (y, none) => jobFuel h c n (bad - (y.bodies - x.bodies)) y

/-- The run of a job for at most `n` bodies or gaps: one whose capture is gone has lost its source. -/
def jobSome (n : Nat) (h : Hub) (x : Job) : Nat × Job × Option JobStop :=
  match windowCapture h x.def_ x.capId with
  | none => (h.stream.badBodies, x, some (if x.cancelAsked then .cancelled else .sourceLost))
  | some c => jobFuel h c (min n (capPositions c + 1)) h.stream.badBodies x

/-- The rest of a job's run, to its stop. -/
def jobRun (h : Hub) (x : Job) : Nat × Job × JobStop :=
  let n := ((windowCapture h x.def_ x.capId).map capPositions).getD 0 + 1
  let r := jobSome n h x
  (r.1, r.2.1, r.2.2.getD .done)

/-- The bodies that a running job writes in an interval: the write offset advances by whole bodies (16 R402). DESIGN CHOICE (log 9): how many an
interval sees is a free value, and what is left is written by COMPRESS_JOB_STOP. -/
def jobAdvance (j : Nat) (h : Hub) : Hub :=
  match jobAt h j with
  | none => h
  | some x =>
    if !x.running then h
    else
      let k := drawFree h
      let r := jobSome k.1.toNat k.2 x
      { setJob j (some r.2.1) k.2 with stream.badBodies := r.1 }

/-- The 24 bytes of R195. -/
def jobNotice (j : Nat) (x : Job) (r : JobStop) : Bytes :=
  leNat 1 j ++ leNat 1 (stopCode r) ++ zeros 2 ++ leNat 4 x.slots ++ leNat 4 x.pos ++ leNat 4 x.buf.length ++
    leNat 4 x.bodies ++ zeros 4

/-- A run answers RESUME_COMPRESS when its request is of that command's length. -/
def jobCode (r : Req) : Nat := if r.payload.length = 1 then 0x0605 else 0x0604

/-- A running job stops, and its notice goes out. -/
def jobStop (j : Nat) (s : State) : State :=
  match jobAt s.hub j with
  | none => s
  | some x =>
    if !x.running then s
    else
      let r := jobRun s.hub x
      let y := { r.2.1 with running := false, stop := some r.2.2, cancelAsked := false, sourceLost := false }
      let h := { setJob j (some y) s.hub with stream.badBodies := r.1 }
      sendNotice (jobCode x.req) x.req (stopStatus r.2.2) (jobNotice j y r.2.2) { s with hub := h }

/-- COMPRESS_JOB_STOP (08 R195). -/
def execCompressJobStop (job : Nat) (s : State) : Out := .next (jobStop job s)

/-! ## System calibration windows (05 R111 to R113) -/

/-- The 48 bytes of R354. -/
def winNotice (ch : Nat) (w : CalWin) (o : WinOut) (g : Nat) (os : Int) (effect : Nat) : Bytes :=
  leNat 2 ch ++ leNat 1 w.step ++ leNat 1 o.result ++ leNat 4 w.n ++ leInt 8 o.half1 ++ leInt 8 o.half2 ++ leInt 8 o.mean ++
    leNat 4 g ++ leInt 4 os ++ leNat 8 effect

/-- What an evaluated window leaves: an accepted ZERO its pending mean; an accepted SPAN or TARE its coefficients in flash, in
effect from the coming tick, with a change record of the command's; a disagreement CAL_DISAGREE with detail SYSTEM. -/
def windowEffect (ch : Nat) (w : CalWin) (o : WinOut) (h : Hub) : Hub :=
  let mr := chanModeRange h ch
  let h := updChan ch (fun x => { x with calWin := none }) h
  if o.result = 2 then raiseNow (tileBase (tileOfCh ch) + 7) ((chanAt h ch).fe.getD (ownFe ch)) 3 0 h
  else if o.result ≠ 0 then h
  else if w.step = 0 then updChan ch (fun x => { x with zero := some (mr.1, mr.2, o.mean, w.target) }) h
  else
    let set : SysCoef := ⟨ch, mr.1, mr.2, o.g, o.o⟩
    let h := storeSys set (updChan ch (fun x => { x with newSys := some (set, storedSys h ch mr.1 mr.2) }) h)
    let args := leNat 2 ch ++ leNat 1 w.step ++ leNat 4 w.n
    changeRec w.req 0x0302 (leNat 6 (streamTick h + 1) ++ zeros 2 ++ padTo 8 args) h

/-- A window that has its n slots closes. -/
def windowClose (ch : Nat) (s : State) : State :=
  match (chanAt s.hub ch).calWin with
  | none => s
  | some w =>
    if w.count < w.n then s
    else
      let o := winEval s.hub ch w
      let effect := if o.result = 0 ∧ w.step ≠ 0 then streamTick s.hub + 1 else 0
      sendNotice 0x0302 w.req rOk (winNotice ch w o o.g o.o effect) { s with hub := windowEffect ch w o s.hub }

/-- CAL_SYSTEM_WINDOW_CLOSE (05 R111). -/
def execCalSystemWindowClose (ch : Nat) (s : State) : Out := .next (windowClose ch s)

/-! ## Firmware (13 R334, R335) -/

/-- The 12 bytes of R366, of the staged image. -/
def fwNotice (result slot : Nat) (h : Hub) : Bytes :=
  leNat 1 result ++ leNat 1 slot ++ zeros 2 ++ leNat 4 (stagedVersion h) ++ leNat 4 (imgNum (readByte h.fw.staging) 8 4)

/-- The end of a verification. -/
def verifyDone (s : State) : State :=
  match s.hub.fw.verifying with
  | none => s
  | some r =>
    let h := s.hub
    let x := imageCheck (readByte h.fw.staging) h
    sendNotice 0x0B08 r rOk (fwNotice x 0xFF h)
      { s with hub := { h with fw.verifying := none, fw.verified := x == 0 } }

/-- FW_VERIFY_DONE (14 R366). -/
def execFwVerifyDone (s : State) : Out := .next (verifyDone s)

/-- The staged image as a slot's content. -/
def stagedImage (ok : Bool) (h : Hub) : Image :=
  { cells := writeBytes [] 0 (readBytes h.fw.staging 0 (256 + imgNum (readByte h.fw.staging) 12 4)), installed := ok }

/-- The end of an installation: the slot is written, read back and verified again. A read-back that fails raises
FLASH_PROGRAM of the slot's partition. -/
def installDone (readBackOk : Bool) (s : State) : State :=
  match s.hub.fw.installing with
  | none => s
  | some r =>
    let h := s.hub
    let slot := 1 - h.flash.running
    let x := if readBackOk then imageCheck (readByte h.fw.staging) h else 6
    let h1 := setOther (stagedImage (x == 0) h) { h with fw.installing := none }
    let h2 := if readBackOk then h1 else raiseNow 0xD6 slot 0 0 h1
    sendNotice 0x0B09 r (if x = 6 then rFault else rOk) (fwNotice x slot h) { s with hub := h2 }

/-- FW_INSTALL_DONE (14 R366). -/
def execFwInstallDone (readBackOk : Bool) (s : State) : Out := .next (installDone readBackOk s)

end Sys2Proof.Machine
end

