-- ==== Sys2Proof/Machine/Time.lean ====
section
/-! DEFINITION. Network time: offsets, the servo, holdover and its exits, epochs and steps (chapter 10). -/

namespace Sys2Proof.Machine

/-! ## The source in force (10 R233, R239, R243) -/

/-- A source that gives measurements: neither NONE nor REF10. -/
def realSource (src : Nat) : Bool := decide (1 ≤ src ∧ src ≤ 6)

/-- PPS or PPS_REF10. -/
def ppsSource (src : Nat) : Bool := src == 5 || src == 6

/-- The servo follows its source. -/
def follows (h : Hub) : Bool := h.time.servo == .acquire || h.time.servo == .track || h.time.servo == .slew

/-- Lanes of a lane source. -/
def sourceLanes (src : Nat) : List Nat := if laneSource src then linkLanes (if src = 3 then 3 else src - 1) else []

/-- The lane whose measurements feed the servo in this interval. -/
def sourceLane (h : Hub) : Option Nat := if laneSource h.time.source then some h.time.srcLane else none

/-- From the coming tick it is lane 0 of the bond while that is UP, lane 1 otherwise (R239). -/
def takeLane (h : Hub) : Hub :=
  let ls := sourceLanes h.time.source
  { h with time.srcLane := (ls.find? fun l => (laneAt h l).state == .up).getD (ls.headD 0) }

/-- τ_u in 1/4,000 s. -/
def updateLen (h : Hub) : Nat :=
  if laneSource h.time.source then 4000 / tickHz h.time.tCode
  else if h.time.source = 4 then [4000, 8000, 4000, 2000].getD (fieldAt h.cfg.uplink 25 1 % 4) 4000
  else 4000

/-- τ_i in seconds; τ_p is a quarter of it. -/
def tauI (h : Hub) : Nat :=
  if laneSource h.time.source then (if h.time.servo == .acquire then 1 else 32)
  else if h.time.servo == .acquire then 32 else 256

/-- 50 ns and 100 ns. -/
def ns (n : Nat) : Int := 65536 * (n : Int)

/-- What a phase detector resolves of an instant: the nearest 1/128 ns (R237, log 25). -/
def resolve (i : Inst) : Inst := 512 * roundEven i 512

/-! ## The servo (10 R242 to R244) -/

/-- ±100 × 10^-6 in 2^-48. -/
def freqLimit : Int := 28147497671

/-- Saturates a fractional frequency. -/
def satFreq (y : Int) : Int := clampInt (-freqLimit) freqLimit y

/-- The integrator after an offset in 1/4,000 of a unit. -/
def integNext (h : Hub) (e : Int) : Int :=
  satFreq (h.time.integ + roundEven (e * 2 ^ 32 * updateLen h) (1000000000 * 4000 * 4000 * tauI h ^ 2))

/-- The correction after an offset in 1/4,000 of a unit. -/
def freqNext (h : Hub) (e integ : Int) : Int :=
  satFreq (-(integ + roundEven (e * 2 ^ 32 * 4) (1000000000 * 4000 * tauI h)))

/-- Corrections of at most `room`/4,000 s, newest first. -/
def cutHist : Nat → List (Int × Nat) → List (Int × Nat)
  | _, [] => []
  | room, (y, n) :: xs => if room = 0 then [] else (y, min n room) :: cutHist (room - n) xs

/-- The mean of y over them: 0 where there are none (R247). -/
def holdMean (l : List (Int × Nat)) : Int :=
  roundEven (l.foldl (fun a x => a + x.1 * x.2) 0) (max 1 (sumNat (l.map (·.2))))

/-- Adds what a tick interval adds to them: an equal correction goes on. -/
def pushHist (y : Int) (n : Nat) (l : List (Int × Nat)) : List (Int × Nat) :=
  cutHist 256000 (match l with
    | (y', m) :: rest => if y' = y then (y, m + n) :: rest else (y, n) :: l
    | [] => [(y, n)])

/-- The correction in force in the interval that a tick opens counts while the servo is in TRACK or SLEW (R247). -/
def noteHist (h : Hub) : Hub :=
  if h.time.servo == .track || h.time.servo == .slew then
    { h with time.yHist := pushHist h.time.freq (4000 / tickHz h.time.tCode) h.time.yHist }
  else h

/-- r moved towards 0 by 1 ns per second, over one tick (R248). -/
def rampNext (h : Hub) : Int :=
  let d : Int := 65536 * (4000 / tickHz h.time.tCode : Nat)
  let r := h.time.ramp
  if d < r then r - d else if r < -d then r + d else 0

/-- A tick of a slew: the ramp moves, and the offset that the servo predicts with it; at 0 the servo is in TRACK (R248). -/
def rampTick (h : Hub) : Hub :=
  if h.time.servo == .slew && !h.time.rampDue then
    let r := rampNext h
    { h with time.ramp := r, time.predicted := h.time.predicted.map (· + roundEven (r - h.time.ramp) 4000)
             time.servo := if r = 0 then .track else .slew }
  else h

/-- TIME_FREQ_LIMIT while the correction rests at its limit. -/
def freqFault (h : Hub) : Hub :=
  let at_ := decide (freqLimit ≤ (h.time.freq.natAbs : Int))
  if at_ && !h.time.freqLimited then
    raiseHeld 0x68 0 h.time.tickInst h.time.tickInst 0 { h with time.freqLimited := true }
  else if !at_ && h.time.freqLimited then clearOcc 0x68 0 h.time.tickInst { h with time.freqLimited := false }
  else h

/-- One accepted offset (R242, R245, R248, R250). -/
def acceptOffset (theta : Int) (h : Hub) : Hub :=
  let h := if h.time.rampDue then { h with time.ramp := 4000 * theta, time.rampDue := false } else h
  let slew := h.time.servo == .slew
  let e := 4000 * theta - (if slew then h.time.ramp else 0)
  let i := integNext h e
  let y := freqNext h e i
  let r := if slew then h.time.ramp else 0
  let ok := if theta.natAbs < 50 * 65536 then h.time.okRun + 1 else 0
  let servo : Servo := if h.time.servo == .acquire && decide (16 ≤ ok) then .track
    else if slew && r == 0 then .track else h.time.servo
  let left := e - roundEven (e * updateLen h) (1000 * tauI h)
  freqFault { h with
    time.integ := i, time.freq := y, time.ramp := r, time.okRun := ok, time.servo := servo
    time.theta := theta, time.outliers := 0, time.firstAfterStep := false, time.lastAccept := h.time.op4k
    time.predicted := some (roundEven (left + r) 4000) }

/-- STEP_THRESHOLD in force. -/
def stepLimit (h : Hub) : Int := stepThreshold h.cfg.timeBlock

/-- A measurement lies beyond the margin of R244. -/
def isOutlier (theta : Int) (h : Hub) : Bool :=
  let wide := h.time.servo == .acquire || h.time.firstAfterStep
  let p := h.time.predicted.getD 0
  !h.time.rampDue && decide ((if wide then stepLimit h else ns 100) < ((theta - p).natAbs : Int))

/-! ## Loss and qualification (10 R246, R248) -/

/-- The source is lost: the servo enters HOLDOVER at the next tick. -/
def loseSource (h : Hub) : Hub :=
  if follows h && !h.time.lost then
    raiseHeld 0x67 0 h.time.tickInst h.time.tickInst 0 { h with time.lost := true, time.qual := [] }
  else h

/-- The 16 offsets, the drift between the first and the last of them taken out, span no more than 50 ns. -/
def qualified (q : List Int) : Bool :=
  let d := q.headD 0 - q.getD 15 0
  let xs := mapI (fun k x => 15 * x + k * d) (q.take 16)
  let lo := xs.foldl min (xs.headD 0)
  let hi := xs.foldl max (xs.headD 0)
  decide (16 ≤ q.length) && decide (hi - lo ≤ 15 * ns 50)

/-- The first tick after a qualification: a lane's measurement counts at the tick that ends its interval, one of PTP or PPS when it
is made (R243, R248, R251). -/
def exitTick (h : Hub) : Nat := if laneSource h.time.source then h.time.tick + 2 else h.time.tick + 1

/-- A lost or new source that qualifies: the exit is booked for the first tick after it. -/
def tryQualify (h : Hub) : Hub :=
  if (h.time.servo == .holdover || h.time.servo == .freeRun) && realSource h.time.source && qualified h.time.qual &&
      h.time.exitStep.isNone && h.time.exitSlew.isNone then
    let theta := h.time.qual.headD 0
    let h := { h with time.qual := [], time.exitAt := exitTick h }
    if stepLimit h < (theta.natAbs : Int) then { h with time.exitStep := some (-theta) }
    else { h with time.exitSlew := some theta }
  else h

/-- The interval brings a valid measurement. -/
def measured (h : Hub) : Hub := { h with time.measuredThisTick := true, time.missed := 0, time.lastMeas := h.time.op4k }

/-- A valid measurement of the source in force; whether it was accepted. -/
def sourceMeasured (theta : Int) (h : Hub) : Hub × Bool :=
  let h := measured h
  if h.time.lost || h.time.servo == .holdover || h.time.servo == .freeRun then
    (tryQualify { h with time.qual := (theta :: h.time.qual).take 16, time.firstAfterStep := false }, false)
  else if isOutlier theta h then
    let h := { h with time.outliers := min 65535 (h.time.outliers + 1), time.firstAfterStep := false }
    (if 4 ≤ h.time.outliers && !ppsSource h.time.source then loseSource h else h, false)
  else (acceptOffset theta h, true)

/-- SOURCE_QUALIFIED (R248). -/
def execSourceQualified (s : State) : Out := hubNext s (tryQualify s.hub)

/-- TIME_SOURCE_LOST (R246). -/
def execTimeSourceLost (s : State) : Out := hubNext s (loseSource s.hub)

/-- SLEW_COMPLETE (R248): the ramp has reached zero. -/
def execSlewComplete (s : State) : Out :=
  let h := s.hub
  hubNext s (if h.time.servo == .slew && !h.time.rampDue && h.time.ramp == 0 then { h with time.servo := .track } else h)

/-! ## The two-way exchange (10 R236 to R239, R251) -/

/-- ASYM of a lane in 1/256 ns; lane P has none. -/
def asymOf (h : Hub) (l : Nat) : Int := if l = 4 then 0 else h.cfg.asym.getD (if l = 5 then 4 else l) 0

/-- The departure stamp at the lane's ball: what the phase detector resolves, the serialiser's latency taken out (R237). -/
def departStamp (h : Hub) (l : Nat) (depart : Inst) : Inst := resolve depart + (laneAt h l).latTx

/-- The arrival stamp at the lane's ball. -/
def arriveStamp (h : Hub) (l : Nat) (arrive : Inst) : Inst := resolve arrive - (laneAt h l).latRx

/-- The 64 bytes of a time message that leaves a lane at an instant. -/
def timeMessage (l : Nat) (depart : Inst) (h : Hub) : Bytes :=
  let x := laneAt h l
  leNat 2 x.txId ++ leNat 2 ((x.farMsg.map (·.1)).getD 0xFFFF) ++ leInt 2 h.time.utc ++ zeros 10 ++
    stampBytes (stampOf h (departStamp h l depart)) ++
    (match x.farMsg with
      | some (_, dep, arr) => padTo 16 dep ++ stampBytes arr
      | none => zeros 32)

/-- Books a departure: message number, instant and tick of the latest 256. -/
def noteDeparture (l : Nat) (depart : Inst) (h : Hub) : Hub :=
  updLane l (fun x => { x with
    txId := (x.txId + 1) % 65536, timeDue := false
    departures := ((x.txId, depart, h.time.tick) :: x.departures).take 256 }) h

/-- θ and d of a message (R238). -/
def exchange (h : Hub) (l : Nat) (msg : Bytes) (arrive : Inst) : Int × Int :=
  let t1 := (stampFrom ((msg.drop 16).take 16)).inst
  let t3 := (stampFrom ((msg.drop 32).take 16)).inst
  let t4 := (stampFrom ((msg.drop 48).take 16)).inst
  (roundEven ((arrive - t1) - (t4 - t3)) 2 - 128 * asymOf h l, roundEven ((arrive - t1) + (t4 - t3)) 2)

/-- The measurement is valid (R238). -/
def exchangeValid (h : Hub) (l : Nat) (msg : Bytes) (arrive : Inst) : Bool :=
  let s1 := stampFrom ((msg.drop 16).take 16)
  let s3 := stampFrom ((msg.drop 32).take 16)
  let s4 := stampFrom ((msg.drop 48).take 16)
  let echo := fieldAt msg 2 2
  let inRange (d : Int) : Bool := decide (0 ≤ d) && decide (d ≤ ns 100000)
  ((laneAt h l).departures.any fun d => d.1 == echo && decide (h.time.tick ≤ d.2.2 + 4)) && s1.epoch == s4.epoch &&
    h.time.epoch == s3.epoch && inRange (arrive - s1.inst) && inRange (s4.inst - s3.inst)

/-- What an accepted measurement tells of the upstream (R232, R251). -/
def noteUpstream (q : Nat) (epoch : Nat) (h : Hub) : Hub :=
  { h with time.upHold := bitOf q 3, time.upEpoch := some epoch }

/-- A valid measurement of the upstream: a loop (HOPS 31) and a new epoch lose the source; the latter's is the first of the
16 that qualify it again, also where an exit on the old epoch's offsets was booked (R246, R251). -/
def upstreamMeasured (theta : Int) (st : Stamp) (h : Hub) : Hub :=
  let h := { h with time.upHops := bitsOf st.quality 12 8, time.upTrace := bitOf st.quality 7 }
  if bitsOf st.quality 12 8 = 31 then { loseSource h with time.qual := [] }
  else if h.time.upEpoch.isSome && h.time.upEpoch != some st.epoch then
    { loseSource (measured h) with
      time.upEpoch := some st.epoch, time.qual := [theta], time.exitStep := none, time.exitSlew := none }
  else
    let r := sourceMeasured theta h
    if r.2 then noteUpstream st.quality st.epoch r.1
    else { r.1 with time.upEpoch := some (h.time.upEpoch.getD st.epoch) }

/-- A new UTC offset from the source; it is in force from the next tick (R234). -/
def noteUtc (v : Int) (h : Hub) : Hub := { h with time.utcNew := some v, time.utcKnown := true }

/-- Receipt of a time message on a lane that is UP. -/
def timeReceipt (l : Nat) (msg : Bytes) (arrive : Inst) (h : Hub) : Hub :=
  if msg.length ≠ 64 || (laneAt h l).state != .up || 5 < l then h
  else
    let st := stampFrom ((msg.drop 16).take 16)
    let arrive := arriveStamp h l arrive
    let x := exchange h l msg arrive
    let ok := exchangeValid h l msg arrive
    let h := { h with time.laneMeas := setAt h.time.laneMeas l { theta := x.1, delay := x.2, valid := ok, age := 0 } }
    let h := updLane l (fun y => { y with farMsg := some (fieldAt msg 0 2, (msg.drop 16).take 16, stampOf h arrive) }) h
    if sourceLane h != some l then h
    else
      let h := noteUtc (sfieldAt msg 4 2) h
      if ok then upstreamMeasured x.1 st h else { h with time.qual := [] }

/-- TIME_MESSAGE_RECEIPT (R238). -/
def execTimeMessageReceipt (lane : Nat) (msg : Bytes) (arrive : Inst) (s : State) : Out :=
  hubNext s (if isUp s.hub then timeReceipt lane msg arrive s.hub else s.hub)

/-! ## PPS and 10 MHz (10 R241, R246) -/

/-- θ of an edge: against the TAI second nearest to it less PPS_DELAY. -/
def ppsTheta (h : Hub) (edge : Inst) : Int :=
  let t := resolve edge - 256 * h.cfg.ppsDelay
  t - (t + secUnits / 2) / secUnits * secUnits

/-- A PPS edge of the selected sense. -/
def ppsReceipt (rising : Bool) (edge : Inst) (h : Hub) : Hub :=
  if !ppsSource h.time.source || rising == bitOf h.cfg.timeBlock.toNat 3 then h
  else
    let theta := ppsTheta h edge
    let bad := if ns 1000 < (theta.natAbs : Int) then h.time.badEdges + 1 else 0
    let h := (sourceMeasured theta { h with time.badEdges := bad }).1
    if 4 ≤ bad then loseSource h else h

/-- PPS_EDGE (R241). -/
def execPpsEdge (rising : Bool) (edge : Inst) (s : State) : Out :=
  hubNext s (if isUp s.hub then ppsReceipt rising edge s.hub else s.hub)

/-- REF10_LOCK_LOSS (R246): the PLL falls back to REFCLK. A hub with REF10 alone has no servo to hold; its loss raises
the source all the same. -/
def ref10Lost (h : Hub) : Hub :=
  if !h.power.ref10 then h
  else
    let h := { h with power.ref10 := false }
    if h.time.source = 6 then loseSource h
    else if h.time.source = 7 then raiseNow 0x67 0 0 0 h else h

/-- REF10_LOCK_LOSS (R246). -/
def execRef10LockLoss (s : State) : Out := hubNext s (ref10Lost s.hub)

/-! ## Epochs, steps and the exits at a tick (10 R245, R252 to R255, R447) -/

/-- Δ in 12 bytes (15 R449). -/
def deltaBytes (d : Inst) : Bytes :=
  leInt 6 (d / secUnits) ++ leNat 4 ((d % secUnits) / 65536).toNat ++ leNat 2 ((d % secUnits) % 65536).toNat

/-- Discards the pending TIME_STEP with its record. -/
def discardStep (reason : Nat) (h : Hub) : Hub :=
  match h.time.step with
  | none => h
  | some (_, d) => jChange 0x3015 (deltaBytes d ++ leNat 1 reason) { h with time.step := none }

/-- The exits that the coming tick carries out. -/
def exitStepDue (h : Hub) : Option Inst := if h.time.exitAt ≤ h.time.tick + 1 then h.time.exitStep else none
def exitSlewDue (h : Hub) : Option Inst := if h.time.exitAt ≤ h.time.tick + 1 then h.time.exitSlew else none

/-- The pending step is resolved against the coming tick: superseded by the exit of a lane or PTP source, or to a reading
below 0 (R447). -/
def discardDue (h : Hub) : Hub :=
  match h.time.step with
  | none => h
  | some (t, d) =>
    if ((exitStepDue h).isSome || (exitSlewDue h).isSome) && !ppsSource h.time.source then discardStep 0 h
    else if t = h.time.tick + 1 && decide (frameEnd h + (exitStepDue h).getD 0 + d < 0) then discardStep 1 h
    else h

/-- STEP_DISCARDED (R447). -/
def execStepDiscarded (s : State) : Out := hubNext s (discardDue s.hub)

/-- Carries the epoch on: one step, in flash (R252). A standby carries its partner's. -/
def nextEpoch (h : Hub) : Hub :=
  if isUp h && h.pair.paired && !isActive h then h
  else
    let e := (h.time.epoch + 1) % 65536
    { h with time.epoch := e, flash.epoch := e }

/-- Books a step of Δ for the coming tick: the epoch, the change record of a step by hardware, written with the tick's new
reading, and the notice. A step that follows a source leaves no offset to it; one of whole seconds leaves the phase as it was. -/
def bookJump (d : Inst) (hardware : Bool) (before : Stamp) (h : Hub) : Hub :=
  let i := frameEnd h
  let old := h.time.epoch
  let h := nextEpoch { h with
    time.jump := some d, time.firstAfterStep := true, time.predicted := if hardware then none else h.time.predicted }
  let h := if hardware then
      { jChange 0x3007 (deltaBytes d ++ leNat 2 old ++ leNat 2 h.time.epoch) { h with time.tickInst := i + d } with time := h.time }
    else h
  timeNotice 0 (streamTick h + 1) before (stampOf h (i + d)) h

/-- A notice of the coming tick whose BEFORE and AFTER agree, on the timebase a booked step leaves. -/
def noticeNext (kind : Nat) (h : Hub) : Hub :=
  let st := stampOf h (frameEnd h + h.time.jump.getD 0)
  timeNotice kind (streamTick h + 1) st st h

/-- The servo leaves HOLDOVER or FREE_RUN. -/
def leaveHoldover (servo : Servo) (h : Hub) : Hub :=
  { clearOcc 0x67 0 h.time.tickInst h with
    time.servo := servo, time.okRun := 0, time.outliers := 0, time.badEdges := 0, time.missed := 0, time.qual := []
    time.lastMeas := h.time.op4k, time.lastAccept := h.time.op4k, time.firstAfterStep := false, time.rampDue := false
    time.exitStep := none, time.exitSlew := none }

/-- Books what the coming tick does to the timebase: the exits of R248 with a pending command step, or that step alone. -/
def bookStep (h : Hub) : Hub :=
  let h := discardDue h
  let before := stampOf h (frameEnd h)
  let due := match h.time.step with
    | some (t, d) => if t = h.time.tick + 1 then some d else none
    | none => none
  match exitStepDue h with
  | some d =>
    let joint := d + due.getD 0
    let h := if due.isSome then { h with time.step := none, time.secondsSet := true } else h
    noticeNext 2 (bookJump joint true before (leaveHoldover .acquire h))
  | none =>
    let exit := exitSlewDue h
    let h := match exit with
      | some theta =>
        { leaveHoldover (if theta = 0 then .track else .slew) h with time.ramp := 4000 * theta, time.predicted := some theta }
      | none => h
    let h := match due with
      | some d => bookJump d false before { h with time.step := none, time.secondsSet := true }
      | none => h
    if exit.isSome then noticeNext 2 h else h

/-- TIME_STEP_APPLY (R253): a step due at the coming tick is booked for it. -/
def execTimeStepApply (s : State) : Out := hubNext s (if isUp s.hub then bookStep s.hub else s.hub)

/-- A lost source: HOLDOVER from the coming tick, with y held at its mean (R245, R247). -/
def bookHoldover (h : Hub) : Hub :=
  if h.time.lost then
    noticeNext 1 (freqFault { h with
      time.lost := false, time.servo := .holdover, time.rampDue := false, time.freq := holdMean h.time.yHist, time.hopsHeld := hops h })
  else h

/-- A source that cannot measure: no lane of it is UP, or PTP has no master selected (R234). -/
def sourceDown (src : Nat) (h : Hub) : Bool :=
  if laneSource src then (sourceLanes src).all fun l => (laneAt h l).state != .up
  else src == 4 && h.eth.ptp.master.isNone

/-- A source that is lost at once: every lane of it reports LOS or LOL, or PTP has no master selected (R246). -/
def sourceDead (src : Nat) (h : Hub) : Bool :=
  sourceDown src h && (!laneSource src || (sourceLanes src).all fun l => (laneAt h l).silent)

/-- announceReceiptTimeout Announce intervals have passed, in 1/4,000 s. -/
def announceLate (age : Nat) (h : Hub) : Bool :=
  decide (fieldAt h.cfg.uplink 28 1 * 2 ^ fieldAt h.cfg.uplink 26 1 * 4000 ≤ age)

/-- Time from the interval of the latest valid measurement to the present one, in 1/4,000 s, at whatever tick rates. -/
def sinceMeas (h : Hub) : Nat := h.time.op4k - h.time.lastMeas

/-- What a tick finds missing: a lane source without a valid measurement for 4 ticks, PTP without an accepted Sync for
announceReceiptTimeout Announce intervals, PPS without an edge for 2 s (R246). -/
def sourceLate (h : Hub) : Bool :=
  if laneSource h.time.source then decide (4 ≤ h.time.missed)
  else if h.time.source = 4 then announceLate (h.time.op4k + 4000 / tickHz h.time.tCode - h.time.lastAccept) h
  else decide (8000 ≤ sinceMeas h)

/-- A measurement of the source is missing: that of the interval, or of an update interval and a half (R248). -/
def measureMissing (h : Hub) : Bool :=
  if laneSource h.time.source then decide (1 ≤ h.time.missed)
  else decide (3 * updateLen h ≤ 2 * sinceMeas h)

/-- Losses that a tick finds; a missing measurement ends a run of those that qualify a source. -/
def findLoss (h : Hub) : Hub :=
  let missed := if h.time.measuredThisTick then 0 else h.time.missed + 1
  let h := { h with time.missed := missed, time.measuredThisTick := false }
  let h := if measureMissing h then { h with time.qual := [] } else h
  if realSource h.time.source && follows h && (sourceDead h.time.source h || sourceLate h) then loseSource h else h

/-- A new source starts with a clean record; one that cannot measure counts as lost from the start (R234). DESIGN CHOICE (log 28): until its
first measurement a lane source's upstream counts as a hub of HOPS 0 without HOLDOVER. -/
def newSource (new : Nat) (h : Hub) : Hub :=
  let h := clearOcc 0x67 0 h.time.tickInst { h with
    time.source := new, power.ref10 := new == 6 || new == 7, time.qual := [], time.exitStep := none, time.exitSlew := none
    time.missed := 0, time.lastMeas := h.time.op4k, time.lastAccept := h.time.op4k, time.badEdges := 0, time.outliers := 0
    time.upEpoch := none, time.upTrace := false, time.upHold := false, time.upHops := 0
    time.predicted := none }
  if !follows h && sourceDown new h then raiseHeld 0x67 0 h.time.tickInst h.time.tickInst 0 h else h

/-- CFG_TIME takes effect at the coming tick (R245, R250). -/
def applyTime (block : BitVec 64) (h : Hub) : Hub :=
  let new := tbSource block
  if new = h.time.source then h
  else
    let h := newSource new h
    noticeNext 3 (
      if !realSource new then freqFault { h with time.servo := .freeRun, time.freq := 0, time.rampDue := false, time.lost := false }
      else if follows h && !h.time.lost then
        let h := { h with time.servo := .slew, time.ramp := 0, time.rampDue := true }
        if sourceDown new h then loseSource h else h
      else h)

/-- The UTC offset that the source gives: the upstream's latest, or that of the selected PTP master (R234). -/
def sourceUtc (h : Hub) : Option Int :=
  if h.time.source = 4 then
    match h.eth.ptp.master with
    | some a => if a.utcValid then some a.utcOffset.toInt else none
    | none => none
  else h.time.utcNew

/-- The UTC offset in force from the coming tick, with its notice where it changes (R234). -/
def bookUtc (h : Hub) : Hub :=
  let b := h.cfg.timeBlock.toNat
  let given := sourceUtc h
  let v := if bitOf b 40 then sext 16 (bitsOf b 39 24) else given.getD h.time.utc
  let h := { h with time.utcNew := none, time.utcKnown := h.time.utcKnown || bitOf b 40 || given.isSome }
  if v = h.time.utc then h else noticeNext 4 { h with time.utc := v }

end Sys2Proof.Machine
end

