-- ==== Sys2Proof/Machine/Uplink.lean ====
section
/-! DEFINITION. Lane U in Ethernet: record datagrams, mailbox datagrams, ARP and PTP; mailbox messages on their way between
links (11 R284, R287 to R291, 10 R240). -/

namespace Sys2Proof.Machine

/-! ## Address resolution (11 R287) -/

/-- Asks for the address; in bring-up the lane sends no frame (13 R317). -/
def askHop (h : Hub) : Hub :=
  if isUp h && ethUp h && upAddr h != 0 && !hopResolved h then
    sendOut (.arp false (BitVec.ofNat 32 (nextHop h)) 0 (Config.mac 0)) h
  else h

/-- ARP_REQUEST (R287): a running hub answers for its address with its MAC. -/
def execArpRequest (targetIp senderIp : Word) (senderMac : BitVec 48) (s : State) : Out :=
  let h := s.hub
  hubNext s (if isUp h && ethUp h && upAddr h != 0 && targetIp.toNat == upAddr h then sendOut (.arp true senderIp senderMac (Config.mac 0)) h else h)

/-! ## Record datagrams (11 R289, 09 R218) -/

/-- Words of the packet at the front of a FIFO that one datagram takes: 480, or fewer up to its END. -/
def datagramWords (f : Fifo) : Option (List Word) :=
  let ws := f.words.take 480
  let n := (ws.takeWhile (!wEnd ·)).length
  if n < ws.length then some (ws.take (n + 1)) else if ws.length = 480 then some ws else none

/-- Sends one datagram of the Ethernet FIFO. A packet that ends before the record's LENGTH is left incomplete. -/
def drainOne (ws : List Word) (h : Hub) : Hub :=
  let bs := ws.flatMap fun w => leNat 3 (w.toNat / 256)
  let cur := h.outlets.ethCur.getD (fieldAt bs 8 8, fieldAt bs 0 4 / 1024, 0)
  let ended := wEnd (ws.getLastD 0)
  let left := cur.2.1 - cur.2.2
  let h := { h with
    outlets.eth := fifoTake ws h.outlets.eth
    outlets.ethCur := if ended then none else some (cur.1, cur.2.1, cur.2.2 + bs.length) }
  if ended && decide (bs.length < left) then h
  else
    let port := if custodyOutlet h = 1 then upSinkPort h else upCopyPort h
    recordDatagram h.flash.hubId.toNat cur.2.2 cur.1 port (bs.take left) h

/-- Sends what the Ethernet FIFO holds in whole datagrams. -/
def drainFuel : Nat → Hub → Hub
  | 0, h => h
  | n + 1, h =>
    match datagramWords h.outlets.eth with
    | some ws => drainFuel n (drainOne ws h)
    | none => h

/-- The Ethernet FIFO and the cells to be forwarded drain while datagrams may leave; else the next hop is asked for. -/
def drainEth (h : Hub) : Hub :=
  if ethReady h then drainPass (drainFuel (fifoCapacity + h.outlets.eth.rest.length) h) else askHop h

/-- OUTLET_SEND (09 R224): the Ethernet FIFO drains, and the reserve reader writes to the outlet's FIFO as room returns. -/
def outletSend (outlet : Nat) (s : State) : State :=
  let s := if outlet = 1 then { s with hub := drainEth s.hub } else s
  if custodyOutlet s.hub == outlet then feedCustody s else s

/-- OUTLET_SEND (09 R224). -/
def execOutletSend (outlet : Nat) (s : State) : Out := .next (outletSend outlet s)

/-- ARP_REPLY (R287): the address is recorded, and what waited for it leaves. -/
def execArpReply (ip : Word) (mac : BitVec 48) (s : State) : Out :=
  let h := s.hub
  if ethUp h && ip.toNat == nextHop h then
    hubNext s (drainEth { h with eth.arp := (ip, mac) :: h.eth.arp.filter (·.1 != ip) })
  else .next s

/-- The page a link in 1000BASE-X has been negotiated with, where AUTONEG asks for it: full duplex, no pause, acknowledged (R287, log 25). -/
def negotiated (h : Hub) : Hub :=
  if lMode (laneDesc h 5) = 2 && bitOf (fieldAt h.cfg.uplink 31 1) 0 then sendOut (.autoneg 0x4020) h else h

/-- ETH_LINK_UP (R287): not while a test loop keeps the lane out of traffic (R269). -/
def execEthLinkUp (s : State) : Out :=
  let h := s.hub
  hubNext s (if ethMode h && lanesPowered h && lLoop (laneDesc h 5) = 0 && (laneAt h 5).state == .ethDown then
    askHop (negotiated (updLane 5 (fun x => { x with state := .ethUp }) h)) else h)

/-- ETH_LINK_DOWN (R287): records on their way into datagrams are cut off. -/
def execEthLinkDown (s : State) : Out :=
  let h := s.hub
  hubNext s (if (laneAt h 5).state == .ethUp then
    updLane 5 (fun x => { x with state := .ethDown }) { h with eth.fwd := [] } else h)

/-! ## Mailbox messages between links (11 R284, R290) -/

/-- Links that carry MAILBOX cells onwards: the bonds, and lane U in KSP. -/
def mailLinks (h : Hub) : List Nat := [0, 1, 3].filter fun k => (linkAt h k).up

/-- Forwards a message on every such link but the one it came by. -/
def forwardMail (from_ : Nat) (dest : BitVec 32) (hops mb : Nat) (msg : Bytes) (h : Hub) : Hub :=
  ((mailLinks h).filter (· != from_)).foldl (fun h k => queueCells k (unitCells 1 mb hops dest msg) h) h

/-- A mailbox message that arrived whole on a link by a lane: delivered for this HUB_ID, forwarded with one hop more, or
dropped at 31 hops. Lane P carries MB6. -/
def mailArrives (k lane : Nat) (dest : BitVec 32) (hops mb : Nat) (msg : Bytes) (env : Env) (s : State) : State :=
  if k = 2 then (if mb = 6 then arrive 6 lane msg env s else s)
  else if mb < 2 ∨ 5 < mb then s
  else if dest == s.hub.flash.hubId then arrive mb lane msg env s
  else if 31 ≤ hops then s
  else { s with hub := forwardMail k dest (hops + 1) mb msg s.hub }

/-- MAILBOX_CELL_MESSAGE (R284). -/
def execMailboxCellMessage (link : Nat) (dest : Word) (hops mb : Nat) (msg : Bytes) (env : Env) (s : State) : Out :=
  .next (if isUp s.hub && (linkAt s.hub link).up then
    mailArrives link ((linkLanes link).headD 0) dest hops mb msg env s else s)

/-- A datagram's header is well formed. -/
def datagramOk (d : Bytes) : Bool :=
  decide (16 ≤ d.length ∧ d.length ≤ 1456 ∧ 2 ≤ fieldAt d 4 1 ∧ fieldAt d 4 1 ≤ 5 ∧ fieldAt d 5 1 < 4) &&
    fieldAt d 14 2 == 0 && decide (fieldAt d 12 2 + (d.length - 16) ≤ fieldAt d 6 2)

/-- Bytes of a message that its datagrams cover, from an offset on, taken in order of offset. -/
def coverFrom : Nat → List (Nat × Bytes) → Bytes
  | _, [] => []
  | at_, (o, b) :: r =>
    if at_ < o then []
    else
      let new := b.drop (at_ - o)
      new ++ coverFrom (at_ + new.length) r

/-- Adds a datagram to its message; the message whole once it is complete. -/
def reassemble (d : Bytes) (h : Hub) : Hub × Option Reasm :=
  let dest := BitVec.ofNat 32 (fieldAt d 0 4)
  let id := BitVec.ofNat 32 (fieldAt d 8 4)
  let mb := fieldAt d 4 1
  let same (r : Reasm) : Bool := r.dest == dest && r.msgId == id && r.mb == mb && r.total == fieldAt d 6 2
  let old := (h.eth.reasm.find? same).getD { dest := dest, mb := mb, msgId := id, total := fieldAt d 6 2, data := [] }
  let new := { old with data := insertBy (·.1) (fieldAt d 12 2, d.drop 16) old.data }
  let others := h.eth.reasm.filter (!same ·)
  if old.total ≤ (coverFrom 0 new.data).length then ({ h with eth.reasm := others }, some new)
  else ({ h with eth.reasm := others ++ [new] }, none)

/-- A mailbox datagram: delivered or forwarded onto the bonds once its message is complete. -/
def mailDatagram (d : Bytes) (env : Env) (s : State) : State :=
  let r := reassemble d s.hub
  let s := { s with hub := r.1 }
  match r.2 with
  | none => s
  | some m =>
    let msg := coverFrom 0 m.data
    if m.dest == s.hub.flash.hubId then arrive m.mb 7 msg env s
    else { s with hub := forwardMail 3 m.dest 0 m.mb msg s.hub }

/-- UDP_MAILBOX_DATAGRAM (R290). -/
def execUdpMailboxDatagram (data : Bytes) (env : Env) (s : State) : Out :=
  .next (if isUp s.hub && ethUp s.hub && upAddr s.hub != 0 && datagramOk data then mailDatagram data env s else s)

/-- UDP_MAILBOX_TIMEOUT (R290): a message not complete 10 ms after its first datagram is discarded. -/
def execUdpMailboxTimeout (dest msgId : Word) (s : State) : Out :=
  hubNext s { s.hub with eth.reasm := s.hub.eth.reasm.filter fun r => !(r.dest == dest && r.msgId == msgId) }

/-! ## PTP (11 R291, 10 R240) -/

/-- PTP_ROLE. -/
def ptpRole (h : Hub) : Nat := fieldAt h.cfg.uplink 7 1

/-- The port is a master. -/
def ptpMaster (h : Hub) : Bool := ptpRole h == 1 || (ptpRole h == 2 && h.eth.ptp.portMaster)

/-- The clock identity: the MAC address as an EUI-64 (log 25). -/
def clockId : Nat :=
  let m := (Config.mac 0).toNat
  m / 2 ^ 24 * 2 ^ 40 + 0xFFFE * 2 ^ 24 + m % 2 ^ 24

/-- clockClass. -/
def clockClass (h : Hub) : Nat :=
  if h.time.servo == .track && traceable h then 6
  else if h.time.servo == .holdover && h.eth.ptp.wasTraceable then 7 else 248

/-- clockAccuracy. -/
def clockAccuracy (h : Hub) : Nat := if h.time.servo == .track then 0x21 else 0xFE

/-- timeSource. -/
def ptpTimeSource (h : Hub) : Nat :=
  if ppsSource h.time.source then 0x90 else if laneSource h.time.source ∨ h.time.source = 4 then 0x40 else 0xA0

/-- What the default BMCA compares, in order. -/
def announceKey (a : Announce) : List Nat :=
  [a.priority1.toNat, a.clockClass.toNat, a.clockAccuracy.toNat, a.variance.toNat, a.priority2.toNat, a.grandmaster.toNat,
    a.steps.toNat, a.port.toNat]

/-- The same of the hub's own clock. -/
def ownKey (h : Hub) : List Nat :=
  [fieldAt h.cfg.uplink 29 1, clockClass h, clockAccuracy h, (Config.clockVariance 0).toNat, fieldAt h.cfg.uplink 30 1, clockId,
    0, clockId]

/-- Lexicographic order. -/
def lexLt : List Nat → List Nat → Bool
  | a :: as, b :: bs => decide (a < b) || (a == b && lexLt as bs)
  | _, _ => false

/-- An Announce: the better of two masters is selected; under BMCA the port is the master where its own clock is better. -/
def announceReceipt (a : Announce) (h : Hub) : Hub :=
  if !ethUp h || ptpRole h == 1 || a.domain.toNat != fieldAt h.cfg.uplink 6 1 then h
  else
    let best := match h.eth.ptp.master with
      | none => a
      | some m => if m.port == a.port || lexLt (announceKey a) (announceKey m) then a else m
    let own := ptpRole h == 2 && lexLt (ownKey h) (announceKey best)
    { h with eth.ptp.master := if own then none else some best, eth.ptp.portMaster := own
             eth.ptp.announceAt := if best.port == a.port then h.time.op4k else h.eth.ptp.announceAt }

/-- PTP_ANNOUNCE (R291). -/
def execPtpAnnounce (data : Announce) (s : State) : Out := hubNext s (announceReceipt data s.hub)

/-- ANNOUNCE_RECEIPT_TIMEOUT (10 R246): no Sync was accepted within announceReceiptTimeout Announce intervals. -/
def execAnnounceReceiptTimeout (s : State) : Out := hubNext s (if s.hub.time.source = 4 then loseSource s.hub else s.hub)

/-- Without an Announce of the selected master for announceReceiptTimeout Announce intervals no master is selected any more; under
BMCA the port becomes the master (R291). -/
def masterTick (h : Hub) : Hub :=
  if h.eth.ptp.master.isSome && announceLate (h.time.op4k - h.eth.ptp.announceAt) h then
    { h with eth.ptp.master := none, eth.ptp.portMaster := ptpRole h == 2 }
  else h

/-- θ of a Sync (R240), each correctionField taken from the interval it corrects. -/
def syncTheta (h : Hub) (origin arrive correction : Int) (d : Inst × Inst × Int) : Int :=
  roundEven ((resolve arrive - origin - correction) - (d.2.1 - d.1 - d.2.2)) 2 - 128 * asymOf h 5

/-- A Sync of the selected master, once a delay exchange has completed. -/
def syncReceipt (origin arrive correction : Int) (master : BitVec 64) (h : Hub) : Hub :=
  if !ethUp h || h.time.source != 4 || (h.eth.ptp.master.map (·.port)) != some master then h
  else
    match h.eth.ptp.delay with
    | none => { h with time.qual := [] }
    | some d => (sourceMeasured (syncTheta h origin arrive correction d) h).1

/-- PTP_SYNC (10 R240). -/
def execPtpSync (origin arrive : Inst) (correction : Int) (master : BitVec 64) (s : State) : Out :=
  hubNext s (if isUp s.hub then syncReceipt origin arrive correction master s.hub else s.hub)

/-- PTP_DELAY_RESP (10 R240): the exchange a Delay_Req opened is complete. -/
def execPtpDelayResp (depart arrive : Inst) (correction : Int) (s : State) : Out :=
  let h := s.hub
  hubNext s (if ethUp h && h.eth.ptp.reqSent.isSome then
    { h with eth.ptp.delay := some (resolve depart, arrive, correction), eth.ptp.reqSent := none } else h)

/-- A 10-byte PTP timestamp, most significant byte first. -/
def ptpStamp (i : Inst) : Bytes :=
  (leNat 6 (i / secUnits).toNat).reverse ++ (leNat 4 ((i % secUnits) / 65536).toNat).reverse

/-- An Announce as sent: currentUtcOffsetValid, ptpTimescale and timeTraceable, then the message's fields. -/
def announceBytes (h : Hub) : Bytes :=
  let be (n v : Nat) : Bytes := (leNat n v).reverse
  [BitVec.ofNat 8 (4 * b2n h.time.utcKnown + 8 + 16 * b2n (traceable h))] ++ zeros 10 ++ be 2 (twos 16 h.time.utc) ++ zeros 1 ++
    be 1 (fieldAt h.cfg.uplink 29 1) ++ be 1 (clockClass h) ++ be 1 (clockAccuracy h) ++ be 2 (Config.clockVariance 0).toNat ++
    be 1 (fieldAt h.cfg.uplink 30 1) ++ be 8 clockId ++ be 2 (hops h) ++ be 1 (ptpTimeSource h)

/-- PTP may send: over L2 as soon as the link is up, over UDP once the hub has an address (R288, R291). -/
def ptpSends (h : Hub) : Bool := isUp h && ethUp h && (fieldAt h.cfg.uplink 24 1 == 0 || upAddr h != 0)

/-- sourcePortIdentity: the clock identity with port number 1. -/
def ptpPort : Nat := clockId * 65536 + 1

/-- A PTP message as the uplink block has it carried; a Sync has twoStepFlag set, its Follow_Up carries the origin (R291). -/
def ptpMsg (h : Hub) (kind seq : Nat) (b : Bytes) : OutMsg :=
  .ptp (fieldAt h.cfg.uplink 24 1) (fieldAt h.cfg.uplink 6 1) kind (if kind = 0 then 2 else 0) ptpPort seq b

/-- What the PTP port sends at an interval. -/
def ptpSend (kind : PtpSend) (at_ : Inst) (h : Hub) : Hub :=
  if !ptpSends h then h
  else
    let p := h.eth.ptp
    match kind with
    | .sync =>
      if ptpMaster h then
        sendOut (ptpMsg h 8 p.syncSeq (ptpStamp (resolve at_))) (sendOut (ptpMsg h 0 p.syncSeq [])
          { h with eth.ptp.syncSeq := (p.syncSeq + 1) % 65536 })
      else h
    | .announce =>
      if ptpMaster h then
        sendOut (ptpMsg h 11 p.announceSeq (announceBytes h)) { h with eth.ptp.announceSeq := (p.announceSeq + 1) % 65536 }
      else h
    | .delayReq =>
      if !ptpMaster h && p.master.isSome then
        sendOut (ptpMsg h 1 p.delaySeq [])
          { h with eth.ptp.delaySeq := (p.delaySeq + 1) % 65536, eth.ptp.reqSent := some at_ }
      else h

/-- PTP_MESSAGE_SEND (R291). -/
def execPtpMessageSend (kind : PtpSend) (at_ : Inst) (s : State) : Out := hubNext s (ptpSend kind at_ s.hub)

/-- PTP_DELAY_REQ (R291): a master answers with Delay_Resp. -/
def execPtpDelayReq (arrive : Inst) (seqId : BitVec 16) (port : BitVec 80) (s : State) : Out :=
  let h := s.hub
  hubNext s (if ptpSends h && ptpMaster h then
    sendOut (ptpMsg h 9 seqId.toNat (ptpStamp (resolve arrive) ++ (leNat 10 port.toNat).reverse)) h else h)

/-- A tick of the PTP port: its master, and whether the servo tracked a traceable source before its HOLDOVER. -/
def ptpTick (h : Hub) : Hub :=
  let h := masterTick h
  { h with eth.ptp.wasTraceable :=
      (h.time.servo == .track && traceable h) || (h.time.servo == .holdover && h.eth.ptp.wasTraceable) }

end Sys2Proof.Machine
end

