-- ==== Sys2Proof/Machine/Reactions.lean ====
section
/-! DEFINITION. The fault collector: handling, declarations, reactions, the eclipse state, the collector's own reset; the
journal's timed work (15 R371 to R394). -/

namespace Sys2Proof.Machine

/-! ## Loop outputs at their fault current (03 R72) -/

/-- 3.5 mA and 21.5 mA in steps of 24 mA / 65,536. -/
def loopFaultStep (high : Bool) : Nat := if high then 58709 else 9557

/-- An output drives its fault current; a disabled one stays so. -/
def loopToFault (k : Nat) (h : Hub) : Hub :=
  let e := h.cfg.loop.getD k []
  { h with loops := updAt h.loops k fun l =>
      { l with setpoint := loopFaultStep (loHigh e), state := if loEnable e then 1 else 3 } }

/-- Every output drives its fault current. -/
def loopsToFault (h : Hub) : Hub := (List.range 8).foldl (fun h k => loopToFault k h) h

/-! ## Retirement and remap (R376 to R378, 03 R61) -/

/-- An EXC_* fault turns the port off and retires every channel of the group that is not IDLE, with one record. -/
def retireGroup (g source : Nat) (h : Hub) : Hub :=
  let cs := (rangeFrom (8 * g) 8).filter fun c => !dIdle (chDesc h c) && !retiring h c
  let mask := sumNat (cs.map fun c => 2 ^ (c % 8))
  let h := updGroup g (fun x => { x with portOn := false, onPhase := false, offDue := true }) h
  jChange 0x3009 (retiredDetail g source 2 mask) (cs.foldl (fun h c => retire c h) h)

/-- A remap's overlap whose spare has become unusable ends at the coming tick with the pair on its own front end. -/
def cancelHandover (c : Nat) (h : Hub) : Hub :=
  if (chanAt h c).handover.isSome then
    pairAtTick c .bound (ownFe c) (updChan c (fun x => { x with handover := none, remapped := false }) h)
  else h

/-- A front end is permanently faulty: a spare leaves its group without one. The channel it serves by a remap is retired, and one
whose pair it holds in a turn gets its own front end back (03 R52, 05 R108, R377). -/
def spareFaulty (g source : Nat) (h : Hub) : Hub :=
  let h := updGroup g (fun x => { x with spareLost := true }) h
  let h := match (tileAt h (g / 16)).turn with
    | some u => if u.ch == 512 + g || (decide (u.ch / 8 = g) && (u.step != .aloneRun || feSlot u.fe == 8)) then
        (if u.step == .aloneRun then abandonTurn u.ch h.time.tickInst h else giveBack (g / 16) u (frameEnd h) h) else h
    | none => h
  let h := (rangeFrom (8 * g) 8).foldl (fun h c => cancelHandover c h) h
  match remappedIn h g with
  | some c => retireChannel c source true h
  | none => h

/-- REMAP: resolved at the coming tick with what else is declared by then (R377, R378). -/
def remapReaction (fe source : Nat) (h : Hub) : Hub :=
  let h := updFe fe (fun f => { f with permFault := true }) h
  if feSlot fe = 8 then spareFaulty (feGroup fe) source h
  else if h.faults.remaps.any (·.1 == fe) then h
  else { h with faults.remaps := h.faults.remaps ++ [(fe, source)] }

/-- RETIRE_CHANNEL of a source's instance. -/
def retireReaction (source inst : Nat) (h : Hub) : Hub :=
  match ((sourceOf source).map (·.inst)).getD .none with
  | .group => retireGroup inst source h
  | .fe =>
    let h := updFe inst (fun f => { f with permFault := true }) h
    if feSlot inst = 8 then spareFaulty (feGroup inst) source h
    else match servedBy h inst with
      | some c => retireChannel c source false h
      | none => h
  | _ => retireChannel inst source false h

/-! ## Pages (16 R403) -/

/-- RETIRE_PAGE: the move to a page of the pool begins, or the pool is empty and the page stays in service. The pool's pages
are the last of DRAM, in the order of 01 R17 (log 13). -/
def retirePage (page : Nat) (h : Hub) : Hub :=
  if h.mem.retired.any (·.1 == page) || h.mem.moving.any (·.1 == page) then h
  else if h.mem.sparePages = 0 then raiseNow 0xD4 0 0 (BitVec.ofNat 64 page) h
  else
    let new := 131072 - h.mem.sparePages
    jChange 0x300C (leNat 4 page ++ leNat 4 new)
      { h with mem.sparePages := h.mem.sparePages - 1, mem.moving := h.mem.moving ++ [(page, new)] }

/-- The windows onto objects in DRAM show a page at its new place. -/
def repoint (moves : List (Nat × Nat)) (w : Window) : Window :=
  if objectInDram w.object then
    { w with table := w.table.map fun p => ((moves.find? (·.1 == p)).map (·.2)).getD p }
  else w

/-- PAGE_MOVE_DONE (16 R403): the mappings and every window table entry of the page name the new one. -/
def execPageMoveDone (page : Nat) (s : State) : Out :=
  let h := s.hub
  let done := h.mem.moving.filter (·.1 == page)
  hubNext s { h with
    mem.moving := h.mem.moving.filter (·.1 != page)
    mem.retired := h.mem.retired ++ done
    windows := h.windows.map (repoint done) }

/-! ## The eclipse state (R379 to R382) -/

/-- DETAIL of ECLIPSE_ENTER and ECLIPSE_EXIT (R449). -/
def eclipseDetail (tick : Nat) (causes : List (Nat × Nat × Option Nat)) : Bytes :=
  let srcs : List Nat := (sortBy id (causes.map Prod.fst) ++ List.replicate 4 0xFFFF).take 4
  leNat 6 tick ++ leNat 1 (min 255 causes.length) ++ zeros 1 ++ srcs.flatMap (leNat 2)

/-- Every tile's turn ends, a run in progress abandoned. -/
def abandonTurns (h : Hub) : Hub :=
  (List.range 4).foldl (fun h t => match (tileAt h t).turn with
    | some u => if u.ch < 512 then abandonTurn u.ch h.time.tickInst h else abandonSpare t u h
    | none => h) h

/-- Excitation, sources and pairs off, loop outputs at their fault current. DESIGN CHOICE (log 28): the spec does not say what becomes of
a CFG_REMAP whose overlap frame this, a release or a retirement cuts short: the handover is dropped, and the remap stands as it stood. -/
def shutDown (h : Hub) : Hub :=
  let h := abandonTurns h
  let h := { h with
    chans := h.chans.map fun c => { c with
      pair := .isolated, fe := none, sourceOn := false, pairDue := none, handover := none, remapDue := false, folded := false
      overFrom := none }
    groups := h.groups.map fun g => { g with portOn := false, onPhase := false, holding := false, folded := false
                                             spareOn := none } }
  loopsToFault h

/-- The actions of R379: the open frame's slots are occulted on the hub that measures, running captures close with CUT. -/
def eclipseActions (h : Hub) : Hub :=
  let occult := isActive h
  let h := shutDown h
  let h := (List.range 8).foldl (fun h d => cutDef d h.time.tick h) h
  { h with frames := h.frames.map fun f => if occult && f.n == h.time.tick then { f with occulted := true } else f }

/-- These causes leave the firmware unable to carry the eclipse state: CORE_WATCHDOG, PLL_UNLOCK of CORE, FAB or MEM, SRAM_UE
in firmware working memory or control (R382). -/
def byHardware (source inst : Nat) : Bool :=
  (0x120 ≤ source && source ≤ 0x123) || source == 0x61 || source == 0x62 || source == 0x64 ||
    (source == 0xD1 && (inst == 2 || inst == 5))

/-- FAB still works: the collector can write the journal (R382). -/
def fabWorks (h : Hub) : Bool := !asserted h 0x62 0 && !journalBlocked h

/-- The records of a source instance are written: by the firmware, or by the collector's hardware where flash and FAB still work
(R382). -/
def recorded (source inst : Nat) (h : Hub) : Bool := !(byHardware source inst || h.faults.hardware.isSome) || fabWorks h

/-- ECLIPSE: entered once; further causes join those to be cleared. -/
def enterEclipse (source inst cls : Nat) (ended : Option Inst) (at_ : Inst) (h : Hub) : Hub :=
  let cause := (source, inst, ended.map (opAt h))
  let h := if byHardware source inst && h.faults.hardware.isNone then { h with faults.hardware := some h.time.op4k } else h
  match h.faults.eclipse with
  | some e =>
    { h with faults.eclipse := some { e with
        causes := e.causes.filter (fun c => !(c.1 == source && c.2.1 == inst)) ++ [cause]
        fatal := e.fatal || cls == 2, exitDue := false } }
  | none =>
    let h := eclipseActions h
    let h := { h with faults.eclipse := some { tick := h.time.tick, inst := at_, causes := [cause], fatal := cls == 2 } }
    if recorded source inst h then jChange 0x300D (eclipseDetail (toStream h h.time.tick) [cause]) h else h

/-- A cause that holds again has not stayed clear. -/
def causeAgain (source inst : Nat) (ended : Option Inst) (h : Hub) : Hub :=
  { h with faults.eclipse := h.faults.eclipse.map fun e => { e with
      causes := e.causes.map fun c =>
        if c.1 == source && c.2.1 == inst then (source, inst, ended.map (opAt h)) else c } }

/-- Operating time of the coming tick. -/
def nextOp (h : Hub) : Nat := h.time.op4k + 4000 / tickHz h.time.tCode

/-- Every cause has stayed clear for 10 s by the coming tick, and none is FATAL (R381). -/
def exitReady (h : Hub) : Bool :=
  match h.faults.eclipse with
  | none => false
  | some e => !e.fatal && h.faults.hardware.isNone &&
      e.causes.all fun c => match c.2.2 with | some t => decide (t + 40000 ≤ nextOp h) | none => false

/-- Books the exit for the coming tick, with its record. -/
def bookExit (h : Hub) : Hub :=
  match h.faults.eclipse with
  | none => h
  | some e =>
    if e.exitDue || !exitReady h then h
    else jChange 0x300E (eclipseDetail (toStream h (h.time.tick + 1)) e.causes)
      { h with faults.eclipse := some { e with exitDue := true } }

/-- ECLIPSE_EXIT (R381): the hub leaves the state at the coming tick. -/
def execEclipseExit (s : State) : Out := hubNext s (bookExit s.hub)

/-- The OCCULTATION of the frames since the previous one (09 R209); a paired hub emits it while it holds the active role. -/
def eclipseOcc (h : Hub) : Hub :=
  match h.stream.eclSpan with
  | none => h
  | some e =>
    if !isActive h then h
    else
      emit { ty := 5, order := 2, occSlots := e.slots
             payload := occPayload 3 2 0 0 0 (toStream h e.firstTick) e.ticks e.slots }
        { h with stream.eclSpan := none }

/-- ECLIPSE_OCCULTATION (09 R209): due at a tick whose number is a multiple of LEDGER_PERIOD, for the coming tick. -/
def execEclipseOccultation (s : State) : Out :=
  let h := s.hub
  hubNext s (if inEclipse h && toStream h (h.time.tick + 1) % max 1 (ledgerPeriod h) = 0 then eclipseOcc h else h)

/-- 2 s have passed since the collector's hardware took over, in the present interval at the latest. -/
def collectorDue (h : Hub) : Bool := match h.faults.hardware with | some t => decide (t + 8000 ≤ nextOp h) | none => false

/-- COLLECTOR_FORCED_RESET (R382): 2 s after the collector took over, a warm reset with its record. -/
def execCollectorForcedReset (s : State) : Out :=
  .next (if collectorDue s.hub then
      let h := if fabWorks s.hub then jChange 0x3013 (forcedDetail 0 0 2 s.hub) (closeRuns s.hub) else s.hub
      restart .clocks true { s with hub := h }
    else s)

/-! ## Handling (R373, R376, R384 to R388) -/

/-- FAILOVER: a paired hub stops its heartbeat until reset; an unpaired one acts as for LOG. -/
def failover (source : Nat) (h : Hub) : Hub :=
  if h.pair.paired then
    jChange 0x300F (leNat 2 source ++ leNat 1 (pairStateCode h.pair.state)) { h with pair.hbStopped := true }
  else h

/-- Takes the reaction of a source instance declared permanent. -/
def react (source inst cls reaction : Nat) (ended : Option Inst) (at_ : Inst) (h : Hub) : Hub :=
  match reaction with
  | 2 => retireReaction source inst h
  | 3 => remapReaction inst source h
  | 4 => afterLanes h (retireLane ((source - 0x90) / 8) source h)
  | 5 => retirePage inst h
  | 6 => failover source h
  | 7 => enterEclipse source inst cls ended at_ h
  | _ => h

/-- Declares a source instance permanent: its record, then the reaction (R373). -/
def declare (source inst cls reaction occurrences : Nat) (ended : Option Inst) (at_ : Inst) (h : Hub) : Hub :=
  let h := { h with faults.perm := (source, inst) :: h.faults.perm }
  react source inst cls reaction ended at_
    (if recorded source inst h then jChange 0x3008 (leNat 2 source ++ leNat 2 inst ++ leNat 1 cls ++ leNat 1 (min 255 occurrences)) h
     else h)

/-- An occurrence counts towards permanence: not CAL_DISAGREE with detail SYSTEM, nor a restored raw-window word (R374, R376). -/
def counts (r : Raise) : Bool := !r.soft && !(isTileSource r.source 7 && r.sub == 3)

/-- Counts an occurrence; whether it is declared permanent now, and how many the window holds. -/
def countOne (source inst : Nat) (h : Hub) : Hub × Bool × Nat :=
  let cfg := cfgOfOcc h source inst
  let ts := countCapture h source inst cfg.windowS
  (setCounts source inst ts h, !declared h source inst && (cfg.cls != 0 || decide (cfg.retries < ts.length)), ts.length)

/-- The verdict of a merged raise, over its occurrence so far (03 R60, R375). -/
def mergedVerdict (source inst : Nat) (h : Hub) : Hub :=
  match h.faults.occ.find? fun o => o.source == source && o.inst == inst with
  | some o => issue (faultVerdicts h source inst o.start (o.endAt.getD (frameEnd h))).1 h
  | none => h

/-- A merged error issues its verdict and counts towards its own source, and its reaction follows (R386); COLLECTOR_SELF has none of
this under SELF_MERGE. -/
def handleMerged (x : Nat × Nat) (h : Hub) : Hub :=
  if x.1 = 0x124 ∧ h.cfg.selfMerge then h else
  let c := countOne x.1 x.2 (mergedVerdict x.1 x.2 h)
  let cfg := cfgOfOcc h x.1 x.2
  let h := { c.1 with faults.occ := c.1.faults.occ.map fun o =>
      if o.source == x.1 && o.inst == x.2 then { o with handled := true } else o }
  if c.2.1 then declare x.1 x.2 cfg.cls cfg.reaction c.2.2 (some h.time.tickInst) h.time.tickInst h else h

/-- Writes a history entry, or the fallback capture set while the queue's region fails (R388). -/
def writeEntry (e : Hist) (h : Hub) : Hub :=
  if h.faults.historyOk then pushHistory e h
  else
    let f := h.faults.fallback
    if !f.valid then
      { h with faults.fallback := { valid := true, master := 0x30, access := 0, source := e.source, address := e.detail.toNat
                                    stamp := e.stamp } }
    else if f.source = e.source ∧ f.address = e.detail.toNat then h
    else { h with faults.fallback := { f with later := min 255 (f.later + 1) } }

/-- RETRY acts on every occurrence: a lane that still stands UP retrains (R376, R389; 11 R268). -/
def retryLane (source : Nat) (h : Hub) : Hub :=
  let l := (source - 0x90) / 8
  if 0x90 ≤ source ∧ source < 0xC0 ∧ source % 8 < 2 ∧ (laneAt h l).state = .up then laneTo .searching l h else h

/-- The urgent conversion, if any, that the collector asks for with an occurrence (05 R117): the spec leaves to it which, so it is a free
value (log 9). -/
def collectorAsks (source inst : Nat) (h : Hub) : Hub :=
  { h with hk.urgent := match Config.collectorConversion source inst with
      | some x => urgentQueue x.1 x.2 true false h.hk.urgent
      | none => h.hk.urgent }

/-- Handles one raise: verdicts, history entry, FAULT record, count, declaration and reaction. -/
def handleRaise (r : Raise) (h : Hub) : Hub :=
  let cfg := if r.soft then ⟨0, 0, 0, 0⟩ else cfgOfOcc h r.source r.inst
  let c := if counts r then countOne r.source r.inst h else (h, false, (countsOf h r.source r.inst).length)
  let occ := max 1 c.2.2
  let v := faultVerdicts h r.source r.inst r.start (r.ended.getD (frameEnd h))
  let h := issue v.1 c.1
  let flags := faultFlags r.forced r.real c.2.1 (!r.merged.isEmpty) (!h.faults.historyOk)
  let taken := if c.2.1 ∨ cfg.reaction = 1 then cfg.reaction else 0
  let h := writeEntry
    { source := r.source, inst := r.inst, cls := cfg.cls, reaction := taken, flags := flags
      merges := min 255 r.merged.length, occurrences := occ, secondary := (r.merged.map (·.1)).take 3
      opSeconds := opSeconds h, stamp := stampOf h r.capture, detail := r.detail } h
  let h := if recorded r.source r.inst h then jLimited
      { kind := 1, code := 0x1000 + r.source, flags := flags
        detail := leNat 2 r.source ++ leNat 2 r.inst ++ leNat 1 r.sub ++ leNat 1 (min 255 occ) ++ leNat 2 (min 65535 v.2) ++
          leNat 8 r.detail.toNat } h
    else h
  let h := { h with faults.occ := h.faults.occ.map fun o =>
      if o.source == r.source && o.inst == r.inst then { o with handled := true } else o }
  let h := causeAgain r.source r.inst r.ended h
  let h := collectorAsks r.source r.inst (if cfg.reaction = 1 then retryLane r.source h else h)
  let h := if c.2.1 then declare r.source r.inst cfg.cls cfg.reaction occ r.ended r.capture h else h
  r.merged.foldl (fun h x => handleMerged x h) h

/-- Handling a raise declares its source instance with a reaction. -/
def willReact (h : Hub) (r : Raise) (reaction : Nat → Bool) : Bool :=
  let cfg := cfgOfOcc h r.source r.inst
  !r.soft && counts r && !declared h r.source r.inst && reaction cfg.reaction &&
    (cfg.cls != 0 || decide (cfg.retries < (countCapture h r.source r.inst cfg.windowS).length))

/-- ECLIPSE is entered before another reaction of the same tick: where a raise that waits will be declared with it (R378). -/
def eclipseFirst (r : Raise) (q : List Raise) (h : Hub) : Hub :=
  if willReact h r (fun k => decide (2 ≤ k ∧ k < 7)) && h.faults.eclipse.isNone then
    match q.find? fun x => willReact h x (· == 7) with
    | some x => enterEclipse x.source x.inst (cfgOfOcc h x.source x.inst).cls x.ended x.capture h
    | none => h
  else h

/-- The collector handles the raise at the front of its queue. -/
def handleNext (h : Hub) : Hub :=
  match h.faults.queue with
  | [] => h
  | r :: q => handleRaise r (eclipseFirst r q { h with faults.queue := q })

/-- FAULT_HANDLE (R385). -/
def execFaultHandle (s : State) : Out := hubNext s (handleNext s.hub)

/-- Handles at most `n` raises. -/
def handleFuel : Nat → Hub → Hub
  | 0, h => h
  | n + 1, h => if h.faults.queue.isEmpty then h else handleFuel n (handleNext h)

/-! ## Persistence (R373) -/

/-- An occurrence has stayed asserted for longer than its source's persistence time. -/
def outlasted (h : Hub) (o : Occ) : Bool :=
  let p := ((sourceOf o.source).map (·.persist)).getD 0
  o.handled && !o.cleared && p != 0 && decide (o.since + p < nextOp h) && !declared h o.source o.inst &&
    (cfgWith o.source o.conf).cls == 0

/-- Declares an occurrence that has outlasted its source's persistence time. -/
def persistExpire (source inst : Nat) (h : Hub) : Hub :=
  match h.faults.occ.find? fun o => o.source == source && o.inst == inst with
  | none => h
  | some o =>
    if outlasted h o then
      let cfg := cfgWith source o.conf
      declare source inst cfg.cls cfg.reaction (max 1 (countsOf h source inst).length) none h.time.tickInst
        (markEntry source inst cfg.reaction h)
    else h

/-- PERSISTENCE_EXPIRE (R373). -/
def execPersistenceExpire (source instance_ : Nat) (s : State) : Out := hubNext s (persistExpire source instance_ s.hub)

/-- The tick's own look at every occurrence. -/
def persistAll (h : Hub) : Hub := h.faults.occ.foldl (fun h o => persistExpire o.source o.inst h) h

/-! ## Memory errors (R371, R376, R388, 16 R404, R405) -/

/-- Rebuilds a spill-reserve record that a DRAM_UE hit: a FRAME whose frame the ring holds as a body of format 0, a CAPTURE_DATA
record while the ring or the buffer holds its slots; any other record is sent as read, its trailer failing (16 R404). -/
def hitRecord (seq : Nat) (h : Hub) : Hub :=
  let ringHas (r : Rec) : Bool :=
    match r.frame with | some n => h.cap.ring.any fun f => f.n == n && f.bad.isEmpty | none => false
  let capHas (r : Rec) : Bool :=
    let n := fieldAt r.payload 20 4
    let mine := (defAt h (fieldAt r.payload 4 1)).caps.find? (·.id == fieldAt r.payload 0 4)
    let segs (c : Capture) : List CapSeg := segsTo n (segsFrom (fieldAt r.payload 16 4) c.segs)
    fieldAt r.payload 6 1 == 0 &&
      (ringSlots (refChan ((mine.map (·.desc)).getD [])) n
          (h.cap.ring.filter fun f => decide (fromStream h (fieldAt r.payload 8 8) ≤ f.n)) (fromStream h (fieldAt r.payload 8 8)) ||
        match mine with
        | some c => sumNat ((segs c).map (·.count)) == n && (segs c).all fun s => segGap h c s == 0
        | none => false)
  { h with stream.reserve := h.stream.reserve.map fun x =>
      if x.record.seq ≠ seq then x
      else if x.record.ty = 1 ∧ ringHas x.record then
        { x with record := { x.record with
            payload := x.record.payload.take 16 ++ bodyBytes 0 1 (encodeBlocks false x.record.blocks) } }
      else if x.record.ty = 4 ∧ capHas x.record then x
      else { x with damaged := true } }
where
  /-- The ring holds so many slots of a channel from a frame on, none of them lost. -/
  ringSlots (c : Nat) : Nat → List Frame → Nat → Bool
    | n, [], _ => n == 0
    | n, f :: fs, t => n == 0 || (f.n == t && f.bad.isEmpty && ringSlots c (n - frameGrid c f) fs (t + 1))

/-- The record keeps its address, or its SEQ where it is damaged: the fault record's DATA. -/
def hitData (e : EccError) (h : Hub) : Nat :=
  match e.hit with
  | .record q => if (hitRecord q h).stream.reserve.any (fun x => x.record.seq == q && x.damaged) then q else e.address
  | _ => e.address

/-- Positions of a capture become a gap of reason ABSENT. -/
def loseSegs : Nat → Nat → List CapSeg → List CapSeg
  | _, _, [] => []
  | pos, n, s :: ss =>
    if n = 0 then s :: ss
    else if s.count ≤ pos then s :: loseSegs (pos - s.count) n ss
    else
      let k := min n (s.count - pos)
      let head : CapSeg := { s with count := pos, copy := s.copy.map fun ws => ws.map (·.take pos) }
      let gone : CapSeg := { s with first := s.first + pos, count := k, copy := none, lost := if s.lost = 0 then 4 else s.lost }
      let tail : CapSeg := { s with first := s.first + pos + k, count := s.count - pos - k
                                    copy := s.copy.map fun ws => ws.map (·.drop (pos + k)) }
      ([head, gone, tail].filter fun x => 0 < x.count) ++ loseSegs 0 (n - k) ss

/-- The slots of a capture's positions that stand in the ring alone: frame, first slot, slots. -/
def ringPart (pos n : Nat) (c : Capture) : List (Nat × Nat × Nat) :=
  ((segsTo n (segsFrom pos c.segs)).filter fun s => s.lost == 0 && s.copy.isNone).map fun s => (s.tick, s.first, s.count)

/-- A burst of the ring is lost: every capture that reads it, now or later, delivers its slots as a gap (16 R404). -/
def loseRing (chs : List Nat) (ls : List (Nat × Nat × Nat)) (h : Hub) : Hub :=
  let lose (f : Frame) : Frame :=
    { f with bad := f.bad ++ (ls.filter (·.1 == f.n)).flatMap fun l => chs.map fun c => (c, l.2.1, l.2.2) }
  let h := { h with cap.ring := h.cap.ring.map lose }
  { h with cap.defs := h.cap.defs.map fun x => { x with caps := x.caps.map fun c => { c with segs := segsLost h c } } }

/-- What a DRAM_UE does to the data of the failed burst (16 R404). -/
def hitEffect (e : EccHit) (h : Hub) : Hub :=
  match e with
  | .other => h
  | .record q => hitRecord q h
  | .capture d id pos n =>
    match (defAt h d).caps.find? (·.id == id) with
    | none => h
    | some c => updCapture d id (fun c => { c with segs := loseSegs pos n c.segs }) (loseRing (cChans c.desc) (ringPart pos n c) h)
  | .maps d ch cell n =>
    { h with cap.maps := h.cap.maps.filter fun x =>
        !(x.1.1 == d && x.1.2.1 == ch && decide (cell ≤ x.1.2.2 ∧ x.1.2.2 < cell + n)) }
  | .job j off =>
    { h with jobs := updAt h.jobs j fun x => x.map fun x => { x with lost := (off / 256 * 256 :: x.lost).eraseDups } }
  | .firmware a => { h with fw.staging := writeByte h.fw.staging a (~~~(readByte h.fw.staging a)) }

/-- A rewrite of the history region has succeeded: the capture enters the queue as an entry with FALLBACK, and the set is
re-armed (R388). -/
def rearmFallback (h : Hub) : Hub :=
  let f := h.faults.fallback
  let h := { h with faults.historyOk := true, faults.fallback := {} }
  if f.valid then
    pushHistory { source := f.source, inst := 5, cls := 2, reaction := 7, flags := faultFlags false true true false true
                  occurrences := 1, opSeconds := opSeconds h, stamp := f.stamp, detail := BitVec.ofNat 64 f.address } h
  else h

/-- ECC_ERROR (R371). An error of the history queue's region counts as one of the control partition; one that is corrected after
a failure shows that the region's rewrite has succeeded. -/
def eccError (e : EccError) (at_ : Inst) (h : Hub) : Hub :=
  let r (source inst : Nat) : Raise :=
    { source := source, inst := inst, start := at_, capture := at_, detail := BitVec.ofNat 64 (hitData e h) }
  match e.mem with
  | .sram =>
    if !e.uncorrectable then raiseFault (r 0xD0 e.unit) true h
    else raiseFault { r 0xD1 e.unit with soft := e.unit == 0 && !e.rawCopyBad } true h
  | .history =>
    if e.uncorrectable then
      raiseFault (r 0xD1 5) true { h with
        faults.historyOk := false
        faults.fallback := if h.faults.fallback.valid then h.faults.fallback
          else { valid := true, master := e.master, access := e.access, source := 0xD1, address := e.address
                 stamp := stampOf h at_ } }
    else raiseFault (r 0xD0 5) true (if h.faults.historyOk then h else rearmFallback h)
  | .dram => if e.uncorrectable then hitEffect e.hit (raiseFault (r 0xD3 e.unit) true h) else raiseFault (r 0xD2 e.unit) true h
  | .flash => raiseFault (r 0xD8 e.unit) true h

/-- The partition or page of an error exists. -/
def eccUnitOk (e : EccError) : Bool :=
  match e.mem with
  | .sram => decide (e.unit < 6)
  | .history => true
  | .dram => decide (e.unit < 131072)
  | .flash => decide (e.unit < 8)

/-- ECC_ERROR (R371). -/
def execEccError (err : EccError) (dt : Nat) (s : State) : Out :=
  hubNext s (if eccUnitOk err then eccError err (instAt s.hub dt) s.hub else s.hub)

/-- PATROL_SCRUB (16 R405): each correction is an occurrence of DRAM_CE for its page. -/
def execPatrolScrub (corrected : List Nat) (s : State) : Out :=
  hubNext s (corrected.foldl (fun h p => if p < 131072 then raiseNow 0xD2 p 0 0 h else h) s.hub)

/-! ## Watchdogs (R383, 16 R414) -/

/-- CORE_WATCHDOG (R383): the heartbeat stops from the moment the watchdog bites (12 R297). -/
def execCoreWatchdog (core dt : Nat) (s : State) : Out :=
  hubNext s (if core < 4 then
      raiseHeld (0x120 + core) 0 (instAt s.hub dt) (instAt s.hub dt) 0 { s.hub with pair.hbStopped := true }
    else s.hub)

/-! ## The journal's timed work (R393, R394) -/

/-- Adds the tokens of the 6-s periods that have passed. -/
def refillTokens (h : Hub) : Hub :=
  let k := opSeconds h / 6
  { h with
    jr.refilled := k
    jr.buckets := (h.jr.buckets.map fun b => (b.1, b.2 + (k - h.jr.refilled))).filter fun b => decide (b.2 < 20) }

/-- RATE_LIMIT_REFILL (R394). -/
def execRateLimitRefill (s : State) : Out := hubNext s (refillTokens s.hub)

/-- Closes a run 60 s after its first suppressed record. -/
def closeIfOld (code : Nat) (h : Hub) : Hub :=
  if h.jr.runs.any fun r => r.code == code && decide (r.first + 60 ≤ opSeconds h) then closeRun code h else h

/-- SUPPRESSED (R394). -/
def execSuppressed (code : BitVec 16) (s : State) : Out := hubNext s (closeIfOld code.toNat s.hub)

/-- Every run that is due closes. -/
def closeOldRuns (h : Hub) : Hub := h.jr.runs.foldl (fun h r => closeIfOld r.code h) h

/-- JOURNAL_RECORD_PROGRAM (R393): the oldest queued record, unless an erase or a program blocks it. -/
def execJournalRecordProgram (s : State) : Out :=
  hubNext s (if journalBlocked s.hub then s.hub else programOne s.hub)

/-- JOURNAL_SECTOR_ERASE (R393): the write pointer enters a sector that is not erased yet. -/
def execJournalSectorErase (s : State) : Out :=
  let h := s.hub
  let n := ((h.jr.queue.head?).map (·.index)).getD h.flash.nextIndex
  hubNext s (if n < h.jr.erasedTo || journalBlocked h then h else eraseSector n h)

/-! ## Windows (16 R399) -/

/-- WINDOW_REVOKE (16 R399): a window whose object no longer exists in the form it was opened on. -/
def execWindowRevoke (window : Nat) (s : State) : Out :=
  let h := s.hub
  hubNext s { h with windows := mapI (fun i w =>
    if i == window && w.isOpen && !objectExists h w then revokeWindow w else w) h.windows }

end Sys2Proof.Machine
end

