-- ==== Sys2Proof/Machine/Arbiter.lean ====
section
/-! DEFINITION. The arbiter of the DRAM port and the encoder pair, and the assembly pool (16 R406 to R414). -/

namespace Sys2Proof.Machine

/-- The resource of a request: the encoder pair, or the DRAM port. -/
def resource (h : Hub) (encoder : Bool) : Resource := if encoder then h.arb.enc else h.arb.dram

/-- Sets a resource. -/
def setResource (encoder : Bool) (r : Resource) (h : Hub) : Hub :=
  if encoder then { h with arb.enc := r } else { h with arb.dram := r }

/-- A requester asks for a resource (R407). -/
def uses (encoder : Bool) (i : Nat) : Bool := decide (i < 20) && if encoder then decide (9 ≤ i ∧ i ≤ 12) else i != 9

/-- Privileged requesters (R407). -/
def privileged (i : Nat) : Bool := decide (i < 5)

/-- A requester on a resource. -/
def reqAt (r : Resource) (i : Nat) : Requester := r.reqs.getD i { cls := 3, weight := 0 }

/-- Updates a requester. -/
def updReq (i : Nat) (f : Requester → Requester) (r : Resource) : Resource := { r with reqs := updAt r.reqs i f }

/-- The class in force: requester 13 during a page move and requester 6 during custody retransmissions are raised to 1 (R408). -/
def reqClass (h : Hub) (encoder : Bool) (i : Nat) : Nat :=
  if (i = 13 ∧ !h.mem.moving.isEmpty) ∨ (i = 6 ∧ !h.stream.resend.isEmpty) then 1 else (reqAt (resource h encoder) i).cls

/-- The weight in force. -/
def reqWeight (h : Hub) (encoder : Bool) (i : Nat) : Nat :=
  if i = 13 ∧ !h.mem.moving.isEmpty then 16 else (reqAt (resource h encoder) i).weight

/-- The refill of one resource: min(counter + weight, 2 × weight). -/
def refilled (h : Hub) (encoder : Bool) : Resource :=
  let r := resource h encoder
  { r with reqs := mapI (fun i q =>
      let w : Int := reqWeight h encoder i
      { q with credit := min (q.credit + w) (2 * w) }) r.reqs }

/-- ARBITER_REFILL (R409). -/
def execArbiterRefill (s : State) : Out :=
  let h := s.hub
  hubNext s { h with arb.dram := refilled h false, arb.enc := refilled h true }

/-- Debits one burst. A counter at its least 16-bit value has no stated successor: it becomes a free value (log 9). -/
def debit (encoder : Bool) (i : Nat) (h : Hub) : Hub :=
  let r := resource h encoder
  if (reqAt r i).credit = -32768 then
    let x := drawFree h
    setResource encoder (updReq i (fun q => { q with credit := (x.1.truncate 16).toInt }) r) x.2
  else setResource encoder (updReq i (fun q => { q with credit := q.credit - 1 }) r) h

/-- The pending queue of a requester. -/
def pendAt (h : Hub) (i : Nat) : PendQueue := h.arb.pend.getD i {}

/-- Updates a pending queue. -/
def updPend (i : Nat) (f : PendQueue → PendQueue) (h : Hub) : Hub := { h with arb.pend := updAt h.arb.pend i f }

/-- Parks a request behind those of its requester; a requester with 4 parked requests stalls on it (R411). -/
def park (encoder : Bool) (i : Nat) (h : Hub) : Hub :=
  updPend i (fun q =>
    if q.parked.length < 4 then { q with parked := q.parked ++ [encoder] } else { q with stalled := q.stalled <|> some encoder }) h

/-- A grant takes a requester's oldest request to a resource; the one it was stalled on is parked behind the rest. -/
def unpark (encoder : Bool) (i : Nat) (h : Hub) : Hub :=
  updPend i (fun q => { parked := q.parked.erase encoder ++ q.stalled.toList, stalled := none }) h

/-- A requester has a parked request to a resource. -/
def waits (encoder : Bool) (h : Hub) (i : Nat) : Bool := (pendAt h i).parked.contains encoder

/-- The first requester after another in ascending cyclic order. -/
def cyclicFirst (after : Nat) (is : List Nat) : Option Nat :=
  ((List.range 20).map fun k => (after + 1 + k) % 20).find? is.contains

/-- The winner of a round among requesters with a request (R410): highest class, highest counter, cyclic order. -/
def roundWinner (h : Hub) (encoder : Bool) (is : List Nat) : Option Nat :=
  let r := resource h encoder
  match (is.map (reqClass h encoder)).min? with
  | none => none
  | some c =>
    let top := is.filter fun i => reqClass h encoder i == c
    match (top.map fun i => (reqAt r i).credit).max? with
    | none => none
    | some m => cyclicFirst (r.last.getD c 19) (top.filter fun i => (reqAt r i).credit == m)

/-- Gives a grant: debited, remembered as its class's last winner. -/
def grant (encoder : Bool) (i : Nat) (h : Hub) : Hub :=
  let c := reqClass h encoder i
  let h := debit encoder i h
  let r := resource h encoder
  setResource encoder { r with holder := some i, last := setAt r.last c i } h

/-- A break point: a preempted burst completes first, with no debit (R412); else a round of all that have a request. -/
def breakPoint (encoder : Bool) (requests : List Nat) (h : Hub) : Hub :=
  let h := requests.foldl (fun h i => park encoder i h) h
  let r := resource h encoder
  match r.preempted with
  | some (i, _) => setResource encoder { r with holder := some i, preempted := none } h
  | none =>
    match roundWinner h encoder ((List.range 20).filter (waits encoder h)) with
    | none => setResource encoder { r with holder := none } h
    | some i => unpark encoder i (grant encoder i h)

/-- ARBITRATION_ROUND (R410). -/
def execArbitrationRound (encoder : Bool) (requests : List Nat) (s : State) : Out :=
  hubNext s (breakPoint encoder (requests.filter (uses encoder)) s.hub)

/-- A privileged request on the DRAM port: it takes the port mid-burst from a holder that is not privileged, else it waits for the
break point. -/
def preempt (i progress : Nat) (h : Hub) : Hub :=
  let r := h.arb.dram
  match r.holder with
  | none => park false i h
  | some j =>
    if privileged j then park false i h
    else debit false i (setResource false { r with holder := some i, preempted := some (j, progress) } h)

/-- PRIVILEGED_PREEMPTION (R412). -/
def execPrivilegedPreemption (requester progress : Nat) (s : State) : Out :=
  hubNext s (if privileged requester then preempt requester progress s.hub else s.hub)

/-- Withdraws a requester's grant: its parked requests are discarded. -/
def withdrawGrant (encoder : Bool) (i : Nat) (h : Hub) : Hub :=
  let r := resource h encoder
  if r.holder = some i then updPend i (fun _ => {}) (setResource encoder { r with holder := none } h) else h

/-- GRANT_WATCHDOG (R414): a grant under which nothing has completed for 16 µs. -/
def execGrantWatchdog (requester dt : Nat) (s : State) : Out :=
  let h := s.hub
  hubNext s (if h.arb.dram.holder = some requester ∨ h.arb.enc.holder = some requester then
      raiseFault { source := 0xE0 + requester, inst := 0, start := instAt h dt, capture := instAt h dt } true
        (withdrawGrant true requester (withdrawGrant false requester h))
    else h)

/-! ## The assembly pool (R406) -/

/-- Blocks of a record. -/
def blocksOf (r : Rec) : Nat := ceilDiv (recLen r) 4096

/-- A block begins its last burst where none is between its last burst and that burst's completion. -/
def moveBlock (h : Hub) : Hub :=
  let k := if h.mem.poolMoving = 0 then min 1 h.mem.poolUse else 0
  { h with mem.poolMoving := h.mem.poolMoving + k, mem.poolUse := h.mem.poolUse - k }

/-- The records of a tick take free blocks on their way to the reserve; those of earlier ticks stay in use until their moves end
(log 14). -/
def takeBlocks (n : Nat) (h : Hub) : Hub :=
  let k := min n h.mem.poolFree
  moveBlock { h with mem.poolFree := h.mem.poolFree - k, mem.poolUse := h.mem.poolUse + k }

/-- POOL_BLOCK_FREE (R406): the block whose last burst's completion returns becomes free, and the next block's last burst is
issued. -/
def execPoolBlockFree (s : State) : Out :=
  let h := s.hub
  hubNext s (moveBlock { h with mem.poolFree := h.mem.poolFree + h.mem.poolMoving, mem.poolMoving := 0 })

end Sys2Proof.Machine
end

