-- ==== Sys2Proof/Machine/Decompress.lean ====
section
/-! DEFINITION. The decoder of bodies, with every case in which a body is corrupt: what a standby does with the bodies of copied FRAME
records, so that they can be repaired later (08 R177 to R187, R192, 12 R312). -/

namespace Sys2Proof.Machine

/-! ## Fields -/

/-- The unsigned field of `n` bits at the front, and the bits after it; none where the body ends before. -/
def takeBits (n : Nat) (bs : List Bool) : Option (Nat × List Bool) :=
  if bs.length < n then none else some (ofBits (bs.take n), bs.drop n)

/-- The one bits at the front, at most `fuel` of them. -/
def onesAt : Nat → List Bool → Nat
  | 0, _ => 0
  | _ + 1, [] => 0
  | n + 1, b :: bs => if b then onesAt n bs + 1 else 0

/-- A status code that a status field may hold (R182). -/
def statusCodeOk (s : Nat) : Bool := decide (s < 10) && s != 6

/-- A STATUS of the status field. -/
def takeStatus (bs : List Bool) : Option (Nat × List Bool) :=
  match takeBits 4 bs with
  | some x => if statusCodeOk x.1 then some x else none
  | none => none

/-- STATUS runs that cover exactly `left` words (R182). -/
def takeRuns (bits : Nat) : Nat → Nat → List Bool → Option (List Nat × List Bool)
  | _, 0, bs => some ([], bs)
  | 0, _ + 1, _ => none
  | fuel + 1, left + 1, bs => do
    let s ← takeStatus bs
    let l ← takeBits bits s.2
    if left < l.1 then none
    else
      let y ← takeRuns bits fuel (left - l.1) l.2
      return (List.replicate (l.1 + 1) s.1 ++ y.1, y.2)

/-- SEQ of each of `n` words from a list of 3-bit fields. -/
def takeSeqs : Nat → List Bool → Option (List Nat × List Bool)
  | 0, bs => some ([], bs)
  | n + 1, bs => do
    let x ← takeBits 3 bs
    let y ← takeSeqs n x.2
    return (x.1 :: y.1, y.2)

/-! ## Values (R184 to R186) -/

/-- A residue from its unsigned map. -/
def unzigzag (u : Nat) : Int := if u % 2 = 0 then ((u / 2 : Nat) : Int) else -(((u + 1) / 2 : Nat) : Int)

/-- A value coded under a PARAM, with its prediction. -/
def takeValue (param : Nat) (pred : Int) (bs : List Bool) : Option (Int × List Bool) :=
  let escape (bs : List Bool) : Option (Int × List Bool) := (takeBits 24 bs).map fun x => (sext 24 x.1, x.2)
  if param = 31 then escape bs
  else
    let q := onesAt 24 bs
    if 24 ≤ q then escape (bs.drop 24)
    else if bs.length ≤ q then none
    else (takeBits param (bs.drop (q + 1))).map fun x => (pred + unzigzag (q * 2 ^ param + x.1), x.2)

/-- A VALUE lies in the 24-bit range. -/
def valueOk (v : Int) : Bool := decide (-8388608 ≤ v ∧ v ≤ 8388607)

/-- Values of one sub-block under a MODE, a WEIGHT and a PARAM: the neighbour's values with the history before each. Where a history is
lacking (`known` is false) the values stand for nothing and are not checked. -/
def takeSub (known : Bool) (mode weight param : Nat) : List (Int × List Int) → List Int → List Bool →
    Option (List Int × List Bool)
  | [], _, bs => some ([], bs)
  | z :: zs, ctx, bs => do
    let p := mode % 4
    let nb := if 4 ≤ mode then roundEven (weightOf weight * (z.1 - poly p z.2)) 4 else 0
    let x ← takeValue param (poly p ctx + nb) bs
    if known && !valueOk x.1 then none
    else
      let y ← takeSub known mode weight param zs ((x.1 :: ctx).take 3) x.2
      return (x.1 :: y.1, y.2)

/-- The sub-blocks of a block: the neighbour's values for the words they cover. A MODE from 4 up needs a neighbour, and PARAM 25 to 30 are
reserved. -/
def takeSubs (known nbf : Bool) : Nat → List (Int × List Int) → List Int → List Bool → Option (List Int × List Bool)
  | 0, zs, _, bs => if zs.isEmpty then some ([], bs) else none
  | n + 1, zs, ctx, bs =>
    if zs.isEmpty then some ([], bs)
    else do
      let m ← takeBits 3 bs
      let w ← if 4 ≤ m.1 then takeBits 3 m.2 else some (0, m.2)
      let k ← takeBits 5 w.2
      if (4 ≤ m.1 && !nbf) || decide (25 ≤ k.1 ∧ k.1 ≤ 30) then none
      else
        let x ← takeSub known m.1 w.1 k.1 (zs.take 64) ctx k.2
        let y ← takeSubs known nbf n (zs.drop 64) (histAfter ctx x.1) x.2
        return (x.1 ++ y.1, y.2)

/-! ## Blocks -/

/-- A decoded block. -/
structure Decoded where
  /-- The block as the encoder met it; without words, and with its bytes, where a history it needs is lacking. -/
  block : BlockIn
  n : Nat
  known : Bool
  /-- Its values, the history before each, and the history after it. -/
  vals : List Int
  ctxs : List (List Int)
  after : Option (List Int)
deriving DecidableEq, Repr

/-- A block with what it needs to be decoded, and a block without. -/
def decoded (b : BlockIn) (bytes : Bytes) (n : Nat) (known : Bool) (vals : List Int) : Decoded :=
  { block := if known then b else { b with words := [], kept := bytes, lost := n }
    n := n, known := known, vals := vals, ctxs := contexts b.hist vals
    after := if known then some (histAfter b.hist vals) else none }

/-- The neighbour a block names: a lower channel, earlier in the same body, of the same N (R185). -/
def neighbourOf (done : List Decoded) (ch n nbch : Nat) : Option Decoded :=
  (done.reverse.find? fun d => d.block.ch == nbch).filter fun d => decide (nbch < ch) && d.n == n

/-- A coded block after FORM, CH and N: the blocks of the body before it, the channel's history; the block without its bytes, and the
bits after it. -/
def takeCoded (done : List Decoded) (hist : Option (List Int)) (ch n : Nat) (bs : List Bool) :
    Option ((BlockIn × Bool × List Int) × List Bool) := do
  let seed ← takeBits 1 bs
  let seq0 ← takeBits 3 seed.2
  let seqx ← takeBits 1 seq0.2
  let nbf ← takeBits 1 seqx.2
  let stat ← takeBits 1 nbf.2
  let nbch ← if nbf.1 = 1 then takeBits 9 stat.2 else some (0, stat.2)
  let nb := neighbourOf done ch n nbch.1
  if nbf.1 = 1 ∧ nb.isNone then none
  else
    let seqs ← if seqx.1 = 1 then takeSeqs n nbch.2 else some ((List.range n).map fun i => (seq0.1 + i) % 8, nbch.2)
    let st ← if stat.1 = 1 then takeRuns (ceilLog2 n) n n seqs.2 else (takeStatus seqs.2).map fun x => (List.replicate n x.1, x.2)
    let v0 ← if seed.1 = 1 then takeBits 24 st.2 else some (0, st.2)
    let head := if seed.1 = 1 then [sext 24 v0.1] else []
    let h0 := if seed.1 = 1 then [] else hist.getD []
    let known := (seed.1 == 1 || hist.isSome) && (nbf.1 == 0 || (nb.map (·.known)).getD false)
    let z := (nb.map fun d => d.vals.zip d.ctxs).getD []
    let zs := (List.range n).map fun i => z.getD i (0, [])
    let y ← takeSubs known (nbf.1 == 1) n (zs.drop head.length) (histAfter h0 head) v0.2
    let vals := head ++ y.1
    let words := mapI (fun i v => sampleWord v (st.1.getD i 0) (seqs.1.getD i 0)) vals
    let b : BlockIn := { ch := ch, words := markEnd words, seed := seed.1 == 1, hist := h0
                         nb := if nbf.1 = 1 then some nbch.1 else none }
    return ((b, known, vals), y.2)

/-- A raw block after its three bytes (R180). -/
def takeRawBlock (hist : Option (List Int)) (ch n : Nat) (bs : Bytes) : Option ((BlockIn × Bool × List Int) × Bytes) :=
  if bs.length < 4 * n then none
  else
    let ws := (chunks 4 (bs.take (4 * n))).map fun b => BitVec.ofNat 32 (ofLe b)
    some (({ ch := ch, words := ws, seed := false, hist := hist.getD [], nb := none }, hist.isSome, ws.map wValue), bs.drop (4 * n))

/-- The blocks of a body, each on a byte boundary, and the bytes after them (R179, R180): histories of earlier bodies by channel. -/
def takeBlocksFrom (coded : Bool) (hist : Nat → Option (List Int)) : Nat → List Decoded → Bytes → Option (List Decoded × Bytes)
  | 0, done, bs => some (done, bs)
  | k + 1, done, bs => do
    let head := ofLe (bs.take 3)
    let ch := bitsOf head 10 2
    let n := bitsOf head 21 11
    let h : Option (List Int) := match done.reverse.find? (·.block.ch == ch) with | some d => d.after | none => hist ch
    if bs.length < 3 ∨ n = 0 ∨ 1024 < n ∨ 2 ≤ head % 4 ∨ (head % 4 = 0 ∧ !coded) then none
    else
      let x ← if head % 4 = 1 then takeRawBlock h ch n (bs.drop 3)
        else (takeCoded done h ch n ((bs.flatMap fun b => bitsLe 8 b.toNat).drop 22)).map fun y =>
          (y.1, bs.drop (ceilDiv (8 * bs.length - y.2.length) 8))
      takeBlocksFrom coded hist k (done ++ [decoded x.1.1 (bs.take (bs.length - x.2.length)) n x.1.2.1 x.1.2.2]) x.2

/-- The blocks of a body; none where it is corrupt (R192). CHECK can be compared only where every block has its history. -/
def decodeBody (hist : Nat → Option (List Int)) (body : Bytes) : Option (List Decoded) := do
  let r ← takeBlocksFrom (fieldAt body 0 1 == 1) hist (fieldAt body 2 2) [] (body.drop 8)
  let ws := r.1.flatMap (·.block.words)
  if body.length < 12 ∨ 1 < fieldAt body 0 1 ∨ r.2.length ≠ 4 ∨ sumNat (r.1.map (·.n)) ≠ fieldAt body 4 4 then none
  else if r.1.all (·.known) && bodyCheck ws != BitVec.ofNat 32 (ofLe r.2) then none
  else some r.1

end Sys2Proof.Machine
end

