-- ==== Sys2Proof/Machine/Changes.lean ====
section
/-! DEFINITION. What an accepted change does at its change instant (03 R68 to R70, 04 R89, R90, 05 R109, R113, 06 R140, R142,
07 R150, R165, 08 R189, 10 R233, 11 R281, 14 R349, R356, 15 R389, 17 R72). -/

namespace Sys2Proof.Machine

/-! ## Pairs, ports and sources as configured -/

/-- Puts a channel's pair where its configuration, a remap and the role of the hub place it, outside a turn. One that goes ISOLATED waits
for no spare and for no handover (03 R50). -/
def homePair (c : Nat) (h : Hub) : Hub :=
  let on := measures h && remains h c
  let h := updChan c (fun x => { x with
    sourceOn := sourceWanted h c, pairDue := if on then x.pairDue else none
    handover := if on then x.handover else none, remapDue := on && x.remapDue }) h
  if on then rejoin c h else connect c .isolated none h

/-- A BRIDGE port is driven as configured unless an EXC_* fault has turned it off, or does at the coming tick (03 R61). -/
def homePort (g : Nat) (h : Hub) : Hub :=
  let on := measures h && gExc (grDesc h g) == 1 && !(groupAt h g).faultOff && !(groupAt h g).offDue
  updGroup g (fun x => { x with portOn := on, folded := x.folded && on }) h

/-- Excitation, sources and pairs as configured: first light, takeover, the end of the eclipse state (12 R294, R308, 15 R381). -/
def powerUp (h : Hub) : Hub :=
  let h := (List.range 64).foldl (fun h g => homePort g h) h
  (List.range 512).foldl (fun h c => homePair c h) h

/-- Every measuring channel is SETTLING as at first light, from its first slot to come (03 R70). -/
def settleAll (h : Hub) : Hub :=
  (List.range 512).foldl (fun h c =>
    if dIdle (chDesc h c) then h else updChan c (startSettling (firstLightN h c)) h) h

/-! ## Channel and group descriptors -/

/-- Sets a sparse channel's phase at a tick (02 R28). -/
def setPhase (t : Nat) (inst : Inst) (c : Nat) (h : Hub) : Hub :=
  updChan c (fun x => { x with phase := phaseAt t inst (dRate (chDesc h c)) h.time.tCode }) h

/-- Every channel's phase is set again: a new tick rate, a time step, first light. -/
def setPhases (t : Nat) (inst : Inst) (h : Hub) : Hub := (List.range 512).foldl (fun h c => setPhase t inst c h) h

/-- System coefficients of the mode and range a channel is in (05 R113). -/
def loadSys (c : Nat) (h : Hub) : Hub :=
  let x := storedSys h c (dMode (chDesc h c)) (dRange (chDesc h c))
  updChan c (fun y => { y with gSys := x.1, oSys := x.2 }) h

/-- A new RATE: the phase, band filters, flare units (R28, R142, R150). -/
def rateChange (t : Nat) (inst : Inst) (c : Nat) (h : Hub) : Hub :=
  disarmChannel t c (setPhase t inst c { h with arr.rateChanged := h.arr.rateChanged ++ [(c, t)] })

/-- A new RATE or RESPONSE keeps the CIC, HB1, HB2 and the HBx stages in both configurations; the rest starts from zero at the change
instant (04 R89). -/
def chainChange (d0 : Nat) (inst : Inst) (c : Nat) (h : Hub) : Hub :=
  let d := chDesc h c
  let cut : ChainCut :=
    { before := edgeBefore inst, start := inst, rate := dRate d0, resp := dResp d0, keep := 2 + min (dRate d0) (dRate d), clear := true }
  updChan c (fun x => { x with cuts := x.cuts ++ [cut] }) h

/-- A CFG_REMAP's overlap whose channel changes mode or range ends with the pair on its own front end, as 05 R109 has it for a turn's: a
take is dropped, an undo done. -/
def endOverlap (c : Nat) (h : Hub) : Hub :=
  if (chanAt h c).handover.isSome then
    connect c .bound (some (ownFe c)) (updChan c (fun x => { x with handover := none, remapped := false, pairDue := none }) h)
  else h

/-- What the descriptors that take effect together do to one channel: `h0` is the hub before them. DESIGN CHOICE (log 28): the spec
does not say what becomes of the range in use when only AR_EN, AR_LO or AR_HI changes: an AR_EN change sets it to RANGE with no
window, and a change of the limits leaves it where it is until the next autorange step. -/
def chanChange (t : Nat) (inst : Inst) (h0 : Hub) (h : Hub) (c : Nat) : Hub :=
  let d0 := chDesc h0 c
  let g0 := grDesc h0 (c / 8)
  let d := chDesc h c
  let g := grDesc h (c / 8)
  if d0 = d ∧ g0 = g then h
  else
    let changed := !sameSettings d0 d || groupAffects d g0 g
    let moved := dMode d0 != dMode d || dRange d0 != dRange d
    let h := if moved then endOverlap c (abandonTurn c inst h) else h
    let h := if changed && !(chanAt h c).retired then
        updChan c (startSettling (settleN (tFe (some (d0, g0)) d g h.time.tCode) d)) h else h
    let h := if moved || dArEn d0 != dArEn d then
        loadSys c (updChan c (fun x => { x with rangeNow := dRange d, overFrom := none }) h) else h
    let h := if dRate d0 != dRate d || dMode d0 != dMode d then
        (if dRate d0 != dRate d then rateChange t inst c h else disarmChannel t c h) else h
    let h := if dRate d0 != dRate d || dResp d0 != dResp d then chainChange d0 inst c h else h
    let h := if dMode d0 != dMode d || excSeen d0 g0 != excSeen d g then
        updChan c (fun x => { x with openPhases := 0, shortPhases := 0 }) h else h
    if dIdle d != dIdle d0 then homePair c h
    else updChan c (fun x => { x with sourceOn := sourceWanted h c, folded := x.folded && sourceWanted h c }) h

/-- What a new descriptor does to a group's port. The front ends track from the change instant that makes the group switched, and
where it is not switched (R446); the detectors of a port with another setting or level start their count anew. -/
def groupChange (h0 : Hub) (h : Hub) (g : Nat) : Hub :=
  let a := grDesc h0 g
  let b := grDesc h g
  if a = b then h
  else
    let stays := gSwitched a && gSwitched b
    let port := gExc a == gExc b && gVb a == gVb b && stays
    homePort g (updGroup g (fun x => { x with
      onPhase := x.onPhase && stays, holding := x.holding && stays
      openPhases := if port then x.openPhases else 0, shortPhases := if port then x.shortPhases else 0 }) h)

/-- The channel and group descriptors that take effect at a change instant, together. -/
def descChanges (t : Nat) (inst : Inst) (h0 h : Hub) : Hub :=
  let h := (List.range 64).foldl (groupChange h0) h
  (List.range 512).foldl (chanChange t inst h0) h

/-! ## Remap and revive (14 R349, 15 R377) -/

/-- The turn that has a group's spare, or is one of channel `c` (05 R108). -/
def spareTurn (h : Hub) (c : Nat) : Option Turn :=
  match (tileAt h (tileOfCh c)).turn with
  | some u => if u.ch == c || (u.ch == 512 + c / 8 && u.fe == spareFe (c / 8)) || (decide (u.ch / 8 = c / 8) && u.step != .aloneRun) then some u
    else none
  | none => none

/-- The turn that keeps a channel from the spare ends. A turn of the channel itself ends at once, as one that a command changes. -/
def freeSpare (c : Nat) (inst : Inst) (h : Hub) : Hub :=
  match spareTurn h c with
  | some u => if u.ch = c then abandonTurn c inst h else giveBack (tileOfCh c) u inst h
  | none => h

/-- The spare still holds another pair of the group, or is giving it back. -/
def spareBusy (h : Hub) (c : Nat) : Bool :=
  (spareTurn h c).isSome || match (groupAt h (c / 8)).spareOn with | some x => x != c | none => false

/-- The break-before-make handover of a CFG_REMAP (05 R107), with its continuity check, whose result is a free value (15 R371; logs 9 and
21): a take whose check fails is not made. -/
def remapSwap (c : Nat) (take : Bool) (inst : Inst) (h : Hub) : Hub :=
  let x := drawSound h
  let moved := updChan c (fun y => { y with remapped := take }) (breakMake c take inst x.2)
  if x.1 then moved else switchFault c (if take then x.2 else moved)

/-- CFG_REMAP at its tick: by an overlap frame in VOLTAGE mode, else break-before-make. A spare that holds another pair in a
calibration turn gives it back first, and the handover follows at the next tick, as 15 R377 has it for REMAP (log 21). -/
def remapItem (t : Nat) (inst : Inst) (c : Nat) (undo : Bool) (h : Hub) : Hub :=
  if !remains h c then (if undo then updChan c (fun x => { x with remapped := false }) h else h)
  else if !measures h then
    if undo || spareFree h c then updChan c (fun x => { x with remapped := !undo }) h else h
  else if undo then
    if !(chanAt h c).remapped then h
    else
      let h := abandonTurn c inst h
      if dMode (chDesc h c) = 0 then overlap c (updChan c (fun x => { x with handover := some false }) h)
      else remapSwap c false inst h
  else if !spareFree h c || (chanAt h c).remapped then h
  else
    let h := freeSpare c inst h
    if spareBusy h c then { h with changes := h.changes ++ [⟨t + 1, .remap c false⟩] }
    else if dMode (chDesc h c) = 0 then overlap c (updChan c (fun x => { x with handover := some true }) h)
    else remapSwap c true inst h

/-- REVIVE_CHANNEL: the retirement, its declarations and counts are cleared, and the port an EXC_* fault turned off comes
on. DESIGN CHOICE (log 28): 03 R59 does not say whether the count of on-phases survives a port turned off: it stands, since no on-phase
in which the condition failed has come between. -/
def reviveItem (c : Nat) (h : Hub) : Hub :=
  let g := c / 8
  let mine (s i : Nat) : Bool :=
    decide (0x10 ≤ s ∧ s < 0x50) && match ((sourceOf s).map (·.inst)).getD .none with
      | .channel => i == c
      | .group => i == g && s % 16 < 4
      | .fe => i == ownFe c
      | _ => false
  let h := forgetFaults mine h
  let h := updFe (ownFe c) (fun f => { f with permFault := false }) h
  let lost := (groupAt h g).spareLost || (feAt h (spareFe g)).permFault
  let h := updChan c (fun x => { x with remapped := x.remapped && !lost }) h
  let h := updGroup g (fun x => { x with faultOff := false, offDue := false }) h
  let h := updChan c (fun x => { x with retired := false, retireDue := false }) h
  let h := homePair c (homePort g h)
  if dIdle (chDesc h c) then h else updChan c (startSettling (firstLightN h c)) h

/-! ## The other items -/

/-- CFG_FLARE: a unit whose ENABLE is set starts as UNKNOWN (07 R150). DESIGN CHOICE (log 28): the frames that settle from its tick on meet the
unit, those opened before that tick among them. -/
def flareItem (u : Nat) (h : Hub) : Hub := setUnit u { lastFlare := (unitAt h u).lastFlare } h

/-- CFG_CAPTURE at its tick: a running capture closes with CUT (07 R165). -/
def captureItem (t d : Nat) (h : Hub) : Hub :=
  updDef d (fun x => { x with state := if (cChans (defDesc h d)).isEmpty then .disabled else .armed }) (cutDef d t h)

/-- CLEAR_CAPTURE_STATS: histograms, maps. -/
def clearStats (what : Nat) (h : Hub) : Hub :=
  { h with
    cap.hist := if bitOf what 0 then [] else h.cap.hist
    cap.maps := if bitOf what 1 then [] else h.cap.maps
    cap.counted := h.cap.counted.filter fun x => if x.1 = 0 then !bitOf what 0 else !bitOf what 1 }

/-- A force applied before the tick at which it takes effect: its interval begins there. -/
def markAhead (source inst : Nat) (h : Hub) : Hub :=
  { h with faults.occ := h.faults.occ.map fun o => if o.source == source && o.inst == inst && o.once then { o with ahead := true } else o }

/-- FORCE_FAULT at its tick `t` (15 R389): MODE 1 asserts for one interval, MODE 2 until MODE 0 releases. -/
def forceItem (t source inst mode : Nat) (at_ : Inst) (h : Hub) : Hub :=
  let r : Raise := { source := source, inst := inst, start := at_, capture := at_, forced := true, real := false }
  let scope := match ((sourceOf source).map (·.inst)).getD .none with
    | .channel => !(chanAt h inst).retired
    | _ => true
  let rest := h.faults.force.filter (· != (source, inst, true))
  match mode with
  | 0 =>
    let h := { h with faults.force := rest }
    if h.faults.occ.any fun o => o.source == source && o.inst == inst && !o.real then clearOcc source inst at_ h else h
  | 1 =>
    if !scope then h
    else if h.time.tick < t then markAhead source inst (raiseOrMerge r true h) else raiseOrMerge r true h
  | _ =>
    let h := { h with faults.force := rest ++ [(source, inst, true)] }
    if scope then raiseOrMerge r false h else h

/-- The effect of one item beyond the configuration it writes. DESIGN CHOICE (log 28): the
cases of 03 R72 do not list an output that CFG_LOOP_OUTPUT names anew: it drives its fault current from that tick until its next
settled value. -/
def itemEffect (t : Nat) (inst : Inst) (i : Item) (h : Hub) : Hub :=
  match i with
  | .chan c _ => updChan c (fun x => { x with zero := none }) h
  | .group _ _ => h
  | .supply _ _ => h
  | .remap c undo => remapItem t inst c undo h
  | .revive c => reviveItem c h
  | .time b _ _ => applyTime b h
  | .cal _ => h
  | .flare u d => if fEnable d then flareItem u h else h
  | .capture d _ => captureItem t d h
  | .clearStats w => clearStats w h
  | .comp _ _ => h
  | .outlets _ => h
  | .uplink _ => h
  | .fault _ _ => h
  | .selfMerge _ => h
  | .force s n m => forceItem t s n m inst h
  | .loop k _ => loopToFault k h
  | .loopV _ => h

/-- What LEDGER tells of every channel (09 R207). -/
def ledgerKeys (h : Hub) : List (Nat × Nat × Nat) :=
  (List.range 512).map fun c => (dRate (chDesc h c), chanDelay h c, chanState h c % 3)

/-- A LEDGER is due where a channel's RATE, delay or STATE has changed. -/
def noteLedger (before : List (Nat × Nat × Nat)) (h : Hub) : Hub :=
  if before == ledgerKeys h then h else { h with stream.ledgerDue := true }

/-- An item changes a channel or group descriptor. -/
def isDesc (i : Item) : Bool := match i with | .chan _ _ => true | .group _ _ => true | _ => false

/-- CFG_UPLINK at its tick: ARP entries are flushed, and a change of a PTP_ field or a LOG_ interval restarts the PTP port (14 R358). -/
def uplinkChange (before : Bytes) (h : Hub) : Hub :=
  let same (off n : Nat) : Bool := fieldAt before off n == fieldAt h.cfg.uplink off n
  { h with eth.arp := [], eth.ptp := if same 6 2 && same 24 4 then h.eth.ptp else {} }

/-- An item is a CFG_UPLINK. -/
def isUplink (i : Item) : Bool := match i with | .uplink _ => true | _ => false

/-- A CFG_CAPTURE entry equal to the descriptor in force changes no definition (07 R165). -/
def sameCapture (h : Hub) (i : Item) : Bool := match i with | .capture d b => b == defDesc h d | _ => false

/-- Applies items at tick `t`, whose instant is `inst`. -/
def applyItems (t : Nat) (inst : Inst) (all : List Item) (h : Hub) : Hub :=
  let items := all.filter (!sameCapture h ·)
  let new := { h with cfg := items.foldl (fun c i => cfgItem i c) h.cfg }
  let new := if items.any isDesc then descChanges t inst h new else new
  let new := if items.any isUplink then uplinkChange h.cfg.uplink new else new
  directionChange h (custodyChange h (items.foldl (fun x i => itemEffect t inst i x) new))

/-- The changes that take effect at a tick. -/
def applyChanges (t : Nat) (inst : Inst) (h : Hub) : Hub :=
  let due := sortBy (·.tick) (h.changes.filter fun c => decide (c.tick ≤ t))
  if due.isEmpty then h
  else applyItems t inst (due.map (·.item)) { h with changes := h.changes.filter fun c => !decide (c.tick ≤ t) }

/-- CHANGE_INSTANT (03 R68): what is accepted for the coming tick takes effect (log 3). -/
def execChangeInstant (s : State) : Out :=
  let h := s.hub
  hubNext s (if isUp h then noteLedger (ledgerKeys h) (applyChanges (h.time.tick + 1) (nextInst h) h) else h)

/-! ## Tick rate and slot tables (02 R42, 11 R281) -/

/-- Books the new tick rate for the first tick that reads its boundary; of boundaries that a step passes together the latest counts
(10 R256). -/
def bookRate (h : Hub) : Hub :=
  let past (x : Nat × Nat × Nat) : Bool := decide ((x.1 : Int) * secUnits ≤ nextInst h)
  match (h.time.newTicks.filter past).getLast? with
  | some x => { h with time.rateDue := some x.2, time.newTicks := h.time.newTicks.filter (!past ·) }
  | none => h

/-- TICK_RATE_CHANGE (02 R42). -/
def execTickRateChange (s : State) : Out := hubNext s (if isUp s.hub then bookRate s.hub else s.hub)

/-- GRAPH_ACTIVATION (06 R140): the activation accepted for the coming tick. -/
def execGraphActivation (s : State) : Out :=
  hubNext s (if isUp s.hub then activateDue (s.hub.time.tick + 1) s.hub else s.hub)

/-- A lane's shadow table due at a tick comes into force. -/
def swapTable (t l : Nat) (h : Hub) : Hub :=
  match (laneAt h l).shadowTable with
  | some (a, tab) =>
    if a ≤ t then { updLane l (fun x => { x with shadowTable := none }) h with cfg.slots := setAt h.cfg.slots l tab } else h
  | none => h

/-- SLOT_TABLE_SWAP (11 R281). -/
def execSlotTableSwap (lane : Nat) (s : State) : Out :=
  hubNext s (if isUp s.hub then swapTable (s.hub.time.tick + 1) lane s.hub else s.hub)

end Sys2Proof.Machine
end

