-- ==== Sys2Proof/Machine/Settle.lean ====
section
/-! DEFINITION. The frame pipeline: a frame closes, verdicts are applied, a frame settles, its results drive records, loop
outputs, flares and captures (02 R25 to R35, R40, R41, 03 R71, R72, 06 R129 to R137, 07 R151, 09 R209). -/

namespace Sys2Proof.Machine

/-! ## Closing a frame -/

/-- Slots of a channel in a frame by the grid (02 R26, R27), whether or not they were created. -/
def gridSlots (h : Hub) (f : Frame) (c : Nat) : Nat :=
  let d := frDesc f c
  if dIdle d || !runsInFull h then 0
  else if isDense (dRate d) f.tCode then gridCount (dRate d) f
  else if (f.n + (chanAt h c).phase) % framesPerSlot (dRate d) f.tCode = 0 then 1 else 0

/-- Slots of every channel in a frame by the grid. -/
def gridTable (h : Hub) (f : Frame) : List (Nat × Nat) :=
  (List.range 512).filterMap fun c => let n := gridSlots h f c; if n = 0 then none else some (c, n)

/-- Slots of a frame as they were created. -/
def wordTable (f : Frame) : List (Nat × Nat) := f.words.map fun x => (x.1, x.2.length)

/-- An occulted frame's slots are created and lost: they advance the sequences (00 R9). -/
def loseSlots (f : Frame) (h : Hub) : Hub :=
  let all := gridTable h f
  all.foldl (fun h x => updChan x.1 (fun c => { c with seq := c.seq + (x.2 - (wordsOf f x.1).length) }) h)
    { h with frames := h.frames.map fun x => if x.n = f.n then { x with words := [], lost := all } else x }

/-- Adds a frame to the span of the next ECLIPSE occultation (09 R209). -/
def addSpan (n : Nat) (slots : List (Nat × Nat)) (h : Hub) : Hub :=
  { h with stream.eclSpan := some (match h.stream.eclSpan with
    | some e => { firstTick := e.firstTick, ticks := n + 1 - e.firstTick, slots := addSlots e.slots slots }
    | none => { firstTick := n, ticks := 1, slots := slots }) }

/-- A frame closes: its slots enter the ledger (09 R212). -/
def closeFrame (n : Nat) (h : Hub) : Hub :=
  match h.frames.find? (·.n == n) with
  | none => h
  | some f =>
    if f.occulted then addSpan n (gridTable h f) (bookCreated (gridTable h f) (loseSlots f h))
    else bookCreated (wordTable f) h

/-! ## Verdicts (02 R30, R34, R35) -/

/-- Applies one verdict to the words of a frame. -/
def verdictOn (v : Verdict) (f : Frame) : Frame :=
  { f with words := f.words.map fun x =>
      if x.1 == v.ch then
        (x.1, mapI (fun i w => if v.first ≤ i ∧ i < v.first + v.slots then applyVerdict v.status w else w) x.2)
      else x }

/-- Slots of a channel in a frame, those lost with it included. -/
def frameCount (f : Frame) (c : Nat) : Nat := (wordsOf f c).length + ((f.lost.find? (·.1 == c)).map (·.2)).getD 0

/-- A verdict into an open system calibration window: the window is no longer all GOOD (05 R111, 04 R93). `old` and `new` are a frame
before and after, and `later` the frames from it on. -/
def spoilWindow (old new : Frame) (later : List Frame) (c : Nat) (x : Chan) : Chan :=
  let first := x.seq - sumNat (later.map fun f => frameCount f c)
  let ws := (wordsOf old c).zip (wordsOf new c)
  { x with calWin := x.calWin.map fun w =>
      { w with allGood := w.allGood && !((List.range ws.length).any fun i =>
          decide (w.firstSeq ≤ first + i ∧ first + i < w.firstSeq + w.count) &&
            (ws[i]?.map fun z => z.1 != z.2).getD false) } }

/-- Every frame's changes on the windows of its channels. -/
def spoilWindows : List (Frame × Frame) → Hub → Hub
  | [], h => h
  | (a, b) :: rest, h =>
    spoilWindows rest { h with chans := mapI (fun c x =>
      if x.calWin.isSome then spoilWindow a b (a :: rest.map Prod.fst) c x else x) h.chans }

/-- Applies the verdicts of an interval at tick `n`, those past their deadline raising VERDICT_DEADLINE (06 R138); the earliest
frame that a replay must start from. -/
def applyVerdicts (n : Nat) (vs : List Verdict) (h : Hub) : Hub × Option Nat :=
  let ok (v : Verdict) : Bool := h.frames.any fun f => f.n == v.frame && decide (n ≤ f.n + f.v)
  let good := vs.filter ok
  let frames := h.frames.map fun f => (good.filter (·.frame == f.n)).foldl (fun f v => verdictOn v f) f
  let changed := ((h.frames.zip frames).filter fun x => x.1.words != x.2.words).map fun x => x.1.n
  let h := { spoilWindows (h.frames.zip frames) h with frames := frames }
  let h := if vs.all ok then h else raiseNow 0x71 0 0 0 h
  (h, (changed.filter fun f => decide (f < n)).min?)

/-! ## Loop outputs (03 R71, R72) -/

/-- The current of a value, in steps of 24 mA / 65,536, clamped to 3.8 mA to 20.5 mA. DESIGN CHOICE (log 28): R71 does not say how a
current is rounded to a step, nor which steps the clamp ends at: the model takes the nearest step, and 10,377 and 55,979. -/
def loopCurrent (x x4 x20 : Int) : Nat :=
  let den := 24 * (x20 - x4)
  let num := 65536 * (4 * (x20 - x4) + 16 * (x - x4))
  if den = 0 then 10377
  else (clampInt 10377 55979 (if den < 0 then roundDiv (-num) (-den) else roundDiv num den)).toNat

/-- A channel the node depends on is retired. -/
def rootsRetired (h : Hub) (node : Nat) : Bool :=
  let g := h.arr.active
  (ndRefs (g.nodes.getD node [])).any fun r => (rootChans g (node + 1) r).any fun c => (chanAt h c).retired

/-- The hub drives loop outputs from its results: it measures. -/
def loopsFollow (h : Hub) : Bool := isActive h && !inEclipse h && !drained h

/-- A settled entry drives the outputs that name its node. -/
def loopEntry (nodes : List Bytes) (e : ProvEntry) (h : Hub) : Hub :=
  (List.range 8).foldl (fun h k =>
    let d := h.cfg.loop.getD k []
    if !loEnable d || loNode d != e.node || !loopsFollow h then h
    else if 1 < e.quality || rootsRetired h e.node then loopToFault k h
    else
      let nd := nodes.getD e.node []
      let v (w : Nat) : Int := wordValue nd (loWord d) w
      let step := loopCurrent (v (e.words.getD (loWord d) 0).toNat) (v (loX4 d)) (v (loX20 d))
      { h with loops := updAt h.loops k fun l => { l with setpoint := step, state := 0 } }) h

/-- Outputs whose node depends on a retired channel, and all outputs while the hub does not measure, drive their fault
current. -/
def loopFaults (h : Hub) : Hub :=
  if !loopsFollow h then loopsToFault h
  else (List.range 8).foldl (fun h k =>
    if loEnable (h.cfg.loop.getD k []) && rootsRetired h (loNode (h.cfg.loop.getD k [])) then loopToFault k h else h) h

/-! ## Settling (02 R31 to R33) -/

/-- Outputs that follow a node hold their current while its entry waits (R41, R71). -/
def holdLoops (es : List ProvEntry) (h : Hub) : Hub :=
  { h with loops := mapI (fun k l =>
      if l.state = 0 && es.any (fun e => e.node == loNode (h.cfg.loop.getD k [])) then { l with state := 2 } else l) h.loops }

/-- The entries of a settled frame pass to the record assembler, to loop outputs and to flare units (06 R137). -/
def passEntries (f : Nat) (h : Hub) : Hub × List Cand :=
  let es := takeEntries f h
  let h := (summaryRecs h (h.arr.late.contains f) es.1).foldl (fun h r => emit r h)
    { es.2 with arr.late := es.2.arr.late.filter (· != f), arr.waits := es.2.arr.waits.filter (· != f) }
  let nodes := (graphFor h.arr f).nodes
  let h := es.1.foldl (fun h e => loopEntry nodes e h) h
  if inEclipse h then (h, []) else entryFlares es.1 h

/-- Entries that waited for the end of step 2 leave, in frame order, before the frames of this tick. -/
def releaseWaiting (h : Hub) : Hub × List Cand :=
  (h.arr.waits.filter fun f => !h.frames.any (·.n == f)).foldl (fun x f => let y := passEntries f x.1; (y.1, x.2 ++ y.2)) (h, [])

/-- A frame settles: it leaves the raw window for the ring, its record and its SUMMARY records fall due, and the outputs follow.
Frames after a drain's acceptance interval are never released (17 R429). -/
def settleFrame (f : Frame) (mismatch : Bool) (h : Hub) : Hub × List Cand :=
  let h := { h with frames := h.frames.filter (·.n != f.n) }
  if match h.power.drain with | some d => decide (d.tick < f.n) | none => false then
    ((takeEntries f.n h).2, [])
  else
    let h := encodeFrame f mismatch h
    let a := if inEclipse h then (h, []) else frameFlares f h
    let b := if a.1.arr.waits.contains f.n then (holdLoops (a.1.arr.provQ.filter (·.frame == f.n)) a.1, [])
      else passEntries f.n a.1
    (capSettle f b.1, a.2 ++ b.2)

/-- The frame that settles next at a tick, in frame order. -/
def nextSettled (n : Nat) (h : Hub) : Option Frame :=
  match h.frames with
  | f :: _ => if f.n + f.v + 1 ≤ n then some f else none
  | [] => none

/-- Settles frames due at tick `n`, at most `fuel`. -/
def settleFuel (n : Nat) : Nat → Hub × List Cand → Hub × List Cand
  | 0, x => x
  | k + 1, (h, cs) =>
    match nextSettled n h with
    | none => (h, cs)
    | some f => let r := settleFrame f false h; settleFuel n k (r.1, cs ++ r.2)

/-- Settles every frame due at a tick. -/
def settleDue (n : Nat) (h : Hub) : Hub × List Cand := settleFuel n h.frames.length (h, [])

/-! ## Flares, captures and export of a tick (07 R151 to R171) -/

/-- Captures whose last slot had settled when they were started end at their decision (07 R170). -/
def finishSettled (h : Hub) : Hub :=
  match ((h.frames.head?).map (·.n)).getD (h.time.tick + 1) with
  | 0 => h
  | n + 1 => (List.range 8).foldl (fun h d => (defAt h d).caps.foldl (capFinish d n) h) h

/-- Decides the flares of a tick, sends their messages, and moves the capture engine on; in the eclipse state none is decided. -/
def flaresOfTick (cs : List Cand) (h : Hub) : Hub :=
  let h := (List.range 8).foldl (fun h k => updDef k (rearmDef h.time.tickInst) h) h
  let d := if inEclipse h then (h, []) else decideFlares cs h
  let h := finishSettled (broadcastFlares d.2 d.1)
  let h := expireMembers (fun _ => true) h
  (List.range 8).foldl exportTick h

/-- Every SCHEDULE unit sees the tick. -/
def schedules (h : Hub) : Hub :=
  (List.range 16).foldl (fun h u => scheduleAt u h.time.tick h.time.tickInst h.time.shift h.time.tCode h) h

/-! ## LEDGER (09 R211) -/

/-- A LEDGER is queued. -/
def ledgerQueued (h : Hub) : Bool := h.stream.due.any (·.ledger)

/-- Queues a LEDGER for a tick. -/
def queueLedger (h : Hub) : Hub := if ledgerQueued h then h else emit { ty := 6, order := 7, ledger := true } h

/-- A LEDGER falls due at a stream tick: tick 0, every LEDGER_PERIOD, a change of RATE, delay or STATE. -/
def ledgerAt (t : Nat) (h : Hub) : Hub :=
  let h := if t % max 1 (ledgerPeriod h) = 0 || h.time.tick == 0 || h.stream.ledgerDue then queueLedger h else h
  { h with stream.ledgerDue := false }

/-- LEDGER_PERIOD (09 R211): the LEDGER of the coming tick. -/
def execLedgerPeriod (s : State) : Out :=
  let h := s.hub
  hubNext s (if isUp h && (streamTick h + 1) % max 1 (ledgerPeriod h) = 0 then queueLedger h else h)

/-! ## Single pieces of the tick -/

/-- FRAME_SETTLE (02 R31): the frame that settles at the coming tick, with its stamps as of that tick (log 3). Results that waited for an
overrun leave before it (02 R41). -/
def execFrameSettle (mismatch : Bool) (s : State) : Out :=
  let h := s.hub
  hubNext s (
    if !isUp h || isStandby h then h
    else match nextSettled (h.time.tick + 1) h with
      | none => h
      | some f =>
        let w := releaseWaiting h
        let r := settleFrame f mismatch w.1
        { r.1 with pair.flares := r.1.pair.flares ++ (w.2 ++ r.2).map fun c => (h.time.tick + 1, c) })

/-- The close of a node's period with the open frame as it stands, at the coming tick's index (06 R129). -/
def closeNode (node : Nat) (h : Hub) : Hub :=
  match h.frames.find? (·.n == h.time.tick) with
  | none => h
  | some f =>
    let i := nextInst h
    let m : CloseMark := { tick := h.time.tick + 1, index := tickIndex h.time.tCode i, trunc := h.time.rateDue.isSome
                           step := h.time.jump.isSome, stamp := stampOf h i }
    let es := (runFrame h.arr f m h.arr.nodes).2.filter (·.node == node)
    { h with arr.provQ := (h.arr.provQ.filter fun e => !(e.frame == f.n && e.node == node)) ++ es }

/-- REDUCTION_PERIOD_CLOSE (06 R129): the node's entry in the provisional queue; the close of the whole frame at the tick
confirms it. -/
def execReductionPeriodClose (node : Nat) (s : State) : Out :=
  hubNext s (if isUp s.hub && !isStandby s.hub then closeNode node s.hub else s.hub)

end Sys2Proof.Machine
end

