-- ==== Sys2Proof/Machine/Boundary.lean ====
section
/-! DEFINITION. The tick itself: what is booked for it, the new timebase reading, re-phasing at a step, changes, and the frame it
opens (02 R24 to R28, R42, R43, 04 R91, 06 R129, 09 R205, 10 R245, R255, 15 R377, R378, R381). -/

namespace Sys2Proof.Machine

/-! ## Before the tick -/

/-- A CFG_TIME item. -/
def isTime (i : Item) : Bool := match i with | .time _ _ _ => true | _ => false

/-- CFG_TIME changes of the coming tick (10 R233, R245). -/
def timeChanges (h : Hub) : Hub :=
  let due := h.changes.filter fun c => isTime c.item && decide (c.tick ≤ h.time.tick + 1)
  let h := { h with changes := h.changes.filter fun c => !(isTime c.item && decide (c.tick ≤ h.time.tick + 1)) }
  directionChange h (due.foldl (fun h c => itemEffect c.tick h.time.tickInst c.item { h with cfg := cfgItem c.item h.cfg }) h)

/-- Front ends whose over-range reaches the coming tick's verdict deadline. -/
def deadlines (h : Hub) : Hub :=
  (List.range 576).foldl (fun h fe =>
    if (feAt h fe).overRange.isSome && decide ((feAt h fe).overDone ≤ h.time.tick) then deadlineVerdict fe h else h) h

/-- Verdicts over the pauses of occurrences that were asserted again in the interval: each runs from its first instant on
(15 R372, R375). -/
def pauseVerdicts (h : Hub) : Hub :=
  let vs := h.faults.occ.flatMap fun o =>
    match o.again with | some b => (faultVerdicts h o.source o.inst o.start b).1 | none => []
  issue vs { h with faults.occ := h.faults.occ.map fun o => { o with again := none } }

/-- Occurrences with a verdict that stay asserted issue it again for the slots of the interval (03 R60, 15 R375); the first
verdict is that of their handling. -/
def standingVerdicts (h : Hub) : Hub :=
  let os := h.faults.occ.filter fun o => o.handled && !o.cleared && decide (o.start < h.time.tickInst)
  issue (os.flatMap fun o => (faultVerdicts h o.source o.inst h.time.tickInst (frameEnd h)).1) h

/-- What the end of an interval decides for the coming tick: time, verdicts whose deadline it is, the end of the eclipse state. -/
def bookTick (h : Hub) : Hub :=
  let h := takeLane (timeChanges (bookHoldover (findLoss (rampTick h))))
  bookExit (standingVerdicts (pauseVerdicts (deadlines (bookUtc (bookRate (bookStep h))))))

/-! ## The tick (02 R24, R25, R42, R43) -/

/-- Occurrences that last one tick interval clear, but for a force whose interval begins now (15 R389). -/
def endOnce (i : Inst) (h : Hub) : Hub :=
  let h := (h.faults.occ.filter fun o => o.once && !o.ahead).foldl (fun h o => clearOcc o.source o.inst i h) h
  { h with faults.occ := h.faults.occ.map fun o => { o with ahead := false } }

/-- Instants that stand from before a step, on the timebase after it: faults, over-ranges, on-phases, this hub's flares, and a FLARE_NOW
that takes the coming tick's. -/
def shiftStarts (d : Inst) (h : Hub) : Hub :=
  if d = 0 then h
  else
    { moveCaptures h (frameEnd h) (frameEnd h + d) h with
      faults.occ := h.faults.occ.map fun o => { o with start := o.start + d, again := o.again.map (· + d) }
      faults.queue := h.faults.queue.map fun r => { r with start := r.start + d }
      cap.lastTrig := h.cap.lastTrig.map (· + d)
      cap.now := h.cap.now.map fun x => if x.2 = frameEnd h then (x.1, x.2 + d) else x
      cap.units := mapI (fun u x => if fSource (unitDesc h u) = 6 then x else lastBy d x) h.cap.units
      cap.members := h.cap.members.map fun m =>
        if fSource (unitDesc h m.unit) = 6 then m else { m with inst := m.inst + d }
      fes := h.fes.map fun f => { f with overRange := f.overRange.map fun x => (x.1, x.2 + d) }
      chans := h.chans.map fun c => { c with overFrom := c.overFrom.map (· + d) }
      groups := h.groups.map fun g => { g with starts := g.starts.map (· + d) } }

/-- The tick: its number, reading, rate, length and flags; operating time goes on; cleared occurrences end. -/
def advance (h : Hub) : Hub :=
  let i := nextInst h
  let h := shiftStarts (h.time.jump.getD 0) (endOnce i h)
  let r := h.time.rateDue.getD (h.time.tCode, h.time.v)
  let stepped := h.time.jump.isSome
  noteHist { h with
    time.tick := h.time.tick + 1
    time.tickInst := i
    time.tCode := r.1
    time.v := r.2
    time.frameLen := if stepped then tickAfterStep r.1 i - i else tickLen r.1
    time.frameFlags := b2n stepped + 2 * b2n h.time.rateDue.isSome
    time.op4k := h.time.op4k + 4000 / tickHz h.time.tCode
    time.shift := h.time.shift + h.time.jump.getD 0
    time.jump := none
    time.rateDue := none
    time.laneMeas := h.time.laneMeas.map fun m => { m with age := min 255 (m.age + 1) }
    faults.occ := h.faults.occ.filter fun o => !o.cleared }

/-- The mark of the tick for the close of the frame before it, by the tick rate of that frame; `old` is the hub before the tick. -/
def layMark (old h : Hub) : Hub :=
  let n := h.time.tick
  let drain := match h.power.drain with | some d => d.tick + 1 == n | none => false
  { h with arr.marks := h.arr.marks ++
      [{ tick := n, index := tickIndex old.time.tCode h.time.tickInst
         trunc := activates old n || old.time.rateDue.isSome || drain, step := old.time.jump.isSome, stamp := tickStamp h }] }

/-! ## A time step (04 R91, 02 R28) -/

/-- Slots of the old grid at or after the step whose instants lie before another instant. -/
def oldSlots (r : Nat) (step end_ : Inst) : Nat := ((gridCeil r end_ - gridCeil r step) / gridStep r).toNat

/-- A hold over a step: its slots are counted, and its synthesised stream goes on to its end (04 R94). -/
def stepHold (d : Inst) (k : Hold) : Hold := { start := k.start + d, stop := k.stop + d, marks := false }

/-- The old-grid slots of a hold at or after a step: those whose sampling instants lie in it. -/
def holdSlots (r : Nat) (delay step : Inst) (k : Hold) : Nat :=
  if k.marks then oldSlots r (max step (k.start + delay)) (k.stop + delay) else 0

/-- The chain passes to the phase of the new timebase with its state kept; a change of setting at the same tick keeps its own cut. -/
def stepCuts (d : Nat) (step inst : Inst) (cuts : List ChainCut) : List ChainCut :=
  match cuts.getLast? with
  | some x => if x.start = inst then cuts.dropLast ++ [{ x with before := edgeBefore step }] else cuts ++ [cut]
  | none => [cut]
where
  cut : ChainCut :=
    { before := edgeBefore step, start := inst, rate := dRate d, resp := dResp d, keep := 2 + dRate d, clear := false }

/-- A channel's windows over a step at an instant of the old timebase: RECOVERING and hold intervals keep what they had still to
run, in slots of the old grid by the descriptors before the tick; a measuring channel is SETTLING for S. DESIGN CHOICE (log 28): where a commanded change takes effect at the tick of a
step, the S of the step stands, since it starts from the same instant and is the later of the two windows to be set. -/
def stepChannel (old h : Hub) (step : Inst) (c : Nat) (x : Chan) : Chan :=
  let d := chDesc h c
  let r := dRate (chDesc old c)
  let delay := modLen (chanDelay old c)
  let rec_ := match x.recUntil with | some u => oldSlots r step u | none => 0
  let stale := sumNat (x.holds.map (holdSlots r delay step))
  let x := { x with
    recLeft := max x.recLeft rec_, recUntil := none
    staleLeft := max x.staleLeft stale, holds := x.holds.map (stepHold (h.time.tickInst - step))
    cuts := stepCuts (chDesc old c) step h.time.tickInst x.cuts
    fedTo := x.fedTo.map (· + (h.time.tickInst - step)) }
  if dIdle d then x else startSettling (romS (dResp d)) x

/-- What a step booked for the tick does: `old` is the hub before it. -/
def stepSlots (old h : Hub) : Hub :=
  if old.time.jump.isNone then h
  else
    let s := frameEnd old
    let h := { h with chans := mapI (stepChannel old h s) h.chans }
    setPhases h.time.tick h.time.tickInst (stepCaptures h)

/-- A new tick rate sets every phase again (02 R28, R42). -/
def rateSlots (old h : Hub) : Hub :=
  if old.time.rateDue.isSome then setPhases h.time.tick h.time.tickInst h else h

/-! ## REMAP (15 R377, R378) -/

/-- A front end's REMAP at a tick: at once where the spare is free and has accepted runs, else it waits with the spare promised to it,
as long as the spare stays usable for it. A channel that a sensor-side fault retires keeps no spare from another, and one without a
usable spare is retired. -/
def resolveRemap (fe source : Nat) (h : Hub) : Hub :=
  let c := feGroup fe * 8 + feSlot fe
  let drop (h : Hub) : Hub :=
    updChan c (fun x => { x with remapDue := false }) { h with faults.remaps := h.faults.remaps.filter (·.1 != fe) }
  let wait (h : Hub) : Hub := updChan c (fun x => { x with remapDue := true }) h
  if !remains h c then drop h
  else if !spareUsable h c then drop (noSpareLeft c fe source h)
  else if (match (tileAt h (tileOfCh c)).turn with | some u => u.ch == c && u.remap | none => false) then h
  else
    let busy := match spareTurn h c with | some u => u.ch != c | none => false
    let h := freeSpare c h.time.tickInst h
    if busy || spareBusy h c || !spareReady h c then wait h
    else drop (remapTo c h.time.tick h.time.tickInst h)

/-- The REMAP reactions of the interval, in ascending channel order: the spare of a group goes to the lowest channel that needs it
(R378). -/
def resolveRemaps (h : Hub) : Hub := (sortBy (·.1) h.faults.remaps).foldl (fun h x => resolveRemap x.1 x.2 h) h

/-! ## State that changes at a tick -/

/-- Retirements and ports turned off by declarations of the interval (03 R61). -/
def applyRetirements (h : Hub) : Hub :=
  { h with
    chans := h.chans.map fun c => if c.retireDue then { c with retired := true, retireDue := false, leftFe := none } else c
    groups := h.groups.map fun g => if g.offDue then { g with faultOff := true, offDue := false } else g }

/-- A detector's source of which no channel is left that is neither IDLE nor retired: its detectors have stopped (03 R59, 15 R378). -/
def detectorsGone (h : Hub) (source inst : Nat) : Bool :=
  decide (0x10 ≤ source ∧ source < 0x50 ∧ source % 16 < 4) &&
    (if source % 16 < 2 then !measuring h inst else (rangeFrom (8 * inst) 8).all fun c => !measuring h c)

/-- Occurrences whose detectors have stopped end (log 27). -/
def stopDetectors (h : Hub) : Hub :=
  (h.faults.occ.filter fun o => o.real && !o.forced && !o.cleared && detectorsGone h o.source o.inst).foldl
    (fun h o => clearOcc o.source o.inst h.time.tickInst h) h

/-- The hub leaves the eclipse state: the last occultation, pairs and ports as configured, flare units UNKNOWN; a standby
resynchronises (15 R381, 12 R296). -/
def leaveEclipse (h : Hub) : Hub :=
  match h.faults.eclipse with
  | none => h
  | some e =>
    if !e.exitDue then h
    else
      let h := { h with faults.eclipse := none, cap.units := h.cap.units.map disarm }
      let h := settleAll (powerUp (eclipseOcc h))
      if isStandby h then toResync false h else h

/-- From the tick after a drain was accepted every channel is as IDLE, and captures close with CUT (17 R429). -/
def startDrain (h : Hub) : Hub :=
  match h.power.drain with
  | none => h
  | some d =>
    if d.tick + 1 = h.time.tick then (List.range 8).foldl (fun h k => cutDef k h.time.tick h) (shutDown h) else h

/-- Everything that takes effect at the tick, and whether a LEDGER is due for it. -/
def changeTick (old h : Hub) : Hub :=
  let n := h.time.tick
  let before := ledgerKeys old
  let h := applySys (applyPairs (applyChanges n h.time.tickInst (applyRetirements h)))
  noteLedger before (moveCaptures old h.time.tickInst h.time.tickInst
    (stepSlots old (rateSlots old (startDrain (leaveEclipse (stopDetectors (applyRetirements (resolveRemaps h))))))))

/-! ## The frame that opens (02 R24, R26) -/

/-- The open frame takes the configuration in force. -/
def frameNow (f : Frame) (h : Hub) : Frame :=
  { f with chan := h.cfg.chan, group := h.cfg.group, comp := h.cfg.comp, map := h.cfg.map }

/-- Opens frame n at tick n. In the eclipse state its slots are occulted. -/
def openFrame (h : Hub) : Hub :=
  let f : Frame := { n := h.time.tick, stamp := tickStamp h, tCode := h.time.tCode, v := h.time.v, flags := h.time.frameFlags
                     len := h.time.frameLen, shift := h.time.shift, occulted := inEclipse h && isActive h }
  { h with frames := h.frames ++ [frameNow f h], chans := h.chans.map fun c => { c with inFrame := 0 } }

/-! ## The release of a tick (09 R204, 16 R396) -/

/-- A released CAPTURE_HEADER stands whole in its capture's window. -/
def noteHeader (h : Hub) (r : Rec) : Hub :=
  if r.ty = 3 then updCapture (fieldAt r.payload 4 1) (fieldAt r.payload 0 4) (fun c => { c with header := recBytes h r }) h else h

/-- The records released at the latest tick. -/
def releasedNow (h : Hub) : List Rec :=
  (h.stream.reserve.filter fun x => h.pair.released.any (·.1 == x.record.seq)).map (·.record)

/-- After the final tick of a drain only RESPONSE records are released (17 R429). -/
def cutAfterFinal (h : Hub) : Hub :=
  if (match h.power.drain with | some d => d.finalReleased | none => false) then
    { h with stream.due := h.stream.due.filter (·.ty == 9) }
  else h

/-- Releases what is due, with the headers of windows. -/
def releaseAll (h : Hub) : Hub :=
  let h := releaseDue (cutAfterFinal h)
  (releasedNow h).foldl noteHeader h

end Sys2Proof.Machine
end

