-- ==== Sys2Proof/Machine/Pair.lean ====
section
/-! DEFINITION. The shadow as the active sends it tick by tick, with its snapshot (12 R301 to R305, R311, R312). -/

namespace Sys2Proof.Machine

/-! ## Units of a tick (R302) -/

/-- STATUS, sent by both hubs at every tick. -/
def sendStatus (h : Hub) : Hub :=
  if h.pair.paired then
    sendUnit 7 0 (streamTick h) (leNat 1 (pairStateCode h.pair.state) ++ leNat 1 (b2n (inEclipse h) + 2 * b2n h.pair.grant) ++
      leNat 2 h.time.epoch ++ zeros 4 ++ leNat 8 h.stream.nextSeq) h
  else h

/-- Words of a tile in a frame, in channel and slot order. -/
def tileWords (f : Frame) (t : Nat) : List Word := (f.words.filter fun x => tileOfCh x.1 == t).flatMap (·.2)

/-- A RAW body. -/
def rawBody (f : Frame) (t : Nat) : Bytes := stampBytes f.stamp ++ (tileWords f t).flatMap fun w => leNat 4 w.toNat

/-- RAW of a closed frame, its words as stage 3 left them. -/
def sendRaw (f : Frame) (h : Hub) : Hub :=
  (List.range 4).foldl (fun h t => sendUnit 1 t (toStream h f.n) (rawBody f t) h) h

/-- A VERDICT body. -/
def verdictBody (h : Hub) (vs : List Verdict) : Bytes :=
  leNat 4 vs.length ++ zeros 4 ++ vs.flatMap fun v =>
    leNat 8 (toStream h v.frame) ++ leNat 2 v.ch ++ leNat 2 v.first ++ leNat 2 v.slots ++ leNat 1 v.status ++ leNat 1 v.cause

/-- The verdicts of an interval that meet their deadline at a tick. -/
def timelyVerdicts (n : Nat) (vs : List Verdict) (h : Hub) : List Verdict :=
  vs.filter fun v => h.frames.any fun f => f.n == v.frame && decide (n ≤ f.n + f.v)

/-- An EVENT body. -/
def eventBody (h : Hub) (cs : List Cand) : Bytes :=
  leNat 2 cs.length ++ zeros 6 ++ cs.flatMap fun c =>
    leNat 1 c.unit ++ leNat 1 (fSource (unitDesc h c.unit)) ++ zeros 6 ++
      stampBytes (candStamp h c)

/-- Types that RECORD units carry whole: OCCULTATION, TIME_NOTICE, JOURNAL_MIRROR, RESPONSE. -/
def sentWhole (ty : Nat) : Bool := [5, 7, 8, 9].contains ty

/-- A DIGEST body. -/
def digestBody (h : Hub) : Bytes :=
  let first := ((h.pair.released.head?).map (·.1)).getD h.stream.nextSeq
  leNat 8 first ++ leNat 4 h.pair.released.length ++ zeros 4 ++ h.pair.released.flatMap fun x => leNat 4 x.2.toNat

/-- The units of a tick after its release, and the mark its records wait for (R305). -/
def sendLive (raw : Option Frame) (vs : List Verdict) (events : List Cand) (h : Hub) : Hub :=
  let h := { h with pair.applied := ((h.time.tick, vs) :: h.pair.applied).take 5 }
  if !shadowing h then h
  else
    let t := streamTick h
    let h := match raw with | some f => sendRaw f h | none => h
    let h := sendUnit 2 0 t (verdictBody h vs) h
    let h := sendUnit 6 0 t (eventBody h events) h
    let h := sendUnit 4 0 t (((releasedNow h).filter fun r => sentWhole r.ty).flatMap (recBytes h)) h
    let h := sendUnit 5 0 t (digestBody h) h
    { h with pair.marks := (h.pair.marks.filter fun m => decide (h.pair.coveredCells < m.2)) ++ [(h.time.tick, h.pair.queuedCells)] }

/-! ## The snapshot (R311, R312) -/

/-- A section with its header. -/
def snapSection (code format : Nat) (content : Bytes) : Bytes :=
  leNat 1 code ++ zeros 1 ++ leNat 2 format ++ leNat 4 (16 + content.length) ++ zeros 8 ++ content

/-- A unit header with its body, as it stands inside section 5. -/
def unitBytes (kind tile tick : Nat) (body : Bytes) : Bytes :=
  leNat 1 kind ++ leNat 1 tile ++ zeros 2 ++ leNat 4 (16 + body.length) ++ leNat 8 tick ++ body

/-- Section 1. -/
def snapStream (h : Hub) : Bytes :=
  leNat 8 (streamTick h) ++ leNat 8 h.stream.nextSeq ++ leNat 4 h.flash.seqBlock ++ leNat 2 h.time.epoch ++
    leNat 1 h.time.tCode ++ leNat 1 h.time.v ++ zeros 8

/-- Section 2. -/
def snapConfig (h : Hub) : Bytes :=
  (currentMsgs (streamTick h) h.flash.accepted).flatMap fun x => commandBody x.1 x.2.1 x.2.2

/-- Section 3: ascending ORIGIN, then KEY_SLOT. -/
def snapCounters (h : Hub) : Bytes :=
  (sortBy (fun e : CtrEntry => e.origin.toNat * 256 + e.slot) h.mbx.counters).flatMap fun e =>
    leNat 4 e.origin.toNat ++ leNat 1 e.slot ++ zeros 3 ++ leNat 8 e.counter

/-- Section 5. -/
def snapWindow (h : Hub) : Bytes :=
  ((h.frames.filter fun f => decide (f.n < h.time.tick)).flatMap fun f =>
    (List.range 4).flatMap fun t => unitBytes 1 t (toStream h f.n) (rawBody f t)) ++
  (rangeFrom (h.time.tick - h.time.v) (min h.time.v h.time.tick + 1)).flatMap fun t =>
    verdictBody h (((h.pair.applied.find? (·.1 == t)).map (·.2)).getD [])

/-- Section 8. -/
def snapStats (h : Hub) : Bytes :=
  windowBytes h { object := 3 } 0 524288 ++
    ((List.range 8).filter fun d => cPersist (defDesc h d)).flatMap fun d =>
      windowBytes h { object := 4, def_ := d } 0 (524288 * (cChans (defDesc h d)).length)

/-- The body of SNAPSHOT. -/
def snapBody (h : Hub) : Bytes :=
  snapSection 1 1 (snapStream h) ++ snapSection 2 1 (snapConfig h) ++ snapSection 3 1 (snapCounters h) ++
    snapSection 4 1 (ledgerPayload h (List.range 512)) ++ snapSection 5 1 (snapWindow h) ++
    snapSection 6 (Config.sectionFormat 6).toNat (Config.reductionImage h.pair.offset h.arr) ++
    snapSection 7 (Config.sectionFormat 7).toNat (Config.captureImage h) ++ snapSection 8 1 (snapStats h)

/-- At the snapshot tick: SNAPSHOT leaves, live units follow from here, and what the reserve holds is to be copied. -/
def sendSnapshot (h : Hub) : Hub :=
  if h.pair.snapshot = some h.time.tick ∧ (linkAt h 2).up then
    let h := sendUnit 10 0 (streamTick h) (snapBody h) h
    { h with pair.snapshot := none, pair.live := true, pair.copyLeft := h.stream.reserve.map (·.record.seq) }
  else h

/-- A RESERVE body of one record, or of none where the copy has ended (log 26). -/
def reserveBody (h : Hub) (x : Option Held) : Bytes :=
  match x with
  | some x => leNat 8 x.record.seq ++ leNat 4 1 ++ zeros 4 ++ recBytes h x.record
  | none => leNat 8 h.stream.nextSeq ++ leNat 4 0 ++ zeros 4

/-- SHADOW cells that wait on lane P. -/
def shadowWaiting (h : Hub) : Nat := ((linkAt h 2).outQ.getD 4 []).length

/-- Copies held records, oldest first, while lane P keeps room for live units. -/
def copyFuel : Nat → Hub → Hub
  | 0, h => h
  | n + 1, h =>
    match h.pair.copyLeft with
    | [] => h
    | q :: qs =>
      if 4096 < shadowWaiting h then h
      else
        let h := { h with pair.copyLeft := qs }
        let h := match h.stream.reserve.find? (·.record.seq == q) with
          | some x => sendUnit 11 0 (streamTick h) (reserveBody h (some x)) h
          | none => h
        copyFuel n (if qs.isEmpty then sendUnit 11 0 (streamTick h) (reserveBody h none) h else h)

/-- A tick's part of the copy; a reserve that held nothing ends it at once. -/
def copyReserve (h : Hub) : Hub :=
  if h.pair.live && (linkAt h 2).up then copyFuel h.pair.copyLeft.length h else h

/-- Snapshot and copy at the end of a tick. -/
def copyTick (h : Hub) : Hub :=
  let asked := h.pair.snapshot == some h.time.tick
  let h := sendSnapshot h
  if asked && h.pair.copyLeft.isEmpty && h.pair.live then sendUnit 11 0 (streamTick h) (reserveBody h none) h else copyReserve h

/-- A standby's journal records go to the active (R302). -/
def sendJournal (h : Hub) : Hub :=
  let js := h.flash.journal.filter fun j => decide (h.flash.mirrored ≤ j.index) && !j.torn
  if js.isEmpty || !(linkAt h 2).up then h
  else
    let last := js.foldl (fun m j => max m (j.index + 1)) h.flash.mirrored
    let h := (mirrorCut js.length js).foldl (fun h r =>
      sendUnit 9 0 (streamTick h) (leNat 2 (fieldAt r.payload 8 2) ++ zeros 6 ++ r.payload.drop 16) h) h
    { h with flash.mirrored := last }

end Sys2Proof.Machine
end

