-- ==== Sys2Proof/Machine/Standby.lean ====
section
/-! DEFINITION. The standby of a pair: what it makes of shadow units, its settling and its records, resynchronisation
(12 R302 to R306, R311 to R313; log 26). -/

namespace Sys2Proof.Machine

/-- Runs a change as at one of the hub's own ticks. -/
def atTick (t : Nat) (f : Hub → Hub) (h : Hub) : Hub :=
  let i := h.time.tickInst - ((h.time.tick : Int) - t) * tickLen h.time.tCode
  let x := f { h with time.tick := t, time.tickInst := i }
  { x with time.tick := h.time.tick, time.tickInst := h.time.tickInst }

/-- The active partner is in the eclipse state. -/
def partnerEclipsed (h : Hub) : Bool := (h.pair.partner.map (·.eclipse)).getD false

/-- The partner shows ACTIVE or ACTIVE_SOLO on lane P. -/
def partnerActive (h : Hub) : Bool :=
  (linkAt h 2).up && match h.pair.partner with | some p => decide (p.state < 2) | none => false

/-- The standby takes live units: it has the snapshot they follow. -/
def follows_ (h : Hub) : Bool := h.pair.state == .shadowing || (h.pair.state == .resyncing && h.pair.snapped)

/-! ## RAW (R302, R303) -/

/-- Words of a body. -/
def bodyWords (b : Bytes) : List Word := (chunks 4 b).map fun x => BitVec.ofNat 32 (ofLe x)

/-- The channels of a tile with slots in a frame, and how many. -/
def tileSlots (h : Hub) (f : Frame) (t : Nat) : List (Nat × Nat) := (gridTable h f).filter fun x => tileOfCh x.1 == t

/-- Deals words to channels in order. -/
def dealWords : List (Nat × Nat) → List Word → List (Nat × List Word)
  | [], _ => []
  | (c, n) :: xs, ws => (c, ws.take n) :: dealWords xs (ws.drop n)

/-- What a channel's new words tell: the sequence goes on, and RETIRED slots show a retired channel. -/
def noteWords (h : Hub) (x : Nat × List Word) : Hub :=
  match x.2.getLast? with
  | none => h
  | some w => updChan x.1 (fun c => { c with
      seq := (c.seq + x.2.length + 8) / 8 * 8 - 8 + (wSeq w + 1), retired := wStatus w == sRetired }) h

/-- Sets the stamp of a frame, of the mark of its opening tick and of the SUMMARY records that carry it. -/
def setStamp (n : Nat) (st : Stamp) (h : Hub) : Hub :=
  let old := (h.arr.marks.find? (·.tick == n)).map (·.stamp)
  { h with
    frames := h.frames.map fun f => if f.n = n then { f with stamp := st } else f
    arr.marks := h.arr.marks.map fun m => if m.tick = n then { m with stamp := st } else m
    arr.provQ := h.arr.provQ.map fun e => if e.frame + 1 = n then { e with stamp := st } else e
    stream.due := h.stream.due.map fun r => if r.order = 4 ∧ some r.stamp = old then { r with stamp := st } else r
    pair.rawStamp := st }

/-- Takes a RAW unit into a frame of the raw window. -/
def takeRaw (f : Frame) (tile : Nat) (body : Bytes) (h : Hub) : Hub :=
  let st := stampFrom (body.take 16)
  let ws := bodyWords (body.drop 16)
  let slots := tileSlots h f tile
  if (body.length < 16 ∨ body.length % 4 ≠ 0 ∨ 3 < tile) ∨ (!ws.isEmpty && ws.length != sumNat (slots.map (·.2))) then shadowLost h
  else if tickLen f.tCode < 2 * ((st.inst - f.stamp.inst).natAbs : Int) then shadowLost h
  else
    let new := if ws.isEmpty then [] else dealWords slots ws
    let words := sortBy (·.1) (f.words.filter (fun x => tileOfCh x.1 != tile) ++ new)
    let h := { h with frames := h.frames.map fun x =>
      if x.n = f.n then { x with words := words, occulted := x.occulted || (ws.isEmpty && partnerEclipsed h) } else x }
    let h := setStamp f.n st (new.foldl noteWords h)
    let tiles := (f.n, tile) :: h.pair.rawTiles.filter fun x => decide (f.n ≤ x.1 + 8)
    let whole := (List.range 4).all fun t => tiles.contains (f.n, t)
    { h with pair.rawTiles := tiles, pair.lastRaw := if whole then some f.n else h.pair.lastRaw }

/-- RAW of one of the hub's own frames. -/
def rawUnit (n tile : Nat) (body : Bytes) (h : Hub) : Hub :=
  match h.frames.find? (·.n == n) with
  | some f => takeRaw f tile body h
  | none => shadowLost h

/-! ## Settling and releasing (R306) -/

/-- Settles what is due at one of its own ticks, flares kept for the tick's EVENT unit. -/
def settleAt (m : Nat) (h : Hub) : Hub :=
  if m ≤ h.pair.settledTick then h
  else
    atTick m (fun h =>
      let r := settleDue m h
      { r.1 with
        pair.settledTick := m
        pair.flares := r.1.pair.flares ++ r.2.map fun c => (m, c) }) h

/-- Settles the next tick's frames at the hub's own tick, once the verdicts of the tick before have arrived. -/
def settleReady (h : Hub) : Hub :=
  let m := h.pair.doneTick + 1
  if follows_ h && decide (m ≤ h.time.tick) && (match h.pair.lastVerdict with | some v => decide (m ≤ v + 1) | none => false) then
    settleAt m h
  else h

/-- The stamp of one of its own ticks on the active's timebase, before the RAW unit that carries it: the instant by the grid, the
quality of the latest RAW unit (log 26). -/
def shadowStamp (h : Hub) : Stamp :=
  match (h.arr.marks.find? (·.tick == h.time.tick)).map (·.stamp) with
  | some s => if s == h.pair.rawStamp then s
      else { epoch := h.time.epoch, inst := s.inst, quality := h.pair.rawStamp.quality }
  | none => { epoch := h.time.epoch, inst := h.time.tickInst, quality := h.pair.rawStamp.quality }

/-- Withdraws the records a shadowed OCCULTATION names (R306). -/
def withdrawNamed (r : Rec) (h : Hub) : Hub :=
  let p := r.payload
  if r.ty ≠ 5 || !bitOf (fieldAt p 1 1) 0 then h
  else
    let lo := fieldAt p 8 8
    let hi := fieldAt p 16 8
    let w := withdraw (fieldAt p 0 1) (fun x => droppable x.record && decide (lo ≤ x.record.seq ∧ x.record.seq ≤ hi))
      { h with stream.due := [] }
    { w with stream.due := h.stream.due }

/-- Records that a shadowed OCCULTATION withdraws before their copies have come leave the ones to copy (log 26). -/
def withdrawUncopied (p : Bytes) (held : Nat) (h : Hub) : Hub :=
  let n := min h.stream.uncopied (fieldAt p 4 4 - held)
  { h with stream.withdrawn := h.stream.withdrawn + n, stream.uncopied := h.stream.uncopied - n }

/-- A shadowed OCCULTATION with the slots it counts: those of the records it names, or of the frames the active did not measure. -/
def countNamed (h : Hub) (r : Rec) : Rec × Hub :=
  if r.ty ≠ 5 then (r, h)
  else
    let p := r.payload
    if bitOf (fieldAt p 1 1) 0 then
      let gone := (h.stream.reserve.filter fun x => droppable x.record &&
        decide (fieldAt p 8 8 ≤ x.record.seq ∧ x.record.seq ≤ fieldAt p 16 8)).map (·.record)
      let slots := (gone.filter (·.ty == 1)).foldl (fun t x => addSlots t (recSlots x)) []
      ({ r with names := gone.map (·.seq), occSlots := slots }, withdrawUncopied p gone.length (withdrawNamed r h))
    else
      match h.stream.eclSpan with
      | some e => ({ r with occSlots := e.slots }, { h with stream.eclSpan := none })
      | none => (r, h)

/-- The RECORD units of a tick, their occultations taken into account. -/
def namedRecords : List Rec → Hub → List Rec × Hub
  | [], h => ([], h)
  | r :: rs, h =>
    let x := countNamed h r
    let y := namedRecords rs x.2
    (x.1 :: y.1, y.2)

/-- Releases the records of one of its own ticks into the reserve and the ledger. -/
def releaseShadow (h : Hub) : Hub :=
  let n := h.time.tick
  let own := h.stream.due.filter fun r => !sentWhole r.ty
  let x := namedRecords ((h.pair.records.filter fun x => decide (x.1 ≤ n)).map (·.2)) { h with stream.due := own }
  let st := match x.1.find? fun r => r.order != 3 && r.order != 4 with | some r => r.stamp | none => shadowStamp h
  let h := { x.2 with
    pair.records := x.2.pair.records.filter fun y => decide (n < y.1)
    pair.released := [] }
  let all := sortBy releaseKey (h.stream.due ++ x.1)
  let h := all.foldl (assignAt st) { h with stream.due := [] }
  (releasedNow h).foldl noteHeader h

/-- Flares, captures, acknowledgements and records of one of its own ticks. -/
def finishAt (m : Nat) (h : Hub) : Hub :=
  let h := settleAt m h
  atTick m (fun h =>
    let mine := (h.pair.flares.filter fun x => decide (x.1 ≤ m)).map (·.2)
    let now := h.cap.now.filter fun x => decide (h.time.tickInst ≤ x.2)
    let e := eventFlares { h with cap.now := [] }
    let h := flaresOfTick (mine ++ e.2) { e.1 with
      pair.flares := e.1.pair.flares.filter fun x => decide (m < x.1)
      cap.events := [], cap.now := now }
    let h := releaseShadow (ledgerAt (toStream h m) (applyAcks (revokeOverwritten h)))
    { h with pair.doneTick := m, stream.retx := [] }) h

/-- Brings what is settled and released up to a tick without a DIGEST: the takeover's last records. -/
def finishFuel : Nat → Nat → Hub → Hub
  | 0, _, h => h
  | n + 1, m, h => if h.pair.doneTick < m then finishFuel n m (finishAt (h.pair.doneTick + 1) h) else h

/-! ## VERDICT, EVENT, RECORD, DIGEST (R302, R306) -/

/-- A verdict of 16 bytes. -/
def verdictFrom (h : Hub) (b : Bytes) : Verdict :=
  { frame := fromStream h (fieldAt b 0 8), ch := fieldAt b 8 2, first := fieldAt b 10 2, slots := fieldAt b 12 2
    status := fieldAt b 14 1, cause := fieldAt b 15 1 }

/-- A verdict entry keeps its layout: a channel there is, a slot or more, a status that verdicts set, a cause that is not reserved
(02 R34). -/
def verdictOk (v : Verdict) : Bool :=
  decide (v.ch < 512 ∧ 1 ≤ v.slots ∧ v.cause < 3) && [sInvalid, sRecovering, sSettling].contains v.status

/-- The verdicts of tick m: the frame before it closes, they are applied, and the array follows. -/
def verdictUnit (m : Nat) (body : Bytes) (h : Hub) : Hub :=
  let vs := (chunks 16 (body.drop 8)).map (verdictFrom h)
  if body.length ≠ 8 + 16 * fieldAt body 0 4 || fieldAt body 4 4 != 0 || !vs.all verdictOk then shadowLost h
  else if (match h.pair.lastRaw with | some r => decide (r + 1 < m) | none => decide (0 < m)) then shadowLost h
  else
    let h := atTick m (fun h =>
      let a := applyVerdicts m vs (closeFrame (m - 1) (activateDue m h))
      activationDone m (arrPrune (arrClose a.2 a.1))) h
    settleReady { h with pair.lastVerdict := some m, pair.applied := ((m, vs) :: h.pair.applied).take 5 }

/-- `TimeSt.shift` of the timebase of an epoch of the pair's stream: that of a frame stamped with it. -/
def epochShift (h : Hub) (e : Nat) : Inst :=
  (((h.cap.ring ++ h.frames).find? (·.stamp.epoch == e)).map (·.shift)).getD h.time.shift

/-- The event flares of tick m. -/
def eventUnit (m : Nat) (body : Bytes) (h : Hub) : Hub :=
  let entries := chunks 24 (body.drop 8)
  let ok (b : Bytes) : Bool := decide (fieldAt b 0 1 < 16 ∧ 4 ≤ fieldAt b 1 1 ∧ fieldAt b 1 1 ≤ 7 ∧ fieldAt b 2 6 = 0)
  if body.length ≠ 8 + 24 * fieldAt body 0 2 || fieldAt body 2 6 != 0 || !entries.all ok then shadowLost h
  else
    let es := entries.map fun b =>
      let st := stampFrom (b.drop 8)
      ({ unit := fieldAt b 0 1, inst := st.inst, epoch := st.epoch, due := m
         shift := if fieldAt b 1 1 = 6 then none else some (epochShift h st.epoch) } : EventFlare)
    { h with cap.events := es }

/-- The place of a record type in the order of release (09 R204). -/
def orderOf (ty : Nat) : Nat := [0, 3, 4, 5, 6, 2, 7, 1, 8, 9].getD ty 9

/-- A record from its bytes, header to trailer. -/
def recFrom (b : Bytes) : Rec :=
  { ty := fieldAt b 0 4 % 64, late := bitOf (fieldAt b 0 4) 6, order := orderOf (fieldAt b 0 4 % 64), seq := fieldAt b 8 8
    stamp := stampFrom ((b.drop 16).take 16), payload := (b.drop 32).take (b.length - 36) }

/-- Splits bytes into records by LENGTH; none where they do not end with one. -/
def splitRecs : Nat → Bytes → Option (List Bytes)
  | 0, b => if b.isEmpty then some [] else none
  | n + 1, b =>
    if b.isEmpty then some []
    else
      let len := fieldAt b 0 4 / 1024
      if len < 36 ∨ b.length < len then none else (splitRecs n (b.drop len)).map fun r => b.take len :: r

/-- Change records in a partner's journal that carry a message's counter raise the counter table (13 R326, 15 R391). -/
def raiseFrom (h : Hub) (j : Bytes) : Hub :=
  let slot := fieldAt j 31 1
  if fieldAt j 6 1 = 0 ∧ fieldAt j 30 1 < 8 ∧ (slot < 8 ∨ slot = 0xFE) ∧ fieldAt j 36 8 ≠ 0 then
    raiseCounter (BitVec.ofNat 32 (fieldAt j 32 4)) slot (fieldAt j 36 8) h
  else h

/-- The records of tick m that the active sends whole. -/
def recordUnit (m : Nat) (body : Bytes) (h : Hub) : Hub :=
  match splitRecs body.length body with
  | none => shadowLost h
  | some bs =>
    let rs := bs.map recFrom
    let h := (rs.filter (·.ty == 8)).foldl (fun h r => (chunks 64 (r.payload.drop 16)).foldl raiseFrom h) h
    { h with pair.records := h.pair.records ++ rs.map fun r => (m, r) }

/-- The DIGEST of tick m: its records are released and compared. -/
def digestUnit (m : Nat) (body : Bytes) (h : Hub) : Hub :=
  let n := fieldAt body 8 4
  if body.length ≠ 16 + 4 * n || fieldAt body 12 4 != 0 then shadowLost h
  else if (match h.pair.lastVerdict with | some v => decide (v < m) | none => true) then shadowLost h
  else
    let h := finishFuel (m - h.pair.doneTick) m h
    let trailers := (bodyWords (body.drop 16)).map fun w => w
    let first := ((h.pair.released.head?).map (·.1)).getD h.stream.nextSeq
    if first = fieldAt body 0 8 ∧ h.pair.released.map (·.2) = trailers then settleReady { h with pair.digestOk := true }
    else toResync true (raiseNow 0xC3 0 0 0 h)

/-! ## COMMAND (R304) -/

/-- A message's own bytes at the front of some: header, payload and tag. -/
def msgLength (b : Bytes) : Nat := 32 + fieldAt b 10 2 + if bitOf (fieldAt b 1 1) 0 then 16 else 0

/-- What accepted late takes effect at once: the open frame has the configuration of its tick. -/
def catchUp (h : Hub) : Hub :=
  if h.changes.any fun c => decide (c.tick ≤ h.time.tick) then
    let h := applyChanges h.time.tick h.time.tickInst h
    { h with frames := h.frames.map fun f => if f.n = h.time.tick then frameNow f h else f }
  else h

/-- Applies a shadowed command as the active accepted it in the interval of one of the hub's own ticks; its origin, key slot and
counter are recorded as accepted, and it is answered by the active alone. -/
def commandUnit (m : Nat) (body : Bytes) (h : Hub) : Hub :=
  let mb := fieldAt body 8 1
  let msg := body.drop 16
  match parseMsg mb msg with
  | none => shadowLost h
  | some (code, r) =>
    if body.length ≠ 16 + msgLength msg || fieldAt body 9 7 != 0 || decide (5 < mb) || !isShadowed code then shadowLost h
    else
      let h := if isCritical r then raiseCounter r.origin r.keySlot.toNat r.counter.toNat h else h
      match cmdOf code with
      | none => h
      | some f =>
        catchUp (atTick m (fun h =>
          match f { code := code, req := r } h with
          | .error _ => h
          | .ok (p, h') =>
            noteAccepted (fieldAt body 0 8) mb msg (if isCritical r then acceptRec code r p h' else h')) h)

/-! ## SNAPSHOT and RESERVE (R311, R312) -/

/-- The sections of a snapshot by code, up to one that breaks its layout. -/
def sectionsOf : Nat → Bytes → List (Nat × Nat × Bytes)
  | 0, _ => []
  | n + 1, b =>
    let len := fieldAt b 4 4
    if b.length < 16 ∨ len < 16 ∨ b.length < len ∨ fieldAt b 1 1 ≠ 0 ∨ fieldAt b 8 8 ≠ 0 then []
    else (fieldAt b 0 1, fieldAt b 2 2, (b.take len).drop 16) :: sectionsOf n (b.drop len)

/-- A section's content. -/
def sectionAt (ss : List (Nat × Nat × Bytes)) (code : Nat) : Bytes := ((ss.find? (·.1 == code)).map (·.2.2)).getD []

/-- The COMMAND bodies of section 2. -/
def splitMsgs : Nat → Bytes → List (Nat × Nat × Bytes)
  | 0, _ => []
  | n + 1, b =>
    if b.length < 48 ∨ fieldAt b 9 7 ≠ 0 then []
    else
      let len := msgLength (b.drop 16)
      (fieldAt b 0 8, fieldAt b 8 1, (b.drop 16).take len) :: splitMsgs n (b.drop (16 + len))

/-- The items a configuration message sets. -/
def itemsOf (m : Bytes) : List Item :=
  let p := msgPayload m
  let first := fieldAt p 8 2
  let arg := fieldAt p 16 8
  let es (n : Nat) : List Bytes := chunks n (p.drop 24)
  match msgCode m with
  | 0x0100 => mapI (fun i e => .chan (first + i) (BitVec.ofNat 64 (ofLe e))) (es 8)
  | 0x0101 => .supply (arg % 65536) (arg / 65536) :: mapI (fun i e => .group (first + i) (BitVec.ofNat 64 (ofLe e))) (es 8)
  | 0x0102 => [.remap (fieldAt p 0 2) (fieldAt p 2 1 == 0)]
  | 0x0103 => ((List.range 8).filter (bitOf (fieldAt p 1 1))).map fun i => .revive (8 * fieldAt p 0 1 + i)
  | 0x0300 => [.cal (BitVec.ofNat 64 arg)]
  | 0x0500 => mapI (fun i e => .flare (first + i) e) (es 32)
  | 0x0501 => mapI (fun i e => .capture (first + i) e) (es 96)
  | 0x0504 => [.clearStats (fieldAt p 0 1)]
  | 0x0600 => [.comp (BitVec.ofNat 64 arg) ((es 2).map fun e => BitVec.ofNat 16 (ofLe e))]
  | 0x0603 => [.outlets (BitVec.ofNat 64 arg)]
  | 0x0C00 => .loopV arg :: mapI (fun i e => .loop (first + i) e) (es 16)
  | _ => []

/-- The CAPTURE_MIB a CFG_CAPTURE message stores, 0 for no change. -/
def mibOf (m : Bytes) : Nat := if msgCode m = 0x0501 && !msgStaged m then fieldAt (msgPayload m) 16 2 else 0

/-- The shadowed part of a configuration at its reset values. -/
def shadowReset (c : Cfg) : Cfg :=
  let z : Cfg := {}
  { c with
    chan := z.chan, group := z.group, excMin := 0, excMax := 0, cal := z.cal, hkSeq := z.hkSeq, graph := z.graph
    flare := z.flare, capture := z.capture, comp := z.comp, map := z.map, outlets := z.outlets, loop := z.loop, loopV := 0 }

/-- The stored configuration at the reset values of what shadowed commands store. -/
def storeReset (c : Cfg) : Cfg :=
  let z : Cfg := {}
  { shadowReset c with tCode := z.tCode, v := z.v, captureMib := z.captureMib }

/-- Applies one accepted message of the snapshot of stream tick s. -/
def replayMsg (s : Nat) (h : Hub) (x : Nat × Nat × Bytes) : Hub :=
  let m := x.2.2
  let code := msgCode m
  let origin := BitVec.ofNat 32 (fieldAt m 4 4)
  let items := itemsOf m
  let p := msgPayload m
  if msgStaged m then
    { dropStaged origin code h with
      staged := (dropStaged origin code h).staged ++ [⟨origin, code, addItems (stagedItems h origin code) items⟩] }
  else
    let all := addItems (stagedItems h origin code) items
    let h := dropStaged origin code h
    let mib := mibOf m
    let h := { h with flash.store := (storedItems (fromStream h x.1) all h).foldl (fun c i => cfgItem i c) h.flash.store }
    let h := if mib = 0 then h else { h with flash.store.captureMib := mib }
    if code = 0x0303 then
      let seq := (chunks 4 (p.drop 24)).map fun e => BitVec.ofNat 32 (ofLe e)
      { h with cfg.hkSeq := seq, flash.store.hkSeq := seq }
    else if code = 0x0200 then
      let arg := fieldAt p 16 8
      let t := bitsOf arg 51 48
      let v := bitsOf arg 54 52
      let b := if arg % 2 ^ 48 = 0 then
          ((h.time.tickInst + ((x.1 : Int) - s) * tickLen h.time.tCode) / secUnits).toNat else arg % 2 ^ 48
      let h := if s < x.1 then addRate b t v h else h
      let last := (h.time.newTicks.getLast?.map (·.2)).getD (t, v)
      { h with flash.store.tCode := last.1, flash.store.v := last.2 }
    else if x.1 ≤ s then
      let h := { h with cfg := all.foldl (fun c i => cfgItem i c) h.cfg }
      all.foldl (fun h i => match i with
        | .remap c undo => updChan c (fun y => { y with remapped := !undo }) h
        | _ => h) h
    else schedule (fromStream h x.1) all h

/-- Section 4: the stream's counts and every channel's. -/
def takeLedger (b : Bytes) (h : Hub) : Hub :=
  let h := { h with
    stream.assigned := fieldAt b 16 8, stream.acked := fieldAt b 24 8, stream.uncopied := fieldAt b 32 8
    stream.withdrawn := fieldAt b 40 8
    stream.firstSeq := fieldAt b 48 8, stream.ledgerFirst := false }
  (chunks 40 (b.drop 64)).foldl (fun h e => updChan (fieldAt e 0 2) (fun c => { c with
    retired := fieldAt e 3 1 == 1, created := fieldAt e 8 8, custody := fieldAt e 16 8, held := fieldAt e 24 8
    occulted := fieldAt e 32 8 }) h) h

/-- A section's FORMAT is one this hub reads: 1, and in sections 6 and 7 its firmware's own or the one before it. -/
def formatRead (code format : Nat) : Bool :=
  if code = 6 ∨ code = 7 then
    let own := (Config.sectionFormat code).toNat
    decide (format = own ∨ format + 1 = own)
  else format == 1

/-- The verdict bodies after the RAW units of section 5, with the hub's own ticks from t on. -/
def verdictBodies : Nat → Nat → Bytes → Hub → List (Nat × List Verdict)
  | 0, _, _, _ => []
  | n + 1, t, b, h =>
    let len := 8 + 16 * fieldAt b 0 4
    if b.length < 8 ∨ b.length < len then []
    else (t, (chunks 16 ((b.take len).drop 8)).map (verdictFrom h)) :: verdictBodies n (t + 1) (b.drop len) h

/-- Section 5's verdicts, those of the latest tick first. -/
def takeVerdicts (own v : Nat) (us : List (Nat × Nat × Bytes)) (b : Bytes) (h : Hub) : Hub :=
  let raw := sumNat (us.map fun u => 16 + u.2.2.length)
  { h with pair.applied := (verdictBodies (v + 1) (own - v) (b.drop raw) h).reverse }

/-- The RAW units at the front of section 5. -/
def rawUnits : Nat → Bytes → List (Nat × Nat × Bytes)
  | 0, _ => []
  | n + 1, b =>
    let len := fieldAt b 4 4
    if b.length < 32 ∨ fieldAt b 0 1 ≠ 1 ∨ fieldAt b 2 2 ≠ 0 ∨ len < 32 ∨ b.length < len then []
    else (fieldAt b 8 8, fieldAt b 1 1, (b.take len).drop 16) :: rawUnits n (b.drop len)

/-- Rebuilds the frames of the raw window. -/
def takeWindow (us : List (Nat × Nat × Bytes)) (h : Hub) : Hub :=
  let ticks := (us.map Prod.fst).eraseDups
  let mk (t : Nat) : Frame :=
    let st := ((us.find? (·.1 == t)).map fun u => stampFrom (u.2.2.take 16)).getD {}
    frameNow { n := fromStream h t, stamp := st, tCode := h.time.tCode, v := h.time.v, len := tickLen h.time.tCode } h
  let fill (f : Frame) : Frame :=
    { f with words := sortBy (·.1) ((us.filter fun u => fromStream h u.1 == f.n).flatMap fun u =>
        let ws := bodyWords (u.2.2.drop 16)
        if ws.isEmpty then [] else dealWords (tileSlots h f u.2.1) ws) }
  let fs := ticks.map fun t => fill (mk t)
  let first := (fs.map (·.n)).foldl max 0 + 1
  let h := fs.foldl (fun h f => f.words.foldl noteWords h) h
  { h with frames := fs ++ (h.frames.filter fun f => decide (first ≤ f.n)).map fun f => frameNow f h }

/-- Section 8: histograms, then the maps. -/
def takeStats (b : Bytes) (h : Hub) : Hub :=
  let words (off n : Nat) : List (Nat × Nat) :=
    ((List.range n).map fun k => (k, fieldAt b (off + 4 * k) 4)).filter fun x => x.2 ≠ 0
  let hist := (words 0 131072).map fun x => ((x.1 / 256, x.1 % 256), x.2)
  let ds := (List.range 8).filter fun d => cPersist (defDesc h d)
  let step (acc : Nat × List ((Nat × Nat × Nat) × Nat)) (d : Nat) : Nat × List ((Nat × Nat × Nat) × Nat) :=
    let chs := cChans (defDesc h d)
    let n := 131072 * chs.length
    let cells := (words acc.1 n).flatMap fun x =>
      let ch := chs.getD (x.1 / 131072) 0
      [((d, ch, 2 * (x.1 % 131072)), x.2 % 65536), ((d, ch, 2 * (x.1 % 131072) + 1), x.2 / 65536)]
    (acc.1 + 4 * n, acc.2 ++ cells.filter fun x => x.2 ≠ 0)
  { h with cap.hist := hist, cap.maps := (ds.foldl step (524288, [])).2 }

/-- The encoder history of every channel, from the image of section 7. -/
def takeHistory (img : Bytes) (h : Hub) : Hub :=
  { h with chans := mapI (fun c x =>
      let e := Config.historyOfImage h.pair.offset img c
      { x with hist := e.1, seedDue := e.2.1, blockAt := e.2.2 }) h.chans }

/-- Sections 1 to 5 keep their layouts: their lengths, their reserved bits, and bodies that end with them. -/
def sectionsOk (ss : List (Nat × Nat × Bytes)) : Bool :=
  let a := sectionAt ss 1
  let b := sectionAt ss 2
  let c := sectionAt ss 3
  let d := sectionAt ss 4
  let e := sectionAt ss 5
  let msgs := splitMsgs b.length b
  let us := rawUnits e.length e
  let raw := sumNat (us.map fun u => 16 + u.2.2.length)
  let tail := verdictTail (min (fieldAt a 23 1) (fieldAt a 0 8) + 1) (e.drop raw)
  a.length == 32 && fieldAt a 24 8 == 0 &&
    sumNat (msgs.map fun m => 16 + m.2.2.length) == b.length &&
    msgs.all (fun m => m.2.2.length == msgLength m.2.2 && configCode (msgCode m.2.2)) &&
    c.length % 16 == 0 && (chunks 16 c).all (fun x => fieldAt x 5 3 == 0) &&
    d.length == 64 + 40 * 512 && fieldAt d 12 4 == 0 && decide (fieldAt d 8 2 < 4) && fieldAt d 10 2 == 512 &&
    us.length % 4 == 0 && us.all (fun u => decide (u.2.1 < 4) && u.2.2.length % 4 == 0) && tail == some 0
where
  /-- Bytes left after a number of VERDICT bodies; none where one breaks its layout. -/
  verdictTail : Nat → Bytes → Option Nat
    | 0, b => some b.length
    | n + 1, b =>
      let len := 8 + 16 * fieldAt b 0 4
      let vs := (chunks 16 ((b.take len).drop 8)).map (verdictFrom {})
      if b.length < 8 ∨ b.length < len ∨ fieldAt b 4 4 ≠ 0 ∨ !vs.all verdictOk then none else verdictTail n (b.drop len)

/-- Section 8 holds the histogram area and a map of every definition with PERSIST of the snapshot's configuration. -/
def statsOk (b : Bytes) (h : Hub) : Bool :=
  b.length == 524288 + 524288 *
    sumNat (((List.range 8).filter fun d => cPersist (defDesc h d)).map fun d => (cChans (defDesc h d)).length)

/-- The graph stored for the next first light: the one a pending activation names, else the one in force. -/
def storedGraph (a : Arr) : Graph := match a.activate with | some (gid, _) => graphNamed a gid | none => a.active

/-- Takes a SNAPSHOT: the hub's state of the stream becomes the active's at its tick s. -/
def takeSnapshot (body : Bytes) (h : Hub) : Hub :=
  let ss := sectionsOf 8 body
  if ss.map Prod.fst ≠ [1, 2, 3, 4, 5, 6, 7, 8] || !(ss.all fun x => formatRead x.1 x.2.1) || !sectionsOk ss ||
      sumNat (ss.map fun x => 16 + x.2.2.length) != body.length then shadowLost h
  else
    let before := h
    let a := sectionAt ss 1
    let s := fieldAt a 0 8
    let v := fieldAt a 23 1
    let tc := fieldAt a 22 1
    let us := rawUnits (sectionAt ss 5).length (sectionAt ss 5)
    let st := ((us.getLast?).map fun u => stampFrom (u.2.2.take 16)).getD { inst := h.time.tickInst }
    let inst := st.inst + if us.isEmpty then 0 else tickLen tc
    let own := ((h.time.tick : Int) + roundDiv (inst - h.time.tickInst) (tickLen h.time.tCode)).toNat
    let block := fieldAt a 16 4
    let h := if block = h.flash.seqBlock then h else jChange 0x3002 (leNat 4 block) h
    let h := { h with
      pair.offset := (s : Int) - own, pair.snapped := true, pair.rawStamp := st
      pair.settledTick := own, pair.doneTick := own, pair.lastVerdict := some own, pair.lastRaw := if own = 0 then none else some (own - 1)
      pair.flares := [], pair.records := [], pair.rawTiles := [], pair.early := []
      stream.nextSeq := fieldAt a 8 8, flash.seqBlock := block, time.epoch := fieldAt a 20 2, flash.epoch := fieldAt a 20 2
      time.tCode := tc, time.v := v
      cfg := shadowReset h.cfg, flash.store := storeReset h.flash.store, staged := []
      changes := h.changes.filter fun c => match c.item with
        | .time _ _ _ => true | .uplink _ => true | .fault _ _ => true | .selfMerge _ => true | .force _ _ _ => true | _ => false
      time.newTicks := []
      stream.due := [], stream.reserve := [], stream.acks := [], stream.retx := [], stream.resend := []
      stream.withdrawnBy := [], stream.freedFrames := [], stream.eclSpan := none }
    let msgs := splitMsgs (sectionAt ss 2).length (sectionAt ss 2)
    let h := msgs.foldl (replayMsg s) { h with flash.accepted := msgs }
    let h := (chunks 16 (sectionAt ss 3)).foldl (fun h e =>
      raiseCounter (BitVec.ofNat 32 (fieldAt e 0 4)) (fieldAt e 4 1) (fieldAt e 8 8) h) h
    let arr := Config.reductionOfImage h.pair.offset (sectionAt ss 6)
    let h := { h with arr := arr, cap := Config.captureOfImage h.pair.offset (sectionAt ss 7), cfg.graph := arr.active,
                        flash.store.graph := storedGraph arr }
    let h := takeVerdicts own (min v s) us (sectionAt ss 5) h
    let h := (List.range 512).foldl (fun h c =>
      loadSys c (updChan c (fun x => { x with rangeNow := dRange (chDesc h c) }) h)) (setPhases own inst h)
    if !statsOk (sectionAt ss 8) h then shadowLost before
    else takeStats (sectionAt ss 8) (takeHistory (sectionAt ss 7) (takeWindow us (takeLedger (sectionAt ss 4) h)))

/-- The FRAME record copied before the next one. -/
def lastCopied (h : Hub) : Option Rec := ((h.stream.reserve.filter fun x => x.record.ty == 1).getLast?).map (·.record)

/-- The history of a channel before its block in the next copied FRAME record, that of stream tick t: what the copied bodies before it leave.
It is lacking from a body on that was not copied, or was corrupt, until the channel's next block that could be decoded (08 R192). -/
def copiedHist (h : Hub) (t c : Nat) : Option (List Int) :=
  let x := (h.stream.reserve.filter (·.record.ty == 1)).foldl (fun acc x => (some (frameTick x.record), histPast acc.1 acc.2 x.record)) (none, none)
  if x.1.map (· + 1) = some t then x.2 else none
where
  /-- The stream tick of a FRAME record. -/
  frameTick (r : Rec) : Nat := fieldAt r.payload 0 8
  /-- The channel's history after a copied record, from that after the record of an earlier frame. -/
  histPast (last : Option Nat) (hist : Option (List Int)) (r : Rec) : Option (List Int) :=
    if r.blocks.length ≠ fieldAt r.payload 18 2 then none
    else
      match r.blocks.find? (·.ch == c) with
      | some b => if b.lost = 0 then some (histAfter b.hist (b.words.map wValue)) else none
      | none => if last.map (· + 1) = some (frameTick r) then hist else none

/-- The blocks of a copied FRAME record, decoded; none of a corrupt body. -/
def copiedBlocks (h : Hub) (r : Rec) : List BlockIn :=
  ((decodeBody (copiedHist h (fieldAt r.payload 0 8)) (r.payload.drop 16)).getD []).map fun d => { d.block with nb := mapNb h.cfg.map d.block.ch }

/-- The tick at which a copied record was released (log 26): a FRAME by its own number and V; any other from the FRAME copied before it, by
the instants and the tick rate since; without one from the latest tick released, by the tick rate in force. -/
def copiedTick (h : Hub) (r : Rec) : Int :=
  if r.ty = 1 then ownTick (fieldAt r.payload 0 8) + fieldAt r.payload 11 1 + 1
  else
    match lastCopied h with
    | some f =>
      let n := ownTick (fieldAt f.payload 0 8)
      max (n + fieldAt f.payload 11 1 + 1) (n + (r.stamp.inst - f.stamp.inst) / tickLen (fieldAt f.payload 10 1)
        + if r.ty = 2 then (fieldAt f.payload 11 1 : Int) else 0)
    | none =>
      (h.pair.doneTick : Int) - (pairTickInst - r.stamp.inst) / tickLen h.time.tCode + if r.ty = 2 then (h.time.v : Int) else 0
where
  /-- A stream tick by the hub's own count, which may lie before its tick 0. -/
  ownTick (t : Nat) : Int := (t : Int) - h.pair.offset
  /-- Instant of the latest tick whose records stand released. -/
  pairTickInst : Inst := h.time.tickInst - ((h.time.tick : Int) - h.pair.doneTick) * tickLen h.time.tCode

/-- A copied record enters the reserve in sequence order. -/
def takeCopy (h : Hub) (b : Bytes) : Hub :=
  let r := recFrom b
  let h := { h with
    stream.uncopied := h.stream.uncopied - 1
    stream.reserve := insertBy (·.record.seq) { record := framed h r, tick := copiedTick h r } h.stream.reserve }
  match namedSpan r with
  | some x => { h with stream.withdrawnBy := h.stream.withdrawnBy ++ [{ span := some x, occSeq := r.seq }] }
  | none => h
where
  /-- A FRAME record with its frame and blocks. -/
  framed (h : Hub) (r : Rec) : Rec :=
    if r.ty = 1 then
      { r with frame := some (fromStream h (fieldAt r.payload 0 8)), blocks := copiedBlocks h r }
    else r

/-- Slots of a channel that stand in provisional frames or in held records, as the ledger counts them (09 R212). -/
def heldSlots (h : Hub) (c : Nat) : Nat :=
  let closed := h.frames.filter fun f => decide (f.n < h.time.tick)
  let slots (r : Rec) : Nat := sumNat (((recSlots r).filter (·.1 == c)).map (·.2))
  sumNat (closed.map fun f => if f.occulted then 0 else (wordsOf f c).length) + sumNat (h.stream.due.map slots) +
    sumNat (h.stream.reserve.map fun x => slots x.record)

/-- The copy is complete: records that never came were freed by custody on the active while it ran, and their slots with them
(log 26). -/
def copyEnds (h : Hub) : Hub :=
  { h with
    pair.copyDone := true
    stream.acked := h.stream.acked + h.stream.uncopied
    stream.uncopied := 0
    chans := if h.stream.uncopied = 0 then h.chans
      else mapI (fun c x => { x with held := heldSlots h c, custody := x.created - x.occulted - heldSlots h c }) h.chans }

/-- RESERVE: copied records, or the end of the copy. -/
def reserveUnit (body : Bytes) (h : Hub) : Hub :=
  let n := fieldAt body 8 4
  match splitRecs (body.length - 16) (body.drop 16) with
  | none => shadowLost h
  | some bs =>
    if body.length < 16 || bs.length != n || fieldAt body 12 4 != 0 ||
        (match bs with | b :: _ => fieldAt b 8 8 != fieldAt body 0 8 | [] => false) then shadowLost h
    else if n = 0 then copyEnds h else bs.foldl takeCopy h

end Sys2Proof.Machine
end

