-- ==== Sys2Proof/Machine/Takeover.lean ====
section
/-! DEFINITION. The pair's roles: the grant, conflicts, takeover, release, the units a hub receives, resynchronisation as the standby
asks for it (12 R296, R298, R299, R302, R308 to R313, 17 R427, 09 R203, R230; log 26). -/

namespace Sys2Proof.Machine

/-! ## A new sequence block (09 R203, R230, 17 R430) -/

/-- The unacknowledged range that a forced-reset record of the latest block names: first, last, records held. The record is of that
block where the SEQ_BLOCK record before it is. -/
def forcedRange (h : Hub) : Option (Nat × Nat × Nat) :=
  match (h.flash.journal.filter fun j => !j.torn && j.kind == 0 && (j.code == 0x3002 || j.code == 0x3013)).reverse with
  | [] => none
  | j :: before =>
    let other := match before.find? (·.code == 0x3002) with | some b => fieldAt b.detail 0 4 != h.flash.seqBlock | none => false
    if j.code = 0x3013 && !other then some (fieldAt j.detail 0 4, fieldAt j.detail 4 4, fieldAt j.detail 8 4) else none

/-- Starts the block after the last one recorded, with the records that R230 places ahead of everything else. -/
def newBlock (tick : Nat) (st : Stamp) (h : Hub) : Hub :=
  let b := h.flash.seqBlock
  let base := b * 2 ^ 32
  let occ := match forcedRange h with
    | some (first, last, held) => occPayload 5 5 held (base + first) (base + last) 0 0 []
    | none => occPayload 5 1 0 base (base + 2 ^ 32 - 1) 0 0 []
  let h := jChange 0x3002 (leNat 4 (b + 1)) { h with
    flash.seqBlock := b + 1, stream.nextSeq := base + 2 ^ 32, stream.firstSeq := base + 2 ^ 32 }
  queueLedger (emit { ty := 5, order := 2, payload := occ } (timeNotice 5 tick st st h))

/-! ## Takeover (R308, R309) -/

/-- SETTLING on every slot of the held frames, L − V + 1 to R. -/
def heldVerdicts (h : Hub) : List Verdict :=
  match h.pair.lastVerdict, h.pair.lastRaw with
  | some l, some r =>
    (h.frames.filter fun f => decide (l < f.n + f.v ∧ f.n ≤ r)).flatMap fun f => f.words.map fun x =>
      { frame := f.n, ch := x.1, first := 0, slots := x.2.length, status := sSettling, cause := 0 }
  | _, _ => []

/-- The takeover verdict, issued in the interval before the takeover. -/
def issueTakeover (h : Hub) : Hub :=
  if isStandby h && h.pair.takeoverAt == some (h.time.tick + 1) then { h with verdicts := heldVerdicts h, pair.taken := true } else h

/-- Ledger and stream of a hub that takes over without a shadow in hand: a new block, every count at zero (17 R427). -/
def takeFresh (h : Hub) : Hub :=
  let f := h.frames.headD { n := h.time.tick, stamp := tickStamp h, tCode := h.time.tCode, v := h.time.v }
  newBlock (toStream h f.n) f.stamp { h with
    stream := { h.stream with due := [], reserve := [], assigned := 0, acked := 0, uncopied := 0, withdrawn := 0, withdrawnBy := []
                              freedFrames := [], acks := [], retx := [], resend := [], ledgerFirst := true, eclSpan := none }
    chans := h.chans.map fun c => { c with created := 0, custody := 0, held := 0, occulted := 0 } }

/-- The slots of an unmeasured frame, by the grid: created and lost. -/
def loseFrame (acc : List (Nat × Nat) × Hub) (f : Frame) : List (Nat × Nat) × Hub :=
  let t := gridTable acc.2 f
  (addSlots acc.1 t, bookCreated t (loseSlots f acc.2))

/-- Replays the held frames and closes those after them; frames before `redo` have been applied before. -/
def takeArr (redo from_ : Nat) (h : Hub) : Hub :=
  let a := h.arr
  let work := (h.frames.filter fun f => decide (from_ ≤ f.n ∧ f.n < h.time.tick)).filterMap fun f =>
    (a.marks.find? fun m => m.tick == f.n + 1).map fun m => (f, m)
  let start := match a.ckpts.find? (·.n == from_) with
    | some k => k.nodes
    | none => (graphFor a from_).nodes.map fun d => nodeRest d from_ true false
  { h with arr := { runFrames a redo work { a with nodes := start } with replays := a.replays + b2n (decide (from_ < redo)) } }

/-- The end of the shadow at the takeover tick: what is settled is released, the held frames take the takeover verdict, frames
without RAW are lost; the first of them, and their slots. -/
def takeClose (h : Hub) : (Nat × List (Nat × Nat)) × Hub :=
  let a := h.time.tick
  let l := h.pair.lastVerdict.getD 0
  let h : Hub := if h.pair.lastVerdict.isNone then takeFresh h else finishFuel (l + 1 - h.pair.doneTick) (l + 1) h
  let vs := h.verdicts
  let h : Hub := { h with
    verdicts := []
    frames := h.frames.map fun f => (vs.filter (·.frame == f.n)).foldl (fun f v => verdictOn v f) f }
  let first := ((h.frames.head?).map (·.n)).getD a
  let lost := match h.pair.lastRaw with | some r => max first (r + 1) | none => first
  let held := (h.frames.filter fun f => decide (l ≤ f.n ∧ f.n < lost ∧ f.n < a)).map (·.n)
  let h := held.foldl (fun h n => closeFrame n h) h
  let x := (h.frames.filter fun f => decide (lost ≤ f.n ∧ f.n < a)).foldl loseFrame ([], h)
  let h := (rangeFrom (l + 1) (a - l)).foldl (fun h t => activateDue t h) x.2
  ((lost, x.1), activationDone a (arrPrune (takeArr l first h)))

/-- The new active hub at the takeover tick. -/
def takeStart (lost : Nat) (slots : List (Nat × Nat)) (h : Hub) : Hub :=
  let a := h.time.tick
  let fresh := h.pair.lastVerdict.isNone
  let h := nextEpoch { dropShadow (abandonTurns h) with
    pair.state := if (linkAt h 2).up then .active else .activeSolo
    pair.takeoverAt := none, pair.taken := false
    stream.reserve := h.stream.reserve.map fun x => { x with copied := true } }
  let st := tickStamp h
  let h := eclipseOcc (timeNotice 0 (streamTick h) st st h)
  let h := emit { ty := 5, order := 2, occSlots := slots, payload := occPayload 4 2 0 0 0 (toStream h lost) (a - lost) slots } h
  let h := jChange 0x3010 (leNat 6 (streamTick h) ++ leNat 8 h.stream.nextSeq ++ leNat 2 h.time.epoch) h
  seedNext (List.range 512) (settleAll (powerUp { h with stream.ledgerDue := h.stream.ledgerDue || fresh }))

/-- TAKEOVER (R308): the takeover verdict of the interval before the takeover; the coming tick carries the takeover out. -/
def execTakeover (s : State) : Out := hubNext s (issueTakeover s.hub)

/-! ## Release (R310) -/

/-- Nothing more leaves through the lane and Ethernet outlets: what stands in their FIFOs goes, and the record on its way is cut off
with an ABORT. -/
def stopOutlets (h : Hub) : Hub :=
  let h := flushEth (flushLane (cutOwn (custodyLink h.cfg) h))
  { h with stream.resend := [], stream.retx := [] }

/-- Releases the active role at the coming tick. -/
def releaseRole (h : Hub) : Hub :=
  let h := jChange 0x3011 (leNat 6 (streamTick h + 1) ++ leNat 8 h.stream.nextSeq ++ leNat 2 h.time.epoch) (shutDown (stopOutlets h))
  toResync false (stopLive h)

/-- Nothing more leaves through the host outlet of a hub that has left the active role. -/
def leaveRole (before : Hub) (s : State) : State :=
  if isUp before && isActive before && !isActive s.hub then
    let seqs := s.host.fifo.seqs
    { s with hub := unsend (fun x => seqs.contains x.record.seq) s.hub, host.fifo := fifoFlush s.host.fifo }
  else s

/-- An active hub whose grant is deasserted releases its role. -/
def releaseIfRemoved (h : Hub) : Hub := if isActive h && h.pair.paired && !h.pair.grant then releaseRole h else h

/-- RELEASE (R310). -/
def execRelease (s : State) : Out := .next (leaveRole s.hub { s with hub := releaseIfRemoved s.hub })

/-! ## The grant and its conflicts (R298, R299) -/

/-- A standby that may take over: SHADOWING or DETACHED. -/
def mayTake (h : Hub) : Bool := isStandby h && (h.pair.state == .shadowing || h.pair.state == .detached)

/-- The partner shows that it waits with its grant: a standby, granted, that does not resynchronise. -/
def partnerWaits (h : Hub) : Bool :=
  (linkAt h 2).up && match h.pair.partner with | some p => p.granted && decide (2 ≤ p.state) && p.state != 3 | none => false

/-- Both hubs are granted: this one by its pin, the other by its STATUS: one of them is active. -/
def doubleGrant (h : Hub) : Bool :=
  isUp h && h.pair.paired && h.pair.grant && h.pair.state != .resyncing && (partnerActive h || (isActive h && partnerWaits h))

/-- The conflict has lasted CONFLICT_TICKS at a tick: hub A takes or keeps the active role, hub B stays or becomes standby. -/
def conflictLasts (tick : Nat) (h : Hub) : Hub :=
  if asserted h 0xC1 0 then h
  else
    let h := raiseHeld 0xC1 0 h.time.tickInst h.time.tickInst 0 h
    if h.power.sideB then (if isActive h then releaseRole h else { h with pair.takeoverAt := none })
    else if mayTake h then { h with pair.takeoverAt := some (tick + 1) } else h

/-- PAIR_CONFLICT (R299): the coming tick completes CONFLICT_TICKS ticks of double grant. -/
def execPairConflict (s : State) : Out :=
  let h := s.hub
  let due := doubleGrant h && decide (h.pair.conflictTicks ≤ h.pair.conflict + 1)
  .next (leaveRole h { s with hub := if due then conflictLasts (h.time.tick + 1) h else h })

/-- A granted standby whose partner is not active takes over at the coming tick. -/
def takeIfFree (h : Hub) : Hub :=
  if mayTake h && h.pair.grant && !partnerActive h && h.pair.takeoverAt.isNone then
    { h with pair.takeoverAt := some (h.time.tick + 1) } else h

/-- A tick of double grant, or its end. -/
def conflictTick (h : Hub) : Hub :=
  if doubleGrant h then
    let h := { h with pair.conflict := h.pair.conflict + 1 }
    if h.pair.conflictTicks ≤ h.pair.conflict then conflictLasts h.time.tick h else h
  else clearOcc 0xC1 0 h.time.tickInst { h with pair.conflict := 0 }

/-- A granted hub in RESYNCING ignores its grant and raises PAIR_GRANT_UNREADY, once for each stay in that state. -/
def unreadyNotice (h : Hub) : Hub :=
  if !isStandby h || h.pair.state != .resyncing then { h with pair.unreadyRaised := false }
  else if h.pair.grant && !h.pair.unreadyRaised then raiseNow 0xC0 0 0 0 { h with pair.unreadyRaised := true }
  else h

/-- The qualified level of GRANT_IN. -/
def grantLevel (level : Bool) (h : Hub) : Hub :=
  if !isUp h || !h.pair.paired then h
  else if level = h.pair.grantLow then
    clearOcc 0xC1 0 h.time.tickInst { h with pair.grant := false, pair.takeoverAt := none, pair.taken := false, pair.conflict := 0 }
  else
    let h := { h with pair.grant := true }
    if mayTake h then
      if partnerActive h || h.pair.takeoverAt.isSome then h else { h with pair.takeoverAt := some (h.time.tick + 2) }
    else unreadyNotice h

/-- GRANT_IN (R298). -/
def execGrantIn (level : Bool) (s : State) : Out := hubNext s (grantLevel level s.hub)

/-! ## Units received (R302) -/

/-- A live unit at one of the hub's own ticks. -/
def liveUnit (u : Bytes) (h : Hub) : Hub :=
  let m := fromStream h (fieldAt u 8 8)
  let body := u.drop 16
  match fieldAt u 0 1 with
  | 1 => rawUnit m (fieldAt u 1 1) body h
  | 2 => verdictUnit m body h
  | 3 => commandUnit m body h
  | 4 => recordUnit m body h
  | 5 => digestUnit m body h
  | 6 => eventUnit m body h
  | _ => h

/-- Units that waited for the hub's own clock. -/
def earlyFuel : Nat → Hub → Hub
  | 0, h => h
  | n + 1, h =>
    match h.pair.early with
    | [] => h
    | u :: us =>
      if fromStream h (fieldAt u 8 8) ≤ h.time.tick then earlyFuel n (liveUnit u { h with pair.early := us }) else h

/-- The partner's STATUS: a standby carries an active partner's epoch, and a detached one resynchronises with it; an active hub is
in ACTIVE while its partner is SHADOWING. -/
def statusUnit (tick : Nat) (body : Bytes) (h : Hub) : Hub :=
  let st := fieldAt body 0 1
  if body.length ≠ 16 || decide (4 < st) || decide (3 < fieldAt body 1 1) || fieldAt body 4 4 != 0 then shadowLost h
  else
    let before := h.pair.partner.map (·.state)
    let p : Partner := { state := st, eclipse := bitOf (fieldAt body 1 1) 0, granted := bitOf (fieldAt body 1 1) 1
                         epoch := fieldAt body 2 2, nextSeq := fieldAt body 8 8, tick := tick }
    let h := { h with pair.partner := some p }
    if isActive h then
      let h := if before == some 2 && st != 2 then stopLive h else h
      { h with pair.state := if st = 2 then .active else .activeSolo }
    else if st < 2 then
      let h := { h with pair.silent := 0, time.epoch := p.epoch, flash.epoch := p.epoch }
      if h.pair.state == .detached then { toResync false h with pair.retryAt := h.pair.retryAt } else h
    else takeIfFree h

/-- A standby's journal records raise the counter table. -/
def journalUnit (body : Bytes) (h : Hub) : Hub :=
  let n := fieldAt body 0 2
  if body.length ≠ 8 + 64 * n || decide (n = 0 ∨ 64 < n) || fieldAt body 2 6 != 0 then shadowLost h
  else (chunks 64 (body.drop 8)).foldl raiseFrom h

/-- A message or flare that a standby relays. -/
def relayUnit (body : Bytes) (s : State) : State :=
  let kind := fieldAt body 0 1
  let mb := fieldAt body 1 1
  let msg := body.drop 8
  if body.length < 8 ∨ 1 < kind ∨ (kind = 0 ∧ (mb < 2 ∨ 5 < mb)) ∨ (kind = 1 ∧ mb ≠ 0) ∨ 7 < fieldAt body 2 1 ∨
      fieldAt body 3 5 ≠ 0 ∨ (kind = 0 ∧ msg.length < 32) ∨ (kind = 1 ∧ msg.length ≠ 32) then { s with hub := shadowLost s.hub }
  else if kind = 1 then { s with hub := matchRemote (fieldAt msg 6 1 + 1) msg s.hub }
  else arrive mb (fieldAt body 2 1) msg {} s

/-- A unit of the stream that reaches a standby: live units wait for its own clock, in order. -/
def standbyUnit (u : Bytes) (h : Hub) : Hub :=
  let kind := fieldAt u 0 1
  if kind = 10 then (if h.pair.state == .resyncing && !h.pair.snapped then takeSnapshot (u.drop 16) h else h)
  else if !follows_ h then h
  else if kind = 11 then reserveUnit (u.drop 16) h
  else if !h.pair.early.isEmpty || decide (h.time.tick < fromStream h (fieldAt u 8 8)) then
    { h with pair.early := h.pair.early ++ [u] }
  else liveUnit u h

/-- A unit whole: a header that breaks its layout loses the shadow, as a body does. -/
def shadowUnit (u : Bytes) (s : State) : State :=
  let h := s.hub
  let kind := fieldAt u 0 1
  if !isUp h || !h.pair.paired || !(linkAt h 2).up then s
  else
    let h := { h with pair.unitsRx := h.pair.unitsRx + 1 }
    let s := { s with hub := h }
    if u.length < 16 ∨ fieldAt u 4 4 ≠ u.length ∨ kind = 0 ∨ 11 < kind ∨ fieldAt u 2 2 ≠ 0 ∨ (kind ≠ 1 ∧ fieldAt u 1 1 ≠ 0) then
      { s with hub := shadowLost h }
    else if kind = 7 then { s with hub := statusUnit (fieldAt u 8 8) (u.drop 16) h }
    else if isActive h then
      if kind = 8 then relayUnit (u.drop 16) s
      else if kind = 9 then { s with hub := journalUnit (u.drop 16) h } else s
    else if kind = 8 ∨ kind = 9 then s
    else { s with hub := standbyUnit u h }

/-- SHADOW_UNIT_RECEIPT (R302). -/
def execShadowUnitReceipt (unit : Bytes) (s : State) : Out := .next (shadowUnit unit s)

/-- A standby that has heard no active STATUS for 4 ticks, the coming one included, is detached. -/
def silentFor (n : Nat) (h : Hub) : Hub := if isStandby h && decide (n ≤ h.pair.silent) then detach h else h

/-- STATUS_UNIT_TIMEOUT (R296, 17 R427). -/
def execStatusUnitTimeout (s : State) : Out := hubNext s (silentFor 3 s.hub)

/-! ## Resynchronisation (R311 to R313, 14 R364) -/

/-- Sends PAIR_RESYNC on MB6 under slot 0. -/
def requestResync (h : Hub) : Hub :=
  match (slotAt h 0).key with
  | none => h
  | some k =>
    let f6 := (Config.sectionFormat 6).toNat
    let f7 := (Config.sectionFormat 7).toNat
    let p := leNat 2 (min f6 f7 - 1) ++ leNat 2 (max f6 f7) ++ zeros 4
    let r : Req := { mailbox := 6, flags := 1, origin := if h.power.sideB then 0xFFFFFF0B else 0xFFFFFF0A, keySlot := 0
                     length := 8, msgId := BitVec.ofNat 32 h.pair.resyncSent
                     counter := BitVec.ofNat 64 (h.flash.bringUps * 2 ^ 32 + h.pair.resyncSent)
                     dest := (laneAt h 4).farHub, payload := p, tag := [] }
    let m := msgBytes 0x0A01 { r with tag := tagOf k (reqBytes 0x0A01 r) }
    { queueCells 2 (unitCells 1 6 0 h.flash.hubId m) h with
      pair.resyncWait := true, pair.resyncSent := h.pair.resyncSent + 1, pair.retryAt := none }

/-- A standby in RESYNCING with lane P UP that has nothing under way. -/
def mayRequest (h : Hub) : Bool :=
  isStandby h && h.pair.state == .resyncing && (linkAt h 2).up && !h.pair.resyncWait && !h.pair.snapped

/-- The request of a tick: at once, or 1 s after a failure. -/
def resyncTick (h : Hub) : Hub :=
  if mayRequest h && (match h.pair.retryAt with | some t => decide (t ≤ h.time.op4k) | none => true) then requestResync h else h

/-- RESYNC_RETRY (R313): the instant of a failed resynchronisation's retry; nothing before 1 s has passed since the failure. -/
def execResyncRetry (s : State) : Out := hubNext s (if s.hub.pair.retryAt.isSome then resyncTick s.hub else s.hub)

/-- Copy complete, live units all in, first digest passed: SHADOWING. -/
def resyncDone (h : Hub) : Hub :=
  if isStandby h && h.pair.state == .resyncing && h.pair.snapped && h.pair.copyDone && h.pair.digestOk then
    { h with pair.state := .shadowing, pair.resyncWait := false } else h

/-- RESYNC_COMPLETE (R313). -/
def execResyncComplete (s : State) : Out := hubNext s (resyncDone s.hub)

/-- The pair at the end of a tick. -/
def pairTick (h : Hub) : Hub :=
  if !h.pair.paired then h
  else
    let h := silentFor 4 (if isStandby h then { h with pair.silent := h.pair.silent + 1 } else h)
    takeIfFree (conflictTick (resyncTick (unreadyNotice (resyncDone h))))

end Sys2Proof.Machine
end

