-- ==== Sys2Proof/Machine/TickWork.lean ====
section
/-! DEFINITION. A tick whole: what the end of an interval decides, what the tick changes, what it settles and releases, and what goes
on beside the stream (02 R24 to R35, R40, R41, 06 R136, 09 R204, 12 R296 to R310; log 3). -/

namespace Sys2Proof.Machine

/-! ## The end of the interval -/

/-- Everything the interval decides for the coming tick: raises that wait are handled, time and verdicts are booked, a role is taken
or released. -/
def endInterval (h : Hub) : Hub := bookTick (releaseIfRemoved (issueTakeover (handleFuel 128 h)))

/-- A frame overrun: it is counted and FRAME_OVERRUN raised (02 R40). -/
def noteOverrun (h : Hub) : Hub := raiseNow 0x70 0 0 0 { h with arr.overruns := h.arr.overruns + 1 }

/-- The array had not finished the work of interval n by tick n + 1: frame n's derived results are late (R41), and where step 2 was
unfinished, so are those of the frames that settle now, which wait (06 R137). -/
def overrunAt (n : Nat) (step2 : Bool) (h : Hub) : Hub :=
  let due := if step2 then (h.frames.filter fun f => decide (f.n + f.v ≤ n)).map (·.n) else []
  noteOverrun { h with arr.late := h.arr.late ++ due ++ [n], arr.waits := h.arr.waits ++ due }

/-- What the active hub sends of an interval to its partner: the closed frame, the verdicts in time. -/
structure Closed where
  raw : Option Frame := none
  verdicts : List Verdict := []
deriving DecidableEq, Repr

/-- The close of the interval on the active hub: the frame closes, verdicts are applied, the array follows (06 R136). -/
def closeInterval (old h : Hub) : Closed × Hub :=
  let n := h.time.tick
  let h := closeFrame (n - 1) h
  let raw := if shadowing h then h.frames.find? (·.n == n - 1) else none
  let h := activateDue n (layMark old h)
  let vs := timelyVerdicts n h.verdicts h
  let a := applyVerdicts n h.verdicts { h with verdicts := [] }
  ({ raw := raw, verdicts := vs }, activationDone n (arrPrune (arrClose a.2 a.1)))

/-! ## The tick by role -/

/-- The tick of the active hub up to its open frame. -/
def activeTick (old h : Hub) : Closed × Hub :=
  let c := closeInterval old h
  (c.1, openFrame (changeTick old c.2))

/-- The tick at which a standby takes over. -/
def takeoverTick (old h : Hub) : Hub :=
  let c := takeClose (layMark old h)
  openFrame (takeStart c.1.1 c.1.2 (changeTick old c.2))

/-- The tick of a standby: its own frame opens; units that waited for it are taken, and what may settle does (12 R306). -/
def standbyTick (old h : Hub) : Hub :=
  let h := openFrame (changeTick old (layMark old { h with verdicts := [] }))
  settleReady (earlyFuel h.pair.early.length h)

/-! ## Results of the tick -/

/-- Settles frames and decides the flares of the tick; the event flares among them. In the eclipse state events wait for its end
(07 R165). -/
def decideTick (h : Hub) : List Cand × Hub :=
  let n := h.time.tick
  let w := releaseWaiting h
  let r := settleDue n w.1
  let s := (r.1, w.2 ++ r.2)
  if inEclipse s.1 then ([], schedules (flaresOfTick [] s.1))
  else
  let mine := (s.1.pair.flares.filter fun x => decide (x.1 ≤ n)).map (·.2)
  let e := eventFlares { s.1 with pair.flares := s.1.pair.flares.filter fun x => decide (n < x.1) }
  (e.2, schedules (flaresOfTick (mine ++ s.2 ++ e.2) e.1))

/-- An ECLIPSE occultation is queued. -/
def eclipseQueued (h : Hub) : Bool := h.stream.due.any fun r => r.ty == 5 && fieldAt r.payload 0 1 == 3

/-- The ECLIPSE occultation of a LEDGER_PERIOD (09 R209). -/
def eclipsePeriod (h : Hub) : Hub :=
  if inEclipse h && streamTick h % max 1 (ledgerPeriod h) = 0 && !eclipseQueued h then eclipseOcc h else h

/-- The tick is the final one of a drain (17 R429). -/
def isFinal (h : Hub) : Bool :=
  match h.power.drain with | some d => h.time.tick == d.tick + h.time.v + 1 && !d.finalReleased | none => false

/-- The final LEDGER falls due; after its release nothing but RESPONSE records follows. -/
def finalLedger (h : Hub) : Hub := if isFinal h then queueLedger h else h

/-- The final tick has been released. -/
def finalDone (h : Hub) : Hub :=
  if isFinal h then
    { h with power.drain := h.power.drain.map fun d => { d with finalReleased := true, lastSeq := h.stream.nextSeq - 1, finalOp := h.time.op4k } }
  else h

/-- Custody, LEDGER, the journal's mirror, drops, and the release of the tick's records with their shadow. -/
def releaseTick (c : Closed) (events : List Cand) (h : Hub) : Hub :=
  let h := eclipsePeriod (applyAcks (revokeOverwritten h))
  let h := finalLedger (ledgerAt (streamTick h) h)
  let h := makeDrops (mirrorJournal (programAll h))
  let h := finalDone (releaseAll (sendStatus h))
  let h := takeBlocks (sumNat ((releasedNow h).map blocksOf)) h
  copyTick (sendLive c.raw c.verdicts events h)

/-! ## Beside the stream -/

/-- The links and lanes at a tick: traffic starts, credits return, time messages fall due, lanes rejoin, tables swap. -/
def lanesTick (h : Hub) : Hub :=
  let h := { h with
    links := h.links.map linkTick
    lanes := h.lanes.map fun x => if x.state == .up then { x with timeDue := true, rejoin := false } else x }
  (List.range 6).foldl (fun h l => swapTable h.time.tick l h) h

/-- The operating-time log is written every 64 s (17 R422). -/
def logSeconds (h : Hub) : Hub :=
  if h.flash.opLog + 64 ≤ opSeconds h then { h with flash.opLog := opSeconds h } else h

/-- HB_OUT (12 R297). -/
def heartbeat (h : Hub) : Hub := if heartbeats h then { h with hbOut := !h.hbOut } else h

/-- What reads return as of the tick (14 R346). -/
def noteView (h : Hub) : Hub :=
  { h with view := {
      chans := h.chans.map fun c => { rangeNow := c.rangeNow, settleLeft := c.settleLeft, arSwitches := c.arSwitches }
      theta := h.time.theta, freq := h.time.freq, outliers := h.time.outliers, laneMeas := h.time.laneMeas } }

/-- What else a tick does: faults that persist, the journal's rate limit, loop outputs, PTP, the pair, HB_OUT; and what reads show of it. -/
def housekeep (h : Hub) : Hub :=
  noteView <| heartbeat (pairTick (ptpTick (logSeconds (refillTokens (closeOldRuns (loopFaults (persistAll (lanesTick
    ((List.range 4).foldl (fun h t => pathTick t (jobAdvance t h)) h)))))))))

/-! ## The tick -/

/-- The hub's part of a tick. DESIGN CHOICE (log 28): on a standby an overrun is counted and raised, and marks no record LATE, since its
records follow the active's byte for byte (12 R306). -/
def hubTick (overrun : Option Bool) (s : Hub) : Hub :=
  let old := endInterval s
  let h := advance old
  let takes := isStandby h && h.pair.takeoverAt == some h.time.tick
  let h :=
    if isStandby h && !takes then
      let h := if overrun.isSome then noteOverrun h else h
      sendJournal (sendStatus (programAll (standbyTick old h)))
    else
      let r := if takes then (({ verdicts := h.verdicts } : Closed), takeoverTick old h) else activeTick old h
      let h := match overrun with | some step2 => overrunAt (r.2.time.tick - 1) step2 r.2 | none => r.2
      let e := decideTick h
      releaseTick r.1 e.1 e.2
  housekeep h

/-- The FIFO of the custody outlet. -/
def custodyFifo (s : State) : Fifo :=
  match custodyOutlet s.hub with
  | 0 => s.hub.outlets.lane
  | 1 => s.hub.outlets.eth
  | _ => s.host.fifo

/-- Every RESPONSE record of the hub has left by the custody outlet, or was withdrawn. -/
def responsesLeft (s : State) : Bool :=
  !(s.hub.stream.due.any (·.ty == 9)) &&
    s.hub.stream.reserve.all fun x => x.record.ty != 9 || (x.sent && !(custodyFifo s).seqs.contains x.record.seq)

/-- A reset that waited for its response starts (14 R365). DESIGN CHOICE (log 12): at the first tick by which every RESPONSE record has left,
or by which the hub is not active and sends no more. -/
def resetLeft (s : State) : State :=
  match s.hub.power.resetDue with
  | some d => if !isActive s.hub || responsesLeft s then doReset d s else s
  | none => s

/-- A tick: the hub's part, then copies, retransmissions and custody records go to their outlets, and held answers leave. -/
def tick (overrun : Option Bool) (s : State) : State :=
  let s := copyReleased (leaveRole s.hub { s with hub := hubTick overrun s.hub })
  resetLeft (releaseHeld (feedCustody (if isActive s.hub then { s with hub := serveRetx s.hub } else s)))

/-- MERIDIAN_TICK (06 R136). -/
def execMeridianTick (overrun : Option Bool) (s : State) : Out := .next (if isUp s.hub then tick overrun s else s)

end Sys2Proof.Machine
end

