-- ==== Sys2Proof/Machine/Cells.lean ====
section
/-! DEFINITION. What reaches and leaves the lanes: training sets, cells, link messages, units delivered (11 R259 to R285,
07 R169, 12 R306). -/

namespace Sys2Proof.Machine

/-! ## Carrying a change of the lanes through -/

/-- After lanes or links have changed: the pair sees a lost lane P; copies, custody records and held answers that may leave now do. -/
def settleLanes (before : Hub) (s : State) : State :=
  releaseHeld (feedCustody (copyReleased { s with hub := afterLanes before s.hub }))

/-- A change of the hub through its lanes. -/
def laneWork (f : Hub → Hub) (s : State) : State := settleLanes s.hub { s with hub := f s.hub }

/-! ## Training (R259 to R268) -/

/-- LANE_SEARCH_ATTEMPT (R265). -/
def execLaneSearchAttempt (lane : Nat) (s : State) : Out := .next (laneWork (searchAttempt lane) s)

/-- TS_RECEIPT (R260). -/
def execTsReceipt (lane : Nat) (ts : Bytes) (s : State) : Out := .next (laneWork (tsReceipt lane ts) s)

/-- RX_READY (R263). -/
def execRxReady (lane eyeH eyeV violations : Nat) (s : State) : Out := .next (laneWork (rxReadyAt lane eyeH eyeV violations) s)

/-- TRAINING_TIMEOUT (R264). -/
def execTrainingTimeout (lane : Nat) (partnerHeard : Bool) (s : State) : Out := .next (laneWork (trainingTimeout lane partnerHeard) s)

/-- LATENCY_MEASURE (R261). -/
def execLatencyMeasure (lane : Nat) (latency : Nat × Nat) (s : State) : Out :=
  .next (laneWork (latencyMeasured lane latency.1 latency.2) s)

/-- LANE_LOS (R268). -/
def execLaneLos (lane dt : Nat) (s : State) : Out := .next (laneWork (laneLoss 0 lane dt) s)

/-- LANE_LOL (R268). -/
def execLaneLol (lane dt : Nat) (s : State) : Out := .next (laneWork (laneLoss 1 lane dt) s)

/-- A lane that is UP again is back in its bond (R277). -/
def rejoinLane (l : Nat) (h : Hub) : Hub := if (laneAt h l).state == .up then updLane l (fun x => { x with rejoin := false }) h else h

/-- LANE_REJOIN (R277), for the coming tick. -/
def execLaneRejoin (lane : Nat) (s : State) : Out := .next (laneWork (rejoinLane lane) s)

/-- CHARACTER_ALIGNMENT (R259). -/
def execCharacterAlignment (lane boundary : Nat) (comma : Bool) (s : State) : Out :=
  hubNext s (if lanesPowered s.hub && lMode (laneDesc s.hub lane) == 1 then updLane lane (alignAt boundary comma) s.hub else s.hub)

/-! ## Link messages (R272 to R275) -/

/-- A link carries messages: it is up on a hub that runs. -/
def linkRuns (h : Hub) (k : Nat) : Bool := isUp h && (linkAt h k).up

/-- The lane a row's link message counts as received on: the lowest that carries the link's traffic, or the link's lowest (log 24). -/
def headLane (h : Hub) (k : Nat) : Nat := ((upLanes h k ++ linkLanes k)).headD 0

/-- LOOP_TEST (R275): a returned test cell of a lane in LOOPBACK with PRBS 0. -/
def execLoopTest (lane : Nat) (msg : Bytes) (lcrcOk : Bool) (s : State) : Out :=
  hubNext s (if (laneAt s.hub lane).state == .loopback && !lPrbs (laneDesc s.hub lane) then loopReturned lane msg lcrcOk s.hub else s.hub)

/-- NAK (R272). -/
def execNak (link : Nat) (missing : BitVec 16) (s : State) : Out :=
  hubNext s (if linkRuns s.hub link then nakReceipt link missing s.hub else s.hub)

/-- CREDIT (R273). -/
def execCredit (link : Nat) (msg : Bytes) (s : State) : Out :=
  hubNext s (if linkRuns s.hub link then creditReceipt link (headLane s.hub link) msg s.hub else s.hub)

/-- CREDIT_RETURN_SEND (R273). -/
def execCreditReturnSend (link : Nat) (s : State) : Out :=
  hubNext s (if linkRuns s.hub link && (linkAt s.hub link).ready then updLink link (fun l => { l with creditDue := true }) s.hub
    else s.hub)

/-- RESYNC (R274). -/
def execResync (link : Nat) (msg : Bytes) (s : State) : Out :=
  .next (if linkRuns s.hub link then laneWork (resyncReceipt link (headLane s.hub link) msg) s else s)

/-- A link message in a cell. -/
def linkMessage (k lane : Nat) (msg : Bytes) (h : Hub) : Hub :=
  match fieldAt msg 0 1 with
  | 1 => creditReceipt k lane msg h
  | 2 => resyncReceipt k lane msg h
  | 3 => nakReceipt k (BitVec.ofNat 16 (fieldAt msg 2 2)) h
  | _ => h

/-! ## Units delivered -/

/-- A flare message on a bond; a standby also relays it (12 R306). -/
def flareArrives (k lane : Nat) (msg : Bytes) (h : Hub) : Hub :=
  let h := flareReceipt k msg h
  if isStandby h && decide (k < 2) && msg.length == 32 then relay 1 0 lane msg h else h

/-- A unit that a link delivers. -/
def deliver (k lane : Nat) (d : Delivery) (s : State) : State :=
  match d with
  | .mail dest hops mb msg => mailArrives k lane dest hops mb msg {} s
  | .flare msg => { s with hub := flareArrives k lane msg s.hub }
  | .shadow bytes => shadowUnit bytes s

/-- Units in the order they were completed. -/
def deliverAll (k lane : Nat) (ds : List Delivery) (s : State) : State := ds.foldl (fun s d => deliver k lane d s) s

/-- FLARE_MESSAGE_RECEIPT (07 R169). -/
def execFlareMessageReceipt (link : Nat) (msg : Bytes) (s : State) : Out :=
  hubNext s (if linkRuns s.hub link then flareArrives link (headLane s.hub link) msg s.hub else s.hub)

/-! ## Cells received (R270 to R272) -/

/-- 1 ms. -/
def milli : Inst := 65536000000

/-- The replays a lane's errors have asked for in the millisecond up to an instant. -/
def askedIn (at_ : Inst) (x : Lane) : List Inst := x.asked.filter fun t => decide (at_ - milli < t)

/-- Replays asked for on account of some lanes: more than 16 in 1 ms are a loss of lock (R268). DEDUCED (log 24): a failed LCRC counts for the
lane it came on, a gap for every lane that carries the link's traffic. -/
def noteAsked (arrive : Inst) (lanes : List Nat) (h : Hub) : Hub :=
  lanes.foldl (fun h l =>
    let h := updLane l (fun x => { x with asked := arrive :: askedIn arrive x }) h
    if 16 < (laneAt h l).asked.length then laneLoss 1 l 0 h else h) h

/-- A cell that fails its LCRC: counted, and answered with a NAK. -/
def badCell (k lane : Nat) (arrive : Inst) (h : Hub) : Hub :=
  let h := updLane lane (fun x => { x with crcErrors := x.crcErrors + 1 }) h
  if (linkAt h k).ready then noteAsked arrive [lane] (sendNak k h) else h

/-- NAK_GAP_TIMEOUT (R272): a gap has stood for 8 µs; it counts at the latest tick (log 24). -/
def execNakGapTimeout (link : Nat) (s : State) : Out :=
  let h := s.hub
  .next (if linkRuns h link && !(linkAt h link).ahead.isEmpty then
    laneWork (fun h => noteAsked h.time.tickInst (upLanes h link) (sendNak link h)) s else s)

/-- A sound cell on a lane of a link that runs. -/
def goodCell (k lane : Nat) (bytes : Bytes) (arrive : Inst) (s : State) : State :=
  let x := cellFrom bytes
  let c := x.2.2
  let h := if (linkAt s.hub k).ready then applyAck k x.2.1 s.hub else s.hub
  if c.cls = 0 then { s with hub := timeReceipt lane c.data arrive h }
  else if c.cls = 6 then { s with hub := linkMessage k lane c.data h }
  else if !(linkAt h k).resyncHeard then { s with hub := h }
  else
    let r := sequencedReceipt k lane x.1 c h
    let asked := decide ((linkAt h k).linkQ.length < (linkAt r.1 k).linkQ.length)
    deliverAll k lane r.2 { s with hub := if asked then noteAsked arrive (upLanes h k) r.1 else r.1 }

/-- A cell on a lane; a lane that is looped for its partner sends it back as it came (R269). -/
def cellReceipt (lane : Nat) (bytes : Bytes) (arrive : Inst) (s : State) : State :=
  let k := laneLink lane
  let x := laneAt s.hub lane
  if x.state == .loopback then
    { s with hub := if lPrbs (laneDesc s.hub lane) then prbsReturned lane bytes s.hub
                    else loopReturned lane (cellFrom bytes).2.2.data (lcrcOk bytes) s.hub }
  else if x.state == .farLooped then { s with hub := sendLine lane (.cell lane bytes) s.hub }
  else if x.state != .up || !linkRuns s.hub k then s
  else if !lcrcOk bytes then { s with hub := badCell k lane arrive s.hub }
  else if cellReserved bytes then s
  else goodCell k lane bytes arrive { s with hub := updLane lane (fun x => { x with carried := true }) s.hub }

/-- CELL_RECEIPT (R270). -/
def execCellReceipt (lane : Nat) (cell : Bytes) (arrive : Inst) (s : State) : Out :=
  .next (settleLanes s.hub (cellReceipt lane cell arrive s))

/-- The cells of a record accepted in order, one receive buffer each. -/
def acceptCells (k : Nat) (cells : List Bytes) (s : State) : State :=
  cells.foldl (fun s b =>
    let c := (cellFrom b).2.2
    let i := clsIdx c.cls
    if !lcrcOk b || cellReserved b || decide (c.cls < 3 ∨ 4 < c.cls) || (linkAt s.hub k).rxFree.getD i 0 == 0 then s
    else
      let r := acceptFuel k 1024 c (updLink k (fun l => { l with rxFree := lowerCls i 1 l.rxFree }) s.hub)
      deliverAll k (headLane s.hub k) r.2 { s with hub := r.1 }) s

/-- PASS_THROUGH_RECORD (R285). -/
def execPassThroughRecord (link : Nat) (cells : List Bytes) (s : State) : Out :=
  .next (if linkRuns s.hub link && link != 2 then settleLanes s.hub (acceptCells link cells s) else s)

/-! ## Cells sent (R276, R279, R282) -/

/-- The TIME cell of a lane, due since the tick, in slot 0. -/
def startTime (k lane slot : Nat) (depart : Inst) (h : Hub) : Option (Bytes × Hub) :=
  if slot = 0 && (laneAt h lane).timeDue then
    some (cellBytes 0 ((linkAt h k).expect - 1)
        { cls := 0, flags := 3, origin := h.flash.hubId, data := timeMessage lane depart h }, noteDeparture lane depart h)
  else none

/-- The class of a slot has first claim; a start it cannot use is borrowed. -/
def startSlot (k lane slot : Nat) (h : Hub) : Option (Bytes × Hub) :=
  let code := (h.cfg.slots.getD lane []).getD slot 0
  (if code = 0 then none else startClass k (code - 1) h).orElse fun _ => startFirst k h borrowOrder

/-- The slot in which a start at an instant lies: 64 of them divide the tick period (R279). -/
def slotOf (h : Hub) (depart : Inst) : Nat := min 63 ((depart - h.time.tickInst) * 64 / tickLen h.time.tCode).toNat

/-- The next cell of a lane at a cell start. DEDUCED (log 24): while cells wait to be sent again, in order (R272), no other sequenced cell may
start, so that a start which the slot's class cannot use is borrowed by the class of the first of them. -/
def nextCell (lane slot : Nat) (depart : Inst) (h : Hub) : Option (Bytes × Hub) :=
  let k := laneLink lane
  let x := laneAt h lane
  if x.state == .loopback then (if isUp h then startLoopTest lane h else none)
  else if x.state != .up || x.rejoin || x.stopped || !linkRuns h k then none
  else
    (startLink k h).orElse fun _ => (startTime k lane slot depart h).orElse fun _ =>
      (startResend k lane h).orElse fun _ => startSlot k lane slot h

/-- A lane that sends IDLE where it has nothing else: in traffic, or retired (R259, R267). -/
def sendsIdle (x : Lane) : Bool := x.state == .up || x.state == .retired

/-- A cell start of a lane: a cell leaves, or IDLE; PRBS31 in a loop that asks for it. -/
def cellTransmit (lane slot : Nat) (depart : Inst) (h : Hub) : Hub :=
  if isUp h && (laneAt h lane).state == .loopback && lPrbs (laneDesc h lane) then sendPrbs lane h
  else match nextCell lane slot depart h with
    | some (b, h') => sendLine lane (.cell lane b) h'
    | none => if sendsIdle (laneAt h lane) then sendLine lane (.idle lane) h else h

/-- CELL_TRANSMIT (R279): the slot is that of the instant on a hub that runs; the room a DATA cell leaves in the lane outlet's FIFO is
filled. -/
def execCellTransmit (lane slot : Nat) (depart : Inst) (s : State) : Out :=
  .next (laneWork (cellTransmit lane (if isUp s.hub then slotOf s.hub depart else slot) depart) s)

end Sys2Proof.Machine
end

