-- ==== Sys2Proof/Machine/Boot.lean ====
section
/-! DEFINITION. Power, clocks, bring-up from SUPPLY to first light, the operating-time log, the end of a drain (chapter 17, 05 R110,
09 R203, R230, 10 R254, 12 R295, 13 R326, R327, R336, 15 R393, 18 R441; log 27). -/

namespace Sys2Proof.Machine

/-! ## VIN and RESET_N (17 R419, R420) -/

/-- VIN_RISE: a power-on bring-up, or the end of VIN_LOW. -/
def execVinRise (s : State) : Out :=
  .next (match s.hub.power.phase with
    | .off => hardReset .supply { s with hub.power.vinGood := true }
    | _ => if s.hub.power.vinLow then
        { s with hub := clearOcc 0x51 0 s.hub.time.tickInst { s.hub with power.vinLow := false } } else s)

/-- VIN_LOW (R419). -/
def execVinLow (s : State) : Out :=
  let h := s.hub
  hubNext s (if h.power.phase == .off then h
    else raiseHeld 0x51 0 h.time.tickInst h.time.tickInst 0 { h with power.vinLow := true })

/-- BROWN_OUT (R419): the hub resets at once and writes nothing; it restarts at the start threshold. -/
def execBrownOut (s : State) : Out :=
  let h := tearRecord s.hub
  .next (hardReset .off { s with hub := { h with power.vinGood := false } })

/-- RESET_N (R420): held low for at least 1 µs. -/
def execResetN (lowNs : Nat) (s : State) : Out :=
  .next (if 1000 ≤ lowNs ∧ s.hub.power.phase ≠ .off then hardReset .supply { s with hub := tearRecord s.hub } else s)

/-! ## REFCLK (18 R441, 17 R423) -/

/-- PLL_UNLOCK sources of the PLLs that REFCLK feeds: the TIME PLL is fed by REF10_IN while that is selected. -/
def refclkPlls (h : Hub) : List Nat := (rangeFrom 0x61 6).filter fun x => x != 0x65 || !h.power.ref10

/-- Bring-up depends on REFCLK: from CLOCKS to ALIGN. -/
def bringingUp (p : Phase) : Bool :=
  match p with
  | .clocks | .boot | .selftest | .restore | .calibrate | .align => true
  | _ => false

/-- REFCLK_ABSENT (R441). -/
def execRefclkAbsent (s : State) : Out :=
  let h : Hub := { s.hub with power.refclk := false }
  hubNext s (
    if bringingUp h.power.phase then { h with power.phase := .noRefclk }
    else if isUp h then
      (refclkPlls h).foldl (fun h x => raiseHeld x 0 h.time.tickInst h.time.tickInst 0 h) h
    else h)

/-- REFCLK_PRESENT (R423). -/
def execRefclkPresent (s : State) : Out :=
  let h : Hub := { s.hub with power.refclk := true }
  hubNext s (
    if h.power.phase == .noRefclk then { h with power.phase := .clocks, power.calibrated := false }
    else if isUp h then (refclkPlls h).foldl (fun h x => clearOcc x 0 h.time.tickInst h) h
    else h)

/-! ## BOOT (13 R336) -/

/-- The image that runs: the boot choice, unless it fails to verify or has failed to reach first light on three consecutive
bring-ups before this one and the other slot verifies. -/
def bootSlot (h : Hub) : Option Nat :=
  let c := h.flash.bootChoice
  let ok (i : Nat) : Bool := imageVerifies (imageOf h i) h
  if ok c && (decide (h.flash.bootFails < 3 + b2n h.power.bootCounted) || !ok (1 - c)) then some c else if ok (1 - c) then some (1 - c) else none

/-- The end of BOOT; a bring-up counts once as one of the boot choice without first light. -/
def bootEnd (h : Hub) : Hub :=
  match bootSlot h with
  | none => { h with power.phase := .noImage }
  | some i => { h with
      power.phase := .selftest, flash.running := i
      power.bootCounted := h.power.bootCounted || i == h.flash.bootChoice
      flash.bootFails := if i = h.flash.bootChoice ∧ !h.power.bootCounted then h.flash.bootFails + 1 else h.flash.bootFails }

/-- The end of SELFTEST: the known-answer test of 13 R327; the DRAM wipe starts. -/
def selftestEnd (env : BootEnv) (h : Hub) : Hub :=
  if env.ramOk && env.kat == knownAnswer then
    { h with power.phase := .restore, power.dramWiping := !h.power.dramWiped }
  else { h with power.phase := .selftestFail }

/-! ## RESTORE (17 R422, R424; 13 R326; 15 R393) -/

/-- Operating seconds resume, and the counts of R422 rise once in a bring-up. -/
def restoreCounts (h : Hub) : Hub :=
  if h.power.restored then h
  else
    let op := h.flash.opLog + 64
    { h with
      power.restored := true
      time.opBase := op
      flash.opLog := op
      flash.powerCycles := if h.power.warm then h.flash.powerCycles else (h.flash.powerCycles + 1) % 2 ^ 32
      flash.bringUps := (h.flash.bringUps + 1) % 2 ^ 32
      jr.refilled := op / 6 }

/-- The counter table: the checkpoint, raised by every counter change record in the journal (13 R326). -/
def restoreCounters (h : Hub) : Hub :=
  (h.flash.journal.filter fun r => !r.torn && r.kind == 0 && decide (r.mailbox < 8 ∧ (r.keySlot < 8 ∨ r.keySlot = 0xFE) ∧ r.counter ≠ 0)).foldl
    (fun h r => raiseCounter (BitVec.ofNat 32 r.origin) r.keySlot r.counter h)
    { h with mbx.counters := h.flash.ctrCheckpoint }

/-- The write pointer follows the highest valid INDEX; a torn record after it keeps its own and is named (15 R393). -/
def restoreJournal (h : Hub) : Hub :=
  let valid := (h.flash.journal.filter fun r => !r.torn).map (·.index)
  let next := match valid.max? with | some m => m + 1 | none => 0
  let torn := h.flash.journal.any fun r => r.torn && r.index == next
  let at_ := if torn then next + 1 else next
  let h := { h with
    flash.nextIndex := at_
    jr.erasedTo := (at_ + sectorRecords - 1) / sectorRecords * sectorRecords }
  if torn then jEvent 0x2005 (leNat 6 next) h else h

/-- One step of the reduction of R424. -/
def reduceStep (k : Nat) (c : Cfg) : Cfg :=
  match k with
  | 1 => { c with graph := {}, capture := c.capture.map fun d => zeros 64 ++ d.drop 64 }
  | 2 => { c with group := c.group.map fun g => g &&& ~~~(7 : BitVec 64)
                  loop := c.loop.map fun e => mapI (fun i b => if i = 0 then b &&& 0xFE else b) e }
  | 3 => { c with chan := c.chan.map fun d => d ||| 3 }
  | _ =>
    let fresh : Cfg := {}
    let ls := linkLanes (custodyLink c)
    { c with slots := mapI (fun l t => if ls.contains l then fresh.slots.getD l t else t) c.slots }

/-- The checks of R36 that a configuration fails, on a hub no lane of which is UP. -/
def cfgFailures (h : Hub) (c : Cfg) : List Failure :=
  planFailures { h with cfg := c } { cfg := c, tCode := c.tCode, v := c.v }

/-- Takes steps in order until every check passes; the last step taken. -/
def reduceFrom (h : Hub) : List Nat → Nat → Cfg → Nat × Cfg
  | [], last, c => (last, c)
  | k :: ks, last, c =>
    if (cfgFailures h c).isEmpty then (last, c) else reduceFrom h ks k (reduceStep k c)

/-- Loads the stored configuration, reduced where it fails R36; the lanes take their descriptors. -/
def restoreConfig (h : Hub) : Hub :=
  let st := h.flash.store
  let r := reduceFrom h [1, 2, 3, 4] 0 st
  let old := h.cfg.lane
  let h := { h with cfg := { r.2 with lane := old }, time.tCode := r.2.tCode, time.v := r.2.v }
  let h := (List.range 6).foldl (fun h l => applyLane l (st.lane.getD l 0) h) h
  match worst (cfgFailures h st) with
  | some (check, demand, limit) =>
    jChange 0x3014 (leNat 1 check ++ leNat 1 r.1 ++ zeros 6 ++ leNat 4 (min demand (2 ^ 32 - 1)) ++
      leNat 4 (min limit (2 ^ 32 - 1))) h
  | none => h

/-- A fall-back of the boot loader is journalled (13 R336). -/
def noteFallback (h : Hub) : Hub :=
  if h.flash.running = h.flash.bootChoice then h else jChange 0x3012 (leNat 1 h.flash.running) h

/-- The end of RESTORE: counts before any record, counters before the journal may enter a sector, then the configuration. -/
def restoreEnd (h : Hub) : Hub :=
  let h := restoreConfig (noteFallback (restoreJournal (restoreCounters (restoreCounts h))))
  loopsToFault { h with
    power.phase := .calibrate
    flash.accepted := (sortBy (·.1) h.flash.accepted).map fun x => (0, x.2) }

/-! ## CALIBRATE (05 R98 to R102, R110) -/

/-- Modes and ranges a front end may use: a spare serves every measuring channel of its group. -/
def lightUse (h : Hub) (fe : Nat) : List (Nat × Nat) :=
  let cs := if feSlot fe < 8 then [feGroup fe * 8 + feSlot fe].filter (measuring h) else groupMeasuring h (feGroup fe)
  (cs.flatMap fun c => (rangesOf (chDesc h c)).map fun r => (dMode (chDesc h c), r)).eraseDups

/-- A front end whose first-light run was not accepted is due from tick 0 (R110). -/
def lightDue (mode range : Nat) (h : Hub) (fe : Nat) : Hub :=
  updFe fe (fun f => { f with due := f.due ++ [(mode, range, 0)] }) h

/-- The run of one front end in one mode and range, through a calibration chain of its own; one whose bits are not given counts as one
that disagrees. -/
def lightRun (env : BootEnv) (fe mode range : Nat) (h : Hub) : Hub :=
  let t := tileOfFe fe
  let temp := env.temps.getD t 0
  let outs := match env.runs.find? fun x => x.1 == fe && x.2.1 == mode && x.2.2.1 == range with
    | some x => phaseOutputs (chainOuts rangeBits 2 6 x.2.2.2 {}).2
    | none => []
  let r := runRange (Config.levelFactor t temp).toNat (calAgreeTol h) (outs.map meanOut)
  let q : Quality := { mode := mode, range := range, result := r.result, residual := r.residual, agreement := r.agreement
                       temp := temp, opSeconds := opSeconds h }
  let h := writeQuality fe [q] h
  if r.result = 0 then
    jChange 0x3001 (acceptedDetail fe q)
      (updFe fe (fun f => { f with coefs := f.coefs.filter (fun c => !(c.mode == mode && c.range == range)) ++
        [{ mode := mode, range := range, o := r.o, g := r.g, temp := temp, opSeconds := opSeconds h }] }) h)
  else
    raiseNow (tileBase t + if r.result = 1 then 7 else 6) fe 0 0 (lightDue mode range h fe)

/-- The distinct modes and ranges of a tile's front ends, and the front ends of each (R110). -/
def lightRuns (h : Hub) (t : Nat) : List (Nat × Nat × List Nat) :=
  let fes := rangeFrom (144 * t) 144
  let uses := (fes.flatMap (lightUse h)).eraseDups
  (sortBy (fun x => 8 * x.1 + x.2) uses).map fun x => (x.1, x.2, fes.filter fun fe => (lightUse h fe).contains x)

/-- The readings of a first-light run's path check; a code that is not given reads as 0. -/
def lightPath (codes : List (Nat × Nat × Nat × List Nat)) (sources : List Nat) (k mode range : Nat) : List Int :=
  let c := match codes.find? fun x => x.1 == k && x.2.1 == mode && x.2.2.1 == range with | some x => x.2.2.2 | none => []
  mapI (fun i s => hkValue s 1 (c.getD i 0)) sources

/-- One run of a tile: the path check, then every front end that needs its mode and range; without a sound path the run is
abandoned, and the tile makes no run for 60 s (R110, R118). -/
def lightTileRun (env : BootEnv) (t : Nat) (h : Hub) (x : Nat × Nat × List Nat) : Hub :=
  let mode := x.1
  let range := x.2.1
  if (tileAt h t).holdUntil.isSome then x.2.2.foldl (lightDue mode range) h
  else
    let path := lightPath env.paths [40 + t, 36 + t, 36 + t, 36 + t] t mode range
    if pathFails t mode range path then
      let q (fe : Nat) : Quality :=
        { mode := mode, range := range, result := 4, temp := env.temps.getD (tileOfFe fe) 0, opSeconds := opSeconds h }
      let h := x.2.2.foldl (fun h fe => lightDue mode range (writeQuality fe [q fe] h) fe) h
      raiseNow (tileBase t + 9) 0 0 0 (updTile t (fun y => { y with holdUntil := some (h.time.op4k + 240000) }) h)
    else
      x.2.2.foldl (fun h fe =>
        let h := lightRun env fe mode range h
        if feSlot fe < 8 then h
        else
          let monitor := lightPath env.spares [44 + t, 44 + t, 44 + t] (feGroup fe) mode range
          noteSparePath t (feGroup fe) (spareFails t mode range (path ++ monitor)) false h) h

/-- First-light calibration of every front end for every range it may use: one run per tile, mode and range. -/
def calibrateAll (env : BootEnv) (h : Hub) : Hub :=
  (List.range 4).foldl (fun h t => (lightRuns h t).foldl (lightTileRun env t) h) h

/-- The end of CALIBRATE; a PPS edge is a first measurement (17 R424). -/
def calibrateEnd (env : BootEnv) (h : Hub) : Hub :=
  let first := if ppsSource (tbSource h.cfg.timeBlock) then env.pps else none
  { calibrateAll env h with power.phase := .align, power.calibrated := true, power.firstMeas := first }

/-! ## BRING_UP_PHASE_END (17 R423) -/

/-- The phase in progress ends. -/
def phaseEnd (env : BootEnv) (h : Hub) : Hub :=
  match h.power.phase with
  | .supply => { h with power.phase := .clocks, power.sideB := env.sideB }
  | .clocks => { h with power.phase := if h.power.refclk then .boot else .noRefclk }
  | .boot => bootEnd h
  | .selftest => selftestEnd env h
  | .restore => restoreEnd h
  | .calibrate => calibrateEnd env h
  | _ => h

/-- BRING_UP_PHASE_END (R423): ALIGN ends at FIRST_LIGHT; held states and a running hub have no phase to end. -/
def execBringUpPhaseEnd (env : BootEnv) (s : State) : Out := hubNext s (phaseEnd env s.hub)

/-- DRAM_WIPE_DONE (R424). -/
def execDramWipeDone (s : State) : Out :=
  let h := s.hub
  hubNext s (if h.power.dramWiping then { h with power.dramWiping := false, power.dramWiped := true } else h)

/-! ## First light (17 R425 to R427) -/

/-- The timebase of the run: set from a first PPS measurement, else as it has run from SECONDS 0 (10 R245, R254). -/
def lightTime (elapsed : Inst) (h : Hub) : Hub :=
  let c := h.cfg
  let src := tbSource c.timeBlock
  let theta := match h.power.firstMeas with | some i => ppsTheta h i | none => 0
  let l := tickLen c.tCode
  let inst := -((-(max 0 (elapsed - theta))) / l) * l
  let b := c.timeBlock.toNat
  let e := (h.flash.epoch + 1) % 65536
  { h with
    flash.epoch := e
    power.ref10 := src == 6 || src == 7
    power.lightOp := opSeconds h
    time := { h.time with
      tick := 0, running := true, tickInst := inst, op4k := h.time.op4k + (max 0 elapsed).toNat / 16384000000, tCode := c.tCode, v := c.v, frameFlags := 4, frameLen := l
      lastMeas := h.time.op4k + (max 0 elapsed).toNat / 16384000000, lastAccept := h.time.op4k + (max 0 elapsed).toNat / 16384000000
      epoch := e, source := src, srcLane := (sourceLanes src).headD 0
      servo := if h.power.firstMeas.isSome then .acquire else .freeRun
      utc := if bitOf b 40 then sext 16 (bitsOf b 39 24) else 0
      utcKnown := bitOf b 40 } }

/-- The pair state of the run (12 R295, R296). -/
def lightPair (h : Hub) : Hub :=
  let b := h.flash.store.pair.toNat
  { h with pair := { h.pair with
      paired := bitOf b 0, grantLow := bitOf b 1, conflictTicks := bitsOf b 23 16
      state := if bitOf b 0 then .resyncing else .active } }

/-- Updates the image that runs. -/
def setRunning (i : Image) (h : Hub) : Hub :=
  if h.flash.running = 0 then { h with flash.imageA := i } else { h with flash.imageB := i }

/-- The running image has reached first light: at its first, its REVOKE bits take effect, and of an activated image, where asked, its
SEC_VERSION (13 R336). -/
def lightImage (h : Hub) : Hub :=
  let i := imageOf h h.flash.running
  let h := if i.lit then h
    else setRunning { i with lit := true } { h with flash.revoked := h.flash.revoked ||| (imageField i 17 1 % 16) }
  if h.flash.running ≠ h.flash.bootChoice then h
  else
    let h := { h with flash.bootFails := 0 }
    if !h.flash.activated then h
    else { h with
      flash.activated := false
      flash.raiseMin := false
      flash.minSec := if h.flash.raiseMin then max h.flash.minSec (imageField i 8 4) else h.flash.minSec }

/-- Channels, array, captures at tick 0 (R426). -/
def lightWork (h : Hub) : Hub :=
  let g := h.cfg.graph
  let nodes := g.nodes.map fun d => nodeRest d 0 true false
  let h := { h with
    arr := { h.arr with active := g, since := 0, nodes := nodes, ckpts := [⟨0, nodes⟩] }
    cap.defs := mapI (fun d x => { x with state := if (cChans (defDesc h d)).isEmpty then .disabled else .armed }) h.cap.defs
    chans := mapI (fun c x => { x with rangeNow := dRange (chDesc h c) }) h.chans }
  let h := (List.range 512).foldl (fun h c => loadSys c h) h
  settleAll (powerUp (setPhases 0 h.time.tickInst h))

/-- Every count of occurrences is empty and every bucket full at first light (15 R373, R394). -/
def lightCounts (h : Hub) : Hub := { h with faults.counts := [], jr.buckets := [] }

/-- The hub at tick 0: frame 0 opens, an active hub starts its block and releases what R230 places there, links start. -/
def lightHub (elapsed : Inst) (h : Hub) : Hub :=
  let h := lightCounts (lightImage (lightPair (lightTime elapsed { h with power.phase := .run })))
  let h := openFrame (lightWork h)
  let h := if isActive h then releaseTick {} [] (if runsInFull h then newBlock 0 (tickStamp h) h else h)
    else sendJournal (sendStatus (programAll h))
  housekeep (lanesFirstLight h)

/-- FIRST_LIGHT (R425): once CALIBRATE and the DRAM wipe have ended; `elapsed` is the instant 100 µs after both, on the timebase
that has run since CLOCKS. -/
def execFirstLight (elapsed : Inst) (s : State) : Out :=
  let p := s.hub.power
  if p.phase = .align ∧ p.calibrated ∧ p.dramWiped then
    let s := copyReleased { s with hub := lightHub elapsed s.hub }
    .next (releaseHeld (feedCustody s))
  else .next s

/-! ## Operating time and the end of a drain (17 R422, R429) -/

/-- OP_SECONDS_LOG (R422). -/
def execOpSecondsLog (s : State) : Out := hubNext s (logSeconds s.hub)

/-- DRAIN_FINAL_TICK (R429): the coming tick is the final one, so a final LEDGER falls due for it. -/
def execDrainFinalTick (s : State) : Out :=
  let h := s.hub
  hubNext s (match h.power.drain with
    | some d => if h.time.tick + 1 = d.tick + h.time.v + 1 ∧ d.finalReleased = false then queueLedger h else h
    | none => h)

/-- Custody covers every record up to the final tick. -/
def drainCovered (d : Drain) (h : Hub) : Bool := (notInCustody h).all fun x => decide (d.lastSeq < x.record.seq)

/-- 60 s have passed since the final tick. -/
def drainTimedOut (d : Drain) (h : Hub) : Bool := decide (d.finalOp + 240000 ≤ nextOp h)

/-- DRAIN_END (R429): custody covers the stream, or 60 s have passed. -/
def execDrainEnd (timedOut : Bool) (s : State) : Out :=
  match s.hub.power.drain with
  | some d =>
    if d.finalReleased ∧ (timedOut ∧ drainTimedOut d s.hub ∨ drainCovered d s.hub) then
      .next (doReset { kind := d.kind, cause := d.cause, force := 1, target := d.target } s)
    else .next s
  | none => .next s

end Sys2Proof.Machine
end

