-- ==== Sys2Proof/Machine/Dispatch.lean ====
section
/-! DEFINITION. One arm per command: the one place that says which meaning a command has. -/

namespace Sys2Proof.Machine

/-- What a command does to everything but the queue: one direct call of its meaning (Host/Core.lean). -/
def exec (i : Instr) (s : State) : Host.Outcome State Fault Refusal :=
  match i with
  | .hostPortTransaction opcode addr data count env => Sys2Proof.Machine.execHostPortTransaction opcode addr data count env s
  | .registerWrite addr word => Sys2Proof.Machine.execRegisterWrite addr word s
  | .doorbell bits env => Sys2Proof.Machine.execDoorbell bits env s
  | .attnClear bits => Sys2Proof.Machine.execAttnClear bits s
  | .fifoStatusClear bits => Sys2Proof.Machine.execFifoStatusClear bits s
  | .fifoDataRead => Sys2Proof.Machine.execFifoDataRead s
  | .copyDropsRead => Sys2Proof.Machine.execCopyDropsRead s
  | .noticeDeliver mb => Sys2Proof.Machine.execNoticeDeliver mb s
  | .mailboxMessageArrival mb msg via env => Sys2Proof.Machine.execMailboxMessageArrival mb msg via env s
  | .cfgLabel req => Sys2Proof.Machine.execCfgLabel req s
  | .readIdentity req => Sys2Proof.Machine.execReadIdentity req s
  | .readLedger req => Sys2Proof.Machine.execReadLedger req s
  | .cfgChannel req => Sys2Proof.Machine.execCfgChannel req s
  | .cfgExcitation req => Sys2Proof.Machine.execCfgExcitation req s
  | .cfgRemap req => Sys2Proof.Machine.execCfgRemap req s
  | .reviveChannel req => Sys2Proof.Machine.execReviveChannel req s
  | .readChannel req => Sys2Proof.Machine.execReadChannel req s
  | .cfgTick req => Sys2Proof.Machine.execCfgTick req s
  | .cfgTime req => Sys2Proof.Machine.execCfgTime req s
  | .timeStep req => Sys2Proof.Machine.execTimeStep req s
  | .readTime req => Sys2Proof.Machine.execReadTime req s
  | .cfgCalibration req => Sys2Proof.Machine.execCfgCalibration req s
  | .calSelf req => Sys2Proof.Machine.execCalSelf req s
  | .calSystem req => Sys2Proof.Machine.execCalSystem req s
  | .cfgHousekeeping req => Sys2Proof.Machine.execCfgHousekeeping req s
  | .readCalQuality req => Sys2Proof.Machine.execReadCalQuality req s
  | .readHousekeeping req => Sys2Proof.Machine.execReadHousekeeping req s
  | .loadGraph req => Sys2Proof.Machine.execLoadGraph req s
  | .activateGraph req => Sys2Proof.Machine.execActivateGraph req s
  | .readGraph req => Sys2Proof.Machine.execReadGraph req s
  | .cfgFlare req => Sys2Proof.Machine.execCfgFlare req s
  | .cfgCapture req => Sys2Proof.Machine.execCfgCapture req s
  | .flareNow req => Sys2Proof.Machine.execFlareNow req s
  | .releaseCapture req => Sys2Proof.Machine.execReleaseCapture req s
  | .clearCaptureStats req => Sys2Proof.Machine.execClearCaptureStats req s
  | .readCaptures req => Sys2Proof.Machine.execReadCaptures req s
  | .cfgCompression req => Sys2Proof.Machine.execCfgCompression req s
  | .custodyAck req => Sys2Proof.Machine.execCustodyAck req s
  | .custodyRetransmit req => Sys2Proof.Machine.execCustodyRetransmit req s
  | .cfgOutlets req => Sys2Proof.Machine.execCfgOutlets req s
  | .compressJob req => Sys2Proof.Machine.execCompressJob req s
  | .resumeCompress req => Sys2Proof.Machine.execResumeCompress req s
  | .cancelCompress req => Sys2Proof.Machine.execCancelCompress req s
  | .cfgLane req => Sys2Proof.Machine.execCfgLane req s
  | .cfgSlotTable req => Sys2Proof.Machine.execCfgSlotTable req s
  | .cfgUplink req => Sys2Proof.Machine.execCfgUplink req s
  | .readLane req => Sys2Proof.Machine.execReadLane req s
  | .openWindow req => Sys2Proof.Machine.execOpenWindow req s
  | .closeWindow req => Sys2Proof.Machine.execCloseWindow req s
  | .transfer req env => Sys2Proof.Machine.execTransfer req env s
  | .resumeTransfer req env => Sys2Proof.Machine.execResumeTransfer req env s
  | .cfgFault req => Sys2Proof.Machine.execCfgFault req s
  | .forceFault req => Sys2Proof.Machine.execForceFault req s
  | .readFaults req => Sys2Proof.Machine.execReadFaults req s
  | .readJournal req => Sys2Proof.Machine.execReadJournal req s
  | .cfgPair req => Sys2Proof.Machine.execCfgPair req s
  | .pairResync req => Sys2Proof.Machine.execPairResync req s
  | .readPair req => Sys2Proof.Machine.execReadPair req s
  | .provision req => Sys2Proof.Machine.execProvision req s
  | .commission req => Sys2Proof.Machine.execCommission req s
  | .enterMaintenance req => Sys2Proof.Machine.execEnterMaintenance req s
  | .exitMaintenance req => Sys2Proof.Machine.execExitMaintenance req s
  | .decommission req => Sys2Proof.Machine.execDecommission req s
  | .loadKey req => Sys2Proof.Machine.execLoadKey req s
  | .eraseKey req => Sys2Proof.Machine.execEraseKey req s
  | .fwLoad req => Sys2Proof.Machine.execFwLoad req s
  | .fwVerify req => Sys2Proof.Machine.execFwVerify req s
  | .fwInstall req => Sys2Proof.Machine.execFwInstall req s
  | .fwActivate req => Sys2Proof.Machine.execFwActivate req s
  | .reset req => Sys2Proof.Machine.execReset req s
  | .cfgLoopOutput req => Sys2Proof.Machine.execCfgLoopOutput req s
  | .readLoop req => Sys2Proof.Machine.execReadLoop req s
  | .fwVerifyDone => Sys2Proof.Machine.execFwVerifyDone s
  | .fwInstallDone readBackOk => Sys2Proof.Machine.execFwInstallDone readBackOk s
  | .compressJobStop job => Sys2Proof.Machine.execCompressJobStop job s
  | .calSystemWindowClose ch => Sys2Proof.Machine.execCalSystemWindowClose ch s
  | .systemCoefficientsEffect => Sys2Proof.Machine.execSystemCoefficientsEffect s
  | .meridianTick overrun => Sys2Proof.Machine.execMeridianTick overrun s
  | .frameSettle mismatch => Sys2Proof.Machine.execFrameSettle mismatch s
  | .reductionPeriodClose node => Sys2Proof.Machine.execReductionPeriodClose node s
  | .ledgerPeriod => Sys2Proof.Machine.execLedgerPeriod s
  | .scheduleFlare unit => Sys2Proof.Machine.execScheduleFlare unit s
  | .changeInstant => Sys2Proof.Machine.execChangeInstant s
  | .tickRateChange => Sys2Proof.Machine.execTickRateChange s
  | .graphActivation => Sys2Proof.Machine.execGraphActivation s
  | .slotTableSwap lane => Sys2Proof.Machine.execSlotTableSwap lane s
  | .timeStepApply => Sys2Proof.Machine.execTimeStepApply s
  | .stepDiscarded => Sys2Proof.Machine.execStepDiscarded s
  | .sampleSlotCreate ch bits => Sys2Proof.Machine.execSampleSlotCreate ch bits s
  | .overRangeStart fe high dt => Sys2Proof.Machine.execOverRangeStart fe high dt s
  | .overRangeEnd fe dt area => Sys2Proof.Machine.execOverRangeEnd fe dt area s
  | .neighbourVerdictDeadline fe => Sys2Proof.Machine.execNeighbourVerdictDeadline fe s
  | .autorangeDown ch dt => Sys2Proof.Machine.execAutorangeDown ch dt s
  | .autorangeUp ch dt => Sys2Proof.Machine.execAutorangeUp ch dt s
  | .detectorAssert kind instance_ qual dt => Sys2Proof.Machine.execDetectorAssert kind instance_ qual dt s
  | .faultOccurrenceClear source instance_ dt => Sys2Proof.Machine.execFaultOccurrenceClear source instance_ dt s
  | .excVinRange mv dt => Sys2Proof.Machine.execExcVinRange mv dt s
  | .loopCompliance output readback dt => Sys2Proof.Machine.execLoopCompliance output readback dt s
  | .stuckOver ch dt => Sys2Proof.Machine.execStuckOver ch dt s
  | .feFault fe dt => Sys2Proof.Machine.execFeFault fe dt s
  | .sourceFault ch dt => Sys2Proof.Machine.execSourceFault ch dt s
  | .temperatureLimit source centi dt => Sys2Proof.Machine.execTemperatureLimit source centi dt s
  | .supplyRange source deviation dt => Sys2Proof.Machine.execSupplyRange source deviation dt s
  | .tileLinkError tile parity dt => Sys2Proof.Machine.execTileLinkError tile parity dt s
  | .eccError err dt => Sys2Proof.Machine.execEccError err dt s
  | .dmaError channel dt => Sys2Proof.Machine.execDmaError channel dt s
  | .laneTxFault lane dt => Sys2Proof.Machine.execLaneTxFault lane dt s
  | .cryptoSelftest result => Sys2Proof.Machine.execCryptoSelftest result s
  | .collectorSelf register dt => Sys2Proof.Machine.execCollectorSelf register dt s
  | .faultRaise source instance_ forced detail dt => Sys2Proof.Machine.execFaultRaise source instance_ forced detail dt s
  | .faultHandle => Sys2Proof.Machine.execFaultHandle s
  | .persistenceExpire source instance_ => Sys2Proof.Machine.execPersistenceExpire source instance_ s
  | .eclipseExit => Sys2Proof.Machine.execEclipseExit s
  | .eclipseOccultation => Sys2Proof.Machine.execEclipseOccultation s
  | .collectorForcedReset => Sys2Proof.Machine.execCollectorForcedReset s
  | .coreWatchdog core dt => Sys2Proof.Machine.execCoreWatchdog core dt s
  | .grantWatchdog requester dt => Sys2Proof.Machine.execGrantWatchdog requester dt s
  | .rateLimitRefill => Sys2Proof.Machine.execRateLimitRefill s
  | .suppressed code => Sys2Proof.Machine.execSuppressed code s
  | .journalRecordProgram => Sys2Proof.Machine.execJournalRecordProgram s
  | .journalSectorErase => Sys2Proof.Machine.execJournalSectorErase s
  | .calRunStart tile switchOk => Sys2Proof.Machine.execCalRunStart tile switchOk s
  | .calRunEnd tile outputs temp => Sys2Proof.Machine.execCalRunEnd tile outputs temp s
  | .calRetry fe => Sys2Proof.Machine.execCalRetry fe s
  | .testdacPathHoldEnd tile => Sys2Proof.Machine.execTestdacPathHoldEnd tile s
  | .overlapCompare ch own spare switchOk => Sys2Proof.Machine.execOverlapCompare ch own spare switchOk s
  | .breakBeforeMakeHandover ch switchOk => Sys2Proof.Machine.execBreakBeforeMakeHandover ch switchOk s
  | .housekeepingConversion code => Sys2Proof.Machine.execHousekeepingConversion code s
  | .urgentConversion code => Sys2Proof.Machine.execUrgentConversion code s
  | .captureDataExport def_ => Sys2Proof.Machine.execCaptureDataExport def_ s
  | .captureRearm def_ => Sys2Proof.Machine.execCaptureRearm def_ s
  | .memberFlareExpire unit => Sys2Proof.Machine.execMemberFlareExpire unit s
  | .trigInEdge rising dt => Sys2Proof.Machine.execTrigInEdge rising dt s
  | .flareMessageReceipt link msg => Sys2Proof.Machine.execFlareMessageReceipt link msg s
  | .outletSend outlet => Sys2Proof.Machine.execOutletSend outlet s
  | .cellTransmit lane slot depart => Sys2Proof.Machine.execCellTransmit lane slot depart s
  | .cellReceipt lane cell arrive => Sys2Proof.Machine.execCellReceipt lane cell arrive s
  | .nakGapTimeout link => Sys2Proof.Machine.execNakGapTimeout link s
  | .nak link missing => Sys2Proof.Machine.execNak link missing s
  | .credit link msg => Sys2Proof.Machine.execCredit link msg s
  | .creditReturnSend link => Sys2Proof.Machine.execCreditReturnSend link s
  | .resync link msg => Sys2Proof.Machine.execResync link msg s
  | .loopTest lane msg lcrcOk => Sys2Proof.Machine.execLoopTest lane msg lcrcOk s
  | .timeMessageReceipt lane msg arrive => Sys2Proof.Machine.execTimeMessageReceipt lane msg arrive s
  | .passThroughRecord link cells => Sys2Proof.Machine.execPassThroughRecord link cells s
  | .mailboxCellMessage link dest hops mb msg env => Sys2Proof.Machine.execMailboxCellMessage link dest hops mb msg env s
  | .laneSearchAttempt lane => Sys2Proof.Machine.execLaneSearchAttempt lane s
  | .tsReceipt lane ts => Sys2Proof.Machine.execTsReceipt lane ts s
  | .rxReady lane eyeH eyeV violations => Sys2Proof.Machine.execRxReady lane eyeH eyeV violations s
  | .trainingTimeout lane partnerHeard => Sys2Proof.Machine.execTrainingTimeout lane partnerHeard s
  | .latencyMeasure lane latency => Sys2Proof.Machine.execLatencyMeasure lane latency s
  | .laneLos lane dt => Sys2Proof.Machine.execLaneLos lane dt s
  | .laneLol lane dt => Sys2Proof.Machine.execLaneLol lane dt s
  | .laneRejoin lane => Sys2Proof.Machine.execLaneRejoin lane s
  | .udpMailboxDatagram data env => Sys2Proof.Machine.execUdpMailboxDatagram data env s
  | .udpMailboxTimeout dest msgId => Sys2Proof.Machine.execUdpMailboxTimeout dest msgId s
  | .arpRequest targetIp senderIp senderMac => Sys2Proof.Machine.execArpRequest targetIp senderIp senderMac s
  | .ptpSync origin arrive correction master => Sys2Proof.Machine.execPtpSync origin arrive correction master s
  | .ptpDelayResp depart arrive correction => Sys2Proof.Machine.execPtpDelayResp depart arrive correction s
  | .ptpAnnounce data => Sys2Proof.Machine.execPtpAnnounce data s
  | .ptpMessageSend kind at_ => Sys2Proof.Machine.execPtpMessageSend kind at_ s
  | .announceReceiptTimeout => Sys2Proof.Machine.execAnnounceReceiptTimeout s
  | .ppsEdge rising edge => Sys2Proof.Machine.execPpsEdge rising edge s
  | .ref10LockLoss => Sys2Proof.Machine.execRef10LockLoss s
  | .refclkAbsent => Sys2Proof.Machine.execRefclkAbsent s
  | .timeSourceLost => Sys2Proof.Machine.execTimeSourceLost s
  | .sourceQualified => Sys2Proof.Machine.execSourceQualified s
  | .slewComplete => Sys2Proof.Machine.execSlewComplete s
  | .grantIn level => Sys2Proof.Machine.execGrantIn level s
  | .pairConflict => Sys2Proof.Machine.execPairConflict s
  | .takeover => Sys2Proof.Machine.execTakeover s
  | .release => Sys2Proof.Machine.execRelease s
  | .shadowUnitReceipt unit => Sys2Proof.Machine.execShadowUnitReceipt unit s
  | .statusUnitTimeout => Sys2Proof.Machine.execStatusUnitTimeout s
  | .resyncRetry => Sys2Proof.Machine.execResyncRetry s
  | .resyncComplete => Sys2Proof.Machine.execResyncComplete s
  | .vinRise => Sys2Proof.Machine.execVinRise s
  | .vinLow => Sys2Proof.Machine.execVinLow s
  | .brownOut => Sys2Proof.Machine.execBrownOut s
  | .resetN lowNs => Sys2Proof.Machine.execResetN lowNs s
  | .bringUpPhaseEnd env => Sys2Proof.Machine.execBringUpPhaseEnd env s
  | .dramWipeDone => Sys2Proof.Machine.execDramWipeDone s
  | .firstLight elapsed => Sys2Proof.Machine.execFirstLight elapsed s
  | .opSecondsLog => Sys2Proof.Machine.execOpSecondsLog s
  | .drainEnd timedOut => Sys2Proof.Machine.execDrainEnd timedOut s
  | .drainFinalTick => Sys2Proof.Machine.execDrainFinalTick s
  | .pageMoveDone page => Sys2Proof.Machine.execPageMoveDone page s
  | .patrolScrub corrected => Sys2Proof.Machine.execPatrolScrub corrected s
  | .windowRevoke window => Sys2Proof.Machine.execWindowRevoke window s
  | .arbiterRefill => Sys2Proof.Machine.execArbiterRefill s
  | .poolBlockFree => Sys2Proof.Machine.execPoolBlockFree s
  | .refclkPresent => Sys2Proof.Machine.execRefclkPresent s
  | .characterAlignment lane boundary comma => Sys2Proof.Machine.execCharacterAlignment lane boundary comma s
  | .ethLinkUp => Sys2Proof.Machine.execEthLinkUp s
  | .ethLinkDown => Sys2Proof.Machine.execEthLinkDown s
  | .onPhaseStart group => Sys2Proof.Machine.execOnPhaseStart group s
  | .onPhaseEnd group openHeld shortHeld chOpen chShort => Sys2Proof.Machine.execOnPhaseEnd group openHeld shortHeld chOpen chShort s
  | .limiterFoldBack bridge index => Sys2Proof.Machine.execLimiterFoldBack bridge index s
  | .limiterRetry ch => Sys2Proof.Machine.execLimiterRetry ch s
  | .arbitrationRound encoder requests => Sys2Proof.Machine.execArbitrationRound encoder requests s
  | .privilegedPreemption requester progress => Sys2Proof.Machine.execPrivilegedPreemption requester progress s
  | .ptpDelayReq arrive seqId port => Sys2Proof.Machine.execPtpDelayReq arrive seqId port s
  | .arpReply ip mac => Sys2Proof.Machine.execArpReply ip mac s

end Sys2Proof.Machine
end

