-- ==== Sys2Proof/WellFormed.lean ====
section
/-! DEFINITION. Well-formed commands: numbers of channels, lanes, links, units and the like lie in the ranges the spec gives them
(01 R11, R20, 07 R147, R154, 08 R194, 11 R259, 13 R317, 16 R400), and messages of fixed size have it. A command that is not
well-formed names nothing the hub has. -/

namespace Sys2Proof

/-- The operands lie in their ranges. -/
def Instr.wf (i : Instr) : Bool :=
  match i with
  | .hostPortTransaction _ _ _ _ _ => true
  | .registerWrite _ _ => true
  | .doorbell _ _ => true
  | .attnClear _ => true
  | .fifoStatusClear _ => true
  | .fifoDataRead => true
  | .copyDropsRead => true
  | .noticeDeliver mb => mb == 0 || mb == 1 || mb == 7
  | .mailboxMessageArrival mb _ via _ => decide (2 ≤ mb ∧ mb ≤ 5) && (decide (via < 6) || via == 7)
  | .cfgLabel req => decide (req.mailbox < 8)
  | .readIdentity req => decide (req.mailbox < 8)
  | .readLedger req => decide (req.mailbox < 8)
  | .cfgChannel req => decide (req.mailbox < 8)
  | .cfgExcitation req => decide (req.mailbox < 8)
  | .cfgRemap req => decide (req.mailbox < 8)
  | .reviveChannel req => decide (req.mailbox < 8)
  | .readChannel req => decide (req.mailbox < 8)
  | .cfgTick req => decide (req.mailbox < 8)
  | .cfgTime req => decide (req.mailbox < 8)
  | .timeStep req => decide (req.mailbox < 8)
  | .readTime req => decide (req.mailbox < 8)
  | .cfgCalibration req => decide (req.mailbox < 8)
  | .calSelf req => decide (req.mailbox < 8)
  | .calSystem req => decide (req.mailbox < 8)
  | .cfgHousekeeping req => decide (req.mailbox < 8)
  | .readCalQuality req => decide (req.mailbox < 8)
  | .readHousekeeping req => decide (req.mailbox < 8)
  | .loadGraph req => decide (req.mailbox < 8)
  | .activateGraph req => decide (req.mailbox < 8)
  | .readGraph req => decide (req.mailbox < 8)
  | .cfgFlare req => decide (req.mailbox < 8)
  | .cfgCapture req => decide (req.mailbox < 8)
  | .flareNow req => decide (req.mailbox < 8)
  | .releaseCapture req => decide (req.mailbox < 8)
  | .clearCaptureStats req => decide (req.mailbox < 8)
  | .readCaptures req => decide (req.mailbox < 8)
  | .cfgCompression req => decide (req.mailbox < 8)
  | .custodyAck req => decide (req.mailbox < 8)
  | .custodyRetransmit req => decide (req.mailbox < 8)
  | .cfgOutlets req => decide (req.mailbox < 8)
  | .compressJob req => decide (req.mailbox < 8)
  | .resumeCompress req => decide (req.mailbox < 8)
  | .cancelCompress req => decide (req.mailbox < 8)
  | .cfgLane req => decide (req.mailbox < 8)
  | .cfgSlotTable req => decide (req.mailbox < 8)
  | .cfgUplink req => decide (req.mailbox < 8)
  | .readLane req => decide (req.mailbox < 8)
  | .openWindow req => decide (req.mailbox < 8)
  | .closeWindow req => decide (req.mailbox < 8)
  | .transfer req _ => decide (req.mailbox < 8)
  | .resumeTransfer req _ => decide (req.mailbox < 8)
  | .cfgFault req => decide (req.mailbox < 8)
  | .forceFault req => decide (req.mailbox < 8)
  | .readFaults req => decide (req.mailbox < 8)
  | .readJournal req => decide (req.mailbox < 8)
  | .cfgPair req => decide (req.mailbox < 8)
  | .pairResync req => decide (req.mailbox < 8)
  | .readPair req => decide (req.mailbox < 8)
  | .provision req => decide (req.mailbox < 8)
  | .commission req => decide (req.mailbox < 8)
  | .enterMaintenance req => decide (req.mailbox < 8)
  | .exitMaintenance req => decide (req.mailbox < 8)
  | .decommission req => decide (req.mailbox < 8)
  | .loadKey req => decide (req.mailbox < 8)
  | .eraseKey req => decide (req.mailbox < 8)
  | .fwLoad req => decide (req.mailbox < 8)
  | .fwVerify req => decide (req.mailbox < 8)
  | .fwInstall req => decide (req.mailbox < 8)
  | .fwActivate req => decide (req.mailbox < 8)
  | .reset req => decide (req.mailbox < 8)
  | .cfgLoopOutput req => decide (req.mailbox < 8)
  | .readLoop req => decide (req.mailbox < 8)
  | .fwVerifyDone => true
  | .fwInstallDone _ => true
  | .compressJobStop job => decide (job < 4)
  | .calSystemWindowClose ch => decide (ch < 512)
  | .systemCoefficientsEffect => true
  | .meridianTick _ => true
  | .frameSettle _ => true
  | .reductionPeriodClose _ => true
  | .ledgerPeriod => true
  | .scheduleFlare unit => decide (unit < 16)
  | .changeInstant => true
  | .tickRateChange => true
  | .graphActivation => true
  | .slotTableSwap lane => decide (lane < 6)
  | .timeStepApply => true
  | .stepDiscarded => true
  | .sampleSlotCreate ch _ => decide (ch < 512)
  | .overRangeStart fe _ _ => decide (fe < 576)
  | .overRangeEnd fe _ _ => decide (fe < 576)
  | .neighbourVerdictDeadline fe => decide (fe < 576)
  | .autorangeDown ch _ => decide (ch < 512)
  | .autorangeUp ch _ => decide (ch < 512)
  | .detectorAssert _ instance_ _ _ => decide (instance_ < 512)
  | .faultOccurrenceClear _ _ _ => true
  | .excVinRange _ _ => true
  | .loopCompliance output _ _ => decide (output < 8)
  | .stuckOver ch _ => decide (ch < 512)
  | .feFault fe _ => decide (fe < 576)
  | .sourceFault ch _ => decide (ch < 512)
  | .temperatureLimit source _ _ => decide (source < 6)
  | .supplyRange source _ _ => decide (8 ≤ source ∧ source ≤ 15) || decide (100 ≤ source ∧ source < 104)
  | .tileLinkError tile _ _ => decide (tile < 4)
  | .eccError _ _ => true
  | .dmaError channel _ => decide (channel < 32)
  | .laneTxFault lane _ => decide (lane < 6)
  | .cryptoSelftest _ => true
  | .collectorSelf _ _ => true
  | .faultRaise _ _ _ _ _ => true
  | .faultHandle => true
  | .persistenceExpire _ _ => true
  | .eclipseExit => true
  | .eclipseOccultation => true
  | .collectorForcedReset => true
  | .coreWatchdog core _ => decide (core < 4)
  | .grantWatchdog requester _ => decide (requester < 20)
  | .rateLimitRefill => true
  | .suppressed _ => true
  | .journalRecordProgram => true
  | .journalSectorErase => true
  | .calRunStart tile _ => decide (tile < 4)
  | .calRunEnd tile bits _ => decide (tile < 4) && bits.all fun x => decide (x.length = 655360)
  | .calRetry fe => decide (fe < 576)
  | .testdacPathHoldEnd tile => decide (tile < 4)
  | .overlapCompare ch _ _ _ => decide (ch < 512)
  | .breakBeforeMakeHandover ch _ => decide (ch < 512)
  | .housekeepingConversion _ => true
  | .urgentConversion _ => true
  | .captureDataExport def_ => decide (def_ < 8)
  | .captureRearm def_ => decide (def_ < 8)
  | .memberFlareExpire unit => decide (unit < 16)
  | .trigInEdge _ _ => true
  | .flareMessageReceipt link _ => decide (link < 4)
  | .outletSend outlet => decide (outlet < 3)
  | .cellTransmit lane slot _ => decide (lane < 6) && decide (slot < 64)
  | .cellReceipt lane cell _ => decide (lane < 6) && decide (cell.length = 256)
  | .nakGapTimeout link => decide (link < 4)
  | .nak link _ => decide (link < 4)
  | .credit link _ => decide (link < 4)
  | .creditReturnSend link => decide (link < 4)
  | .resync link _ => decide (link < 4)
  | .loopTest lane _ _ => decide (lane < 6)
  | .timeMessageReceipt lane msg _ => decide (lane < 6) && decide (msg.length = 64)
  | .passThroughRecord link _ => decide (link < 4)
  | .mailboxCellMessage link _ _ mb _ _ => decide (link < 4) && decide (2 ≤ mb ∧ mb ≤ 5)
  | .laneSearchAttempt lane => decide (lane < 6)
  | .tsReceipt lane ts => decide (lane < 6) && decide (ts.length = 15)
  | .rxReady lane _ _ _ => decide (lane < 6)
  | .trainingTimeout lane _ => decide (lane < 6)
  | .latencyMeasure lane _ => decide (lane < 6)
  | .laneLos lane _ => decide (lane < 6)
  | .laneLol lane _ => decide (lane < 6)
  | .laneRejoin lane => decide (lane < 6)
  | .udpMailboxDatagram _ _ => true
  | .udpMailboxTimeout _ _ => true
  | .arpRequest _ _ _ => true
  | .ptpSync _ _ _ _ => true
  | .ptpDelayResp _ _ _ => true
  | .ptpAnnounce _ => true
  | .ptpMessageSend _ _ => true
  | .announceReceiptTimeout => true
  | .ppsEdge _ _ => true
  | .ref10LockLoss => true
  | .refclkAbsent => true
  | .timeSourceLost => true
  | .sourceQualified => true
  | .slewComplete => true
  | .grantIn _ => true
  | .pairConflict => true
  | .takeover => true
  | .release => true
  | .shadowUnitReceipt _ => true
  | .statusUnitTimeout => true
  | .resyncRetry => true
  | .resyncComplete => true
  | .vinRise => true
  | .vinLow => true
  | .brownOut => true
  | .resetN _ => true
  | .bringUpPhaseEnd env => env.runs.all fun x => decide (x.1 < 576) && decide (x.2.2.2.length = 6)
  | .dramWipeDone => true
  | .firstLight elapsed => decide (0 ≤ elapsed)
  | .opSecondsLog => true
  | .drainEnd _ => true
  | .drainFinalTick => true
  | .pageMoveDone _ => true
  | .patrolScrub _ => true
  | .windowRevoke window => decide (window < 16)
  | .arbiterRefill => true
  | .poolBlockFree => true
  | .refclkPresent => true
  | .characterAlignment lane boundary _ => decide (lane < 6) && decide (boundary < 10)
  | .ethLinkUp => true
  | .ethLinkDown => true
  | .onPhaseStart group => decide (group < 64)
  | .onPhaseEnd group _ _ _ _ => decide (group < 64)
  | .limiterFoldBack bridge index => decide (index < if bridge then 64 else 512)
  | .limiterRetry ch => decide (ch < 512)
  | .arbitrationRound _ requests => requests.all fun r => decide (r < 20)
  | .privilegedPreemption requester _ => decide (requester < 20)
  | .ptpDelayReq _ _ _ => true
  | .arpReply _ _ => true

end Sys2Proof
end

