-- ==== Sys2Proof/Safety.lean ====
section
/-! DEFINITION. What counts as a safe run, the invariant of the host port window, and the terms in which the claims speak of the
commands of chapter 14: when a request is admitted, and what an accepted one leaves. -/

namespace Sys2Proof.Machine

/-! ## Runs -/

/-- The state after a number of steps; none where a step stops. -/
def runSteps : Nat → State → Option State
  | 0, s => some s
  | n + 1, s =>
    match step s with
    | .next t => runSteps n t
    | _ => none

/-- A run is safe: no step of it faults or is refused. -/
def Safe (s : State) : Prop := ∀ n, (runSteps n s).isSome

/-- The host port window as the spec lets it stand: its buffers in canonical form (13 R315), ATTN with no reserved bit and bit 6
held by the FIFO (R315, 09 R221), no more words in the FIFO than it has, and PACKETS counting the words with END (09 R220, R221). -/
def HostInv (s : State) : Prop :=
  Memory.wf s.host.ram = true ∧ s.host.attn &&& 0xFFFFFF40#32 = 0#32 ∧ s.host.fifo.words.length ≤ fifoCapacity ∧
    s.host.fifo.packets = endCount s.host.fifo.words

/-! ## The commands of chapter 14 -/

/-- The rows that are commands of chapter 14: code, step 7, what the surroundings decide, and the request. -/
def commandRow (c : Instr) : Option (Nat × Cmd × Env × Req) :=
  match c with
  | .cfgLabel req => some (0x0010, cmdCfgLabel, {}, req)
  | .readIdentity req => some (0x0080, cmdReadIdentity, {}, req)
  | .readLedger req => some (0x0081, cmdReadLedger, {}, req)
  | .cfgChannel req => some (0x0100, cmdCfgChannel, {}, req)
  | .cfgExcitation req => some (0x0101, cmdCfgExcitation, {}, req)
  | .cfgRemap req => some (0x0102, cmdCfgRemap, {}, req)
  | .reviveChannel req => some (0x0103, cmdReviveChannel, {}, req)
  | .readChannel req => some (0x0180, cmdReadChannel, {}, req)
  | .cfgTick req => some (0x0200, cmdCfgTick, {}, req)
  | .cfgTime req => some (0x0201, cmdCfgTime, {}, req)
  | .timeStep req => some (0x0202, cmdTimeStep, {}, req)
  | .readTime req => some (0x0280, cmdReadTime, {}, req)
  | .cfgCalibration req => some (0x0300, cmdCfgCalibration, {}, req)
  | .calSelf req => some (0x0301, cmdCalSelf, {}, req)
  | .calSystem req => some (0x0302, cmdCalSystem, {}, req)
  | .cfgHousekeeping req => some (0x0303, cmdCfgHousekeeping, {}, req)
  | .readCalQuality req => some (0x0380, cmdReadCalQuality, {}, req)
  | .readHousekeeping req => some (0x0381, cmdReadHousekeeping, {}, req)
  | .loadGraph req => some (0x0400, cmdLoadGraph, {}, req)
  | .activateGraph req => some (0x0401, cmdActivateGraph, {}, req)
  | .readGraph req => some (0x0480, cmdReadGraph, {}, req)
  | .cfgFlare req => some (0x0500, cmdCfgFlare, {}, req)
  | .cfgCapture req => some (0x0501, cmdCfgCapture, {}, req)
  | .flareNow req => some (0x0502, cmdFlareNow, {}, req)
  | .releaseCapture req => some (0x0503, cmdReleaseCapture, {}, req)
  | .clearCaptureStats req => some (0x0504, cmdClearCaptureStats, {}, req)
  | .readCaptures req => some (0x0580, cmdReadCaptures, {}, req)
  | .cfgCompression req => some (0x0600, cmdCfgCompression, {}, req)
  | .custodyAck req => some (0x0601, cmdCustodyAck, {}, req)
  | .custodyRetransmit req => some (0x0602, cmdCustodyRetransmit, {}, req)
  | .cfgOutlets req => some (0x0603, cmdCfgOutlets, {}, req)
  | .compressJob req => some (0x0604, cmdCompressJob, {}, req)
  | .resumeCompress req => some (0x0605, cmdResumeCompress, {}, req)
  | .cancelCompress req => some (0x0606, cmdCancelCompress, {}, req)
  | .cfgLane req => some (0x0700, cmdCfgLane, {}, req)
  | .cfgSlotTable req => some (0x0701, cmdCfgSlotTable, {}, req)
  | .cfgUplink req => some (0x0702, cmdCfgUplink, {}, req)
  | .readLane req => some (0x0780, cmdReadLane, {}, req)
  | .openWindow req => some (0x0800, cmdOpenWindow, {}, req)
  | .closeWindow req => some (0x0801, cmdCloseWindow, {}, req)
  | .transfer req env => some (0x0880, cmdTransfer, env, req)
  | .resumeTransfer req env => some (0x0881, cmdResumeTransfer, env, req)
  | .cfgFault req => some (0x0900, cmdCfgFault, {}, req)
  | .forceFault req => some (0x0901, cmdForceFault, {}, req)
  | .readFaults req => some (0x0980, cmdReadFaults, {}, req)
  | .readJournal req => some (0x0981, cmdReadJournal, {}, req)
  | .cfgPair req => some (0x0A00, cmdCfgPair, {}, req)
  | .pairResync req => some (0x0A01, cmdPairResync, {}, req)
  | .readPair req => some (0x0A80, cmdReadPair, {}, req)
  | .provision req => some (0x0B00, cmdProvision, {}, req)
  | .commission req => some (0x0B01, cmdCommission, {}, req)
  | .enterMaintenance req => some (0x0B02, cmdEnterMaintenance, {}, req)
  | .exitMaintenance req => some (0x0B03, cmdExitMaintenance, {}, req)
  | .decommission req => some (0x0B04, cmdDecommission, {}, req)
  | .loadKey req => some (0x0B05, cmdLoadKey, {}, req)
  | .eraseKey req => some (0x0B06, cmdEraseKey, {}, req)
  | .fwLoad req => some (0x0B07, cmdFwLoad, {}, req)
  | .fwVerify req => some (0x0B08, cmdFwVerify, {}, req)
  | .fwInstall req => some (0x0B09, cmdFwInstall, {}, req)
  | .fwActivate req => some (0x0B0A, cmdFwActivate, {}, req)
  | .reset req => some (0x0B0B, cmdReset, {}, req)
  | .cfgLoopOutput req => some (0x0C00, cmdCfgLoopOutput, {}, req)
  | .readLoop req => some (0x0C80, cmdReadLoop, {}, req)
  | .hostPortTransaction _ _ _ _ _ => none
  | .registerWrite _ _ => none
  | .doorbell _ _ => none
  | .attnClear _ => none
  | .fifoStatusClear _ => none
  | .fifoDataRead => none
  | .copyDropsRead => none
  | .noticeDeliver _ => none
  | .mailboxMessageArrival _ _ _ _ => none
  | .fwVerifyDone => none
  | .fwInstallDone _ => none
  | .compressJobStop _ => none
  | .calSystemWindowClose _ => none
  | .systemCoefficientsEffect => none
  | .meridianTick _ => none
  | .frameSettle _ => none
  | .reductionPeriodClose _ => none
  | .ledgerPeriod => none
  | .scheduleFlare _ => none
  | .changeInstant => none
  | .tickRateChange => none
  | .graphActivation => none
  | .slotTableSwap _ => none
  | .timeStepApply => none
  | .stepDiscarded => none
  | .sampleSlotCreate _ _ => none
  | .overRangeStart _ _ _ => none
  | .overRangeEnd _ _ _ => none
  | .neighbourVerdictDeadline _ => none
  | .autorangeDown _ _ => none
  | .autorangeUp _ _ => none
  | .detectorAssert _ _ _ _ => none
  | .faultOccurrenceClear _ _ _ => none
  | .excVinRange _ _ => none
  | .loopCompliance _ _ _ => none
  | .stuckOver _ _ => none
  | .feFault _ _ => none
  | .sourceFault _ _ => none
  | .temperatureLimit _ _ _ => none
  | .supplyRange _ _ _ => none
  | .tileLinkError _ _ _ => none
  | .eccError _ _ => none
  | .dmaError _ _ => none
  | .laneTxFault _ _ => none
  | .cryptoSelftest _ => none
  | .collectorSelf _ _ => none
  | .faultRaise _ _ _ _ _ => none
  | .faultHandle => none
  | .persistenceExpire _ _ => none
  | .eclipseExit => none
  | .eclipseOccultation => none
  | .collectorForcedReset => none
  | .coreWatchdog _ _ => none
  | .grantWatchdog _ _ => none
  | .rateLimitRefill => none
  | .suppressed _ => none
  | .journalRecordProgram => none
  | .journalSectorErase => none
  | .calRunStart _ _ => none
  | .calRunEnd _ _ _ => none
  | .calRetry _ => none
  | .testdacPathHoldEnd _ => none
  | .overlapCompare _ _ _ _ => none
  | .breakBeforeMakeHandover _ _ => none
  | .housekeepingConversion _ => none
  | .urgentConversion _ => none
  | .captureDataExport _ => none
  | .captureRearm _ => none
  | .memberFlareExpire _ => none
  | .trigInEdge _ _ => none
  | .flareMessageReceipt _ _ => none
  | .outletSend _ => none
  | .cellTransmit _ _ _ => none
  | .cellReceipt _ _ _ => none
  | .nakGapTimeout _ => none
  | .nak _ _ => none
  | .credit _ _ => none
  | .creditReturnSend _ => none
  | .resync _ _ => none
  | .loopTest _ _ _ => none
  | .timeMessageReceipt _ _ _ => none
  | .passThroughRecord _ _ => none
  | .mailboxCellMessage _ _ _ _ _ _ => none
  | .laneSearchAttempt _ => none
  | .tsReceipt _ _ => none
  | .rxReady _ _ _ _ => none
  | .trainingTimeout _ _ => none
  | .latencyMeasure _ _ => none
  | .laneLos _ _ => none
  | .laneLol _ _ => none
  | .laneRejoin _ => none
  | .udpMailboxDatagram _ _ => none
  | .udpMailboxTimeout _ _ => none
  | .arpRequest _ _ _ => none
  | .ptpSync _ _ _ _ => none
  | .ptpDelayResp _ _ _ => none
  | .ptpAnnounce _ => none
  | .ptpMessageSend _ _ => none
  | .announceReceiptTimeout => none
  | .ppsEdge _ _ => none
  | .ref10LockLoss => none
  | .refclkAbsent => none
  | .timeSourceLost => none
  | .sourceQualified => none
  | .slewComplete => none
  | .grantIn _ => none
  | .pairConflict => none
  | .takeover => none
  | .release => none
  | .shadowUnitReceipt _ => none
  | .statusUnitTimeout => none
  | .resyncRetry => none
  | .resyncComplete => none
  | .vinRise => none
  | .vinLow => none
  | .brownOut => none
  | .resetN _ => none
  | .bringUpPhaseEnd _ => none
  | .dramWipeDone => none
  | .firstLight _ => none
  | .opSecondsLog => none
  | .drainEnd _ => none
  | .drainFinalTick => none
  | .pageMoveDone _ => none
  | .patrolScrub _ => none
  | .windowRevoke _ => none
  | .arbiterRefill => none
  | .poolBlockFree => none
  | .refclkPresent => none
  | .characterAlignment _ _ _ => none
  | .ethLinkUp => none
  | .ethLinkDown => none
  | .onPhaseStart _ => none
  | .onPhaseEnd _ _ _ _ _ => none
  | .limiterFoldBack _ _ => none
  | .limiterRetry _ => none
  | .arbitrationRound _ _ => none
  | .privilegedPreemption _ _ => none
  | .ptpDelayReq _ _ _ => none
  | .arpReply _ _ => none

/-- The hub that meets a request: its mailbox is the one served last (13 R319). -/
def meeting (r : Req) (s : State) : Hub := { s.hub with mbx.last := r.mailbox }

/-- The hub once the counter of a critical request is consumed (13 R324, R325). -/
def consumed (r : Req) (h : Hub) : Hub :=
  if isCritical r then raiseCounter r.origin r.keySlot.toNat r.counter.toNat h else h

/-- A request passes steps 1 to 6 of 13 R324 on a hub that serves its mailbox, has Wiori running (15 R382), does not relay it
(12 R306) and is not in an eclipse state that refuses it (15 R380). -/
structure Admitted (code : Nat) (r : Req) (s : State) : Prop where
  served : served s.hub r.mailbox = true
  runs : s.hub.faults.hardware = none
  request : isResponse r = false
  own : 2 ≤ r.mailbox → r.mailbox ≤ 5 → isStandby s.hub = false
  formed : wellFormed code true r s.hub = true
  mailbox : mailboxOk code r s.hub = true
  active : standbyRefuses code r s.hub = false
  plain : isCritical r = false → changes code = false
  critical : isCritical r = true →
    authentic code r s.hub = true ∧ rightsOk code r s.hub = true ∧ journalBlocked s.hub = false ∧ counterFault r s.hub = none ∧
      (changes code = true → lifecycleOk code r s.hub.flash.lifecycle = true)
  eclipse : isCritical r = true → eclipseRefuses code s.hub = false

/-- The hub an accepted command leaves: a PENDING one is counted, a critical one leaves its record, a shadowed one goes to the
partner (13 R322, R325, 14 R345, 12 R304). -/
def leaves (code : Nat) (r : Req) (p : Reply) (h : Hub) : Hub :=
  let h := if p.status == rPending then notePending r h else h
  let h := if isCritical r then acceptRec code r p h else h
  let m := msgBytes code r
  if isShadowed code then shadowCommand p.effect r.mailbox m (noteAccepted p.effect r.mailbox m h) else h

/-- The response to a request: made with the key and HUB_ID in force when it was taken (13 R322). -/
def answerTo (code : Nat) (r : Req) (p : Reply) (s : State) : Bytes :=
  responseBytes (meeting r s) code r (if isCritical r then keyOf (meeting r s) r.keySlot.toNat else none) false p.status p.payload

/-- The hub an admitted request meets at step 7 of 13 R324. -/
def atStep7 (r : Req) (s : State) : Hub := consumed r (meeting r s)

/-- What an accepted command leaves: the hub of step 7 with its records, the response delivered, and the reset it asks for begun,
the response having left, or waiting for the response to leave (13 R316, R322, R324, 14 R365, 17 R420). -/
def answered (code : Nat) (r : Req) (s : State) (p : Reply) (h : Hub) : State :=
  let u := respond code r.mailbox (answerTo code r p s) { s with hub := leaves code r p h }
  match p.reset with
  | some d =>
    if isHostMb r.mailbox || !runsInFull u.hub || !isUp u.hub then
      doReset d { u with hub := sendOut (.mailbox r.mailbox (answerTo code r p s)) u.hub }
    else { u with hub := { u.hub with power.resetDue := some d } }
  | none => u

/-- What a refusal at step 7 leaves: the answer, and what the refusal takes with it (13 R324, 14 R337). -/
def refusedBy (code : Nat) (r : Req) (s : State) (p : Reply) : State :=
  respond code r.mailbox (answerTo code r p s) { s with hub := refusedAfter code p.status r (atStep7 r s) }

/-- The record book balances: every assigned number is acknowledged, held (on a standby, or still to be copied to it) or withdrawn
(09 R213, 12 R312). -/
def balanced (h : Hub) : Prop :=
  h.stream.assigned = h.stream.acked + (h.stream.reserve.length + h.stream.uncopied) + h.stream.withdrawn

/-- A PENDING command finds room: fewer than 8 of a host mailbox are pending (13 R316). -/
def pendingRoom (r : Req) (s : State) : Prop := isHostMb r.mailbox = true → pendingOf s.hub r.mailbox < 8

/-- What an accepted change of configuration does: the store takes it, but for a subject that an accepted change of a later tick sets, and
outside PROVISIONED it waits for its tick (13 R333, 14 R340, R344). -/
def changed (tick : Nat) (items : List Item) (h : Hub) : Hub :=
  { h with
    changes := if h.flash.lifecycle = .provisioned then h.changes else h.changes ++ items.map fun i => ⟨tick, i⟩
    flash.store := (storedItems tick items h).foldl (fun c i => cfgItem i c) h.flash.store }

/-- At most 4 origins hold entries under STAGE (14 R343). -/
def stageRoom (origin : BitVec 32) (h : Hub) : Prop :=
  origin ∈ h.staged.map (·.origin) ∨ (h.staged.map (·.origin)).eraseDups.length < 4

/-- Entries held for an ORIGIN and command, added to those held before (14 R343). -/
def holding (origin : BitVec 32) (code : Nat) (items : List Item) (h : Hub) : Hub :=
  { h with
    staged := (h.staged.filter fun x => !(x.origin == origin && x.code == code)) ++
      [⟨origin, code, addItems (stagedItems h origin code) items⟩] }

/-- A message stands in the RESPONSE buffer of a host mailbox, its ATTN bit is set and MB_STATE reads IDLE (13 R316). -/
def Answered (mb : Nat) (m : Bytes) (t : State) : Prop :=
  readBytes t.host.ram (hostBase mb + 0x2000) m.length = m ∧ bitOf t.host.attn.toNat (hostIndex mb) = true ∧
    (hostMb t mb).busy = false

/-! ## Faults -/

/-- No occurrence of a source instance stands and no raise of it waits; the collector's queue has room, and is empty for the
sources whose errors merge into the front waiting raise (15 R372, R385, R386). -/
def Fresh (source inst : Nat) (h : Hub) : Prop :=
  (∀ o ∈ h.faults.occ, ¬(o.source = source ∧ o.inst = inst)) ∧
    (∀ r ∈ h.faults.queue, ¬(r.source = source ∧ r.inst = inst)) ∧ h.faults.queue.length < 64 ∧
    (ofCollector source inst = true → h.faults.queue = [])

/-- A source instance other than SWITCH_FAULT, whose raise also marks its switch (`noteSwitch`), begins to hold: its occurrence
stands, and its raise waits in the collector's queue (15 R372, R385). -/
def raised (source inst : Nat) (start capture : Inst) (detail : BitVec 64) (once : Bool) (h : Hub) : Hub :=
  { h with
    faults.occ := h.faults.occ ++
      [{ source := source, inst := inst, start := start, forced := false, real := true, once := once, since := h.time.op4k
         conf := (h.cfg.fault.find? (·.1 == source)).map (·.2) }]
    faults.queue := insertRaise { source := source, inst := inst, start := start, capture := capture, detail := detail }
      h.faults.queue }

end Sys2Proof.Machine
end

