-- ==== Sys2Proof/Certificates/Slice0/Obligations.lean ====
section
/-! DEFINITION. The statements about the model, for the provers: step and queue, reset, the host port, mailboxes, the commands group by
group, the events family by family. Each docstring names the rules of the spec it rests on, and a choice of the model by its log entry. -/

open Sys2Proof Sys2Proof.Machine

/-- Step takes the command at the front of the queue and runs it with the rest of the queue; a hub with no command waiting stays as it
is (the model's idling, log 2). -/
def Obligations.StepRunsFrontCommand : Prop :=
  (∀ (c : Instr) (s : State) (rest : List Instr), s.pending = c :: rest → step s = exec c { s with pending := rest }) ∧
    ∀ s : State, s.pending = [] → step s = .next s

/-- No command of the table stops the hub: every run is safe; and a command's effect is on everything but the queue: the commands that
wait stay as they are. -/
def Obligations.EveryRunIsSafe : Prop :=
  (∀ s : State, Safe s) ∧
  ∀ (c : Instr) (s t : State), exec c s = .next t → t.pending = s.pending

/-- Every step keeps the host port window as the spec lets it stand: the buffers in canonical form, no reserved bit of ATTN set, no more
words in the host FIFO than its 4,096, PACKETS equal to the END words held (13 R315, 09 R220, R221). -/
def Obligations.EveryStepKeepsHostInv : Prop := ∀ s t : State, HostInv s → step s = .next t → HostInv t

/-- The host port window after reset: ATTN 0, ATTN_EN 0xFF, FIFO empty, counters 0, every buffer zero and every mailbox IDLE (13 R315,
09 R221); the hub is in SUPPLY and BLANK, as shipped (13 R331, 17 R423); and the invariant holds. -/
def Obligations.ResetState : Prop :=
  HostInv State.reset ∧ State.reset.pending = [] ∧ readWindow State.reset 0x00 = 0x4B5A0512 ∧ readWindow State.reset 0x08 = 0 ∧
    readWindow State.reset 0x10 = 0 ∧ readWindow State.reset 0x14 = 0xFF ∧ readWindow State.reset 0x20 = 0x20000000 ∧
    readWindow State.reset 0x28 = 0 ∧ readWindow State.reset 0x2C = 0 ∧ (∀ a, readByte State.reset.host.ram a = 0) ∧
    State.reset.hub.flash.lifecycle = .blank ∧ State.reset.hub.power.phase = .supply

/-- Transactions on the host port (13 R314, R317, 17 R423): an opcode that is neither, or a hub in reset, has no effect; during bring-up
a read answers NOT_READY with zero words; an unaligned or unmapped address answers REFUSED_ARGUMENT; a read answers `count` words, and
one of a register that no read changes leaves the hub as it was; a whole word written to a request buffer reads back and leaves every
other byte. REGISTER_WRITE (13 R315): ATTN_EN takes the word; a word of a request buffer reads back and leaves every other byte; every
other address that has no behaviour of its own ignores the write. -/
def Obligations.HostPortTransactions : Prop :=
  (∀ (s : State) (op : Byte) (addr : BitVec 24) (data : Bytes) (count : Nat) (env : Env),
    let a := addr.toNat
    let reply (st : Nat) (ws : List Word) : HpReply :=
      { answered := true, status := BitVec.ofNat 8 st, state := BitVec.ofNat 8 (phaseCode s.hub.power.phase), words := ws }
    ((op ≠ 0xA5 ∧ op ≠ 0x5A) ∨ portAnswers s.hub = false →
      exec (.hostPortTransaction op addr data count env) s = .next { s with host.reply := {} }) ∧
    (portAnswers s.hub = true → portReady s.hub = false →
      exec (.hostPortTransaction 0xA5 addr data count env) s = .next { s with host.reply := reply 0x10 (List.replicate count 0) } ∧
      exec (.hostPortTransaction 0x5A addr data count env) s = .next { s with host.reply := reply 0x10 [] }) ∧
    (portReady s.hub = true → a % 4 ≠ 0 ∨ mapped a = false →
      exec (.hostPortTransaction 0xA5 addr data count env) s = .next { s with host.reply := reply 0x24 (List.replicate count 0) } ∧
      exec (.hostPortTransaction 0x5A addr data count env) s = .next { s with host.reply := reply 0x24 [] }) ∧
    (portReady s.hub = true → a % 4 = 0 → mapped a = true →
      (∃ t, exec (.hostPortTransaction 0xA5 addr data count env) s = .next t ∧ t.host.reply.status = 0 ∧
        t.host.reply.words.length = count) ∧
      (a ≠ 0x24 → a ≠ 0x2C →
        exec (.hostPortTransaction 0xA5 addr data 1 env) s = .next { s with host.reply := reply 0 [readWindow s a] })) ∧
    (portReady s.hub = true → a % 4 = 0 → HostInv s → data.length = 4 → ∀ mb, bufferAt a = some (mb, 0) →
      ∃ t, exec (.hostPortTransaction 0x5A addr data count env) s = .next t ∧
        t = { s with host.ram := t.host.ram, host.reply := reply 0 [] } ∧ readBytes t.host.ram a 4 = data ∧
        ∀ b, b < a ∨ a + 4 ≤ b → readByte t.host.ram b = readByte s.host.ram b)) ∧
  ∀ (s : State) (addr : BitVec 24) (w : Word), portReady s.hub = true → addr.toNat % 4 = 0 →
    (addr = 0x14 → exec (.registerWrite addr w) s = .next { s with host.attnEn := w }) ∧
    (∀ mb, HostInv s → bufferAt addr.toNat = some (mb, 0) →
      ∃ t, exec (.registerWrite addr w) s = .next t ∧ t = { s with host.ram := t.host.ram } ∧
        readWindow t addr.toNat = w ∧ readBytes t.host.ram addr.toNat 4 = leNat 4 w.toNat ∧
        ∀ b, b < addr.toNat ∨ addr.toNat + 4 ≤ b → readByte t.host.ram b = readByte s.host.ram b) ∧
    (addr ≠ 0x14 → (∀ mb, bufferAt addr.toNat ≠ some (mb, 0)) → exec (.registerWrite addr w) s = .next s)

/-- A doorbell (13 R316): an IDLE mailbox goes BUSY with its message waiting; one that is BUSY or LOCKED only sets DOORBELL_LOST; and
where Wiori is free with nothing else waiting, it takes the message at once. A message reaches MB2 to MB5 on a hub that serves them (13
R318): with fewer than 4 waiting there and Wiori busy it waits; a fifth request is answered BUSY, untagged, and nothing else changes. -/
def Obligations.MailboxesTakeRequests : Prop :=
  (∀ (s : State) (env : Env) (mb : Nat), portReady s.hub = true → mb = 0 ∨ mb = 1 ∨ mb = 7 →
    let bit : Word := BitVec.ofNat 32 (2 ^ hostIndex mb)
    let rung : State :=
      { updMb mb (fun x => { x with busy := true }) s with
        hub := { s.hub with mbx.waiting := s.hub.mbx.waiting ++ [{ mb := mb, msg := requestBytesAt s mb }] } }
    (mbState s mb = 0 → env.free = false → exec (.doorbell bit env) s = .next rung ∧ mbState rung mb = 1) ∧
    (mbState s mb ≠ 0 → env.free = false →
      exec (.doorbell bit env) s = .next { s with host.attn := s.host.attn ||| 0x80 }) ∧
    (mbState s mb = 0 → env.free = true → s.hub.mbx.waiting = [] → s.hub.faults.hardware = none → served s.hub mb = true →
      exec (.doorbell bit env) s =
        .next (takeMessage env { mb := mb, msg := requestBytesAt s mb }
          { rung with hub := { s.hub with mbx.last := mb } }))) ∧
  ∀ (s : State) (mb via : Nat) (msg : Bytes) (env : Env), 2 ≤ mb → mb ≤ 5 → served s.hub mb = true → isStandby s.hub = false →
    ((s.hub.mbx.waiting.filter (·.mb == mb)).length < 4 → env.free = false →
      exec (.mailboxMessageArrival mb msg via env) s =
        .next { s with hub := { s.hub with mbx.waiting := s.hub.mbx.waiting ++ [⟨mb, msg, via⟩] } }) ∧
    (∀ (code : Nat) (r : Req), 4 ≤ (s.hub.mbx.waiting.filter (·.mb == mb)).length → parseMsg mb msg = some (code, r) →
      isResponse r = false →
      exec (.mailboxMessageArrival mb msg via env) s =
        .next { s with hub := { s.hub with stream.due := s.hub.stream.due ++
          [{ ty := 9, order := 9, payload := leNat 1 mb ++ leNat 1 0 ++ zeros 2 ++
              responseBytes s.hub code r none false rBusy [] }] } })

/-- The attention and FIFO registers (13 R315, 09 R221, R222): writing 1 clears a bit of ATTN or FIFO_STATUS and no other, bit 6 of ATTN
and bit 31 of FIFO_STATUS being one; a read of an empty FIFO returns 0xF0 and changes nothing; a read of COPY_DROPS returns the count
and clears it. A read of FIFO_DATA on a host FIFO that holds words, outside the custody stream (09 R221, R222): the oldest word is
returned and removed; PACKETS falls with an END word that is read and PACKETS_READ counts it; the room left is taken by words of the
packet being written. -/
def Obligations.AttentionAndFifoRegisters : Prop :=
  (∀ (s : State) (bits : Word), portReady s.hub = true →
    (∃ t, exec (.attnClear bits) s = .next t ∧ attnWord t = attnWord s &&& ~~~bits ∧
      t = { s with host.attn := t.host.attn, host.fifo.notice := t.host.fifo.notice }) ∧
    exec (.fifoStatusClear bits) s =
      .next { s with host.fifo.overrun := s.host.fifo.overrun && !bits.getLsbD 30
                     host.fifo.notice := s.host.fifo.notice && !bits.getLsbD 31 } ∧
    (s.host.fifo.words = [] → custodyOutlet s.hub ≠ 2 →
      ∃ t, exec .fifoDataRead s = .next t ∧ t = { s with host.reply := t.host.reply } ∧ t.host.reply.words = [0xF0]) ∧
    (∃ t, exec .copyDropsRead s = .next t ∧ t = { s with host.copyDrops := 0, host.reply := t.host.reply } ∧
      t.host.reply.words = [s.host.copyDrops])) ∧
  ∀ (s : State) (w : Word) (ws : List Word), portReady s.hub = true → custodyOutlet s.hub ≠ 2 → HostInv s →
    s.host.fifo.words = w :: ws →
    ∃ t, exec .fifoDataRead s = .next t ∧ t.hub = s.hub ∧ t.host.reply.words = [w] ∧
      t.host.fifo.words = ws ++ s.host.fifo.rest.take (fifoCapacity - ws.length) ∧
      t.host.fifo.words ++ t.host.fifo.rest = ws ++ s.host.fifo.rest ∧
      t.host.packetsRead = (if w.getLsbD 3 then s.host.packetsRead + 1 else s.host.packetsRead) ∧
      t.host.ram = s.host.ram ∧ t.host.attn = s.host.attn ∧ HostInv t

/-- NOTICE_DELIVER (13 R316): while the host has cleared the mailbox's notice bit, its oldest waiting notice is written to NOTICE and
the bit is set; otherwise nothing changes. A completion notice for a host mailbox (13 R316, R322), tagged with the key its request was
checked with: with no other notice waiting and the notice bit clear it stands in NOTICE and sets the bit; otherwise it waits last. Once it
has left the queue one PENDING command fewer is counted (log 28). -/
def Obligations.NoticesReachTheHost : Prop :=
  (∀ (s : State) (mb : Nat), mb = 0 ∨ mb = 1 ∨ mb = 7 → HostInv s →
    (∀ (n : Bytes) (ns : List Bytes), (hostMb s mb).notices = n :: ns → bitOf s.host.attn.toNat (3 + hostIndex mb) = false →
      ∃ t, exec (.noticeDeliver mb) s = .next t ∧ t.hub = setPending mb (pendingOf s.hub mb - 1) s.hub ∧ (hostMb t mb).notices = ns ∧
        readBytes t.host.ram (hostBase mb + 0x4000) n.length = n ∧
        bitOf t.host.attn.toNat (3 + hostIndex mb) = true ∧
        ∀ b, b < hostBase mb + 0x4000 ∨ hostBase mb + 0x4000 + n.length ≤ b →
          readByte t.host.ram b = readByte s.host.ram b) ∧
    ((hostMb s mb).notices = [] ∨ bitOf s.host.attn.toNat (3 + hostIndex mb) = true → exec (.noticeDeliver mb) s = .next s)) ∧
  ∀ (s : State) (code status : Nat) (r : Req) (payload : Bytes), isHostMb r.mailbox = true → HostInv s →
    (isShadowed code = true → isStandby s.hub = false) →
    let m := responseBytes s.hub code r (if isCritical r then noticeKey r s.hub else none) true status payload
    let t := sendNotice code r status payload s
    t.pending = s.pending ∧ (∀ k, (r, k) ∈ t.hub.mbx.noticeKeys → False) ∧
    ((hostMb s r.mailbox).notices = [] → bitOf s.host.attn.toNat (3 + hostIndex r.mailbox) = false →
      readBytes t.host.ram (hostBase r.mailbox + 0x4000) m.length = m ∧
        bitOf t.host.attn.toNat (3 + hostIndex r.mailbox) = true ∧ (hostMb t r.mailbox).notices = [] ∧
        pendingOf t.hub r.mailbox = pendingOf s.hub r.mailbox - 1) ∧
    (bitOf s.host.attn.toNat (3 + hostIndex r.mailbox) = true →
      (hostMb t r.mailbox).notices = (hostMb s r.mailbox).notices ++ [m] ∧ t.host.ram = s.host.ram ∧
        pendingOf t.hub r.mailbox = pendingOf s.hub r.mailbox)

/-- The answer to a request of a host mailbox on an unpaired hub (13 R316): the response stands in RESPONSE, its ready bit is set and
the mailbox is IDLE; the hub is untouched, and so are all other bytes of the window. -/
def Obligations.ResponseReachesTheHost : Prop :=
  ∀ (s : State) (code mb : Nat) (m : Bytes), mb = 0 ∨ mb = 1 ∨ mb = 7 → HostInv s → s.hub.pair.paired = false →
    Answered mb m (respond code mb m s) ∧ (respond code mb m s).hub = s.hub ∧ (respond code mb m s).pending = s.pending ∧
      ∀ b, b < hostBase mb + 0x2000 ∨ hostBase mb + 0x2000 + m.length ≤ b →
        readByte (respond code mb m s).host.ram b = readByte s.host.ram b

/-- A message spells its code and request: parsing the bytes of a request whose LENGTH is that of its payload gives back the code and
every field (13 R320). -/
def Obligations.MessagesParseBack : Prop :=
  ∀ (code : Nat) (r : Req), code < 65536 → r.payload.length = r.length.toNat →
    parseMsg r.mailbox (msgBytes code r) = some (code, r)

/-- The order of 13 R324: a request that fails a step is answered with that step's code by the first step it fails, whatever the later
steps would say; up to step 5 no counter is consumed; in the eclipse state a critical command of groups 0x01 to 0x05 or 0x0C that
passes them is refused (15 R380); what the command's own checks refuse at step 7 is answered as they say, the counter being consumed. -/
def Obligations.RefusalsInOrder : Prop :=
  (∀ (i : Instr) (s : State) (code : Nat) (cmd : Cmd) (env : Env) (r : Req) (p : Reply),
    commandRow i = some (code, cmd, env, r) → Admitted code r s →
    cmd { code := code, req := r, env := env } (atStep7 r s) = .error p → p.reset = none →
    exec i s = .next (refusedBy code r s p)) ∧
  ∀ (i : Instr) (s : State) (code : Nat) (cmd : Cmd) (env : Env) (r : Req),
    commandRow i = some (code, cmd, env, r) → served s.hub r.mailbox = true → s.hub.faults.hardware = none →
    isResponse r = false → (2 ≤ r.mailbox → r.mailbox ≤ 5 → isStandby s.hub = false) →
    let h := meeting r s
    let goesOut (tagged : Bool) (p : Reply) (g : Hub) : Prop :=
      exec i s = .next (respond code r.mailbox
        (responseBytes h code r (if tagged then keyOf h r.keySlot.toNat else none) false p.status p.payload) { s with hub := g })
    (wellFormed code true r h = false → goesOut false (refuse 0x24) h) ∧
    (wellFormed code true r h = true → mailboxOk code r h = false → goesOut false (refuse 0x25) h) ∧
    (wellFormed code true r h = true → mailboxOk code r h = true → standbyRefuses code r h = false →
      (isCritical r = false → changes code = true → goesOut false (refuse 0x20) (authFail code 3 r h)) ∧
      (isCritical r = true → authentic code r h = false → goesOut false (refuse 0x20) (authFail code 3 r h)) ∧
      (isCritical r = true → authentic code r h = true →
        (rightsOk code r h = false → goesOut true (refuse 0x20) (authFail code 4 r h)) ∧
        (rightsOk code r h = true → journalBlocked h = false →
          (r.counter.toNat ≤ (lastCounter h r.origin r.keySlot.toNat).getD 0 → goesOut true (refuse 0x21) h) ∧
          (counterFault r h = none → changes code = true → lifecycleOk code r h.flash.lifecycle = false →
            ∃ g, goesOut true (refuse 0x22) g ∧ lastCounter g r.origin r.keySlot.toNat = some r.counter.toNat) ∧
          (counterFault r h = none → (changes code = true → lifecycleOk code r h.flash.lifecycle = true) →
            eclipseRefuses code h = true →
            ∃ g, goesOut true (refuse 0x25) g ∧ lastCounter g r.origin r.keySlot.toNat = some r.counter.toNat))))

/-- Every accepted command of chapter 14: where a row is a command, its request passes steps 1 to 6 of 13 R324, its own step 7 answers
with a reply and a hub, and a PENDING one finds room (R316), the command is carried out: the next state holds that hub with the records
of the command, the response delivered, and the reset it asks for begun. -/
def Obligations.AcceptedCommandIsCarriedOut : Prop :=
  ∀ (i : Instr) (s : State) (code : Nat) (cmd : Cmd) (env : Env) (r : Req) (p : Reply) (h : Hub),
    commandRow i = some (code, cmd, env, r) → Admitted code r s →
    cmd { code := code, req := r, env := env } (atStep7 r s) = .ok (p, h) →
    (p.status = rPending → pendingRoom r s) →
    exec i s = .next (answered code r s p h)

/-- Groups 0x00 and the rest of 0x01 (14 R347 to R350): CFG_LABEL stores its 64 bytes as given and journals the first 8; READ_IDENTITY
answers 168 bytes with the fields of R348 at their offsets; READ_LEDGER answers the ledger of the named channels that a ledger lists; a
remap or its undo, and the revival of retired channels, are accepted for their tick; READ_CHANNEL answers 32 bytes for each channel. The
reads change nothing but what every response leaves. -/
def Obligations.InformationAndChannelCommands : Prop :=
  (∀ (r : Req) (s : State),
    let g := atStep7 r s
    (Admitted 0x0010 r s → r.payload.length = 64 →
      exec (.cfgLabel r) s =
        .next (answered 0x0010 r s { args := r.payload.take 8 } { g with flash.store.label := r.payload })) ∧
    (Admitted 0x0080 r s → r.payload = [] → g.flash.keys.length = 8 → g.flash.store.label.length = 64 →
      ∃ b : Bytes, exec (.readIdentity r) s = .next (answered 0x0080 r s (answer rOk b) g) ∧ b.length = 168 ∧
        fieldAt b 0 4 = 0x4B5A0512 ∧ fieldAt b 8 4 = g.flash.hubId.toNat ∧ fieldAt b 12 1 = lifeCode g.flash.lifecycle ∧
        fieldAt b 32 4 = g.flash.powerCycles % 2 ^ 32 ∧ fieldAt b 40 2 = g.time.epoch % 2 ^ 16 ∧
        fieldAt b 68 4 = g.flash.bringUps % 2 ^ 32 ∧ b.drop 104 = g.flash.store.label) ∧
    (Admitted 0x0081 r s → r.payload.length = 4 → 1 ≤ fieldAt r.payload 2 2 → fieldAt r.payload 2 2 ≤ 100 →
      exec (.readLedger r) s =
        .next (answered 0x0081 r s
          (answer rOk (ledgerPayload g ((ledgerChans g).filter fun x =>
            fieldAt r.payload 0 2 ≤ x && x < fieldAt r.payload 0 2 + fieldAt r.payload 2 2))) g))) ∧
  ∀ (r : Req) (s : State) (t : Nat),
    let g := atStep7 r s
    let ch := fieldAt r.payload 0 2
    let action := fieldAt r.payload 2 1
    (Admitted 0x0102 r s → r.payload.length = 16 → ch < 512 → action < 2 → allZero ((r.payload.drop 3).take 5) = true →
      effectTick g (fieldAt r.payload 8 8) 1 = some t → remapOk g ch (action == 0) = true →
      exec (.cfgRemap r) s =
        .next (answered 0x0102 r s (acceptedAt g t [] (leNat 2 ch ++ leNat 1 action))
          { g with changes := g.changes ++ [⟨t, .remap ch (action == 0)⟩] })) ∧
    (let grp := fieldAt r.payload 0 1
     let mask := fieldAt r.payload 1 1
     let chs := ((List.range 8).filter (bitOf mask)).map (8 * grp + ·)
     Admitted 0x0103 r s → r.payload.length = 16 → grp < 64 → mask ≠ 0 → allZero ((r.payload.drop 2).take 6) = true →
      effectTick g (fieldAt r.payload 8 8) 1 = some t → (∀ c ∈ chs, (chanAt g c).retired = true) →
      let cfg := (planAt g t).cfg
      let n (c : Nat) : Nat :=
        let d := (cfg.chan.getD c 3).toNat
        settleN (tFe none d (cfg.group.getD grp 0).toNat (planAt g t).tCode) d
      exec (.reviveChannel r) s =
        .next (answered 0x0103 r s (acceptedAt g t (chs.flatMap fun c => leNat 4 (n c)) (leNat 1 grp ++ leNat 1 mask))
          { g with changes := g.changes ++ chs.map fun c => ⟨t, .revive c⟩ })) ∧
    (Admitted 0x0180 r s → r.payload.length = 4 → 1 ≤ fieldAt r.payload 2 2 → fieldAt r.payload 2 2 ≤ 64 →
      let chs := (rangeFrom ch (fieldAt r.payload 2 2)).filter (· < 512)
      exec (.readChannel r) s =
        .next (answered 0x0180 r s (answer rOk (leNat 2 chs.length ++ zeros 6 ++ chs.flatMap (chanEntry g))) g) ∧
      ∀ c ∈ chs, (chanEntry g c).length = 32 ∧ fieldAt (chanEntry g c) 0 8 = chDesc g c ∧
        fieldAt (chanEntry g c) 8 1 = pairCode (chanAt g c).pair)

/-- CFG_CHANNEL and CFG_EXCITATION (14 R340, R343, R349, 03 R54): with STAGE the checked entries are held for the request's ORIGIN;
without it, where the configuration keeps the relations of R49 to R58, R122, R142 and R155 and the checks of R36 from its tick on, what
is held and its own entries are accepted together for that tick. -/
def Obligations.ChannelConfigurationCommands : Prop :=
  ∀ (r : Req) (s : State) (hd : Head) (t : Nat),
    let g := atStep7 r s
    (Admitted 0x0100 r s → readHead { code := 0x0100, req := r } true 1 256 512 8 = .ok hd → hd.arg = 0 →
      effectTick g hd.at_ 1 = some t →
      checkAll (chanEntryCheck g (planAt (checkBase g) t) hd.first) 0 ((entries hd 8).map ofLe) = .ok () →
      let own := mapI (fun i d => Item.chan (hd.first + i) (BitVec.ofNat 64 d)) ((entries hd 8).map ofLe)
      (hd.stage = true → stageRoom r.origin g →
        exec (.cfgChannel r) s = .next (answered 0x0100 r s (stagedReply (argsList hd)) (holding r.origin 0x0100 own g))) ∧
      (hd.stage = false →
        let all := addItems (stagedItems g r.origin 0x0100) own
        let g' := dropStaged r.origin 0x0100 g
        relFaultFrom (schedule t all (checkBase g')) t = none → budgetFault (schedule t all (checkBase g')) t = none →
        exec (.cfgChannel r) s =
          .next (answered 0x0100 r s (accepted g t (chanReply (planAt (checkBase g) t) all) (argsList hd)) (changed t all g')))) ∧
    (Admitted 0x0101 r s → readHead { code := 0x0101, req := r } true 1 64 64 8 = .ok hd → hd.arg < 2 ^ 32 →
      let lo := hd.arg % 65536
      let hi := hd.arg / 65536 % 65536
      lo ≤ hi → effectTick g hd.at_ 1 = some t →
      checkAll (groupEntryCheck (planAt (checkBase g) t) lo) 0 ((entries hd 8).map ofLe) = .ok () →
      let own := Item.supply lo hi ::
        mapI (fun i d => Item.group (hd.first + i) (BitVec.ofNat 64 d)) ((entries hd 8).map ofLe)
      let args := leNat 2 hd.first ++ leNat 2 hd.count ++ leNat 4 (crc32c (r.payload.drop 16)).toNat
      (hd.stage = true → stageRoom r.origin g →
        exec (.cfgExcitation r) s = .next (answered 0x0101 r s (stagedReply args) (holding r.origin 0x0101 own g))) ∧
      (hd.stage = false →
        let all := addItems (stagedItems g r.origin 0x0101) own
        let g' := dropStaged r.origin 0x0101 g
        relFaultFrom (schedule t all (checkBase g')) t = none → budgetFault (schedule t all (checkBase g')) t = none →
        exec (.cfgExcitation r) s =
          .next (answered 0x0101 r s (accepted g t (excReply g (planAt (checkBase g) t) all) args) (changed t all g'))))

/-- V is 1 to 4 frames, 2 by default, and CFG_TICK sets it together with the tick rate (02 R29, R42, 14 R351): the command books the
rate and V for their boundary and stores them; a V outside 1 to 4, like a rate code above 5, is refused with REFUSED_ARGUMENT. -/
def Obligations.TickRateAndVerdictWindow : Prop :=
  State.reset.hub.flash.store.v = 2 ∧ State.reset.hub.time.v = 2 ∧
  ∀ (r : Req) (s : State) (hd : Head),
    let g := atStep7 r s
    (Admitted 0x0200 r s → readBareHead { code := 0x0200, req := r } 0 = .ok hd → hd.at_ = 0 →
      5 < bitsOf hd.arg 51 48 ∨ bitsOf hd.arg 54 52 = 0 ∨ 4 < bitsOf hd.arg 54 52 →
      exec (.cfgTick r) s = .next (refusedBy 0x0200 r s (refuseAt 0x24 22 0xFFFF))) ∧
    (Admitted 0x0200 r s → readBareHead { code := 0x0200, req := r } 0 = .ok hd → hd.at_ = 0 →
      let tc := bitsOf hd.arg 51 48
      let v := bitsOf hd.arg 54 52
      let b := if hd.arg % 2 ^ 48 = 0 then earliestB g else hd.arg % 2 ^ 48
      tc ≤ 5 → 1 ≤ v → v ≤ 4 → bitsOf hd.arg 63 55 = 0 → earliestB g ≤ b →
      let after := rateChecked b tc v g
      let old := (checkBase g).time
      relFaultFrom after (rateTickOf after b) = none → budgetFault after (rateTickOf after b) = none →
      exec (.cfgTick r) s =
        .next (answered 0x0200 r s
          (accepted g (rateTickOf after b) [] (leNat 6 b ++ leNat 1 (old.tCode + 16 * tc) ++ leNat 1 (old.v + 16 * v)))
          (if g.flash.lifecycle = .provisioned then { g with flash.store.tCode := tc, flash.store.v := v }
            else
              let booked := insertBy (·.1) (b, tc, v) (g.time.newTicks.filter (·.1 != b))
              { g with
                time.newTicks := booked
                flash.store.tCode := ((booked.getLast?.map (·.2)).getD (tc, v)).1
                flash.store.v := ((booked.getLast?.map (·.2)).getD (tc, v)).2 })))

/-- Group 0x02 but CFG_TICK (14 R351, R352, 10 R233, R234, R255): CFG_TIME is accepted for its tick, TIME_STEP is pending until its tick,
and READ_TIME answers 160 bytes. -/
def Obligations.TimeCommands : Prop :=
  ∀ (r : Req) (s : State) (hd : Head) (t : Nat),
    let g := atStep7 r s
    (Admitted 0x0201 r s → readBareHead { code := 0x0201, req := r } 24 = .ok hd → bitsOf hd.arg 7 4 = 0 →
      bitsOf hd.arg 63 41 = 0 → 10 ≤ bitsOf hd.arg 23 8 → effectTick g hd.at_ 1 = some t →
      (tbSource (BitVec.ofNat 64 hd.arg) = 4 → laneUEth (checkBase g).cfg = true) →
      (tbSource (BitVec.ofNat 64 hd.arg) = 3 → laneUEth (checkBase g).cfg = false) →
      exec (.cfgTime r) s =
        .next (answered 0x0201 r s (accepted g t [] (leNat 8 hd.arg))
          (changed t [.time (BitVec.ofNat 64 hd.arg) ((List.range 5).map fun i => sfieldAt hd.body (4 * i) 4)
            (fieldAt hd.body 20 4)] g))) ∧
    (let d : Inst := sfieldAt r.payload 0 8 * secUnits + (fieldAt r.payload 8 4 : Int) * 65536 + fieldAt r.payload 12 2
     Admitted 0x0202 r s → r.payload.length = 24 → fieldAt r.payload 8 4 < 1000000000 →
      allZero ((r.payload.drop 14).take 2) = true → effectTick g (fieldAt r.payload 16 8) 2 = some t →
      (laneSource g.time.source = true ∨ g.time.source = 4 → g.time.servo = .holdover) → g.time.step = none → d ≠ 0 →
      0 ≤ readingAt g t + d → (g.time.source = 5 ∨ g.time.source = 6 → d % secUnits = 0) →
      exec (.timeStep r) s =
        .next (answered 0x0202 r s
          { payload := leNat 8 (toStream g t), effect := toStream g t
            detail := some (r.payload.take 6 ++ leNat 4 (fieldAt r.payload 8 4) ++ leNat 2 (fieldAt r.payload 12 2) ++
              leNat 4 (toStream g t)) }
          { g with time.step := some (t, d) })) ∧
    (Admitted 0x0280 r s → r.payload = [] → g.view.laneMeas.length = 6 →
      ∃ b : Bytes, exec (.readTime r) s = .next (answered 0x0280 r s (answer rOk b) g) ∧ b.length = 160 ∧
        fieldAt b 0 8 = streamTick g % 2 ^ 64 ∧ (b.drop 8).take 16 = stampBytes (tickStamp g) ∧
        fieldAt b 40 1 = servoCode g.time.servo ∧ fieldAt b 41 1 = g.time.source % 256)

/-- The calibration commands (14 R353, 05 R102, R103, R111, R112): CFG_CALIBRATION is accepted for its tick; CAL_SELF makes the named
front ends due; CAL_SYSTEM opens a window at its tick and answers PENDING. CFG_HOUSEKEEPING, READ_CAL_QUALITY and READ_HOUSEKEEPING (14
R353, 05 R101, R115, R116): a valid sequence waits for the next pass and enters the store; the reads change nothing and answer whole
entries. -/
def Obligations.CalibrationAndHousekeepingCommands : Prop :=
  (∀ (r : Req) (s : State) (hd : Head) (t : Nat),
    let g := atStep7 r s
    (Admitted 0x0300 r s → readBareHead { code := 0x0300, req := r } 0 = .ok hd → calBlockOk hd.arg = true →
      effectTick g hd.at_ 1 = some t →
      exec (.cfgCalibration r) s =
        .next (answered 0x0300 r s (accepted g t [] (leNat 8 hd.arg)) (changed t [.cal (BitVec.ofNat 64 hd.arg)] g))) ∧
    (let kind := fieldAt r.payload 0 1
     let first := fieldAt r.payload 2 2
     let count := fieldAt r.payload 4 2
     Admitted 0x0301 r s → r.payload.length = 6 → kind < 2 → allZero ((r.payload.drop 1).take 1) = true →
      first + count ≤ (if kind = 0 then 512 else 576) →
      ∃ (fes : List Nat) (g' : Hub), fes.Nodup ∧
        (∀ fe, fe ∈ fes ↔ ∃ i, first ≤ i ∧ i < first + count ∧
          fe = if kind = 0 then (chanAt g i).fe.getD (homeFe g i) else i) ∧
        exec (.calSelf r) s =
          .next (answered 0x0301 r s
            { payload := leNat 2 (fes.filter fun fe => !(feUses g fe).isEmpty).length
              args := leNat 1 kind ++ leNat 2 first ++ leNat 2 count } g') ∧
        g' = { g with fes := g'.fes } ∧ g'.fes.length = g.fes.length ∧
        (∀ fe, fe ∈ fes → fe < g.fes.length → ∀ u ∈ feUses g fe, ∀ range ∈ u.2, (u.1, range, 3) ∈ (feAt g' fe).due) ∧
        ∀ fe, feAt g' fe = if fe ∈ fes ∧ fe < g.fes.length then makeDue g fe (feAt g fe) else feAt g fe) ∧
    (let ch := fieldAt r.payload 0 2
     let step := fieldAt r.payload 2 1
     let n := fieldAt r.payload 4 4
     Admitted 0x0302 r s → r.payload.length = 24 → ch < 512 → step < 3 → allZero ((r.payload.drop 3).take 1) = true →
      16 ≤ n → n ≤ 16777216 → n % 2 = 0 → allZero ((r.payload.drop 12).take 4) = true →
      effectTick g (fieldAt r.payload 16 8) 1 = some t → (step = 1 → zeroStands g ch = true) →
      (chanAt g ch).calWin = none → openWindows g < 16 → pendingRoom r s →
      exec (.calSystem r) s =
        .next (answered 0x0302 r s { acceptedAt g t [] (leNat 2 ch ++ leNat 1 step ++ leNat 4 n) with status := rPending }
          (updChan ch (fun x => { x with
            calWin := some { req := r, step := step, n := n, target := sfieldAt r.payload 8 4, openTick := t } }) g)))) ∧
  ∀ (r : Req) (s : State) (hd : Head) (t : Nat),
    let g := atStep7 r s
    (Admitted 0x0303 r s → readHead { code := 0x0303, req := r } false 1 16 16 4 = .ok hd → effectTick g hd.at_ 1 = some t →
      hd.first = 0 → hd.arg = 0 →
      let ws := (entries hd 4).map ofLe
      let seq := ws.map (BitVec.ofNat 32)
      (∀ w ∈ ws, hkEntryOk w = true) → hkSeqOk g (checkBase g).cfg seq = true →
      let waits := g.flash.lifecycle ≠ .provisioned
      exec (.cfgHousekeeping r) s =
        .next (answered 0x0303 r s
          { payload := leNat 8 (if waits then g.hk.pass + 1 else 0), effect := if waits then g.hk.pass + 1 else 0
            args := leNat 4 (crc32c hd.body).toNat }
          { g with hk.shadow := if waits then some seq else g.hk.shadow, flash.store.hkSeq := seq })) ∧
    (Admitted 0x0380 r s → r.payload.length = 4 →
      ∃ (es : List Bytes) (next : Nat),
        exec (.readCalQuality r) s =
          .next (answered 0x0380 r s (answer rOk (leNat 2 es.length ++ leNat 2 next ++ zeros 4 ++ es.flatten)) g) ∧
        es.length ≤ 255 ∧ ∀ e ∈ es, e.length = 16) ∧
    (Admitted 0x0381 r s → r.payload = [] →
      ∃ es : List Bytes,
        exec (.readHousekeeping r) s = .next (answered 0x0381 r s (answer rOk (leNat 8 g.hk.pass ++ es.flatten)) g) ∧
        es.length = g.cfg.hkSeq.length ∧ ∀ e ∈ es, e.length = 8)

/-- Group 0x04 (14 R355, 06 R139, R140): a segment of a graph is held and the last one makes it the shadow, once every descriptor and
the budget pass; an activation is pending for its tick; READ_GRAPH changes nothing. -/
def Obligations.GraphCommands : Prop :=
  ∀ (r : Req) (s : State) (t : Nat),
    let g := atStep7 r s
    let gid := BitVec.ofNat 32 (fieldAt r.payload 0 4)
    (let total := fieldAt r.payload 4 2
     let first := fieldAt r.payload 6 2
     let count := fieldAt r.payload 8 1
     let more := chunks 64 (r.payload.drop 16)
     ∀ held : List Bytes,
      Admitted 0x0400 r s → 1 ≤ count → count ≤ 63 → r.payload.length = 16 + 64 * count → gid ≠ 0 → 1 ≤ total → total ≤ 1024 →
      allZero ((r.payload.drop 9).take 7) = true → held.length = first → first + count ≤ total →
      (if first = 0 then g.arr.activate = none ∧ g.arr.loading = none
        else g.arr.loading = some (total, { id := gid, nodes := held })) →
      let graph : Graph := { id := gid, nodes := held ++ more }
      (first + count < total →
        exec (.loadGraph r) s =
          .next (answered 0x0400 r s { args := leNat 4 gid.toNat } { g with arr.loading := some (total, graph) })) ∧
      (first + count = total →
        let after := graphChecked graph g
        (∀ i, i < graph.nodes.length → nodeFault graph.nodes i = none) →
        (∀ u ∈ planTicks after g.time.tick, combineRel (planAt after u) graph = none) →
        budgetFault after g.time.tick = none →
        exec (.loadGraph r) s =
          .next (answered 0x0400 r s
            { payload := leNat 8 (graphWork (planAt after g.time.tick) graph) ++ leNat 4 (graphState graph) ++
                leNat 4 (entryBytesOf graph fun _ => true)
              args := leNat 4 gid.toNat ++ leNat 4 (crc32c graph.nodes.flatten).toNat }
            { g with arr := takeShadow graph g.arr }) ∧
        (takeShadow graph g.arr).shadow = some graph ∧ (takeShadow graph g.arr).loading = none ∧
        (g.arr.activate = none → g.arr.named = none → takeShadow graph g.arr = { g.arr with loading := none, shadow := some graph }))) ∧
    (Admitted 0x0401 r s → r.payload.length = 16 → allZero ((r.payload.drop 4).take 4) = true →
      effectTick g (fieldAt r.payload 8 8) 2 = some t → g.arr.activate = none →
      ∀ graph : Graph, (if gid = 0 then graph = {} else g.arr.shadow = some graph ∧ graph.id = gid ∧ g.arr.named = none) →
      let waits := g.flash.lifecycle ≠ .provisioned
      let after := if waits then { g with arr.activate := some (gid, t) } else graphChecked graph g
      (∀ u ∈ planTicks after t, combineRel (planAt after u) graph = none) → budgetFault after t = none →
      (waits → activationFailures after t = []) →
      exec (.activateGraph r) s =
        .next (answered 0x0401 r s (accepted g t [] (leNat 4 gid.toNat))
          { g with arr.activate := if waits then some (gid, t) else none, flash.store.graph := graph })) ∧
    (Admitted 0x0480 r s → r.payload = [] →
      exec (.readGraph r) s =
        .next (answered 0x0480 r s
          (answer rOk (leNat 4 g.arr.active.id.toNat ++ leNat 4 ((g.arr.shadow.map (·.id.toNat)).getD 0) ++
            leNat 8 ((g.arr.activate.map fun x => toStream g x.2).getD 0) ++
            leNat 8 (graphWork (planAt g g.time.tick) g.arr.active) ++ leNat 4 g.arr.replays ++ leNat 4 g.arr.overruns)) g))

/-- CFG_FLARE and CFG_CAPTURE (14 R343, R356, 07 R147 to R155, 16 R397): checked entries are held under STAGE, or accepted for their
tick with what is held; a new CAPTURE_MIB is stored at acceptance. -/
def Obligations.FlareAndCaptureConfiguration : Prop :=
  ∀ (r : Req) (s : State) (hd : Head) (t : Nat),
    let g := atStep7 r s
    (Admitted 0x0500 r s → readHead { code := 0x0500, req := r } true 1 16 16 32 = .ok hd → hd.arg = 0 →
      effectTick g hd.at_ 1 = some t →
      (∀ i d, (entries hd 32)[i]? = some d → flareFault (planAt (checkBase g) t).cfg.graph (hd.first + i) d = none) →
      let own := mapI (fun i d => Item.flare (hd.first + i) d) (entries hd 32)
      (hd.stage = true → stageRoom r.origin g →
        exec (.cfgFlare r) s = .next (answered 0x0500 r s (stagedReply (argsList hd)) (holding r.origin 0x0500 own g))) ∧
      (hd.stage = false →
        let all := addItems (stagedItems g r.origin 0x0500) own
        coincidenceNested (planAt (schedule t all (checkBase g)) t) = false →
        exec (.cfgFlare r) s =
          .next (answered 0x0500 r s (accepted g t [] (argsList hd)) (changed t all (dropStaged r.origin 0x0500 g))))) ∧
    (Admitted 0x0501 r s → readHead { code := 0x0501, req := r } true 0 8 8 96 = .ok hd → hd.arg < 65536 → mibOk hd.arg = true →
      effectTick g hd.at_ 1 = some t → (∀ d ∈ entries hd 96, captureFault d = none) →
      let own := mapI (fun i d => Item.capture (hd.first + i) d) (entries hd 96)
      let args := leNat 2 hd.first ++ leNat 2 hd.count ++ leNat 2 hd.arg
      (hd.stage = true → stageRoom r.origin g →
        exec (.cfgCapture r) s = .next (answered 0x0501 r s (stagedReply args) (holding r.origin 0x0501 own g))) ∧
      (hd.stage = false →
        let all := addItems (stagedItems g r.origin 0x0501) own
        let g' := dropStaged r.origin 0x0501 g
        let after := schedule t all (checkBase g')
        relFaultFrom after t = none → budgetFault after t = none → (hd.arg ≠ 0 → ringFailures after hd.arg t = []) →
        exec (.cfgCapture r) s =
          .next (answered 0x0501 r s (if all = [] then { payload := leNat 8 0, args := args } else accepted g t [] args)
            { changed t all g' with
              flash.store.captureMib := if hd.arg = 0 then (changed t all g').flash.store.captureMib else hd.arg })))

/-- FLARE_NOW, RELEASE_CAPTURE, CLEAR_CAPTURE_STATS and READ_CAPTURES (14 R356, 07 R164, R167). CUSTODY_ACK and CUSTODY_RETRANSMIT (14
R357, 09 R226 to R228): ascending ranges of assigned numbers are taken up, and the answer counts the held records they select. -/
def Obligations.CaptureAndCustodyCommands : Prop :=
  (∀ (r : Req) (s : State) (t : Nat),
    let g := atStep7 r s
    (let u := fieldAt r.payload 0 1
     let bs := r.payload.drop 8
     Admitted 0x0502 r s → r.payload.length = 24 → allZero ((r.payload.drop 1).take 7) = true → u < 16 → unitOn g u 7 = true →
      fieldAt bs 8 4 < 1000000000 → qualityOk (stampFrom bs).quality = true → (stampFrom bs).inst ≤ g.time.tickInst + 3600 * secUnits →
      (∀ x ∈ g.cap.now, x.1 ≠ u) →
      exec (.flareNow r) s =
        .next (answered 0x0502 r s { args := leNat 1 u ++ leNat 3 (fieldAt bs 2 6) ++ leNat 4 (fieldAt bs 8 4) }
          { g with cap.now := g.cap.now ++ [(u, if allZero bs then frameEnd g else (stampFrom bs).inst)] })) ∧
    (let d := fieldAt r.payload 0 1
     let id := fieldAt r.payload 4 4
     ∀ c : Capture, Admitted 0x0503 r s → r.payload.length = 8 → allZero ((r.payload.drop 1).take 3) = true → d < 8 →
      windowCapture g d id = some c →
      ∃ g' : Hub,
        exec (.releaseCapture r) s = .next (answered 0x0503 r s { args := leNat 1 d ++ leNat 4 id } g') ∧
        g' = { g with cap.defs := g'.cap.defs, windows := g'.windows, jobs := g'.jobs } ∧ windowCapture g' d id = none ∧
        (∀ w ∈ g'.windows, w.isOpen = true → w.object = 0 → w.def_ = d → w.capId = id → w.revoked = true) ∧
        (∀ (j : Nat) (x : Job), g'.jobs[j]? = some (some x) → x.running = true → x.def_ = d → x.capId = id → x.sourceLost = true)) ∧
    (Admitted 0x0504 r s → r.payload.length = 16 → fieldAt r.payload 0 1 < 4 → allZero ((r.payload.drop 1).take 7) = true →
      effectTick g (fieldAt r.payload 8 8) 1 = some t →
      exec (.clearCaptureStats r) s =
        .next (answered 0x0504 r s (acceptedAt g t [] (leNat 1 (fieldAt r.payload 0 1)))
          { g with changes := g.changes ++ [⟨t, .clearStats (fieldAt r.payload 0 1)⟩] })) ∧
    (Admitted 0x0580 r s → r.payload = [] →
      ∃ b : Bytes, exec (.readCaptures r) s = .next (answered 0x0580 r s (answer rOk b) g) ∧ b.length = 128 ∧
        ∀ d < 8, fieldAt b (16 * d) 1 = capCode (defState (defAt g d) g) ∧
          fieldAt b (16 * d + 4) 4 = (defAt g d).nextId % 2 ^ 32 ∧ fieldAt b (16 * d + 8) 4 = (defAt g d).missedTotal % 2 ^ 32)) ∧
  ∀ (r : Req) (s : State),
    let g := atStep7 r s
    let n := fieldAt r.payload 0 1
    let rs := (chunks 16 (r.payload.drop 8)).map fun b => (fieldAt b 0 8, fieldAt b 8 8)
    let freed := (g.stream.reserve.filter fun x => inRanges rs x.record.seq && !inRanges g.stream.acks x.record.seq).length
    1 ≤ n → r.payload.length = 8 + 16 * n → allZero ((r.payload.drop 1).take 7) = true →
    (r.mailbox ≤ 1 → custodyOutlet g = 2) → rangesOk g.stream.nextSeq 0 rs = true →
    (Admitted 0x0601 r s → n ≤ 255 →
      exec (.custodyAck r) s =
        .next (answered 0x0601 r s
          { payload := leNat 8 freed, args := leNat 4 ((rs.map (·.1)).headD 0) ++ leNat 4 (min (2 ^ 32 - 1) freed) }
          { g with stream.acks := g.stream.acks ++ rs })) ∧
    (Admitted 0x0602 r s → n ≤ 64 → sumNat (rs.map fun x => x.2 + 1 - x.1) ≤ 65536 →
      ∃ occ : Nat, exec (.custodyRetransmit r) s =
        .next (answered 0x0602 r s
          { payload := leNat 4 freed ++ leNat 4 occ
            args := leNat 4 ((rs.map (·.1)).headD 0) ++ leNat 2 (min 65535 freed) ++ leNat 2 (min 65535 occ) }
          { g with stream.retx := g.stream.retx ++ rs }))

/-- CFG_COMPRESSION and CFG_OUTLETS (14 R357, 08 R174, R175, 09 R217, R218), and the compression jobs (08 R194 to R196): a job takes a
free place and answers PENDING, one stopped with OUTPUT_FULL resumes, a cancelled one stops at a body boundary or is freed. -/
def Obligations.StreamCommands : Prop :=
  ∀ (r : Req) (s : State) (hd : Head) (t : Nat),
    let g := atStep7 r s
    (Admitted 0x0600 r s → readHead { code := 0x0600, req := r } false 512 512 512 2 = .ok hd → bitsOf hd.arg 7 1 = 0 →
      1 ≤ bitsOf hd.arg 23 8 → bitsOf hd.arg 63 24 = 0 → effectTick g hd.at_ 1 = some t →
      let es := (entries hd 2).map ofLe
      (∀ i e, es[i]? = some e → mapEntryOk (checkBase g).cfg i e = true) →
      exec (.cfgCompression r) s =
        .next (answered 0x0600 r s (accepted g t [] (leNat 3 hd.arg ++ leNat 4 (crc32c hd.body).toNat))
          (changed t [.comp (BitVec.ofNat 64 hd.arg) (es.map (BitVec.ofNat 16))] g))) ∧
    (Admitted 0x0603 r s → readBareHead { code := 0x0603, req := r } 0 = .ok hd → bitsOf hd.arg 1 0 ≠ 3 →
      1 ≤ bitsOf hd.arg 7 2 → bitsOf hd.arg 7 2 ≤ 40 → bitsOf hd.arg 31 26 = 0 → 1 ≤ bitsOf hd.arg 47 32 →
      1 ≤ bitsOf hd.arg 63 48 → effectTick g hd.at_ 1 = some t →
      (bitsOf hd.arg 1 0 = 1 → laneUEth (checkBase g).cfg = true ∧ bitsOf hd.arg 25 17 = 0) →
      (bitsOf hd.arg 1 0 = 2 → bitsOf hd.arg 16 8 = 0) →
      let items := [Item.outlets (BitVec.ofNat 64 hd.arg)]
      relFaultFrom (schedule t items (checkBase g)) t = none → budgetFault (schedule t items (checkBase g)) t = none →
      exec (.cfgOutlets r) s = .next (answered 0x0603 r s (accepted g t [] (leNat 8 hd.arg)) (changed t items g))) ∧
    (let d := fieldAt r.payload 0 1
     let size := fieldAt r.payload 2 2 * 65536
     let id := fieldAt r.payload 4 4
     let first := fieldAt r.payload 8 4
     ∀ (c : Capture) (j : Nat), Admitted 0x0604 r s → r.payload.length = 16 → allZero ((r.payload.drop 1).take 1) = true →
      allZero ((r.payload.drop 12).take 4) = true → d < 8 → windowCapture g d id = some c → c.headerDone = true →
      first < capPositions c → 12 + (cChans c.desc).length * 4099 ≤ size → g.jobs.findIdx? (·.isNone) = some j →
      size ≤ stagingFree g → pendingRoom r s →
      exec (.compressJob r) s =
        .next (answered 0x0604 r s
          { status := rPending, payload := leNat 1 j, args := leNat 1 d ++ leNat 4 id ++ leNat 1 j }
          { g with jobs := g.jobs.set j (some
            { req := r, def_ := d, capId := id, outSize := size, pos := first, seeds := cChans c.desc }) })) ∧
    (let j := fieldAt r.payload 0 1
     ∀ x : Job, r.payload.length = 1 → g.jobs[j]? = some (some x) →
      (Admitted 0x0605 r s → x.stop = some .outputFull → pendingRoom r s →
        exec (.resumeCompress r) s =
          .next (answered 0x0605 r s { status := rPending, args := leNat 1 j }
            { g with jobs := g.jobs.set j (some { x with req := r, running := true, stop := none, buf := [], bodies := 0, lost := [] }) })) ∧
      (Admitted 0x0606 r s → x.running = true →
        exec (.cancelCompress r) s =
          .next (answered 0x0606 r s { args := leNat 1 j } { g with jobs := g.jobs.set j (some { x with cancelAsked := true }) })) ∧
      (Admitted 0x0606 r s → x.running = false →
        exec (.cancelCompress r) s =
          .next (answered 0x0606 r s { args := leNat 1 j }
            { g with
              jobs := g.jobs.set j none
              windows := g.windows.map fun w =>
                if w.isOpen && (w.object == 2 && w.job == j) then revokeWindow w else w })))

/-- Group 0x07 (14 R358, 11 R258, R280, R281, R286, R288): CFG_LANE sets each named lane at once; CFG_SLOT_TABLE writes the shadow table
of each named lane and of its bond mate for the tick; CFG_UPLINK is accepted for its tick; READ_LANE answers six entries and clears the
counters it reads. -/
def Obligations.LaneCommands : Prop :=
  ∀ (r : Req) (s : State) (hd : Head) (t : Nat),
    let g := atStep7 r s
    (Admitted 0x0700 r s → readHead { code := 0x0700, req := r } false 1 6 6 8 = .ok hd → hd.at_ = 0 → hd.arg = 0 →
      let ds := (entries hd 8).map ofLe
      (∀ i d, ds[i]? = some d → laneFault (hd.first + i) d = none) →
      let cfg := (checkBase g).cfg
      (∀ i d, ds[i]? = some d → hd.first + i = 5 → bitsOf d 2 0 ≠ lMode (cfg.lane.getD 5 0) →
        bitsOf cfg.outlets.toNat 1 0 ≠ 1 ∧ tbSource cfg.timeBlock ≠ 3 ∧ tbSource cfg.timeBlock ≠ 4) →
      exec (.cfgLane r) s =
        .next (answered 0x0700 r s { payload := leNat 8 0, args := argsList hd }
          ((mapI (fun i d => (hd.first + i, d)) ds).foldl (fun h x => applyLane x.1 (BitVec.ofNat 64 x.2) h) g))) ∧
    (let hd : Head := { at_ := fieldAt r.payload 0 8, first := fieldAt r.payload 8 2, count := fieldAt r.payload 10 2
                        stage := false, arg := fieldAt r.payload 16 8, body := r.payload.drop 24 }
     Admitted 0x0701 r s → r.payload.length = 56 → fieldAt r.payload 12 1 = 0 → allZero ((r.payload.drop 13).take 3) = true →
      1 ≤ hd.count → hd.count ≤ 6 → hd.first + hd.count ≤ 6 → hd.arg = 0 → effectTick g hd.at_ 1 = some t →
      let tab := tableOf hd.body
      let ls := tableLanes hd
      (∀ l ∈ ls, tableOk l tab = true) →
      let put (x : List (List Nat)) : List (List Nat) := ls.foldl (fun x i => x.set i tab) x
      let g' := ls.foldl (fun h i => updLane i (fun x => { x with shadowTable := some (t, tab) }) h) g
      budgetFault (if g.flash.lifecycle = .provisioned then
        { checkBase g with cfg.slots := put (checkBase g).cfg.slots } else g') t = none →
      exec (.cfgSlotTable r) s =
        .next (answered 0x0701 r s (acceptedAt g t [] (argsList hd))
          { g with lanes := g'.lanes, flash.store.slots := put g.flash.store.slots }) ∧
      (∀ l ∈ ls, l < g.lanes.length → (laneAt g' l).shadowTable = some (t, tab)) ∧ (∀ l, l ∉ ls → laneAt g' l = laneAt g l)) ∧
    (Admitted 0x0702 r s → readBareHead { code := 0x0702, req := r } 32 = .ok hd → hd.arg = 0 → uplinkFault hd.body = none →
      effectTick g hd.at_ 1 = some t →
      exec (.cfgUplink r) s =
        .next (answered 0x0702 r s (acceptedAt g t [] (leNat 4 (crc32c hd.body).toNat))
          { g with
            changes := g.changes ++ [⟨t, .uplink hd.body⟩]
            flash.store.uplink := if g.changes.any (fun c => decide (t < c.tick) && sameSubject c.item (.uplink hd.body)) then
              g.flash.store.uplink else hd.body })) ∧
    (Admitted 0x0780 r s → r.payload = [] →
      exec (.readLane r) s =
        .next (answered 0x0780 r s (answer rOk ((List.range 6).flatMap (laneEntry g)))
          { g with lanes := g.lanes.map fun x => { x with crcErrors := 0, replays := 0, lockLosses := 0, prbsErrors := 0 } }) ∧
      ∀ l < 6, (laneEntry g l).length = 32 ∧ fieldAt (laneEntry g l) 0 1 = laneCode (laneAt g l).state)

/-- Windows (14 R359 to R361, 16 R399, R400): OPEN_WINDOW takes the first free window for an object that exists and tells its length;
CLOSE_WINDOW frees one opened from the same mailbox; TRANSFER and RESUME_TRANSFER deliver bytes of the window, and all of the span where
no burst fails; a revocation by the hardware meets a transfer in progress with reason 1 and DONE up to that burst, and revokes the
window; a TRANSFER whose grant the watchdog withdraws answers FAULT and raises GRANT_WATCHDOG of requester 14 (16 R414). -/
def Obligations.WindowCommands : Prop :=
  ∀ (r : Req) (s : State) (env : Env),
    let g := atStep7 r s
    let w := g.windows.getD (fieldAt r.payload 0 1) {}
    (let w : Window :=
      { isOpen := true, object := fieldAt r.payload 0 1, def_ := fieldAt r.payload 1 1, job := fieldAt r.payload 2 1
        capId := fieldAt r.payload 4 4, first := fieldAt r.payload 8 8, count := fieldAt r.payload 16 4
        rate := fieldAt r.payload 20 4, mailbox := r.mailbox }
     ∀ i : Nat, Admitted 0x0800 r s → r.payload.length = 24 → allZero ((r.payload.drop 3).take 1) = true →
      g.windows.findIdx? (!·.isOpen) = some i → objectExists g w = true →
      let sized := { w with length := objectLength g w }
      let g' := { g with windows := g.windows.set i { sized with table := windowTable g sized } }
      (w.rate ≠ 0 → budgetFault g' g.time.tick = none) →
      exec (.openWindow r) s =
        .next (answered 0x0800 r s
          { payload := leNat 1 i ++ zeros 7 ++ leNat 8 (objectLength g w)
            args := leNat 1 w.object ++ leNat 4 w.rate ++ leNat 1 i } g')) ∧
    (Admitted 0x0801 r s → r.payload.length = 1 → w.isOpen = true → w.mailbox = r.mailbox →
      exec (.closeWindow r) s =
        .next (answered 0x0801 r s { args := leNat 1 (fieldAt r.payload 0 1) }
          { g with windows := g.windows.set (fieldAt r.payload 0 1) {} })) ∧
    (let off := fieldAt r.payload 4 8
     let len := fieldAt r.payload 12 4
     Admitted 0x0880 r s → r.payload.length = 16 → allZero ((r.payload.drop 1).take 3) = true → w.isOpen = true →
      w.mailbox = r.mailbox → w.revoked = false → off % 4 = 0 → len % 4 = 0 → 4 ≤ len → len ≤ 4064 → off + len ≤ w.length →
      (env.watchdog = true →
        exec (.transfer r env) s =
          .next (answered 0x0880 r s { status := rFault } (raiseNow 0xEE 0 0 0
            { g with windows := g.windows.set (fieldAt r.payload 0 1) { w with rest := none } }))) ∧
      (env.watchdog = false → env.revoked = none → ∃ (p : Reply) (rest : Option (Nat × Nat)),
        exec (.transfer r env) s =
          .next (answered 0x0880 r s p { g with windows := g.windows.set (fieldAt r.payload 0 1) { w with rest := rest } }) ∧
        (p.status = rOk ↔ rest = none) ∧ (p.status = rOk ∨ p.status = rPartial)) ∧
      (env.watchdog = false → ∀ k, env.revoked = some k → ∃ (p : Reply) (w' : Window),
        exec (.transfer r env) s = .next (answered 0x0880 r s p { g with windows := g.windows.set (fieldAt r.payload 0 1) w' }) ∧
        (p.status = rOk ∨ p.status = rPartial) ∧
        (w' = { w with rest := w'.rest } ∨ (w.object < 2 ∧ w' = { revokeWindow w with rest := none } ∧ p.status = rPartial ∧
          fieldAt p.payload 4 1 = 1 ∧ fieldAt p.payload 0 4 < len))) ∧
      (env.watchdog = false → env.bad = [] → w.object < 2 → 17 ≤ env.bursts → ∀ k, env.revoked = some k →
        let stop := if k = 0 then off else (off / 256 + k) * 256
        stop < off + len →
        exec (.transfer r env) s =
          .next (answered 0x0880 r s (answer rPartial (leNat 4 (stop - off) ++ leNat 1 1 ++ zeros 3 ++ windowBytes g w off (stop - off)))
            { g with windows := g.windows.set (fieldAt r.payload 0 1) { revokeWindow w with rest := none } })) ∧
      (env.watchdog = false → env.revoked = none → env.bad = [] → w.object ≠ 2 → 17 ≤ env.bursts →
        exec (.transfer r env) s =
          .next (answered 0x0880 r s (answer rOk (leNat 4 len ++ zeros 4 ++ windowBytes g w off len))
            { g with windows := g.windows.set (fieldAt r.payload 0 1) { w with rest := none } }))) ∧
    (∀ off len : Nat, Admitted 0x0881 r s → r.payload.length = 1 → w.isOpen = true → w.mailbox = r.mailbox →
      w.rest = some (off, len) → env.watchdog = false → env.revoked = none →
      ∃ (p : Reply) (rest : Option (Nat × Nat)),
        exec (.resumeTransfer r env) s =
          .next (answered 0x0881 r s p { g with windows := g.windows.set (fieldAt r.payload 0 1) { w with rest := rest } }) ∧
        (env.bad = [] → w.object ≠ 2 → w.revoked = false → len / 256 + 2 ≤ env.bursts →
          p = answer rOk (leNat 4 len ++ zeros 4 ++ windowBytes g w off len) ∧ rest = none))

/-- Group 0x09 (14 R362, 15 R374, R389): CFG_FAULT holds or accepts the entries of sources that exist, FORCE_FAULT is accepted for its
tick, READ_FAULTS and READ_JOURNAL change nothing. -/
def Obligations.FaultCommands : Prop :=
  ∀ (r : Req) (s : State) (hd : Head) (t : Nat),
    let g := atStep7 r s
    (Admitted 0x0900 r s → readHead { code := 0x0900, req := r } true 1 256 65536 8 = .ok hd → hd.arg < 2 →
      effectTick g hd.at_ 1 = some t →
      (∀ i e, (entries hd 8)[i]? = some e → faultEntryFault (hd.first + i) e = none) →
      let own := Item.selfMerge (hd.arg == 0) :: (mapI (fun i e => faultItem (hd.first + i) e) (entries hd 8)).filterMap id
      (hd.stage = true → stageRoom r.origin g →
        exec (.cfgFault r) s = .next (answered 0x0900 r s (stagedReply (argsList hd)) (holding r.origin 0x0900 own g))) ∧
      (hd.stage = false →
        let all := addItems (stagedItems g r.origin 0x0900) own
        exec (.cfgFault r) s =
          .next (answered 0x0900 r s (acceptedAt g t [] (argsList hd))
            { dropStaged r.origin 0x0900 g with
              changes := g.changes ++ all.map (fun i => ⟨t, i⟩)
              flash.store := (storedItems t all g).foldl (fun c i => cfgItem i c) g.flash.store }))) ∧
    (let n := fieldAt r.payload 0 2
     let i := fieldAt r.payload 2 2
     let mode := fieldAt r.payload 4 1
     Admitted 0x0901 r s → r.payload.length = 16 → (sourceOf n).isSome = true → instOk n i = true → mode < 3 →
      allZero ((r.payload.drop 5).take 3) = true → effectTick g (fieldAt r.payload 8 8) 1 = some t →
      exec (.forceFault r) s =
        .next (answered 0x0901 r s (acceptedAt g t [] (leNat 2 n ++ leNat 2 i ++ leNat 1 mode))
          { g with changes := g.changes ++ [⟨t, .force n i mode⟩] })) ∧
    (Admitted 0x0980 r s → r.payload = [] →
      exec (.readFaults r) s =
        .next (answered 0x0980 r s
          (answer rOk (leNat 1 g.faults.history.length ++ zeros 7 ++ g.faults.history.flatMap histBytes ++
            fallbackBytes g.faults.fallback)) g)) ∧
    (let first := fieldAt r.payload 0 8
     let count := fieldAt r.payload 8 1
     let rs := (g.flash.journal.filter fun x => decide (first ≤ x.index) && !x.torn).take count
     Admitted 0x0981 r s → r.payload.length = 9 → 1 ≤ count → count ≤ 63 →
      exec (.readJournal r) s =
        .next (answered 0x0981 r s
          (answer rOk (leNat 8 ((rs.map (·.index)).headD first) ++ leNat 2 rs.length ++ zeros 6 ++ rs.flatMap storedRec)) g))

/-- Group 0x0A (14 R363, 12 R295, R311): CFG_PAIR enters the store; PAIR_RESYNC of a partner that resynchronises books the snapshot two
ticks on; READ_PAIR changes nothing. PARTNER reads 0xFF before the first STATUS unit: the model's choice, log 22. Group 0x0C (14 R367,
03 R71, R74): CFG_LOOP_OUTPUT with valid entries, relations and budget is accepted for its tick; READ_LOOP answers 8 bytes for each
output and changes nothing. -/
def Obligations.PairAndLoopCommands : Prop :=
  (∀ (r : Req) (s : State) (hd : Head) (partner : Partner),
    let g := atStep7 r s
    (Admitted 0x0A00 r s → readBareHead { code := 0x0A00, req := r } 0 = .ok hd → hd.at_ = 0 → bitsOf hd.arg 15 2 = 0 →
      1 ≤ bitsOf hd.arg 23 16 → bitsOf hd.arg 63 24 = 0 →
      exec (.cfgPair r) s =
        .next (answered 0x0A00 r s { payload := leNat 8 0, args := leNat 8 hd.arg }
          { g with flash.store.pair := BitVec.ofNat 64 hd.arg })) ∧
    (Admitted 0x0A01 r s → r.payload.length = 8 → allZero ((r.payload.drop 4).take 4) = true → g.pair.paired = true →
      isActive g = true → g.pair.partner = some partner → partner.state = 3 →
      fieldAt r.payload 0 2 ≤ (Config.sectionFormat 6).toNat → (Config.sectionFormat 6).toNat ≤ fieldAt r.payload 2 2 →
      fieldAt r.payload 0 2 ≤ (Config.sectionFormat 7).toNat → (Config.sectionFormat 7).toNat ≤ fieldAt r.payload 2 2 →
      g.pair.snapshot = none → g.pair.copyLeft = [] →
      exec (.pairResync r) s =
        .next (answered 0x0A01 r s
          { payload := leNat 8 (toStream g (g.time.tick + 2)), args := leNat 8 (toStream g (g.time.tick + 2)) }
          { g with pair.snapshot := some (g.time.tick + 2) })) ∧
    (Admitted 0x0A80 r s → r.payload = [] →
      ∃ b : Bytes, exec (.readPair r) s = .next (answered 0x0A80 r s (answer rOk b) g) ∧ b.length = 32 ∧
        fieldAt b 0 1 = pairStateCode g.pair.state ∧ fieldAt b 1 1 = ((g.pair.partner.map (·.state)).getD 0xFF) % 256 ∧
        fieldAt b 2 1 = b2n g.pair.grant ∧ fieldAt b 3 1 = b2n (heartbeats g) ∧ fieldAt b 4 4 = 0 ∧
        fieldAt b 8 8 = g.pair.unitsRx % 2 ^ 64 ∧ fieldAt b 16 4 = g.pair.shadowLost % 2 ^ 32 ∧
        fieldAt b 20 4 = g.pair.relaySent % 2 ^ 32 ∧ sfieldAt b 24 8 = sext 64 (twos 64 g.pair.offset))) ∧
  ∀ (r : Req) (s : State) (hd : Head) (t : Nat),
    let g := atStep7 r s
    (Admitted 0x0C00 r s → readHead { code := 0x0C00, req := r } false 1 8 8 16 = .ok hd → hd.arg < 65536 →
      effectTick g hd.at_ 1 = some t →
      (∀ i e, (entries hd 16)[i]? = some e →
        loopFault (planAt (checkBase g) t).cfg.graph (checkBase g).cfg.hkSeq hd.arg (hd.first + i) e = none) →
      let items := Item.loopV hd.arg :: mapI (fun i e => Item.loop (hd.first + i) e) (entries hd 16)
      relFaultFrom (schedule t items (checkBase g)) t = none → budgetFault (schedule t items (checkBase g)) t = none →
      exec (.cfgLoopOutput r) s = .next (answered 0x0C00 r s (accepted g t [] (argsList hd)) (changed t items g))) ∧
    (Admitted 0x0C80 r s → r.payload = [] →
      exec (.readLoop r) s =
        .next (answered 0x0C80 r s
          (answer rOk (g.loops.flatMap fun l => leNat 2 l.setpoint ++ leNat 2 l.readback ++ leNat 1 l.state ++ zeros 3)) g))

/-- PROVISION, COMMISSION, LOAD_KEY and ERASE_KEY (14 R365, 13 R329 to R332): PROVISION writes HUB_ID and slot 0 and clears what R332
names; COMMISSION asks for OPERATIONAL, both resetting the hub once the response has left; a slot takes the unwrapped key, or loses its
key and keeps its generation, and its counters are cleared. Each leaves its own record. -/
def Obligations.ProvisioningAndKeyCommands : Prop :=
  (∀ (r : Req) (s : State),
    let g := atStep7 r s
    (let k := (r.payload.drop 8).take 72
     Admitted 0x0B00 r s → r.payload.length = 80 → fieldAt r.payload 0 4 ≠ 0 → allZero ((r.payload.drop 4).take 4) = true →
      fieldAt r.payload 8 1 = 0 → fieldAt k 1 1 = 0 → wrapOk transportKey k = true → (slotAt g 0).gen.toNat < fieldAt k 4 4 →
      let rec_ := changeRec r 0x3003 (leNat 1 (lifeCode g.flash.lifecycle) ++ leNat 1 1 ++ leNat 1 0) g
      exec (.provision r) s =
        .next (answered 0x0B00 r s
          { ownRecord := true, reset := some { kind := 0, cause := 1, force := 0, target := some .provisioned } }
          { rec_ with
            flash.hubId := BitVec.ofNat 32 (fieldAt r.payload 0 4)
            flash.keys := slotFrom transportKey k :: List.replicate 7 {}
            flash.ctrCheckpoint := []
            flash.store := {}
            flash.accepted := []
            flash.sysCal := []
            mbx.counters := [] })) ∧
    (Admitted 0x0B01 r s → r.payload = [] → runningVerified g = true → budgetFault (checkBase g) g.time.tick = none →
      exec (.commission r) s =
        .next (answered 0x0B01 r s
          { ownRecord := true, reset := some { kind := 0, cause := 1, force := 0, target := some .operational } }
          (changeRec r 0x3003 (leNat 1 (lifeCode g.flash.lifecycle) ++ leNat 1 2 ++ leNat 1 0) g)))) ∧
  ∀ (r : Req) (s : State),
    let g := atStep7 r s
    let slot := fieldAt r.payload 0 1
    (∀ w : Bytes, Admitted 0x0B05 r s → r.payload.length = 72 → slot < 8 → (slotAt g 0).key = some w →
      fieldAt r.payload 1 1 = 0 → wrapOk w r.payload = true → (slotAt g slot).gen.toNat < fieldAt r.payload 4 4 →
      exec (.loadKey r) s =
        .next (answered 0x0B05 r s { ownRecord := true }
          (changeRec r 0x3005 (leNat 1 slot ++ leNat 4 (fieldAt r.payload 4 4))
            { g with
              flash.keys := g.flash.keys.set slot
                { key := some (((r.payload.drop 24).take 32).zipWith (· ^^^ ·)
                    (hmac w (ascii "KZ-WRAP-E" ++ (r.payload.drop 8).take 16 ++ r.payload.take 8)))
                  gen := BitVec.ofNat 32 (fieldAt r.payload 4 4)
                  rights := if slot = 0 then 0xFFFF else BitVec.ofNat 16 (fieldAt r.payload 2 2) }
              mbx.counters := g.mbx.counters.filter (·.slot != slot) }))) ∧
    (Admitted 0x0B06 r s → r.payload.length = 1 → 1 ≤ slot → slot ≤ 7 →
      exec (.eraseKey r) s =
        .next (answered 0x0B06 r s { ownRecord := true }
          (changeRec r 0x3006 (leNat 1 slot ++ leNat 4 (slotAt g slot).gen.toNat)
            { g with
              flash.keys := g.flash.keys.set slot { key := none, gen := (slotAt g slot).gen, rights := 0 }
              mbx.counters := g.mbx.counters.filter (·.slot != slot) })))

/-- Firmware (14 R365, R366, 13 R335): a segment enters the staging partition and takes back a verification; FW_VERIFY and FW_INSTALL
answer PENDING; FW_ACTIVATE makes the other image the boot choice. -/
def Obligations.FirmwareCommands : Prop :=
  ∀ (r : Req) (s : State),
    let g := atStep7 r s
    (let off := fieldAt r.payload 0 4
     let n := r.payload.length - 8
     Admitted 0x0B07 r s → 1 ≤ n → n ≤ 4088 → allZero ((r.payload.drop 4).take 4) = true → off + n ≤ 16777216 →
      exec (.fwLoad r) s =
        .next (answered 0x0B07 r s { args := leNat 4 off ++ leNat 2 n }
          { g with fw.staging := writeBytes g.fw.staging off (r.payload.drop 8), fw.verified := false })) ∧
    (Admitted 0x0B08 r s → r.payload = [] → g.fw.verifying = none → g.fw.installing = none → pendingRoom r s →
      exec (.fwVerify r) s =
        .next (answered 0x0B08 r s { status := rPending, args := leNat 4 (stagedVersion g) } { g with fw.verifying := some r })) ∧
    (Admitted 0x0B09 r s → r.payload = [] → g.fw.verified = true → g.fw.verifying = none → g.fw.installing = none →
      pendingRoom r s →
      exec (.fwInstall r) s =
        .next (answered 0x0B09 r s
          { status := rPending, args := leNat 4 (imageVersion (imageOf g g.flash.running)) ++ leNat 4 (stagedVersion g) }
          { g with
            fw.installing := some r
            flash.imageA := if g.flash.running = 0 then g.flash.imageA
              else { g.flash.imageA with installed := false, factory := false }
            flash.imageB := if g.flash.running = 0 then { g.flash.imageB with installed := false, factory := false }
              else g.flash.imageB })) ∧
    (let other := 1 - g.flash.running
     Admitted 0x0B0A r s → r.payload.length = 1 → fieldAt r.payload 0 1 < 2 → (imageOf g other).installed = true →
      exec (.fwActivate r) s =
        .next (answered 0x0B0A r s
          { args := leNat 4 (imageVersion (imageOf g g.flash.running)) ++ leNat 4 (imageVersion (imageOf g other)) }
          { g with
            flash.bootChoice := other
            flash.raiseMin := fieldAt r.payload 0 1 == 1
            flash.activated := true
            flash.bootFails := 0 }))

/-- FORCE of RESET and of the life-cycle commands (17 R428, R429, 13 R332, 14 R365, R366): 0 NONE, 1 DRAIN, 2 DISCARD, and a code from 3
is refused with REFUSED_ARGUMENT. With no record outside custody 1 and 2 act as 0: the hub resets once the response has left. With
records outside it NONE is refused, DRAIN starts a drain, and DISCARD resets with force 2. -/
def Obligations.ForceCodes : Prop :=
  ∀ (r : Req) (s : State),
    let g := atStep7 r s
    (Admitted 0x0B0B r s → r.payload.length = 2 → fieldAt r.payload 0 1 < 2 →
      (3 ≤ fieldAt r.payload 1 1 → exec (.reset r) s = .next (refusedBy 0x0B0B r s (refuseAt 0x24 1 0xFFFF))) ∧
      (fieldAt r.payload 1 1 = 0 → custodyOpen g = true → exec (.reset r) s = .next (refusedBy 0x0B0B r s (refuse 0x25)))) ∧
    (r.payload.length = 1 → 3 ≤ fieldAt r.payload 0 1 →
      (Admitted 0x0B02 r s → exec (.enterMaintenance r) s = .next (refusedBy 0x0B02 r s (refuseAt 0x24 0 0xFFFF))) ∧
      (Admitted 0x0B03 r s → exec (.exitMaintenance r) s = .next (refusedBy 0x0B03 r s (refuseAt 0x24 0 0xFFFF))) ∧
      (Admitted 0x0B04 r s → exec (.decommission r) s = .next (refusedBy 0x0B04 r s (refuseAt 0x24 0 0xFFFF)))) ∧
    (r.payload.length = 1 → fieldAt r.payload 0 1 = 0 → custodyOpen g = true →
      (Admitted 0x0B02 r s → exec (.enterMaintenance r) s = .next (refusedBy 0x0B02 r s (refuse 0x25))) ∧
      (Admitted 0x0B03 r s → exec (.exitMaintenance r) s = .next (refusedBy 0x0B03 r s (refuse 0x25))) ∧
      (Admitted 0x0B04 r s → exec (.decommission r) s = .next (refusedBy 0x0B04 r s (refuse 0x25)))) ∧
    (let force := fieldAt r.payload 0 1
     let drains := custodyOpen g = true ∧ force = 1
     let leave (code : Nat) (new : LifeCycle) : Host.Outcome State Fault Refusal :=
       let g' := changeRec r 0x3003 (leNat 1 (lifeCode g.flash.lifecycle) ++ leNat 1 (lifeCode new) ++ leNat 1 force) g
       .next (answered code r s
         { ownRecord := true
           reset := if drains then none
             else some { kind := 0, cause := 1, force := if custodyOpen g then force else 0, target := some new } }
         (if drains then
           { g' with
             power.phase := .draining
             power.drain := some { tick := (g.power.drain.map (·.tick)).getD g.time.tick, cause := 1, kind := 0
                                   target := some new } }
          else g'))
     r.payload.length = 1 → force < 3 → (custodyOpen g = true → force ≠ 0) →
      (Admitted 0x0B02 r s → exec (.enterMaintenance r) s = leave 0x0B02 .maintenance) ∧
      (Admitted 0x0B03 r s → exec (.exitMaintenance r) s = leave 0x0B03 .operational) ∧
      (Admitted 0x0B04 r s → exec (.decommission r) s = leave 0x0B04 .decommissioned)) ∧
    (let kind := fieldAt r.payload 0 1
     let force := fieldAt r.payload 1 1
     let drains := custodyOpen g = true ∧ force = 1
     Admitted 0x0B0B r s → r.payload.length = 2 → kind < 2 → force < 3 → (custodyOpen g = true → force ≠ 0) →
      exec (.reset r) s =
        .next (answered 0x0B0B r s
          { args := leNat 1 kind ++ leNat 1 force
            reset := if drains then none
              else some { kind := kind, cause := 0, force := if custodyOpen g then force else 0, target := none } }
          (if drains then
            { g with
              power.phase := .draining
              power.drain := some { tick := (g.power.drain.map (·.tick)).getD g.time.tick, cause := 0, kind := kind } }
           else g)))

/-- Commands that end later send their completion notice (08 R195, 13 R322, R334, R335, 14 R354, R366): a verification its result and
whether the image counts as verified; an installation its slot written and installed where the result is 0, FLASH_PROGRAM raised on a
failed read-back; a compression job its STOP reason, under that reason's response code; a calibration window that holds its n slots its
evaluation. -/
def Obligations.LateCommandsSendTheirNotice : Prop :=
  ∀ (s : State) (r : Req),
    let h := s.hub
    let fw (result slot : Nat) : Bytes :=
      leNat 1 result ++ leNat 1 slot ++ leNat 2 0 ++ leNat 4 (stagedVersion h) ++ leNat 4 (imgNum (readByte h.fw.staging) 8 4)
    let x := imageCheck (readByte h.fw.staging) h
    (h.fw.verifying = some r →
      exec .fwVerifyDone s =
        .next (sendNotice 0x0B08 r 0 (fw x 0xFF)
          { s with hub := { h with fw.verifying := none, fw.verified := decide (x = 0) } })) ∧
    (h.fw.installing = some r →
      (∃ t, exec (.fwInstallDone true) s = .next (sendNotice 0x0B09 r 0 (fw x (1 - h.flash.running)) { s with hub := t }) ∧
        t.fw = { h.fw with installing := none } ∧ t.faults = h.faults ∧
        (if h.flash.running = 0 then t.flash.imageB else t.flash.imageA).installed = decide (x = 0) ∧
        (if h.flash.running = 0 then t.flash.imageA = h.flash.imageA else t.flash.imageB = h.flash.imageB)) ∧
      ∃ t, exec (.fwInstallDone false) s = .next (sendNotice 0x0B09 r 0x30 (fw 6 (1 - h.flash.running)) { s with hub := t }) ∧
        asserted t 0xD6 (1 - h.flash.running) = true ∧
        (if h.flash.running = 0 then t.flash.imageB else t.flash.imageA).installed = false) ∧
    (∀ (j : Nat) (x : Job), jobAt h j = some x → x.running = true →
      let run := jobRun h x
      let status := match run.2.2 with
        | .done => 0x00 | .outputFull => 0x01 | .sourceLost => 0x30 | .cancelled => 0x00
      let code := if x.req.payload.length = 1 then 0x0605 else 0x0604
      ∃ y, exec (.compressJobStop j) s =
          .next (sendNotice code x.req status
            (leNat 1 j ++ leNat 1 (stopCode run.2.2) ++ leNat 2 0 ++ leNat 4 y.slots ++ leNat 4 y.pos ++ leNat 4 y.buf.length ++
              leNat 4 y.bodies ++ leNat 4 0) { s with hub := { setJob j (some y) h with stream.badBodies := run.1 } }) ∧
        y.running = false ∧ y.stop = some run.2.2 ∧ y.buf = run.2.1.buf ∧ y.pos = run.2.1.pos ∧ y.slots = run.2.1.slots ∧
        (x.cancelAsked = true → run.2.2 = .cancelled ∧ y.buf = x.buf)) ∧
    (∀ (ch : Nat) (w : CalWin), (chanAt h ch).calWin = some w → w.n ≤ w.count → ch < h.chans.length →
      let o := winEval h ch w
      ∃ t, exec (.calSystemWindowClose ch) s =
          .next (sendNotice 0x0302 w.req 0
            (leNat 2 ch ++ leNat 1 w.step ++ leNat 1 o.result ++ leNat 4 w.n ++ leInt 8 o.half1 ++ leInt 8 o.half2 ++
              leInt 8 o.mean ++ leNat 4 o.g ++ leInt 4 o.o ++
              leNat 8 (if o.result = 0 ∧ w.step ≠ 0 then streamTick h + 1 else 0)) { s with hub := t }) ∧
        (chanAt t ch).calWin = none ∧ (w.allGood = false → o.result = 1 ∧ t = updChan ch (fun x => { x with calWin := none }) h) ∧
        (o.result = 0 → w.step ≠ 0 → ∃ old,
          (chanAt t ch).newSys = some (⟨ch, dMode (chDesc h ch), (chanAt h ch).rangeNow, o.g, o.o⟩, old)))

/-- Detectors of channels and tiles (03 R59, R73, 15 R371): where the condition has stood for its qualification time and no occurrence
stands, the source is asserted from the start of that time and its raise waits; the rest of the hub is unchanged. Detectors of supplies,
clocks, memories, lanes and cores (03 R55, 15 R371, R383, R387, 16 R405, 17 R419): the same. -/
def Obligations.DetectorsAssertTheirSources : Prop :=
  (∀ (s : State) (dt i qual : Nat),
    let h := s.hub
    let at' : Inst := h.time.tickInst + dt
    let goes (source inst : Nat) (held : Int) (detail : BitVec 64) (g : Hub) : Host.Outcome State Fault Refusal :=
      .next { s with hub := raised source inst (at' - held) at' detail false g }
    let ms (n : Nat) : Int := 65536000000 * (n : Int)
    (∀ k, evaluated h k i = true → Fresh (detectorSource k i) i h →
      (assertsNow h k i qual = true → exec (.detectorAssert k i qual dt) s = goes (detectorSource k i) i qual 0 h) ∧
      (assertsNow h k i qual = false → exec (.detectorAssert k i qual dt) s = .next s)) ∧
    (i < 512 → measuring h i = true →
      (Fresh (0x14 + 16 * (i / 128)) i h →
        (∀ t, (chanAt h i).overFrom = some t → t + ms 10000 ≤ at' →
          exec (.stuckOver i dt) s = goes (0x14 + 16 * (i / 128)) i (ms 10000) 0 h) ∧
        ((∀ t, (chanAt h i).overFrom = some t → at' < t + ms 10000) → exec (.stuckOver i dt) s = .next s)) ∧
      ((chanAt h i).folded = false → Fresh (0x1B + 16 * (i / 128)) i h →
        exec (.sourceFault i dt) s = goes (0x1B + 16 * (i / 128)) i (ms 10) 0 h)) ∧
    (i < 576 → Fresh (0x15 + 16 * (i / 144)) i h → exec (.feFault i dt) s = goes (0x15 + 16 * (i / 144)) i 0 0 h) ∧
    (i < 4 → ∀ parity : Bool, let n := (if parity then 0x1D else 0x1C) + 16 * i
      Fresh n 0 h → exec (.tileLinkError i parity dt) s = goes n 0 0 0 h) ∧
    (i < 4 → ∀ t : Int, 11500 < t → Fresh (0x1E + 16 * i) 0 h →
      exec (.temperatureLimit i t dt) s = goes (0x1E + 16 * i) 0 (ms 1000) (BitVec.ofInt 64 t) h) ∧
    (i < 8 → ∀ r : Nat, bitOf (fieldAt (h.cfg.loop.getD i []) 0 1) 0 = true →
      200 * 65536 < (((h.loops.getD i {}).setpoint : Int) - r).natAbs * 24000 → Fresh (0x58 + i) 0 h →
      exec (.loopCompliance i r dt) s = goes (0x58 + i) 0 (ms 10) (BitVec.ofNat 64 r)
        { h with loops := updAt h.loops i fun x => { x with readback := r } })) ∧
  ∀ (s : State) (dt i : Nat),
    let h := s.hub
    let at' : Inst := h.time.tickInst + dt
    let goes (source inst : Nat) (held : Int) (detail : BitVec 64) (once : Bool) (g : Hub) : Host.Outcome State Fault Refusal :=
      .next { s with hub := raised source inst (at' - held) at' detail once g }
    let ms (n : Nat) : Int := 65536000000 * (n : Int)
    (i + 500 < 10 * h.cfg.excMin ∨ 10 * h.cfg.excMax + 500 < i → Fresh 0x50 0 h →
      exec (.excVinRange i dt) s = goes 0x50 0 (ms 10) (BitVec.ofNat 64 i) false { h with power.excVinMv := i }) ∧
    (∀ v : Int, 50 < v.natAbs →
      (i < 4 → Fresh (0x1F + 16 * i) 0 h →
        exec (.supplyRange (100 + i) v dt) s = goes (0x1F + 16 * i) 0 (ms 1) (BitVec.ofInt 64 v) false h) ∧
      (9 ≤ i → i ≤ 15 → Fresh 0x52 i h → exec (.supplyRange i v dt) s = goes 0x52 i (ms 1) (BitVec.ofInt 64 v) false h)) ∧
    (∀ v : Int, 10 * (h.cfg.loopV : Int) + 500 < v → Fresh 0x55 0 h →
      exec (.supplyRange 8 v dt) s = goes 0x55 0 (ms 1000) (BitVec.ofInt 64 v) false h) ∧
    (∀ t : Int, (11500 < t → Fresh 0x53 0 h →
        exec (.temperatureLimit 4 t dt) s = goes 0x53 0 (ms 1000) (BitVec.ofInt 64 t) false h) ∧
      (9500 < t → Fresh 0x54 0 h →
        exec (.temperatureLimit 5 t dt) s = goes 0x54 0 (ms 1000) (BitVec.ofInt 64 t) false h)) ∧
    (i < 32 → Fresh (0x100 + i) 0 h → exec (.dmaError i dt) s = goes (0x100 + i) 0 0 0 true h) ∧
    (i < 6 → Fresh (0x94 + 8 * i) 0 h → exec (.laneTxFault i dt) s = goes (0x94 + 8 * i) 0 0 0 false h) ∧
    (i < 4 → Fresh (0x120 + i) 0 h →
      exec (.coreWatchdog i dt) s = goes (0x120 + i) 0 0 0 false { h with pair.hbStopped := true }) ∧
    (h.cfg.selfMerge = false → Fresh 0x124 i h →
      exec (.collectorSelf i dt) s = goes 0x124 i 0 (BitVec.ofNat 64 i) false h) ∧
    (∀ e : EccError, e.mem = .dram → e.uncorrectable = false → e.unit < 131072 → Fresh 0xD2 e.unit h →
      exec (.eccError e dt) s = goes 0xD2 e.unit 0 (BitVec.ofNat 64 (hitData e h)) true h) ∧
    (∀ result : Bytes, result ≠ knownAnswer → Fresh 0x125 0 h →
      exec (.cryptoSelftest result) s =
        .next { s with hub := raised 0x125 0 h.time.tickInst h.time.tickInst 0 false h }) ∧
    (i < 131072 → Fresh 0xD2 i h →
      exec (.patrolScrub [i]) s = .next { s with hub := raised 0xD2 i h.time.tickInst h.time.tickInst 0 true h }) ∧
    (h.power.phase ≠ .off → Fresh 0x51 0 h →
      exec .vinLow s =
        .next { s with hub := raised 0x51 0 h.time.tickInst h.time.tickInst 0 false { h with power.vinLow := true } })

/-- A raise and the end of an occurrence (15 R372, R385, R386, R389, R390): FAULT_RAISE of a source and instance in the table queues one
raise of a fresh instance; raised again while it stands unhandled, no second raise waits. FAULT_OCCURRENCE_CLEAR ends the occurrence
from the coming tick, unless a held force bit keeps it; every other occurrence stands as before. A real OUTLET_OVERRUN marks its
outlet's FIFO (09 R223). -/
def Obligations.OccurrencesRaiseOnceAndClear : Prop :=
  ∀ (s : State) (source inst dt : Nat) (detail : BitVec 64),
    let h := s.hub
    let at' : Inst := h.time.tickInst + dt
    (instOk source inst = true → ((sourceOf source).map (·.inst) = some .channel → measuring h inst = true) →
      source < 0x80 ∨ 0x82 < source → (source = 0x124 → h.cfg.selfMerge = false) →
      (Fresh source inst h →
        let r : Raise := { source := source, inst := inst, start := at', capture := at', detail := detail }
        let g := if source = 0x72 ∨ source = 0x73 then { h with stream.badBodies := h.stream.badBodies + 1 } else h
        exec (.faultRaise source inst false detail dt) s =
          .next { s with hub := raised source inst at' at' detail false (noteSwitch r g) }) ∧
      ∃ t, exec (.faultRaise source inst false detail dt) s = .next { s with hub := t } ∧ asserted t source inst = true ∧
        ((∃ o ∈ h.faults.occ, o.source = source ∧ o.inst = inst) →
          (∃ r ∈ h.faults.queue, r.source = source ∧ r.inst = inst) → t.faults.queue.length = h.faults.queue.length) ∧
        ∀ a b, (a, b) ≠ (source, inst) → asserted t a b = asserted h a b) ∧
    (inst < 65536 → h.cfg.selfMerge = true → ∀ forced : Bool, ∃ t,
      exec (.faultRaise 0x124 inst forced detail dt) s = .next { s with hub := t } ∧ t.faults.occ = h.faults.occ ∧
        t.faults.queue.length = h.faults.queue.length ∧
        t = { h with faults.queue := t.faults.queue, faults.history := t.faults.history }) ∧
    (∀ forced : Bool, source ≤ 2 → ∃ t, exec (.faultRaise (0x80 + source) 0 forced detail dt) s = .next t ∧
      asserted t.hub (0x80 + source) 0 = true ∧
        (forced = false → (if source = 0 then t.hub.outlets.lane else if source = 1 then t.hub.outlets.eth else t.host.fifo).overrun =
          true)) ∧
    ∃ t, exec (.faultOccurrenceClear source inst dt) s = .next { s with hub := t } ∧
      t = { h with faults.occ := t.faults.occ, faults.queue := t.faults.queue, faults.eclipse := t.faults.eclipse } ∧
      (h.faults.force.contains (source, inst, true) = false → asserted t source inst = false) ∧
      (h.faults.force.contains (source, inst, true) = true → asserted t source inst = asserted h source inst) ∧
      ∀ a b, (a, b) ≠ (source, inst) → asserted t a b = asserted h a b

/-- The collector handles the raise at the front of its queue (15 R373, R384, R385): with reaction LOG or RETRY and nothing merged into
it, it leaves the queue, its history entry is written and the instance declared permanent where its class or its count says so; an empty
queue changes nothing. PERSISTENCE_EXPIRE (15 R373): an occurrence that has not outlasted its source's persistence time is left; one
that has, and whose reaction is LOG or RETRY, is declared permanent. -/
def Obligations.CollectorHandlesRaises : Prop :=
  (∀ (s : State),
    (s.hub.faults.queue = [] → exec .faultHandle s = .next s) ∧
    ∀ (r : Raise) (q : List Raise), s.hub.faults.queue = r :: q → r.merged = [] → r.soft = false → counts r = true →
      s.hub.faults.historyOk = true → (cfgOfOcc s.hub r.source r.inst).reaction ≤ 1 →
      let cfg := cfgOfOcc s.hub r.source r.inst
      let within := (countsOf s.hub r.source r.inst).filter fun t => decide (opSeconds s.hub < t + cfg.windowS)
      let permanent := !declared s.hub r.source r.inst && (cfg.cls != 0 || decide (cfg.retries < within.length + 1))
      ∃ t, exec .faultHandle s = .next { s with hub := t } ∧ t.faults.queue = q ∧
        countsOf t r.source r.inst = opSeconds s.hub :: within ∧
        declared t r.source r.inst = (declared s.hub r.source r.inst || permanent) ∧
        (∃ e, t.faults.history.getLast? = some e ∧ e.source = r.source ∧ e.inst = r.inst ∧ e.cls = cfg.cls ∧
          e.detail = r.detail ∧ e.occurrences = within.length + 1 ∧ bitOf e.flags 2 = permanent) ∧
        t.faults.history.length = min 32 (s.hub.faults.history.length + 1) ∧ t.chans = s.hub.chans ∧ t.cfg = s.hub.cfg ∧
        (cfg.reaction = 0 → t.lanes = s.hub.lanes ∧ t.stream = s.hub.stream) ∧
        (∀ l < 6, cfg.reaction = 1 → (r.source = 0x90 + 8 * l ∨ r.source = 0x91 + 8 * l) → l < s.hub.lanes.length →
          (laneAt s.hub l).state = .up → (laneAt t l).state = .searching)) ∧
  ∀ (s : State) (source inst : Nat),
    (∀ o, (s.hub.faults.occ.find? fun o => o.source == source && o.inst == inst) = some o →
      (outlasted s.hub o = false → exec (.persistenceExpire source inst) s = .next s) ∧
      (outlasted s.hub o = true → (cfgWith source o.conf).reaction ≤ 1 →
        ∃ t, exec (.persistenceExpire source inst) s = .next { s with hub := t } ∧ declared t source inst = true ∧
          t.faults.occ = s.hub.faults.occ ∧ t.faults.queue = s.hub.faults.queue ∧ t.chans = s.hub.chans ∧
          t.flash.nextIndex = s.hub.flash.nextIndex + if recorded source inst s.hub = true then 1 else 0)) ∧
    ((∀ o ∈ s.hub.faults.occ, ¬(o.source = source ∧ o.inst = inst)) → exec (.persistenceExpire source inst) s = .next s)

/-- The eclipse state (15 R379 to R382, 09 R209): with every cause clear for 10 s by the coming tick and none FATAL the exit is booked
with its record; an occultation of the state is due at a tick that is a multiple of LEDGER_PERIOD and leaves one record; 2 s after the
collector took over, the hub begins a warm reset. -/
def Obligations.EclipseEvents : Prop :=
  ∀ (s : State),
    (∀ e, s.hub.faults.eclipse = some e → e.exitDue = false →
      (exitReady s.hub = true →
        ∃ t, exec .eclipseExit s = .next { s with hub := t } ∧ t.faults.eclipse = some { e with exitDue := true } ∧
          t.flash.nextIndex = s.hub.flash.nextIndex + 1 ∧
          t = { s.hub with faults.eclipse := t.faults.eclipse, jr := t.jr, flash := t.flash, windows := t.windows }) ∧
      (exitReady s.hub = false → exec .eclipseExit s = .next s)) ∧
    (∀ e, s.hub.stream.eclSpan = some e → inEclipse s.hub = true → isActive s.hub = true →
      ((s.hub.time.tick + 1 : Int) + s.hub.pair.offset).toNat % max 1 (ledgerPeriod s.hub) = 0 →
      ∃ r, exec .eclipseOccultation s =
          .next { s with hub := { s.hub with stream.eclSpan := none, stream.due := s.hub.stream.due ++ [r] } } ∧
        r.ty = 5 ∧ r.order = 2 ∧ r.occSlots = e.slots) ∧
    (collectorDue s.hub = true →
      ∃ t, exec .collectorForcedReset s = .next t ∧ t.hub.power.phase = .clocks ∧ t.hub.time.running = false ∧
        t.hub.faults.hardware = none ∧ t.hub.faults.history = [] ∧ t.pending = s.pending ∧ t.hub.flash.keys = s.hub.flash.keys ∧
        t.hub.flash.lifecycle = s.hub.flash.lifecycle) ∧
    (collectorDue s.hub = false → exec .collectorForcedReset s = .next s)

/-- The journal's timed work (15 R392 to R394, 13 R326): the oldest queued record is programmed into flash, its sector erased first
where it is not; entering a sector rewrites the counter checkpoint and frees the records 262,144 slots back; tokens come back every 6 s;
a run of suppressed records ends with its SUPPRESSED record 60 s after it began. -/
def Obligations.JournalEvents : Prop :=
  ∀ (s : State), journalBlocked s.hub = false →
    (∀ r q, s.hub.jr.queue = r :: q → r.index < s.hub.jr.erasedTo →
      ∃ t, exec .journalRecordProgram s = .next { s with hub := t } ∧ t.jr.queue = q ∧
        t.flash = { s.hub.flash with journal := s.hub.flash.journal ++ [r] } ∧
        t = { s.hub with jr.queue := q, flash := t.flash, windows := t.windows }) ∧
    (∀ r q, s.hub.jr.queue = r :: q → s.hub.jr.erasedTo ≤ r.index →
      ∃ t, exec .journalSectorErase s = .next { s with hub := t } ∧ t.jr.erasedTo = r.index / 1024 * 1024 + 1024 ∧
        t.flash.ctrCheckpoint = s.hub.mbx.counters ∧ t.jr.queue = s.hub.jr.queue ∧
        (∀ x, x ∈ t.flash.journal ↔ x ∈ s.hub.flash.journal ∧ r.index / 1024 * 1024 + 1024 ≤ x.index + 262144)) ∧
    (∃ t, exec .rateLimitRefill s = .next { s with hub := t } ∧ t = { s.hub with jr := t.jr } ∧
      t.jr.refilled = opSeconds s.hub / 6 ∧ t.jr.queue = s.hub.jr.queue ∧
      ∀ code, (∀ b ∈ s.hub.jr.buckets, b.2 < 20) → s.hub.jr.buckets.Pairwise (fun x y => x.1 ≠ y.1) →
        tokens t code = min 20 (tokens s.hub code + (opSeconds s.hub / 6 - s.hub.jr.refilled))) ∧
    (∀ (code : BitVec 16) (run : SuppRun), (s.hub.jr.runs.find? (·.code == code.toNat)) = some run →
      run.first + 60 ≤ opSeconds s.hub → s.hub.jr.queue.length < 1024 →
      ∃ t r, exec (.suppressed code) s = .next { s with hub := t } ∧ t.jr.queue = s.hub.jr.queue ++ [r] ∧ r.code = 0x2001 ∧
        r.detail = leNat 2 code.toNat ++ zeros 2 ++ leNat 4 run.count ++ leNat 5 run.first ++ zeros 3 ∧
        t.jr.runs = s.hub.jr.runs.filter (·.code != code.toNat) ∧ r.index = s.hub.flash.nextIndex ∧
        t.flash.nextIndex = s.hub.flash.nextIndex + 1)

/-- The arbiter (16 R409 to R412, R414): at a window boundary every counter of both resources becomes min(counter + weight, 2 × weight);
a break point gives the grant to the winner of the round among the requesters with a request, debits it once and remembers it, or lets a
preempted burst finish with no debit; a privileged request takes the DRAM port from a holder that is not privileged and is parked
otherwise; the watchdog withdraws the grant, discards the parked requests and raises its source. -/
def Obligations.ArbiterGrants : Prop :=
  ∀ (s : State),
    let h := s.hub
    (∃ t, exec .arbiterRefill s = .next { s with hub := { h with arb := t } } ∧ t.pend = h.arb.pend ∧
      ∀ enc : Bool, let r0 := if enc then h.arb.enc else h.arb.dram
        let r1 := if enc then t.enc else t.dram
        r1.holder = r0.holder ∧ r1.last = r0.last ∧ r1.preempted = r0.preempted ∧ r1.reqs.length = r0.reqs.length ∧
          ∀ (i : Nat) (q : Requester), r0.reqs[i]? = some q →
            r1.reqs[i]? = some { q with credit := min (q.credit + reqWeight h enc i) (2 * (reqWeight h enc i : Int)) }) ∧
    (∀ i, h.arb.dram.preempted = none → h.arb.dram.reqs.length = 20 → i < 20 → i ≠ 9 →
      (∀ j < 20, h.arb.pend[j]? = some { parked := [] }) → (reqAt h.arb.dram i).credit ≠ -32768 →
      ∃ t, exec (.arbitrationRound false [i]) s = .next { s with hub := { h with arb.dram := t } } ∧ t.holder = some i ∧
        (reqAt t i).credit = (reqAt h.arb.dram i).credit - 1 ∧ ∀ j, j ≠ i → reqAt t j = reqAt h.arb.dram j) ∧
    (∀ i n, h.arb.dram.preempted = some (i, n) →
      exec (.arbitrationRound false []) s =
        .next { s with hub := { h with arb.dram := { h.arb.dram with holder := some i, preempted := none } } }) ∧
    (∀ i n j, i < 5 → h.arb.dram.holder = some j →
      (5 ≤ j → i < h.arb.dram.reqs.length → (reqAt h.arb.dram i).credit ≠ -32768 →
        ∃ t, exec (.privilegedPreemption i n) s = .next { s with hub := { h with arb.dram := t } } ∧ t.holder = some i ∧
          t.preempted = some (j, n) ∧ (reqAt t i).credit = (reqAt h.arb.dram i).credit - 1) ∧
      (j < 5 → (pendAt h i).parked.length < 4 →
        exec (.privilegedPreemption i n) s =
          .next { s with hub := { h with
            arb.pend := h.arb.pend.set i { pendAt h i with parked := (pendAt h i).parked ++ [false] } } })) ∧
    (∀ i dt, h.arb.dram.holder = some i → h.arb.enc.holder ≠ some i → Fresh (0xE0 + i) 0 h →
      exec (.grantWatchdog i dt) s =
        .next { s with hub := raised (0xE0 + i) 0 (h.time.tickInst + dt) (h.time.tickInst + dt) 0 true { h with
          arb.dram.holder := none, arb.pend := h.arb.pend.set i {} } })

/-- The arbiter's commands complete in every state (16 R409 to R412, R414): a refill sets every counter of both resources to
min(counter + weight, 2 × weight); a break point completes a preempted burst, or grants the requester with a waiting request whose class
is highest and whose counter is highest within that class, or leaves the resource without a holder; a privileged request takes the port
from a holder that is not privileged and waits otherwise; the watchdog withdraws a grant, empties its requester's pending queue and raises
the source. A requester of no rank, or without the grant, changes nothing. -/
def Obligations.ArbiterCommandsComplete : Prop :=
  ∀ (s : State),
    let h := s.hub
    let refill (enc : Bool) (r : Resource) : Resource :=
      { r with reqs := r.reqs.mapIdx fun i q =>
          { q with credit := min (q.credit + reqWeight h enc i) (2 * (reqWeight h enc i : Int)) } }
    exec .arbiterRefill s =
      .next { s with hub := { h with arb := { h.arb with dram := refill false h.arb.dram, enc := refill true h.arb.enc } } } ∧
    (∀ (enc : Bool) (requests : List Nat),
      let g := (requests.filter fun i => decide (i < 20) && if enc then decide (9 ≤ i ∧ i ≤ 12) else i != 9).foldl
        (fun h i => park enc i h) h
      let r := if enc then h.arb.enc else h.arb.dram
      ∃ (a : Arb) (f : Nat), exec (.arbitrationRound enc requests) s = .next { s with hub := { h with arb := a, free := f } } ∧
        (if enc then a.dram = h.arb.dram else a.enc = h.arb.enc) ∧
        let r' := if enc then a.enc else a.dram
        (∀ i n, r.preempted = some (i, n) →
          r' = { r with holder := some i, preempted := none } ∧ a.pend = g.arb.pend ∧ f = h.free) ∧
        (r.preempted = none → (∀ i < 20, waits enc g i = false) →
          r' = { r with holder := none } ∧ a.pend = g.arb.pend ∧ f = h.free) ∧
        (r.preempted = none → (∃ i < 20, waits enc g i = true) →
          ∃ w < 20, r'.holder = some w ∧ waits enc g w = true ∧
            (∀ j < 20, waits enc g j = true → reqClass h enc w ≤ reqClass h enc j) ∧
            (∀ j < 20, waits enc g j = true → reqClass h enc j = reqClass h enc w → (reqAt r j).credit ≤ (reqAt r w).credit) ∧
            (w < r.reqs.length → (reqAt r w).credit ≠ -32768 → (reqAt r' w).credit = (reqAt r w).credit - 1 ∧ f = h.free) ∧
            ∀ j, j ≠ w → reqAt r' j = reqAt r j)) ∧
    (∀ i n : Nat,
      (5 ≤ i → exec (.privilegedPreemption i n) s = .next s) ∧
      (i < 5 → ∃ (a : Arb) (f : Nat), exec (.privilegedPreemption i n) s = .next { s with hub := { h with arb := a, free := f } } ∧
        a.enc = h.arb.enc ∧
        (∀ j, 5 ≤ j → h.arb.dram.holder = some j →
          a.dram.holder = some i ∧ a.dram.preempted = some (j, n) ∧ a.pend = h.arb.pend ∧
            (i < h.arb.dram.reqs.length → (reqAt h.arb.dram i).credit ≠ -32768 →
              (reqAt a.dram i).credit = (reqAt h.arb.dram i).credit - 1)) ∧
        ((∀ j, h.arb.dram.holder = some j → j < 5) → a = (park false i h).arb ∧ f = h.free))) ∧
    ∀ i dt : Nat,
      (h.arb.dram.holder ≠ some i → h.arb.enc.holder ≠ some i → exec (.grantWatchdog i dt) s = .next s) ∧
      (h.arb.dram.holder = some i ∨ h.arb.enc.holder = some i →
        ∃ t, exec (.grantWatchdog i dt) s = .next { s with hub := t } ∧ t = { h with arb := t.arb, faults := t.faults } ∧
          t.arb.dram.holder ≠ some i ∧ t.arb.enc.holder ≠ some i ∧ t.arb.dram.reqs = h.arb.dram.reqs ∧
          t.arb.enc.reqs = h.arb.enc.reqs ∧ pendAt t i = { parked := [] } ∧ (∀ j, j ≠ i → pendAt t j = pendAt h j) ∧
          asserted t (0xE0 + i) 0 = true)

/-- Pages, the pool and windows (16 R399, R403, R406): a finished move leaves the page retired in favour of its replacement, which
every window onto DRAM then shows in its place; a block whose last burst has returned becomes free and the next one's is issued, none being lost; a window is revoked where its object no longer
exists in the form it was opened on, and no other window changes. -/
def Obligations.MemoryEvents : Prop :=
  ∀ (s : State) (k : Nat),
    let h := s.hub
    (∃ t, exec (.pageMoveDone k) s =
        .next { s with hub := { h with mem := t, windows := h.windows.map (repoint (h.mem.moving.filter (·.1 == k))) } } ∧ t.sparePages = h.mem.sparePages ∧
      (∀ new, (k, new) ∈ h.mem.moving → (k, new) ∈ t.retired) ∧ (∀ x, x ∈ h.mem.retired → x ∈ t.retired) ∧
      (∀ x, x ∈ t.moving ↔ x ∈ h.mem.moving ∧ x.1 ≠ k) ∧ t.poolFree = h.mem.poolFree) ∧
    (∃ t, exec .poolBlockFree s = .next { s with hub := { h with mem := t } } ∧
      t.poolFree = h.mem.poolFree + h.mem.poolMoving ∧ t.poolMoving ≤ 1 ∧
      t.poolFree + t.poolUse + t.poolMoving = h.mem.poolFree + h.mem.poolUse + h.mem.poolMoving ∧
      t = { h.mem with poolFree := t.poolFree, poolUse := t.poolUse, poolMoving := t.poolMoving }) ∧
    (∃ t, exec (.windowRevoke k) s = .next { s with hub := { h with windows := t } } ∧ t.length = h.windows.length ∧
      ∀ (i : Nat) (w : Window), h.windows[i]? = some w →
        t[i]? = some (if i = k ∧ w.isOpen = true ∧ objectExists h w = false then { w with revoked := true, table := [] } else w))

/-- The timebase at a tick (02 R24, R25, R42, 09 R205, 17 R422): the tick's number is one more; its instant is the end of the interval,
moved by a booked step; a booked rate is in force; frames then last one tick period, T of which make a second; operating time goes on;
and the occurrences that have cleared are gone. MERIDIAN_TICK (02 R24, R25): on a running hub the tick's number is one
more and an active hub's requests for retransmission are served, unless a reset that waits for its response begins; a hub that does not
run has no tick. -/
def Obligations.MeridianTickAdvances : Prop :=
  (∀ (h : Hub),
    let t := advance h
    t.time.tick = h.time.tick + 1 ∧ t.time.tickInst = h.time.tickInst + h.time.frameLen + h.time.jump.getD 0 ∧
      (h.time.rateDue = none → t.time.tCode = h.time.tCode ∧ t.time.v = h.time.v) ∧
      (∀ r, h.time.rateDue = some r → t.time.tCode = r.1 ∧ t.time.v = r.2) ∧
      (h.time.jump = none → t.time.frameLen = tickLen t.time.tCode ∧ bitOf t.time.frameFlags 0 = false) ∧
      (h.time.tCode ≤ 5 → (h.time.rateDue = none → tickLen t.time.tCode * tickHz t.time.tCode = secUnits) ∧
        (t.time.op4k - h.time.op4k) * tickHz h.time.tCode = 4000) ∧
      t.time.jump = none ∧ t.time.rateDue = none ∧ (h.time.jump = none → t.chans = h.chans) ∧ t.cfg = h.cfg ∧ t.stream = h.stream ∧
      ∀ o ∈ t.faults.occ, o.cleared = false) ∧
  ∀ (s : State) (overrun : Option Bool),
    (isUp s.hub = true → ∃ t, exec (.meridianTick overrun) s = .next t ∧ t.pending = s.pending ∧
      (s.hub.power.resetDue = none → t.hub.time.tick = s.hub.time.tick + 1 ∧
        (isActive s.hub = true → isActive t.hub = true → t.hub.stream.retx = []))) ∧
    (isUp s.hub = false → exec (.meridianTick overrun) s = .next s)

/-- What is booked for or takes effect at the coming tick (02 R42, 03 R68, 05 R113, 06 R140, 07 R151, 09 R211, 10 R253, R447, 11 R281):
the changes due enter the configuration in order and leave the list; a CFG_TICK whose boundary second the coming tick reaches books its
rate and V; a graph activation takes over the shadow; a shadow slot table replaces its lane's; a TIME_STEP due books its jump, raises the
epoch and leaves its record, or is discarded where it would lead before TAI 0; new system coefficients replace the old; a LEDGER falls due
at a multiple of LEDGER_PERIOD; a SCHEDULE unit flares at its tick. Which of these a row does ahead of the tick is the model's choice, log
3. -/
def Obligations.ChangesTakeEffectAtTheirTick : Prop :=
  ∀ (s : State), isUp s.hub = true →
    let h := s.hub
    let n := h.time.tick + 1
    (∀ (items : List Item), (sortBy (·.tick) (h.changes.filter fun c => decide (c.tick ≤ n))).map (·.item) = items → items ≠ [] →
      (∀ i ∈ items, (∃ a b, i = .supply a b) ∨ (∃ b, i = .cal b) ∨
        (∃ b : BitVec 64, i = .outlets b ∧ bitsOf b.toNat 1 0 = bitsOf h.cfg.outlets.toNat 1 0) ∨
        (∃ a b, i = .fault a b) ∨ (∃ b, i = .selfMerge b) ∨ ∃ v, i = .loopV v) →
      exec .changeInstant s =
        .next { s with hub := { h with cfg := items.foldl (fun c i => cfgItem i c) h.cfg
                                       changes := h.changes.filter fun c => !decide (c.tick ≤ n) } }) ∧
    (∀ (t : Nat) (b : Bytes), h.changes.filter (fun c => decide (c.tick ≤ n)) = [⟨t, .uplink b⟩] →
      let kept := fieldAt h.cfg.uplink 6 2 = fieldAt b 6 2 ∧ fieldAt h.cfg.uplink 24 4 = fieldAt b 24 4
      exec .changeInstant s =
        .next { s with hub := { h with cfg.uplink := b, eth.arp := [], eth.ptp := if kept then h.eth.ptp else {}
                                       changes := h.changes.filter fun c => !decide (c.tick ≤ n) } }) ∧
    ((∀ c ∈ h.changes, n < c.tick) → exec .changeInstant s = .next s) ∧
    (∀ (passed : List (Nat × Nat × Nat)) (b tc v : Nat) (rest : List (Nat × Nat × Nat)),
      h.time.newTicks = passed ++ (b, tc, v) :: rest → (∀ x ∈ rest, nextInst h < (x.1 : Int) * secUnits) →
      ((∀ x ∈ passed, (x.1 : Int) * secUnits ≤ nextInst h) → (b : Int) * secUnits ≤ nextInst h →
        exec .tickRateChange s =
          .next { s with hub := { h with time.rateDue := some (tc, v), time.newTicks := rest } }) ∧
      (passed = [] → nextInst h < (b : Int) * secUnits → exec .tickRateChange s = .next s)) ∧
    (∀ (gid : BitVec 32) (g : Graph), h.arr.activate = some (gid, n) → h.arr.since ≠ n → h.arr.named = none →
      h.arr.shadow = some g → gid ≠ 0 →
      exec .graphActivation s =
        .next { s with hub := { h with cfg.graph := g, arr.outgoing := some h.arr.active, arr.active := g
                                       arr.shadow := none, arr.since := n } }) ∧
    (∀ (lane t : Nat) (table : List Nat), (laneAt h lane).shadowTable = some (t, table) → t ≤ n →
      exec (.slotTableSwap lane) s =
        .next { s with hub := { updLane lane (fun x => { x with shadowTable := none }) h with
                                  cfg.slots := setAt h.cfg.slots lane table } }) ∧
    (∀ d : Inst, h.time.step = some (n, d) → h.time.exitStep = none → h.time.exitSlew = none → 0 ≤ frameEnd h + d →
      isActive h = true →
      ∃ t r, exec .timeStepApply s = .next { s with hub := t } ∧ t.time.step = none ∧ t.time.jump = some d ∧
        t.time.epoch = (h.time.epoch + 1) % 65536 ∧ t.flash = { h.flash with epoch := t.time.epoch } ∧
        t.time.secondsSet = true ∧ t.time.firstAfterStep = true ∧ t.stream = { h.stream with due := h.stream.due ++ [r] } ∧
        r.ty = 7 ∧ fieldAt r.payload 0 1 = 0 ∧ (r.payload.drop 16).take 16 = stampBytes (stampOf h (frameEnd h)) ∧
        t.time.tick = h.time.tick ∧ t.faults = h.faults ∧ t.chans = h.chans) ∧
    (∀ d : Inst, h.time.step = some (n, d) → h.time.exitStep = none → h.time.exitSlew = none → frameEnd h + d < 0 →
      ∃ t, exec .stepDiscarded s = .next { s with hub := t } ∧ t.time = { h.time with step := none } ∧
        t.flash.nextIndex = h.flash.nextIndex + 1 ∧
        t = { h with time.step := none, jr := t.jr, flash := t.flash, windows := t.windows }) ∧
    (∃ t, exec .systemCoefficientsEffect s = .next { s with hub := { h with chans := t } } ∧
      ∀ (c : Nat) (x : Chan), h.chans[c]? = some x →
        (∀ set old, x.newSys = some (set, old) →
          t[c]? = some (if isSys c (dMode (chDesc h c)) x.rangeNow set then { x with gSys := set.g, oSys := set.o, newSys := none }
            else { x with newSys := none })) ∧
        (x.newSys = none → t[c]? = some x)) ∧
    (h.stream.due.any (·.ledger) = false → (streamTick h + 1) % max 1 (ledgerPeriod h) = 0 →
      ∃ r, exec .ledgerPeriod s = .next { s with hub := { h with stream.due := h.stream.due ++ [r] } } ∧ r.ty = 6 ∧
        r.ledger = true) ∧
    (∀ u, isActive h = true → fEnable (unitDesc h u) = true → fSource (unitDesc h u) = 5 → fA (unitDesc h u) ≠ 0 →
      let rate := (h.time.rateDue.getD (h.time.tCode, h.time.v)).1
      (tickIndex rate (nextInst h) % fA (unitDesc h u) ≠ fB (unitDesc h u) % fA (unitDesc h u) →
        exec (.scheduleFlare u) s = .next s) ∧
      (tickIndex rate (nextInst h) % fA (unitDesc h u) = fB (unitDesc h u) % fA (unitDesc h u) →
        (∀ e ∈ h.cap.events, ¬(e.unit = u ∧ e.inst = nextInst h)) →
        exec (.scheduleFlare u) s =
          .next { s with hub := { h with cap.events := h.cap.events ++
            [{ unit := u, inst := nextInst h, epoch := h.time.epoch, shift := some (h.time.shift + h.time.jump.getD 0)
               due := n + 1 }] } }))

/-- A frame settles at tick f + V + 1 (02 R31): it leaves the raw window and its FRAME record falls due. A closed period's entry of a
node stands in the provisional queue in place of an earlier one of that frame (06 R129). -/
def Obligations.FramesSettle : Prop :=
  ∀ (s : State), isUp s.hub = true → isStandby s.hub = false →
    let h := s.hub
    (∀ (f : Frame) (rest : List Frame) (mismatch : Bool), h.frames = f :: rest → h.power.drain = none →
      (f.n + f.v + 1 ≤ h.time.tick + 1 →
        ∃ t, exec (.frameSettle mismatch) s = .next { s with hub := t } ∧ t.frames = h.frames.filter (·.n != f.n) ∧
          ∃ r ∈ t.stream.due, r.ty = 1 ∧ r.frame = some f.n) ∧
      (h.time.tick + 1 < f.n + f.v + 1 → exec (.frameSettle mismatch) s = .next s)) ∧
    (∀ (node : Nat) (f : Frame), (h.frames.find? (·.n == h.time.tick)) = some f →
      ∃ t m, exec (.reductionPeriodClose node) s = .next { s with hub := { h with arr.provQ := t } } ∧ m.tick = h.time.tick + 1 ∧
        m.index = tickIndex h.time.tCode (nextInst h) ∧ m.stamp = stampOf h (nextInst h) ∧
        (∀ e, e ∈ t ↔ (e ∈ h.arr.provQ ∧ ¬(e.frame = f.n ∧ e.node = node)) ∨
          (e ∈ (runFrame h.arr f m h.arr.nodes).2 ∧ e.node = node)))

/-- SAMPLE_SLOT_CREATE (00 R5 to R7, R9, 04 R76 to R95): the channel's sequence goes on by one, the word carries one status, the first
applicable of RETIRED, INVALID, OVER_HI or OVER_LO, STALE, SETTLING, RECOVERING, GOOD, with the VALUE that status gives it and its SEQ,
and no other channel changes; a slot that is not due is not created. -/
def Obligations.SampleSlotsAreCreated : Prop :=
  ∀ (s : State) (ch : Nat) (bits : List Bool), s.hub.chans.length = 512 →
    (slotDue s.hub ch = true →
      ∃ t x, exec (.sampleSlotCreate ch bits) s = .next { s with hub := t } ∧
        t = { s.hub with chans := t.chans, frames := t.frames } ∧
        x.seq = (chanAt s.hub ch).seq + 1 ∧ x.inFrame = (chanAt s.hub ch).inFrame + 1 ∧
        x.settleLeft = (chanAt s.hub ch).settleLeft - 1 ∧ x.recLeft = (chanAt s.hub ch).recLeft - 1 ∧
        chanAt t ch = x ∧ (∀ c, c ≠ ch → chanAt t c = chanAt s.hub c) ∧
        (∀ f ∈ s.hub.frames, f.n ≠ s.hub.time.tick → f ∈ t.frames) ∧
        ∀ f ∈ s.hub.frames, f.n = s.hub.time.tick → (∀ w ∈ f.words, w.1 ≠ ch) →
          ∃ w status value, { f with words := insertBy (·.1) (ch, [w]) f.words } ∈ t.frames ∧
            w = sampleWord value status (chanAt s.hub ch).seq ∧ status ≤ 8 ∧
            (status = 8 → value = 0) ∧ (status = 2 → value = 8388607) ∧ (status = 3 → value = -8388608) ∧
            (status = 5 → value = (chanAt s.hub ch).lastVal) ∧
            x.lastVal = (if slotHeld s.hub ch (slotInst s.hub (dRate (chDesc s.hub ch)) (chanAt s.hub ch).inFrame) then
              (chanAt s.hub ch).lastVal else value) ∧
            ((chanAt s.hub ch).retired = true → status = 8)) ∧
    (slotDue s.hub ch = true →
      let h := s.hub
      let x := chanAt h ch
      let d := chDesc h ch
      let i := slotInst h (dRate d) x.inFrame
      let v := correct (feCoef h (chainFe ch x) (dMode d) x.rangeNow) x.gSys x.oSys (feedChain ch d i bits x).chain.y
      let c := slotCauses h ch i v
      ∃ t, exec (.sampleSlotCreate ch bits) s = .next { s with hub := t } ∧
        ∀ f ∈ h.frames, f.n = h.time.tick → (∀ w ∈ f.words, w.1 ≠ ch) →
          ∃ w, { f with words := insertBy (·.1) (ch, [w]) f.words } ∈ t.frames ∧
            (c.retired = true → wStatus w = 8) ∧
            (c.retired = false →
              (c.invalid = true → wStatus w = 7) ∧
              (c.invalid = false →
                (c.overHi = true → wStatus w = 2) ∧
                (c.overHi = false → c.overLo = true → wStatus w = 3) ∧
                (c.overHi = false → c.overLo = false →
                  (c.stale = true → wStatus w = 5) ∧
                  (c.stale = false →
                    (c.settling = true → wStatus w = 1) ∧
                    (c.settling = false → (c.recovering = true → wStatus w = 4) ∧ (c.recovering = false → wStatus w = 0))))))) ∧
    (slotDue s.hub ch = false → exec (.sampleSlotCreate ch bits) s = .next s)

/-- Over-range, autorange, on-phases and limiters (03 R53, R62 to R66, R446): a comparator past its limit marks its front end, once; where
the over-range ends, the channel it serves is RECOVERING for 20 µs and S samples if trips of its range count (all without autorange, else
those of the least sensitive range: log 16), and an area above 1.0 V·µs issues RECOVERING verdicts over the group's other measuring
channels and keeps them RECOVERING to 50 µs after the end; at a frame's verdict deadline they get theirs without waiting for the area;
with autorange a channel goes one range less or more sensitive within AR_LO and AR_HI, taking that range's coefficients, up counting as
less sensitive in CHARGE (log 16); a switched group's on-phase starts at its ON_OFFSET, one that ends without a held detector clears the
counts and leaves the front ends holding, and a third in succession with the excitation open asserts EXC_OPEN; a driven port or LOOP_POWER
source folds back, and is retried. -/
def Obligations.RangeAndPhaseEvents : Prop :=
  ∀ (s : State) (i : Nat),
    let h := s.hub
    (∀ (high : Bool) (dt : Nat), (feAt h i).overRange = none →
      let g := updFe i (fun f => { f with
        overRange := some (high, h.time.tickInst + dt), overCh := heldBy h i, overDone := h.time.tick }) h
      exec (.overRangeStart i high dt) s = .next { s with hub := g }) ∧
    (∀ (high : Bool) (dt : Nat), (feAt h i).overRange.isSome = true → exec (.overRangeStart i high dt) s = .next s) ∧
    (∀ dt area : Nat, (feAt h i).overRange = none → exec (.overRangeEnd i dt area) s = .next s) ∧
    (∀ (hi : Bool) (first : Inst) (c dt area : Nat), (feAt h i).overRange = some (hi, first) → overChan h i = some c →
      h.chans.length = 512 → c < 512 →
      let start := pastHolds (chanAt h c) first
      let stop : Inst := h.time.tickInst + dt
      ∃ t, exec (.overRangeEnd i dt area) s = .next { s with hub := t } ∧
        t = { h with fes := t.fes, chans := t.chans, verdicts := t.verdicts } ∧ (feAt t i).overRange = none ∧
        (stop < start → t.chans = h.chans ∧ t.verdicts = h.verdicts) ∧
        (start ≤ stop →
        (chanAt t c).recLeft = (if overCounts (chDesc h c) (chanAt h c).rangeNow then
          max (chanAt h c).recLeft (recoverN 20000 (chDesc h c)) else (chanAt h c).recLeft) ∧
        (area ≤ 1000 → t.verdicts = h.verdicts ∧ ∀ k, k ≠ c → chanAt t k = chanAt h k) ∧
        (1000 < area →
          (∀ v, v ∈ t.verdicts ↔ v ∈ h.verdicts ∨ ∃ k ∈ neighbours h c, v ∈ verdictsFor h k 4 1 start stop) ∧
          ∀ k, k ≠ c → chanAt t k = if k ∈ neighbours h c then
            { chanAt h k with recUntil := some (max ((chanAt h k).recUntil.getD stop) (stop + 3276800000)) } else chanAt h k))) ∧
    (∀ (hi : Bool) (first : Inst) (c : Nat), (feAt h i).overRange = some (hi, first) → overChan h i = some c →
      let start := pastHolds (chanAt h c) first
      ∃ t, exec (.neighbourVerdictDeadline i) s = .next { s with hub := t } ∧
        t = { h with fes := t.fes, verdicts := t.verdicts } ∧
        (∀ v, v ∈ t.verdicts ↔ v ∈ h.verdicts ∨ (∃ k ∈ neighbours h c, v ∈ verdictsFor h k 4 1 start (frameEnd h)) ∧
          ∃ f ∈ h.frames, f.n = v.frame ∧ h.time.tick + 1 = f.n + f.v) ∧
        ∀ v ∈ t.verdicts, v ∈ h.verdicts ∨
          (v.status = 4 ∧ v.cause = 1 ∧ v.ch / 8 = c / 8 ∧ v.ch ≠ c ∧ ∃ f ∈ h.frames, f.n = v.frame ∧ h.time.tick + 1 = f.n + f.v)) ∧
    (∀ dt, i < 512 → h.chans.length = 512 → measures h = true → measuring h i = true → dArEn (chDesc h i) = true →
      ((dMode (chDesc h i) ≠ 2 → dArLo (chDesc h i) < (chanAt h i).rangeNow →
        ∃ t, exec (.autorangeDown i dt) s = .next { s with hub := { h with chans := t } } ∧
          (t.getD i {}).rangeNow = (chanAt h i).rangeNow - 1 ∧
          (t.getD i {}).arSwitches = ((chanAt h i).arSwitches + 1) % 2 ^ 32 ∧
          ((t.getD i {}).gSys, (t.getD i {}).oSys) = storedSys h i (dMode (chDesc h i)) ((chanAt h i).rangeNow - 1) ∧ ∀ k, k ≠ i → t.getD k {} = h.chans.getD k {}) ∧
      (dMode (chDesc h i) ≠ 2 → (chanAt h i).rangeNow < dArHi (chDesc h i) →
        ∃ t, exec (.autorangeUp i dt) s = .next { s with hub := { h with chans := t } } ∧
          (t.getD i {}).rangeNow = (chanAt h i).rangeNow + 1 ∧
          (t.getD i {}).recLeft = max (chanAt h i).recLeft
            (recoverN (rangeTerm (dMode (chDesc h i)) ((chanAt h i).rangeNow + 1) 0) (chDesc h i)) ∧
          ∀ k, k ≠ i → t.getD k {} = h.chans.getD k {}) ∧
      (dMode (chDesc h i) = 2 → (chanAt h i).rangeNow < dArHi (chDesc h i) →
        ∃ t, exec (.autorangeDown i dt) s = .next { s with hub := { h with chans := t } } ∧
          (t.getD i {}).rangeNow = (chanAt h i).rangeNow + 1) ∧
      (dMode (chDesc h i) = 2 → dArLo (chDesc h i) < (chanAt h i).rangeNow →
        ∃ t, exec (.autorangeUp i dt) s = .next { s with hub := { h with chans := t } } ∧
          (t.getD i {}).rangeNow = (chanAt h i).rangeNow - 1) ∧
      (dMode (chDesc h i) ≠ 2 → (chanAt h i).rangeNow ≤ dArLo (chDesc h i) → exec (.autorangeDown i dt) s = .next s) ∧
      (dMode (chDesc h i) ≠ 2 → dArHi (chDesc h i) ≤ (chanAt h i).rangeNow → exec (.autorangeUp i dt) s = .next s))) ∧
    (∀ dt, dArEn (chDesc h i) = false → exec (.autorangeDown i dt) s = .next s ∧ exec (.autorangeUp i dt) s = .next s) ∧
    (phased h i = false → exec (.onPhaseStart i) s = .next s ∧
      ∀ (openHeld shortHeld : Bool) (a b : BitVec 8), exec (.onPhaseEnd i openHeld shortHeld a b) s = .next s) ∧
    (phased h i = true →
      let start : Inst := h.time.tickInst + 65536000 * (gOnOffset (grDesc h i) : Int)
      let on (x : Group) : Group :=
        { x with onPhase := true, holding := false, phaseStart := start, starts := (start :: x.starts).take 3 }
      exec (.onPhaseStart i) s = .next { s with hub := updGroup i on h }) ∧
    (phased h i = true → (groupAt h i).onPhase = true → h.groups.length = 64 → i < 64 → 2 ≤ (groupAt h i).openPhases →
      evaluated h .excOpen i = true → ∀ (shortHeld : Bool) (a b : BitVec 8),
      ∃ t, exec (.onPhaseEnd i true shortHeld a b) s = .next { s with hub := t } ∧
        asserted t (0x12 + 16 * (i / 16)) i = true ∧ (groupAt t i).openPhases = (groupAt h i).openPhases + 1) ∧
    (phased h i = true → (groupAt h i).onPhase = true → h.groups.length = 64 → i < 64 → h.chans.length = 512 →
      ∃ t, exec (.onPhaseEnd i false false 0 0) s = .next { s with hub := t } ∧ t = { h with groups := t.groups, chans := t.chans } ∧
        (groupAt t i).onPhase = false ∧ (groupAt t i).holding = true ∧ (groupAt t i).openPhases = 0 ∧
        ∀ c, c / 8 = i → (chanAt t c).openPhases = 0 ∧ (chanAt t c).shortPhases = 0) ∧
    ((groupAt h i).portOn = true →
      exec (.limiterFoldBack true i) s = .next { s with hub := updGroup i (fun x => { x with folded := true }) h }) ∧
    ((chanAt h i).sourceOn = true → gExc (grDesc h (i / 8)) = 3 →
      exec (.limiterFoldBack false i) s = .next { s with hub := updChan i (fun x => { x with folded := true }) h }) ∧
    ((groupAt h i).portOn = false → exec (.limiterFoldBack true i) s = .next s) ∧
    ((chanAt h i).sourceOn = false → exec (.limiterFoldBack false i) s = .next s) ∧
    exec (.limiterRetry i) s = .next { s with hub := updChan i (fun x => { x with folded := false }) h }

/-- The record book (09 R213, 13 R331): on a hub whose book balances it still does after an assignment, an acknowledgement, a withdrawal,
the drops of a tick and a release, which a hub in neither OPERATIONAL nor MAINTENANCE leaves without a record (that BLANK and
DECOMMISSIONED have no stream either is log 27), and every LEDGER written from it carries REC_ASSIGNED = REC_ACKED + REC_HELD +
REC_WITHDRAWN. -/
def Obligations.RecordBookBalances : Prop :=
  ∀ (h : Hub), balanced h →
    (∀ r, balanced (assign h r)) ∧ balanced (applyAcks h) ∧ (∀ reason sel, balanced (withdraw reason sel h)) ∧
      balanced (makeDrops h) ∧ balanced (releaseDue h) ∧
      (runsInFull h = false → (releaseDue h).stream = { h.stream with due := [] }) ∧
      (h.stream.assigned < 2 ^ 64 → ∀ chs,
        fieldAt (ledgerPayload h chs) 16 8 =
          fieldAt (ledgerPayload h chs) 24 8 + fieldAt (ledgerPayload h chs) 32 8 + fieldAt (ledgerPayload h chs) 40 8)

/-- Which offsets the servo takes (10 R244): a valid measurement of a source followed and not lost is accepted where its θ lies within the
margin of the predicted offset, and is an outlier, not fed to the servo, outside it. The margin is 100 ns; in ACQUIRE, and for the first
measurement after a step, STEP_THRESHOLD; an outlier is that first measurement too. So it is for every source's measurement, and so a PPS
edge is taken. How θ is predicted is the model's choice, log 25. -/
def Obligations.OffsetsWithinTheMarginAreAccepted : Prop :=
  (∀ (theta p : Int) (h : Hub), h.time.lost = false → h.time.servo ≠ .holdover → h.time.servo ≠ .freeRun → h.time.rampDue = false →
    h.time.predicted = some p →
    let margin : Int := if h.time.servo = .acquire ∨ h.time.firstAfterStep = true then stepThreshold h.cfg.timeBlock
      else 100 * 65536
    ((sourceMeasured theta h).2 = true ↔ ((theta - p).natAbs : Int) ≤ margin) ∧
      (margin < ((theta - p).natAbs : Int) →
        (sourceMeasured theta h).1.time.firstAfterStep = false ∧ (sourceMeasured theta h).1.time.freq = h.time.freq ∧ (sourceMeasured theta h).1.time.integ = h.time.integ ∧
          (sourceMeasured theta h).1.time.predicted = h.time.predicted ∧ (sourceMeasured theta h).1.time.servo = h.time.servo)) ∧
  ∀ (s : State) (edge : Inst) (rising : Bool) (p : Int), isUp s.hub = true → s.hub.time.source = 5 ∨ s.hub.time.source = 6 →
    rising ≠ bitOf s.hub.cfg.timeBlock.toNat 3 → follows s.hub = true → s.hub.time.lost = false → s.hub.time.rampDue = false →
    s.hub.time.predicted = some p →
    let h := s.hub
    let theta := ppsTheta h edge
    let margin : Int := if h.time.servo = .acquire ∨ h.time.firstAfterStep = true then stepThreshold h.cfg.timeBlock
      else 100 * 65536
    (((theta - p).natAbs : Int) ≤ margin →
      ∃ t, exec (.ppsEdge rising edge) s = .next { s with hub := t } ∧ t.time.theta = theta ∧ t.time.outliers = 0 ∧
        t.time.firstAfterStep = false ∧ t.time.missed = 0 ∧ t.time.measuredThisTick = true ∧ t.time.tick = h.time.tick ∧
        t.time.tickInst = h.time.tickInst) ∧
    (margin < ((theta - p).natAbs : Int) →
      ∃ t, exec (.ppsEdge rising edge) s = .next { s with hub := t } ∧ t.time.outliers = min 65535 (h.time.outliers + 1) ∧
        t.time.firstAfterStep = false ∧ t.time.missed = 0 ∧
        t.time.integ = h.time.integ ∧ t.time.freq = h.time.freq ∧ t.time.ramp = h.time.ramp ∧ t.time.yHist = h.time.yHist ∧
        t.time.theta = h.time.theta ∧ t.time.servo = h.time.servo ∧ t.time.predicted = h.time.predicted)

/-- Events of network time (10 R238, R246, R248, 17 R423, R441): a time message on a lane that is UP leaves the lane's measurement (θ and
d of R238 with the arrival at the lane's ball) and the message to echo; an invalid one of the source in force ends a run of qualifying
ones and gives only the UTC offset; a source that is lost raises TIME_HOLDOVER once; 16 offsets that qualify book the exit for the first
tick after the coming one, a step above STEP_THRESHOLD and a slew else; a slew at zero is TRACK. REF10 lost loses the source that needs
it; SOURCE REF10 has no servo to hold and raises TIME_HOLDOVER all the same (log 25). REFCLK absent holds a bring-up or raises PLL_UNLOCK
of a running hub, and present again lets it go on. -/
def Obligations.TimeEvents : Prop :=
  ∀ (s : State),
    let h := s.hub
    (∀ (lane : Nat) (msg : Bytes) (arrive : Inst), isUp h = true → msg.length = 64 → lane ≤ 5 → h.lanes.length = 6 →
      h.time.laneMeas.length = 6 → (laneAt h lane).state = .up → sourceLane h ≠ some lane →
      ∃ t m, exec (.timeMessageReceipt lane msg arrive) s = .next { s with hub := t } ∧
        t = updLane lane (fun y => { y with farMsg := some (fieldAt msg 0 2, (msg.drop 16).take 16, stampOf h (arriveStamp h lane arrive)) })
          { h with time.laneMeas := setAt h.time.laneMeas lane m } ∧ m.age = 0 ∧
        m.valid = exchangeValid h lane msg (arriveStamp h lane arrive) ∧
        (m.theta, m.delay) = exchange h lane msg (arriveStamp h lane arrive)) ∧
    (isUp h = true → ∀ (lane : Nat) (msg : Bytes) (arrive : Inst), msg.length = 64 → lane ≤ 5 → h.lanes.length = 6 →
      h.time.laneMeas.length = 6 → (laneAt h lane).state = .up → sourceLane h = some lane →
      exchangeValid h lane msg (arriveStamp h lane arrive) = false →
      ∃ t, exec (.timeMessageReceipt lane msg arrive) s = .next { s with hub := t } ∧ t.time.utcNew = some (sfieldAt msg 4 2) ∧
        t.time.utcKnown = true ∧ t.time.qual = [] ∧ t.time.servo = h.time.servo ∧ t.time.freq = h.time.freq ∧ t.time.theta = h.time.theta) ∧
    (follows h = true → h.time.lost = false → Fresh 0x67 0 h →
      let g := { h with time.lost := true, time.qual := [] }
      exec .timeSourceLost s = .next { s with hub := raised 0x67 0 h.time.tickInst h.time.tickInst 0 false g }) ∧
    (h.time.servo = .holdover ∨ h.time.servo = .freeRun → 1 ≤ h.time.source → h.time.source ≤ 6 → qualified h.time.qual = true →
      h.time.exitStep = none → h.time.exitSlew = none →
      let theta := h.time.qual.headD 0
      (stepThreshold h.cfg.timeBlock < (theta.natAbs : Int) →
        exec .sourceQualified s = .next { s with hub := { h with time.exitStep := some (-theta), time.qual := [], time.exitAt := exitTick h } }) ∧
      ((theta.natAbs : Int) ≤ stepThreshold h.cfg.timeBlock →
        exec .sourceQualified s = .next { s with hub := { h with time.exitSlew := some theta, time.qual := [], time.exitAt := exitTick h } })) ∧
    (h.time.servo = .slew → h.time.rampDue = false → h.time.ramp = 0 →
      exec .slewComplete s = .next { s with hub := { h with time.servo := .track } }) ∧
    (h.power.ref10 = true → h.time.source ≠ 6 → h.time.source ≠ 7 →
      exec .ref10LockLoss s = .next { s with hub := { h with power.ref10 := false } }) ∧
    (h.power.ref10 = true → h.time.source = 6 → follows h = true → h.time.lost = false → Fresh 0x67 0 h →
      let g := { h with power.ref10 := false, time.lost := true, time.qual := [] }
      exec .ref10LockLoss s = .next { s with hub := raised 0x67 0 h.time.tickInst h.time.tickInst 0 false g }) ∧
    (h.power.ref10 = true → h.time.source = 7 → Fresh 0x67 0 h →
      exec .ref10LockLoss s =
        .next { s with hub := raised 0x67 0 h.time.tickInst h.time.tickInst 0 true { h with power.ref10 := false } }) ∧
    (bringingUp h.power.phase = true →
      exec .refclkAbsent s = .next { s with hub := { h with power.refclk := false, power.phase := .noRefclk } }) ∧
    (isUp h = true → ∃ t, exec .refclkAbsent s = .next { s with hub := t } ∧
      t = { h with power.refclk := false, faults := t.faults } ∧ asserted t 0x61 0 = true) ∧
    (h.power.phase = .noRefclk → exec .refclkPresent s =
      .next { s with hub := { h with power.refclk := true, power.phase := .clocks, power.calibrated := false } }) ∧
    (isUp h = true → (∀ n, h.faults.force.contains (n, 0, true) = false) →
      ∃ t, exec .refclkPresent s = .next { s with hub := t } ∧
        t = { h with power.refclk := true, faults := t.faults } ∧ asserted t 0x61 0 = false)

/-- Self-calibration runs (05 R97 to R100, R104, R108, R118, 15 R371): on a tile that may run, the front end whose turn it is starts its
run, the test-voltage reference's urgent conversion asked for (all of it queued where the queue is empty), and one that calibrates alone
is ISOLATED, a switch that fails its check then raising SWITCH_FAULT; a tile that may not run, or has none due, starts none; once 40 ms
for each range have passed and the path check is complete, the run's end writes the quality entry of every range, stores the coefficients
of each that passed, and keeps a front end due that failed one, to be retried 10 s later. A tile whose test path failed may run again
after its hold. Housekeeping (05 R115 to R117): a conversion keeps its code and goes on to the next entry; the end of a pass counts it and
takes over a shadow sequence; an urgent conversion serves the oldest request without disturbing the sequence, and a path check that waits
for it takes its reading. The order of turns and how outputs reach the model are logs 8 and 21. -/
def Obligations.CalibrationAndHousekeepingEvents : Prop :=
  (∀ (s : State) (tile : Nat), tile < 4 → s.hub.tiles.length = 4 → s.hub.fes.length = 576 → s.hub.chans.length = 512 →
    let h := s.hub
    (∀ u : Turn, mayRun h tile = true → turnToStart h tile = some u →
      ∃ t, exec (.calRunStart tile true) s = .next { s with hub := t } ∧
        t = { h with tiles := t.tiles, hk := t.hk, chans := t.chans, groups := t.groups } ∧
        (tileAt t tile).turn = some { u with startTick := some h.time.tick, endOp := h.time.op4k + 160 * u.ranges.length, path := [] } ∧
        (tileAt t tile).holdUntil = none ∧ (h.hk.urgent = [] → t.hk = { h.hk with urgent := [⟨40 + tile, 0, false, true⟩] }) ∧
        (u.step = .aloneRun → u.ch < 512 → (chanAt t u.ch).pair = .isolated ∧ (chanAt t u.ch).fe = none ∧
          (chanAt t u.ch).sourceOn = false)) ∧
    (∀ u : Turn, mayRun h tile = true → turnToStart h tile = some u →
      (u.step ≠ .aloneRun → exec (.calRunStart tile false) s = exec (.calRunStart tile true) s) ∧
      (u.step = .aloneRun → u.ch < 512 →
        ∃ t, exec (.calRunStart tile false) s = .next { s with hub := t } ∧ (chanAt t u.ch).pair = .isolated ∧
          asserted t (0x1A + 16 * (u.ch / 128)) u.ch = true)) ∧
    (∀ ok : Bool, mayRun h tile = false ∨ turnToStart h tile = none → exec (.calRunStart tile ok) s = .next s) ∧
    (∀ (u : Turn) (bits : List (List Bool)) (temp : Int), (tileAt h tile).turn = some u → u.startTick.isSome = true →
      u.fe < 576 →
      (u.endOp ≤ h.time.op4k → u.path.length = (pathSources tile u).length →
        ∃ t, exec (.calRunEnd tile bits temp) s = .next { s with hub := t } ∧
          ∀ (r : Nat) (m : List (List Int)), (r, m) ∈ u.ranges.zip (runOutputs h tile u bits).1 →
            let o := runRange (Config.levelFactor tile temp).toNat (calAgreeTol h) (m.map meanOut)
            (∃ q ∈ (feAt t u.fe).quality, q.mode = u.mode ∧ q.range = r ∧ q.result = o.result ∧ q.trigger = u.trigger ∧ q.temp = temp ∧
              q.residual = o.residual ∧ q.agreement = o.agreement) ∧
              (o.result = 0 → ∃ c ∈ (feAt t u.fe).coefs,
                c.mode = u.mode ∧ c.range = r ∧ c.o = o.o ∧ c.g = o.g ∧ c.temp = temp ∧ c.opSeconds = opSeconds h) ∧
              (o.result ≠ 0 → (feAt t u.fe).retryAt = some (h.time.op4k + 40000) ∧
                ∃ d ∈ (feAt t u.fe).due, d.1 = u.mode ∧ d.2.1 = r)) ∧
      (h.time.op4k < u.endOp → exec (.calRunEnd tile bits temp) s = .next s)) ∧
    (∀ fe e, (feAt h fe).retryAt = some e →
      (e ≤ h.time.op4k → exec (.calRetry fe) s =
        .next { s with hub := updFe fe (fun f => { f with retryAt := none }) h }) ∧
      (h.time.op4k < e → exec (.calRetry fe) s = .next s)) ∧
    (∀ e, (tileAt h tile).holdUntil = some e →
      (e ≤ h.time.op4k → exec (.testdacPathHoldEnd tile) s =
        .next { s with hub := updTile tile (fun x => { x with holdUntil := none }) h }) ∧
      (h.time.op4k < e → exec (.testdacPathHoldEnd tile) s = .next s))) ∧
  ∀ (s : State) (code : BitVec 16),
    let h := s.hub
    (isUp h = true → h.hk.codes.length = h.cfg.hkSeq.length → h.hk.pos < h.cfg.hkSeq.length →
      ∃ t, exec (.housekeepingConversion code) s = .next { s with hub := t } ∧
        t = { h with hk := t.hk, cfg := t.cfg, tiles := t.tiles, power := t.power, loops := t.loops } ∧
        (h.hk.pos + 1 < h.cfg.hkSeq.length →
          t.hk = { h.hk with pos := h.hk.pos + 1, codes := h.hk.codes.set h.hk.pos code, readings := t.hk.readings } ∧ t.cfg = h.cfg) ∧
        (h.hk.pos + 1 = h.cfg.hkSeq.length → t.hk.pos = 0 ∧ t.hk.pass = h.hk.pass + 1 ∧ t.hk.shadow = none ∧
          (h.hk.shadow = none → t.cfg = h.cfg ∧ t.hk.codes = h.hk.codes.set h.hk.pos code) ∧
          ∀ seq, h.hk.shadow = some seq → t.cfg = { h.cfg with hkSeq := seq } ∧ t.hk.codes = [])) ∧
    (∀ u us, h.hk.urgent = u :: us →
      ∃ t, exec (.urgentConversion code) s = .next { s with hub := t } ∧ (u, code) ∈ t.hk.urgentDone ∧
        t.hk.codes = h.hk.codes ∧ t.hk.pos = h.hk.pos ∧ t.hk.pass = h.hk.pass ∧ t.cfg = h.cfg ∧
        (u.calibration = false →
          t = { h with hk := t.hk, tiles := t.tiles, power := t.power, loops := t.loops } ∧ t.hk.urgent = us) ∧
        ∀ x : Turn, u.calibration = true → h.tiles.length = 4 → (tileAt h (u.source % 4)).turn = some x → x.startTick.isSome = true →
          (pathSources (u.source % 4) x)[x.path.length]? = some (u.source, u.sub) → x.path.length < 3 →
          let gain := ((h.cfg.hkSeq.find? fun w => hkSource w == u.source && hkSub w == u.sub).map hkGain).getD 1
          (tileAt t (u.source % 4)).turn = some { x with path := x.path ++ [hkValue u.source gain code.toNat] }) ∧
    (h.hk.urgent = [] → exec (.urgentConversion code) s = .next s)

/-- Handovers (05 R105 to R107, 14 R349, 15 R371): an overlap agrees within OVERLAP_TOL + 8 × 10^6 / N ppm; one that agrees passes the
pair on at the coming tick, one that does not leaves it bound, issues its verdict and raises CAL_DISAGREE, and one that an over-range
voids, or a switch that fails its check, leaves it bound; a break-before-make handover moves the pair at once and adds its hold interval,
or raises SWITCH_FAULT, after which the spare's switch counts as bad. A remap's comparison follows the rules of a turn's: log 13. -/
def Obligations.Handovers : Prop :=
  ∀ (s : State) (ch : Nat), ch < 512 → s.hub.chans.length = 512 → s.hub.tiles.length = 4 → s.hub.groups.length = 64 →
    let h := s.hub
    let spare := ch / 8 * 9 + 8
    let quiet (fe : Nat) : Prop := (feAt h fe).overRange = none ∧ (feAt h fe).overIn ≠ some h.time.tick
    let mean (fe : Nat) (sum : Int) : Int :=
      let k := feCoef h fe (dMode (chDesc h ch)) (chanAt h ch).rangeNow
      k.g * (sum * 2 ^ 32 - k.o * overlapBits h)
    let far (a b : Int) : Nat := (mean (ch / 8 * 9 + ch % 8) a - mean spare b).natAbs * 1000000
    let tol : Nat := (bitsOf h.cfg.cal.toNat 47 32 * overlapBits h + 8000000) * 2 ^ 62
    (∀ (a b : Int), (chanAt h ch).pair = .overlap → (chanAt h ch).handover = some true →
      (quiet (ch / 8 * 9 + ch % 8) → quiet spare → far a b ≤ tol →
        ∃ t, exec (.overlapCompare ch a b true) s = .next { s with hub := { h with chans := t } } ∧
          t.getD ch {} = { chanAt h ch with handover := none, remapped := true, pairDue := some (.spare, some spare) } ∧
          ∀ c, c ≠ ch → t.getD c {} = h.chans.getD c {}) ∧
      (quiet (ch / 8 * 9 + ch % 8) → quiet spare → tol < far a b →
        ∃ t, exec (.overlapCompare ch a b true) s = .next { s with hub := t } ∧
          t = { h with chans := t.chans, verdicts := t.verdicts, faults := t.faults } ∧
          asserted t (0x17 + 16 * (ch / 128)) spare = true ∧ (chanAt t ch).remapped = (chanAt h ch).remapped ∧
          (chanAt t ch).pairDue = some (.bound, some (ch / 8 * 9 + ch % 8)) ∧
          ∀ v ∈ t.verdicts, v ∈ h.verdicts ∨ (v.ch = ch ∧ v.status = 7 ∧ v.cause = 2)) ∧
      (((feAt h (ch / 8 * 9 + ch % 8)).overIn = some h.time.tick ∨ (feAt h spare).overIn = some h.time.tick) →
        ∃ t, exec (.overlapCompare ch a b true) s = .next { s with hub := { h with chans := t } } ∧
          t.getD ch {} = { chanAt h ch with handover := none, pairDue := some (.bound, some (ch / 8 * 9 + ch % 8)) })) ∧
    (∀ (a b : Int) (u : Turn), (chanAt h ch).pair = .overlap → (chanAt h ch).handover = none →
      (tileAt h (ch / 128)).turn = some u → u.ch = ch → u.step = .overlapTake →
      quiet (ch / 8 * 9 + ch % 8) → quiet spare → far a b ≤ tol →
      ∃ t, exec (.overlapCompare ch a b true) s = .next { s with hub := t } ∧ t = { h with chans := t.chans, tiles := t.tiles } ∧
        (tileAt t (ch / 128)).turn = some { u with step := .ownRun, fe := ch / 8 * 9 + ch % 8 } ∧
        (chanAt t ch).pairDue = some (.spare, some spare)) ∧
    (∀ (a b : Int) (u : Turn), (chanAt h ch).pair = .overlap → (chanAt h ch).handover = none →
      (tileAt h (ch / 128)).turn = some u → u.ch = ch → u.step = .overlapTake →
      quiet (ch / 8 * 9 + ch % 8) → quiet spare → far a b ≤ tol →
      ∃ t, exec (.overlapCompare ch a b false) s = .next { s with hub := t } ∧ asserted t (0x1A + 16 * (ch / 128)) ch = true ∧
        (tileAt t (ch / 128)).turn = none ∧ (chanAt t ch).pairDue = some (.bound, some (ch / 8 * 9 + ch % 8))) ∧
    ((chanAt h ch).pair ≠ .overlap → ∀ a b ok, exec (.overlapCompare ch a b ok) s = .next s) ∧
    (∀ u : Turn, (tileAt h (ch / 128)).turn = some u → u.ch = ch → u.step = .handTake →
      (∃ t, exec (.breakBeforeMakeHandover ch true) s = .next { s with hub := t } ∧
        t = { h with chans := t.chans, tiles := t.tiles, groups := t.groups } ∧ (chanAt t ch).pair = .spare ∧
        (chanAt t ch).fe = some spare ∧ (groupAt t (ch / 8)).spareOn = some ch ∧
        (chanAt t ch).holds = (chanAt h ch).holds ++ [{ start := h.time.tickInst, stop := h.time.tickInst +
          65536000 * (holdUs (dMode (chDesc h ch)) (chanAt h ch).rangeNow : Int) }] ∧
        (tileAt t (ch / 128)).turn = some { u with step := .ownRun, fe := ch / 8 * 9 + ch % 8 }) ∧
      ∃ t, exec (.breakBeforeMakeHandover ch false) s = .next { s with hub := t } ∧
        t = { h with groups := t.groups, tiles := t.tiles, faults := t.faults } ∧
        asserted t (0x1A + 16 * (ch / 128)) ch = true ∧ (tileAt t (ch / 128)).turn = none ∧
        (Fresh (0x1A + 16 * (ch / 128)) ch h → ch ∈ (groupAt t (ch / 8)).badSwitch))

/-- Flares and captures (07 R152, R153, R157, R169, R171): an export writes the next CAPTURE_DATA record that the budget in hand pays for;
a running definition whose captures have passed their post windows is ARMED again; a decided flare is kept W + 1 s for each COINCIDENCE
unit that names it and then dropped; a TRIG_IN edge is stamped to 4 ns and reaches the enabled units of its sense, one within 1 µs of the
last accepted one is ignored; a flare message is forwarded on the other bond while hops remain. The budget's unit and the bound it starts
from are log 20. -/
def Obligations.FlareAndCaptureEvents : Prop :=
  ∀ (s : State) (i : Nat),
    let h := s.hub
    (∀ c r run, exporting (defAt h i) = some c → nextData h i c = some (r, run) →
      recLen r * tickHz h.time.tCode ≤ (defAt h i).budget →
      ∃ t, exec (.captureDataExport i) s = .next { s with hub := t } ∧
        t = { h with cap := t.cap, stream.due := t.stream.due, stream.badBodies := t.stream.badBodies } ∧ h.stream.due ++ [r] <+: t.stream.due ∧
        (defAt t i).budget + recLen r * tickHz h.time.tCode ≤ (defAt h i).budget) ∧
    (exporting (defAt h i) = none → exec (.captureDataExport i) s = .next s) ∧
    ((defAt h i).state = .running → (∀ c ∈ (defAt h i).caps, capRuns c (frameEnd h) = false) →
      ∃ t, exec (.captureRearm i) s = .next { s with hub := { h with cap.defs := t } } ∧ (t.getD i {}).state = .armed ∧
        (t.getD i {}).rearmTo = frameEnd h ∧ (t.getD i {}).caps = (defAt h i).caps ∧
        ∀ d, d ≠ i → t.getD d {} = h.cap.defs.getD d {}) ∧
    (∃ t, exec (.memberFlareExpire i) s = .next { s with hub := { h with cap.members := t } } ∧
      ∀ m, m ∈ t ↔ m ∈ h.cap.members ∧ (m.unit = i → ∃ cu, cu < 16 ∧ isMember h cu m.unit = true ∧
        250000 * h.time.op4k ≤ 250000 * m.decided + fC (unitDesc h cu) + 1000000000)) ∧
    (∀ (rising : Bool) (dt : Nat), isActive h = true →
      let at' : Inst := (h.time.tickInst + dt) / 262144 * 262144
      (∀ l, h.cap.lastTrig = some l → at' ≤ l + 65536000 → exec (.trigInEdge rising dt) s = .next s) ∧
      ((∀ l, h.cap.lastTrig = some l → l + 65536000 < at') → (∀ e ∈ h.cap.events, e.inst ≠ at') →
        ∃ es, exec (.trigInEdge rising dt) s =
            .next { s with hub := { h with cap.lastTrig := some at', cap.events := h.cap.events ++ es } } ∧
          (∀ e ∈ es, e.inst = at' ∧ e.due = h.time.tick + 1 ∧ e.epoch = h.time.epoch) ∧
          ∀ u, (∃ e ∈ es, e.unit = u) ↔
            u < 16 ∧ fEnable (unitDesc h u) = true ∧ fSource (unitDesc h u) = 4 ∧ fBelow (unitDesc h u) ≠ rising)) ∧
    (∀ (link : Nat) (msg : Bytes), isUp h = true → link ≤ 1 → (linkAt h link).up = true → msg.length = 32 → isStandby h = false →
      h.links.length = 4 →
      ∃ t, exec (.flareMessageReceipt link msg) s = .next { s with hub := t } ∧
        t = { h with links := t.links, cap.events := t.cap.events } ∧ linkAt t link = linkAt h link ∧
        (fieldAt msg 5 1 ≤ 1 → t.links = h.links) ∧
        (1 < fieldAt msg 5 1 → linkAt t (1 - link) = putFlare
          (flareMessage (fieldAt msg 0 4) (fieldAt msg 4 1) (fieldAt msg 5 1 - 1) (fieldAt msg 6 1 + 1) (fieldAt msg 8 4)
            (msg.drop 16)) (linkAt h (1 - link))) ∧
        h.cap.events <+: t.cap.events)

/-- Training of a lane (11 R259 to R268): an attempt starts at 1.25 Gb/s and sends TS1; a training set of an idle lane, and one whose
check fails, is ignored; in the step phase each STEP set counts the own COUNTDOWN down, and on a received 0 the own sets down to 0 leave
and the lane adapts one rate up from its preset; DONE sets on an UP lane that has carried no cell are its partner's bring-up (log 24); an
eye figure that holds makes the receiver ready; a limit that passes with the partner silent ends the attempt, whose wait doubles from 10
ms to 1,280 ms; with the partner heard a lane goes back to the rate it had passed, or has failed its training; a settled lane keeps its
measured latencies, and before first light it waits. Four equal sets align a lane. -/
def Obligations.LaneTrainingEvents : Prop :=
  ∀ (s : State) (l : Nat), l < 6 → s.hub.lanes.length = 6 →
    let h := s.hub
    let x := laneAt h l
    let d := laneDesc h l
    let settled (g : Hub) : Host.Outcome State Fault Refusal := .next (settleLanes h { s with hub := g })
    (lanesPowered h = true → lMode d = 1 → lLoop d = 0 ∨ lLoop d = 3 → x.train = .idle → x.state = .searching ∨ x.state = .miswired →
      ∃ g y, exec (.laneSearchAttempt l) s = settled g ∧ g = { h with lanes := g.lanes, out := h.out ++ [.ts l y] } ∧
        (laneAt g l).state = .searching ∧ (laneAt g l).train = .search ∧ (laneAt g l).rate = some 0 ∧
        (laneAt g l).waitMs = x.waitMs ∧ y.length = 15 ∧ tsValid y = true ∧ fieldAt y 0 1 = 1 ∧ fieldAt y 2 1 = l ∧
        ∀ k, k ≠ l → laneAt g k = laneAt h k) ∧
    (∀ ts : Bytes, tsValid ts = true →
      (x.train = .idle → x.state = .searching → exec (.tsReceipt l ts) s = settled h) ∧
      (x.train = .step → x.state = .training → fieldAt ts 0 1 = 3 → fieldAt ts 10 1 = 0 →
        ∃ g, exec (.tsReceipt l ts) s = settled g ∧ (laneAt g l).train = .adapt ∧ (laneAt g l).rate = some (x.rate.getD 0 + 1) ∧
          (laneAt g l).taps = preset (x.rate.getD 0 + 1) ∧ (laneAt g l).rxReady = false ∧
          (x.countdown ≠ 0 → ∃ b, .ts l b ∈ g.out ∧ fieldAt b 0 1 = 3 ∧ fieldAt b 10 1 = 0) ∧
          ∀ k, k ≠ l → laneAt g k = laneAt h k) ∧
      (x.train = .step → x.state = .training → fieldAt ts 0 1 = 3 → fieldAt ts 10 1 ≠ 0 → 0 < x.countdown → x.countdown ≤ 15 →
        ∃ g b, exec (.tsReceipt l ts) s = settled g ∧ g = { h with lanes := g.lanes, out := h.out ++ [.ts l b] } ∧
          (laneAt g l).countdown = x.countdown - 1 ∧ (laneAt g l).train = .step ∧ fieldAt b 0 1 = 3 ∧ fieldAt b 10 1 = x.countdown - 1) ∧
      (x.state = .up → x.carried = false → fieldAt ts 0 1 = 5 → exec (.tsReceipt l ts) s = settled h)) ∧
    (∀ ts : Bytes, tsValid ts = false → exec (.tsReceipt l ts) s = settled h) ∧
    (∀ eyeH eyeV v : Nat,
      let ok := decide (300 ≤ eyeH ∧ 30 ≤ eyeV ∧ v = 0)
      ∃ g, exec (.rxReady l eyeH eyeV v) s = settled g ∧ (laneAt g l).eyeH = eyeH ∧ (laneAt g l).eyeV = eyeV ∧
        (laneAt g l).rxReady = ok ∧ g = { h with lanes := g.lanes, out := g.out } ∧
        (x.train = .adapt → ok = true → (laneAt g l).doneSent = true)) ∧
    (∀ heard : Bool, x.train = .search ∨ x.train = .caps ∨ x.train = .revert ∨ x.train = .settle ∧ heard = false → x.state ≠ .up →
      ∃ g, exec (.trainingTimeout l heard) s = settled g ∧ g = { h with lanes := g.lanes } ∧ (laneAt g l).state = .searching ∧
        (laneAt g l).train = .idle ∧ (laneAt g l).waitMs = (if x.waitMs = 0 then 10 else min 1280 (2 * x.waitMs))) ∧
    (x.train = .adapt → x.state ≠ .up → x.passed = none →
      ∃ g, exec (.trainingTimeout l true) s = settled g ∧ asserted g (0x92 + 8 * l) 0 = true ∧ (laneAt g l).state = .searching ∧
        (laneAt g l).fails.head? = some h.time.op4k ∧ g = { h with lanes := g.lanes, faults := g.faults }) ∧
    (∀ r, x.train = .adapt → x.state ≠ .up → x.passed = some r →
      ∃ g, exec (.trainingTimeout l true) s = settled g ∧ g = { h with lanes := g.lanes, out := g.out } ∧
        (laneAt g l).train = .revert ∧ (laneAt g l).rate = some r ∧ (laneAt g l).taps = x.passedTaps ∧ (laneAt g l).state = x.state) ∧
    (x.train = .settle → x.loopReq = false → h.time.running = false → ∀ tx rx : Nat,
      ∃ g, exec (.latencyMeasure l (tx, rx)) s = settled g ∧ g = { h with lanes := g.lanes } ∧ (laneAt g l).latTx = tx ∧
        (laneAt g l).latRx = rx ∧ (laneAt g l).measured = true ∧ (laneAt g l).state = x.state) ∧
    (x.train = .settle → x.loopReq = false → h.time.running = true → lLoop d ≠ 3 → ∀ tx rx : Nat,
      ∃ g, exec (.latencyMeasure l (tx, rx)) s = settled g ∧ (laneAt g l).latTx = tx ∧ (laneAt g l).latRx = rx ∧ (laneAt g l).state = .up ∧
        (laneAt g l).upSince = some h.time.op4k ∧ (laneAt g l).rejoin = (linkAt h (laneLink l)).up) ∧
    (x.state = .up →
      exec (.laneRejoin l) s = settled (updLane l (fun y => { y with rejoin := false }) h)) ∧
    (lanesPowered h = true → lMode d = 1 → ∀ (boundary : Nat),
      (x.aligned = none → x.setRun = (boundary, 3) →
        ∃ g, exec (.characterAlignment l boundary false) s = .next { s with hub := { h with lanes := g } } ∧
          (g.getD l {}).aligned = some boundary) ∧
      (x.aligned = none → x.setRun.1 ≠ boundary →
        ∃ g, exec (.characterAlignment l boundary false) s = .next { s with hub := { h with lanes := g } } ∧
          (g.getD l {}).aligned = none ∧ (g.getD l {}).setRun = (boundary, 1)))

/-- A change of the lanes carried through (09 R218, R224, 12 R305): the custody outlet is fed, copies and held answers leave; the lanes,
the channels, the configuration, the timebase and the journal are as the change left them, and so is the queue. Loss of a lane, and
Ethernet's link (11 R268, R269, R287): a lane that was UP raises LANE_LOS or LANE_LOL, counts the loss and retrains from search; a lane
that searches only counts it; the Ethernet link goes up, but for a lane in a test loop, and down, records on their way into datagrams
being cut off. -/
def Obligations.LaneLossEvents : Prop :=
  (∀ (before : Hub) (s : State), before.pair.paired = false → s.hub.pair.paired = false → s.hub.pair.heldResp = [] →
    let t := settleLanes before s
    t.pending = s.pending ∧ t.hub.lanes = s.hub.lanes ∧ t.hub.chans = s.hub.chans ∧ t.hub.cfg = s.hub.cfg ∧ t.hub.time = s.hub.time ∧
      t.hub.jr = s.hub.jr ∧ t.hub.flash = s.hub.flash ∧ t.host.ram = s.host.ram ∧ t.host.attn = s.host.attn) ∧
  ∀ (s : State) (l dt : Nat), l < 6 → s.hub.lanes.length = 6 →
    let h := s.hub
    let x := laneAt h l
    (∀ k, k = 0 ∨ k = 1 →
      let event : Instr := if k = 0 then .laneLos l dt else .laneLol l dt
      (x.state = .up →
        ∃ g, exec event s = .next (settleLanes h { s with hub := g }) ∧ asserted g (0x90 + 8 * l + k) 0 = true ∧
          (laneAt g l).state = .searching ∧ (laneAt g l).train = .idle ∧ (laneAt g l).lockLosses = x.lockLosses + 1 ∧
          (laneAt g l).upSince = none ∧ ∀ m, m ≠ l → laneAt g m = laneAt h m) ∧
      (x.state = .searching → x.train = .idle →
        exec event s = .next (settleLanes h
          { s with hub := updLane l (fun y => { y with lockLosses := y.lockLosses + 1 }) h }))) ∧
    (ethMode h = true → lanesPowered h = true → (laneAt h 5).state = .ethDown → lLoop (laneDesc h 5) = 0 →
      ∃ g, exec .ethLinkUp s = .next { s with hub := g } ∧ g = { h with lanes := g.lanes, out := g.out } ∧
        (laneAt g 5).state = .ethUp ∧ ∀ m, m ≠ 5 → laneAt g m = laneAt h m) ∧
    (lLoop (laneDesc h 5) ≠ 0 → exec .ethLinkUp s = .next s) ∧
    ((laneAt h 5).state = .ethUp →
      ∃ g, exec .ethLinkDown s = .next { s with hub := g } ∧ g = { h with lanes := g.lanes, eth := { h.eth with fwd := [] } } ∧
        (laneAt g 5).state = .ethDown ∧ ∀ m, m ≠ 5 → laneAt g m = laneAt h m) ∧
    ((laneAt h 5).state ≠ .ethUp → exec .ethLinkDown s = .next s)

/-- A cell start of a lane that is UP in its link, in the slot that its instant lies in (11 R259, R272 to R276, R279): a RESYNC that is
due leaves first, then a CREDIT, then other LINK messages; then, in slot 0, the tick's TIME cell; then cells to be sent again, in order;
else the class the slot names sends its oldest cell, which takes the next LSEQ and one credit and stays in the replay buffer; where
nothing may start, IDLE is sent. The order among LINK messages is the model's choice, log 24. -/
def Obligations.CellsLeaveInTheirSlots : Prop :=
  ∀ (s : State) (lane given : Nat) (depart : Inst), lane < 6 → s.hub.links.length = 4 →
    let h := s.hub
    let slot := slotOf h depart
    let k := laneLink lane
    let l := linkAt h k
    let linkCell (m : Bytes) : OutMsg :=
      .cell lane (cellBytes 0 (l.expect - 1) { cls := 6, flags := 3, origin := h.flash.hubId, data := m })
    let settled (g : Hub) : Host.Outcome State Fault Refusal := .next (settleLanes h { s with hub := g })
    let silent := l.resyncDue = false ∧ l.creditDue = false ∧ l.linkQ = []
    (laneAt h lane).state = .up → (laneAt h lane).rejoin = false → (laneAt h lane).stopped = false → isUp h = true → l.up = true →
    (l.resyncDue = true → ∃ x, x.resyncDue = false ∧ x.creditDue = false ∧ x.freed = [0, 0, 0, 0, 0] ∧ x.replay = l.replay ∧
      exec (.cellTransmit lane given depart) s = settled (sendLine lane (linkCell (resyncMsg { l with rxFree := heldBack l, ahead := [], beyond := [] }))
        (updLink k (fun _ => x) h))) ∧
    (l.resyncDue = false → l.creditDue = true → exec (.cellTransmit lane given depart) s =
      settled (sendLine lane (linkCell (leNat 4 1 ++ l.freed.flatMap (leNat 4)))
        (updLink k (fun x => { x with reported := x.freed, creditDue := false }) h))) ∧
    (∀ m ms, l.resyncDue = false → l.creditDue = false → l.linkQ = m :: ms → exec (.cellTransmit lane given depart) s =
      settled (sendLine lane (linkCell m) (updLink k (fun x => { x with linkQ := ms }) h))) ∧
    (silent → slot = 0 → (laneAt h lane).timeDue = true → ∃ g b, exec (.cellTransmit lane given depart) s = settled g ∧
      g.out = h.out ++ [.cell lane b] ∧ fieldAt b 2 1 = 0 ∧ (laneAt g lane).timeDue = false ∧ g.links = h.links) ∧
    (∀ i c cs, silent → slot ≠ 0 → l.resendQ = [] → l.ready = true → i = 0 ∨ i = 1 ∨ i = 4 →
      (h.cfg.slots.getD lane []).getD slot 0 = i + 1 → l.outQ.getD i [] = c :: cs → 0 < l.credits.getD i 0 →
      l.replay.length < 512 → c.cls = i + 1 →
      ∃ g, exec (.cellTransmit lane given depart) s = settled g ∧
        g = { h with links := g.links, lanes := g.lanes, out := h.out ++ [.cell lane (cellBytes l.nextLseq (l.expect - 1) c)] } ∧
        (∀ m, laneAt g m = { laneAt h m with disparity := (laneAt g m).disparity }) ∧
        (linkAt g k).nextLseq = l.nextLseq + 1 ∧ (linkAt g k).replay = l.replay ++ [(l.nextLseq, c)] ∧
        (linkAt g k).outQ = setAt l.outQ i cs ∧ (linkAt g k).credits = updAt l.credits i (· - 1) ∧
        ∀ m, m ≠ k → linkAt g m = linkAt h m) ∧
    (silent → slot ≠ 0 → l.resendQ = [] → (∀ i, l.credits.getD i 0 = 0) →
      exec (.cellTransmit lane given depart) s = settled (sendLine lane (.idle lane) h)) ∧
    (∀ q c rest, silent → slot ≠ 0 → l.resendQ = (q, c) :: rest → l.ready = true →
      ∃ g, exec (.cellTransmit lane given depart) s = settled g ∧
        g.out = h.out ++ [.cell lane (cellBytes q (l.expect - 1) c)] ∧ (linkAt g k).resendQ = rest ∧
        (linkAt g k).replay = l.replay ∧ (laneAt g lane).replays = (laneAt h lane).replays + 1)

/-- A cell received on a lane that is UP (11 R268, R270 to R272): one that fails its LCRC is counted and answered with a NAK on a ready
link; where more than 16 have in 1 ms the lane is lost (how replays are counted is log 24); the next one in sequence moves the expected
number on and, where it does not end its unit, is kept with it and its buffer freed; a repeat is dropped. -/
def Obligations.CellsAreAcceptedInOrder : Prop :=
  ∀ (s : State) (lane : Nat) (b : Bytes) (arrive : Inst), lane < 6 → s.hub.links.length = 4 → s.hub.lanes.length = 6 →
    let h := s.hub
    let k := laneLink lane
    let l := linkAt h k
    let c := (cellFrom b).2.2
    (laneAt h lane).state = .up → isUp h = true → l.up = true → l.ready = true → l.replay = [] → l.resyncHeard = true →
    let heard (g : Hub) : Hub := updLane lane (fun x => { x with carried := true }) g
    (lcrcOk b = false →
      ∃ g, exec (.cellReceipt lane b arrive) s = .next (settleLanes h { s with hub := g }) ∧
        (laneAt g lane).crcErrors = (laneAt h lane).crcErrors + 1 ∧
        ((askedIn arrive (laneAt h lane)).length < 16 → g = { h with lanes := g.lanes, links := g.links } ∧
          (linkAt g k).linkQ = l.linkQ ++ [nakMsg l.expect] ∧ (linkAt g k).expect = l.expect ∧ (laneAt g lane).state = .up) ∧
        (16 ≤ (askedIn arrive (laneAt h lane)).length →
          asserted g (0x91 + 8 * lane) 0 = true ∧ (laneAt g lane).state = .searching)) ∧
    (lcrcOk b = true → cellReserved b = false → c.cls = 1 → (cellFrom b).1 = l.expect → 0 < l.rxFree.getD 0 0 → l.ahead = [] →
      l.rxFree.length = 5 → l.freed.length = 5 → l.freed.getD 0 0 + 1 < l.reported.getD 0 0 + 8 →
      cFirst c = true → cLast c = false → cAbort c = false →
      ∃ g, exec (.cellReceipt lane b arrive) s = .next (settleLanes h { s with hub := g }) ∧ g = { heard h with links := g.links } ∧
        (linkAt g k).expect = l.expect + 1 ∧ (linkAt g k).acceptedValid = true ∧
        ({ cls := 1, origin := c.origin, data := c.data } : Partial) ∈ (linkAt g k).partials ∧
        (linkAt g k).rxFree = l.rxFree ∧ (linkAt g k).freed.getD 0 0 = l.freed.getD 0 0 + 1) ∧
    (lcrcOk b = true → cellReserved b = false → 1 ≤ c.cls → c.cls ≤ 5 → covers (l.expect - 1) (cellFrom b).1 = true →
      exec (.cellReceipt lane b arrive) s = .next (settleLanes h { s with hub := heard h }))

/-- LINK messages and what they ask for (11 R272 to R275, R277): a NAK sends every cell from the missing one on again; a gap that has
stood asks for its lowest missing cell, and counts for the lanes of the link, more than 16 replays in 1 ms losing the lane (log 24); a
CREDIT grows the credits by what was freed, or raises LANE_CREDIT where it breaks the book; a credit return makes a CREDIT due on a ready
link; a RESYNC completes a link's initialisation, and on a link that carries traffic sends again what was not accepted, with the credits
that leaves, and is answered by the side that did not start it; a returned test cell is counted. -/
def Obligations.LinkMessages : Prop :=
  ∀ (s : State) (k : Nat), k < 4 → isUp s.hub = true → s.hub.links.length = 4 → (linkAt s.hub k).up = true → s.hub.lanes.length = 6 →
    let h := s.hub
    let l := linkAt h k
    (∀ missing,
      let again (x : Link) : Link := { x with resendQ := x.replay.filter fun y => decide ((y.1 - missing).toNat < 32768) }
      exec (.nak k missing) s = .next { s with hub := updLink k again h }) ∧
    (l.ahead ≠ [] →
      (∀ m ∈ upLanes h k, (askedIn h.time.tickInst (laneAt h m)).length < 16) →
      ∃ g, exec (.nakGapTimeout k) s = .next (settleLanes h { s with hub := g }) ∧ g = { h with lanes := g.lanes, links := g.links } ∧
        linkAt g k = { l with linkQ := l.linkQ ++ [nakMsg l.expect], beyond := [] } ∧ (∀ m, m ≠ k → linkAt g m = linkAt h m) ∧
        ∀ m, laneAt g m = { laneAt h m with asked := (laneAt g m).asked }) ∧
    (∀ m ∈ upLanes h k, l.ahead ≠ [] → 16 ≤ (askedIn h.time.tickInst (laneAt h m)).length →
      ∃ g, exec (.nakGapTimeout k) s = .next (settleLanes h { s with hub := g }) ∧ asserted g (0x91 + 8 * m) 0 = true) ∧
    (l.ahead = [] → exec (.nakGapTimeout k) s = .next s) ∧
    (∀ msg : Bytes, l.credits.length = 5 → l.farFreed = [0, 0, 0, 0, 0] →
      let freed := (List.range 5).map fun i => fieldAt msg (4 + 4 * i) 4
      ((∀ i, i < 5 → l.credits.getD i 0 + freed.getD i 0 + inFlight l i ≤ (rxCaps k).getD i 0) →
        ∃ g, exec (.credit k msg) s = .next { s with hub := { h with links := g } } ∧
          (g.getD k {}) = { l with farFreed := freed, credits := (g.getD k {}).credits } ∧
          ∀ i, i < 5 → (g.getD k {}).credits.getD i 0 = l.credits.getD i 0 + freed.getD i 0) ∧
      ((∃ i, i < 5 ∧ (rxCaps k).getD i 0 < l.credits.getD i 0 + freed.getD i 0 + inFlight l i) →
        Fresh (0x95 + 8 * headLane h k) 0 h →
        let g := raised (0x95 + 8 * headLane h k) 0 h.time.tickInst h.time.tickInst 0 true h
        exec (.credit k msg) s = .next { s with hub := g })) ∧
    (l.ready = true → exec (.creditReturnSend k) s = .next { s with hub := updLink k (fun x => { x with creditDue := true }) h }) ∧
    (l.ready = false → exec (.creditReturnSend k) s = .next s) ∧
    (∀ msg : Bytes, l.ready = false → l.ahead = [] → l.replay = [] →
      (∀ i, i < 5 → fieldAt msg (8 + 2 * i) 2 ≤ (rxCaps k).getD i 0) →
      ∃ g, exec (.resync k msg) s = .next (settleLanes h { s with hub := { h with links := g } }) ∧
        (g.getD k {}).resyncHeard = true ∧ (g.getD k {}).expect = BitVec.ofNat 16 (fieldAt msg 2 2) ∧
        (g.getD k {}).credits = (List.range 5).map (fun i => fieldAt msg (8 + 2 * i) 2) ∧
        ∀ m, m ≠ k → g.getD m {} = linkAt h m) ∧
    (∀ msg : Bytes, l.ready = true → bitOf (fieldAt msg 1 1) 0 = false →
      (∀ i, i < 5 → fieldAt msg (8 + 2 * i) 2 ≤ (rxCaps k).getD i 0) →
      ∃ g, exec (.resync k msg) s = .next (settleLanes h { s with hub := g }) ∧ g = { h with lanes := g.lanes, links := g.links } ∧
        (linkAt g k).resendQ = l.replay ∧ (linkAt g k).replay = l.replay ∧ (linkAt g k).expect = l.expect ∧
        (∀ i, i < 5 → (linkAt g k).credits.getD i 0 = fieldAt msg (8 + 2 * i) 2 - inFlight l i) ∧
        (l.resyncSent = false → (linkAt g k).resyncDue = true ∧ (linkAt g k).resyncAnswer = true) ∧
        (l.resyncSent = true → (linkAt g k).resyncSent = false ∧ (linkAt g k).resyncDue = l.resyncDue)) ∧
    (∀ (lane : Nat) (msg : Bytes), lane < 6 → (laneAt h lane).state = .loopback → lPrbs (laneDesc h lane) = false →
      (exec (.loopTest lane msg false) s =
        .next { s with hub := updLane lane (fun x => { x with crcErrors := x.crcErrors + 1 }) h }) ∧
      ∀ n, n < 2 ^ 32 → msg = loopTestMsg n → (∀ c ∈ (laneAt h lane).loopSeen, n ≤ c) →
        ∃ x, exec (.loopTest lane msg true) s = .next { s with hub := updLane lane (fun _ => x) h } ∧
          x = { laneAt h lane with loopSeen := (laneAt h lane).loopSeen.filter fun c => decide (n < c) })

/-- Traffic on its way through the hub (09 R224, 11 R284, R285): a cell of another hub's record, whose unit has not been cut off, leaves
in the custody direction as PASS and keeps its buffer until then; a mailbox message for another hub goes on with one hop more, and is
dropped at 31; the custody outlet is fed from the reserve. Which link is the custody direction is log 19. -/
def Obligations.TrafficPassesThrough : Prop :=
  ∀ (s : State) (k : Nat), s.hub.links.length = 4 →
    let h := s.hub
    let l := linkAt h k
    (∀ b : Bytes, isUp h = true → k < 2 → l.up = true → custodyLink h.cfg = 1 - k → lcrcOk b = true → cellReserved b = false →
      (cellFrom b).2.2.cls = 3 → 0 < l.rxFree.getD 2 0 → l.ahead = [] → (linkAt h (1 - k)).outQ.length = 5 →
      cFirst (cellFrom b).2.2 = true ∨ (∃ p ∈ l.partials, p.cls = 4 ∧ p.origin = (cellFrom b).2.2.origin) →
      ∃ g, exec (.passThroughRecord k [b]) s = .next (settleLanes h { s with hub := { h with links := g } }) ∧
        (g.getD (1 - k) {}).outQ.getD 3 [] =
          (linkAt h (1 - k)).outQ.getD 3 [] ++ [{ (cellFrom b).2.2 with cls := 4, src := some (k, 2) }] ∧
        (g.getD k {}).expect = l.expect + 1 ∧ (g.getD k {}).rxFree = updAt l.rxFree 2 (· - 1)) ∧
    (∀ (dest : Word) (hops mb : Nat) (msg : Bytes) (env : Env), isUp h = true → l.up = true → k ≠ 2 → 2 ≤ mb → mb ≤ 5 →
      dest ≠ h.flash.hubId →
      (31 ≤ hops → exec (.mailboxCellMessage k dest hops mb msg env) s = .next s) ∧
      (hops < 31 → ∃ g, exec (.mailboxCellMessage k dest hops mb msg env) s = .next { s with hub := { h with links := g } } ∧
        g.getD k {} = linkAt h k ∧ ∀ m, m = 0 ∨ m = 1 → m ≠ k → (linkAt h m).up = true → (linkAt h m).outQ.length = 5 →
          (g.getD m {}).outQ.getD 0 [] = (linkAt h m).outQ.getD 0 [] ++ unitCells 1 mb (hops + 1) dest msg)) ∧
    (∀ x, custodyOutlet h = 0 → h.outlets.lane.words = [] → h.outlets.lane.rest = [] → nextToSend h = some x →
      ∃ t, exec (.outletSend 0) s = .next t ∧ t.host = s.host ∧
        packetWords (heldBytes h x) <+: t.hub.outlets.lane.words ++ t.hub.outlets.lane.rest ∧
        (∀ y ∈ t.hub.stream.reserve, y.record.seq = x.record.seq → y.sent = true) ∧
        t.hub.stream.reserve.length = h.stream.reserve.length) ∧
    (∀ o, o ≠ 1 → custodyOutlet h ≠ o → exec (.outletSend o) s = .next s)

/-- Mailbox datagrams and address resolution (11 R287, R288, R290): a datagram that completes a message for another hub puts it on the
bonds with no hop counted; one that does not is kept; 10 ms after its first datagram an incomplete message is discarded; an ARP request
for the hub's address is answered; a reply for the address the hub resolves is recorded. PTP (10 R240, R246, 11 R291): Announce selects
the master of the hub's domain, a better one only, and one silent for announceReceiptTimeout Announce intervals is dropped (log 25); no
accepted Sync for as long loses SOURCE PTP; Sync and Announce leave a master port with the next sequence number, Delay_Req a slave port
with a master, Delay_Resp answers a Delay_Req; a Delay_Resp completes the exchange; a Sync of the selected master after one measures.
Which parts of a PTP message a row carries is log 12. -/
def Obligations.UplinkEvents : Prop :=
  (∀ (s : State),
    let h := s.hub
    (∀ (d : Bytes) (env : Env), isUp h = true → ethUp h = true → upAddr h ≠ 0 → datagramOk d = true → h.eth.reasm = [] →
      fieldAt d 12 2 = 0 → fieldAt d 6 2 = d.length - 16 → BitVec.ofNat 32 (fieldAt d 0 4) ≠ h.flash.hubId →
      ∃ g, exec (.udpMailboxDatagram d env) s = .next { s with hub := g } ∧ g = { h with links := g.links } ∧
        ∀ k, k = 0 ∨ k = 1 → (linkAt h k).up = true → (linkAt h k).outQ.length = 5 →
          (linkAt g k).outQ.getD 0 [] = (linkAt h k).outQ.getD 0 [] ++
            unitCells 1 (fieldAt d 4 1) 0 (BitVec.ofNat 32 (fieldAt d 0 4)) (d.drop 16)) ∧
    (∀ (d : Bytes) (env : Env), isUp h = true → ethUp h = true → upAddr h ≠ 0 → datagramOk d = true → h.eth.reasm = [] →
      d.length - 16 < fieldAt d 6 2 →
      ∃ g r, exec (.udpMailboxDatagram d env) s = .next { s with hub := { h with eth.reasm := [r] } } ∧
        g = r.data ∧ g = [(fieldAt d 12 2, d.drop 16)] ∧ r.total = fieldAt d 6 2 ∧ r.mb = fieldAt d 4 1 ∧
        r.msgId = BitVec.ofNat 32 (fieldAt d 8 4) ∧ r.dest = BitVec.ofNat 32 (fieldAt d 0 4)) ∧
    (∀ (d : Bytes) (env : Env), datagramOk d = false → exec (.udpMailboxDatagram d env) s = .next s) ∧
    (∀ (dest id : Word), ∃ t, exec (.udpMailboxTimeout dest id) s = .next { s with hub := { h with eth.reasm := t } } ∧
      ∀ r, r ∈ t ↔ r ∈ h.eth.reasm ∧ ¬(r.dest = dest ∧ r.msgId = id)) ∧
    (∀ (ip sender : Word) (mac : BitVec 48), isUp h = true → ethUp h = true → upAddr h ≠ 0 →
      (ip.toNat = upAddr h →
        exec (.arpRequest ip sender mac) s = .next { s with hub := { h with out := h.out ++ [.arp true sender mac (Config.mac 0)] } }) ∧
      (ip.toNat ≠ upAddr h → exec (.arpRequest ip sender mac) s = .next s)) ∧
    (∀ (ip : Word) (mac : BitVec 48), ethUp h = true → upAddr h = 0 → ip.toNat = nextHop h →
      exec (.arpReply ip mac) s =
        .next { s with hub := { h with eth.arp := (ip, mac) :: h.eth.arp.filter (·.1 != ip) } }) ∧
    (∀ (ip : Word) (mac : BitVec 48), ethUp h = true → ip.toNat = nextHop h →
      ∃ t, exec (.arpReply ip mac) s = .next { s with hub := t } ∧ t.eth.arp.head? = some (ip, mac) ∧ hopResolved t = true) ∧
    (∀ (ip : Word) (mac : BitVec 48), ip.toNat ≠ nextHop h → exec (.arpReply ip mac) s = .next s)) ∧
  ∀ (s : State),
    let h := s.hub
    let p := h.eth.ptp
    (∀ a : Announce, ethUp h = true → fieldAt h.cfg.uplink 7 1 = 0 → a.domain.toNat = fieldAt h.cfg.uplink 6 1 →
      let taken := { h with eth.ptp.master := some a, eth.ptp.portMaster := false, eth.ptp.announceAt := h.time.op4k }
      (p.master = none → exec (.ptpAnnounce a) s = .next { s with hub := taken }) ∧
      ∀ m, p.master = some m → m.port ≠ a.port →
        (lexLt (announceKey a) (announceKey m) = true → exec (.ptpAnnounce a) s = .next { s with hub := taken }) ∧
        (lexLt (announceKey a) (announceKey m) = false → p.portMaster = false → exec (.ptpAnnounce a) s = .next s)) ∧
    (∀ a : Announce, a.domain.toNat ≠ fieldAt h.cfg.uplink 6 1 → exec (.ptpAnnounce a) s = .next s) ∧
    (p.master.isSome = true → announceLate (h.time.op4k - p.announceAt) h = true →
      (masterTick h).eth.ptp.master = none ∧ (masterTick h).eth.ptp.portMaster = (fieldAt h.cfg.uplink 7 1 == 2)) ∧
    (h.time.source = 4 → follows h = true → h.time.lost = false → Fresh 0x67 0 h →
      let g := { h with time.lost := true, time.qual := [] }
      exec .announceReceiptTimeout s = .next { s with hub := raised 0x67 0 h.time.tickInst h.time.tickInst 0 false g }) ∧
    (h.time.source ≠ 4 → exec .announceReceiptTimeout s = .next s) ∧
    (ptpSends h = true → ptpMaster h = true → ∀ at_ : Inst,
      let sync := { h with
                      eth.ptp.syncSeq := (p.syncSeq + 1) % 65536
                      out := h.out ++ [ptpMsg h 0 p.syncSeq [], ptpMsg h 8 p.syncSeq (ptpStamp (resolve at_))] }
      let announce (b : Bytes) := { h with
                                      eth.ptp.announceSeq := (p.announceSeq + 1) % 65536
                                      out := h.out ++ [ptpMsg h 11 p.announceSeq b] }
      exec (.ptpMessageSend .sync at_) s = .next { s with hub := sync } ∧
      (∃ b, exec (.ptpMessageSend .announce at_) s = .next { s with hub := announce b }) ∧
      exec (.ptpMessageSend .delayReq at_) s = .next s ∧
      ∀ (seqId : BitVec 16) (port : BitVec 80), ∃ b, b.length = 20 ∧
        exec (.ptpDelayReq at_ seqId port) s = .next { s with hub := { h with out := h.out ++ [ptpMsg h 9 seqId.toNat b] } }) ∧
    (ptpSends h = true → ptpMaster h = false → p.master.isSome = true → ∀ at_ : Inst,
      let asked := { h with
                       eth.ptp.delaySeq := (p.delaySeq + 1) % 65536
                       eth.ptp.reqSent := some at_
                       out := h.out ++ [ptpMsg h 1 p.delaySeq []] }
      exec (.ptpMessageSend .delayReq at_) s = .next { s with hub := asked } ∧
      exec (.ptpMessageSend .sync at_) s = .next s) ∧
    (∀ (depart arrive : Inst) (c : Int), ethUp h = true → p.reqSent.isSome = true →
      exec (.ptpDelayResp depart arrive c) s =
        .next { s with hub := { h with eth.ptp.delay := some (resolve depart, arrive, c), eth.ptp.reqSent := none } }) ∧
    (∀ (origin arrive : Inst) (c : Int) (master : BitVec 64) (t3 t4 : Inst) (c2 : Int), isUp h = true → ethUp h = true →
      h.time.source = 4 → p.master.map (·.port) = some master → p.delay = some (t3, t4, c2) → h.time.servo = .holdover →
      h.time.exitStep.isSome = true →
      let theta := roundEven ((resolve arrive - origin - c) - (t4 - t3 - c2)) 2 - 128 * asymOf h 5
      exec (.ptpSync origin arrive c master) s =
        .next { s with hub := { h with time.measuredThisTick := true, time.missed := 0, time.lastMeas := h.time.op4k
                                       time.firstAfterStep := false
                                       time.qual := (theta :: h.time.qual).take 16 } })

/-- The grant, conflicts, takeover and release of a pair (12 R298, R299, R308, R310): a deasserted grant ends a conflict and a takeover
that waits; an asserted one books the takeover of a standby whose partner is not active, and raises PAIR_UNREADY in RESYNCING; a conflict
that lasts raises PAIR_CONFLICT, hub A keeping its role and hub B releasing it; the interval before a takeover issues SETTLING for the
held frames; a hub that loses its grant releases its role with every pair isolated and every port off, nothing more being sent, its
records kept. Which tick a booked takeover is carried out at, and the order of events, is log 26. -/
def Obligations.PairRoles : Prop :=
  ∀ (s : State), isUp s.hub = true → s.hub.pair.paired = true →
    let h := s.hub
    (∃ t, exec (.grantIn h.pair.grantLow) s = .next { s with hub := t } ∧ t = { h with pair := t.pair, faults := t.faults } ∧
      t.pair = { h.pair with grant := false, takeoverAt := none, taken := false, conflict := 0 }) ∧
    (isActive h = false → h.pair.state = .shadowing ∨ h.pair.state = .detached → partnerActive h = false → h.pair.takeoverAt = none →
      exec (.grantIn (!h.pair.grantLow)) s =
        .next { s with hub := { h with pair.grant := true, pair.takeoverAt := some (h.time.tick + 2) } }) ∧
    (isActive h = true →
      exec (.grantIn (!h.pair.grantLow)) s = .next { s with hub := { h with pair.grant := true, pair.unreadyRaised := false } }) ∧
    (h.pair.state = .resyncing → h.pair.unreadyRaised = false → Fresh 0xC0 0 h →
      let g := { h with pair.grant := true, pair.unreadyRaised := true }
      exec (.grantIn (!h.pair.grantLow)) s = .next { s with hub := raised 0xC0 0 h.time.tickInst h.time.tickInst 0 true g }) ∧
    (h.pair.grant = true → partnerActive h = true ∨ partnerWaits h = true → isActive h = true → h.power.sideB = false → Fresh 0xC1 0 h →
      (h.pair.conflictTicks ≤ h.pair.conflict + 1 →
        exec .pairConflict s = .next { s with hub := raised 0xC1 0 h.time.tickInst h.time.tickInst 0 false h }) ∧
      (h.pair.conflict + 1 < h.pair.conflictTicks → exec .pairConflict s = .next s)) ∧
    (h.pair.grant = true → partnerActive h = true ∨ partnerWaits h = true → isActive h = true → h.power.sideB = true → Fresh 0xC1 0 h →
      h.pair.conflictTicks ≤ h.pair.conflict + 1 →
      ∃ t, exec .pairConflict s = .next { s with hub := t, host.fifo := fifoFlush s.host.fifo } ∧ asserted t 0xC1 0 = true ∧ t.pair.state = .resyncing ∧
        ((∀ x ∈ h.tiles, x.turn = none) → t.flash.nextIndex = h.flash.nextIndex + 1)) ∧
    (isActive h = false → h.pair.takeoverAt = some (h.time.tick + 1) →
      ∃ vs, exec .takeover s = .next { s with hub := { h with verdicts := vs, pair.taken := true } } ∧
        (∀ v ∈ vs, v.status = 1 ∧ v.cause = 0 ∧ v.first = 0 ∧ ∃ f ∈ h.frames, f.n = v.frame ∧
          ∃ l r, h.pair.lastVerdict = some l ∧ h.pair.lastRaw = some r ∧ l < f.n + f.v ∧ f.n ≤ r) ∧
        ∀ l r, h.pair.lastVerdict = some l → h.pair.lastRaw = some r → ∀ f ∈ h.frames, l < f.n + f.v → f.n ≤ r →
          ∀ w ∈ f.words, ({ frame := f.n, ch := w.1, first := 0, slots := w.2.length, status := 1, cause := 0 } : Verdict) ∈ vs) ∧
    (isActive h = true → exec .takeover s = .next s) ∧
    (isActive h = true → h.pair.grant = false →
      ∃ t, exec .release s = .next { s with hub := t, host.fifo := fifoFlush s.host.fifo } ∧ t.pair.state = .resyncing ∧ t.pair.live = false ∧
        t.pair.takeoverAt = none ∧ ((∀ x ∈ h.tiles, x.turn = none) → t.flash.nextIndex = h.flash.nextIndex + 1) ∧
        (∀ g ∈ t.groups, g.portOn = false) ∧ (∀ c ∈ t.chans, c.pair = .isolated ∧ c.fe = none ∧ c.sourceOn = false) ∧
        t.stream = { h.stream with reserve := t.stream.reserve, resend := [], retx := [] } ∧
        t.stream.reserve.map (·.record) = h.stream.reserve.map (·.record) ∧ t.cfg = h.cfg) ∧
    (h.pair.grant = true → exec .release s = .next s)

/-- Units and resynchronisation of a pair (12 R296, R301, R302, R313): a STATUS unit makes the partner known, an active hub being in
ACTIVE while its partner is SHADOWING; a unit that breaks its header's layout loses the shadow; a standby that hears no active STATUS is
DETACHED; 1 s after a failure, and not before, the resynchronisation is asked for again; copy, live units and the first digest complete
it. The counter of a hub's own PAIR_RESYNC is log 26. -/
def Obligations.PairUnits : Prop :=
  ∀ (s : State), isUp s.hub = true → s.hub.pair.paired = true →
    let h := s.hub
    (∀ u : Bytes, (linkAt h 2).up = true → isActive h = true → u.length = 32 → fieldAt u 0 4 = 7 → fieldAt u 4 4 = 32 →
      fieldAt u 17 1 ≤ 3 → fieldAt u 20 4 = 0 →
      let p : Partner := { state := fieldAt u 16 1, eclipse := bitOf (fieldAt u 17 1) 0, granted := bitOf (fieldAt u 17 1) 1
                           epoch := fieldAt u 18 2, nextSeq := fieldAt u 24 8, tick := fieldAt u 8 8 }
      let g := { h with pair.unitsRx := h.pair.unitsRx + 1, pair.partner := some p, pair.state := .active }
      (fieldAt u 16 1 = 2 → exec (.shadowUnitReceipt u) s = .next { s with hub := g }) ∧
      (fieldAt u 16 1 < 5 → fieldAt u 16 1 ≠ 2 →
        ∃ t, exec (.shadowUnitReceipt u) s = .next { s with hub := t } ∧ t = { h with pair := t.pair } ∧
          t.pair.partner = some p ∧ t.pair.state = .activeSolo)) ∧
    (∀ u : Bytes, (linkAt h 2).up = true → isActive h = true → u.length < 16 ∨ fieldAt u 2 2 ≠ 0 → Fresh 0xC2 0 h →
      let g := { h with pair.unitsRx := h.pair.unitsRx + 1, pair.shadowLost := h.pair.shadowLost + 1 }
      exec (.shadowUnitReceipt u) s = .next { s with hub := raised 0xC2 0 h.time.tickInst h.time.tickInst 0 true g }) ∧
    (∀ u : Bytes, (linkAt h 2).up = false → exec (.shadowUnitReceipt u) s = .next s) ∧
    (isActive h = false → h.pair.state = .shadowing →
      (3 ≤ h.pair.silent → exec .statusUnitTimeout s = .next { s with hub := { h with pair.state := .detached } }) ∧
      (h.pair.silent < 3 → exec .statusUnitTimeout s = .next s)) ∧
    (∀ at_, h.pair.retryAt = some at_ → h.time.op4k < at_ → exec .resyncRetry s = .next s) ∧
    (∀ at_, h.pair.state = .resyncing → (linkAt h 2).up = true → h.pair.resyncWait = false → h.pair.snapped = false →
      h.pair.retryAt = some at_ → at_ ≤ h.time.op4k →
      (slotAt h 0).key.isSome = true → h.links.length = 4 → (linkAt h 2).outQ.length = 5 →
      ∃ t, exec .resyncRetry s = .next { s with hub := t } ∧ t = { h with links := t.links, pair := t.pair } ∧
        t.pair.resyncWait = true ∧ t.pair.resyncSent = h.pair.resyncSent + 1 ∧ t.pair.retryAt = none ∧
        ∃ m, (linkAt t 2).outQ.getD 0 [] = (linkAt h 2).outQ.getD 0 [] ++ unitCells 1 6 0 h.flash.hubId m ∧ fieldAt m 2 2 = 0x0A01) ∧
    (h.pair.state = .resyncing → h.pair.snapped = true → h.pair.copyDone = true → h.pair.digestOk = true →
      exec .resyncComplete s = .next { s with hub := { h with pair.state := .shadowing, pair.resyncWait := false } }) ∧
    (h.pair.digestOk = false → exec .resyncComplete s = .next s)

/-- Power, brown-out and RESET_N (17 R419 to R421, 15 R393): VIN above the start threshold starts a hub that is off, or ends VIN_LOW; a
brown-out, or RESET_N low for 1 µs, resets at once: SRAM and DRAM are wiped and every register is reset, flash stays, but for the journal
record being programmed, which may be torn; PAIR_SIDE keeps its sample until SUPPLY takes another (log 27). A shorter pulse of RESET_N
does nothing. -/
def Obligations.PowerResets : Prop :=
  ∀ (s : State),
    let h := s.hub
    let wiped (p : Phase) (good : Bool) (t : State) : Prop :=
      t.host = {} ∧ t.pending = s.pending ∧
        t.hub = { flash := t.hub.flash, hbOut := h.hbOut, out := h.out, free := t.hub.free
                  power := { phase := p, vinGood := good, refclk := h.power.refclk, ref10 := h.power.ref10
                             excVinMv := h.power.excVinMv, sideB := h.power.sideB } } ∧
        t.hub.flash = { h.flash with journal := t.hub.flash.journal } ∧
        (t.hub.flash.journal = h.flash.journal ∨
          ∃ r q, h.jr.queue = r :: q ∧ t.hub.flash.journal = h.flash.journal ++ [{ r with torn := true }])
    (h.power.phase = .off → ∃ t, exec .vinRise s = .next t ∧ wiped .supply true t ∧ t.hub.flash = h.flash) ∧
    (h.power.phase ≠ .off → h.power.vinLow = false → exec .vinRise s = .next s) ∧
    (h.power.phase ≠ .off → h.power.vinLow = true →
      ∃ t, exec .vinRise s = .next { s with hub := t } ∧ t.power = { h.power with vinLow := false } ∧
        t = { h with power := t.power, faults := t.faults } ∧
        asserted t 0x51 0 = (h.faults.force.contains (0x51, 0, true) && asserted h 0x51 0)) ∧
    (∃ t, exec .brownOut s = .next t ∧ wiped .off false t) ∧
    (∀ ns, h.power.phase ≠ .off → 1000 ≤ ns → ∃ t, exec (.resetN ns) s = .next t ∧ wiped .supply h.power.vinGood t) ∧
    (∀ ns, h.power.phase = .off ∨ ns < 1000 → exec (.resetN ns) s = .next s)

/-- Bring-up (17 R422, R423, 13 R327, R336): each phase ends in the next, or in the held state of its failure; SUPPLY samples PAIR_SIDE
(log 27); BOOT runs the boot choice, or the other image where it does not verify or has failed three bring-ups before this one; RESTORE
counts the bring-up and resumes the operating seconds 64 above the log; a hub in a held state or in RUN has no phase to end; the end of
the wipe is noted; the log is written once 64 operating seconds have passed. -/
def Obligations.BringUpPhases : Prop :=
  ∀ (s : State) (env : BootEnv),
    let h := s.hub
    let goes (g : Hub) : Prop := exec (.bringUpPhaseEnd env) s = .next { s with hub := g }
    (h.power.phase = .supply → goes { h with power.phase := .clocks, power.sideB := env.sideB }) ∧
    (h.power.phase = .clocks → goes { h with power.phase := if h.power.refclk then .boot else .noRefclk }) ∧
    (h.power.phase = .boot →
      let c := h.flash.bootChoice
      let runs (i : Nat) : Prop := goes { h with
        power.phase := .selftest, flash.running := i, power.bootCounted := h.power.bootCounted || i == c
        flash.bootFails := if i = c ∧ h.power.bootCounted = false then h.flash.bootFails + 1 else h.flash.bootFails }
      let failed := h.flash.bootFails - b2n h.power.bootCounted
      (imageVerifies (imageOf h c) h = true → failed < 3 ∨ imageVerifies (imageOf h (1 - c)) h = false → runs c) ∧
      (imageVerifies (imageOf h c) h = true → 3 ≤ failed → imageVerifies (imageOf h (1 - c)) h = true → runs (1 - c)) ∧
      (imageVerifies (imageOf h c) h = false → imageVerifies (imageOf h (1 - c)) h = true → runs (1 - c)) ∧
      (imageVerifies (imageOf h c) h = false → imageVerifies (imageOf h (1 - c)) h = false →
        goes { h with power.phase := .noImage })) ∧
    (h.power.phase = .selftest → env.ramOk = true → env.kat = knownAnswer →
      goes { h with power.phase := .restore, power.dramWiping := !h.power.dramWiped }) ∧
    (h.power.phase = .selftest → env.ramOk = false ∨ env.kat ≠ knownAnswer → goes { h with power.phase := .selftestFail }) ∧
    (h.power.phase = .restore → h.power.restored = false →
      ∃ g, goes g ∧ g.power.phase = .calibrate ∧ g.time.opBase = h.flash.opLog + 64 ∧ g.flash.opLog = h.flash.opLog + 64 ∧
        g.flash.bringUps = (h.flash.bringUps + 1) % 2 ^ 32 ∧
        g.flash.powerCycles = (if h.power.warm then h.flash.powerCycles else (h.flash.powerCycles + 1) % 2 ^ 32) ∧
        g.flash.keys = h.flash.keys ∧ g.flash.lifecycle = h.flash.lifecycle) ∧
    (h.power.phase = .calibrate → ∃ g, goes g ∧ g.power.phase = .align ∧ g.power.calibrated = true ∧
      g.power.dramWiped = h.power.dramWiped ∧ g.time = h.time ∧ g.cfg = h.cfg) ∧
    (h.power.phase ≠ .supply → bringingUp h.power.phase = false ∨ h.power.phase = .align → goes h) ∧
    exec .dramWipeDone s = .next { s with hub := { h with
      power.dramWiping := false, power.dramWiped := h.power.dramWiped || h.power.dramWiping } } ∧
    exec .opSecondsLog s = .next { s with hub := { h with
      flash.opLog := if h.flash.opLog + 64 ≤ opSeconds h then opSeconds h else h.flash.opLog } }

/-- First light and the end of a drain (17 R425, R426, R429): once CALIBRATE and the wipe have ended the hub runs from tick 0; its final
tick has a LEDGER fall due; once that tick is released and custody covers its records, or 60 s of operating time have passed since it, the
hub resets as asked. -/
def Obligations.FirstLightAndDrain : Prop :=
  ∀ (s : State),
    let h := s.hub
    (∀ elapsed, h.power.phase = .align → h.power.calibrated = true → h.power.dramWiped = true →
      ∃ t, exec (.firstLight elapsed) s = .next t ∧ t.hub.power.phase = .run ∧ t.hub.time.tick = 0 ∧ t.hub.time.running = true ∧
        t.pending = s.pending) ∧
    (∀ elapsed, h.power.phase ≠ .align ∨ h.power.calibrated = false ∨ h.power.dramWiped = false →
      exec (.firstLight elapsed) s = .next s) ∧
    (∀ d, h.power.drain = some d → d.finalReleased = false → h.time.tick = d.tick + h.time.v →
      h.stream.due.any (·.ledger) = false →
      ∃ r, exec .drainFinalTick s = .next { s with hub := { h with stream.due := h.stream.due ++ [r] } } ∧ r.ty = 6 ∧ r.ledger = true) ∧
    (h.power.drain = none → exec .drainFinalTick s = .next s ∧ ∀ late, exec (.drainEnd late) s = .next s) ∧
    (∀ (d : Drain) (late : Bool), h.power.drain = some d →
      (d.finalReleased = true → late = true ∧ drainTimedOut d h = true ∨ drainCovered d h = true →
        ∃ t, exec (.drainEnd late) s = .next t ∧ t.host = {} ∧ t.pending = s.pending ∧ t.hub.time = {} ∧
          t.hub.stream = {} ∧ t.hub.power.phase = (if d.kind = 0 then .clocks else .supply) ∧
          t.hub.power.warm = decide (d.kind = 0) ∧ t.hub.flash.hubId = h.flash.hubId ∧
          t.hub.flash.lifecycle = d.target.getD h.flash.lifecycle ∧
          (d.target ≠ some .decommissioned → t.hub.flash.keys = h.flash.keys ∧ t.hub.flash.store = h.flash.store)) ∧
      (d.finalReleased = false ∨ (late = false ∨ drainTimedOut d h = false) ∧ drainCovered d h = false → exec (.drainEnd late) s = .next s))
end

