-- ==== Sys2Proof/Laws/Bytes.lean ====
section
/-! SUPPORT. Byte strings: what a number laid down little-endian reads back as, fields of joined strings, and the check of a cell. -/

namespace Sys2Proof.Machine

@[simp] theorem leNat_length (n v : Nat) : (leNat n v).length = n := by
  induction n generalizing v with
  | zero => rfl
  | succ n ih => simp [leNat, ih]

@[simp] theorem words32_length (n v : Nat) : (words32 n v).length = n := by
  induction n with
  | zero => rfl
  | succ n ih => simp [words32, ih]

@[simp] theorem slideWindow_length (n : Nat) (win : List (BitVec 32)) : (slideWindow n win).length = n := by
  induction n generalizing win with
  | zero => rfl
  | succ n ih => simp [slideWindow, ih]

/-- Rounds keep the number of working words. -/
theorem foldl_hashRound_length (ks vs : List (BitVec 32)) : (ks.foldl hashRound vs).length = vs.length := by
  induction ks generalizing vs with
  | nil => rfl
  | cons k ks ih =>
    rw [List.foldl_cons, ih]
    unfold hashRound
    split <;> simp

/-- Blocks keep the number of words of the chaining value. -/
theorem foldl_hashBlock_length (bs : List Bytes) (cv : List (BitVec 32)) : (bs.foldl hashBlock cv).length = cv.length := by
  induction bs generalizing cv with
  | nil => rfl
  | cons b bs ih => simp [ih, hashBlock, foldl_hashRound_length]

/-- A hash has 32 bytes. -/
@[simp] theorem sha256_length (m : Bytes) : (sha256 m).length = 32 := by
  have h : ∀ ws : List (BitVec 32), (ws.flatMap fun w => (leNat 4 w.toNat).reverse).length = 4 * ws.length := by
    intro ws
    induction ws with
    | nil => rfl
    | cons w ws ih => simp [ih]; omega
  rw [sha256, h, foldl_hashBlock_length, squareRoots, words32_length]

theorem ofLe_leNat (n v : Nat) : ofLe (leNat n v) = v % 2 ^ (8 * n) := by
  induction n generalizing v with
  | zero => simp [leNat, ofLe, Nat.mod_one]
  | succ n ih =>
    simp only [leNat, ofLe, ih, BitVec.toNat_ofNat, Nat.mul_add, Nat.pow_add, Nat.mul_one]
    rw [Nat.mul_comm (2 ^ (8 * n)), Nat.mod_mul]

@[simp] theorem ofLe_leNat_of_lt {n v : Nat} (h : v < 2 ^ (8 * n)) : ofLe (leNat n v) = v := by
  rw [ofLe_leNat, Nat.mod_eq_of_lt h]

/-- A field that stands right behind a string whose length is its offset. -/
theorem fieldAt_behind {a b c : Bytes} {off n : Nat} (ha : a.length = off) (hb : b.length = n) : fieldAt (a ++ b ++ c) off n = ofLe b := by
  subst ha hb
  simp [fieldAt, List.append_assoc]

/-- A field within the first of two strings. -/
theorem fieldAt_before {a b : Bytes} {off n : Nat} (h : off + n ≤ a.length) : fieldAt (a ++ b) off n = fieldAt a off n := by
  unfold fieldAt
  rw [List.drop_append_of_le_length (by omega), List.take_append_of_le_length (by simp; omega)]

@[simp] theorem padTo_length (n : Nat) (bs : Bytes) : (padTo n bs).length = n := by
  simp [padTo, zeros]
  omega

/-- What a hub lays down for a cell passes the check. -/
theorem lcrcOk_cellBytes (lseq ack : BitVec 16) (c : Cell) : lcrcOk (cellBytes lseq ack c) = true := by
  unfold cellBytes lcrcOk
  simp only [Bool.and_eq_true, beq_iff_eq]
  generalize hb : leNat 2 lseq.toNat ++ leNat 1 c.cls ++ leNat 1 c.flags ++ leNat 2 ack.toNat ++ leNat 1 c.data.length ++
    leNat 1 c.hops ++ leNat 4 c.origin.toNat ++ padTo 240 c.data = b
  have hl : b.length = 252 := by subst hb; simp
  refine ⟨by simp [hl], ?_⟩
  rw [List.take_append_of_le_length (by omega), List.take_of_length_le (by omega)]
  rw [show b ++ leNat 4 (crc32c b).toNat = b ++ leNat 4 (crc32c b).toNat ++ [] by simp, fieldAt_behind hl (leNat_length _ _)]
  exact ofLe_leNat_of_lt (crc32c b).isLt

end Sys2Proof.Machine
end

