-- ==== Sys2Proof/Laws/Memory.lean ====
section
/-! SUPPORT. The laws of addressed memory: reads after writes, and that every operation keeps the canonical form. -/

namespace Sys2Proof.Machine

theorem wfFrom_mono {lo lo' : Nat} (h : lo ≤ lo') : ∀ {m : List Host.Cell}, Memory.wfFrom lo' m = true → Memory.wfFrom lo m = true
  | [], _ => rfl
  | (a, b) :: m, hm => by
    simp only [Memory.wfFrom, Bool.and_eq_true, decide_eq_true_eq] at hm ⊢
    exact ⟨⟨by omega, hm.1.2⟩, hm.2⟩

theorem writeByte_wfFrom {k : Nat} {v : Byte} : ∀ {lo : Nat} {m : List Host.Cell}, lo ≤ k → Memory.wfFrom lo m = true →
    Memory.wfFrom lo (writeByte m k v) = true
  | lo, [], hk, _ => by
    unfold writeByte
    split
    · rfl
    · rename_i hv
      simp [Memory.wfFrom, hk, hv]
  | lo, (a, b) :: m, hk, hm => by
    simp only [Memory.wfFrom, Bool.and_eq_true, decide_eq_true_eq] at hm
    unfold writeByte
    split
    · rename_i hlt
      split
      · simp only [Memory.wfFrom, Bool.and_eq_true, decide_eq_true_eq]
        exact hm
      · rename_i hv
        simp only [Memory.wfFrom, Bool.and_eq_true, decide_eq_true_eq]
        refine ⟨⟨hk, by simp [hv]⟩, ⟨⟨by omega, hm.1.2⟩, hm.2⟩⟩
    · split
      · split
        · exact wfFrom_mono (by omega) hm.2
        · rename_i hv
          subst_vars
          simp only [Memory.wfFrom, Bool.and_eq_true, decide_eq_true_eq]
          exact ⟨⟨hk, by simp [hv]⟩, hm.2⟩
      · simp only [Memory.wfFrom, Bool.and_eq_true, decide_eq_true_eq]
        exact ⟨hm.1, writeByte_wfFrom (by omega) hm.2⟩

/-- A store keeps the canonical form. -/
theorem writeByte_wf {m : List Host.Cell} {k : Nat} {v : Byte} (h : Memory.wf m = true) : Memory.wf (writeByte m k v) = true :=
  writeByte_wfFrom (Nat.zero_le k) h

/-- Storing a byte string keeps the canonical form. -/
theorem writeBytes_wf {a : Nat} {bs : Bytes} : ∀ {m : List Host.Cell}, Memory.wf m = true → Memory.wf (writeBytes m a bs) = true := by
  induction bs generalizing a with
  | nil => intro m h; exact h
  | cons b bs ih => intro m h; exact ih (writeByte_wf h)

theorem readByte_below {k : Nat} : ∀ {lo : Nat} {m : List Host.Cell}, k < lo → Memory.wfFrom lo m = true → readByte m k = cellDefault
  | _, [], _, _ => rfl
  | lo, (a, b) :: m, hk, hm => by
    simp only [Memory.wfFrom, Bool.and_eq_true, decide_eq_true_eq] at hm
    unfold readByte
    rw [if_neg (by omega), if_pos (by omega)]

theorem readByte_writeByte_from {k j : Nat} {v : Byte} : ∀ {lo : Nat} {m : List Host.Cell}, Memory.wfFrom lo m = true →
    readByte (writeByte m k v) j = if j = k then v else readByte m j
  | _, [], _ => by
    unfold writeByte
    by_cases hv : v = cellDefault
    · simp [hv, readByte]
    · by_cases hj : j = k <;> simp [hv, hj, readByte]
  | lo, (a, b) :: m, hm => by
    simp only [Memory.wfFrom, Bool.and_eq_true, decide_eq_true_eq] at hm
    have hb : readByte m a = cellDefault := readByte_below (Nat.lt_succ_self a) hm.2
    unfold writeByte
    by_cases h1 : k < a
    · by_cases hv : v = cellDefault
      · simp only [h1, hv, if_true]
        by_cases hj : j = k
        · subst hj; simp [readByte, Nat.ne_of_lt h1, h1]
        · simp [hj]
      · simp only [h1, hv, if_true, if_false]
        by_cases hj : j = k
        · simp [readByte, hj]
        · simp only [readByte, hj, if_false]
          split
          · rename_i hlt; rw [if_neg (by omega), if_pos (by omega)]
          · rfl
    · by_cases h2 : k = a
      · subst h2
        by_cases hv : v = cellDefault
        · simp only [Nat.lt_irrefl, hv, if_true, if_false]
          by_cases hj : j = k
          · simp [hj, hb]
          · simp only [readByte, hj, if_false]
            split
            · rename_i hlt
              exact readByte_below (Nat.lt_succ_of_lt hlt) hm.2
            · rfl
        · simp only [Nat.lt_irrefl, hv, if_true, if_false]
          by_cases hj : j = k <;> simp [readByte, hj]
      · simp only [h1, h2, if_false]
        by_cases hj : j = k
        · subst hj
          simp only [readByte, h2, h1, if_false, if_true]
          rw [readByte_writeByte_from hm.2]; simp
        · simp only [readByte, hj, if_false]
          rw [readByte_writeByte_from hm.2]; simp [hj]

/-- A read after a store: the byte stored at its address, every other byte as before. -/
theorem readByte_writeByte {m : List Host.Cell} (h : Memory.wf m = true) (k j : Nat) (v : Byte) :
    readByte (writeByte m k v) j = if j = k then v else readByte m j :=
  readByte_writeByte_from h

/-- Storing a byte string leaves every byte outside it. -/
theorem readByte_writeBytes_outside {bs : Bytes} : ∀ {m : List Host.Cell} {a j : Nat}, Memory.wf m = true →
    (j < a ∨ a + bs.length ≤ j) → readByte (writeBytes m a bs) j = readByte m j := by
  induction bs with
  | nil => intro m a j _ _; rfl
  | cons b bs ih =>
    intro m a j h hj
    simp only [List.length_cons] at hj
    unfold writeBytes
    rw [ih (writeByte_wf h) (by omega), readByte_writeByte h, if_neg (by omega)]

/-- Reading back what was stored. -/
theorem readBytes_writeBytes {bs : Bytes} : ∀ {m : List Host.Cell} {a : Nat}, Memory.wf m = true →
    readBytes (writeBytes m a bs) a bs.length = bs := by
  induction bs with
  | nil => intro m a _; rfl
  | cons b bs ih =>
    intro m a h
    have hr : readByte (writeBytes (writeByte m a b) (a + 1) bs) a = b := by
      rw [readByte_writeBytes_outside (writeByte_wf h) (by omega), readByte_writeByte h]; simp
    simp only [List.length_cons, readBytes, writeBytes]
    rw [hr, ih (writeByte_wf h)]

end Sys2Proof.Machine
end

