-- ==== Sys2Proof/Laws/State.lean ====
section
/-! SUPPORT. What the shared operations leave alone: one lemma for each field of `Hub` and each update. -/

namespace Sys2Proof.Machine

/-! ## One entry of a table -/

@[simp] theorem updChan_power (c : Nat) (f : Chan → Chan) (h : Hub) : (updChan c f h).power = h.power := rfl
@[simp] theorem updChan_flash (c : Nat) (f : Chan → Chan) (h : Hub) : (updChan c f h).flash = h.flash := rfl
@[simp] theorem updChan_cfg (c : Nat) (f : Chan → Chan) (h : Hub) : (updChan c f h).cfg = h.cfg := rfl
@[simp] theorem updChan_changes (c : Nat) (f : Chan → Chan) (h : Hub) : (updChan c f h).changes = h.changes := rfl
@[simp] theorem updChan_staged (c : Nat) (f : Chan → Chan) (h : Hub) : (updChan c f h).staged = h.staged := rfl
@[simp] theorem updChan_time (c : Nat) (f : Chan → Chan) (h : Hub) : (updChan c f h).time = h.time := rfl
@[simp] theorem updChan_view (c : Nat) (f : Chan → Chan) (h : Hub) : (updChan c f h).view = h.view := rfl
@[simp] theorem updChan_groups (c : Nat) (f : Chan → Chan) (h : Hub) : (updChan c f h).groups = h.groups := rfl
@[simp] theorem updChan_fes (c : Nat) (f : Chan → Chan) (h : Hub) : (updChan c f h).fes = h.fes := rfl
@[simp] theorem updChan_tiles (c : Nat) (f : Chan → Chan) (h : Hub) : (updChan c f h).tiles = h.tiles := rfl
@[simp] theorem updChan_hk (c : Nat) (f : Chan → Chan) (h : Hub) : (updChan c f h).hk = h.hk := rfl
@[simp] theorem updChan_loops (c : Nat) (f : Chan → Chan) (h : Hub) : (updChan c f h).loops = h.loops := rfl
@[simp] theorem updChan_frames (c : Nat) (f : Chan → Chan) (h : Hub) : (updChan c f h).frames = h.frames := rfl
@[simp] theorem updChan_verdicts (c : Nat) (f : Chan → Chan) (h : Hub) : (updChan c f h).verdicts = h.verdicts := rfl
@[simp] theorem updChan_arr (c : Nat) (f : Chan → Chan) (h : Hub) : (updChan c f h).arr = h.arr := rfl
@[simp] theorem updChan_cap (c : Nat) (f : Chan → Chan) (h : Hub) : (updChan c f h).cap = h.cap := rfl
@[simp] theorem updChan_jobs (c : Nat) (f : Chan → Chan) (h : Hub) : (updChan c f h).jobs = h.jobs := rfl
@[simp] theorem updChan_stream (c : Nat) (f : Chan → Chan) (h : Hub) : (updChan c f h).stream = h.stream := rfl
@[simp] theorem updChan_outlets (c : Nat) (f : Chan → Chan) (h : Hub) : (updChan c f h).outlets = h.outlets := rfl
@[simp] theorem updChan_lanes (c : Nat) (f : Chan → Chan) (h : Hub) : (updChan c f h).lanes = h.lanes := rfl
@[simp] theorem updChan_links (c : Nat) (f : Chan → Chan) (h : Hub) : (updChan c f h).links = h.links := rfl
@[simp] theorem updChan_eth (c : Nat) (f : Chan → Chan) (h : Hub) : (updChan c f h).eth = h.eth := rfl
@[simp] theorem updChan_pair (c : Nat) (f : Chan → Chan) (h : Hub) : (updChan c f h).pair = h.pair := rfl
@[simp] theorem updChan_hbOut (c : Nat) (f : Chan → Chan) (h : Hub) : (updChan c f h).hbOut = h.hbOut := rfl
@[simp] theorem updChan_mbx (c : Nat) (f : Chan → Chan) (h : Hub) : (updChan c f h).mbx = h.mbx := rfl
@[simp] theorem updChan_fw (c : Nat) (f : Chan → Chan) (h : Hub) : (updChan c f h).fw = h.fw := rfl
@[simp] theorem updChan_faults (c : Nat) (f : Chan → Chan) (h : Hub) : (updChan c f h).faults = h.faults := rfl
@[simp] theorem updChan_jr (c : Nat) (f : Chan → Chan) (h : Hub) : (updChan c f h).jr = h.jr := rfl
@[simp] theorem updChan_windows (c : Nat) (f : Chan → Chan) (h : Hub) : (updChan c f h).windows = h.windows := rfl
@[simp] theorem updChan_mem (c : Nat) (f : Chan → Chan) (h : Hub) : (updChan c f h).mem = h.mem := rfl
@[simp] theorem updChan_arb (c : Nat) (f : Chan → Chan) (h : Hub) : (updChan c f h).arb = h.arb := rfl
@[simp] theorem updChan_out (c : Nat) (f : Chan → Chan) (h : Hub) : (updChan c f h).out = h.out := rfl
@[simp] theorem updChan_free (c : Nat) (f : Chan → Chan) (h : Hub) : (updChan c f h).free = h.free := rfl

@[simp] theorem updGroup_power (g : Nat) (f : Group → Group) (h : Hub) : (updGroup g f h).power = h.power := rfl
@[simp] theorem updGroup_flash (g : Nat) (f : Group → Group) (h : Hub) : (updGroup g f h).flash = h.flash := rfl
@[simp] theorem updGroup_cfg (g : Nat) (f : Group → Group) (h : Hub) : (updGroup g f h).cfg = h.cfg := rfl
@[simp] theorem updGroup_changes (g : Nat) (f : Group → Group) (h : Hub) : (updGroup g f h).changes = h.changes := rfl
@[simp] theorem updGroup_staged (g : Nat) (f : Group → Group) (h : Hub) : (updGroup g f h).staged = h.staged := rfl
@[simp] theorem updGroup_time (g : Nat) (f : Group → Group) (h : Hub) : (updGroup g f h).time = h.time := rfl
@[simp] theorem updGroup_view (g : Nat) (f : Group → Group) (h : Hub) : (updGroup g f h).view = h.view := rfl
@[simp] theorem updGroup_chans (g : Nat) (f : Group → Group) (h : Hub) : (updGroup g f h).chans = h.chans := rfl
@[simp] theorem updGroup_fes (g : Nat) (f : Group → Group) (h : Hub) : (updGroup g f h).fes = h.fes := rfl
@[simp] theorem updGroup_tiles (g : Nat) (f : Group → Group) (h : Hub) : (updGroup g f h).tiles = h.tiles := rfl
@[simp] theorem updGroup_hk (g : Nat) (f : Group → Group) (h : Hub) : (updGroup g f h).hk = h.hk := rfl
@[simp] theorem updGroup_loops (g : Nat) (f : Group → Group) (h : Hub) : (updGroup g f h).loops = h.loops := rfl
@[simp] theorem updGroup_frames (g : Nat) (f : Group → Group) (h : Hub) : (updGroup g f h).frames = h.frames := rfl
@[simp] theorem updGroup_verdicts (g : Nat) (f : Group → Group) (h : Hub) : (updGroup g f h).verdicts = h.verdicts := rfl
@[simp] theorem updGroup_arr (g : Nat) (f : Group → Group) (h : Hub) : (updGroup g f h).arr = h.arr := rfl
@[simp] theorem updGroup_cap (g : Nat) (f : Group → Group) (h : Hub) : (updGroup g f h).cap = h.cap := rfl
@[simp] theorem updGroup_jobs (g : Nat) (f : Group → Group) (h : Hub) : (updGroup g f h).jobs = h.jobs := rfl
@[simp] theorem updGroup_stream (g : Nat) (f : Group → Group) (h : Hub) : (updGroup g f h).stream = h.stream := rfl
@[simp] theorem updGroup_outlets (g : Nat) (f : Group → Group) (h : Hub) : (updGroup g f h).outlets = h.outlets := rfl
@[simp] theorem updGroup_lanes (g : Nat) (f : Group → Group) (h : Hub) : (updGroup g f h).lanes = h.lanes := rfl
@[simp] theorem updGroup_links (g : Nat) (f : Group → Group) (h : Hub) : (updGroup g f h).links = h.links := rfl
@[simp] theorem updGroup_eth (g : Nat) (f : Group → Group) (h : Hub) : (updGroup g f h).eth = h.eth := rfl
@[simp] theorem updGroup_pair (g : Nat) (f : Group → Group) (h : Hub) : (updGroup g f h).pair = h.pair := rfl
@[simp] theorem updGroup_hbOut (g : Nat) (f : Group → Group) (h : Hub) : (updGroup g f h).hbOut = h.hbOut := rfl
@[simp] theorem updGroup_mbx (g : Nat) (f : Group → Group) (h : Hub) : (updGroup g f h).mbx = h.mbx := rfl
@[simp] theorem updGroup_fw (g : Nat) (f : Group → Group) (h : Hub) : (updGroup g f h).fw = h.fw := rfl
@[simp] theorem updGroup_faults (g : Nat) (f : Group → Group) (h : Hub) : (updGroup g f h).faults = h.faults := rfl
@[simp] theorem updGroup_jr (g : Nat) (f : Group → Group) (h : Hub) : (updGroup g f h).jr = h.jr := rfl
@[simp] theorem updGroup_windows (g : Nat) (f : Group → Group) (h : Hub) : (updGroup g f h).windows = h.windows := rfl
@[simp] theorem updGroup_mem (g : Nat) (f : Group → Group) (h : Hub) : (updGroup g f h).mem = h.mem := rfl
@[simp] theorem updGroup_arb (g : Nat) (f : Group → Group) (h : Hub) : (updGroup g f h).arb = h.arb := rfl
@[simp] theorem updGroup_out (g : Nat) (f : Group → Group) (h : Hub) : (updGroup g f h).out = h.out := rfl
@[simp] theorem updGroup_free (g : Nat) (f : Group → Group) (h : Hub) : (updGroup g f h).free = h.free := rfl

@[simp] theorem updFe_power (i : Nat) (f : Fe → Fe) (h : Hub) : (updFe i f h).power = h.power := rfl
@[simp] theorem updFe_flash (i : Nat) (f : Fe → Fe) (h : Hub) : (updFe i f h).flash = h.flash := rfl
@[simp] theorem updFe_cfg (i : Nat) (f : Fe → Fe) (h : Hub) : (updFe i f h).cfg = h.cfg := rfl
@[simp] theorem updFe_changes (i : Nat) (f : Fe → Fe) (h : Hub) : (updFe i f h).changes = h.changes := rfl
@[simp] theorem updFe_staged (i : Nat) (f : Fe → Fe) (h : Hub) : (updFe i f h).staged = h.staged := rfl
@[simp] theorem updFe_time (i : Nat) (f : Fe → Fe) (h : Hub) : (updFe i f h).time = h.time := rfl
@[simp] theorem updFe_view (i : Nat) (f : Fe → Fe) (h : Hub) : (updFe i f h).view = h.view := rfl
@[simp] theorem updFe_chans (i : Nat) (f : Fe → Fe) (h : Hub) : (updFe i f h).chans = h.chans := rfl
@[simp] theorem updFe_groups (i : Nat) (f : Fe → Fe) (h : Hub) : (updFe i f h).groups = h.groups := rfl
@[simp] theorem updFe_tiles (i : Nat) (f : Fe → Fe) (h : Hub) : (updFe i f h).tiles = h.tiles := rfl
@[simp] theorem updFe_hk (i : Nat) (f : Fe → Fe) (h : Hub) : (updFe i f h).hk = h.hk := rfl
@[simp] theorem updFe_loops (i : Nat) (f : Fe → Fe) (h : Hub) : (updFe i f h).loops = h.loops := rfl
@[simp] theorem updFe_frames (i : Nat) (f : Fe → Fe) (h : Hub) : (updFe i f h).frames = h.frames := rfl
@[simp] theorem updFe_verdicts (i : Nat) (f : Fe → Fe) (h : Hub) : (updFe i f h).verdicts = h.verdicts := rfl
@[simp] theorem updFe_arr (i : Nat) (f : Fe → Fe) (h : Hub) : (updFe i f h).arr = h.arr := rfl
@[simp] theorem updFe_cap (i : Nat) (f : Fe → Fe) (h : Hub) : (updFe i f h).cap = h.cap := rfl
@[simp] theorem updFe_jobs (i : Nat) (f : Fe → Fe) (h : Hub) : (updFe i f h).jobs = h.jobs := rfl
@[simp] theorem updFe_stream (i : Nat) (f : Fe → Fe) (h : Hub) : (updFe i f h).stream = h.stream := rfl
@[simp] theorem updFe_outlets (i : Nat) (f : Fe → Fe) (h : Hub) : (updFe i f h).outlets = h.outlets := rfl
@[simp] theorem updFe_lanes (i : Nat) (f : Fe → Fe) (h : Hub) : (updFe i f h).lanes = h.lanes := rfl
@[simp] theorem updFe_links (i : Nat) (f : Fe → Fe) (h : Hub) : (updFe i f h).links = h.links := rfl
@[simp] theorem updFe_eth (i : Nat) (f : Fe → Fe) (h : Hub) : (updFe i f h).eth = h.eth := rfl
@[simp] theorem updFe_pair (i : Nat) (f : Fe → Fe) (h : Hub) : (updFe i f h).pair = h.pair := rfl
@[simp] theorem updFe_hbOut (i : Nat) (f : Fe → Fe) (h : Hub) : (updFe i f h).hbOut = h.hbOut := rfl
@[simp] theorem updFe_mbx (i : Nat) (f : Fe → Fe) (h : Hub) : (updFe i f h).mbx = h.mbx := rfl
@[simp] theorem updFe_fw (i : Nat) (f : Fe → Fe) (h : Hub) : (updFe i f h).fw = h.fw := rfl
@[simp] theorem updFe_faults (i : Nat) (f : Fe → Fe) (h : Hub) : (updFe i f h).faults = h.faults := rfl
@[simp] theorem updFe_jr (i : Nat) (f : Fe → Fe) (h : Hub) : (updFe i f h).jr = h.jr := rfl
@[simp] theorem updFe_windows (i : Nat) (f : Fe → Fe) (h : Hub) : (updFe i f h).windows = h.windows := rfl
@[simp] theorem updFe_mem (i : Nat) (f : Fe → Fe) (h : Hub) : (updFe i f h).mem = h.mem := rfl
@[simp] theorem updFe_arb (i : Nat) (f : Fe → Fe) (h : Hub) : (updFe i f h).arb = h.arb := rfl
@[simp] theorem updFe_out (i : Nat) (f : Fe → Fe) (h : Hub) : (updFe i f h).out = h.out := rfl
@[simp] theorem updFe_free (i : Nat) (f : Fe → Fe) (h : Hub) : (updFe i f h).free = h.free := rfl

@[simp] theorem updTile_power (t : Nat) (f : Tile → Tile) (h : Hub) : (updTile t f h).power = h.power := rfl
@[simp] theorem updTile_flash (t : Nat) (f : Tile → Tile) (h : Hub) : (updTile t f h).flash = h.flash := rfl
@[simp] theorem updTile_cfg (t : Nat) (f : Tile → Tile) (h : Hub) : (updTile t f h).cfg = h.cfg := rfl
@[simp] theorem updTile_changes (t : Nat) (f : Tile → Tile) (h : Hub) : (updTile t f h).changes = h.changes := rfl
@[simp] theorem updTile_staged (t : Nat) (f : Tile → Tile) (h : Hub) : (updTile t f h).staged = h.staged := rfl
@[simp] theorem updTile_time (t : Nat) (f : Tile → Tile) (h : Hub) : (updTile t f h).time = h.time := rfl
@[simp] theorem updTile_view (t : Nat) (f : Tile → Tile) (h : Hub) : (updTile t f h).view = h.view := rfl
@[simp] theorem updTile_chans (t : Nat) (f : Tile → Tile) (h : Hub) : (updTile t f h).chans = h.chans := rfl
@[simp] theorem updTile_groups (t : Nat) (f : Tile → Tile) (h : Hub) : (updTile t f h).groups = h.groups := rfl
@[simp] theorem updTile_fes (t : Nat) (f : Tile → Tile) (h : Hub) : (updTile t f h).fes = h.fes := rfl
@[simp] theorem updTile_hk (t : Nat) (f : Tile → Tile) (h : Hub) : (updTile t f h).hk = h.hk := rfl
@[simp] theorem updTile_loops (t : Nat) (f : Tile → Tile) (h : Hub) : (updTile t f h).loops = h.loops := rfl
@[simp] theorem updTile_frames (t : Nat) (f : Tile → Tile) (h : Hub) : (updTile t f h).frames = h.frames := rfl
@[simp] theorem updTile_verdicts (t : Nat) (f : Tile → Tile) (h : Hub) : (updTile t f h).verdicts = h.verdicts := rfl
@[simp] theorem updTile_arr (t : Nat) (f : Tile → Tile) (h : Hub) : (updTile t f h).arr = h.arr := rfl
@[simp] theorem updTile_cap (t : Nat) (f : Tile → Tile) (h : Hub) : (updTile t f h).cap = h.cap := rfl
@[simp] theorem updTile_jobs (t : Nat) (f : Tile → Tile) (h : Hub) : (updTile t f h).jobs = h.jobs := rfl
@[simp] theorem updTile_stream (t : Nat) (f : Tile → Tile) (h : Hub) : (updTile t f h).stream = h.stream := rfl
@[simp] theorem updTile_outlets (t : Nat) (f : Tile → Tile) (h : Hub) : (updTile t f h).outlets = h.outlets := rfl
@[simp] theorem updTile_lanes (t : Nat) (f : Tile → Tile) (h : Hub) : (updTile t f h).lanes = h.lanes := rfl
@[simp] theorem updTile_links (t : Nat) (f : Tile → Tile) (h : Hub) : (updTile t f h).links = h.links := rfl
@[simp] theorem updTile_eth (t : Nat) (f : Tile → Tile) (h : Hub) : (updTile t f h).eth = h.eth := rfl
@[simp] theorem updTile_pair (t : Nat) (f : Tile → Tile) (h : Hub) : (updTile t f h).pair = h.pair := rfl
@[simp] theorem updTile_hbOut (t : Nat) (f : Tile → Tile) (h : Hub) : (updTile t f h).hbOut = h.hbOut := rfl
@[simp] theorem updTile_mbx (t : Nat) (f : Tile → Tile) (h : Hub) : (updTile t f h).mbx = h.mbx := rfl
@[simp] theorem updTile_fw (t : Nat) (f : Tile → Tile) (h : Hub) : (updTile t f h).fw = h.fw := rfl
@[simp] theorem updTile_faults (t : Nat) (f : Tile → Tile) (h : Hub) : (updTile t f h).faults = h.faults := rfl
@[simp] theorem updTile_jr (t : Nat) (f : Tile → Tile) (h : Hub) : (updTile t f h).jr = h.jr := rfl
@[simp] theorem updTile_windows (t : Nat) (f : Tile → Tile) (h : Hub) : (updTile t f h).windows = h.windows := rfl
@[simp] theorem updTile_mem (t : Nat) (f : Tile → Tile) (h : Hub) : (updTile t f h).mem = h.mem := rfl
@[simp] theorem updTile_arb (t : Nat) (f : Tile → Tile) (h : Hub) : (updTile t f h).arb = h.arb := rfl
@[simp] theorem updTile_out (t : Nat) (f : Tile → Tile) (h : Hub) : (updTile t f h).out = h.out := rfl
@[simp] theorem updTile_free (t : Nat) (f : Tile → Tile) (h : Hub) : (updTile t f h).free = h.free := rfl

@[simp] theorem updLane_power (l : Nat) (f : Lane → Lane) (h : Hub) : (updLane l f h).power = h.power := rfl
@[simp] theorem updLane_flash (l : Nat) (f : Lane → Lane) (h : Hub) : (updLane l f h).flash = h.flash := rfl
@[simp] theorem updLane_cfg (l : Nat) (f : Lane → Lane) (h : Hub) : (updLane l f h).cfg = h.cfg := rfl
@[simp] theorem updLane_changes (l : Nat) (f : Lane → Lane) (h : Hub) : (updLane l f h).changes = h.changes := rfl
@[simp] theorem updLane_staged (l : Nat) (f : Lane → Lane) (h : Hub) : (updLane l f h).staged = h.staged := rfl
@[simp] theorem updLane_time (l : Nat) (f : Lane → Lane) (h : Hub) : (updLane l f h).time = h.time := rfl
@[simp] theorem updLane_view (l : Nat) (f : Lane → Lane) (h : Hub) : (updLane l f h).view = h.view := rfl
@[simp] theorem updLane_chans (l : Nat) (f : Lane → Lane) (h : Hub) : (updLane l f h).chans = h.chans := rfl
@[simp] theorem updLane_groups (l : Nat) (f : Lane → Lane) (h : Hub) : (updLane l f h).groups = h.groups := rfl
@[simp] theorem updLane_fes (l : Nat) (f : Lane → Lane) (h : Hub) : (updLane l f h).fes = h.fes := rfl
@[simp] theorem updLane_tiles (l : Nat) (f : Lane → Lane) (h : Hub) : (updLane l f h).tiles = h.tiles := rfl
@[simp] theorem updLane_hk (l : Nat) (f : Lane → Lane) (h : Hub) : (updLane l f h).hk = h.hk := rfl
@[simp] theorem updLane_loops (l : Nat) (f : Lane → Lane) (h : Hub) : (updLane l f h).loops = h.loops := rfl
@[simp] theorem updLane_frames (l : Nat) (f : Lane → Lane) (h : Hub) : (updLane l f h).frames = h.frames := rfl
@[simp] theorem updLane_verdicts (l : Nat) (f : Lane → Lane) (h : Hub) : (updLane l f h).verdicts = h.verdicts := rfl
@[simp] theorem updLane_arr (l : Nat) (f : Lane → Lane) (h : Hub) : (updLane l f h).arr = h.arr := rfl
@[simp] theorem updLane_cap (l : Nat) (f : Lane → Lane) (h : Hub) : (updLane l f h).cap = h.cap := rfl
@[simp] theorem updLane_jobs (l : Nat) (f : Lane → Lane) (h : Hub) : (updLane l f h).jobs = h.jobs := rfl
@[simp] theorem updLane_stream (l : Nat) (f : Lane → Lane) (h : Hub) : (updLane l f h).stream = h.stream := rfl
@[simp] theorem updLane_outlets (l : Nat) (f : Lane → Lane) (h : Hub) : (updLane l f h).outlets = h.outlets := rfl
@[simp] theorem updLane_links (l : Nat) (f : Lane → Lane) (h : Hub) : (updLane l f h).links = h.links := rfl
@[simp] theorem updLane_eth (l : Nat) (f : Lane → Lane) (h : Hub) : (updLane l f h).eth = h.eth := rfl
@[simp] theorem updLane_pair (l : Nat) (f : Lane → Lane) (h : Hub) : (updLane l f h).pair = h.pair := rfl
@[simp] theorem updLane_hbOut (l : Nat) (f : Lane → Lane) (h : Hub) : (updLane l f h).hbOut = h.hbOut := rfl
@[simp] theorem updLane_mbx (l : Nat) (f : Lane → Lane) (h : Hub) : (updLane l f h).mbx = h.mbx := rfl
@[simp] theorem updLane_fw (l : Nat) (f : Lane → Lane) (h : Hub) : (updLane l f h).fw = h.fw := rfl
@[simp] theorem updLane_faults (l : Nat) (f : Lane → Lane) (h : Hub) : (updLane l f h).faults = h.faults := rfl
@[simp] theorem updLane_jr (l : Nat) (f : Lane → Lane) (h : Hub) : (updLane l f h).jr = h.jr := rfl
@[simp] theorem updLane_windows (l : Nat) (f : Lane → Lane) (h : Hub) : (updLane l f h).windows = h.windows := rfl
@[simp] theorem updLane_mem (l : Nat) (f : Lane → Lane) (h : Hub) : (updLane l f h).mem = h.mem := rfl
@[simp] theorem updLane_arb (l : Nat) (f : Lane → Lane) (h : Hub) : (updLane l f h).arb = h.arb := rfl
@[simp] theorem updLane_out (l : Nat) (f : Lane → Lane) (h : Hub) : (updLane l f h).out = h.out := rfl
@[simp] theorem updLane_free (l : Nat) (f : Lane → Lane) (h : Hub) : (updLane l f h).free = h.free := rfl

@[simp] theorem updLink_power (k : Nat) (f : Link → Link) (h : Hub) : (updLink k f h).power = h.power := rfl
@[simp] theorem updLink_flash (k : Nat) (f : Link → Link) (h : Hub) : (updLink k f h).flash = h.flash := rfl
@[simp] theorem updLink_cfg (k : Nat) (f : Link → Link) (h : Hub) : (updLink k f h).cfg = h.cfg := rfl
@[simp] theorem updLink_changes (k : Nat) (f : Link → Link) (h : Hub) : (updLink k f h).changes = h.changes := rfl
@[simp] theorem updLink_staged (k : Nat) (f : Link → Link) (h : Hub) : (updLink k f h).staged = h.staged := rfl
@[simp] theorem updLink_time (k : Nat) (f : Link → Link) (h : Hub) : (updLink k f h).time = h.time := rfl
@[simp] theorem updLink_view (k : Nat) (f : Link → Link) (h : Hub) : (updLink k f h).view = h.view := rfl
@[simp] theorem updLink_chans (k : Nat) (f : Link → Link) (h : Hub) : (updLink k f h).chans = h.chans := rfl
@[simp] theorem updLink_groups (k : Nat) (f : Link → Link) (h : Hub) : (updLink k f h).groups = h.groups := rfl
@[simp] theorem updLink_fes (k : Nat) (f : Link → Link) (h : Hub) : (updLink k f h).fes = h.fes := rfl
@[simp] theorem updLink_tiles (k : Nat) (f : Link → Link) (h : Hub) : (updLink k f h).tiles = h.tiles := rfl
@[simp] theorem updLink_hk (k : Nat) (f : Link → Link) (h : Hub) : (updLink k f h).hk = h.hk := rfl
@[simp] theorem updLink_loops (k : Nat) (f : Link → Link) (h : Hub) : (updLink k f h).loops = h.loops := rfl
@[simp] theorem updLink_frames (k : Nat) (f : Link → Link) (h : Hub) : (updLink k f h).frames = h.frames := rfl
@[simp] theorem updLink_verdicts (k : Nat) (f : Link → Link) (h : Hub) : (updLink k f h).verdicts = h.verdicts := rfl
@[simp] theorem updLink_arr (k : Nat) (f : Link → Link) (h : Hub) : (updLink k f h).arr = h.arr := rfl
@[simp] theorem updLink_cap (k : Nat) (f : Link → Link) (h : Hub) : (updLink k f h).cap = h.cap := rfl
@[simp] theorem updLink_jobs (k : Nat) (f : Link → Link) (h : Hub) : (updLink k f h).jobs = h.jobs := rfl
@[simp] theorem updLink_stream (k : Nat) (f : Link → Link) (h : Hub) : (updLink k f h).stream = h.stream := rfl
@[simp] theorem updLink_outlets (k : Nat) (f : Link → Link) (h : Hub) : (updLink k f h).outlets = h.outlets := rfl
@[simp] theorem updLink_lanes (k : Nat) (f : Link → Link) (h : Hub) : (updLink k f h).lanes = h.lanes := rfl
@[simp] theorem updLink_eth (k : Nat) (f : Link → Link) (h : Hub) : (updLink k f h).eth = h.eth := rfl
@[simp] theorem updLink_pair (k : Nat) (f : Link → Link) (h : Hub) : (updLink k f h).pair = h.pair := rfl
@[simp] theorem updLink_hbOut (k : Nat) (f : Link → Link) (h : Hub) : (updLink k f h).hbOut = h.hbOut := rfl
@[simp] theorem updLink_mbx (k : Nat) (f : Link → Link) (h : Hub) : (updLink k f h).mbx = h.mbx := rfl
@[simp] theorem updLink_fw (k : Nat) (f : Link → Link) (h : Hub) : (updLink k f h).fw = h.fw := rfl
@[simp] theorem updLink_faults (k : Nat) (f : Link → Link) (h : Hub) : (updLink k f h).faults = h.faults := rfl
@[simp] theorem updLink_jr (k : Nat) (f : Link → Link) (h : Hub) : (updLink k f h).jr = h.jr := rfl
@[simp] theorem updLink_windows (k : Nat) (f : Link → Link) (h : Hub) : (updLink k f h).windows = h.windows := rfl
@[simp] theorem updLink_mem (k : Nat) (f : Link → Link) (h : Hub) : (updLink k f h).mem = h.mem := rfl
@[simp] theorem updLink_arb (k : Nat) (f : Link → Link) (h : Hub) : (updLink k f h).arb = h.arb := rfl
@[simp] theorem updLink_out (k : Nat) (f : Link → Link) (h : Hub) : (updLink k f h).out = h.out := rfl
@[simp] theorem updLink_free (k : Nat) (f : Link → Link) (h : Hub) : (updLink k f h).free = h.free := rfl

@[simp] theorem updDef_power (d : Nat) (f : CapDef → CapDef) (h : Hub) : (updDef d f h).power = h.power := rfl
@[simp] theorem updDef_flash (d : Nat) (f : CapDef → CapDef) (h : Hub) : (updDef d f h).flash = h.flash := rfl
@[simp] theorem updDef_cfg (d : Nat) (f : CapDef → CapDef) (h : Hub) : (updDef d f h).cfg = h.cfg := rfl
@[simp] theorem updDef_changes (d : Nat) (f : CapDef → CapDef) (h : Hub) : (updDef d f h).changes = h.changes := rfl
@[simp] theorem updDef_staged (d : Nat) (f : CapDef → CapDef) (h : Hub) : (updDef d f h).staged = h.staged := rfl
@[simp] theorem updDef_time (d : Nat) (f : CapDef → CapDef) (h : Hub) : (updDef d f h).time = h.time := rfl
@[simp] theorem updDef_view (d : Nat) (f : CapDef → CapDef) (h : Hub) : (updDef d f h).view = h.view := rfl
@[simp] theorem updDef_chans (d : Nat) (f : CapDef → CapDef) (h : Hub) : (updDef d f h).chans = h.chans := rfl
@[simp] theorem updDef_groups (d : Nat) (f : CapDef → CapDef) (h : Hub) : (updDef d f h).groups = h.groups := rfl
@[simp] theorem updDef_fes (d : Nat) (f : CapDef → CapDef) (h : Hub) : (updDef d f h).fes = h.fes := rfl
@[simp] theorem updDef_tiles (d : Nat) (f : CapDef → CapDef) (h : Hub) : (updDef d f h).tiles = h.tiles := rfl
@[simp] theorem updDef_hk (d : Nat) (f : CapDef → CapDef) (h : Hub) : (updDef d f h).hk = h.hk := rfl
@[simp] theorem updDef_loops (d : Nat) (f : CapDef → CapDef) (h : Hub) : (updDef d f h).loops = h.loops := rfl
@[simp] theorem updDef_frames (d : Nat) (f : CapDef → CapDef) (h : Hub) : (updDef d f h).frames = h.frames := rfl
@[simp] theorem updDef_verdicts (d : Nat) (f : CapDef → CapDef) (h : Hub) : (updDef d f h).verdicts = h.verdicts := rfl
@[simp] theorem updDef_arr (d : Nat) (f : CapDef → CapDef) (h : Hub) : (updDef d f h).arr = h.arr := rfl
@[simp] theorem updDef_jobs (d : Nat) (f : CapDef → CapDef) (h : Hub) : (updDef d f h).jobs = h.jobs := rfl
@[simp] theorem updDef_stream (d : Nat) (f : CapDef → CapDef) (h : Hub) : (updDef d f h).stream = h.stream := rfl
@[simp] theorem updDef_outlets (d : Nat) (f : CapDef → CapDef) (h : Hub) : (updDef d f h).outlets = h.outlets := rfl
@[simp] theorem updDef_lanes (d : Nat) (f : CapDef → CapDef) (h : Hub) : (updDef d f h).lanes = h.lanes := rfl
@[simp] theorem updDef_links (d : Nat) (f : CapDef → CapDef) (h : Hub) : (updDef d f h).links = h.links := rfl
@[simp] theorem updDef_eth (d : Nat) (f : CapDef → CapDef) (h : Hub) : (updDef d f h).eth = h.eth := rfl
@[simp] theorem updDef_pair (d : Nat) (f : CapDef → CapDef) (h : Hub) : (updDef d f h).pair = h.pair := rfl
@[simp] theorem updDef_hbOut (d : Nat) (f : CapDef → CapDef) (h : Hub) : (updDef d f h).hbOut = h.hbOut := rfl
@[simp] theorem updDef_mbx (d : Nat) (f : CapDef → CapDef) (h : Hub) : (updDef d f h).mbx = h.mbx := rfl
@[simp] theorem updDef_fw (d : Nat) (f : CapDef → CapDef) (h : Hub) : (updDef d f h).fw = h.fw := rfl
@[simp] theorem updDef_faults (d : Nat) (f : CapDef → CapDef) (h : Hub) : (updDef d f h).faults = h.faults := rfl
@[simp] theorem updDef_jr (d : Nat) (f : CapDef → CapDef) (h : Hub) : (updDef d f h).jr = h.jr := rfl
@[simp] theorem updDef_windows (d : Nat) (f : CapDef → CapDef) (h : Hub) : (updDef d f h).windows = h.windows := rfl
@[simp] theorem updDef_mem (d : Nat) (f : CapDef → CapDef) (h : Hub) : (updDef d f h).mem = h.mem := rfl
@[simp] theorem updDef_arb (d : Nat) (f : CapDef → CapDef) (h : Hub) : (updDef d f h).arb = h.arb := rfl
@[simp] theorem updDef_out (d : Nat) (f : CapDef → CapDef) (h : Hub) : (updDef d f h).out = h.out := rfl
@[simp] theorem updDef_free (d : Nat) (f : CapDef → CapDef) (h : Hub) : (updDef d f h).free = h.free := rfl

/-! ## Records and messages -/

@[simp] theorem emit_power (r : Rec) (h : Hub) : (emit r h).power = h.power := rfl
@[simp] theorem emit_flash (r : Rec) (h : Hub) : (emit r h).flash = h.flash := rfl
@[simp] theorem emit_cfg (r : Rec) (h : Hub) : (emit r h).cfg = h.cfg := rfl
@[simp] theorem emit_changes (r : Rec) (h : Hub) : (emit r h).changes = h.changes := rfl
@[simp] theorem emit_staged (r : Rec) (h : Hub) : (emit r h).staged = h.staged := rfl
@[simp] theorem emit_time (r : Rec) (h : Hub) : (emit r h).time = h.time := rfl
@[simp] theorem emit_view (r : Rec) (h : Hub) : (emit r h).view = h.view := rfl
@[simp] theorem emit_chans (r : Rec) (h : Hub) : (emit r h).chans = h.chans := rfl
@[simp] theorem emit_groups (r : Rec) (h : Hub) : (emit r h).groups = h.groups := rfl
@[simp] theorem emit_fes (r : Rec) (h : Hub) : (emit r h).fes = h.fes := rfl
@[simp] theorem emit_tiles (r : Rec) (h : Hub) : (emit r h).tiles = h.tiles := rfl
@[simp] theorem emit_hk (r : Rec) (h : Hub) : (emit r h).hk = h.hk := rfl
@[simp] theorem emit_loops (r : Rec) (h : Hub) : (emit r h).loops = h.loops := rfl
@[simp] theorem emit_frames (r : Rec) (h : Hub) : (emit r h).frames = h.frames := rfl
@[simp] theorem emit_verdicts (r : Rec) (h : Hub) : (emit r h).verdicts = h.verdicts := rfl
@[simp] theorem emit_arr (r : Rec) (h : Hub) : (emit r h).arr = h.arr := rfl
@[simp] theorem emit_cap (r : Rec) (h : Hub) : (emit r h).cap = h.cap := rfl
@[simp] theorem emit_jobs (r : Rec) (h : Hub) : (emit r h).jobs = h.jobs := rfl
@[simp] theorem emit_outlets (r : Rec) (h : Hub) : (emit r h).outlets = h.outlets := rfl
@[simp] theorem emit_lanes (r : Rec) (h : Hub) : (emit r h).lanes = h.lanes := rfl
@[simp] theorem emit_links (r : Rec) (h : Hub) : (emit r h).links = h.links := rfl
@[simp] theorem emit_eth (r : Rec) (h : Hub) : (emit r h).eth = h.eth := rfl
@[simp] theorem emit_pair (r : Rec) (h : Hub) : (emit r h).pair = h.pair := rfl
@[simp] theorem emit_hbOut (r : Rec) (h : Hub) : (emit r h).hbOut = h.hbOut := rfl
@[simp] theorem emit_mbx (r : Rec) (h : Hub) : (emit r h).mbx = h.mbx := rfl
@[simp] theorem emit_fw (r : Rec) (h : Hub) : (emit r h).fw = h.fw := rfl
@[simp] theorem emit_faults (r : Rec) (h : Hub) : (emit r h).faults = h.faults := rfl
@[simp] theorem emit_jr (r : Rec) (h : Hub) : (emit r h).jr = h.jr := rfl
@[simp] theorem emit_windows (r : Rec) (h : Hub) : (emit r h).windows = h.windows := rfl
@[simp] theorem emit_mem (r : Rec) (h : Hub) : (emit r h).mem = h.mem := rfl
@[simp] theorem emit_arb (r : Rec) (h : Hub) : (emit r h).arb = h.arb := rfl
@[simp] theorem emit_out (r : Rec) (h : Hub) : (emit r h).out = h.out := rfl
@[simp] theorem emit_free (r : Rec) (h : Hub) : (emit r h).free = h.free := rfl

@[simp] theorem sendOut_power (m : OutMsg) (h : Hub) : (sendOut m h).power = h.power := rfl
@[simp] theorem sendOut_flash (m : OutMsg) (h : Hub) : (sendOut m h).flash = h.flash := rfl
@[simp] theorem sendOut_cfg (m : OutMsg) (h : Hub) : (sendOut m h).cfg = h.cfg := rfl
@[simp] theorem sendOut_changes (m : OutMsg) (h : Hub) : (sendOut m h).changes = h.changes := rfl
@[simp] theorem sendOut_staged (m : OutMsg) (h : Hub) : (sendOut m h).staged = h.staged := rfl
@[simp] theorem sendOut_time (m : OutMsg) (h : Hub) : (sendOut m h).time = h.time := rfl
@[simp] theorem sendOut_view (m : OutMsg) (h : Hub) : (sendOut m h).view = h.view := rfl
@[simp] theorem sendOut_chans (m : OutMsg) (h : Hub) : (sendOut m h).chans = h.chans := rfl
@[simp] theorem sendOut_groups (m : OutMsg) (h : Hub) : (sendOut m h).groups = h.groups := rfl
@[simp] theorem sendOut_fes (m : OutMsg) (h : Hub) : (sendOut m h).fes = h.fes := rfl
@[simp] theorem sendOut_tiles (m : OutMsg) (h : Hub) : (sendOut m h).tiles = h.tiles := rfl
@[simp] theorem sendOut_hk (m : OutMsg) (h : Hub) : (sendOut m h).hk = h.hk := rfl
@[simp] theorem sendOut_loops (m : OutMsg) (h : Hub) : (sendOut m h).loops = h.loops := rfl
@[simp] theorem sendOut_frames (m : OutMsg) (h : Hub) : (sendOut m h).frames = h.frames := rfl
@[simp] theorem sendOut_verdicts (m : OutMsg) (h : Hub) : (sendOut m h).verdicts = h.verdicts := rfl
@[simp] theorem sendOut_arr (m : OutMsg) (h : Hub) : (sendOut m h).arr = h.arr := rfl
@[simp] theorem sendOut_cap (m : OutMsg) (h : Hub) : (sendOut m h).cap = h.cap := rfl
@[simp] theorem sendOut_jobs (m : OutMsg) (h : Hub) : (sendOut m h).jobs = h.jobs := rfl
@[simp] theorem sendOut_stream (m : OutMsg) (h : Hub) : (sendOut m h).stream = h.stream := rfl
@[simp] theorem sendOut_outlets (m : OutMsg) (h : Hub) : (sendOut m h).outlets = h.outlets := rfl
@[simp] theorem sendOut_lanes (m : OutMsg) (h : Hub) : (sendOut m h).lanes = h.lanes := rfl
@[simp] theorem sendOut_links (m : OutMsg) (h : Hub) : (sendOut m h).links = h.links := rfl
@[simp] theorem sendOut_eth (m : OutMsg) (h : Hub) : (sendOut m h).eth = h.eth := rfl
@[simp] theorem sendOut_pair (m : OutMsg) (h : Hub) : (sendOut m h).pair = h.pair := rfl
@[simp] theorem sendOut_hbOut (m : OutMsg) (h : Hub) : (sendOut m h).hbOut = h.hbOut := rfl
@[simp] theorem sendOut_mbx (m : OutMsg) (h : Hub) : (sendOut m h).mbx = h.mbx := rfl
@[simp] theorem sendOut_fw (m : OutMsg) (h : Hub) : (sendOut m h).fw = h.fw := rfl
@[simp] theorem sendOut_faults (m : OutMsg) (h : Hub) : (sendOut m h).faults = h.faults := rfl
@[simp] theorem sendOut_jr (m : OutMsg) (h : Hub) : (sendOut m h).jr = h.jr := rfl
@[simp] theorem sendOut_windows (m : OutMsg) (h : Hub) : (sendOut m h).windows = h.windows := rfl
@[simp] theorem sendOut_mem (m : OutMsg) (h : Hub) : (sendOut m h).mem = h.mem := rfl
@[simp] theorem sendOut_arb (m : OutMsg) (h : Hub) : (sendOut m h).arb = h.arb := rfl
@[simp] theorem sendOut_free (m : OutMsg) (h : Hub) : (sendOut m h).free = h.free := rfl

/-! ## Raises -/

@[simp] theorem enqueueRaise_power (r : Raise) (h : Hub) : (enqueueRaise r h).power = h.power := by
  unfold enqueueRaise; split; rfl; split; rfl; split <;> rfl
@[simp] theorem enqueueRaise_flash (r : Raise) (h : Hub) : (enqueueRaise r h).flash = h.flash := by
  unfold enqueueRaise; split; rfl; split; rfl; split <;> rfl
@[simp] theorem enqueueRaise_cfg (r : Raise) (h : Hub) : (enqueueRaise r h).cfg = h.cfg := by
  unfold enqueueRaise; split; rfl; split; rfl; split <;> rfl
@[simp] theorem enqueueRaise_changes (r : Raise) (h : Hub) : (enqueueRaise r h).changes = h.changes := by
  unfold enqueueRaise; split; rfl; split; rfl; split <;> rfl
@[simp] theorem enqueueRaise_staged (r : Raise) (h : Hub) : (enqueueRaise r h).staged = h.staged := by
  unfold enqueueRaise; split; rfl; split; rfl; split <;> rfl
@[simp] theorem enqueueRaise_time (r : Raise) (h : Hub) : (enqueueRaise r h).time = h.time := by
  unfold enqueueRaise; split; rfl; split; rfl; split <;> rfl
@[simp] theorem enqueueRaise_view (r : Raise) (h : Hub) : (enqueueRaise r h).view = h.view := by
  unfold enqueueRaise; split; rfl; split; rfl; split <;> rfl
@[simp] theorem enqueueRaise_chans (r : Raise) (h : Hub) : (enqueueRaise r h).chans = h.chans := by
  unfold enqueueRaise; split; rfl; split; rfl; split <;> rfl
@[simp] theorem enqueueRaise_groups (r : Raise) (h : Hub) : (enqueueRaise r h).groups = h.groups := by
  unfold enqueueRaise; split; rfl; split; rfl; split <;> rfl
@[simp] theorem enqueueRaise_fes (r : Raise) (h : Hub) : (enqueueRaise r h).fes = h.fes := by
  unfold enqueueRaise; split; rfl; split; rfl; split <;> rfl
@[simp] theorem enqueueRaise_tiles (r : Raise) (h : Hub) : (enqueueRaise r h).tiles = h.tiles := by
  unfold enqueueRaise; split; rfl; split; rfl; split <;> rfl
@[simp] theorem enqueueRaise_hk (r : Raise) (h : Hub) : (enqueueRaise r h).hk = h.hk := by
  unfold enqueueRaise; split; rfl; split; rfl; split <;> rfl
@[simp] theorem enqueueRaise_loops (r : Raise) (h : Hub) : (enqueueRaise r h).loops = h.loops := by
  unfold enqueueRaise; split; rfl; split; rfl; split <;> rfl
@[simp] theorem enqueueRaise_frames (r : Raise) (h : Hub) : (enqueueRaise r h).frames = h.frames := by
  unfold enqueueRaise; split; rfl; split; rfl; split <;> rfl
@[simp] theorem enqueueRaise_verdicts (r : Raise) (h : Hub) : (enqueueRaise r h).verdicts = h.verdicts := by
  unfold enqueueRaise; split; rfl; split; rfl; split <;> rfl
@[simp] theorem enqueueRaise_arr (r : Raise) (h : Hub) : (enqueueRaise r h).arr = h.arr := by
  unfold enqueueRaise; split; rfl; split; rfl; split <;> rfl
@[simp] theorem enqueueRaise_cap (r : Raise) (h : Hub) : (enqueueRaise r h).cap = h.cap := by
  unfold enqueueRaise; split; rfl; split; rfl; split <;> rfl
@[simp] theorem enqueueRaise_jobs (r : Raise) (h : Hub) : (enqueueRaise r h).jobs = h.jobs := by
  unfold enqueueRaise; split; rfl; split; rfl; split <;> rfl
@[simp] theorem enqueueRaise_stream (r : Raise) (h : Hub) : (enqueueRaise r h).stream = h.stream := by
  unfold enqueueRaise; split; rfl; split; rfl; split <;> rfl
@[simp] theorem enqueueRaise_outlets (r : Raise) (h : Hub) : (enqueueRaise r h).outlets = h.outlets := by
  unfold enqueueRaise; split; rfl; split; rfl; split <;> rfl
@[simp] theorem enqueueRaise_lanes (r : Raise) (h : Hub) : (enqueueRaise r h).lanes = h.lanes := by
  unfold enqueueRaise; split; rfl; split; rfl; split <;> rfl
@[simp] theorem enqueueRaise_links (r : Raise) (h : Hub) : (enqueueRaise r h).links = h.links := by
  unfold enqueueRaise; split; rfl; split; rfl; split <;> rfl
@[simp] theorem enqueueRaise_eth (r : Raise) (h : Hub) : (enqueueRaise r h).eth = h.eth := by
  unfold enqueueRaise; split; rfl; split; rfl; split <;> rfl
@[simp] theorem enqueueRaise_pair (r : Raise) (h : Hub) : (enqueueRaise r h).pair = h.pair := by
  unfold enqueueRaise; split; rfl; split; rfl; split <;> rfl
@[simp] theorem enqueueRaise_hbOut (r : Raise) (h : Hub) : (enqueueRaise r h).hbOut = h.hbOut := by
  unfold enqueueRaise; split; rfl; split; rfl; split <;> rfl
@[simp] theorem enqueueRaise_mbx (r : Raise) (h : Hub) : (enqueueRaise r h).mbx = h.mbx := by
  unfold enqueueRaise; split; rfl; split; rfl; split <;> rfl
@[simp] theorem enqueueRaise_fw (r : Raise) (h : Hub) : (enqueueRaise r h).fw = h.fw := by
  unfold enqueueRaise; split; rfl; split; rfl; split <;> rfl
@[simp] theorem enqueueRaise_jr (r : Raise) (h : Hub) : (enqueueRaise r h).jr = h.jr := by
  unfold enqueueRaise; split; rfl; split; rfl; split <;> rfl
@[simp] theorem enqueueRaise_windows (r : Raise) (h : Hub) : (enqueueRaise r h).windows = h.windows := by
  unfold enqueueRaise; split; rfl; split; rfl; split <;> rfl
@[simp] theorem enqueueRaise_mem (r : Raise) (h : Hub) : (enqueueRaise r h).mem = h.mem := by
  unfold enqueueRaise; split; rfl; split; rfl; split <;> rfl
@[simp] theorem enqueueRaise_arb (r : Raise) (h : Hub) : (enqueueRaise r h).arb = h.arb := by
  unfold enqueueRaise; split; rfl; split; rfl; split <;> rfl
@[simp] theorem enqueueRaise_out (r : Raise) (h : Hub) : (enqueueRaise r h).out = h.out := by
  unfold enqueueRaise; split; rfl; split; rfl; split <;> rfl
@[simp] theorem enqueueRaise_free (r : Raise) (h : Hub) : (enqueueRaise r h).free = h.free := by
  unfold enqueueRaise; split; rfl; split; rfl; split <;> rfl

@[simp] theorem holdsAgain_power (source inst : Nat) (h : Hub) : (holdsAgain source inst h).power = h.power := by
  rfl
@[simp] theorem holdsAgain_flash (source inst : Nat) (h : Hub) : (holdsAgain source inst h).flash = h.flash := by
  rfl
@[simp] theorem holdsAgain_cfg (source inst : Nat) (h : Hub) : (holdsAgain source inst h).cfg = h.cfg := by
  rfl
@[simp] theorem holdsAgain_changes (source inst : Nat) (h : Hub) : (holdsAgain source inst h).changes = h.changes := by
  rfl
@[simp] theorem holdsAgain_staged (source inst : Nat) (h : Hub) : (holdsAgain source inst h).staged = h.staged := by
  rfl
@[simp] theorem holdsAgain_time (source inst : Nat) (h : Hub) : (holdsAgain source inst h).time = h.time := by
  rfl
@[simp] theorem holdsAgain_view (source inst : Nat) (h : Hub) : (holdsAgain source inst h).view = h.view := by
  rfl
@[simp] theorem holdsAgain_chans (source inst : Nat) (h : Hub) : (holdsAgain source inst h).chans = h.chans := by
  rfl
@[simp] theorem holdsAgain_groups (source inst : Nat) (h : Hub) : (holdsAgain source inst h).groups = h.groups := by
  rfl
@[simp] theorem holdsAgain_fes (source inst : Nat) (h : Hub) : (holdsAgain source inst h).fes = h.fes := by
  rfl
@[simp] theorem holdsAgain_tiles (source inst : Nat) (h : Hub) : (holdsAgain source inst h).tiles = h.tiles := by
  rfl
@[simp] theorem holdsAgain_hk (source inst : Nat) (h : Hub) : (holdsAgain source inst h).hk = h.hk := by
  rfl
@[simp] theorem holdsAgain_loops (source inst : Nat) (h : Hub) : (holdsAgain source inst h).loops = h.loops := by
  rfl
@[simp] theorem holdsAgain_frames (source inst : Nat) (h : Hub) : (holdsAgain source inst h).frames = h.frames := by
  rfl
@[simp] theorem holdsAgain_verdicts (source inst : Nat) (h : Hub) : (holdsAgain source inst h).verdicts = h.verdicts := by
  rfl
@[simp] theorem holdsAgain_arr (source inst : Nat) (h : Hub) : (holdsAgain source inst h).arr = h.arr := by
  rfl
@[simp] theorem holdsAgain_cap (source inst : Nat) (h : Hub) : (holdsAgain source inst h).cap = h.cap := by
  rfl
@[simp] theorem holdsAgain_jobs (source inst : Nat) (h : Hub) : (holdsAgain source inst h).jobs = h.jobs := by
  rfl
@[simp] theorem holdsAgain_stream (source inst : Nat) (h : Hub) : (holdsAgain source inst h).stream = h.stream := by
  rfl
@[simp] theorem holdsAgain_outlets (source inst : Nat) (h : Hub) : (holdsAgain source inst h).outlets = h.outlets := by
  rfl
@[simp] theorem holdsAgain_lanes (source inst : Nat) (h : Hub) : (holdsAgain source inst h).lanes = h.lanes := by
  rfl
@[simp] theorem holdsAgain_links (source inst : Nat) (h : Hub) : (holdsAgain source inst h).links = h.links := by
  rfl
@[simp] theorem holdsAgain_eth (source inst : Nat) (h : Hub) : (holdsAgain source inst h).eth = h.eth := by
  rfl
@[simp] theorem holdsAgain_pair (source inst : Nat) (h : Hub) : (holdsAgain source inst h).pair = h.pair := by
  rfl
@[simp] theorem holdsAgain_hbOut (source inst : Nat) (h : Hub) : (holdsAgain source inst h).hbOut = h.hbOut := by
  rfl
@[simp] theorem holdsAgain_mbx (source inst : Nat) (h : Hub) : (holdsAgain source inst h).mbx = h.mbx := by
  rfl
@[simp] theorem holdsAgain_fw (source inst : Nat) (h : Hub) : (holdsAgain source inst h).fw = h.fw := by
  rfl
@[simp] theorem holdsAgain_jr (source inst : Nat) (h : Hub) : (holdsAgain source inst h).jr = h.jr := by
  rfl
@[simp] theorem holdsAgain_windows (source inst : Nat) (h : Hub) : (holdsAgain source inst h).windows = h.windows := by
  rfl
@[simp] theorem holdsAgain_mem (source inst : Nat) (h : Hub) : (holdsAgain source inst h).mem = h.mem := by
  rfl
@[simp] theorem holdsAgain_arb (source inst : Nat) (h : Hub) : (holdsAgain source inst h).arb = h.arb := by
  rfl
@[simp] theorem holdsAgain_out (source inst : Nat) (h : Hub) : (holdsAgain source inst h).out = h.out := by
  rfl
@[simp] theorem holdsAgain_free (source inst : Nat) (h : Hub) : (holdsAgain source inst h).free = h.free := by
  rfl

@[simp] theorem noteSwitch_power (r : Raise) (h : Hub) : (noteSwitch r h).power = h.power := by
  unfold noteSwitch; split <;> rfl
@[simp] theorem noteSwitch_flash (r : Raise) (h : Hub) : (noteSwitch r h).flash = h.flash := by
  unfold noteSwitch; split <;> rfl
@[simp] theorem noteSwitch_cfg (r : Raise) (h : Hub) : (noteSwitch r h).cfg = h.cfg := by
  unfold noteSwitch; split <;> rfl
@[simp] theorem noteSwitch_changes (r : Raise) (h : Hub) : (noteSwitch r h).changes = h.changes := by
  unfold noteSwitch; split <;> rfl
@[simp] theorem noteSwitch_staged (r : Raise) (h : Hub) : (noteSwitch r h).staged = h.staged := by
  unfold noteSwitch; split <;> rfl
@[simp] theorem noteSwitch_time (r : Raise) (h : Hub) : (noteSwitch r h).time = h.time := by
  unfold noteSwitch; split <;> rfl
@[simp] theorem noteSwitch_view (r : Raise) (h : Hub) : (noteSwitch r h).view = h.view := by
  unfold noteSwitch; split <;> rfl
@[simp] theorem noteSwitch_chans (r : Raise) (h : Hub) : (noteSwitch r h).chans = h.chans := by
  unfold noteSwitch; split <;> rfl
@[simp] theorem noteSwitch_fes (r : Raise) (h : Hub) : (noteSwitch r h).fes = h.fes := by
  unfold noteSwitch; split <;> rfl
@[simp] theorem noteSwitch_tiles (r : Raise) (h : Hub) : (noteSwitch r h).tiles = h.tiles := by
  unfold noteSwitch; split <;> rfl
@[simp] theorem noteSwitch_hk (r : Raise) (h : Hub) : (noteSwitch r h).hk = h.hk := by
  unfold noteSwitch; split <;> rfl
@[simp] theorem noteSwitch_loops (r : Raise) (h : Hub) : (noteSwitch r h).loops = h.loops := by
  unfold noteSwitch; split <;> rfl
@[simp] theorem noteSwitch_frames (r : Raise) (h : Hub) : (noteSwitch r h).frames = h.frames := by
  unfold noteSwitch; split <;> rfl
@[simp] theorem noteSwitch_verdicts (r : Raise) (h : Hub) : (noteSwitch r h).verdicts = h.verdicts := by
  unfold noteSwitch; split <;> rfl
@[simp] theorem noteSwitch_arr (r : Raise) (h : Hub) : (noteSwitch r h).arr = h.arr := by
  unfold noteSwitch; split <;> rfl
@[simp] theorem noteSwitch_cap (r : Raise) (h : Hub) : (noteSwitch r h).cap = h.cap := by
  unfold noteSwitch; split <;> rfl
@[simp] theorem noteSwitch_jobs (r : Raise) (h : Hub) : (noteSwitch r h).jobs = h.jobs := by
  unfold noteSwitch; split <;> rfl
@[simp] theorem noteSwitch_stream (r : Raise) (h : Hub) : (noteSwitch r h).stream = h.stream := by
  unfold noteSwitch; split <;> rfl
@[simp] theorem noteSwitch_outlets (r : Raise) (h : Hub) : (noteSwitch r h).outlets = h.outlets := by
  unfold noteSwitch; split <;> rfl
@[simp] theorem noteSwitch_lanes (r : Raise) (h : Hub) : (noteSwitch r h).lanes = h.lanes := by
  unfold noteSwitch; split <;> rfl
@[simp] theorem noteSwitch_links (r : Raise) (h : Hub) : (noteSwitch r h).links = h.links := by
  unfold noteSwitch; split <;> rfl
@[simp] theorem noteSwitch_eth (r : Raise) (h : Hub) : (noteSwitch r h).eth = h.eth := by
  unfold noteSwitch; split <;> rfl
@[simp] theorem noteSwitch_pair (r : Raise) (h : Hub) : (noteSwitch r h).pair = h.pair := by
  unfold noteSwitch; split <;> rfl
@[simp] theorem noteSwitch_hbOut (r : Raise) (h : Hub) : (noteSwitch r h).hbOut = h.hbOut := by
  unfold noteSwitch; split <;> rfl
@[simp] theorem noteSwitch_mbx (r : Raise) (h : Hub) : (noteSwitch r h).mbx = h.mbx := by
  unfold noteSwitch; split <;> rfl
@[simp] theorem noteSwitch_fw (r : Raise) (h : Hub) : (noteSwitch r h).fw = h.fw := by
  unfold noteSwitch; split <;> rfl
@[simp] theorem noteSwitch_faults (r : Raise) (h : Hub) : (noteSwitch r h).faults = h.faults := by
  unfold noteSwitch; split <;> rfl
@[simp] theorem noteSwitch_jr (r : Raise) (h : Hub) : (noteSwitch r h).jr = h.jr := by
  unfold noteSwitch; split <;> rfl
@[simp] theorem noteSwitch_windows (r : Raise) (h : Hub) : (noteSwitch r h).windows = h.windows := by
  unfold noteSwitch; split <;> rfl
@[simp] theorem noteSwitch_mem (r : Raise) (h : Hub) : (noteSwitch r h).mem = h.mem := by
  unfold noteSwitch; split <;> rfl
@[simp] theorem noteSwitch_arb (r : Raise) (h : Hub) : (noteSwitch r h).arb = h.arb := by
  unfold noteSwitch; split <;> rfl
@[simp] theorem noteSwitch_out (r : Raise) (h : Hub) : (noteSwitch r h).out = h.out := by
  unfold noteSwitch; split <;> rfl
@[simp] theorem noteSwitch_free (r : Raise) (h : Hub) : (noteSwitch r h).free = h.free := by
  unfold noteSwitch; split <;> rfl

@[simp] theorem raiseFault_power (r : Raise) (once : Bool) (h : Hub) : (raiseFault r once h).power = h.power := by
  unfold raiseFault; split
  · dsimp only; split <;> split <;> simp
  · simp
@[simp] theorem raiseFault_flash (r : Raise) (once : Bool) (h : Hub) : (raiseFault r once h).flash = h.flash := by
  unfold raiseFault; split
  · dsimp only; split <;> split <;> simp
  · simp
@[simp] theorem raiseFault_cfg (r : Raise) (once : Bool) (h : Hub) : (raiseFault r once h).cfg = h.cfg := by
  unfold raiseFault; split
  · dsimp only; split <;> split <;> simp
  · simp
@[simp] theorem raiseFault_changes (r : Raise) (once : Bool) (h : Hub) : (raiseFault r once h).changes = h.changes := by
  unfold raiseFault; split
  · dsimp only; split <;> split <;> simp
  · simp
@[simp] theorem raiseFault_staged (r : Raise) (once : Bool) (h : Hub) : (raiseFault r once h).staged = h.staged := by
  unfold raiseFault; split
  · dsimp only; split <;> split <;> simp
  · simp
@[simp] theorem raiseFault_time (r : Raise) (once : Bool) (h : Hub) : (raiseFault r once h).time = h.time := by
  unfold raiseFault; split
  · dsimp only; split <;> split <;> simp
  · simp
@[simp] theorem raiseFault_view (r : Raise) (once : Bool) (h : Hub) : (raiseFault r once h).view = h.view := by
  unfold raiseFault; split
  · dsimp only; split <;> split <;> simp
  · simp
@[simp] theorem raiseFault_chans (r : Raise) (once : Bool) (h : Hub) : (raiseFault r once h).chans = h.chans := by
  unfold raiseFault; split
  · dsimp only; split <;> split <;> simp
  · simp
@[simp] theorem raiseFault_fes (r : Raise) (once : Bool) (h : Hub) : (raiseFault r once h).fes = h.fes := by
  unfold raiseFault; split
  · dsimp only; split <;> split <;> simp
  · simp
@[simp] theorem raiseFault_tiles (r : Raise) (once : Bool) (h : Hub) : (raiseFault r once h).tiles = h.tiles := by
  unfold raiseFault; split
  · dsimp only; split <;> split <;> simp
  · simp
@[simp] theorem raiseFault_hk (r : Raise) (once : Bool) (h : Hub) : (raiseFault r once h).hk = h.hk := by
  unfold raiseFault; split
  · dsimp only; split <;> split <;> simp
  · simp
@[simp] theorem raiseFault_loops (r : Raise) (once : Bool) (h : Hub) : (raiseFault r once h).loops = h.loops := by
  unfold raiseFault; split
  · dsimp only; split <;> split <;> simp
  · simp
@[simp] theorem raiseFault_frames (r : Raise) (once : Bool) (h : Hub) : (raiseFault r once h).frames = h.frames := by
  unfold raiseFault; split
  · dsimp only; split <;> split <;> simp
  · simp
@[simp] theorem raiseFault_verdicts (r : Raise) (once : Bool) (h : Hub) : (raiseFault r once h).verdicts = h.verdicts := by
  unfold raiseFault; split
  · dsimp only; split <;> split <;> simp
  · simp
@[simp] theorem raiseFault_arr (r : Raise) (once : Bool) (h : Hub) : (raiseFault r once h).arr = h.arr := by
  unfold raiseFault; split
  · dsimp only; split <;> split <;> simp
  · simp
@[simp] theorem raiseFault_cap (r : Raise) (once : Bool) (h : Hub) : (raiseFault r once h).cap = h.cap := by
  unfold raiseFault; split
  · dsimp only; split <;> split <;> simp
  · simp
@[simp] theorem raiseFault_jobs (r : Raise) (once : Bool) (h : Hub) : (raiseFault r once h).jobs = h.jobs := by
  unfold raiseFault; split
  · dsimp only; split <;> split <;> simp
  · simp
@[simp] theorem raiseFault_stream (r : Raise) (once : Bool) (h : Hub) : (raiseFault r once h).stream = h.stream := by
  unfold raiseFault; split
  · dsimp only; split <;> split <;> simp
  · simp
@[simp] theorem raiseFault_outlets (r : Raise) (once : Bool) (h : Hub) : (raiseFault r once h).outlets = h.outlets := by
  unfold raiseFault; split
  · dsimp only; split <;> split <;> simp
  · simp
@[simp] theorem raiseFault_lanes (r : Raise) (once : Bool) (h : Hub) : (raiseFault r once h).lanes = h.lanes := by
  unfold raiseFault; split
  · dsimp only; split <;> split <;> simp
  · simp
@[simp] theorem raiseFault_links (r : Raise) (once : Bool) (h : Hub) : (raiseFault r once h).links = h.links := by
  unfold raiseFault; split
  · dsimp only; split <;> split <;> simp
  · simp
@[simp] theorem raiseFault_eth (r : Raise) (once : Bool) (h : Hub) : (raiseFault r once h).eth = h.eth := by
  unfold raiseFault; split
  · dsimp only; split <;> split <;> simp
  · simp
@[simp] theorem raiseFault_pair (r : Raise) (once : Bool) (h : Hub) : (raiseFault r once h).pair = h.pair := by
  unfold raiseFault; split
  · dsimp only; split <;> split <;> simp
  · simp
@[simp] theorem raiseFault_hbOut (r : Raise) (once : Bool) (h : Hub) : (raiseFault r once h).hbOut = h.hbOut := by
  unfold raiseFault; split
  · dsimp only; split <;> split <;> simp
  · simp
@[simp] theorem raiseFault_mbx (r : Raise) (once : Bool) (h : Hub) : (raiseFault r once h).mbx = h.mbx := by
  unfold raiseFault; split
  · dsimp only; split <;> split <;> simp
  · simp
@[simp] theorem raiseFault_fw (r : Raise) (once : Bool) (h : Hub) : (raiseFault r once h).fw = h.fw := by
  unfold raiseFault; split
  · dsimp only; split <;> split <;> simp
  · simp
@[simp] theorem raiseFault_jr (r : Raise) (once : Bool) (h : Hub) : (raiseFault r once h).jr = h.jr := by
  unfold raiseFault; split
  · dsimp only; split <;> split <;> simp
  · simp
@[simp] theorem raiseFault_windows (r : Raise) (once : Bool) (h : Hub) : (raiseFault r once h).windows = h.windows := by
  unfold raiseFault; split
  · dsimp only; split <;> split <;> simp
  · simp
@[simp] theorem raiseFault_mem (r : Raise) (once : Bool) (h : Hub) : (raiseFault r once h).mem = h.mem := by
  unfold raiseFault; split
  · dsimp only; split <;> split <;> simp
  · simp
@[simp] theorem raiseFault_arb (r : Raise) (once : Bool) (h : Hub) : (raiseFault r once h).arb = h.arb := by
  unfold raiseFault; split
  · dsimp only; split <;> split <;> simp
  · simp
@[simp] theorem raiseFault_out (r : Raise) (once : Bool) (h : Hub) : (raiseFault r once h).out = h.out := by
  unfold raiseFault; split
  · dsimp only; split <;> split <;> simp
  · simp
@[simp] theorem raiseFault_free (r : Raise) (once : Bool) (h : Hub) : (raiseFault r once h).free = h.free := by
  unfold raiseFault; split
  · dsimp only; split <;> split <;> simp
  · simp

@[simp] theorem raiseNow_power (source inst sub : Nat) (detail : BitVec 64) (h : Hub) : (raiseNow source inst sub detail h).power = h.power := by
  exact raiseFault_power _ _ _
@[simp] theorem raiseNow_flash (source inst sub : Nat) (detail : BitVec 64) (h : Hub) : (raiseNow source inst sub detail h).flash = h.flash := by
  exact raiseFault_flash _ _ _
@[simp] theorem raiseNow_cfg (source inst sub : Nat) (detail : BitVec 64) (h : Hub) : (raiseNow source inst sub detail h).cfg = h.cfg := by
  exact raiseFault_cfg _ _ _
@[simp] theorem raiseNow_changes (source inst sub : Nat) (detail : BitVec 64) (h : Hub) : (raiseNow source inst sub detail h).changes = h.changes := by
  exact raiseFault_changes _ _ _
@[simp] theorem raiseNow_staged (source inst sub : Nat) (detail : BitVec 64) (h : Hub) : (raiseNow source inst sub detail h).staged = h.staged := by
  exact raiseFault_staged _ _ _
@[simp] theorem raiseNow_time (source inst sub : Nat) (detail : BitVec 64) (h : Hub) : (raiseNow source inst sub detail h).time = h.time := by
  exact raiseFault_time _ _ _
@[simp] theorem raiseNow_view (source inst sub : Nat) (detail : BitVec 64) (h : Hub) : (raiseNow source inst sub detail h).view = h.view := by
  exact raiseFault_view _ _ _
@[simp] theorem raiseNow_chans (source inst sub : Nat) (detail : BitVec 64) (h : Hub) : (raiseNow source inst sub detail h).chans = h.chans := by
  exact raiseFault_chans _ _ _
@[simp] theorem raiseNow_fes (source inst sub : Nat) (detail : BitVec 64) (h : Hub) : (raiseNow source inst sub detail h).fes = h.fes := by
  exact raiseFault_fes _ _ _
@[simp] theorem raiseNow_tiles (source inst sub : Nat) (detail : BitVec 64) (h : Hub) : (raiseNow source inst sub detail h).tiles = h.tiles := by
  exact raiseFault_tiles _ _ _
@[simp] theorem raiseNow_hk (source inst sub : Nat) (detail : BitVec 64) (h : Hub) : (raiseNow source inst sub detail h).hk = h.hk := by
  exact raiseFault_hk _ _ _
@[simp] theorem raiseNow_loops (source inst sub : Nat) (detail : BitVec 64) (h : Hub) : (raiseNow source inst sub detail h).loops = h.loops := by
  exact raiseFault_loops _ _ _
@[simp] theorem raiseNow_frames (source inst sub : Nat) (detail : BitVec 64) (h : Hub) : (raiseNow source inst sub detail h).frames = h.frames := by
  exact raiseFault_frames _ _ _
@[simp] theorem raiseNow_verdicts (source inst sub : Nat) (detail : BitVec 64) (h : Hub) : (raiseNow source inst sub detail h).verdicts = h.verdicts := by
  exact raiseFault_verdicts _ _ _
@[simp] theorem raiseNow_arr (source inst sub : Nat) (detail : BitVec 64) (h : Hub) : (raiseNow source inst sub detail h).arr = h.arr := by
  exact raiseFault_arr _ _ _
@[simp] theorem raiseNow_cap (source inst sub : Nat) (detail : BitVec 64) (h : Hub) : (raiseNow source inst sub detail h).cap = h.cap := by
  exact raiseFault_cap _ _ _
@[simp] theorem raiseNow_jobs (source inst sub : Nat) (detail : BitVec 64) (h : Hub) : (raiseNow source inst sub detail h).jobs = h.jobs := by
  exact raiseFault_jobs _ _ _
@[simp] theorem raiseNow_stream (source inst sub : Nat) (detail : BitVec 64) (h : Hub) : (raiseNow source inst sub detail h).stream = h.stream := by
  exact raiseFault_stream _ _ _
@[simp] theorem raiseNow_outlets (source inst sub : Nat) (detail : BitVec 64) (h : Hub) : (raiseNow source inst sub detail h).outlets = h.outlets := by
  exact raiseFault_outlets _ _ _
@[simp] theorem raiseNow_lanes (source inst sub : Nat) (detail : BitVec 64) (h : Hub) : (raiseNow source inst sub detail h).lanes = h.lanes := by
  exact raiseFault_lanes _ _ _
@[simp] theorem raiseNow_links (source inst sub : Nat) (detail : BitVec 64) (h : Hub) : (raiseNow source inst sub detail h).links = h.links := by
  exact raiseFault_links _ _ _
@[simp] theorem raiseNow_eth (source inst sub : Nat) (detail : BitVec 64) (h : Hub) : (raiseNow source inst sub detail h).eth = h.eth := by
  exact raiseFault_eth _ _ _
@[simp] theorem raiseNow_pair (source inst sub : Nat) (detail : BitVec 64) (h : Hub) : (raiseNow source inst sub detail h).pair = h.pair := by
  exact raiseFault_pair _ _ _
@[simp] theorem raiseNow_hbOut (source inst sub : Nat) (detail : BitVec 64) (h : Hub) : (raiseNow source inst sub detail h).hbOut = h.hbOut := by
  exact raiseFault_hbOut _ _ _
@[simp] theorem raiseNow_mbx (source inst sub : Nat) (detail : BitVec 64) (h : Hub) : (raiseNow source inst sub detail h).mbx = h.mbx := by
  exact raiseFault_mbx _ _ _
@[simp] theorem raiseNow_fw (source inst sub : Nat) (detail : BitVec 64) (h : Hub) : (raiseNow source inst sub detail h).fw = h.fw := by
  exact raiseFault_fw _ _ _
@[simp] theorem raiseNow_jr (source inst sub : Nat) (detail : BitVec 64) (h : Hub) : (raiseNow source inst sub detail h).jr = h.jr := by
  exact raiseFault_jr _ _ _
@[simp] theorem raiseNow_windows (source inst sub : Nat) (detail : BitVec 64) (h : Hub) : (raiseNow source inst sub detail h).windows = h.windows := by
  exact raiseFault_windows _ _ _
@[simp] theorem raiseNow_mem (source inst sub : Nat) (detail : BitVec 64) (h : Hub) : (raiseNow source inst sub detail h).mem = h.mem := by
  exact raiseFault_mem _ _ _
@[simp] theorem raiseNow_arb (source inst sub : Nat) (detail : BitVec 64) (h : Hub) : (raiseNow source inst sub detail h).arb = h.arb := by
  exact raiseFault_arb _ _ _
@[simp] theorem raiseNow_out (source inst sub : Nat) (detail : BitVec 64) (h : Hub) : (raiseNow source inst sub detail h).out = h.out := by
  exact raiseFault_out _ _ _
@[simp] theorem raiseNow_free (source inst sub : Nat) (detail : BitVec 64) (h : Hub) : (raiseNow source inst sub detail h).free = h.free := by
  exact raiseFault_free _ _ _

@[simp] theorem raiseHeld_power (source inst : Nat) (start capture : Inst) (detail : BitVec 64) (h : Hub) : (raiseHeld source inst start capture detail h).power = h.power := by
  exact raiseFault_power _ _ _
@[simp] theorem raiseHeld_flash (source inst : Nat) (start capture : Inst) (detail : BitVec 64) (h : Hub) : (raiseHeld source inst start capture detail h).flash = h.flash := by
  exact raiseFault_flash _ _ _
@[simp] theorem raiseHeld_cfg (source inst : Nat) (start capture : Inst) (detail : BitVec 64) (h : Hub) : (raiseHeld source inst start capture detail h).cfg = h.cfg := by
  exact raiseFault_cfg _ _ _
@[simp] theorem raiseHeld_changes (source inst : Nat) (start capture : Inst) (detail : BitVec 64) (h : Hub) : (raiseHeld source inst start capture detail h).changes = h.changes := by
  exact raiseFault_changes _ _ _
@[simp] theorem raiseHeld_staged (source inst : Nat) (start capture : Inst) (detail : BitVec 64) (h : Hub) : (raiseHeld source inst start capture detail h).staged = h.staged := by
  exact raiseFault_staged _ _ _
@[simp] theorem raiseHeld_time (source inst : Nat) (start capture : Inst) (detail : BitVec 64) (h : Hub) : (raiseHeld source inst start capture detail h).time = h.time := by
  exact raiseFault_time _ _ _
@[simp] theorem raiseHeld_view (source inst : Nat) (start capture : Inst) (detail : BitVec 64) (h : Hub) : (raiseHeld source inst start capture detail h).view = h.view := by
  exact raiseFault_view _ _ _
@[simp] theorem raiseHeld_chans (source inst : Nat) (start capture : Inst) (detail : BitVec 64) (h : Hub) : (raiseHeld source inst start capture detail h).chans = h.chans := by
  exact raiseFault_chans _ _ _
@[simp] theorem raiseHeld_fes (source inst : Nat) (start capture : Inst) (detail : BitVec 64) (h : Hub) : (raiseHeld source inst start capture detail h).fes = h.fes := by
  exact raiseFault_fes _ _ _
@[simp] theorem raiseHeld_tiles (source inst : Nat) (start capture : Inst) (detail : BitVec 64) (h : Hub) : (raiseHeld source inst start capture detail h).tiles = h.tiles := by
  exact raiseFault_tiles _ _ _
@[simp] theorem raiseHeld_hk (source inst : Nat) (start capture : Inst) (detail : BitVec 64) (h : Hub) : (raiseHeld source inst start capture detail h).hk = h.hk := by
  exact raiseFault_hk _ _ _
@[simp] theorem raiseHeld_loops (source inst : Nat) (start capture : Inst) (detail : BitVec 64) (h : Hub) : (raiseHeld source inst start capture detail h).loops = h.loops := by
  exact raiseFault_loops _ _ _
@[simp] theorem raiseHeld_frames (source inst : Nat) (start capture : Inst) (detail : BitVec 64) (h : Hub) : (raiseHeld source inst start capture detail h).frames = h.frames := by
  exact raiseFault_frames _ _ _
@[simp] theorem raiseHeld_verdicts (source inst : Nat) (start capture : Inst) (detail : BitVec 64) (h : Hub) : (raiseHeld source inst start capture detail h).verdicts = h.verdicts := by
  exact raiseFault_verdicts _ _ _
@[simp] theorem raiseHeld_arr (source inst : Nat) (start capture : Inst) (detail : BitVec 64) (h : Hub) : (raiseHeld source inst start capture detail h).arr = h.arr := by
  exact raiseFault_arr _ _ _
@[simp] theorem raiseHeld_cap (source inst : Nat) (start capture : Inst) (detail : BitVec 64) (h : Hub) : (raiseHeld source inst start capture detail h).cap = h.cap := by
  exact raiseFault_cap _ _ _
@[simp] theorem raiseHeld_jobs (source inst : Nat) (start capture : Inst) (detail : BitVec 64) (h : Hub) : (raiseHeld source inst start capture detail h).jobs = h.jobs := by
  exact raiseFault_jobs _ _ _
@[simp] theorem raiseHeld_stream (source inst : Nat) (start capture : Inst) (detail : BitVec 64) (h : Hub) : (raiseHeld source inst start capture detail h).stream = h.stream := by
  exact raiseFault_stream _ _ _
@[simp] theorem raiseHeld_outlets (source inst : Nat) (start capture : Inst) (detail : BitVec 64) (h : Hub) : (raiseHeld source inst start capture detail h).outlets = h.outlets := by
  exact raiseFault_outlets _ _ _
@[simp] theorem raiseHeld_lanes (source inst : Nat) (start capture : Inst) (detail : BitVec 64) (h : Hub) : (raiseHeld source inst start capture detail h).lanes = h.lanes := by
  exact raiseFault_lanes _ _ _
@[simp] theorem raiseHeld_links (source inst : Nat) (start capture : Inst) (detail : BitVec 64) (h : Hub) : (raiseHeld source inst start capture detail h).links = h.links := by
  exact raiseFault_links _ _ _
@[simp] theorem raiseHeld_eth (source inst : Nat) (start capture : Inst) (detail : BitVec 64) (h : Hub) : (raiseHeld source inst start capture detail h).eth = h.eth := by
  exact raiseFault_eth _ _ _
@[simp] theorem raiseHeld_pair (source inst : Nat) (start capture : Inst) (detail : BitVec 64) (h : Hub) : (raiseHeld source inst start capture detail h).pair = h.pair := by
  exact raiseFault_pair _ _ _
@[simp] theorem raiseHeld_hbOut (source inst : Nat) (start capture : Inst) (detail : BitVec 64) (h : Hub) : (raiseHeld source inst start capture detail h).hbOut = h.hbOut := by
  exact raiseFault_hbOut _ _ _
@[simp] theorem raiseHeld_mbx (source inst : Nat) (start capture : Inst) (detail : BitVec 64) (h : Hub) : (raiseHeld source inst start capture detail h).mbx = h.mbx := by
  exact raiseFault_mbx _ _ _
@[simp] theorem raiseHeld_fw (source inst : Nat) (start capture : Inst) (detail : BitVec 64) (h : Hub) : (raiseHeld source inst start capture detail h).fw = h.fw := by
  exact raiseFault_fw _ _ _
@[simp] theorem raiseHeld_jr (source inst : Nat) (start capture : Inst) (detail : BitVec 64) (h : Hub) : (raiseHeld source inst start capture detail h).jr = h.jr := by
  exact raiseFault_jr _ _ _
@[simp] theorem raiseHeld_windows (source inst : Nat) (start capture : Inst) (detail : BitVec 64) (h : Hub) : (raiseHeld source inst start capture detail h).windows = h.windows := by
  exact raiseFault_windows _ _ _
@[simp] theorem raiseHeld_mem (source inst : Nat) (start capture : Inst) (detail : BitVec 64) (h : Hub) : (raiseHeld source inst start capture detail h).mem = h.mem := by
  exact raiseFault_mem _ _ _
@[simp] theorem raiseHeld_arb (source inst : Nat) (start capture : Inst) (detail : BitVec 64) (h : Hub) : (raiseHeld source inst start capture detail h).arb = h.arb := by
  exact raiseFault_arb _ _ _
@[simp] theorem raiseHeld_out (source inst : Nat) (start capture : Inst) (detail : BitVec 64) (h : Hub) : (raiseHeld source inst start capture detail h).out = h.out := by
  exact raiseFault_out _ _ _
@[simp] theorem raiseHeld_free (source inst : Nat) (start capture : Inst) (detail : BitVec 64) (h : Hub) : (raiseHeld source inst start capture detail h).free = h.free := by
  exact raiseFault_free _ _ _

@[simp] theorem clearOcc_power (source inst : Nat) (at_ : Inst) (h : Hub) : (clearOcc source inst at_ h).power = h.power := by
  unfold clearOcc; split <;> rfl
@[simp] theorem clearOcc_flash (source inst : Nat) (at_ : Inst) (h : Hub) : (clearOcc source inst at_ h).flash = h.flash := by
  unfold clearOcc; split <;> rfl
@[simp] theorem clearOcc_cfg (source inst : Nat) (at_ : Inst) (h : Hub) : (clearOcc source inst at_ h).cfg = h.cfg := by
  unfold clearOcc; split <;> rfl
@[simp] theorem clearOcc_changes (source inst : Nat) (at_ : Inst) (h : Hub) : (clearOcc source inst at_ h).changes = h.changes := by
  unfold clearOcc; split <;> rfl
@[simp] theorem clearOcc_staged (source inst : Nat) (at_ : Inst) (h : Hub) : (clearOcc source inst at_ h).staged = h.staged := by
  unfold clearOcc; split <;> rfl
@[simp] theorem clearOcc_time (source inst : Nat) (at_ : Inst) (h : Hub) : (clearOcc source inst at_ h).time = h.time := by
  unfold clearOcc; split <;> rfl
@[simp] theorem clearOcc_view (source inst : Nat) (at_ : Inst) (h : Hub) : (clearOcc source inst at_ h).view = h.view := by
  unfold clearOcc; split <;> rfl
@[simp] theorem clearOcc_chans (source inst : Nat) (at_ : Inst) (h : Hub) : (clearOcc source inst at_ h).chans = h.chans := by
  unfold clearOcc; split <;> rfl
@[simp] theorem clearOcc_groups (source inst : Nat) (at_ : Inst) (h : Hub) : (clearOcc source inst at_ h).groups = h.groups := by
  unfold clearOcc; split <;> rfl
@[simp] theorem clearOcc_fes (source inst : Nat) (at_ : Inst) (h : Hub) : (clearOcc source inst at_ h).fes = h.fes := by
  unfold clearOcc; split <;> rfl
@[simp] theorem clearOcc_tiles (source inst : Nat) (at_ : Inst) (h : Hub) : (clearOcc source inst at_ h).tiles = h.tiles := by
  unfold clearOcc; split <;> rfl
@[simp] theorem clearOcc_hk (source inst : Nat) (at_ : Inst) (h : Hub) : (clearOcc source inst at_ h).hk = h.hk := by
  unfold clearOcc; split <;> rfl
@[simp] theorem clearOcc_loops (source inst : Nat) (at_ : Inst) (h : Hub) : (clearOcc source inst at_ h).loops = h.loops := by
  unfold clearOcc; split <;> rfl
@[simp] theorem clearOcc_frames (source inst : Nat) (at_ : Inst) (h : Hub) : (clearOcc source inst at_ h).frames = h.frames := by
  unfold clearOcc; split <;> rfl
@[simp] theorem clearOcc_verdicts (source inst : Nat) (at_ : Inst) (h : Hub) : (clearOcc source inst at_ h).verdicts = h.verdicts := by
  unfold clearOcc; split <;> rfl
@[simp] theorem clearOcc_arr (source inst : Nat) (at_ : Inst) (h : Hub) : (clearOcc source inst at_ h).arr = h.arr := by
  unfold clearOcc; split <;> rfl
@[simp] theorem clearOcc_cap (source inst : Nat) (at_ : Inst) (h : Hub) : (clearOcc source inst at_ h).cap = h.cap := by
  unfold clearOcc; split <;> rfl
@[simp] theorem clearOcc_jobs (source inst : Nat) (at_ : Inst) (h : Hub) : (clearOcc source inst at_ h).jobs = h.jobs := by
  unfold clearOcc; split <;> rfl
@[simp] theorem clearOcc_stream (source inst : Nat) (at_ : Inst) (h : Hub) : (clearOcc source inst at_ h).stream = h.stream := by
  unfold clearOcc; split <;> rfl
@[simp] theorem clearOcc_outlets (source inst : Nat) (at_ : Inst) (h : Hub) : (clearOcc source inst at_ h).outlets = h.outlets := by
  unfold clearOcc; split <;> rfl
@[simp] theorem clearOcc_lanes (source inst : Nat) (at_ : Inst) (h : Hub) : (clearOcc source inst at_ h).lanes = h.lanes := by
  unfold clearOcc; split <;> rfl
@[simp] theorem clearOcc_links (source inst : Nat) (at_ : Inst) (h : Hub) : (clearOcc source inst at_ h).links = h.links := by
  unfold clearOcc; split <;> rfl
@[simp] theorem clearOcc_eth (source inst : Nat) (at_ : Inst) (h : Hub) : (clearOcc source inst at_ h).eth = h.eth := by
  unfold clearOcc; split <;> rfl
@[simp] theorem clearOcc_pair (source inst : Nat) (at_ : Inst) (h : Hub) : (clearOcc source inst at_ h).pair = h.pair := by
  unfold clearOcc; split <;> rfl
@[simp] theorem clearOcc_hbOut (source inst : Nat) (at_ : Inst) (h : Hub) : (clearOcc source inst at_ h).hbOut = h.hbOut := by
  unfold clearOcc; split <;> rfl
@[simp] theorem clearOcc_mbx (source inst : Nat) (at_ : Inst) (h : Hub) : (clearOcc source inst at_ h).mbx = h.mbx := by
  unfold clearOcc; split <;> rfl
@[simp] theorem clearOcc_fw (source inst : Nat) (at_ : Inst) (h : Hub) : (clearOcc source inst at_ h).fw = h.fw := by
  unfold clearOcc; split <;> rfl
@[simp] theorem clearOcc_jr (source inst : Nat) (at_ : Inst) (h : Hub) : (clearOcc source inst at_ h).jr = h.jr := by
  unfold clearOcc; split <;> rfl
@[simp] theorem clearOcc_windows (source inst : Nat) (at_ : Inst) (h : Hub) : (clearOcc source inst at_ h).windows = h.windows := by
  unfold clearOcc; split <;> rfl
@[simp] theorem clearOcc_mem (source inst : Nat) (at_ : Inst) (h : Hub) : (clearOcc source inst at_ h).mem = h.mem := by
  unfold clearOcc; split <;> rfl
@[simp] theorem clearOcc_arb (source inst : Nat) (at_ : Inst) (h : Hub) : (clearOcc source inst at_ h).arb = h.arb := by
  unfold clearOcc; split <;> rfl
@[simp] theorem clearOcc_out (source inst : Nat) (at_ : Inst) (h : Hub) : (clearOcc source inst at_ h).out = h.out := by
  unfold clearOcc; split <;> rfl
@[simp] theorem clearOcc_free (source inst : Nat) (at_ : Inst) (h : Hub) : (clearOcc source inst at_ h).free = h.free := by
  unfold clearOcc; split <;> rfl

/-! ## The journal -/

@[simp] theorem eraseSector_power (n : Nat) (h : Hub) : (eraseSector n h).power = h.power := by
  rfl
@[simp] theorem eraseSector_cfg (n : Nat) (h : Hub) : (eraseSector n h).cfg = h.cfg := by
  rfl
@[simp] theorem eraseSector_changes (n : Nat) (h : Hub) : (eraseSector n h).changes = h.changes := by
  rfl
@[simp] theorem eraseSector_staged (n : Nat) (h : Hub) : (eraseSector n h).staged = h.staged := by
  rfl
@[simp] theorem eraseSector_time (n : Nat) (h : Hub) : (eraseSector n h).time = h.time := by
  rfl
@[simp] theorem eraseSector_view (n : Nat) (h : Hub) : (eraseSector n h).view = h.view := by
  rfl
@[simp] theorem eraseSector_chans (n : Nat) (h : Hub) : (eraseSector n h).chans = h.chans := by
  rfl
@[simp] theorem eraseSector_groups (n : Nat) (h : Hub) : (eraseSector n h).groups = h.groups := by
  rfl
@[simp] theorem eraseSector_fes (n : Nat) (h : Hub) : (eraseSector n h).fes = h.fes := by
  rfl
@[simp] theorem eraseSector_tiles (n : Nat) (h : Hub) : (eraseSector n h).tiles = h.tiles := by
  rfl
@[simp] theorem eraseSector_hk (n : Nat) (h : Hub) : (eraseSector n h).hk = h.hk := by
  rfl
@[simp] theorem eraseSector_loops (n : Nat) (h : Hub) : (eraseSector n h).loops = h.loops := by
  rfl
@[simp] theorem eraseSector_frames (n : Nat) (h : Hub) : (eraseSector n h).frames = h.frames := by
  rfl
@[simp] theorem eraseSector_verdicts (n : Nat) (h : Hub) : (eraseSector n h).verdicts = h.verdicts := by
  rfl
@[simp] theorem eraseSector_arr (n : Nat) (h : Hub) : (eraseSector n h).arr = h.arr := by
  rfl
@[simp] theorem eraseSector_cap (n : Nat) (h : Hub) : (eraseSector n h).cap = h.cap := by
  rfl
@[simp] theorem eraseSector_jobs (n : Nat) (h : Hub) : (eraseSector n h).jobs = h.jobs := by
  rfl
@[simp] theorem eraseSector_stream (n : Nat) (h : Hub) : (eraseSector n h).stream = h.stream := by
  rfl
@[simp] theorem eraseSector_outlets (n : Nat) (h : Hub) : (eraseSector n h).outlets = h.outlets := by
  rfl
@[simp] theorem eraseSector_lanes (n : Nat) (h : Hub) : (eraseSector n h).lanes = h.lanes := by
  rfl
@[simp] theorem eraseSector_links (n : Nat) (h : Hub) : (eraseSector n h).links = h.links := by
  rfl
@[simp] theorem eraseSector_eth (n : Nat) (h : Hub) : (eraseSector n h).eth = h.eth := by
  rfl
@[simp] theorem eraseSector_pair (n : Nat) (h : Hub) : (eraseSector n h).pair = h.pair := by
  rfl
@[simp] theorem eraseSector_hbOut (n : Nat) (h : Hub) : (eraseSector n h).hbOut = h.hbOut := by
  rfl
@[simp] theorem eraseSector_mbx (n : Nat) (h : Hub) : (eraseSector n h).mbx = h.mbx := by
  rfl
@[simp] theorem eraseSector_fw (n : Nat) (h : Hub) : (eraseSector n h).fw = h.fw := by
  rfl
@[simp] theorem eraseSector_faults (n : Nat) (h : Hub) : (eraseSector n h).faults = h.faults := by
  rfl
@[simp] theorem eraseSector_mem (n : Nat) (h : Hub) : (eraseSector n h).mem = h.mem := by
  rfl
@[simp] theorem eraseSector_arb (n : Nat) (h : Hub) : (eraseSector n h).arb = h.arb := by
  rfl
@[simp] theorem eraseSector_out (n : Nat) (h : Hub) : (eraseSector n h).out = h.out := by
  rfl
@[simp] theorem eraseSector_free (n : Nat) (h : Hub) : (eraseSector n h).free = h.free := by
  rfl

@[simp] theorem programOne_power (h : Hub) : (programOne h).power = h.power := by
  unfold programOne; split; rfl; dsimp only; split; rfl; exact eraseSector_power _ _
@[simp] theorem programOne_cfg (h : Hub) : (programOne h).cfg = h.cfg := by
  unfold programOne; split; rfl; dsimp only; split; rfl; exact eraseSector_cfg _ _
@[simp] theorem programOne_changes (h : Hub) : (programOne h).changes = h.changes := by
  unfold programOne; split; rfl; dsimp only; split; rfl; exact eraseSector_changes _ _
@[simp] theorem programOne_staged (h : Hub) : (programOne h).staged = h.staged := by
  unfold programOne; split; rfl; dsimp only; split; rfl; exact eraseSector_staged _ _
@[simp] theorem programOne_time (h : Hub) : (programOne h).time = h.time := by
  unfold programOne; split; rfl; dsimp only; split; rfl; exact eraseSector_time _ _
@[simp] theorem programOne_view (h : Hub) : (programOne h).view = h.view := by
  unfold programOne; split; rfl; dsimp only; split; rfl; exact eraseSector_view _ _
@[simp] theorem programOne_chans (h : Hub) : (programOne h).chans = h.chans := by
  unfold programOne; split; rfl; dsimp only; split; rfl; exact eraseSector_chans _ _
@[simp] theorem programOne_groups (h : Hub) : (programOne h).groups = h.groups := by
  unfold programOne; split; rfl; dsimp only; split; rfl; exact eraseSector_groups _ _
@[simp] theorem programOne_fes (h : Hub) : (programOne h).fes = h.fes := by
  unfold programOne; split; rfl; dsimp only; split; rfl; exact eraseSector_fes _ _
@[simp] theorem programOne_tiles (h : Hub) : (programOne h).tiles = h.tiles := by
  unfold programOne; split; rfl; dsimp only; split; rfl; exact eraseSector_tiles _ _
@[simp] theorem programOne_hk (h : Hub) : (programOne h).hk = h.hk := by
  unfold programOne; split; rfl; dsimp only; split; rfl; exact eraseSector_hk _ _
@[simp] theorem programOne_loops (h : Hub) : (programOne h).loops = h.loops := by
  unfold programOne; split; rfl; dsimp only; split; rfl; exact eraseSector_loops _ _
@[simp] theorem programOne_frames (h : Hub) : (programOne h).frames = h.frames := by
  unfold programOne; split; rfl; dsimp only; split; rfl; exact eraseSector_frames _ _
@[simp] theorem programOne_verdicts (h : Hub) : (programOne h).verdicts = h.verdicts := by
  unfold programOne; split; rfl; dsimp only; split; rfl; exact eraseSector_verdicts _ _
@[simp] theorem programOne_arr (h : Hub) : (programOne h).arr = h.arr := by
  unfold programOne; split; rfl; dsimp only; split; rfl; exact eraseSector_arr _ _
@[simp] theorem programOne_cap (h : Hub) : (programOne h).cap = h.cap := by
  unfold programOne; split; rfl; dsimp only; split; rfl; exact eraseSector_cap _ _
@[simp] theorem programOne_jobs (h : Hub) : (programOne h).jobs = h.jobs := by
  unfold programOne; split; rfl; dsimp only; split; rfl; exact eraseSector_jobs _ _
@[simp] theorem programOne_stream (h : Hub) : (programOne h).stream = h.stream := by
  unfold programOne; split; rfl; dsimp only; split; rfl; exact eraseSector_stream _ _
@[simp] theorem programOne_outlets (h : Hub) : (programOne h).outlets = h.outlets := by
  unfold programOne; split; rfl; dsimp only; split; rfl; exact eraseSector_outlets _ _
@[simp] theorem programOne_lanes (h : Hub) : (programOne h).lanes = h.lanes := by
  unfold programOne; split; rfl; dsimp only; split; rfl; exact eraseSector_lanes _ _
@[simp] theorem programOne_links (h : Hub) : (programOne h).links = h.links := by
  unfold programOne; split; rfl; dsimp only; split; rfl; exact eraseSector_links _ _
@[simp] theorem programOne_eth (h : Hub) : (programOne h).eth = h.eth := by
  unfold programOne; split; rfl; dsimp only; split; rfl; exact eraseSector_eth _ _
@[simp] theorem programOne_pair (h : Hub) : (programOne h).pair = h.pair := by
  unfold programOne; split; rfl; dsimp only; split; rfl; exact eraseSector_pair _ _
@[simp] theorem programOne_hbOut (h : Hub) : (programOne h).hbOut = h.hbOut := by
  unfold programOne; split; rfl; dsimp only; split; rfl; exact eraseSector_hbOut _ _
@[simp] theorem programOne_mbx (h : Hub) : (programOne h).mbx = h.mbx := by
  unfold programOne; split; rfl; dsimp only; split; rfl; exact eraseSector_mbx _ _
@[simp] theorem programOne_fw (h : Hub) : (programOne h).fw = h.fw := by
  unfold programOne; split; rfl; dsimp only; split; rfl; exact eraseSector_fw _ _
@[simp] theorem programOne_faults (h : Hub) : (programOne h).faults = h.faults := by
  unfold programOne; split; rfl; dsimp only; split; rfl; exact eraseSector_faults _ _
@[simp] theorem programOne_mem (h : Hub) : (programOne h).mem = h.mem := by
  unfold programOne; split; rfl; dsimp only; split; rfl; exact eraseSector_mem _ _
@[simp] theorem programOne_arb (h : Hub) : (programOne h).arb = h.arb := by
  unfold programOne; split; rfl; dsimp only; split; rfl; exact eraseSector_arb _ _
@[simp] theorem programOne_out (h : Hub) : (programOne h).out = h.out := by
  unfold programOne; split; rfl; dsimp only; split; rfl; exact eraseSector_out _ _
@[simp] theorem programOne_free (h : Hub) : (programOne h).free = h.free := by
  unfold programOne; split; rfl; dsimp only; split; rfl; exact eraseSector_free _ _

@[simp] theorem programFuel_power (n : Nat) (h : Hub) : (programFuel n h).power = h.power := by
  induction n generalizing h with
  | zero => rfl
  | succ n ih => exact (ih _).trans (programOne_power h)
@[simp] theorem programFuel_cfg (n : Nat) (h : Hub) : (programFuel n h).cfg = h.cfg := by
  induction n generalizing h with
  | zero => rfl
  | succ n ih => exact (ih _).trans (programOne_cfg h)
@[simp] theorem programFuel_changes (n : Nat) (h : Hub) : (programFuel n h).changes = h.changes := by
  induction n generalizing h with
  | zero => rfl
  | succ n ih => exact (ih _).trans (programOne_changes h)
@[simp] theorem programFuel_staged (n : Nat) (h : Hub) : (programFuel n h).staged = h.staged := by
  induction n generalizing h with
  | zero => rfl
  | succ n ih => exact (ih _).trans (programOne_staged h)
@[simp] theorem programFuel_time (n : Nat) (h : Hub) : (programFuel n h).time = h.time := by
  induction n generalizing h with
  | zero => rfl
  | succ n ih => exact (ih _).trans (programOne_time h)
@[simp] theorem programFuel_view (n : Nat) (h : Hub) : (programFuel n h).view = h.view := by
  induction n generalizing h with
  | zero => rfl
  | succ n ih => exact (ih _).trans (programOne_view h)
@[simp] theorem programFuel_chans (n : Nat) (h : Hub) : (programFuel n h).chans = h.chans := by
  induction n generalizing h with
  | zero => rfl
  | succ n ih => exact (ih _).trans (programOne_chans h)
@[simp] theorem programFuel_groups (n : Nat) (h : Hub) : (programFuel n h).groups = h.groups := by
  induction n generalizing h with
  | zero => rfl
  | succ n ih => exact (ih _).trans (programOne_groups h)
@[simp] theorem programFuel_fes (n : Nat) (h : Hub) : (programFuel n h).fes = h.fes := by
  induction n generalizing h with
  | zero => rfl
  | succ n ih => exact (ih _).trans (programOne_fes h)
@[simp] theorem programFuel_tiles (n : Nat) (h : Hub) : (programFuel n h).tiles = h.tiles := by
  induction n generalizing h with
  | zero => rfl
  | succ n ih => exact (ih _).trans (programOne_tiles h)
@[simp] theorem programFuel_hk (n : Nat) (h : Hub) : (programFuel n h).hk = h.hk := by
  induction n generalizing h with
  | zero => rfl
  | succ n ih => exact (ih _).trans (programOne_hk h)
@[simp] theorem programFuel_loops (n : Nat) (h : Hub) : (programFuel n h).loops = h.loops := by
  induction n generalizing h with
  | zero => rfl
  | succ n ih => exact (ih _).trans (programOne_loops h)
@[simp] theorem programFuel_frames (n : Nat) (h : Hub) : (programFuel n h).frames = h.frames := by
  induction n generalizing h with
  | zero => rfl
  | succ n ih => exact (ih _).trans (programOne_frames h)
@[simp] theorem programFuel_verdicts (n : Nat) (h : Hub) : (programFuel n h).verdicts = h.verdicts := by
  induction n generalizing h with
  | zero => rfl
  | succ n ih => exact (ih _).trans (programOne_verdicts h)
@[simp] theorem programFuel_arr (n : Nat) (h : Hub) : (programFuel n h).arr = h.arr := by
  induction n generalizing h with
  | zero => rfl
  | succ n ih => exact (ih _).trans (programOne_arr h)
@[simp] theorem programFuel_cap (n : Nat) (h : Hub) : (programFuel n h).cap = h.cap := by
  induction n generalizing h with
  | zero => rfl
  | succ n ih => exact (ih _).trans (programOne_cap h)
@[simp] theorem programFuel_jobs (n : Nat) (h : Hub) : (programFuel n h).jobs = h.jobs := by
  induction n generalizing h with
  | zero => rfl
  | succ n ih => exact (ih _).trans (programOne_jobs h)
@[simp] theorem programFuel_stream (n : Nat) (h : Hub) : (programFuel n h).stream = h.stream := by
  induction n generalizing h with
  | zero => rfl
  | succ n ih => exact (ih _).trans (programOne_stream h)
@[simp] theorem programFuel_outlets (n : Nat) (h : Hub) : (programFuel n h).outlets = h.outlets := by
  induction n generalizing h with
  | zero => rfl
  | succ n ih => exact (ih _).trans (programOne_outlets h)
@[simp] theorem programFuel_lanes (n : Nat) (h : Hub) : (programFuel n h).lanes = h.lanes := by
  induction n generalizing h with
  | zero => rfl
  | succ n ih => exact (ih _).trans (programOne_lanes h)
@[simp] theorem programFuel_links (n : Nat) (h : Hub) : (programFuel n h).links = h.links := by
  induction n generalizing h with
  | zero => rfl
  | succ n ih => exact (ih _).trans (programOne_links h)
@[simp] theorem programFuel_eth (n : Nat) (h : Hub) : (programFuel n h).eth = h.eth := by
  induction n generalizing h with
  | zero => rfl
  | succ n ih => exact (ih _).trans (programOne_eth h)
@[simp] theorem programFuel_pair (n : Nat) (h : Hub) : (programFuel n h).pair = h.pair := by
  induction n generalizing h with
  | zero => rfl
  | succ n ih => exact (ih _).trans (programOne_pair h)
@[simp] theorem programFuel_hbOut (n : Nat) (h : Hub) : (programFuel n h).hbOut = h.hbOut := by
  induction n generalizing h with
  | zero => rfl
  | succ n ih => exact (ih _).trans (programOne_hbOut h)
@[simp] theorem programFuel_mbx (n : Nat) (h : Hub) : (programFuel n h).mbx = h.mbx := by
  induction n generalizing h with
  | zero => rfl
  | succ n ih => exact (ih _).trans (programOne_mbx h)
@[simp] theorem programFuel_fw (n : Nat) (h : Hub) : (programFuel n h).fw = h.fw := by
  induction n generalizing h with
  | zero => rfl
  | succ n ih => exact (ih _).trans (programOne_fw h)
@[simp] theorem programFuel_faults (n : Nat) (h : Hub) : (programFuel n h).faults = h.faults := by
  induction n generalizing h with
  | zero => rfl
  | succ n ih => exact (ih _).trans (programOne_faults h)
@[simp] theorem programFuel_mem (n : Nat) (h : Hub) : (programFuel n h).mem = h.mem := by
  induction n generalizing h with
  | zero => rfl
  | succ n ih => exact (ih _).trans (programOne_mem h)
@[simp] theorem programFuel_arb (n : Nat) (h : Hub) : (programFuel n h).arb = h.arb := by
  induction n generalizing h with
  | zero => rfl
  | succ n ih => exact (ih _).trans (programOne_arb h)
@[simp] theorem programFuel_out (n : Nat) (h : Hub) : (programFuel n h).out = h.out := by
  induction n generalizing h with
  | zero => rfl
  | succ n ih => exact (ih _).trans (programOne_out h)
@[simp] theorem programFuel_free (n : Nat) (h : Hub) : (programFuel n h).free = h.free := by
  induction n generalizing h with
  | zero => rfl
  | succ n ih => exact (ih _).trans (programOne_free h)

@[simp] theorem programAll_power (h : Hub) : (programAll h).power = h.power := by
  unfold programAll; split; rfl; exact programFuel_power _ _
@[simp] theorem programAll_cfg (h : Hub) : (programAll h).cfg = h.cfg := by
  unfold programAll; split; rfl; exact programFuel_cfg _ _
@[simp] theorem programAll_changes (h : Hub) : (programAll h).changes = h.changes := by
  unfold programAll; split; rfl; exact programFuel_changes _ _
@[simp] theorem programAll_staged (h : Hub) : (programAll h).staged = h.staged := by
  unfold programAll; split; rfl; exact programFuel_staged _ _
@[simp] theorem programAll_time (h : Hub) : (programAll h).time = h.time := by
  unfold programAll; split; rfl; exact programFuel_time _ _
@[simp] theorem programAll_view (h : Hub) : (programAll h).view = h.view := by
  unfold programAll; split; rfl; exact programFuel_view _ _
@[simp] theorem programAll_chans (h : Hub) : (programAll h).chans = h.chans := by
  unfold programAll; split; rfl; exact programFuel_chans _ _
@[simp] theorem programAll_groups (h : Hub) : (programAll h).groups = h.groups := by
  unfold programAll; split; rfl; exact programFuel_groups _ _
@[simp] theorem programAll_fes (h : Hub) : (programAll h).fes = h.fes := by
  unfold programAll; split; rfl; exact programFuel_fes _ _
@[simp] theorem programAll_tiles (h : Hub) : (programAll h).tiles = h.tiles := by
  unfold programAll; split; rfl; exact programFuel_tiles _ _
@[simp] theorem programAll_hk (h : Hub) : (programAll h).hk = h.hk := by
  unfold programAll; split; rfl; exact programFuel_hk _ _
@[simp] theorem programAll_loops (h : Hub) : (programAll h).loops = h.loops := by
  unfold programAll; split; rfl; exact programFuel_loops _ _
@[simp] theorem programAll_frames (h : Hub) : (programAll h).frames = h.frames := by
  unfold programAll; split; rfl; exact programFuel_frames _ _
@[simp] theorem programAll_verdicts (h : Hub) : (programAll h).verdicts = h.verdicts := by
  unfold programAll; split; rfl; exact programFuel_verdicts _ _
@[simp] theorem programAll_arr (h : Hub) : (programAll h).arr = h.arr := by
  unfold programAll; split; rfl; exact programFuel_arr _ _
@[simp] theorem programAll_cap (h : Hub) : (programAll h).cap = h.cap := by
  unfold programAll; split; rfl; exact programFuel_cap _ _
@[simp] theorem programAll_jobs (h : Hub) : (programAll h).jobs = h.jobs := by
  unfold programAll; split; rfl; exact programFuel_jobs _ _
@[simp] theorem programAll_stream (h : Hub) : (programAll h).stream = h.stream := by
  unfold programAll; split; rfl; exact programFuel_stream _ _
@[simp] theorem programAll_outlets (h : Hub) : (programAll h).outlets = h.outlets := by
  unfold programAll; split; rfl; exact programFuel_outlets _ _
@[simp] theorem programAll_lanes (h : Hub) : (programAll h).lanes = h.lanes := by
  unfold programAll; split; rfl; exact programFuel_lanes _ _
@[simp] theorem programAll_links (h : Hub) : (programAll h).links = h.links := by
  unfold programAll; split; rfl; exact programFuel_links _ _
@[simp] theorem programAll_eth (h : Hub) : (programAll h).eth = h.eth := by
  unfold programAll; split; rfl; exact programFuel_eth _ _
@[simp] theorem programAll_pair (h : Hub) : (programAll h).pair = h.pair := by
  unfold programAll; split; rfl; exact programFuel_pair _ _
@[simp] theorem programAll_hbOut (h : Hub) : (programAll h).hbOut = h.hbOut := by
  unfold programAll; split; rfl; exact programFuel_hbOut _ _
@[simp] theorem programAll_mbx (h : Hub) : (programAll h).mbx = h.mbx := by
  unfold programAll; split; rfl; exact programFuel_mbx _ _
@[simp] theorem programAll_fw (h : Hub) : (programAll h).fw = h.fw := by
  unfold programAll; split; rfl; exact programFuel_fw _ _
@[simp] theorem programAll_faults (h : Hub) : (programAll h).faults = h.faults := by
  unfold programAll; split; rfl; exact programFuel_faults _ _
@[simp] theorem programAll_mem (h : Hub) : (programAll h).mem = h.mem := by
  unfold programAll; split; rfl; exact programFuel_mem _ _
@[simp] theorem programAll_arb (h : Hub) : (programAll h).arb = h.arb := by
  unfold programAll; split; rfl; exact programFuel_arb _ _
@[simp] theorem programAll_out (h : Hub) : (programAll h).out = h.out := by
  unfold programAll; split; rfl; exact programFuel_out _ _
@[simp] theorem programAll_free (h : Hub) : (programAll h).free = h.free := by
  unfold programAll; split; rfl; exact programFuel_free _ _

@[simp] theorem queueRec_power (r : JRec) (h : Hub) : (queueRec r h).power = h.power := by
  unfold queueRec; dsimp only; split; rfl; exact programOne_power _
@[simp] theorem queueRec_cfg (r : JRec) (h : Hub) : (queueRec r h).cfg = h.cfg := by
  unfold queueRec; dsimp only; split; rfl; exact programOne_cfg _
@[simp] theorem queueRec_changes (r : JRec) (h : Hub) : (queueRec r h).changes = h.changes := by
  unfold queueRec; dsimp only; split; rfl; exact programOne_changes _
@[simp] theorem queueRec_staged (r : JRec) (h : Hub) : (queueRec r h).staged = h.staged := by
  unfold queueRec; dsimp only; split; rfl; exact programOne_staged _
@[simp] theorem queueRec_time (r : JRec) (h : Hub) : (queueRec r h).time = h.time := by
  unfold queueRec; dsimp only; split; rfl; exact programOne_time _
@[simp] theorem queueRec_view (r : JRec) (h : Hub) : (queueRec r h).view = h.view := by
  unfold queueRec; dsimp only; split; rfl; exact programOne_view _
@[simp] theorem queueRec_chans (r : JRec) (h : Hub) : (queueRec r h).chans = h.chans := by
  unfold queueRec; dsimp only; split; rfl; exact programOne_chans _
@[simp] theorem queueRec_groups (r : JRec) (h : Hub) : (queueRec r h).groups = h.groups := by
  unfold queueRec; dsimp only; split; rfl; exact programOne_groups _
@[simp] theorem queueRec_fes (r : JRec) (h : Hub) : (queueRec r h).fes = h.fes := by
  unfold queueRec; dsimp only; split; rfl; exact programOne_fes _
@[simp] theorem queueRec_tiles (r : JRec) (h : Hub) : (queueRec r h).tiles = h.tiles := by
  unfold queueRec; dsimp only; split; rfl; exact programOne_tiles _
@[simp] theorem queueRec_hk (r : JRec) (h : Hub) : (queueRec r h).hk = h.hk := by
  unfold queueRec; dsimp only; split; rfl; exact programOne_hk _
@[simp] theorem queueRec_loops (r : JRec) (h : Hub) : (queueRec r h).loops = h.loops := by
  unfold queueRec; dsimp only; split; rfl; exact programOne_loops _
@[simp] theorem queueRec_frames (r : JRec) (h : Hub) : (queueRec r h).frames = h.frames := by
  unfold queueRec; dsimp only; split; rfl; exact programOne_frames _
@[simp] theorem queueRec_verdicts (r : JRec) (h : Hub) : (queueRec r h).verdicts = h.verdicts := by
  unfold queueRec; dsimp only; split; rfl; exact programOne_verdicts _
@[simp] theorem queueRec_arr (r : JRec) (h : Hub) : (queueRec r h).arr = h.arr := by
  unfold queueRec; dsimp only; split; rfl; exact programOne_arr _
@[simp] theorem queueRec_cap (r : JRec) (h : Hub) : (queueRec r h).cap = h.cap := by
  unfold queueRec; dsimp only; split; rfl; exact programOne_cap _
@[simp] theorem queueRec_jobs (r : JRec) (h : Hub) : (queueRec r h).jobs = h.jobs := by
  unfold queueRec; dsimp only; split; rfl; exact programOne_jobs _
@[simp] theorem queueRec_stream (r : JRec) (h : Hub) : (queueRec r h).stream = h.stream := by
  unfold queueRec; dsimp only; split; rfl; exact programOne_stream _
@[simp] theorem queueRec_outlets (r : JRec) (h : Hub) : (queueRec r h).outlets = h.outlets := by
  unfold queueRec; dsimp only; split; rfl; exact programOne_outlets _
@[simp] theorem queueRec_lanes (r : JRec) (h : Hub) : (queueRec r h).lanes = h.lanes := by
  unfold queueRec; dsimp only; split; rfl; exact programOne_lanes _
@[simp] theorem queueRec_links (r : JRec) (h : Hub) : (queueRec r h).links = h.links := by
  unfold queueRec; dsimp only; split; rfl; exact programOne_links _
@[simp] theorem queueRec_eth (r : JRec) (h : Hub) : (queueRec r h).eth = h.eth := by
  unfold queueRec; dsimp only; split; rfl; exact programOne_eth _
@[simp] theorem queueRec_pair (r : JRec) (h : Hub) : (queueRec r h).pair = h.pair := by
  unfold queueRec; dsimp only; split; rfl; exact programOne_pair _
@[simp] theorem queueRec_hbOut (r : JRec) (h : Hub) : (queueRec r h).hbOut = h.hbOut := by
  unfold queueRec; dsimp only; split; rfl; exact programOne_hbOut _
@[simp] theorem queueRec_mbx (r : JRec) (h : Hub) : (queueRec r h).mbx = h.mbx := by
  unfold queueRec; dsimp only; split; rfl; exact programOne_mbx _
@[simp] theorem queueRec_fw (r : JRec) (h : Hub) : (queueRec r h).fw = h.fw := by
  unfold queueRec; dsimp only; split; rfl; exact programOne_fw _
@[simp] theorem queueRec_faults (r : JRec) (h : Hub) : (queueRec r h).faults = h.faults := by
  unfold queueRec; dsimp only; split; rfl; exact programOne_faults _
@[simp] theorem queueRec_mem (r : JRec) (h : Hub) : (queueRec r h).mem = h.mem := by
  unfold queueRec; dsimp only; split; rfl; exact programOne_mem _
@[simp] theorem queueRec_arb (r : JRec) (h : Hub) : (queueRec r h).arb = h.arb := by
  unfold queueRec; dsimp only; split; rfl; exact programOne_arb _
@[simp] theorem queueRec_out (r : JRec) (h : Hub) : (queueRec r h).out = h.out := by
  unfold queueRec; dsimp only; split; rfl; exact programOne_out _
@[simp] theorem queueRec_free (r : JRec) (h : Hub) : (queueRec r h).free = h.free := by
  unfold queueRec; dsimp only; split; rfl; exact programOne_free _

@[simp] theorem jChange_power (code : Nat) (detail : Bytes) (h : Hub) : (jChange code detail h).power = h.power := by
  exact (programAll_power _).trans (queueRec_power _ _)
@[simp] theorem jChange_cfg (code : Nat) (detail : Bytes) (h : Hub) : (jChange code detail h).cfg = h.cfg := by
  exact (programAll_cfg _).trans (queueRec_cfg _ _)
@[simp] theorem jChange_changes (code : Nat) (detail : Bytes) (h : Hub) : (jChange code detail h).changes = h.changes := by
  exact (programAll_changes _).trans (queueRec_changes _ _)
@[simp] theorem jChange_staged (code : Nat) (detail : Bytes) (h : Hub) : (jChange code detail h).staged = h.staged := by
  exact (programAll_staged _).trans (queueRec_staged _ _)
@[simp] theorem jChange_time (code : Nat) (detail : Bytes) (h : Hub) : (jChange code detail h).time = h.time := by
  exact (programAll_time _).trans (queueRec_time _ _)
@[simp] theorem jChange_view (code : Nat) (detail : Bytes) (h : Hub) : (jChange code detail h).view = h.view := by
  exact (programAll_view _).trans (queueRec_view _ _)
@[simp] theorem jChange_chans (code : Nat) (detail : Bytes) (h : Hub) : (jChange code detail h).chans = h.chans := by
  exact (programAll_chans _).trans (queueRec_chans _ _)
@[simp] theorem jChange_groups (code : Nat) (detail : Bytes) (h : Hub) : (jChange code detail h).groups = h.groups := by
  exact (programAll_groups _).trans (queueRec_groups _ _)
@[simp] theorem jChange_fes (code : Nat) (detail : Bytes) (h : Hub) : (jChange code detail h).fes = h.fes := by
  exact (programAll_fes _).trans (queueRec_fes _ _)
@[simp] theorem jChange_tiles (code : Nat) (detail : Bytes) (h : Hub) : (jChange code detail h).tiles = h.tiles := by
  exact (programAll_tiles _).trans (queueRec_tiles _ _)
@[simp] theorem jChange_hk (code : Nat) (detail : Bytes) (h : Hub) : (jChange code detail h).hk = h.hk := by
  exact (programAll_hk _).trans (queueRec_hk _ _)
@[simp] theorem jChange_loops (code : Nat) (detail : Bytes) (h : Hub) : (jChange code detail h).loops = h.loops := by
  exact (programAll_loops _).trans (queueRec_loops _ _)
@[simp] theorem jChange_frames (code : Nat) (detail : Bytes) (h : Hub) : (jChange code detail h).frames = h.frames := by
  exact (programAll_frames _).trans (queueRec_frames _ _)
@[simp] theorem jChange_verdicts (code : Nat) (detail : Bytes) (h : Hub) : (jChange code detail h).verdicts = h.verdicts := by
  exact (programAll_verdicts _).trans (queueRec_verdicts _ _)
@[simp] theorem jChange_arr (code : Nat) (detail : Bytes) (h : Hub) : (jChange code detail h).arr = h.arr := by
  exact (programAll_arr _).trans (queueRec_arr _ _)
@[simp] theorem jChange_cap (code : Nat) (detail : Bytes) (h : Hub) : (jChange code detail h).cap = h.cap := by
  exact (programAll_cap _).trans (queueRec_cap _ _)
@[simp] theorem jChange_jobs (code : Nat) (detail : Bytes) (h : Hub) : (jChange code detail h).jobs = h.jobs := by
  exact (programAll_jobs _).trans (queueRec_jobs _ _)
@[simp] theorem jChange_stream (code : Nat) (detail : Bytes) (h : Hub) : (jChange code detail h).stream = h.stream := by
  exact (programAll_stream _).trans (queueRec_stream _ _)
@[simp] theorem jChange_outlets (code : Nat) (detail : Bytes) (h : Hub) : (jChange code detail h).outlets = h.outlets := by
  exact (programAll_outlets _).trans (queueRec_outlets _ _)
@[simp] theorem jChange_lanes (code : Nat) (detail : Bytes) (h : Hub) : (jChange code detail h).lanes = h.lanes := by
  exact (programAll_lanes _).trans (queueRec_lanes _ _)
@[simp] theorem jChange_links (code : Nat) (detail : Bytes) (h : Hub) : (jChange code detail h).links = h.links := by
  exact (programAll_links _).trans (queueRec_links _ _)
@[simp] theorem jChange_eth (code : Nat) (detail : Bytes) (h : Hub) : (jChange code detail h).eth = h.eth := by
  exact (programAll_eth _).trans (queueRec_eth _ _)
@[simp] theorem jChange_pair (code : Nat) (detail : Bytes) (h : Hub) : (jChange code detail h).pair = h.pair := by
  exact (programAll_pair _).trans (queueRec_pair _ _)
@[simp] theorem jChange_hbOut (code : Nat) (detail : Bytes) (h : Hub) : (jChange code detail h).hbOut = h.hbOut := by
  exact (programAll_hbOut _).trans (queueRec_hbOut _ _)
@[simp] theorem jChange_mbx (code : Nat) (detail : Bytes) (h : Hub) : (jChange code detail h).mbx = h.mbx := by
  exact (programAll_mbx _).trans (queueRec_mbx _ _)
@[simp] theorem jChange_fw (code : Nat) (detail : Bytes) (h : Hub) : (jChange code detail h).fw = h.fw := by
  exact (programAll_fw _).trans (queueRec_fw _ _)
@[simp] theorem jChange_faults (code : Nat) (detail : Bytes) (h : Hub) : (jChange code detail h).faults = h.faults := by
  exact (programAll_faults _).trans (queueRec_faults _ _)
@[simp] theorem jChange_mem (code : Nat) (detail : Bytes) (h : Hub) : (jChange code detail h).mem = h.mem := by
  exact (programAll_mem _).trans (queueRec_mem _ _)
@[simp] theorem jChange_arb (code : Nat) (detail : Bytes) (h : Hub) : (jChange code detail h).arb = h.arb := by
  exact (programAll_arb _).trans (queueRec_arb _ _)
@[simp] theorem jChange_out (code : Nat) (detail : Bytes) (h : Hub) : (jChange code detail h).out = h.out := by
  exact (programAll_out _).trans (queueRec_out _ _)
@[simp] theorem jChange_free (code : Nat) (detail : Bytes) (h : Hub) : (jChange code detail h).free = h.free := by
  exact (programAll_free _).trans (queueRec_free _ _)

@[simp] theorem jLimited_power (r : JRec) (h : Hub) : (jLimited r h).power = h.power := by
  unfold jLimited; dsimp only; split; exact queueRec_power _ _; split <;> rfl
@[simp] theorem jLimited_cfg (r : JRec) (h : Hub) : (jLimited r h).cfg = h.cfg := by
  unfold jLimited; dsimp only; split; exact queueRec_cfg _ _; split <;> rfl
@[simp] theorem jLimited_changes (r : JRec) (h : Hub) : (jLimited r h).changes = h.changes := by
  unfold jLimited; dsimp only; split; exact queueRec_changes _ _; split <;> rfl
@[simp] theorem jLimited_staged (r : JRec) (h : Hub) : (jLimited r h).staged = h.staged := by
  unfold jLimited; dsimp only; split; exact queueRec_staged _ _; split <;> rfl
@[simp] theorem jLimited_time (r : JRec) (h : Hub) : (jLimited r h).time = h.time := by
  unfold jLimited; dsimp only; split; exact queueRec_time _ _; split <;> rfl
@[simp] theorem jLimited_view (r : JRec) (h : Hub) : (jLimited r h).view = h.view := by
  unfold jLimited; dsimp only; split; exact queueRec_view _ _; split <;> rfl
@[simp] theorem jLimited_chans (r : JRec) (h : Hub) : (jLimited r h).chans = h.chans := by
  unfold jLimited; dsimp only; split; exact queueRec_chans _ _; split <;> rfl
@[simp] theorem jLimited_groups (r : JRec) (h : Hub) : (jLimited r h).groups = h.groups := by
  unfold jLimited; dsimp only; split; exact queueRec_groups _ _; split <;> rfl
@[simp] theorem jLimited_fes (r : JRec) (h : Hub) : (jLimited r h).fes = h.fes := by
  unfold jLimited; dsimp only; split; exact queueRec_fes _ _; split <;> rfl
@[simp] theorem jLimited_tiles (r : JRec) (h : Hub) : (jLimited r h).tiles = h.tiles := by
  unfold jLimited; dsimp only; split; exact queueRec_tiles _ _; split <;> rfl
@[simp] theorem jLimited_hk (r : JRec) (h : Hub) : (jLimited r h).hk = h.hk := by
  unfold jLimited; dsimp only; split; exact queueRec_hk _ _; split <;> rfl
@[simp] theorem jLimited_loops (r : JRec) (h : Hub) : (jLimited r h).loops = h.loops := by
  unfold jLimited; dsimp only; split; exact queueRec_loops _ _; split <;> rfl
@[simp] theorem jLimited_frames (r : JRec) (h : Hub) : (jLimited r h).frames = h.frames := by
  unfold jLimited; dsimp only; split; exact queueRec_frames _ _; split <;> rfl
@[simp] theorem jLimited_verdicts (r : JRec) (h : Hub) : (jLimited r h).verdicts = h.verdicts := by
  unfold jLimited; dsimp only; split; exact queueRec_verdicts _ _; split <;> rfl
@[simp] theorem jLimited_arr (r : JRec) (h : Hub) : (jLimited r h).arr = h.arr := by
  unfold jLimited; dsimp only; split; exact queueRec_arr _ _; split <;> rfl
@[simp] theorem jLimited_cap (r : JRec) (h : Hub) : (jLimited r h).cap = h.cap := by
  unfold jLimited; dsimp only; split; exact queueRec_cap _ _; split <;> rfl
@[simp] theorem jLimited_jobs (r : JRec) (h : Hub) : (jLimited r h).jobs = h.jobs := by
  unfold jLimited; dsimp only; split; exact queueRec_jobs _ _; split <;> rfl
@[simp] theorem jLimited_stream (r : JRec) (h : Hub) : (jLimited r h).stream = h.stream := by
  unfold jLimited; dsimp only; split; exact queueRec_stream _ _; split <;> rfl
@[simp] theorem jLimited_outlets (r : JRec) (h : Hub) : (jLimited r h).outlets = h.outlets := by
  unfold jLimited; dsimp only; split; exact queueRec_outlets _ _; split <;> rfl
@[simp] theorem jLimited_lanes (r : JRec) (h : Hub) : (jLimited r h).lanes = h.lanes := by
  unfold jLimited; dsimp only; split; exact queueRec_lanes _ _; split <;> rfl
@[simp] theorem jLimited_links (r : JRec) (h : Hub) : (jLimited r h).links = h.links := by
  unfold jLimited; dsimp only; split; exact queueRec_links _ _; split <;> rfl
@[simp] theorem jLimited_eth (r : JRec) (h : Hub) : (jLimited r h).eth = h.eth := by
  unfold jLimited; dsimp only; split; exact queueRec_eth _ _; split <;> rfl
@[simp] theorem jLimited_pair (r : JRec) (h : Hub) : (jLimited r h).pair = h.pair := by
  unfold jLimited; dsimp only; split; exact queueRec_pair _ _; split <;> rfl
@[simp] theorem jLimited_hbOut (r : JRec) (h : Hub) : (jLimited r h).hbOut = h.hbOut := by
  unfold jLimited; dsimp only; split; exact queueRec_hbOut _ _; split <;> rfl
@[simp] theorem jLimited_mbx (r : JRec) (h : Hub) : (jLimited r h).mbx = h.mbx := by
  unfold jLimited; dsimp only; split; exact queueRec_mbx _ _; split <;> rfl
@[simp] theorem jLimited_fw (r : JRec) (h : Hub) : (jLimited r h).fw = h.fw := by
  unfold jLimited; dsimp only; split; exact queueRec_fw _ _; split <;> rfl
@[simp] theorem jLimited_faults (r : JRec) (h : Hub) : (jLimited r h).faults = h.faults := by
  unfold jLimited; dsimp only; split; exact queueRec_faults _ _; split <;> rfl
@[simp] theorem jLimited_mem (r : JRec) (h : Hub) : (jLimited r h).mem = h.mem := by
  unfold jLimited; dsimp only; split; exact queueRec_mem _ _; split <;> rfl
@[simp] theorem jLimited_arb (r : JRec) (h : Hub) : (jLimited r h).arb = h.arb := by
  unfold jLimited; dsimp only; split; exact queueRec_arb _ _; split <;> rfl
@[simp] theorem jLimited_out (r : JRec) (h : Hub) : (jLimited r h).out = h.out := by
  unfold jLimited; dsimp only; split; exact queueRec_out _ _; split <;> rfl
@[simp] theorem jLimited_free (r : JRec) (h : Hub) : (jLimited r h).free = h.free := by
  unfold jLimited; dsimp only; split; exact queueRec_free _ _; split <;> rfl

@[simp] theorem jEvent_power (code : Nat) (detail : Bytes) (h : Hub) : (jEvent code detail h).power = h.power := by
  exact jLimited_power _ _
@[simp] theorem jEvent_cfg (code : Nat) (detail : Bytes) (h : Hub) : (jEvent code detail h).cfg = h.cfg := by
  exact jLimited_cfg _ _
@[simp] theorem jEvent_changes (code : Nat) (detail : Bytes) (h : Hub) : (jEvent code detail h).changes = h.changes := by
  exact jLimited_changes _ _
@[simp] theorem jEvent_staged (code : Nat) (detail : Bytes) (h : Hub) : (jEvent code detail h).staged = h.staged := by
  exact jLimited_staged _ _
@[simp] theorem jEvent_time (code : Nat) (detail : Bytes) (h : Hub) : (jEvent code detail h).time = h.time := by
  exact jLimited_time _ _
@[simp] theorem jEvent_view (code : Nat) (detail : Bytes) (h : Hub) : (jEvent code detail h).view = h.view := by
  exact jLimited_view _ _
@[simp] theorem jEvent_chans (code : Nat) (detail : Bytes) (h : Hub) : (jEvent code detail h).chans = h.chans := by
  exact jLimited_chans _ _
@[simp] theorem jEvent_groups (code : Nat) (detail : Bytes) (h : Hub) : (jEvent code detail h).groups = h.groups := by
  exact jLimited_groups _ _
@[simp] theorem jEvent_fes (code : Nat) (detail : Bytes) (h : Hub) : (jEvent code detail h).fes = h.fes := by
  exact jLimited_fes _ _
@[simp] theorem jEvent_tiles (code : Nat) (detail : Bytes) (h : Hub) : (jEvent code detail h).tiles = h.tiles := by
  exact jLimited_tiles _ _
@[simp] theorem jEvent_hk (code : Nat) (detail : Bytes) (h : Hub) : (jEvent code detail h).hk = h.hk := by
  exact jLimited_hk _ _
@[simp] theorem jEvent_loops (code : Nat) (detail : Bytes) (h : Hub) : (jEvent code detail h).loops = h.loops := by
  exact jLimited_loops _ _
@[simp] theorem jEvent_frames (code : Nat) (detail : Bytes) (h : Hub) : (jEvent code detail h).frames = h.frames := by
  exact jLimited_frames _ _
@[simp] theorem jEvent_verdicts (code : Nat) (detail : Bytes) (h : Hub) : (jEvent code detail h).verdicts = h.verdicts := by
  exact jLimited_verdicts _ _
@[simp] theorem jEvent_arr (code : Nat) (detail : Bytes) (h : Hub) : (jEvent code detail h).arr = h.arr := by
  exact jLimited_arr _ _
@[simp] theorem jEvent_cap (code : Nat) (detail : Bytes) (h : Hub) : (jEvent code detail h).cap = h.cap := by
  exact jLimited_cap _ _
@[simp] theorem jEvent_jobs (code : Nat) (detail : Bytes) (h : Hub) : (jEvent code detail h).jobs = h.jobs := by
  exact jLimited_jobs _ _
@[simp] theorem jEvent_stream (code : Nat) (detail : Bytes) (h : Hub) : (jEvent code detail h).stream = h.stream := by
  exact jLimited_stream _ _
@[simp] theorem jEvent_outlets (code : Nat) (detail : Bytes) (h : Hub) : (jEvent code detail h).outlets = h.outlets := by
  exact jLimited_outlets _ _
@[simp] theorem jEvent_lanes (code : Nat) (detail : Bytes) (h : Hub) : (jEvent code detail h).lanes = h.lanes := by
  exact jLimited_lanes _ _
@[simp] theorem jEvent_links (code : Nat) (detail : Bytes) (h : Hub) : (jEvent code detail h).links = h.links := by
  exact jLimited_links _ _
@[simp] theorem jEvent_eth (code : Nat) (detail : Bytes) (h : Hub) : (jEvent code detail h).eth = h.eth := by
  exact jLimited_eth _ _
@[simp] theorem jEvent_pair (code : Nat) (detail : Bytes) (h : Hub) : (jEvent code detail h).pair = h.pair := by
  exact jLimited_pair _ _
@[simp] theorem jEvent_hbOut (code : Nat) (detail : Bytes) (h : Hub) : (jEvent code detail h).hbOut = h.hbOut := by
  exact jLimited_hbOut _ _
@[simp] theorem jEvent_mbx (code : Nat) (detail : Bytes) (h : Hub) : (jEvent code detail h).mbx = h.mbx := by
  exact jLimited_mbx _ _
@[simp] theorem jEvent_fw (code : Nat) (detail : Bytes) (h : Hub) : (jEvent code detail h).fw = h.fw := by
  exact jLimited_fw _ _
@[simp] theorem jEvent_faults (code : Nat) (detail : Bytes) (h : Hub) : (jEvent code detail h).faults = h.faults := by
  exact jLimited_faults _ _
@[simp] theorem jEvent_mem (code : Nat) (detail : Bytes) (h : Hub) : (jEvent code detail h).mem = h.mem := by
  exact jLimited_mem _ _
@[simp] theorem jEvent_arb (code : Nat) (detail : Bytes) (h : Hub) : (jEvent code detail h).arb = h.arb := by
  exact jLimited_arb _ _
@[simp] theorem jEvent_out (code : Nat) (detail : Bytes) (h : Hub) : (jEvent code detail h).out = h.out := by
  exact jLimited_out _ _
@[simp] theorem jEvent_free (code : Nat) (detail : Bytes) (h : Hub) : (jEvent code detail h).free = h.free := by
  exact jLimited_free _ _

@[simp] theorem changeRec_power (r : Req) (code : Nat) (detail : Bytes) (h : Hub) : (changeRec r code detail h).power = h.power := by
  exact (programAll_power _).trans (queueRec_power _ _)
@[simp] theorem changeRec_cfg (r : Req) (code : Nat) (detail : Bytes) (h : Hub) : (changeRec r code detail h).cfg = h.cfg := by
  exact (programAll_cfg _).trans (queueRec_cfg _ _)
@[simp] theorem changeRec_changes (r : Req) (code : Nat) (detail : Bytes) (h : Hub) : (changeRec r code detail h).changes = h.changes := by
  exact (programAll_changes _).trans (queueRec_changes _ _)
@[simp] theorem changeRec_staged (r : Req) (code : Nat) (detail : Bytes) (h : Hub) : (changeRec r code detail h).staged = h.staged := by
  exact (programAll_staged _).trans (queueRec_staged _ _)
@[simp] theorem changeRec_time (r : Req) (code : Nat) (detail : Bytes) (h : Hub) : (changeRec r code detail h).time = h.time := by
  exact (programAll_time _).trans (queueRec_time _ _)
@[simp] theorem changeRec_view (r : Req) (code : Nat) (detail : Bytes) (h : Hub) : (changeRec r code detail h).view = h.view := by
  exact (programAll_view _).trans (queueRec_view _ _)
@[simp] theorem changeRec_chans (r : Req) (code : Nat) (detail : Bytes) (h : Hub) : (changeRec r code detail h).chans = h.chans := by
  exact (programAll_chans _).trans (queueRec_chans _ _)
@[simp] theorem changeRec_groups (r : Req) (code : Nat) (detail : Bytes) (h : Hub) : (changeRec r code detail h).groups = h.groups := by
  exact (programAll_groups _).trans (queueRec_groups _ _)
@[simp] theorem changeRec_fes (r : Req) (code : Nat) (detail : Bytes) (h : Hub) : (changeRec r code detail h).fes = h.fes := by
  exact (programAll_fes _).trans (queueRec_fes _ _)
@[simp] theorem changeRec_tiles (r : Req) (code : Nat) (detail : Bytes) (h : Hub) : (changeRec r code detail h).tiles = h.tiles := by
  exact (programAll_tiles _).trans (queueRec_tiles _ _)
@[simp] theorem changeRec_hk (r : Req) (code : Nat) (detail : Bytes) (h : Hub) : (changeRec r code detail h).hk = h.hk := by
  exact (programAll_hk _).trans (queueRec_hk _ _)
@[simp] theorem changeRec_loops (r : Req) (code : Nat) (detail : Bytes) (h : Hub) : (changeRec r code detail h).loops = h.loops := by
  exact (programAll_loops _).trans (queueRec_loops _ _)
@[simp] theorem changeRec_frames (r : Req) (code : Nat) (detail : Bytes) (h : Hub) : (changeRec r code detail h).frames = h.frames := by
  exact (programAll_frames _).trans (queueRec_frames _ _)
@[simp] theorem changeRec_verdicts (r : Req) (code : Nat) (detail : Bytes) (h : Hub) : (changeRec r code detail h).verdicts = h.verdicts := by
  exact (programAll_verdicts _).trans (queueRec_verdicts _ _)
@[simp] theorem changeRec_arr (r : Req) (code : Nat) (detail : Bytes) (h : Hub) : (changeRec r code detail h).arr = h.arr := by
  exact (programAll_arr _).trans (queueRec_arr _ _)
@[simp] theorem changeRec_cap (r : Req) (code : Nat) (detail : Bytes) (h : Hub) : (changeRec r code detail h).cap = h.cap := by
  exact (programAll_cap _).trans (queueRec_cap _ _)
@[simp] theorem changeRec_jobs (r : Req) (code : Nat) (detail : Bytes) (h : Hub) : (changeRec r code detail h).jobs = h.jobs := by
  exact (programAll_jobs _).trans (queueRec_jobs _ _)
@[simp] theorem changeRec_stream (r : Req) (code : Nat) (detail : Bytes) (h : Hub) : (changeRec r code detail h).stream = h.stream := by
  exact (programAll_stream _).trans (queueRec_stream _ _)
@[simp] theorem changeRec_outlets (r : Req) (code : Nat) (detail : Bytes) (h : Hub) : (changeRec r code detail h).outlets = h.outlets := by
  exact (programAll_outlets _).trans (queueRec_outlets _ _)
@[simp] theorem changeRec_lanes (r : Req) (code : Nat) (detail : Bytes) (h : Hub) : (changeRec r code detail h).lanes = h.lanes := by
  exact (programAll_lanes _).trans (queueRec_lanes _ _)
@[simp] theorem changeRec_links (r : Req) (code : Nat) (detail : Bytes) (h : Hub) : (changeRec r code detail h).links = h.links := by
  exact (programAll_links _).trans (queueRec_links _ _)
@[simp] theorem changeRec_eth (r : Req) (code : Nat) (detail : Bytes) (h : Hub) : (changeRec r code detail h).eth = h.eth := by
  exact (programAll_eth _).trans (queueRec_eth _ _)
@[simp] theorem changeRec_pair (r : Req) (code : Nat) (detail : Bytes) (h : Hub) : (changeRec r code detail h).pair = h.pair := by
  exact (programAll_pair _).trans (queueRec_pair _ _)
@[simp] theorem changeRec_hbOut (r : Req) (code : Nat) (detail : Bytes) (h : Hub) : (changeRec r code detail h).hbOut = h.hbOut := by
  exact (programAll_hbOut _).trans (queueRec_hbOut _ _)
@[simp] theorem changeRec_mbx (r : Req) (code : Nat) (detail : Bytes) (h : Hub) : (changeRec r code detail h).mbx = h.mbx := by
  exact (programAll_mbx _).trans (queueRec_mbx _ _)
@[simp] theorem changeRec_fw (r : Req) (code : Nat) (detail : Bytes) (h : Hub) : (changeRec r code detail h).fw = h.fw := by
  exact (programAll_fw _).trans (queueRec_fw _ _)
@[simp] theorem changeRec_faults (r : Req) (code : Nat) (detail : Bytes) (h : Hub) : (changeRec r code detail h).faults = h.faults := by
  exact (programAll_faults _).trans (queueRec_faults _ _)
@[simp] theorem changeRec_mem (r : Req) (code : Nat) (detail : Bytes) (h : Hub) : (changeRec r code detail h).mem = h.mem := by
  exact (programAll_mem _).trans (queueRec_mem _ _)
@[simp] theorem changeRec_arb (r : Req) (code : Nat) (detail : Bytes) (h : Hub) : (changeRec r code detail h).arb = h.arb := by
  exact (programAll_arb _).trans (queueRec_arb _ _)
@[simp] theorem changeRec_out (r : Req) (code : Nat) (detail : Bytes) (h : Hub) : (changeRec r code detail h).out = h.out := by
  exact (programAll_out _).trans (queueRec_out _ _)
@[simp] theorem changeRec_free (r : Req) (code : Nat) (detail : Bytes) (h : Hub) : (changeRec r code detail h).free = h.free := by
  exact (programAll_free _).trans (queueRec_free _ _)

end Sys2Proof.Machine
end

