-- ==== Sys2Proof/Laws/Commands.lean ====
section
/-! SUPPORT. What processing a request does: an admitted request whose own checks pass, and a response to a host mailbox. -/

namespace Sys2Proof.Machine

@[simp] theorem eclipseRefuses_raiseCounter (code : Nat) (o : BitVec 32) (slot n : Nat) (h : Hub) :
    eclipseRefuses code (raiseCounter o slot n h) = eclipseRefuses code h := by
  unfold raiseCounter; split; rfl; split <;> rfl

/-- A list of ranges keeps R226's order exactly where no field of it is at fault. -/
theorem rangeFault_eq_none (next : Nat) : ∀ (rs : List (Nat × Nat)) (i lo : Nat),
    rangeFault next i lo rs = none ↔ rangesOk next lo rs = true
  | [], _, _ => by simp [rangeFault, rangesOk]
  | (a, b) :: rs, i, lo => by
    have ih := rangeFault_eq_none next rs (i + 1) (b + 1)
    unfold rangeFault rangesOk
    rw [Bool.and_eq_true, decide_eq_true_eq, ← ih]
    split
    · simp; omega
    · split
      · simp; omega
      · split
        · simp; omega
        · split
          · simp; omega
          · constructor
            · exact fun h => ⟨by omega, h⟩
            · exact fun h => h.2

/-- An admitted request whose step 7 passes. -/
theorem runCommand_admitted {code : Nat} {cmd : Cmd} {env : Env} {r : Req} {s : State} {p : Reply} {h : Hub}
    (a : Admitted code r s) (hc : cmd { code := code, req := r, env := env } (atStep7 r s) = .ok (p, h))
    (hp : (p.status == rPending && isHostMb r.mailbox && decide (8 ≤ pendingOf (atStep7 r s) r.mailbox)) = false) :
    runCommand code cmd env r s = .next (answered code r s p h) := by
  have hown : (decide (2 ≤ r.mailbox ∧ r.mailbox ≤ 5) && isStandby s.hub) = false := by
    by_cases hm : 2 ≤ r.mailbox ∧ r.mailbox ≤ 5
    · rw [a.own hm.1 hm.2, Bool.and_false]
    · rw [decide_eq_false hm, Bool.false_and]
  have he : ∀ g, g = consumed r (meeting r s) → execute code cmd env r g = ⟨p, isCritical r, leaves code r p h⟩ := by
    intro g hg
    subst hg
    unfold execute
    rw [show consumed r (meeting r s) = atStep7 r s from rfl, hc]
    simp only [hp, leaves]
    rfl
  have hh : handle code (some cmd) env r (meeting r s) = ⟨p, isCritical r, leaves code r p h⟩ := by
    have hf : wellFormed code true r (meeting r s) = true := a.formed
    have hm : mailboxOk code r (meeting r s) = true := a.mailbox
    have hsb : standbyRefuses code r (meeting r s) = false := a.active
    cases hcr : isCritical r with
    | false =>
      have hpl := a.plain hcr
      have hcon : meeting r s = consumed r (meeting r s) := by simp [consumed, hcr]
      have := he _ hcon
      rw [hcr] at this
      simp [handle, hf, hm, hsb, hcr, hpl, this]
    | true =>
      obtain ⟨h1, h2, h3, h4, h5⟩ := a.critical hcr
      have h1' : authentic code r (meeting r s) = true := h1
      have h2' : rightsOk code r (meeting r s) = true := h2
      have h3' : journalBlocked (meeting r s) = false := h3
      have h4' : counterFault r (meeting r s) = none := h4
      have hlc : (raiseCounter r.origin r.keySlot.toNat r.counter.toNat (meeting r s)).flash.lifecycle =
          s.hub.flash.lifecycle := by unfold raiseCounter; split; rfl; split <;> rfl
      have hl : (changes code && !lifecycleOk code r
          (raiseCounter r.origin r.keySlot.toNat r.counter.toNat (meeting r s)).flash.lifecycle) = false := by
        rw [hlc]
        cases hch : changes code with
        | false => rfl
        | true => simp [h5 hch]
      have hec : eclipseRefuses code (raiseCounter r.origin r.keySlot.toNat r.counter.toNat (meeting r s)) = false := by
        rw [eclipseRefuses_raiseCounter]
        exact a.eclipse hcr
      have hcon : raiseCounter r.origin r.keySlot.toNat r.counter.toNat (meeting r s) = consumed r (meeting r s) := by
        simp [consumed, hcr]
      have := he _ hcon
      rw [hcr] at this
      simp [handle, hf, hm, hsb, hcr, h1', h2', h3', h4', hl, hec, this]
  have h0 : (!served s.hub r.mailbox || s.hub.faults.hardware.isSome) = false := by simp [a.served, a.runs]
  have hx : (meeting r s : Hub) = { s.hub with mbx.last := r.mailbox } := rfl
  unfold runCommand
  rw [h0, a.request, hown]
  simp only [Bool.false_eq_true, if_false]
  rw [← hx]
  unfold process
  simp only [hh, answerTo, answered]
  try cases p.reset <;> rfl

@[simp] theorem raiseCounter_pendingIn (o : BitVec 32) (slot n : Nat) (h : Hub) :
    (raiseCounter o slot n h).mbx.pendingIn = h.mbx.pendingIn := by
  unfold raiseCounter; split; rfl; split <;> rfl

@[simp] theorem pendingOf_atStep7 (r : Req) (s : State) (mb : Nat) : pendingOf (atStep7 r s) mb = pendingOf s.hub mb := by
  unfold pendingOf atStep7 consumed
  split <;> simp [meeting]

/-- An admitted request that is not answered with PENDING. -/
theorem runCommand_done {code : Nat} {cmd : Cmd} {env : Env} {r : Req} {s : State} {p : Reply} {h : Hub}
    (a : Admitted code r s) (hc : cmd { code := code, req := r, env := env } (atStep7 r s) = .ok (p, h))
    (hp : p.status ≠ rPending) : runCommand code cmd env r s = .next (answered code r s p h) :=
  runCommand_admitted a hc (by simp [hp])

/-- An admitted request that is answered with PENDING. -/
theorem runCommand_pending {code : Nat} {cmd : Cmd} {env : Env} {r : Req} {s : State} {p : Reply} {h : Hub}
    (a : Admitted code r s) (hc : cmd { code := code, req := r, env := env } (atStep7 r s) = .ok (p, h))
    (hp : pendingRoom r s) : runCommand code cmd env r s = .next (answered code r s p h) := by
  refine runCommand_admitted a hc ?_
  rw [pendingOf_atStep7]
  cases hm : isHostMb r.mailbox with
  | false => simp
  | true => simp [Nat.not_le.mpr (hp hm)]

end Sys2Proof.Machine
end

