-- ==== Sys2Proof/Tests/Slice0.lean ====
section
/-! SUPPORT. Tests of the model: an ill-formed command for each check of WellFormed, values worked out by hand from the spec, and for
each statement with hypotheses a state and operands that meet them. -/

namespace Sys2Proof.Tests

open Sys2Proof.Machine

set_option Elab.async false

/-! ## Hubs and requests to test on -/

/-- The key of slot 0 on the hub of the tests. -/
def key0 : Bytes := zeros 32

/-- A hub in RUN and MAINTENANCE with a key in slot 0, at tick 0. -/
def hub : Hub :=
  { power := { phase := .run }
    time := { running := true }
    flash := { lifecycle := .maintenance, keys := { key := some key0, rights := 0xFFFF } :: List.replicate 7 {} } }

/-- The machine with a hub. -/
def on (h : Hub) : State := { State.reset with hub := h }

/-- A request that only reads. -/
def reading : Req :=
  { mailbox := 0, flags := 0, origin := 1, keySlot := 0xFF, length := 0, msgId := 7, counter := 0, dest := 0, payload := [], tag := [] }

/-- A request with the tag a key gives it. -/
def tagged (key : Bytes) (code : Nat) (r : Req) : Req := { r with tag := tagOf key (reqBytes code r) }

/-- A critical request with slot 0's tag. -/
def ask (mb code : Nat) (payload : Bytes) : Req :=
  tagged key0 code
    { mailbox := mb, flags := 1, origin := 1, keySlot := 0, length := BitVec.ofNat 16 payload.length, msgId := 7, counter := 1
      dest := 0, payload := payload, tag := [] }

/-- The conditions of `Admitted` that do not rest on the tag. -/
def fits (mb code : Nat) (payload : Bytes) (h : Hub) : Bool :=
  served h mb && h.faults.hardware.isNone && (!(decide (2 ≤ mb ∧ mb ≤ 5)) || !isStandby h) && decide (payload.length ≤ 4096) &&
    decide (h.flash.hubId = 0) && decide (h.flash.keys.getD 0 {} = { key := some key0, rights := 0xFFFF }) &&
    decide (code / 256 < 16) && code != 0x0B00 && mailboxOk code (ask mb code payload) h &&
    !standbyRefuses code (ask mb code payload) h && !journalBlocked h && h.mbx.counters.isEmpty &&
    lifecycleOk code (ask mb code payload) h.flash.lifecycle && !eclipseRefuses code h

theorem tagOf_length (k m : Bytes) : (tagOf k m).length = 16 := by
  simp [tagOf, hmac, sha256_length]

theorem tagOf_tagged (key : Bytes) (code : Nat) (r : Req) :
    tagOf key (reqBytes code (tagged key code r)) = (tagged key code r).tag := rfl

theorem tagOf_ask (mb code : Nat) (p : Bytes) : tagOf key0 (reqBytes code (ask mb code p)) = (ask mb code p).tag :=
  tagOf_tagged _ _ _

/-- Step 1 passes. -/
theorem formed (mb code : Nat) {p : Bytes} {h : Hub} (hp : p.length ≤ 4096) (hi : h.flash.hubId = 0) :
    wellFormed code true (ask mb code p) h = true := by
  simp [wellFormed, ask, tagged, isCritical, bitOf, tagOf_length, hi, pairOrigin]; omega

/-- Step 3 passes. -/
theorem authentic_ask {h : Hub} (hk : (slotAt h 0).key = some key0) (mb code : Nat) (p : Bytes) :
    authentic code (ask mb code p) h = true := by
  have : keyOf h (ask mb code p).keySlot.toNat = some key0 := by
    show (if (0 : Nat) = 0xFE then _ else if (0 : Nat) < 8 then (slotAt h 0).key else none) = _
    simp [hk]
  simp only [authentic, this]
  rw [tagOf_ask]
  simp [ask, tagged]

/-- Every step up to 6 of 13 R324 passes where the tag does not matter. -/
theorem admitted {mb code : Nat} {p : Bytes} {h : Hub} (f : fits mb code p h = true) : Admitted code (ask mb code p) (on h) := by
  simp only [fits, Bool.and_eq_true, decide_eq_true_eq, Bool.or_eq_true, Bool.not_eq_true', bne_iff_ne, Option.isNone_iff_eq_none,
    List.isEmpty_iff] at f
  obtain ⟨⟨⟨⟨⟨⟨⟨⟨⟨⟨⟨⟨⟨h1, h2⟩, h3⟩, h4⟩, h5⟩, h6⟩, h7⟩, h8⟩, h9⟩, h10⟩, h11⟩, h12⟩, h13⟩, h14⟩ := f
  have hk : slotAt h 0 = { key := some key0, rights := 0xFFFF } := h6
  refine ⟨h1, h2, by simp [isResponse, ask, tagged, bitOf], ?_, ?_, h9, h10, fun x => absurd x (by simp [isCritical, ask, tagged, bitOf]),
    fun _ => ⟨?_, ?_, h11, ?_, fun _ => h13⟩, fun _ => h14⟩
  · intro a b
    rcases h3 with h3 | h3
    · exact absurd h3 (by simp [show 2 ≤ mb ∧ mb ≤ 5 from ⟨a, b⟩])
    · exact h3
  · exact formed mb code h4 h5
  · exact authentic_ask (h := h) (by rw [hk]) mb code p
  · show rightsOk code (ask mb code p) h = true
    simp only [rightsOk, h8, if_false]
    have e : slotAt h (ask mb code p).keySlot.toNat = { key := some key0, rights := 0xFFFF } := hk
    rw [e]
    have : bitOf 65535 (code / 256) = true := by
      have : ∀ k < 16, bitOf 65535 k = true := by decide
      exact this _ h7
    simpa [ask, tagged] using this
  · show counterFault (ask mb code p) h = none
    simp [counterFault, lastCounter, h12, ask, tagged]

/-- The hub a request of the tests meets at step 7. -/
def met (mb code : Nat) (p : Bytes) (h : Hub) : Hub := atStep7 (ask mb code p) (on h)

/-- A configuration head and its body (14 R340). -/
def head (at_ first count stage arg : Nat) (body : Bytes) : Bytes :=
  leNat 8 at_ ++ leNat 2 first ++ leNat 2 count ++ leNat 1 stage ++ zeros 3 ++ leNat 8 arg ++ body

/-- A fact about every element of a list with its index. -/
theorem each {α : Type} {l : List α} {P : Nat → α → Prop} [∀ i a, Decidable (P i a)]
    (h : (l.zipIdx.all fun x => decide (P x.2 x.1)) = true) : ∀ i e, l[i]? = some e → P i e := by
  intro i e he
  have := List.all_eq_true.mp h (e, i) (List.mem_zipIdx_iff_getElem?.mpr he)
  simpa using this

/-- A check that passes, by evaluation. -/
theorem passes {x : Chk} (h : (match x with | .ok _ => true | .error _ => false) = true) : x = .ok () := by
  cases x with
  | ok u => rfl
  | error p => cases h

/-- A head that is read, by evaluation. -/
theorem reads {x : Except Reply Head} {hd : Head}
    (h : (match x with | .ok y => decide (y = hd) | .error _ => false) = true) : x = .ok hd := by
  cases x with
  | ok u => exact congrArg _ (of_decide_eq_true h)
  | error p => cases h

/-! ## The port, the mailboxes and the order of checks -/

theorem witness_StepRunsFrontCommand :
    ({ on hub with pending := [.vinRise, .vinLow] } : State).pending = .vinRise :: [.vinLow] ∧ (on hub).pending = [] := by
  decide +kernel

theorem witness_EveryRunIsSafe : exec .vinRise (on hub) = .next (on hub) := rfl

theorem hostInv_reset (h : Hub) : HostInv (on h) :=
  ⟨rfl, show (0 : Word) &&& 0xFFFFFF40#32 = 0#32 by decide, Nat.zero_le _, rfl⟩

theorem witness_EveryStepKeepsHostInv : HostInv State.reset ∧ step State.reset = .next State.reset :=
  ⟨hostInv_reset _, rfl⟩

/-- A hub still in BOOT. -/
def booting : Hub := { hub with power.phase := .boot }

theorem witness_HostPortTransactions :
    ((0x11 : Byte) ≠ 0xA5 ∧ (0x11 : Byte) ≠ 0x5A) ∧ portAnswers { hub with power.phase := .off } = false ∧
    (portAnswers booting = true ∧ portReady booting = false) ∧
    (portReady hub = true ∧ (0x10002 : BitVec 24).toNat % 4 ≠ 0 ∧ mapped (0xFFFFFC : BitVec 24).toNat = false) ∧
    ((0x10000 : BitVec 24).toNat % 4 = 0 ∧ mapped (0x10000 : BitVec 24).toNat = true) ∧
    ((0x10000 : BitVec 24).toNat ≠ 0x24 ∧ (0x10000 : BitVec 24).toNat ≠ 0x2C) ∧
    ((zeros 4).length = 4 ∧ bufferAt (0x11028 : BitVec 24).toNat = some (1, 0) ∧ (0x11028 : BitVec 24).toNat % 4 = 0) ∧
    HostInv (on hub) ∧ (0 : BitVec 24) ≠ 0x14 ∧ ∀ mb, bufferAt (0 : BitVec 24).toNat ≠ some (mb, 0) :=
  ⟨by decide +kernel, by decide +kernel, by decide +kernel, by decide +kernel, by decide +kernel, by decide +kernel,
    by decide +kernel, hostInv_reset _, by decide +kernel, fun mb => by simp [bufferAt]⟩

/-- A machine whose mailbox 1 is BUSY, and a hub whose MB2 is full. -/
def busy : State := { on hub with host.mb1 := { busy := true } }

/-- A request of 32 bytes that only reads, and a hub with four of them waiting in MB2. -/
def small : Bytes := leNat 1 1 ++ zeros 1 ++ leNat 2 0x0080 ++ leNat 4 1 ++ zeros 24

/-- A hub with four messages waiting in MB2. -/
def full : Hub := { hub with mbx.waiting := List.replicate 4 { mb := 2, msg := small } }

theorem witness_MailboxesTakeRequests :
    (portReady hub = true ∧ mbState (on hub) 7 = 0 ∧ ({ free := false } : Env).free = false ∧ mbState busy 1 ≠ 0) ∧
    (({} : Env).free = true ∧ hub.mbx.waiting = [] ∧ hub.faults.hardware = none ∧ served hub 7 = true) ∧
    (served hub 2 = true ∧ isStandby hub = false ∧ (hub.mbx.waiting.filter (·.mb == 2)).length < 4) ∧
    (served full 2 = true ∧ isStandby full = false ∧ 4 ≤ (full.mbx.waiting.filter (·.mb == 2)).length) ∧
    ∃ x, parseMsg 2 small = some x ∧ isResponse x.2 = false := by
  refine ⟨by decide +kernel, by decide +kernel, by decide +kernel, by decide +kernel, _, rfl, by decide +kernel⟩

/-- A machine whose host FIFO holds two words, the first with END. -/
def fed : State := { on hub with host.fifo := { words := [0x8, 0x10], packets := 1 } }

theorem witness_AttentionAndFifoRegisters :
    (portReady hub = true ∧ (on hub).host.fifo.words = [] ∧ custodyOutlet hub ≠ 2) ∧ custodyOutlet fed.hub ≠ 2 ∧
      HostInv fed ∧ fed.host.fifo.words = 0x8 :: [0x10] :=
  ⟨by decide +kernel, by decide +kernel, ⟨rfl, by decide, by decide +kernel, rfl⟩, rfl⟩

/-- A machine whose MB7 has a notice waiting. -/
def noticed : State := { on hub with host.mb7 := { notices := [small] } }

theorem witness_NoticesReachTheHost :
    (HostInv noticed ∧ (hostMb noticed 7).notices = small :: [] ∧ bitOf noticed.host.attn.toNat (3 + hostIndex 7) = false) ∧
    (hostMb (on hub) 0).notices = [] ∧
    (isHostMb (ask 0 0x0B08 []).mailbox = true ∧ (isShadowed 0x0B08 = true → isStandby hub = false) ∧
      (hostMb (on hub) 0).notices = [] ∧ bitOf (on hub).host.attn.toNat (3 + hostIndex 0) = false) ∧
    bitOf ({ on hub with host.attn := 8 } : State).host.attn.toNat (3 + hostIndex 0) = true :=
  ⟨⟨⟨rfl, by decide, Nat.zero_le _, rfl⟩, by decide +kernel, by decide +kernel⟩, by decide +kernel, by decide +kernel, by decide +kernel⟩

theorem witness_ResponseReachesTheHost : HostInv (on hub) ∧ hub.pair.paired = false := ⟨hostInv_reset _, rfl⟩

theorem witness_MessagesParseBack : (ask 0 0x0080 (zeros 4096)).payload.length = (ask 0 0x0080 (zeros 4096)).length.toNat := by
  decide +kernel

/-- A request that is not critical. -/
def plain (code : Nat) (payload : Bytes) : Req := { ask 0 code payload with flags := 0, keySlot := 0xFF, counter := 0, tag := [] }

/-- The request of the tests with a tag that is too short. -/
def forged (code : Nat) : Req := { ask 0 code [] with tag := zeros 15 }

/-- A hub whose slot 0 holds no right. -/
def noRights : Hub := { hub with flash.keys := [{ key := some key0 }] }

/-- A hub that has taken counter 1 of origin 1 in slot 0. -/
def replayed : Hub := { hub with mbx.counters := [⟨1, 0, 1⟩] }

/-- A hub in the eclipse state. -/
def eclipsed : Hub := { hub with faults := { eclipse := some { tick := 0, inst := 0, causes := [(0x51, 0, none)], fatal := false } } }

theorem witness_RefusalsInOrder :
    (Admitted 0x0080 (ask 0 0x0080 [1]) (on hub) ∧
      ∃ p, cmdReadIdentity { code := 0x0080, req := ask 0 0x0080 [1] } (met 0 0x0080 [1] hub) = .error p ∧ p.reset = none) ∧
    (served hub 0 = true ∧ hub.faults.hardware = none ∧ isResponse (forged 0x0500) = false) ∧
    wellFormed 0x0500 true (forged 0x0500) (meeting (forged 0x0500) (on hub)) = false ∧
    (wellFormed 0x0B03 true (plain 0x0B03 []) (meeting (plain 0x0B03 []) (on hub)) = true ∧
      mailboxOk 0x0B03 (plain 0x0B03 []) (meeting (plain 0x0B03 []) (on hub)) = false) ∧
    (wellFormed 0x0500 true (plain 0x0500 []) (meeting (plain 0x0500 []) (on hub)) = true ∧
      mailboxOk 0x0500 (plain 0x0500 []) (meeting (plain 0x0500 []) (on hub)) = true ∧
      standbyRefuses 0x0500 (plain 0x0500 []) (meeting (plain 0x0500 []) (on hub)) = false ∧
      isCritical (plain 0x0500 []) = false ∧ changes 0x0500 = true) ∧
    authentic 0x0500 (ask 0 0x0500 []) (meeting (ask 0 0x0500 []) (on { hub with flash.keys := [] })) = false ∧
    (authentic 0x0500 (ask 0 0x0500 []) (meeting (ask 0 0x0500 []) (on noRights)) = true ∧
      rightsOk 0x0500 (ask 0 0x0500 []) (meeting (ask 0 0x0500 []) (on noRights)) = false) ∧
    (authentic 0x0500 (ask 0 0x0500 []) (meeting (ask 0 0x0500 []) (on replayed)) = true ∧
      rightsOk 0x0500 (ask 0 0x0500 []) (meeting (ask 0 0x0500 []) (on replayed)) = true ∧ journalBlocked replayed = false ∧
      (ask 0 0x0500 []).counter.toNat ≤ (lastCounter replayed 1 0).getD 0) ∧
    (wellFormed 0x0B02 true (ask 0 0x0B02 [0]) (meeting (ask 0 0x0B02 [0]) (on hub)) = true ∧
      counterFault (ask 0 0x0B02 [0]) hub = none ∧ changes 0x0B02 = true ∧
      lifecycleOk 0x0B02 (ask 0 0x0B02 [0]) hub.flash.lifecycle = false) ∧
    (authentic 0x0500 (ask 0 0x0500 []) (meeting (ask 0 0x0500 []) (on eclipsed)) = true ∧
      counterFault (ask 0 0x0500 []) eclipsed = none ∧
      lifecycleOk 0x0500 (ask 0 0x0500 []) eclipsed.flash.lifecycle = true ∧ eclipseRefuses 0x0500 eclipsed = true) := by
  refine ⟨⟨admitted (by decide +kernel), _, rfl, rfl⟩, ?_, ?_, ?_, ?_, ?_, ⟨authentic_ask rfl _ _ _, ?_⟩, ⟨authentic_ask rfl _ _ _, ?_⟩,
    ⟨formed _ _ (by decide) rfl, ?_⟩, ⟨authentic_ask rfl _ _ _, ?_⟩⟩
  all_goals decide +kernel

/-! ## Commands -/

/-- The head a payload spells. -/
def heads (p : Bytes) : Head :=
  { at_ := fieldAt p 0 8, first := fieldAt p 8 2, count := fieldAt p 10 2, stage := bitOf (fieldAt p 12 1) 0
    arg := fieldAt p 16 8, body := p.drop 24 }

/-- A head with no change of state. -/
def bare (arg : Nat) (body : Bytes) : Bytes := head 0 0 0 0 arg body

theorem witness_AcceptedCommandIsCarriedOut :
    commandRow (.readPair (ask 0 0x0A80 [])) = some (0x0A80, cmdReadPair, {}, ask 0 0x0A80 []) ∧
      Admitted 0x0A80 (ask 0 0x0A80 []) (on hub) ∧
      (∃ p h, cmdReadPair { code := 0x0A80, req := ask 0 0x0A80 [] } (met 0 0x0A80 [] hub) = .ok (p, h)) ∧ pendingOf hub 0 < 8 :=
  ⟨rfl, admitted (by decide +kernel), ⟨_, _, rfl⟩, by decide +kernel⟩

/-- A hub whose channel 511 is remapped, and one whose channel 504 is retired. -/
def remappedHub : Hub := updChan 511 (fun x => { x with remapped := true }) hub

/-- A hub whose channel 504 is retired. -/
def retiredHub : Hub := updChan 504 (fun x => { x with retired := true }) hub

theorem witness_InformationAndChannelCommands :
    (Admitted 0x0010 (ask 0 0x0010 (zeros 64)) (on hub) ∧ (ask 0 0x0010 (zeros 64)).payload.length = 64) ∧
    (Admitted 0x0080 (ask 1 0x0080 []) (on hub) ∧ (met 1 0x0080 [] hub).flash.keys.length = 8 ∧
      (met 1 0x0080 [] hub).flash.store.label.length = 64) ∧
    (let p := leNat 2 412 ++ leNat 2 100
     Admitted 0x0081 (ask 7 0x0081 p) (on hub) ∧ p.length = 4 ∧ 1 ≤ fieldAt p 2 2 ∧ fieldAt p 2 2 ≤ 100) ∧
    (let p := leNat 2 511 ++ zeros 14
     Admitted 0x0102 (ask 0 0x0102 p) (on remappedHub) ∧ p.length = 16 ∧ fieldAt p 0 2 < 512 ∧ fieldAt p 2 1 < 2 ∧
      allZero ((p.drop 3).take 5) = true ∧ effectTick (met 0 0x0102 p remappedHub) (fieldAt p 8 8) 1 = some 1 ∧
      remapOk (met 0 0x0102 p remappedHub) 511 (fieldAt p 2 1 == 0) = true) ∧
    (let p := leNat 1 63 ++ leNat 1 1 ++ zeros 14
     Admitted 0x0103 (ask 0 0x0103 p) (on retiredHub) ∧ p.length = 16 ∧ fieldAt p 0 1 < 64 ∧ fieldAt p 1 1 ≠ 0 ∧
      allZero ((p.drop 2).take 6) = true ∧ effectTick (met 0 0x0103 p retiredHub) (fieldAt p 8 8) 1 = some 1 ∧
      ∀ c ∈ ((List.range 8).filter (bitOf (fieldAt p 1 1))).map (8 * fieldAt p 0 1 + ·),
        (chanAt (met 0 0x0103 p retiredHub) c).retired = true) ∧
    (let p := leNat 2 500 ++ leNat 2 64
     Admitted 0x0180 (ask 0 0x0180 p) (on hub) ∧ p.length = 4 ∧ 1 ≤ fieldAt p 2 2 ∧ fieldAt p 2 2 ≤ 64) := by
  refine ⟨⟨admitted (by decide +kernel), ?_⟩, ⟨admitted (by decide +kernel), ?_⟩, ⟨admitted (by decide +kernel), ?_⟩,
    ⟨admitted (by decide +kernel), ?_⟩, ⟨admitted (by decide +kernel), ?_⟩, ⟨admitted (by decide +kernel), ?_⟩⟩ <;> decide +kernel

/-- A hub whose lists of channels, groups and front ends are empty, so that every channel reads as IDLE: quick to check. -/
def emptyHub : Hub := { hub with cfg.chan := [], cfg.group := [], chans := [], groups := [], fes := [] }

/-- One channel set to IDLE at tick 1, with STAGE and without, and one group described, supply limits 12 V and 24 V. -/
def chanSet (stage : Nat) : Bytes := head 1 511 1 stage 0 (leNat 8 3)

/-- A group described. -/
def groupSet (stage : Nat) : Bytes := head 1 63 1 stage (1200 + 65536 * 2400) (leNat 8 0)

theorem witness_ChannelConfigurationCommands :
    (∀ stage ∈ [0, 1], Admitted 0x0100 (ask 0 0x0100 (chanSet stage)) (on emptyHub) ∧
      readHead { code := 0x0100, req := ask 0 0x0100 (chanSet stage) } true 1 256 512 8 = .ok (heads (chanSet stage)) ∧
      (heads (chanSet stage)).arg = 0 ∧ effectTick (met 0 0x0100 (chanSet stage) emptyHub) (heads (chanSet stage)).at_ 1 = some 1 ∧
      checkAll (chanEntryCheck (met 0 0x0100 (chanSet stage) emptyHub) (planAt (checkBase (met 0 0x0100 (chanSet stage) emptyHub)) 1) 511) 0
        ((entries (heads (chanSet stage)) 8).map ofLe) = .ok ()) ∧
    ((heads (chanSet 1)).stage = true ∧ (emptyHub.staged.map (·.origin)).eraseDups.length < 4 ∧ (heads (chanSet 0)).stage = false) ∧
    (let own := mapI (fun i d => Item.chan (511 + i) (BitVec.ofNat 64 d)) ((entries (heads (chanSet 0)) 8).map ofLe)
     let g := met 0 0x0100 (chanSet 0) emptyHub
     let after := schedule 1 (addItems (stagedItems g 1 0x0100) own) (checkBase (dropStaged 1 0x0100 g))
     relFaultFrom after 1 = none ∧ budgetFault after 1 = none) ∧
    (∀ stage ∈ [0, 1], Admitted 0x0101 (ask 0 0x0101 (groupSet stage)) (on emptyHub) ∧
      readHead { code := 0x0101, req := ask 0 0x0101 (groupSet stage) } true 1 64 64 8 = .ok (heads (groupSet stage)) ∧
      (heads (groupSet stage)).arg < 2 ^ 32 ∧
      checkAll (groupEntryCheck (planAt (checkBase (met 0 0x0101 (groupSet stage) emptyHub)) 1) 1200) 0
        ((entries (heads (groupSet stage)) 8).map ofLe) = .ok ()) ∧
    (let own := Item.supply 1200 2400 ::
       mapI (fun i d => Item.group (63 + i) (BitVec.ofNat 64 d)) ((entries (heads (groupSet 0)) 8).map ofLe)
     let g := met 0 0x0101 (groupSet 0) emptyHub
     let after := schedule 1 (addItems (stagedItems g 1 0x0101) own) (checkBase (dropStaged 1 0x0101 g))
     (heads (groupSet 0)).arg % 65536 ≤ (heads (groupSet 0)).arg / 65536 % 65536 ∧
     relFaultFrom after 1 = none ∧ budgetFault after 1 = none) := by
  refine ⟨?_, by decide +kernel, by decide +kernel, ?_, by decide +kernel⟩
  · intro stage hs
    simp only [List.mem_cons, List.not_mem_nil, or_false] at hs
    rcases hs with rfl | rfl <;> exact ⟨admitted (by decide +kernel), rfl, by decide +kernel, by decide +kernel, passes (by decide +kernel)⟩
  · intro stage hs
    simp only [List.mem_cons, List.not_mem_nil, or_false] at hs
    rcases hs with rfl | rfl <;> exact ⟨admitted (by decide +kernel), rfl, by decide +kernel, passes (by decide +kernel)⟩

/-- The arguments of a CFG_TICK at the earliest boundary. -/
def tickArg (tc v : Nat) : Bytes := bare (tc * 2 ^ 48 + v * 2 ^ 52) []

theorem witness_TickRateAndVerdictWindow :
    (Admitted 0x0200 (ask 0 0x0200 (tickArg 3 5)) (on hub) ∧
      readBareHead { code := 0x0200, req := ask 0 0x0200 (tickArg 3 5) } 0 = .ok (heads (tickArg 3 5)) ∧
      (heads (tickArg 3 5)).at_ = 0 ∧ 4 < bitsOf (heads (tickArg 3 5)).arg 54 52) ∧
    (let p := tickArg 5 4
     let g := met 0 0x0200 p emptyHub
     let after := rateChecked (earliestB g) 5 4 g
     Admitted 0x0200 (ask 0 0x0200 p) (on emptyHub) ∧ readBareHead { code := 0x0200, req := ask 0 0x0200 p } 0 = .ok (heads p) ∧
      (heads p).at_ = 0 ∧ (heads p).arg % 2 ^ 48 = 0 ∧ bitsOf (heads p).arg 51 48 = 5 ∧ bitsOf (heads p).arg 54 52 = 4 ∧
      bitsOf (heads p).arg 63 55 = 0 ∧ relFaultFrom after (rateTickOf after (earliestB g)) = none ∧
      budgetFault after (rateTickOf after (earliestB g)) = none) := by
  refine ⟨⟨admitted (by decide +kernel), rfl, ?_, ?_⟩, admitted (by decide +kernel), rfl, ?_, ?_, ?_, ?_, ?_, ?_, ?_⟩ <;>
    decide +kernel

theorem witness_TimeCommands :
    (let p := bare 0x6400 (zeros 24)
     let a := (heads p).arg
     Admitted 0x0201 (ask 0 0x0201 p) (on hub) ∧ readBareHead { code := 0x0201, req := ask 0 0x0201 p } 24 = .ok (heads p) ∧
      bitsOf a 7 4 = 0 ∧ bitsOf a 63 41 = 0 ∧ 10 ≤ bitsOf a 23 8 ∧ effectTick (met 0 0x0201 p hub) (heads p).at_ 1 = some 1 ∧
      tbSource (BitVec.ofNat 64 a) ≠ 4 ∧ tbSource (BitVec.ofNat 64 a) ≠ 3) ∧
    (let p := leNat 8 1 ++ zeros 16
     let g := met 0 0x0202 p hub
     let d : Inst := sfieldAt p 0 8 * secUnits + (fieldAt p 8 4 : Int) * 65536 + fieldAt p 12 2
     Admitted 0x0202 (ask 0 0x0202 p) (on hub) ∧ p.length = 24 ∧ fieldAt p 8 4 < 1000000000 ∧
      allZero ((p.drop 14).take 2) = true ∧ effectTick g (fieldAt p 16 8) 2 = some 2 ∧ g.time.source = 0 ∧ g.time.step = none ∧
      d ≠ 0 ∧ 0 ≤ readingAt g 2 + d) ∧
    Admitted 0x0280 (ask 0 0x0280 []) (on hub) ∧ (met 0 0x0280 [] hub).view.laneMeas.length = 6 := by
  refine ⟨⟨admitted (by decide +kernel), rfl, ?_, ?_, ?_, ?_, ?_, ?_⟩, ⟨admitted (by decide +kernel), ?_⟩, admitted (by decide +kernel), ?_⟩ <;>
    decide +kernel

theorem room {r : Req} {h : Hub} (x : pendingOf h r.mailbox < 8) : pendingRoom r (on h) := fun _ => x

theorem witness_CalibrationAndHousekeepingCommands :
    (let p := bare 0x003203E8800A1828 []
     Admitted 0x0300 (ask 0 0x0300 p) (on hub) ∧ readBareHead { code := 0x0300, req := ask 0 0x0300 p } 0 = .ok (heads p) ∧
      calBlockOk (heads p).arg = true ∧ effectTick (met 0 0x0300 p hub) (heads p).at_ 1 = some 1) ∧
    (let p := leNat 1 1 ++ zeros 1 ++ leNat 2 575 ++ leNat 2 1
     Admitted 0x0301 (ask 0 0x0301 p) (on hub) ∧ p.length = 6 ∧ fieldAt p 0 1 < 2 ∧ allZero ((p.drop 1).take 1) = true ∧
      fieldAt p 2 2 + fieldAt p 4 2 ≤ 576) ∧
    (let p := leNat 2 511 ++ zeros 2 ++ leNat 4 16 ++ zeros 16
     let g := met 0 0x0302 p hub
     Admitted 0x0302 (ask 0 0x0302 p) (on hub) ∧ pendingRoom (ask 0 0x0302 p) (on hub) ∧ p.length = 24 ∧ fieldAt p 0 2 < 512 ∧
      fieldAt p 2 1 = 0 ∧ allZero ((p.drop 3).take 1) = true ∧ 16 ≤ fieldAt p 4 4 ∧ fieldAt p 4 4 ≤ 16777216 ∧
      fieldAt p 4 4 % 2 = 0 ∧ allZero ((p.drop 12).take 4) = true ∧ effectTick g (fieldAt p 16 8) 1 = some 1 ∧
      (chanAt g 511).calWin = none ∧ openWindows g < 16) ∧
    (let p := head 0 0 1 0 0 (leNat 4 0x8000)
     let ws := (entries (heads p) 4).map ofLe
     let g := met 0 0x0303 p emptyHub
     Admitted 0x0303 (ask 0 0x0303 p) (on emptyHub) ∧
      readHead { code := 0x0303, req := ask 0 0x0303 p } false 1 16 16 4 = .ok (heads p) ∧
      effectTick g (heads p).at_ 1 = some 1 ∧ (heads p).first = 0 ∧ (heads p).arg = 0 ∧ (∀ w ∈ ws, hkEntryOk w = true) ∧
      hkSeqOk g (checkBase g).cfg (ws.map (BitVec.ofNat 32)) = true) ∧
    (Admitted 0x0380 (ask 0 0x0380 (zeros 4)) (on hub) ∧ (zeros 4).length = 4) ∧ Admitted 0x0381 (ask 0 0x0381 []) (on hub) := by
  refine ⟨⟨admitted (by decide +kernel), rfl, ?_, ?_⟩, ⟨admitted (by decide +kernel), ?_⟩,
    ⟨admitted (by decide +kernel), room (by decide +kernel), ?_⟩, ⟨admitted (by decide +kernel), rfl, ?_⟩,
    ⟨admitted (by decide +kernel), ?_⟩, admitted (by decide +kernel)⟩ <;> decide +kernel

/-- A STATS node of channel 0 with a period of 1,000, and its load as one of `total` nodes. -/
def node : Bytes := leNat 1 2 ++ zeros 2 ++ leNat 1 1 ++ leNat 4 1000 ++ zeros 20 ++ leNat 4 1 ++ zeros 32

/-- The first segment of a graph with one node. -/
def load (total : Nat) : Bytes := leNat 4 9 ++ leNat 2 total ++ leNat 2 0 ++ leNat 1 1 ++ zeros 7 ++ node

theorem witness_GraphCommands :
    (∀ total ∈ [1, 1024],
      let p := load total
      let g := met 0 0x0400 p emptyHub
      Admitted 0x0400 (ask 0 0x0400 p) (on emptyHub) ∧ fieldAt p 8 1 = 1 ∧ p.length = 80 ∧ BitVec.ofNat 32 (fieldAt p 0 4) ≠ 0 ∧
        fieldAt p 4 2 = total ∧ allZero ((p.drop 9).take 7) = true ∧ fieldAt p 6 2 = 0 ∧ g.arr.activate = none ∧
        g.arr.loading = none ∧ (chunks 64 (p.drop 16)).length = 1) ∧
    (let graph : Graph := { id := 9, nodes := [node] }
     let after := graphChecked graph (met 0 0x0400 (load 1) emptyHub)
     (∀ i < graph.nodes.length, nodeFault graph.nodes i = none) ∧
     (∀ u ∈ planTicks after 0, combineRel (planAt after u) graph = none) ∧ budgetFault after 0 = none) ∧
    (let p := zeros 16
     let g := met 0 0x0401 p emptyHub
     let after := { g with arr.activate := some (0, 2) }
     Admitted 0x0401 (ask 0 0x0401 p) (on emptyHub) ∧ p.length = 16 ∧ allZero ((p.drop 4).take 4) = true ∧
      effectTick g (fieldAt p 8 8) 2 = some 2 ∧ g.arr.activate = none ∧ BitVec.ofNat 32 (fieldAt p 0 4) = 0 ∧
      (∀ u ∈ planTicks after 2, combineRel (planAt after u) {} = none) ∧ budgetFault after 2 = none ∧ activationFailures after 2 = []) ∧
    Admitted 0x0480 (ask 0 0x0480 []) (on hub) := by
  refine ⟨?_, by decide +kernel, ⟨admitted (by decide +kernel), by decide +kernel⟩, admitted (by decide +kernel)⟩
  intro total hs
  simp only [List.mem_cons, List.not_mem_nil, or_false] at hs
  rcases hs with rfl | rfl <;> exact ⟨admitted (by decide +kernel), by decide +kernel⟩

/-- A flare unit of source TRIG_IN, and a capture definition that names no channel. -/
def unitCfg (stage : Nat) : Bytes := head 1 15 1 stage 0 (leNat 1 4 ++ leNat 1 5 ++ zeros 30)

/-- A capture definition. -/
def capCfg (stage : Nat) : Bytes := head 1 7 1 stage 1472 (zeros 68 ++ leNat 4 1 ++ zeros 1 ++ leNat 1 1 ++ zeros 1 ++ leNat 1 1 ++ zeros 20)

theorem witness_FlareAndCaptureConfiguration :
    (∀ stage ∈ [0, 1],
      let p := unitCfg stage
      let g := met 0 0x0500 p hub
      Admitted 0x0500 (ask 0 0x0500 p) (on hub) ∧
      readHead { code := 0x0500, req := ask 0 0x0500 p } true 1 16 16 32 = .ok (heads p) ∧
      (∀ i d, (entries (heads p) 32)[i]? = some d → flareFault (planAt (checkBase g) 1).cfg.graph ((heads p).first + i) d = none) ∧
      (heads p).arg = 0 ∧ effectTick g (heads p).at_ 1 = some 1 ∧ (heads p).stage = (stage == 1)) ∧
    (let p := unitCfg 0
     let g := met 0 0x0500 p hub
     coincidenceNested (planAt (schedule 1 (addItems (stagedItems g 1 0x0500)
       (mapI (fun i d => Item.flare ((heads p).first + i) d) (entries (heads p) 32))) (checkBase g)) 1) = false) ∧
    (∀ stage ∈ [0, 1],
      let p := capCfg stage
      Admitted 0x0501 (ask 0 0x0501 p) (on emptyHub) ∧
      readHead { code := 0x0501, req := ask 0 0x0501 p } true 0 8 8 96 = .ok (heads p) ∧
      (heads p).arg < 65536 ∧ mibOk (heads p).arg = true ∧ effectTick (met 0 0x0501 p emptyHub) (heads p).at_ 1 = some 1 ∧
      (∀ d ∈ entries (heads p) 96, captureFault d = none) ∧ (heads p).stage = (stage == 1)) ∧
    (let p := capCfg 0
     let g := met 0 0x0501 p emptyHub
     let after := schedule 1 (addItems (stagedItems g 1 0x0501)
       (mapI (fun i d => Item.capture ((heads p).first + i) d) (entries (heads p) 96))) (checkBase (dropStaged 1 0x0501 g))
     relFaultFrom after 1 = none ∧ budgetFault after 1 = none ∧ ringFailures after (heads p).arg 1 = []) := by
  refine ⟨?_, by decide +kernel, ?_, by decide +kernel⟩
  · intro stage hs
    simp only [List.mem_cons, List.not_mem_nil, or_false] at hs
    rcases hs with rfl | rfl <;> exact ⟨admitted (by decide +kernel), rfl, each (by decide +kernel), by decide +kernel⟩
  · intro stage hs
    simp only [List.mem_cons, List.not_mem_nil, or_false] at hs
    rcases hs with rfl | rfl <;> exact ⟨admitted (by decide +kernel), reads (by decide +kernel), by decide +kernel⟩

/-- A capture of definition 7 with its header emitted. -/
def capture3 : Capture :=
  { id := 3, desc := zeros 73 ++ leNat 1 1 ++ zeros 22, rate := 0, units := [], trig := {}, decided := 0, trigGrid := 0, gridRate := 0, pre := 0
    preShort := false, post := 0, hasBuffer := true, headerDone := true, segs := [{ tick := 0, first := 0, count := 8 }] }

/-- A hub with that capture, flare unit 15 of source NOW, and five records assigned whose custody the host takes. -/
def capHub : Hub :=
  { hub with
    cfg.flare := hub.cfg.flare.set 15 (leNat 1 7 ++ leNat 1 5 ++ zeros 1 ++ leNat 1 1 ++ zeros 28)
    cfg.outlets := 0x03E803E8000000A2
    cap.defs := hub.cap.defs.set 7 { caps := [capture3] }
    stream.nextSeq := 5 }

/-- One range of five records. -/
def five : Bytes := leNat 1 1 ++ zeros 7 ++ leNat 8 0 ++ leNat 8 4

theorem witness_CaptureAndCustodyCommands :
    (let p := leNat 1 15 ++ zeros 23
     let g := met 0 0x0502 p capHub
     Admitted 0x0502 (ask 0 0x0502 p) (on capHub) ∧ p.length = 24 ∧ allZero ((p.drop 1).take 7) = true ∧ fieldAt p 0 1 < 16 ∧
      unitOn g 15 7 = true ∧ fieldAt (p.drop 8) 8 4 < 1000000000 ∧
      qualityOk (stampFrom (p.drop 8)).quality = true ∧ (stampFrom (p.drop 8)).inst ≤ g.time.tickInst + 3600 * secUnits ∧ ∀ x ∈ g.cap.now, x.1 ≠ 15) ∧
    (let p := leNat 1 7 ++ zeros 3 ++ leNat 4 3
     let g := met 0 0x0503 p capHub
     Admitted 0x0503 (ask 0 0x0503 p) (on capHub) ∧ p.length = 8 ∧ allZero ((p.drop 1).take 3) = true ∧ fieldAt p 0 1 < 8 ∧
      windowCapture g 7 3 = some capture3) ∧
    (let p := leNat 1 3 ++ zeros 15
     Admitted 0x0504 (ask 0 0x0504 p) (on hub) ∧ p.length = 16 ∧ fieldAt p 0 1 < 4 ∧ allZero ((p.drop 1).take 7) = true ∧
      effectTick (met 0 0x0504 p hub) (fieldAt p 8 8) 1 = some 1) ∧
    Admitted 0x0580 (ask 0 0x0580 []) (on hub) ∧
    (let g := met 0 0x0601 five capHub
     Admitted 0x0601 (ask 0 0x0601 five) (on capHub) ∧ Admitted 0x0602 (ask 0 0x0602 five) (on capHub) ∧ fieldAt five 0 1 = 1 ∧
      five.length = 24 ∧ allZero ((five.drop 1).take 7) = true ∧ custodyOutlet g = 2 ∧
      rangesOk g.stream.nextSeq 0 [(0, 4)] = true ∧
      ((chunks 16 (five.drop 8)).map fun b => (fieldAt b 0 8, fieldAt b 8 8)) = [(0, 4)]) := by
  refine ⟨⟨admitted (by decide +kernel), ?_⟩, ⟨admitted (by decide +kernel), ?_⟩, ⟨admitted (by decide +kernel), ?_⟩,
    admitted (by decide +kernel), admitted (by decide +kernel), admitted (by decide +kernel), ?_⟩ <;> decide +kernel

/-- A stopped job and a running one. -/
def job (running : Bool) : Job :=
  { req := reading, def_ := 7, capId := 3, outSize := 65536, pos := 0, running := running
    stop := if running then none else some .outputFull }

/-- A hub with both. -/
def jobHub : Hub := { capHub with jobs := [some (job false), some (job true), none, none] }

/-- The outlet block as reset leaves it. -/
def outletsArg : Bytes := bare 0x03E803E8000000A0 []

theorem witness_StreamCommands :
    (let p := bare 0x100 (zeros 1024)
     let es := (entries (heads p) 2).map ofLe
     Admitted 0x0600 (ask 0 0x0600 (head 0 0 512 0 0x100 (zeros 1024))) (on hub) ∧ bitsOf (heads p).arg 7 1 = 0 ∧
      readHead { code := 0x0600, req := ask 0 0x0600 (head 0 0 512 0 0x100 (zeros 1024)) } false 512 512 512 2 =
        .ok (heads (head 0 0 512 0 0x100 (zeros 1024))) ∧
      1 ≤ bitsOf (heads p).arg 23 8 ∧ bitsOf (heads p).arg 63 24 = 0 ∧
      (∀ i e, es[i]? = some e → mapEntryOk (checkBase hub).cfg i e = true)) ∧
    (let a := (heads outletsArg).arg
     let g := met 0 0x0603 outletsArg emptyHub
     let items := [Item.outlets (BitVec.ofNat 64 a)]
     Admitted 0x0603 (ask 0 0x0603 outletsArg) (on emptyHub) ∧
      readBareHead { code := 0x0603, req := ask 0 0x0603 outletsArg } 0 = .ok (heads outletsArg) ∧ bitsOf a 1 0 = 0 ∧
      1 ≤ bitsOf a 7 2 ∧ bitsOf a 7 2 ≤ 40 ∧ bitsOf a 31 26 = 0 ∧ 1 ≤ bitsOf a 47 32 ∧ 1 ≤ bitsOf a 63 48 ∧
      relFaultFrom (schedule 1 items (checkBase g)) 1 = none ∧ budgetFault (schedule 1 items (checkBase g)) 1 = none) ∧
    (let p := leNat 1 7 ++ zeros 1 ++ leNat 2 1 ++ leNat 4 3 ++ zeros 8
     let g := met 0 0x0604 p jobHub
     Admitted 0x0604 (ask 0 0x0604 p) (on jobHub) ∧ pendingRoom (ask 0 0x0604 p) (on jobHub) ∧ p.length = 16 ∧
      windowCapture g 7 3 = some capture3 ∧ fieldAt p 8 4 < capPositions capture3 ∧
      12 + (cChans capture3.desc).length * 4099 ≤ fieldAt p 2 2 * 65536 ∧ g.jobs.findIdx? (·.isNone) = some 2 ∧
      fieldAt p 2 2 * 65536 ≤ stagingFree g) ∧
    (Admitted 0x0605 (ask 0 0x0605 [0]) (on jobHub) ∧ (met 0 0x0605 [0] jobHub).jobs[0]? = some (some (job false)) ∧
      (job false).stop = some .outputFull ∧ pendingRoom (ask 0 0x0605 [0]) (on jobHub)) ∧
    (Admitted 0x0606 (ask 0 0x0606 [1]) (on jobHub) ∧ (met 0 0x0606 [1] jobHub).jobs[1]? = some (some (job true)) ∧
      (job true).running = true) ∧ Admitted 0x0606 (ask 0 0x0606 [0]) (on jobHub) ∧ (job false).running = false := by
  refine ⟨⟨admitted (by decide +kernel), ?_, reads (by decide +kernel), ?_, ?_, each (by decide +kernel)⟩,
    ⟨admitted (by decide +kernel), rfl, ?_⟩, ⟨admitted (by decide +kernel), room (by decide +kernel), ?_⟩,
    ⟨admitted (by decide +kernel), rfl, rfl, room (by decide +kernel)⟩, ⟨admitted (by decide +kernel), rfl, rfl⟩,
    admitted (by decide +kernel), rfl⟩ <;> decide +kernel

theorem witness_LaneCommands :
    (let p := head 0 5 1 0 0 (leNat 8 0x19)
     let ds := (entries (heads p) 8).map ofLe
     Admitted 0x0700 (ask 0 0x0700 p) (on hub) ∧
      readHead { code := 0x0700, req := ask 0 0x0700 p } false 1 6 6 8 = .ok (heads p) ∧ (heads p).at_ = 0 ∧ (heads p).arg = 0 ∧
      (∀ i d, ds[i]? = some d → laneFault ((heads p).first + i) d = none) ∧
      (∀ i d, ds[i]? = some d → (heads p).first + i = 5 → bitsOf d 2 0 = lMode ((checkBase hub).cfg.lane.getD 5 0))) ∧
    (let p := head 1 4 1 0 0 (leNat 1 0x10 ++ List.replicate 31 0x55)
     let hd := heads p
     let g := met 0 0x0701 p emptyHub
     let g' := (tableLanes hd).foldl (fun h i => updLane i (fun x => { x with shadowTable := some (1, tableOf hd.body) }) h) g
     Admitted 0x0701 (ask 0 0x0701 p) (on emptyHub) ∧ p.length = 56 ∧ fieldAt p 12 1 = 0 ∧ allZero ((p.drop 13).take 3) = true ∧
      hd.count = 1 ∧ hd.first = 4 ∧ hd.arg = 0 ∧ effectTick g hd.at_ 1 = some 1 ∧
      (∀ l ∈ tableLanes hd, tableOk l (tableOf hd.body) = true) ∧ budgetFault g' 1 = none) ∧
    (let p := bare 0 (zeros 4 ++ leNat 1 24 ++ zeros 21 ++ [1, 0, 3, 128, 128, 1])
     Admitted 0x0702 (ask 0 0x0702 p) (on hub) ∧ readBareHead { code := 0x0702, req := ask 0 0x0702 p } 32 = .ok (heads p) ∧
      (heads p).arg = 0 ∧ uplinkFault (heads p).body = none ∧ effectTick (met 0 0x0702 p hub) (heads p).at_ 1 = some 1) ∧
    Admitted 0x0780 (ask 0 0x0780 []) (on hub) := by
  refine ⟨⟨admitted (by decide +kernel), rfl, rfl, rfl, each (by decide +kernel), each (by decide +kernel)⟩,
    ⟨admitted (by decide +kernel), ?_⟩, ⟨admitted (by decide +kernel), rfl, ?_⟩, admitted (by decide +kernel)⟩ <;> decide +kernel

/-- A hub with window 15 open from mailbox 1 on an object of 8 bytes, a transfer of it interrupted. -/
def openHub : Hub :=
  { hub with windows := hub.windows.set 15 { isOpen := true, object := 3, mailbox := 1, length := 8, rest := some (4, 4) } }

theorem witness_WindowCommands :
    (let p := leNat 1 3 ++ zeros 23
     let g := met 1 0x0800 p openHub
     Admitted 0x0800 (ask 1 0x0800 p) (on openHub) ∧ p.length = 24 ∧ allZero ((p.drop 3).take 1) = true ∧
      g.windows.findIdx? (!·.isOpen) = some 0 ∧ objectExists g { object := 3 } = true ∧ fieldAt p 20 4 = 0) ∧
    (let w := (met 1 0x0801 [15] openHub).windows.getD 15 {}
     Admitted 0x0801 (ask 1 0x0801 [15]) (on openHub) ∧ fieldAt [(15 : Byte)] 0 1 = 15 ∧ w.isOpen = true ∧ w.mailbox = 1) ∧
    (let p := leNat 1 15 ++ zeros 3 ++ leNat 8 4 ++ leNat 4 4
     let w := (met 1 0x0880 p openHub).windows.getD 15 {}
     Admitted 0x0880 (ask 1 0x0880 p) (on openHub) ∧ p.length = 16 ∧ allZero ((p.drop 1).take 3) = true ∧ w.isOpen = true ∧
      w.mailbox = 1 ∧ w.revoked = false ∧ fieldAt p 4 8 % 4 = 0 ∧ fieldAt p 12 4 % 4 = 0 ∧ 4 ≤ fieldAt p 12 4 ∧
      fieldAt p 12 4 ≤ 4064 ∧ fieldAt p 4 8 + fieldAt p 12 4 ≤ w.length ∧ w.object ≠ 2 ∧ ({} : Env).bad = [] ∧
      17 ≤ ({} : Env).bursts ∧ ({} : Env).watchdog = false ∧ ({} : Env).revoked = none ∧ ({ watchdog := true } : Env).watchdog = true) ∧
    (let h := { openHub with windows := hub.windows.set 14 { isOpen := true, object := 1, mailbox := 1, length := 1024 } }
     let p := leNat 1 14 ++ zeros 3 ++ leNat 8 256 ++ leNat 4 512
     let w := (met 1 0x0880 p h).windows.getD 14 {}
     Admitted 0x0880 (ask 1 0x0880 p) (on h) ∧ p.length = 16 ∧ w.isOpen = true ∧ w.mailbox = 1 ∧ w.revoked = false ∧ w.object < 2 ∧
      fieldAt p 4 8 + fieldAt p 12 4 ≤ w.length ∧ ({ revoked := some 1 } : Env).revoked = some 1 ∧ (256 / 256 + 1) * 256 < 256 + 512) ∧
    (let w := (met 1 0x0881 [15] openHub).windows.getD 15 {}
     Admitted 0x0881 (ask 1 0x0881 [15]) (on openHub) ∧ w.isOpen = true ∧ w.mailbox = 1 ∧ w.rest = some (4, 4) ∧ w.object ≠ 2 ∧
      w.revoked = false ∧ 4 / 256 + 2 ≤ ({} : Env).bursts ∧ ({} : Env).watchdog = false) := by
  refine ⟨⟨admitted (by decide +kernel), ?_⟩, ⟨admitted (by decide +kernel), ?_⟩, ⟨admitted (by decide +kernel), ?_⟩,
    ⟨admitted (by decide +kernel), ?_⟩, ⟨admitted (by decide +kernel), ?_⟩⟩ <;> decide +kernel

/-- The configuration of source 0x54: PERMANENT, LOG. -/
def faultArg (stage : Nat) : Bytes := head 1 0x54 1 stage 0 (leNat 1 1 ++ zeros 7)

theorem witness_FaultCommands :
    (∀ stage ∈ [0, 1], let p := faultArg stage
      Admitted 0x0900 (ask 0 0x0900 p) (on hub) ∧
      readHead { code := 0x0900, req := ask 0 0x0900 p } true 1 256 65536 8 = .ok (heads p) ∧ (heads p).arg < 2 ∧
      effectTick (met 0 0x0900 p hub) (heads p).at_ 1 = some 1 ∧ (heads p).stage = (stage == 1) ∧
      (∀ i e, (entries (heads p) 8)[i]? = some e → faultEntryFault ((heads p).first + i) e = none)) ∧
    (let p := leNat 2 0x54 ++ zeros 14
     Admitted 0x0901 (ask 7 0x0901 p) (on hub) ∧ p.length = 16 ∧ (sourceOf (fieldAt p 0 2)).isSome = true ∧
      instOk (fieldAt p 0 2) (fieldAt p 2 2) = true ∧ fieldAt p 4 1 < 3 ∧ allZero ((p.drop 5).take 3) = true ∧
      effectTick (met 7 0x0901 p hub) (fieldAt p 8 8) 1 = some 1) ∧
    Admitted 0x0980 (ask 0 0x0980 []) (on hub) ∧
    (let p := leNat 8 0 ++ leNat 1 63
     Admitted 0x0981 (ask 0 0x0981 p) (on hub) ∧ p.length = 9 ∧ 1 ≤ fieldAt p 8 1 ∧ fieldAt p 8 1 ≤ 63) := by
  refine ⟨?_, ⟨admitted (by decide +kernel), ?_⟩, admitted (by decide +kernel), ⟨admitted (by decide +kernel), ?_⟩⟩
  rotate_left
  · decide +kernel
  · decide +kernel
  · intro stage hs
    simp only [List.mem_cons, List.not_mem_nil, or_false] at hs
    rcases hs with rfl | rfl <;>
      exact ⟨admitted (by decide +kernel), reads (by decide +kernel), by decide +kernel, by decide +kernel, by decide +kernel,
        each (by decide +kernel)⟩

/-- A partner that resynchronises, and an active hub of the pair. -/
def partner3 : Partner := { state := 3, eclipse := false, granted := false, epoch := 0, nextSeq := 0, tick := 0 }

/-- The active hub of a pair. -/
def pairHub : Hub := { hub with pair.paired := true, pair.partner := some partner3 }

/-- Loop output 7, disabled, from the first value of node 0. -/
def loopArg : Bytes := head 1 7 1 0 0 (zeros 4 ++ leNat 4 1 ++ zeros 8)

/-- A hub whose graph is one STATS node that emits its mean. -/
def loopHub : Hub :=
  { emptyHub with cfg.graph := { id := 9, nodes := [leNat 1 2 ++ leNat 1 1 ++ zeros 1 ++ leNat 1 1 ++ leNat 4 1000 ++ zeros 20 ++ leNat 4 1 ++ zeros 32] } }

theorem witness_PairAndLoopCommands :
    (let p := bare 0x40000 []
     let a := (heads p).arg
     Admitted 0x0A00 (ask 0 0x0A00 p) (on hub) ∧ readBareHead { code := 0x0A00, req := ask 0 0x0A00 p } 0 = .ok (heads p) ∧
      (heads p).at_ = 0 ∧ bitsOf a 15 2 = 0 ∧ 1 ≤ bitsOf a 23 16 ∧ bitsOf a 63 24 = 0) ∧
    (let p := zeros 2 ++ leNat 2 0xFFFF ++ zeros 4
     let g := met 6 0x0A01 p pairHub
     Admitted 0x0A01 (ask 6 0x0A01 p) (on pairHub) ∧
      (fieldAt p 0 2 ≤ (Config.sectionFormat 6).toNat ∧ (Config.sectionFormat 6).toNat ≤ fieldAt p 2 2) ∧
      (fieldAt p 0 2 ≤ (Config.sectionFormat 7).toNat ∧ (Config.sectionFormat 7).toNat ≤ fieldAt p 2 2) ∧ p.length = 8 ∧
      allZero ((p.drop 4).take 4) = true ∧ g.pair.paired = true ∧ isActive g = true ∧ g.pair.partner = some partner3 ∧
      partner3.state = 3 ∧ g.pair.snapshot = none ∧ g.pair.copyLeft = []) ∧
    Admitted 0x0A80 (ask 0 0x0A80 []) (on hub) ∧
    (let g := met 0 0x0C00 loopArg loopHub
     let p := planAt (checkBase g) 1
     let items := Item.loopV (heads loopArg).arg :: mapI (fun i e => Item.loop ((heads loopArg).first + i) e) (entries (heads loopArg) 16)
     Admitted 0x0C00 (ask 0 0x0C00 loopArg) (on loopHub) ∧
      readHead { code := 0x0C00, req := ask 0 0x0C00 loopArg } false 1 8 8 16 = .ok (heads loopArg) ∧
      (∀ i e, (entries (heads loopArg) 16)[i]? = some e →
        loopFault p.cfg.graph (checkBase g).cfg.hkSeq (heads loopArg).arg ((heads loopArg).first + i) e = none) ∧
      (heads loopArg).arg < 65536 ∧ effectTick g (heads loopArg).at_ 1 = some 1 ∧
      relFaultFrom (schedule 1 items (checkBase g)) 1 = none ∧ budgetFault (schedule 1 items (checkBase g)) 1 = none) ∧
    Admitted 0x0C80 (ask 0 0x0C80 []) (on hub) := by
  have h (x : BitVec 16) : fieldAt (zeros 2 ++ leNat 2 0xFFFF ++ zeros 4) 0 2 ≤ x.toNat ∧
      x.toNat ≤ fieldAt (zeros 2 ++ leNat 2 0xFFFF ++ zeros 4) 2 2 := ⟨Nat.zero_le _, Nat.le_of_lt_succ x.isLt⟩
  refine ⟨⟨admitted (by decide +kernel), rfl, ?_⟩, ⟨admitted (by decide +kernel), h _, h _, ?_⟩, admitted (by decide +kernel),
    ⟨admitted (by decide +kernel), reads (by decide +kernel), each (by decide +kernel), ?_⟩, admitted (by decide +kernel)⟩ <;>
    decide +kernel

/-- A wrapped key of generation 1 for a slot, under a wrapping key (13 R329). -/
def wrapped (w : Bytes) (slot : Nat) : Bytes :=
  let b := leNat 1 slot ++ zeros 3 ++ leNat 4 1 ++ zeros 48
  b ++ tagOf w (ascii "KZ-WRAP-A" ++ b)

theorem wrapped_length (w : Bytes) (slot : Nat) : (wrapped w slot).length = 72 := by
  simp [wrapped, tagOf_length, leNat, zeros]

theorem wrapOk_wrapped (w : Bytes) (slot : Nat) : wrapOk w (wrapped w slot) = true := by
  have hb : (leNat 1 slot ++ zeros 3 ++ leNat 4 1 ++ zeros 48).length = 56 := by simp [leNat, zeros]
  have ht : ∀ m, (tagOf w m).take 16 = tagOf w m := fun m => List.take_of_length_le (Nat.le_of_eq (tagOf_length _ _))
  simp only [wrapOk, wrapped]
  rw [List.take_left' hb, List.drop_left' hb, ht]
  exact beq_self_eq_true _

/-- The payload of a PROVISION to HUB_ID 1. -/
def provisionArg : Bytes := leNat 4 1 ++ zeros 4 ++ wrapped transportKey 0

/-- A PROVISION with the transport key's tag. -/
def provisionReq : Req :=
  tagged transportKey 0x0B00
    { mailbox := 0, flags := 1, origin := 1, keySlot := 0xFE, length := 80, msgId := 7, counter := 1, dest := 0
      payload := provisionArg, tag := [] }

/-- A hub as shipped, in RUN. -/
def blankHub : Hub := { power := { phase := .run }, time := { running := true } }

theorem provisionArg_length : provisionArg.length = 80 := by simp [provisionArg, wrapped_length, leNat, zeros]

theorem admitted_provision : Admitted 0x0B00 provisionReq (on blankHub) := by
  have hl : provisionReq.payload.length = 80 := provisionArg_length
  refine ⟨by decide +kernel, rfl, by decide +kernel, fun x _ => absurd x (by decide +kernel), ?_, by decide +kernel,
    by decide +kernel, fun x => absurd x (by decide +kernel),
    fun _ => ⟨?_, by decide +kernel, by decide +kernel, by decide +kernel, fun _ => by decide +kernel⟩, fun _ => by decide +kernel⟩
  · have : provisionReq.tag.length = 16 := by simp only [provisionReq, tagged, tagOf_length]
    show wellFormed 0x0B00 true provisionReq blankHub = true
    simp [wellFormed, hl, this]
    decide +kernel
  · show authentic 0x0B00 provisionReq blankHub = true
    have hk : keyOf blankHub provisionReq.keySlot.toNat = some transportKey := rfl
    have ht : tagOf transportKey (reqBytes 0x0B00 provisionReq) = provisionReq.tag := tagOf_tagged _ _ _
    simp only [authentic, hk]
    rw [ht]
    simp [provisionReq, tagged]

/-- A provisioned hub whose stored configuration is quick to check, and one in OPERATIONAL. -/
def provHub : Hub := { emptyHub with flash.lifecycle := .provisioned, flash.store.chan := [], flash.store.group := [] }

/-- A hub in OPERATIONAL. -/
def operHub : Hub := { hub with flash.lifecycle := .operational }

theorem witness_ProvisioningAndKeyCommands :
    (let r := provisionReq
     let g := atStep7 r (on blankHub)
     let k := (r.payload.drop 8).take 72
     Admitted 0x0B00 r (on blankHub) ∧ r.payload.length = 80 ∧ wrapOk transportKey k = true ∧ fieldAt r.payload 0 4 ≠ 0 ∧
      allZero ((r.payload.drop 4).take 4) = true ∧ fieldAt r.payload 8 1 = 0 ∧ fieldAt k 1 1 = 0 ∧
      (slotAt g 0).gen.toNat < fieldAt k 4 4) ∧
    (Admitted 0x0B01 (ask 0 0x0B01 []) (on provHub) ∧ runningVerified (met 0 0x0B01 [] provHub) = true ∧
      budgetFault (checkBase (met 0 0x0B01 [] provHub)) 0 = none) ∧
    (let r := ask 7 0x0B05 (wrapped key0 7)
     let g := atStep7 r (on hub)
     Admitted 0x0B05 r (on hub) ∧ r.payload.length = 72 ∧ wrapOk key0 r.payload = true ∧ (slotAt g 0).key = some key0 ∧
      fieldAt r.payload 0 1 = 7 ∧ fieldAt r.payload 1 1 = 0 ∧ (slotAt g 7).gen.toNat < fieldAt r.payload 4 4) ∧
    (Admitted 0x0B06 (ask 7 0x0B06 [1]) (on hub) ∧ fieldAt [(1 : Byte)] 0 1 = 1) := by
  have hk : (provisionReq.payload.drop 8).take 72 = wrapped transportKey 0 := by
    have h8 : (leNat 4 1 ++ zeros 4).length = 8 := by simp [leNat, zeros]
    show ((leNat 4 1 ++ zeros 4 ++ wrapped transportKey 0).drop 8).take 72 = _
    rw [List.drop_left' h8, List.take_of_length_le (Nat.le_of_eq (wrapped_length _ _))]
  refine ⟨⟨admitted_provision, provisionArg_length, ?_, ?_⟩, ⟨admitted (by decide +kernel), ?_⟩,
    ⟨admitted ?_, wrapped_length _ _, wrapOk_wrapped _ _, ?_⟩, ⟨admitted (by decide +kernel), ?_⟩⟩
  · rw [hk]; exact wrapOk_wrapped _ _
  all_goals decide +kernel

/-- A hub with a record outside custody, in MAINTENANCE. -/
def openCustody : Hub := { hub with stream.reserve := [{ record := { ty := 1, order := 0 }, tick := 0 }] }

/-- A hub with a staged image that verified, and with one in slot B. -/
def fwHub : Hub := { hub with fw.verified := true, flash.imageB := { installed := true } }

theorem witness_FirmwareCommands :
    (let p := leNat 4 16777212 ++ zeros 4 ++ zeros 4
     Admitted 0x0B07 (ask 0 0x0B07 p) (on hub) ∧ 1 ≤ p.length - 8 ∧ p.length - 8 ≤ 4088 ∧ allZero ((p.drop 4).take 4) = true ∧
      fieldAt p 0 4 + (p.length - 8) ≤ 16777216) ∧
    (Admitted 0x0B08 (ask 0 0x0B08 []) (on fwHub) ∧ pendingRoom (ask 0 0x0B08 []) (on fwHub) ∧
      (met 0 0x0B08 [] fwHub).fw.verifying = none ∧ (met 0 0x0B08 [] fwHub).fw.installing = none) ∧
    (Admitted 0x0B09 (ask 0 0x0B09 []) (on fwHub) ∧ pendingRoom (ask 0 0x0B09 []) (on fwHub) ∧
      (met 0 0x0B09 [] fwHub).fw.verified = true) ∧
    (Admitted 0x0B0A (ask 7 0x0B0A [1]) (on fwHub) ∧ fieldAt [(1 : Byte)] 0 1 < 2 ∧
      (imageOf (met 7 0x0B0A [1] fwHub) (1 - (met 7 0x0B0A [1] fwHub).flash.running)).installed = true) := by
  refine ⟨⟨admitted (by decide +kernel), ?_⟩, ⟨admitted (by decide +kernel), room (by decide +kernel), rfl, rfl⟩,
    ⟨admitted (by decide +kernel), room (by decide +kernel), rfl⟩, ⟨admitted (by decide +kernel), ?_⟩⟩ <;> decide +kernel

theorem witness_ForceCodes :
    (Admitted 0x0B0B (ask 0 0x0B0B [1, 3]) (on hub) ∧ fieldAt [(1 : Byte), 3] 0 1 < 2 ∧ 3 ≤ fieldAt [(1 : Byte), 3] 1 1) ∧
    (Admitted 0x0B0B (ask 0 0x0B0B [1, 0]) (on openCustody) ∧ custodyOpen (met 0 0x0B0B [1, 0] openCustody) = true) ∧
    (Admitted 0x0B02 (ask 0 0x0B02 [3]) (on operHub) ∧ Admitted 0x0B03 (ask 7 0x0B03 [3]) (on hub) ∧
      Admitted 0x0B04 (ask 0 0x0B04 [3]) (on hub)) ∧
    (Admitted 0x0B02 (ask 0 0x0B02 [0]) (on { openCustody with flash.lifecycle := .operational }) ∧
      Admitted 0x0B03 (ask 7 0x0B03 [0]) (on openCustody) ∧ custodyOpen (met 7 0x0B03 [0] openCustody) = true ∧
      Admitted 0x0B04 (ask 0 0x0B04 [0]) (on openCustody)) ∧
    (Admitted 0x0B04 (ask 0 0x0B04 [1]) (on openCustody) ∧ custodyOpen (met 0 0x0B04 [1] openCustody) = true ∧
      fieldAt [(1 : Byte)] 0 1 < 3) ∧
    (Admitted 0x0B0B (ask 0 0x0B0B [1, 2]) (on openCustody) ∧ fieldAt [(1 : Byte), 2] 1 1 < 3) := by
  refine ⟨⟨admitted (by decide +kernel), ?_⟩, ⟨admitted (by decide +kernel), ?_⟩,
    ⟨admitted (by decide +kernel), admitted (by decide +kernel), admitted (by decide +kernel)⟩,
    ⟨admitted (by decide +kernel), admitted (by decide +kernel), ?_, admitted (by decide +kernel)⟩,
    ⟨admitted (by decide +kernel), ?_⟩, ⟨admitted (by decide +kernel), ?_⟩⟩ <;> decide +kernel

/-! ## Commands that end later, faults, journal, arbiter, memory -/

/-- A full calibration window. -/
def fullWin : CalWin := { req := reading, step := 0, n := 16, target := 0, openTick := 0, count := 16 }

/-- A hub that verifies and installs, with that window on channel 511. -/
def lateHub : Hub :=
  { updChan 511 (fun x => { x with calWin := some fullWin }) jobHub with
    fw.verifying := some reading
    fw.installing := some reading }

theorem witness_LateCommandsSendTheirNotice :
    lateHub.fw.verifying = some reading ∧ lateHub.fw.installing = some reading ∧
      (jobAt lateHub 1 = some (job true) ∧ (job true).running = true) ∧
      (chanAt lateHub 511).calWin = some fullWin ∧ fullWin.n ≤ fullWin.count ∧ 511 < lateHub.chans.length ∧
      (winEval lateHub 511 { fullWin with step := 2 }).result = 0 ∧ ({ fullWin with allGood := false } : CalWin).allGood = false ∧
      (job true).cancelAsked = false ∧ ({ job true with cancelAsked := true } : Job).cancelAsked = true := by
  decide +kernel

/-- A voltage channel with autorange over ranges 0 to 3, and its port driven and switched. -/
def volt : BitVec 64 := BitVec.ofNat 64 (2 ^ 7 + 3 * 2 ^ 11 + 7 * 2 ^ 14)

/-- A hub that measures on channel 5, range 1, with loop output 7 enabled. -/
def meas : Hub :=
  let h := { hub with
    cfg.chan := hub.cfg.chan.set 5 volt
    cfg.group := hub.cfg.group.set 0 (BitVec.ofNat 64 (1 + 2 ^ 5 + 2 ^ 32))
    cfg.loop := hub.cfg.loop.set 7 (leNat 1 1 ++ zeros 15) }
  updChan 5 (fun x => { x with rangeNow := 1, fe := some 5, pair := .bound }) (updGroup 0 (fun x => { x with portOn := true }) h)

/-- The same hub with an excitation port that is not switched. -/
def steady : Hub := { meas with cfg.group := hub.cfg.group.set 0 (BitVec.ofNat 64 (1 + 2 ^ 32)) }

/-- No occurrence stands and no raise waits. -/
theorem fresh {h : Hub} (ho : h.faults.occ = []) (hq : h.faults.queue = []) (n i : Nat) : Fresh n i h := by
  refine ⟨?_, ?_, ?_, fun _ => hq⟩
  · rw [ho]; intro o x; cases x
  · rw [hq]; intro o x; cases x
  · rw [hq]; decide

theorem witness_DetectorsAssertTheirSources :
    (∀ n i, Fresh n i meas) ∧ (∀ n i, Fresh n i hub) ∧
    (evaluated meas .openWire 5 = true ∧ evaluated meas .short 5 = true ∧ evaluated meas .excOpen 0 = true ∧
      evaluated meas .excShort 0 = true) ∧
    (evaluated steady .excOpen 0 = true ∧ assertsNow steady .excOpen 0 65536000000 = true ∧
      assertsNow steady .excOpen 0 65535999999 = false ∧ assertsNow meas .excOpen 0 65536000000 = false ∧ ∀ n i, Fresh n i steady) ∧
    (measuring meas 5 = true ∧ (chanAt meas 5).folded = false ∧ (chanAt meas 5).overFrom = none ∧
      (chanAt (updChan 5 (fun x => { x with overFrom := some 0 }) meas) 5).overFrom = some 0) ∧
    (bitOf (fieldAt (meas.cfg.loop.getD 7 []) 0 1) 0 = true ∧ 200 * 65536 < (((meas.loops.getD 7 {}).setpoint : Int) - 0).natAbs * 24000) ∧
    (0 + 500 < 10 * ({ hub with cfg.excMin := 51 } : Hub).cfg.excMin) ∧ 10 * (hub.cfg.loopV : Int) + 500 < 501 ∧
    hub.cfg.selfMerge = false ∧ ({ hub with cfg.selfMerge := true } : Hub).cfg.selfMerge = true ∧ ([] : Bytes) ≠ knownAnswer ∧ hub.power.phase ≠ .off ∧
    (let e : EccError := { mem := .dram, unit := 131071, uncorrectable := false, address := 0, master := 0, access := 0 }
     e.mem = .dram ∧ e.uncorrectable = false ∧ e.unit < 131072) := by
  refine ⟨fresh rfl rfl, fresh rfl rfl, ?_, ⟨?_, ?_, ?_, ?_, fresh rfl rfl⟩, ?_, ?_, ?_, ?_, ?_, ?_, ?_, ?_, ?_⟩ <;> decide +kernel

/-- An occurrence of a source instance. -/
def occ (n i : Nat) : Occ := { source := n, inst := i, start := 0, forced := false, real := true }

/-- A raise of a source instance. -/
def raiseOf (n i : Nat) : Raise := { source := n, inst := i, start := 0, capture := 0 }

/-- A hub with an occurrence of LANE_LOS on lane 0 that stands, and its raise. -/
def raisedHub : Hub := { hub with faults.occ := [occ 0x90 0], faults.queue := [raiseOf 0x90 0] }

theorem witness_OccurrencesRaiseOnceAndClear :
    (instOk 0x10 5 = true ∧ ((sourceOf 0x10).map (·.inst) = some .channel → measuring meas 5 = true) ∧ Fresh 0x10 5 meas) ∧
    (instOk 0x90 0 = true ∧ ((sourceOf 0x90).map (·.inst) = some .channel → measuring raisedHub 0 = true) ∧
      (∃ o ∈ raisedHub.faults.occ, o.source = 0x90 ∧ o.inst = 0) ∧ (∃ r ∈ raisedHub.faults.queue, r.source = 0x90 ∧ r.inst = 0)) ∧
    hub.faults.force.contains (0x90, 0, true) = false ∧
    ({ hub with faults.force := [(0x90, 0, true)] } : Hub).faults.force.contains (0x90, 0, true) = true := by
  refine ⟨⟨?_, ?_, fresh rfl rfl _ _⟩, ?_, ?_, ?_⟩ <;> decide +kernel

/-- A hub where an occurrence of EXC_VIN_RANGE has outlasted its persistence time. -/
def oldHub : Hub := { hub with faults.occ := [{ occ 0x50 0 with handled := true }], time.op4k := 4001 }

theorem witness_CollectorHandlesRaises :
    hub.faults.queue = [] ∧
    (raisedHub.faults.queue = raiseOf 0x90 0 :: [] ∧ (raiseOf 0x90 0).merged = [] ∧ (raiseOf 0x90 0).soft = false ∧
      counts (raiseOf 0x90 0) = true ∧ raisedHub.faults.historyOk = true ∧ (cfgOfOcc raisedHub 0x90 0).reaction = 1 ∧
      (raiseOf 0x90 0).source = 0x90 + 8 * 0 ∧ (laneAt (updLane 0 (fun x => { x with state := .up }) raisedHub) 0).state = .up) ∧
    ((raisedHub.faults.occ.find? fun o => o.source == 0x90 && o.inst == 0) = some (occ 0x90 0) ∧ outlasted raisedHub (occ 0x90 0) = false) ∧
    (let o := { occ 0x50 0 with handled := true, conf := some { cls := 0, reaction := 0, retries := 3, windowS := 600 } }
     let h := { oldHub with faults.occ := [o] }
     (h.faults.occ.find? fun o => o.source == 0x50 && o.inst == 0) = some o ∧ outlasted h o = true ∧
      (cfgWith 0x50 o.conf).reaction ≤ 1) := by
  refine ⟨rfl, ?_, ?_, ?_⟩ <;> decide +kernel

/-- A hub in the eclipse state whose cause cleared long ago. -/
def dark (t : Nat) : Hub := { hub with faults.eclipse := some { tick := 0, inst := 0, causes := [(0x50, 0, some 0)], fatal := false }, time.op4k := t }

theorem witness_EclipseEvents :
    (∃ e, (dark 40000).faults.eclipse = some e ∧ e.exitDue = false ∧ exitReady (dark 40000) = true) ∧ exitReady (dark 0) = false ∧
    (let h := { dark 0 with stream.eclSpan := some { firstTick := 0, ticks := 1, slots := [] }, time.tick := ledgerPeriod hub - 1 }
     (∃ e, h.stream.eclSpan = some e) ∧ inEclipse h = true ∧ isActive h = true ∧
      ((h.time.tick + 1 : Int) + h.pair.offset).toNat % max 1 (ledgerPeriod h) = 0) ∧
    collectorDue { hub with faults.hardware := some 0, time.op4k := 8000 } = true ∧ collectorDue { hub with faults.hardware := some 0 } = false := by
  refine ⟨⟨_, rfl, rfl, ?_⟩, ?_, ⟨⟨_, rfl⟩, ?_⟩, ?_, ?_⟩ <;> decide +kernel

/-- A journal record. -/
def jrec (i : Nat) : JRec := { index := i, kind := 2, code := 0x2003 }

theorem witness_JournalEvents :
    (let h := { hub with jr.queue := [jrec 0], jr.erasedTo := 1 }
     journalBlocked h = false ∧ h.jr.queue = jrec 0 :: [] ∧ (jrec 0).index < h.jr.erasedTo) ∧
    (let h := { hub with jr.queue := [jrec 1024], jr.erasedTo := 1024 }
     journalBlocked h = false ∧ h.jr.queue = jrec 1024 :: [] ∧ h.jr.erasedTo ≤ (jrec 1024).index) ∧
    ((∀ b ∈ hub.jr.buckets, b.2 < 20) ∧ hub.jr.buckets.Pairwise fun x y => x.1 ≠ y.1) ∧
    (let h := { hub with jr.runs := [⟨0x2003, 4, 0⟩], time.opBase := 60 }
     (h.jr.runs.find? (·.code == (0x2003 : BitVec 16).toNat)) = some ⟨0x2003, 4, 0⟩ ∧ 0 + 60 ≤ opSeconds h ∧ h.jr.queue.length < 1024) := by
  decide +kernel

/-- A hub whose DRAM port a requester holds. -/
def held (j : Nat) : Hub := { hub with arb.dram.holder := some j }

theorem witness_ArbiterGrants :
    (hub.arb.dram.preempted = none ∧ hub.arb.dram.reqs.length = 20 ∧ (∀ j < 20, hub.arb.pend[j]? = some { parked := [] }) ∧
      (reqAt hub.arb.dram 19).credit ≠ -32768) ∧
    ({ hub with arb.dram.preempted := some (9, 64) } : Hub).arb.dram.preempted = some (9, 64) ∧
    ((held 5).arb.dram.holder = some 5 ∧ 4 < (held 5).arb.dram.reqs.length ∧ (reqAt (held 5).arb.dram 4).credit ≠ -32768) ∧
    ((held 4).arb.dram.holder = some 4 ∧ (pendAt (held 4) 0).parked.length < 4) ∧
    ((held 19).arb.enc.holder ≠ some 19 ∧ Fresh (0xE0 + 19) 0 (held 19)) := by
  refine ⟨?_, ?_, ?_, ?_, ⟨?_, fresh rfl rfl _ _⟩⟩ <;> decide +kernel

theorem witness_ArbiterCommandsComplete :
    ({ hub with arb.enc.preempted := some (9, 64) } : Hub).arb.enc.preempted = some (9, 64) ∧
    (hub.arb.dram.preempted = none ∧ ∀ i < 20, waits false hub i = false) ∧
    (let g := park false 0 (park false 19 hub)
     (∃ i < 20, waits false g i = true) ∧ 19 < hub.arb.dram.reqs.length ∧ (reqAt hub.arb.dram 0).credit ≠ -32768) ∧
    (5 ≤ 19 ∧ 4 < 5 ∧ (held 19).arb.dram.holder = some 19 ∧ ∀ j, hub.arb.dram.holder = some j → j < 5) ∧
    (held 19).arb.dram.holder = some 19 ∧ hub.arb.dram.holder ≠ some 19 ∧ hub.arb.enc.holder ≠ some 19 := by
  refine ⟨?_, ?_, ⟨⟨19, ?_⟩, ?_⟩, ⟨?_, ?_, ?_, fun j x => nomatch (show (none : Option Nat) = some j from x)⟩, ?_⟩ <;> decide +kernel

/-! ## Ticks, samples, the stream -/

theorem witness_MeridianTickAdvances :
    hub.time.rateDue = none ∧ hub.time.jump = none ∧ hub.time.tCode ≤ 5 ∧ isUp hub = true ∧ isUp booting = false ∧
      hub.power.resetDue = none ∧ isActive hub = true ∧ ({ hub with time.rateDue := some (5, 4) } : Hub).time.rateDue = some (5, 4) := by
  decide +kernel

/-- A hub with everything due at tick 1. -/
def dueHub : Hub :=
  let h := { hub with
    changes := [⟨1, .cal 0⟩]
    time.newTicks := [(0, 4, 1), (0, 5, 4), (9, 3, 2)]
    time.step := some (1, 65536)
    arr.activate := some (9, 1)
    arr.since := 2
    arr.shadow := some { id := 9, nodes := [node] }
    cfg.flare := hub.cfg.flare.set 15 (leNat 1 5 ++ leNat 1 5 ++ zeros 1 ++ leNat 1 1 ++ zeros 4 ++ leNat 4 1 ++ zeros 20) }
  updChan 511 (fun x => { x with newSys := some (⟨511, 0, 0, 1, 2⟩, 0, 0) }) (updLane 5 (fun x => { x with shadowTable := some (1, [0, 1]) }) h)

theorem witness_ChangesTakeEffectAtTheirTick :
    isUp dueHub = true ∧ isUp hub = true ∧
    ((sortBy (·.tick) (dueHub.changes.filter fun c => decide (c.tick ≤ 1))).map (·.item) = [.cal 0] ∧ [Item.cal 0] ≠ []) ∧
    (({ hub with changes := [⟨1, .uplink (zeros 32)⟩] } : Hub).changes.filter fun c => decide (c.tick ≤ 1)) = [⟨1, .uplink (zeros 32)⟩] ∧
    (∀ c ∈ hub.changes, 1 < c.tick) ∧
    (dueHub.time.newTicks = [(0, 4, 1)] ++ (0, 5, 4) :: [(9, 3, 2)] ∧
      (∀ x ∈ [((9 : Nat), 3, 2)], nextInst dueHub < (x.1 : Int) * secUnits) ∧
      (∀ x ∈ [((0 : Nat), 4, 1)], (x.1 : Int) * secUnits ≤ nextInst dueHub) ∧ ((0 : Nat) : Int) * secUnits ≤ nextInst dueHub) ∧
    (let h := { hub with time.newTicks := [(1, 5, 4)] }
     h.time.newTicks = [] ++ (1, 5, 4) :: [] ∧ nextInst h < ((1 : Nat) : Int) * secUnits) ∧
    (dueHub.arr.activate = some (9, 1) ∧ dueHub.arr.since ≠ 1 ∧ dueHub.arr.named = none ∧
      dueHub.arr.shadow = some { id := 9, nodes := [node] } ∧ (9 : BitVec 32) ≠ 0) ∧
    ((laneAt dueHub 5).shadowTable = some (1, [0, 1])) ∧
    (dueHub.time.step = some (1, 65536) ∧ dueHub.time.exitStep = none ∧ dueHub.time.exitSlew = none ∧ 0 ≤ frameEnd dueHub + 65536 ∧
      isActive dueHub = true) ∧
    (let h := { hub with time.step := some (1, -65536 * 4000000000) }
     h.time.step = some (1, -65536 * 4000000000) ∧ h.time.exitStep = none ∧ h.time.exitSlew = none ∧
      frameEnd h + -65536 * 4000000000 < 0) ∧
    ((chanAt dueHub 511).newSys = some (⟨511, 0, 0, 1, 2⟩, 0, 0) ∧ (chanAt dueHub 0).newSys = none ∧
      isSys 511 (dMode (chDesc dueHub 511)) (chanAt dueHub 511).rangeNow ⟨511, 3, 0, 1, 2⟩ = true) ∧
    (let h := { hub with time.tick := ledgerPeriod hub - 1 }
     h.stream.due.any (·.ledger) = false ∧ (streamTick h + 1) % max 1 (ledgerPeriod h) = 0) ∧
    (let h := dueHub
     isActive h = true ∧ fEnable (unitDesc h 15) = true ∧ fSource (unitDesc h 15) = 5 ∧ fA (unitDesc h 15) ≠ 0 ∧
      tickIndex 3 (nextInst h) % fA (unitDesc h 15) = fB (unitDesc h 15) % fA (unitDesc h 15) ∧ h.time.rateDue = none ∧ h.time.tCode = 3 ∧
      ∀ e ∈ h.cap.events, ¬(e.unit = 15 ∧ e.inst = nextInst h)) ∧
    (let h := { hub with cfg.flare := hub.cfg.flare.set 15 (leNat 1 5 ++ leNat 1 5 ++ zeros 1 ++ leNat 1 1 ++ zeros 4 ++ leNat 4 2 ++ leNat 4 1 ++ zeros 16) }
     tickIndex 3 (nextInst h) % fA (unitDesc h 15) ≠ fB (unitDesc h 15) % fA (unitDesc h 15)) := by
  refine ⟨?_, ?_, ?_, ?_, ?_, ?_, ?_, ?_, ?_, ?_, ?_, ?_, ?_, ?_, ?_⟩ <;> decide +kernel

/-- A frame of number n and V = 2. -/
def frame (n : Nat) : Frame := { n := n, stamp := {}, tCode := 3, v := 2 }

/-- A hub at a tick with frame 0 in the raw window. -/
def framed (t : Nat) : Hub := { hub with frames := [frame 0], time.tick := t }

theorem witness_FramesSettle :
    (isUp (framed 2) = true ∧ isStandby (framed 2) = false ∧ (framed 2).frames = frame 0 :: [] ∧ (framed 2).power.drain = none ∧
      (frame 0).n + (frame 0).v + 1 ≤ 2 + 1) ∧
    (0 + 1 < (frame 0).n + (frame 0).v + 1) ∧ ((framed 0).frames.find? (·.n == 0)) = some (frame 0) := by
  decide +kernel

/-- A hub that measures, its frame open. -/
def openMeas : Hub := { meas with frames := [frame 0], time.frameLen := tickLen 3 }

/-- The causes of channel 5's next slot where the channel is as changed and its corrected value is v. -/
def causesOf (f : Chan → Chan) (v : Int) : SlotCauses := slotCauses (updChan 5 f openMeas) 5 0 v

theorem witness_SampleSlotsAreCreated :
    (hub.chans.length = 512 ∧ openMeas.chans.length = 512 ∧ slotDue openMeas 5 = true ∧ slotDue hub 5 = false ∧
      (frame 0).n = openMeas.time.tick ∧ frame 0 ∈ openMeas.frames ∧ ∀ w ∈ (frame 0).words, w.1 ≠ 5) ∧
    (slotStatus (causesOf id 0) = 0 ∧ slotStatus (causesOf (fun x => { x with settleLeft := 1 }) 0) = 1 ∧
      slotStatus (causesOf id 8388608) = 2 ∧ slotStatus (causesOf id (-8388609)) = 3 ∧
      slotStatus (causesOf (fun x => { x with recLeft := 1 }) 0) = 4 ∧
      slotStatus (causesOf (fun x => { x with holds := [{ start := -secUnits, stop := secUnits }] }) 0) = 5 ∧
      slotStatus (causesOf (fun x => { x with retired := true }) 0) = 8) ∧
    slotHeld openMeas 5 0 = false ∧ slotHeld (updChan 5 (fun x => { x with holds := [{ start := -secUnits, stop := secUnits }] }) openMeas) 5 0 = true := by
  decide +kernel

/-- A hub with an over-range on front end 5, in an on-phase whose open detector has held twice. -/
def overHub : Hub :=
  updGroup 0 (fun x => { x with onPhase := true, openPhases := 2 }) (updFe 5 (fun f => { f with overRange := some (true, 0) }) meas)

/-- A hub whose channel 5 measures CHARGE from range 0 to 3 with its bias port. -/
def charge : Hub :=
  updChan 5 (fun x => { x with sourceOn := true }) { meas with
    cfg.chan := hub.cfg.chan.set 5 (volt ||| 2)
    cfg.group := hub.cfg.group.set 0 3 }

theorem witness_RangeAndPhaseEvents :
    (feAt hub 575).overRange = none ∧
    ((feAt overHub 5).overRange = some (true, 0) ∧ overChan overHub 5 = some 5 ∧ overHub.chans.length = 512 ∧ 1000 ≤ 1000 ∧ 1000 < 1001 ∧
      pastHolds (chanAt overHub 5) 0 ≤ overHub.time.tickInst + 0 ∧
      overHub.time.tickInst + 0 < pastHolds (chanAt (updChan 5 (fun x => { x with holds := [{ start := 0, stop := secUnits }] }) overHub) 5) 0) ∧
    (measures meas = true ∧ measuring meas 5 = true ∧ dArEn (chDesc meas 5) = true ∧ dMode (chDesc meas 5) ≠ 2 ∧
      dArLo (chDesc meas 5) < (chanAt meas 5).rangeNow ∧ (chanAt meas 5).rangeNow < dArHi (chDesc meas 5)) ∧
    (measures charge = true ∧ measuring charge 5 = true ∧ dArEn (chDesc charge 5) = true ∧ dMode (chDesc charge 5) = 2 ∧
      (chanAt charge 5).rangeNow < dArHi (chDesc charge 5) ∧ dArLo (chDesc charge 5) < (chanAt charge 5).rangeNow) ∧
    (let h := updChan 5 (fun x => { x with rangeNow := 0 }) meas
     measuring h 5 = true ∧ dArEn (chDesc h 5) = true ∧ dMode (chDesc h 5) ≠ 2 ∧ (chanAt h 5).rangeNow ≤ dArLo (chDesc h 5)) ∧
    (let h := updChan 5 (fun x => { x with rangeNow := 3 }) meas
     measuring h 5 = true ∧ dMode (chDesc h 5) ≠ 2 ∧ dArHi (chDesc h 5) ≤ (chanAt h 5).rangeNow) ∧
    (dArEn (chDesc hub 5) = false ∧ phased hub 0 = false) ∧
    (phased overHub 0 = true ∧ (groupAt overHub 0).onPhase = true ∧ overHub.groups.length = 64 ∧ 2 ≤ (groupAt overHub 0).openPhases ∧
      evaluated overHub .excOpen 0 = true) ∧
    (groupAt meas 0).portOn = true ∧ ((chanAt charge 5).sourceOn = true ∧ gExc (grDesc charge (5 / 8)) = 3) ∧
    (groupAt hub 63).portOn = false ∧ (chanAt hub 511).sourceOn = false := by
  refine ⟨?_, ?_, ?_, ?_, ?_, ?_, ?_, ?_, ?_, ?_, ?_, ?_⟩ <;> decide +kernel

theorem witness_RecordBookBalances : balanced hub ∧ hub.stream.assigned < 2 ^ 64 ∧ balanced State.reset.hub ∧
    runsInFull State.reset.hub = false := ⟨rfl, by decide, rfl, rfl⟩

/-! ## Time -/

/-- A hub that follows PPS in TRACK and predicts an offset. -/
def pps (p : Int) : Hub := { hub with time.source := 5, time.servo := .track, time.predicted := some p }

theorem witness_OffsetsWithinTheMarginAreAccepted :
    ((pps 0).time.lost = false ∧ (pps 0).time.servo ≠ .holdover ∧ (pps 0).time.servo ≠ .freeRun ∧ (pps 0).time.rampDue = false ∧
      (pps 0).time.predicted = some 0) ∧
    (isUp (pps 0) = true ∧ (pps 0).time.source = 5 ∧ true ≠ bitOf (pps 0).cfg.timeBlock.toNat 3 ∧ follows (pps 0) = true ∧
      ((ppsTheta (pps 0) 6553600 - 0).natAbs : Int) ≤ 100 * 65536) ∧
    (100 * 65536 < ((ppsTheta (pps 0) 6554112 - 0).natAbs : Int)) := by
  decide +kernel

/-- A hub in TRACK whose lane 0 is UP and whose source has the code given. -/
def timed (src : Nat) : Hub := updLane 0 (fun x => { x with state := .up }) { hub with time.source := src, time.servo := .track }

theorem witness_TimeEvents :
    (isUp (timed 0) = true ∧ (zeros 64).length = 64 ∧ (timed 0).lanes.length = 6 ∧ (timed 0).time.laneMeas.length = 6 ∧
      (laneAt (timed 0) 0).state = .up ∧ sourceLane (timed 0) ≠ some 0) ∧
    (sourceLane (timed 1) = some 0 ∧ (laneAt (timed 1) 0).state = .up ∧
      exchangeValid (timed 1) 0 (zeros 64) (arriveStamp (timed 1) 0 0) = false) ∧
    (follows (pps 0) = true ∧ (pps 0).time.lost = false ∧ Fresh 0x67 0 (pps 0)) ∧
    (let h := { hub with time.servo := .holdover, time.source := 5, time.qual := List.replicate 16 0 }
     h.time.servo = .holdover ∧ 1 ≤ h.time.source ∧ h.time.source ≤ 6 ∧ qualified h.time.qual = true ∧ h.time.exitStep = none ∧
      h.time.exitSlew = none ∧ ((h.time.qual.headD 0).natAbs : Int) ≤ stepThreshold h.cfg.timeBlock) ∧
    (let h := { hub with time.servo := .freeRun, time.source := 5, time.qual := List.replicate 16 65536001 }
     qualified h.time.qual = true ∧ stepThreshold h.cfg.timeBlock < ((h.time.qual.headD 0).natAbs : Int)) ∧
    (let h := { hub with time.servo := .slew }
     h.time.servo = .slew ∧ h.time.rampDue = false ∧ h.time.ramp = 0) ∧
    (let h := { hub with power.ref10 := true }
     h.power.ref10 = true ∧ h.time.source ≠ 6 ∧ h.time.source ≠ 7) ∧
    (let h := { pps 0 with power.ref10 := true, time.source := 6 }
     h.power.ref10 = true ∧ h.time.source = 6 ∧ follows h = true ∧ h.time.lost = false ∧ Fresh 0x67 0 h) ∧
    (let h := { hub with power.ref10 := true, time.source := 7 }
     h.power.ref10 = true ∧ h.time.source = 7 ∧ Fresh 0x67 0 h) ∧
    (bringingUp booting.power.phase = true ∧ isUp hub = true) ∧
    ({ hub with power.phase := .noRefclk } : Hub).power.phase = .noRefclk ∧ ∀ n, hub.faults.force.contains (n, 0, true) = false := by
  refine ⟨?_, ?_, ⟨?_, ?_, fresh rfl rfl _ _⟩, ?_, ?_, ?_, ?_, ⟨?_, ?_, ?_, ?_, fresh rfl rfl _ _⟩, ⟨?_, ?_, fresh rfl rfl _ _⟩, ?_, rfl,
    fun n => rfl⟩ <;> decide +kernel

/-! ## Calibration, handovers, flares, captures, memory -/

theorem witness_MemoryEvents :
    (3, 131000) ∈ ({ hub with mem.moving := [(3, 131000)] } : Hub).mem.moving ∧ (∃ w, hub.windows[15]? = some w) := by
  exact ⟨by decide +kernel, _, rfl⟩

/-- A turn of channel 5. -/
def turn5 (step : TurnStep) (started : Option Nat) : Turn :=
  { ch := 5, step := step, fe := 5, mode := 0, ranges := [1], trigger := 3, startTick := started }

/-- A hub that measures, with that turn on tile 0. -/
def turned (step : TurnStep) (started : Option Nat) : Hub :=
  { meas with tiles := [{ turn := some (turn5 step started) }, {}, {}, {}] }

theorem witness_CalibrationAndHousekeepingEvents :
    ((turned .aloneRun none).tiles.length = 4 ∧ (turned .aloneRun none).fes.length = 576 ∧ (turned .aloneRun none).chans.length = 512) ∧
    (mayRun (turned .aloneRun none) 0 = true ∧ turnToStart (turned .aloneRun none) 0 = some (turn5 .aloneRun none) ∧
      (turned .aloneRun none).hk.urgent = [] ∧ (turn5 .aloneRun none).step = .aloneRun ∧ (turn5 .aloneRun none).ch < 512) ∧
    (mayRun (turned .ownRun none) 0 = true ∧ turnToStart (turned .ownRun none) 0 = some (turn5 .ownRun none) ∧
      (turn5 .ownRun none).step ≠ .aloneRun) ∧
    (mayRun booting 3 = false ∧ mayRun meas 0 = true ∧ turnToStart { meas with fes := [] } 0 = none) ∧
    (let u := { turn5 .ownRun (some 0) with path := [0, 0, 0, 0], endOp := 160 }
     let h := { meas with tiles := [{ turn := some u }, {}, {}, {}], time.op4k := 160 }
     (tileAt h 0).turn = some u ∧ u.startTick.isSome = true ∧ u.fe < 576 ∧ u.endOp ≤ h.time.op4k ∧ u.path.length = (pathSources 0 u).length ∧
      (∃ m, (1, m) ∈ u.ranges.zip (runOutputs h 0 u [List.replicate 655360 false]).1) ∧ 159 < u.endOp) ∧
    (let h := updFe 575 (fun f => { f with retryAt := some 40000 }) hub
     (feAt h 575).retryAt = some 40000 ∧ h.time.op4k < 40000 ∧ 40000 ≤ ({ h with time.op4k := 40000 } : Hub).time.op4k) ∧
    (let h := { hub with tiles := [{}, {}, {}, { holdUntil := some 240000 }] }
     (tileAt h 3).holdUntil = some 240000 ∧ h.time.op4k < 240000 ∧ 240000 ≤ ({ h with time.op4k := 240000 } : Hub).time.op4k) ∧
    (let h := { hub with cfg.hkSeq := [0, 1], hk := { codes := [0, 0], shadow := some [5] } }
     isUp h = true ∧ h.hk.codes.length = h.cfg.hkSeq.length ∧ h.hk.pos + 1 < h.cfg.hkSeq.length ∧
      ({ h with hk.pos := 1 } : Hub).hk.pos + 1 = h.cfg.hkSeq.length ∧ h.hk.shadow = some [5]) ∧
    (({ hub with hk.urgent := [⟨47, 0, true, false⟩] } : Hub).hk.urgent = ⟨47, 0, true, false⟩ :: [] ∧
      (⟨47, 0, true, false⟩ : Urgent).calibration = false) ∧
    (let u : Urgent := ⟨40, 0, false, true⟩
     let h := { turned .ownRun (some 0) with hk.urgent := [u] }
     h.hk.urgent = u :: [] ∧ u.calibration = true ∧ h.tiles.length = 4 ∧ (tileAt h (u.source % 4)).turn = some (turn5 .ownRun (some 0)) ∧
      (pathSources (u.source % 4) (turn5 .ownRun (some 0)))[(turn5 .ownRun (some 0)).path.length]? = some (u.source, u.sub) ∧
      (turn5 .ownRun (some 0)).path.length < 3) ∧ hub.hk.urgent = [] := by
  refine ⟨?_, ?_, ?_, ?_, ⟨?_, ?_, ?_, ?_, ?_, ⟨_, List.mem_cons_self ..⟩, ?_⟩, ?_, ?_, ?_, ?_, ?_, ?_⟩ <;> decide +kernel

/-- A hub whose channel 5 is in overlap in a frame of 1 ms, its front ends 5 and 8 with nominal coefficients. -/
def overlapped (x : Option Bool) (step : TurnStep) : Hub :=
  let nominal (f : Fe) : Fe := { f with coefs := [{ mode := 0, range := 0, o := 0, g := 0x55555555 }] }
  let h := { turned step none with time.frameLen := 65536000000 }
  updFe 5 nominal (updFe 8 nominal (updChan 5 (fun c => { c with pair := .overlap, handover := x, rangeNow := 0 }) h))

/-- The window of 960 µs holds 15,729 bits; means that are equal agree, and those of all +1 and of none do not (05 R105). -/
theorem test_overlap_agrees :
    let h := overlapped (some true) .ownRun
    overlapBits h = 15729 ∧ overlapAgrees h 5 100 100 = true ∧ overlapAgrees h 5 15729 0 = false := by decide +kernel

/-- Neither front end of channel 5 has over-ranged. -/
def quiet5 (h : Hub) : Bool :=
  (feAt h 5).overRange.isNone && (feAt h 8).overRange.isNone && (feAt h 5).overIn != some h.time.tick && (feAt h 8).overIn != some h.time.tick

theorem witness_Handovers :
    (meas.chans.length = 512 ∧ meas.tiles.length = 4 ∧ meas.groups.length = 64) ∧
    ((chanAt (overlapped (some true) .ownRun) 5).pair = .overlap ∧ (chanAt (overlapped (some true) .ownRun) 5).handover = some true ∧
      quiet5 (overlapped (some true) .ownRun) = true ∧ dMode (chDesc (overlapped (some true) .ownRun) 5) = 0 ∧
      overlapAgrees (overlapped (some true) .ownRun) 5 0 0 = true ∧ overlapAgrees (overlapped (some true) .ownRun) 5 10000 0 = false ∧
      (feAt (updFe 8 (fun f => { f with overIn := some (overlapped (some true) .ownRun).time.tick }) (overlapped (some true) .ownRun)) 8).overIn =
        some (overlapped (some true) .ownRun).time.tick) ∧
    (let h := overlapped none .overlapTake
     (chanAt h 5).pair = .overlap ∧ (chanAt h 5).handover = none ∧ (tileAt h (5 / 128)).turn = some (turn5 .overlapTake none) ∧
      (turn5 .overlapTake none).ch = 5 ∧ quiet5 h = true ∧ overlapAgrees h 5 0 0 = true) ∧
    (chanAt meas 5).pair ≠ .overlap ∧ (tileAt (turned .handTake none) (5 / 128)).turn = some (turn5 .handTake none) ∧
    Fresh (0x1A + 16 * (5 / 128)) 5 (turned .handTake none) := by
  refine ⟨?_, ?_, ?_, ?_, ?_, fresh rfl rfl _ _⟩ <;> decide +kernel

/-- A hub whose definition 7 exports that capture with room for one record, and whose flare unit 15 takes falling edges. -/
def exportHub (budget : Int) : Hub :=
  { capHub with
    cap.defs := hub.cap.defs.set 7 { caps := [{ capture3 with desc := zeros 96, segs := [{ tick := 0, first := 0, count := 1, lost := 1 }] }]
                                     budget := budget } }

/-- A hub with both bonds up. -/
def bonded : Hub := { hub with links := [{ up := true }, { up := true }, {}, {}] }

theorem witness_FlareAndCaptureEvents :
    (match exporting (defAt (exportHub 100000000) 7) with
      | some c => match nextData (exportHub 100000000) 7 c with
        | some (r, _) => decide (((recLen r * tickHz (exportHub 100000000).time.tCode : Nat) : Int) ≤ (defAt (exportHub 100000000) 7).budget)
        | none => false
      | none => false) = true ∧
    exporting (defAt hub 7) = none ∧
    (let h := { hub with cap.defs := hub.cap.defs.set 7 { state := .running } }
     (defAt h 7).state = .running ∧ ∀ c ∈ (defAt h 7).caps, capRuns c (frameEnd h) = false) ∧
    isActive hub = true ∧
    (let h := { hub with cap.lastTrig := some 0 }
     h.cap.lastTrig = some 0 ∧ (h.time.tickInst + 65536000) / 262144 * 262144 ≤ 0 + 65536000 ∧
      0 + 65536000 < (h.time.tickInst + 65798144) / 262144 * 262144 ∧ ∀ e ∈ h.cap.events, e.inst ≠ 65798144) ∧
    (isUp bonded = true ∧ (linkAt bonded 1).up = true ∧ (zeros 32).length = 32 ∧ isStandby bonded = false ∧ bonded.links.length = 4 ∧
      fieldAt (zeros 5 ++ leNat 1 2 ++ zeros 26) 5 1 = 2 ∧ fieldAt (zeros 32) 5 1 ≤ 1) := by
  refine ⟨?_, ?_, ?_, ?_, ?_, ?_⟩ <;> decide +kernel

/-! ## Lanes and links -/

/-- A hub whose lane l is as given. -/
def laned (l : Nat) (x : Lane) : Hub := { hub with lanes := hub.lanes.set l x }

/-- A training set of a type with its COUNTDOWN and its check byte. -/
def ts (type countdown : Nat) : Bytes :=
  let b := leNat 1 type ++ zeros 9 ++ leNat 1 countdown ++ zeros 3
  b ++ [~~~ (b.foldl (· ^^^ ·) 0)]

theorem witness_LaneTrainingEvents :
    (lanesPowered hub = true ∧ hub.lanes.length = 6 ∧ lMode (laneDesc hub 5) = 1 ∧ lLoop (laneDesc hub 5) = 0 ∧ (laneAt hub 5).train = .idle ∧
      (laneAt hub 5).state = .searching) ∧
    (tsValid (ts 1 0) = true ∧ tsValid (ts 5 0) = true ∧ tsValid (zeros 15) = false ∧ tsValid (ts 3 0) = true ∧
      fieldAt (ts 3 0) 0 1 = 3 ∧ fieldAt (ts 3 0) 10 1 = 0 ∧ tsValid (ts 3 1) = true ∧ fieldAt (ts 3 1) 10 1 ≠ 0 ∧ fieldAt (ts 5 0) 0 1 = 5) ∧
    (let x := laneAt (laned 0 { train := .step, state := .training }) 0
     x.train = .step ∧ x.state = .training ∧ x.countdown ≠ 0 ∧ 0 < x.countdown ∧ x.countdown ≤ 15 ∧
      (laneAt (laned 0 { state := .up }) 0).state = .up ∧ (laneAt (laned 0 { state := .up }) 0).carried = false) ∧
    (let x := laneAt (laned 1 { state := .training, train := .adapt, passed := some 0 }) 1
     x.train = .adapt ∧ x.state ≠ .up ∧ x.passed = some 0) ∧
    (let x := laneAt (laned 1 { state := .training, train := .adapt, rate := some 0 }) 1
     x.train = .adapt ∧ x.state ≠ .up ∧ x.passed = none ∧ decide (300 ≤ 300 ∧ 30 ≤ 30 ∧ (0 : Nat) = 0) = true) ∧
    (let x := laneAt (laned 2 { train := .search }) 2
     x.train = .search ∧ x.state ≠ .up ∧ (laneAt (laned 3 { state := .training, train := .settle }) 3).state ≠ .up) ∧
    (let h := laned 3 { state := .training, train := .settle }
     (laneAt h 3).train = .settle ∧ (laneAt h 3).loopReq = false ∧ h.time.running = true ∧ lLoop (laneDesc h 3) ≠ 3 ∧
      ({ h with time.running := false } : Hub).time.running = false) ∧
    (laneAt (laned 4 { setRun := (9, 3) }) 4).aligned = none ∧ (laneAt (laned 4 { setRun := (9, 3) }) 4).setRun = (9, 3) ∧
    (laneAt hub 4).setRun.1 ≠ 9 := by
  refine ⟨?_, ?_, ?_, ?_, ?_, ?_, ?_, ?_⟩ <;> decide +kernel

/-- A hub whose lane 5 is an Ethernet port in the state given. -/
def ethHub (x : LaneState) : Hub := { laned 5 { state := x } with cfg.lane := hub.cfg.lane.set 5 2 }

theorem witness_LaneLossEvents :
    (hub.pair.paired = false ∧ hub.pair.heldResp = []) ∧ (laneAt (laned 0 { state := .up }) 0).state = .up ∧
    ((laneAt hub 5).state = .searching ∧ (laneAt hub 5).train = .idle) ∧
    (ethMode (ethHub .ethDown) = true ∧ lanesPowered (ethHub .ethDown) = true ∧ (laneAt (ethHub .ethDown) 5).state = .ethDown ∧
      lLoop (laneDesc (ethHub .ethDown) 5) = 0 ∧ lLoop (laneDesc { ethHub .ethDown with cfg.lane := hub.cfg.lane.set 5 0x22 } 5) ≠ 0) ∧
    (laneAt (ethHub .ethUp) 5).state = .ethUp ∧ (laneAt hub 5).state ≠ .ethUp := by
  decide +kernel

/-- A hub whose lane 0 is UP in the Bond U that is as given. -/
def linked (l : Link) : Hub := { laned 0 { state := .up, rate := some 0 } with links := [l, {}, {}, {}] }

/-- A MAILBOX cell of one byte that starts a unit. -/
def cellA : Cell := { cls := 1, flags := 0x21, origin := 9, data := [7] }

theorem witness_CellsLeaveInTheirSlots :
    (let h := linked { up := true, linkQ := [zeros 4] }
     (laneAt h 0).state = .up ∧ (laneAt h 0).rejoin = false ∧ (laneAt h 0).stopped = false ∧ isUp h = true ∧ (linkAt h 0).up = true ∧
      h.links.length = 4 ∧ (linkAt h 0).resyncDue = false ∧ (linkAt h 0).creditDue = false ∧ (linkAt h 0).linkQ = zeros 4 :: []) ∧
    ((linkAt (linked { up := true, resyncDue := true }) 0).resyncDue = true ∧
      (linkAt (linked { up := true, creditDue := true }) 0).resyncDue = false ∧
      (linkAt (linked { up := true, creditDue := true }) 0).creditDue = true) ∧
    (let h := updLane 0 (fun x => { x with timeDue := true }) (linked { up := true })
     slotOf h 0 = 0 ∧ (laneAt h 0).state = .up ∧ (laneAt h 0).timeDue = true ∧ (linkAt h 0).resyncDue = false ∧ (linkAt h 0).creditDue = false ∧
      (linkAt h 0).linkQ = []) ∧
    (let h := { linked { up := true, ready := true, outQ := [[cellA], [], [], [], []], credits := [1, 0, 0, 0, 0] } with
                  cfg.slots := [[0, 1]] }
     let l := linkAt h 0
     slotOf h (tickLen 3 / 64) = 1 ∧ l.resyncDue = false ∧ l.creditDue = false ∧ l.linkQ = [] ∧ l.resendQ = [] ∧ l.ready = true ∧ (h.cfg.slots.getD 0 []).getD 1 0 = 0 + 1 ∧ l.outQ.getD 0 [] = cellA :: [] ∧
      0 < l.credits.getD 0 0 ∧ l.replay.length < 512 ∧ cellA.cls = 0 + 1) ∧
    (let l := linkAt (linked { up := true }) 0
     l.linkQ = [] ∧ l.resendQ = [] ∧ ∀ i < 5, l.credits.getD i 0 = 0) ∧
    (let l := linkAt (linked { up := true, ready := true, resendQ := [(3, cellA)] }) 0
     l.linkQ = [] ∧ l.resendQ = (3, cellA) :: [] ∧ l.ready = true) := by
  refine ⟨?_, ?_, ?_, ?_, ?_, ?_⟩ <;> decide +kernel

/-- A hub whose Bond U is ready and expects LSEQ 5. -/
def ready5 : Hub := linked { up := true, ready := true, resyncHeard := true, expect := 5, rxFree := [1, 1, 1, 1, 1] }

theorem witness_CellsAreAcceptedInOrder :
    (∀ q, lcrcOk (cellBytes q 0 cellA) = true) ∧
    (ready5.links.length = 4 ∧ ready5.lanes.length = 6 ∧ (laneAt ready5 0).state = .up ∧ isUp ready5 = true ∧ (linkAt ready5 0).up = true ∧
      (linkAt ready5 0).ready = true ∧ (linkAt ready5 0).replay = [] ∧ (linkAt ready5 0).resyncHeard = true) ∧
    (lcrcOk [] = false ∧ (askedIn 0 (laneAt ready5 0)).length < 16 ∧
      16 ≤ (askedIn 0 (laneAt (updLane 0 (fun x => { x with asked := List.replicate 16 0 }) ready5) 0)).length) ∧
    (let b := cellBytes 5 0 cellA
     let l := linkAt ready5 0
     cellReserved b = false ∧ (cellFrom b).2.2.cls = 1 ∧ (cellFrom b).1 = l.expect ∧ 0 < l.rxFree.getD 0 0 ∧
      l.ahead = [] ∧ l.rxFree.length = 5 ∧ l.freed.length = 5 ∧ l.freed.getD 0 0 + 1 < l.reported.getD 0 0 + 8 ∧
      cFirst (cellFrom b).2.2 = true ∧ cLast (cellFrom b).2.2 = false ∧ cAbort (cellFrom b).2.2 = false) ∧
    (let b := cellBytes 4 0 cellA
     cellReserved b = false ∧ covers ((linkAt ready5 0).expect - 1) (cellFrom b).1 = true) := by
  refine ⟨fun q => lcrcOk_cellBytes q 0 cellA, ?_, ?_, ?_, ?_⟩ <;> decide +kernel

theorem witness_LinkMessages :
    (isUp (linked { up := true }) = true ∧ (linkAt (linked { up := true }) 0).up = true) ∧
    (let h := linked { up := true, ahead := [(6, cellA)] }
     (linkAt h 0).ahead ≠ [] ∧ (∀ m ∈ upLanes h 0, (askedIn h.time.tickInst (laneAt h m)).length < 16) ∧ 0 ∈ upLanes h 0 ∧
      16 ≤ (askedIn h.time.tickInst (laneAt (updLane 0 (fun x => { x with asked := List.replicate 16 0 }) h) 0)).length) ∧
    (let l := linkAt (linked { up := true }) 0
     l.ahead = [] ∧ l.credits.length = 5 ∧ l.farFreed = [0, 0, 0, 0, 0] ∧ l.ready = false ∧ l.replay = [] ∧
      (∀ i < 5, l.credits.getD i 0 + ((List.range 5).map fun i => fieldAt (zeros 24) (4 + 4 * i) 4).getD i 0 + inFlight l i ≤
        (rxCaps 0).getD i 0) ∧
      (∃ i < 5, (rxCaps 0).getD i 0 <
        l.credits.getD i 0 + ((List.range 5).map fun i => fieldAt (zeros 4 ++ leNat 4 33 ++ zeros 16) (4 + 4 * i) 4).getD i 0 +
          inFlight l i) ∧
      ∀ i < 5, fieldAt (zeros 18) (8 + 2 * i) 2 ≤ (rxCaps 0).getD i 0) ∧
    Fresh (0x95 + 8 * headLane (linked { up := true }) 0) 0 (linked { up := true }) ∧ ((linkAt ready5 0).ready = true ∧ (linkAt ready5 0).resyncSent = false ∧
      bitOf (fieldAt (zeros 18) 1 1) 0 = false ∧
      (linkAt (linked { up := true, ready := true, resyncSent := true }) 0).ready = true ∧
      (linkAt (linked { up := true, ready := true, resyncSent := true }) 0).resyncSent = true) ∧
    (let h := laned 5 { state := .loopback, loopSeen := [4, 3] }
     (laneAt h 5).state = .loopback ∧ lPrbs (laneDesc h 5) = false ∧ 3 < 2 ^ 32 ∧ ∀ c ∈ (laneAt h 5).loopSeen, 3 ≤ c) := by
  refine ⟨?_, ?_, ?_, fresh rfl rfl _ _, ?_, ?_⟩ <;> decide +kernel

/-- A DATA cell of another hub's record. -/
def cellB : Bytes := cellBytes 5 0 { cls := 3, flags := 1, origin := 9, data := zeros 240 }

theorem witness_TrafficPassesThrough :
    lcrcOk cellB = true ∧
    (let h := { ready5 with cfg.timeBlock := 2 }
     isUp h = true ∧ (linkAt h 0).up = true ∧ custodyLink h.cfg = 1 - 0 ∧ cellReserved cellB = false ∧
      (cellFrom cellB).2.2.cls = 3 ∧ 0 < (linkAt h 0).rxFree.getD 2 0 ∧ (linkAt h 0).ahead = [] ∧ (linkAt h 1).outQ.length = 5 ∧
      cFirst (cellFrom cellB).2.2 = true ∧
      ∃ p ∈ (linkAt (linked { up := true, partials := [{ cls := 4, origin := 9, data := [] }] }) 0).partials,
        p.cls = 4 ∧ p.origin = (cellFrom cellB).2.2.origin) ∧
    ((9 : Word) ≠ bonded.flash.hubId ∧ (linkAt bonded 0).up = true ∧ (linkAt bonded 1).up = true ∧ (linkAt bonded 1).outQ.length = 5) ∧
    (let r : Held := { record := { ty := 6, order := 0 }, tick := 0 }
     let h := { hub with stream.reserve := [r] }
     custodyOutlet h = 0 ∧ h.outlets.lane.words = [] ∧ h.outlets.lane.rest = [] ∧ nextToSend h = some r) ∧
    (2 ≠ 1 ∧ custodyOutlet hub ≠ 2) := by
  refine ⟨lcrcOk_cellBytes _ _ _, ?_, ?_, ?_, ?_⟩ <;> decide +kernel

/-! ## Ethernet and PTP -/

/-- An uplink block: address, prefix, the PTP domain and role, gateway and sink. -/
def uplinkOf (addr role : Nat) : Bytes := leNat 4 addr ++ [24, 0, 0] ++ leNat 1 role ++ zeros 4 ++ leNat 4 0x0A000002 ++ zeros 16

/-- A hub whose Ethernet link is up. -/
def wired (addr role : Nat) : Hub := { ethHub .ethUp with cfg.uplink := uplinkOf addr role }

/-- A datagram of a message of n bytes that carries its first 32. -/
def datagram (n : Nat) : Bytes := leNat 4 9 ++ leNat 1 2 ++ zeros 1 ++ leNat 2 n ++ leNat 4 1 ++ zeros 4 ++ zeros 32

/-- An Announce of a port. -/
def announced (domain priority : Byte) (port : BitVec 64) : Announce :=
  { domain := domain, priority1 := priority, clockClass := 6, clockAccuracy := 0x21, variance := 0, priority2 := 128, grandmaster := 1
    steps := 0, port := port, utcOffset := 37, utcValid := true, timeTraceable := true }

theorem witness_UplinkEvents :
    (let h := wired 0x0A000001 0
     isUp h = true ∧ ethUp h = true ∧ upAddr h ≠ 0 ∧ datagramOk (datagram 32) = true ∧ datagramOk (datagram 33) = true ∧ h.eth.reasm = [] ∧
      fieldAt (datagram 32) 12 2 = 0 ∧ fieldAt (datagram 32) 6 2 = (datagram 32).length - 16 ∧
      BitVec.ofNat 32 (fieldAt (datagram 32) 0 4) ≠ h.flash.hubId ∧ (datagram 33).length - 16 < fieldAt (datagram 33) 6 2 ∧
      datagramOk [] = false ∧ (0x0A000001 : Word).toNat = upAddr h ∧ (1 : Word).toNat ≠ upAddr h) ∧
    (let h := wired 0 0
     ethUp h = true ∧ upAddr h = 0 ∧ (0 : Word).toNat = nextHop h ∧ (1 : Word).toNat ≠ nextHop h) ∧
    (let h := wired 0x0A000001 0
     fieldAt h.cfg.uplink 7 1 = 0 ∧ (announced 0 1 5).domain.toNat = fieldAt h.cfg.uplink 6 1 ∧ h.time.source ≠ 4 ∧ h.eth.ptp.master = none ∧
      (announced 1 1 5).domain.toNat ≠ fieldAt h.cfg.uplink 6 1) ∧
    (let h := { wired 0x0A000001 0 with eth.ptp.master := some (announced 0 1 5), cfg.uplink := uplinkOf 0 0 |>.set 28 1 }
     h.eth.ptp.master.isSome = true ∧ announceLate (h.time.op4k - h.eth.ptp.announceAt) h = false ∧
      announceLate (({ h with time.op4k := 400000 } : Hub).time.op4k - h.eth.ptp.announceAt) h = true) ∧
    (let h := { wired 0x0A000001 0 with time.source := 4, time.servo := .track }
     h.time.source = 4 ∧ follows h = true ∧ h.time.lost = false ∧ Fresh 0x67 0 h ∧ hub.time.source ≠ 4) ∧
    (lexLt (announceKey (announced 0 1 5)) (announceKey (announced 0 2 6)) = true ∧
      lexLt (announceKey (announced 0 2 6)) (announceKey (announced 0 1 5)) = false ∧ (wired 0 0).eth.ptp.portMaster = false ∧
      (announced 0 2 6).port ≠ (announced 0 1 5).port) ∧
    (ptpSends (wired 0x0A000001 1) = true ∧ ptpMaster (wired 0x0A000001 1) = true) ∧
    (let h := { wired 0x0A000001 0 with eth.ptp.master := some (announced 0 1 5), eth.ptp.reqSent := some 0 }
     ptpSends h = true ∧ ptpMaster h = false ∧ h.eth.ptp.master.isSome = true ∧ h.eth.ptp.reqSent.isSome = true) ∧
    (let h := { wired 0x0A000001 0 with eth.ptp.master := some (announced 0 1 5), eth.ptp.delay := some (0, 0, 0), time.source := 4
                                        time.servo := .holdover, time.exitStep := some 0 }
     isUp h = true ∧ ethUp h = true ∧ h.time.source = 4 ∧ h.eth.ptp.master.map (·.port) = some 5 ∧ h.eth.ptp.delay = some (0, 0, 0) ∧
      h.time.servo = .holdover ∧ h.time.exitStep.isSome = true) := by
  refine ⟨?_, ?_, ?_, ?_, ⟨rfl, rfl, rfl, fresh rfl rfl _ _, ?_⟩, ?_, ?_, ?_, ?_⟩ <;> decide +kernel

/-! ## The pair and power -/

/-- A paired hub in the state given, at the grant given, whose partner's state is as given. -/
def mate (st : PairState) (grant : Bool) (other : Option Nat) : Hub :=
  { hub with
    pair := { paired := true, state := st, grant := grant
              partner := other.map fun n => { state := n, eclipse := false, granted := false, epoch := 0, nextSeq := 0, tick := 0 } }
    links := [{}, {}, { up := true }, {}] }

theorem witness_PairRoles :
    (isUp (mate .shadowing false none) = true ∧ (mate .shadowing false none).pair.paired = true) ∧
    (let h := mate .detached false none
     isActive h = false ∧ h.pair.state = .detached ∧ partnerActive h = false ∧ h.pair.takeoverAt = none) ∧
    isActive (mate .activeSolo true none) = true ∧
    ((mate .resyncing false none).pair.state = .resyncing ∧ (mate .resyncing false none).pair.unreadyRaised = false ∧
      Fresh 0xC0 0 (mate .resyncing false none)) ∧
    (let h := { mate .active true (some 0) with pair.conflict := 3 }
     h.pair.grant = true ∧ partnerActive h = true ∧ isActive h = true ∧ h.power.sideB = false ∧ Fresh 0xC1 0 h ∧
      partnerWaits { h with pair.partner := some { state := 2, eclipse := false, granted := true, epoch := 0, nextSeq := 0, tick := 0 } } = true ∧
      h.pair.conflictTicks ≤ h.pair.conflict + 1 ∧ (mate .active true (some 0)).pair.conflict + 1 < h.pair.conflictTicks ∧
      ({ h with power.sideB := true } : Hub).power.sideB = true) ∧
    (let h := { mate .shadowing true none with pair.takeoverAt := some 1, pair.lastVerdict := some 1, pair.lastRaw := some 4, frames := [frame 0] }
     isActive h = false ∧ h.pair.takeoverAt = some (h.time.tick + 1) ∧ h.pair.lastVerdict = some 1 ∧ h.pair.lastRaw = some 4 ∧
      frame 0 ∈ h.frames ∧ 1 < (frame 0).n + (frame 0).v ∧ (frame 0).n ≤ 4) ∧
    (isActive (mate .active false none) = true ∧ (mate .active false none).pair.grant = false ∧ (mate .active true none).pair.grant = true) := by
  refine ⟨?_, ?_, ?_, ⟨?_, ?_, fresh rfl rfl _ _⟩, ⟨?_, ?_, ?_, ?_, fresh rfl rfl _ _, ?_⟩, ?_, ?_⟩ <;> decide +kernel

/-- A STATUS unit of a partner in the state given. -/
def statusUnit (st : Nat) : Bytes := leNat 4 7 ++ leNat 4 32 ++ zeros 8 ++ leNat 1 st ++ zeros 15

theorem witness_PairUnits :
    (let h := mate .activeSolo true none
     isUp h = true ∧ h.pair.paired = true ∧ (linkAt h 2).up = true ∧ isActive h = true ∧ (statusUnit 2).length = 32 ∧
      fieldAt (statusUnit 2) 0 4 = 7 ∧ fieldAt (statusUnit 2) 4 4 = 32 ∧ fieldAt (statusUnit 2) 16 1 = 2 ∧
      fieldAt (statusUnit 2) 17 1 ≤ 3 ∧ fieldAt (statusUnit 2) 20 4 = 0 ∧ fieldAt (zeros 2 ++ leNat 2 1 ++ zeros 28) 2 2 ≠ 0 ∧
      fieldAt (statusUnit 4) 16 1 < 5 ∧ fieldAt (statusUnit 4) 16 1 ≠ 2 ∧ (zeros 15).length < 16) ∧
    (Fresh 0xC2 0 (mate .activeSolo true none) ∧ (linkAt { mate .active true none with links := hub.links } 2).up = false) ∧
    (let h := { mate .shadowing false none with pair.silent := 3 }
     isActive h = false ∧ h.pair.state = .shadowing ∧ 3 ≤ h.pair.silent ∧ (mate .shadowing false none).pair.silent < 3) ∧
    (let h := { mate .resyncing false none with pair.retryAt := some 0 }
     h.pair.state = .resyncing ∧ (linkAt h 2).up = true ∧ h.pair.resyncWait = false ∧ h.pair.snapped = false ∧ h.pair.retryAt.isSome = true ∧
      (slotAt h 0).key.isSome = true ∧ h.links.length = 4 ∧ (linkAt h 2).outQ.length = 5 ∧ h.pair.retryAt = some 0 ∧ 0 ≤ h.time.op4k ∧
      ({ mate .resyncing false none with pair.retryAt := some 1 } : Hub).pair.retryAt = some 1 ∧ hub.time.op4k < 1) ∧
    (let h := { mate .resyncing false none with pair.snapped := true, pair.copyDone := true, pair.digestOk := true }
     h.pair.state = .resyncing ∧ h.pair.snapped = true ∧ h.pair.copyDone = true ∧ h.pair.digestOk = true) ∧
    hub.pair.digestOk = false := by
  refine ⟨?_, ⟨fresh rfl rfl _ _, ?_⟩, ?_, ?_, ?_, ?_⟩ <;> decide +kernel

/-- A hub in the phase given. -/
def inPhase (p : Phase) : Hub := { hub with power.phase := p }

theorem witness_PowerResets :
    ((inPhase .off).power.phase = .off ∧ hub.power.phase ≠ .off ∧ hub.power.vinLow = false ∧
      ({ hub with power.vinLow := true } : Hub).power.vinLow = true) ∧
    (1000 ≤ 1000 ∧ 999 < 1000) ∧ ({ hub with jr.queue := [jrec 0] } : Hub).jr.queue = jrec 0 :: [] := by
  decide +kernel

/-- The image as shipped runs where no key is revoked and no minimum is set. -/
theorem factory_runs {i : Image} {h : Hub} (hf : i.factory = true) (hr : h.flash.revoked = 0) (hm : h.flash.minSec = 0) :
    imageVerifies i h = true := by
  simp [imageVerifies, hf, hr, hm, bitOf]

theorem witness_BringUpPhases :
    ((inPhase .supply).power.phase = .supply ∧ (inPhase .clocks).power.phase = .clocks ∧ (inPhase .selftest).power.phase = .selftest ∧
      (inPhase .calibrate).power.phase = .calibrate ∧ (inPhase .restore).power.phase = .restore ∧
      (inPhase .restore).power.restored = false ∧ bringingUp (inPhase .noImage).power.phase = false ∧
      (inPhase .align).power.phase = .align) ∧
    (let h := inPhase .boot
     imageVerifies (imageOf h h.flash.bootChoice) h = true ∧ h.flash.bootFails - b2n h.power.bootCounted < 3) ∧
    (let h := { inPhase .boot with flash.bootFails := 3, flash.imageB := { installed := true, factory := true } }
     imageVerifies (imageOf h h.flash.bootChoice) h = true ∧ imageVerifies (imageOf h (1 - h.flash.bootChoice)) h = true ∧
      3 ≤ h.flash.bootFails - b2n h.power.bootCounted) ∧
    (let h := { inPhase .boot with flash.bootChoice := 1 }
     imageVerifies (imageOf h (1 - h.flash.bootChoice)) h = true ∧ imageVerifies (imageOf h h.flash.bootChoice) h = false) ∧
    (let h := { inPhase .boot with flash.imageA := {} }
     imageVerifies (imageOf h h.flash.bootChoice) h = false ∧ imageVerifies (imageOf h (1 - h.flash.bootChoice)) h = false) ∧
    (({ kat := knownAnswer } : BootEnv).ramOk = true ∧ ({ kat := knownAnswer } : BootEnv).kat = knownAnswer ∧
      ({ kat := [] } : BootEnv).kat ≠ knownAnswer) := by
  refine ⟨?_, ⟨factory_runs rfl rfl rfl, ?_⟩, ⟨factory_runs rfl rfl rfl, factory_runs rfl rfl rfl, ?_⟩, ⟨factory_runs rfl rfl rfl, ?_⟩, ?_, ?_⟩ <;>
    decide +kernel

/-- A drain that asked for a warm reset at tick 0. -/
def draining (done : Bool) (tick : Nat) : Hub :=
  { inPhase .draining with
    power.drain := some { tick := 0, cause := 0, kind := 0, finalReleased := done, lastSeq := 4 }
    time.tick := tick }

theorem witness_FirstLightAndDrain :
    (let h := { inPhase .align with power.calibrated := true, power.dramWiped := true }
     h.power.phase = .align ∧ h.power.calibrated = true ∧ h.power.dramWiped = true) ∧
    (hub.power.phase ≠ .align ∧ hub.power.drain = none) ∧
    (let h := draining false 2
     (∃ d, h.power.drain = some d ∧ d.finalReleased = false ∧ h.time.tick = d.tick + h.time.v) ∧ h.stream.due.any (·.ledger) = false) ∧
    (∃ d, (draining true 2).power.drain = some d ∧ d.finalReleased = true ∧ drainCovered d (draining true 2) = true) ∧
    (∃ d, (draining true 2).power.drain = some d ∧ drainTimedOut d { draining true 2 with time.op4k := 240000 } = true ∧
      drainTimedOut d (draining true 2) = false ∧
      drainCovered d { draining true 2 with stream.reserve := [{ record := { ty := 6, order := 0, seq := 4 }, tick := 2 }] } = false) := by
  refine ⟨?_, ?_, ⟨⟨_, rfl, ?_⟩, ?_⟩, ⟨_, rfl, ?_⟩, ⟨_, rfl, ?_⟩⟩ <;> decide +kernel

/-! ## Ill-formed commands, one for each check of `Instr.wf` -/

/-- A request of a mailbox there is not. -/
def stray : Req := { reading with mailbox := 8 }

theorem test_illformed_requests :
    ([
      .cfgLabel stray, .readIdentity stray, .readLedger stray, .cfgChannel stray, .cfgExcitation stray, .cfgRemap stray,
      .reviveChannel stray, .readChannel stray, .cfgTick stray, .cfgTime stray, .timeStep stray, .readTime stray,
      .cfgCalibration stray, .calSelf stray, .calSystem stray, .cfgHousekeeping stray, .readCalQuality stray,
      .readHousekeeping stray, .loadGraph stray, .activateGraph stray, .readGraph stray, .cfgFlare stray, .cfgCapture stray,
      .flareNow stray, .releaseCapture stray, .clearCaptureStats stray, .readCaptures stray, .cfgCompression stray,
      .custodyAck stray, .custodyRetransmit stray, .cfgOutlets stray, .compressJob stray, .resumeCompress stray,
      .cancelCompress stray, .cfgLane stray, .cfgSlotTable stray, .cfgUplink stray, .readLane stray, .openWindow stray,
      .closeWindow stray, .cfgFault stray, .forceFault stray, .readFaults stray, .readJournal stray, .cfgPair stray,
      .pairResync stray, .readPair stray, .provision stray, .commission stray, .enterMaintenance stray, .exitMaintenance stray,
      .decommission stray, .loadKey stray, .eraseKey stray, .fwLoad stray, .fwVerify stray, .fwInstall stray, .fwActivate stray,
      .reset stray, .cfgLoopOutput stray, .readLoop stray, .transfer stray {}, .resumeTransfer stray {}]
      : List Instr).all (fun i => !i.wf) = true := by
  decide

theorem test_illformed_mailboxes :
    ([.noticeDeliver 2, .mailboxMessageArrival 1 [] 0 {}, .mailboxMessageArrival 6 [] 0 {}, .mailboxMessageArrival 2 [] 6 {},
      .mailboxCellMessage 4 0 0 2 [] {}, .mailboxCellMessage 0 0 0 6 [] {}]
      : List Instr).all (fun i => !i.wf) = true := by
  decide +kernel

theorem test_illformed_front_end :
    ([.compressJobStop 4, .calSystemWindowClose 512, .scheduleFlare 16, .slotTableSwap 6, .sampleSlotCreate 512 [],
      .overRangeStart 576 true 0, .overRangeEnd 576 0 0, .neighbourVerdictDeadline 576, .autorangeDown 512 0, .autorangeUp 512 0,
      .onPhaseStart 64, .onPhaseEnd 64 false false 0 0, .limiterFoldBack true 64, .limiterFoldBack false 512, .limiterRetry 512]
      : List Instr).all (fun i => !i.wf) = true := by
  decide +kernel

theorem test_illformed_detectors :
    ([.detectorAssert .openWire 512 0 0, .loopCompliance 8 0 0, .stuckOver 512 0, .feFault 576 0, .sourceFault 512 0,
      .temperatureLimit 6 0 0, .supplyRange 7 0 0, .supplyRange 16 0 0, .supplyRange 104 0 0, .tileLinkError 4 false 0,
      .dmaError 32 0, .laneTxFault 6 0, .coreWatchdog 4 0, .grantWatchdog 20 0, .arbitrationRound false [20],
      .privilegedPreemption 20 0, .windowRevoke 16]
      : List Instr).all (fun i => !i.wf) = true := by
  decide +kernel

theorem test_illformed_calibration :
    ([.calRunStart 4 true, .calRunEnd 4 [] 0, .calRunEnd 0 [[]] 0, .calRetry 576, .testdacPathHoldEnd 4,
      .overlapCompare 512 0 0 true, .breakBeforeMakeHandover 512 false, .captureDataExport 8, .captureRearm 8,
      .memberFlareExpire 16, .bringUpPhaseEnd { kat := [], runs := [(576, 0, 0, List.replicate 6 false)] },
      .bringUpPhaseEnd { kat := [], runs := [(0, 0, 0, [])] }, .firstLight (-1)]
      : List Instr).all (fun i => !i.wf) = true := by
  decide +kernel

theorem test_illformed_lanes :
    ([.flareMessageReceipt 4 [], .outletSend 3, .cellTransmit 6 0 0, .cellTransmit 0 64 0, .cellReceipt 6 (zeros 256) 0,
      .cellReceipt 0 [] 0, .nakGapTimeout 4, .nak 4 0, .credit 4 [], .creditReturnSend 4, .resync 4 [], .loopTest 6 [] false,
      .timeMessageReceipt 6 (zeros 64) 0, .timeMessageReceipt 0 [] 0, .passThroughRecord 4 [], .laneSearchAttempt 6,
      .tsReceipt 6 (zeros 15), .tsReceipt 0 [], .rxReady 6 0 0 0, .trainingTimeout 6 false, .latencyMeasure 6 (0, 0), .laneLos 6 0,
      .laneLol 6 0, .laneRejoin 6, .characterAlignment 6 0 false, .characterAlignment 0 10 false]
      : List Instr).all (fun i => !i.wf) = true := by
  decide +kernel

/-- The highest operands of their ranges. -/
theorem test_wellformed :
    ([.noticeDeliver 7, .mailboxMessageArrival 5 [] 7 {}, .cfgLabel { reading with mailbox := 7 }, .sampleSlotCreate 511 [],
      .overRangeStart 575 true 0, .limiterFoldBack true 63, .limiterFoldBack false 511, .supplyRange 15 0 0, .supplyRange 103 0 0,
      .calRunEnd 3 [] 0, .cellTransmit 5 63 0, .cellReceipt 5 (zeros 256) 0, .tsReceipt 5 (zeros 15),
      .characterAlignment 5 9 false, .firstLight 0, .outletSend 2, .windowRevoke 15] : List Instr).all (fun i => i.wf) = true := by
  decide +kernel

/-! ## Values worked out in the spec -/

/-- 00, the example of two sample words. -/
theorem test_sample_words :
    (wValue 0xFFF01C0B, wStatus 0xFFF01C0B, wSeq 0xFFF01C0B) = (-4068, 0, 3) ∧
    (wValue 0x7FFFFF2D, wStatus 0x7FFFFF2D, wSeq 0x7FFFFF2D) = (8388607, 2, 5) := by
  decide +kernel

/-- 05, the shunt example: 1,024/1,025 in 2^-30. -/
theorem test_span : roundEven (2 ^ 40) 1025 = 0x3FF003FF := by decide +kernel

/-- 08, the example of one block: residues and their maps under MODE 5 and WEIGHT 3. -/
theorem test_residues :
    let x (v p z zp : Int) : PredIn := { v := v, ctx := [p, 0, 0], z := z, zctx := [zp, 0, 0] }
    ([x 1043 1000 2040 2000, x 1091 1043 2090 2040, x 1133 1091 2130 2090, x 1152 1133 2150 2130].map fun w =>
      (residue 5 3 w, zigzag (residue 5 3 w))) = [(3, 6), (-2, 3), (2, 4), (-1, 1)] := by
  decide +kernel

/-- 08, the same example: what the four maps of the residues without the neighbour cost at a PARAM of 6. -/
theorem test_cost : [86, 96, 84, 38].map (riceCost 6) = [8, 8, 8, 7] := by decide +kernel

/-- 09 R220, the example after it: 148 bytes take 50 words, the last with byte 147 and END. -/
theorem test_packet : (packetWords (zeros 147 ++ [0xAB])).length = 50 ∧ (packetWords (zeros 147 ++ [0xAB])).getLast? = some 0xAB09 := by
  decide +kernel

/-- 10, the example of one exchange on Tern Deck 14A, in 2^-16 ns: the true offset of 2.34375 ns and the delay. -/
theorem test_exchange :
    let at_ (n : Int) : Bytes := stampBytes { inst := n }
    exchange { hub with cfg.asym := [10, 0, 0, 0, 0] } 0
      (zeros 16 ++ at_ (1000350 * 65536) ++ at_ (1000120 * 65536) ++ at_ (1001217 * 65536 + 43008)) (1001452 * 65536 + 25088) =
      (153600, 72090880) := by
  decide +kernel

/-- 11 R259: the code groups of IDLE and of the first character of a SOC, from a running disparity below zero and above it (the code's
own tables: K28.5, D10.2, K27.7). -/
theorem test_code_groups :
    (codeGroups false idleSet).1 = [0b0011111010, 0b0101010101, 0b0101010101, 0b0101010101] ∧
    (codeGroups true idleSet).1 = [0b1100000101, 0b0101010101, 0b0101010101, 0b0101010101] ∧
    (codeGroup false (charK 27 7)).1 = 0b1101101000 ∧ (cellChars (zeros 256)).length = 264 := by
  decide +kernel

/-- 13, the example of a tagged custody acknowledgement: header and payload. -/
theorem test_message_bytes :
    reqBytes 0x0601 { reading with flags := 1, origin := 0xC501, keySlot := 2, length := 24, msgId := 7, counter := 100001, dest := 0x0E14000A
                                   payload := leNat 8 1 ++ leNat 8 0x300000000 ++ leNat 8 0x3000003E9 } =
      [0x01, 0x01, 0x01, 0x06, 0x01, 0xC5, 0, 0, 0x02, 0, 0x18, 0, 0x07, 0, 0, 0, 0xA1, 0x86, 0x01, 0, 0, 0, 0, 0, 0x0A, 0, 0x14, 0x0E,
        0, 0, 0, 0] ++ [0x01, 0, 0, 0, 0, 0, 0, 0] ++ [0, 0, 0, 0, 0x03, 0, 0, 0] ++ [0xE9, 0x03, 0, 0, 0x03, 0, 0, 0] := by
  decide +kernel

/-- 13 R327: the known answer of the crypto engine. -/
theorem test_known_answer : tagOf (ascii "Jefe") (ascii "what do ya want for nothing?") = knownAnswer := by
  decide +kernel

end Sys2Proof.Tests
end

