-- ==== Sys2Proof/Proofs/SampleSlots.lean ====
section
/-! PROOFS. SAMPLE_SLOT_CREATE: what a new slot's word says, and what its creation leaves alone (00 R5 to R7, 04 R76 to R95). -/

namespace Sys2Proof.Machine

/-! ## The status and the word of a slot -/

/-- The order of 00 R7 spelt out: a status is that of the first cause that holds. Of OVER_HI and OVER_LO together the model sets OVER_HI
(DESIGN CHOICE, log 28). -/
def FirstApplicable (c : SlotCauses) (status : Nat) : Prop :=
  (c.retired = true → status = 8) ∧
  (c.retired = false →
    (c.invalid = true → status = 7) ∧
    (c.invalid = false →
      (c.overHi = true → status = 2) ∧
      (c.overHi = false → c.overLo = true → status = 3) ∧
      (c.overHi = false → c.overLo = false →
        (c.stale = true → status = 5) ∧
        (c.stale = false →
          (c.settling = true → status = 1) ∧
          (c.settling = false → (c.recovering = true → status = 4) ∧ (c.recovering = false → status = 0))))))

theorem firstApplicable_slotStatus (c : SlotCauses) : FirstApplicable c (slotStatus c) := by
  unfold FirstApplicable slotStatus
  refine ⟨fun hr => ?_, fun hr => ⟨fun hi => ?_, fun hi => ⟨fun hh => ?_, fun hh hl => ?_, fun hh hl => ⟨fun hs => ?_, fun hs =>
    ⟨fun ht => ?_, fun ht => ⟨fun hc => ?_, fun hc => ?_⟩⟩⟩⟩⟩⟩
  · simp [hr, sRetired]
  · simp [hr, hi, sInvalid]
  · simp [hr, hi, hh, sOverHi]
  · simp [hr, hi, hh, hl, sOverLo]
  · simp [hr, hi, hh, hl, hs, sStale]
  · simp [hr, hi, hh, hl, hs, ht, sSettling]
  · simp [hr, hi, hh, hl, hs, ht, hc, sRecovering]
  · simp [hr, hi, hh, hl, hs, ht, hc, sGood]

theorem slotStatus_le (c : SlotCauses) : slotStatus c ≤ 8 := by
  unfold slotStatus
  repeat' split
  all_goals decide

@[simp] theorem slotValue_retired (v last : Int) : slotValue 8 v last = 0 := rfl
@[simp] theorem slotValue_overHi (v last : Int) : slotValue 2 v last = 8388607 := rfl
@[simp] theorem slotValue_overLo (v last : Int) : slotValue 3 v last = -8388608 := rfl
@[simp] theorem slotValue_stale (v last : Int) : slotValue 5 v last = last := rfl

theorem twos_lt (w : Nat) (v : Int) : twos w v < 2 ^ w := by
  have hpos : (0 : Int) < ((2 ^ w : Nat) : Int) := Int.natCast_pos.mpr (Nat.two_pow_pos w)
  have hlt : v % ((2 ^ w : Nat) : Int) < ((2 ^ w : Nat) : Int) := Int.emod_lt_of_pos v hpos
  exact (Int.toNat_lt' (Nat.two_pow_pos w)).mpr hlt

/-- A status that fits its four bits reads back from the word (00 R5). -/
theorem wStatus_sampleWord {status : Nat} (hs : status < 16) (value : Int) (seq : Nat) :
    wStatus (sampleWord value status seq) = status := by
  have hv : twos 24 value < 2 ^ 24 := twos_lt 24 value
  simp only [wStatus, bitsOf, sampleWord, BitVec.toNat_ofNat]
  omega

/-! ## The channels and the open frame -/

theorem chanAt_updChan_same {c : Nat} {h : Hub} (hc : c < h.chans.length) (f : Chan → Chan) :
    chanAt (updChan c f h) c = f (chanAt h c) := by
  simp [chanAt, updChan, updAt, hc]

theorem chanAt_updChan_ne {c k : Nat} (hk : k ≠ c) (f : Chan → Chan) (h : Hub) : chanAt (updChan c f h) k = chanAt h k := by
  simp [chanAt, updChan, updAt, List.getD_eq_getElem?_getD, hk.symm]

@[simp] theorem chanAt_addWord (tick c : Nat) (w : Word) (h : Hub) (k : Nat) : chanAt (addWord tick c w h) k = chanAt h k := rfl

/-- A frame of another tick stays as it is. -/
theorem mem_frames_addWord_of_ne {tick : Nat} {f : Frame} {h : Hub} (hf : f ∈ h.frames) (hn : f.n ≠ tick) (c : Nat) (w : Word) :
    f ∈ (addWord tick c w h).frames :=
  List.mem_map.mpr ⟨f, hf, if_neg hn⟩

/-- The first word of a channel in the open frame opens the channel's list of words at its place. -/
theorem mem_frames_addWord_first {tick c : Nat} {f : Frame} {h : Hub} (hf : f ∈ h.frames) (hn : f.n = tick)
    (hw : ∀ w ∈ f.words, w.1 ≠ c) (w : Word) :
    { f with words := insertBy (·.1) (c, [w]) f.words } ∈ (addWord tick c w h).frames := by
  have hnone : f.words.any (·.1 == c) = false := by simpa using hw
  exact List.mem_map.mpr ⟨f, hf, by simp [hn, hnone]⟩

/-! ## Creating a slot -/

/-- The grid instant of a channel's next slot. -/
def nextSlotInst (h : Hub) (c : Nat) : Inst := slotInst h (dRate (chDesc h c)) (chanAt h c).inFrame

/-- The corrected value of a channel's next slot, before R95 replaces or clamps it. -/
def nextSlotCorrected (h : Hub) (c : Nat) (bits : List Bool) : Int :=
  let x := chanAt h c
  let d := chDesc h c
  correct (feCoef h (chainFe c x) (dMode d) x.rangeNow) x.gSys x.oSys (feedChain c d (nextSlotInst h c) bits x).chain.y

/-- The causes that hold for a channel's next slot. -/
def nextSlotCauses (h : Hub) (c : Nat) (bits : List Bool) : SlotCauses :=
  slotCauses h c (nextSlotInst h c) (nextSlotCorrected h c bits)

/-- The status of a channel's next slot. -/
def nextSlotStatus (h : Hub) (c : Nat) (bits : List Bool) : Nat := slotStatus (nextSlotCauses h c bits)

/-- The VALUE of a channel's next slot. -/
def nextSlotValue (h : Hub) (c : Nat) (bits : List Bool) : Int :=
  slotValue (nextSlotStatus h c bits) (nextSlotCorrected h c bits) (chanAt h c).lastVal

/-- The word of a channel's next slot. -/
def nextSlotWord (h : Hub) (c : Nat) (bits : List Bool) : Word :=
  sampleWord (nextSlotValue h c bits) (nextSlotStatus h c bits) (chanAt h c).seq

/-- What creating a slot does: it adds the word to the open frame and moves the channel on by one slot. -/
theorem createSlot_eq (c : Nat) (bits : List Bool) (h : Hub) :
    ∃ x : Chan, createSlot c bits h = addWord h.time.tick c (nextSlotWord h c bits) (updChan c (fun _ => x) h) ∧
      x.seq = (chanAt h c).seq + 1 ∧ x.inFrame = (chanAt h c).inFrame + 1 ∧
      x.settleLeft = (chanAt h c).settleLeft - 1 ∧ x.recLeft = (chanAt h c).recLeft - 1 ∧
      x.lastVal = if slotHeld h c (nextSlotInst h c) then (chanAt h c).lastVal else nextSlotValue h c bits :=
  ⟨_, rfl, rfl, rfl, rfl, rfl, rfl⟩

theorem exec_sampleSlotCreate_of_due {c : Nat} {s : State} (hd : slotDue s.hub c = true) (bits : List Bool) :
    exec (.sampleSlotCreate c bits) s = .next { s with hub := createSlot c bits s.hub } := by
  simp [exec, execSampleSlotCreate, hubNext, hd]

theorem exec_sampleSlotCreate_of_not_due {c : Nat} {s : State} (hd : slotDue s.hub c = false) (bits : List Bool) :
    exec (.sampleSlotCreate c bits) s = .next s := by
  simp [exec, execSampleSlotCreate, hubNext, hd]

theorem lt_of_slotDue {h : Hub} {c : Nat} (hd : slotDue h c = true) : c < 512 := by
  simp only [slotDue, Bool.and_eq_true, decide_eq_true_eq] at hd
  exact hd.1.2

theorem nextSlotStatus_le (h : Hub) (c : Nat) (bits : List Bool) : nextSlotStatus h c bits ≤ 8 := slotStatus_le _

/-- A retired channel's slot is RETIRED whatever else holds. -/
theorem nextSlotStatus_of_retired {h : Hub} {c : Nat} (hr : (chanAt h c).retired = true) (bits : List Bool) :
    nextSlotStatus h c bits = 8 :=
  (firstApplicable_slotStatus (nextSlotCauses h c bits)).1 hr

/-- The VALUE that goes with a status that fixes it (00 R6, 04 R95). -/
theorem nextSlotValue_of_status {h : Hub} {c : Nat} {bits : List Bool} :
    (nextSlotStatus h c bits = 8 → nextSlotValue h c bits = 0) ∧
    (nextSlotStatus h c bits = 2 → nextSlotValue h c bits = 8388607) ∧
    (nextSlotStatus h c bits = 3 → nextSlotValue h c bits = -8388608) ∧
    (nextSlotStatus h c bits = 5 → nextSlotValue h c bits = (chanAt h c).lastVal) := by
  refine ⟨?_, ?_, ?_, ?_⟩ <;> intro hs <;> simp [nextSlotValue, hs]

theorem firstApplicable_nextSlotWord (h : Hub) (c : Nat) (bits : List Bool) :
    FirstApplicable (nextSlotCauses h c bits) (wStatus (nextSlotWord h c bits)) := by
  have hs : nextSlotStatus h c bits < 16 := Nat.lt_of_le_of_lt (nextSlotStatus_le h c bits) (by decide)
  rw [nextSlotWord, wStatus_sampleWord hs]
  exact firstApplicable_slotStatus _

/-- Settles O41: a due slot is `createSlot`, which adds `nextSlotWord` to the open frame and moves its own channel on; the word's status is
the first applicable one. That OVER_HI goes before OVER_LO where both hold is the model's choice (log 28), as is the least range of CHARGE
that the causes rest on (log 16). -/
theorem sampleSlotsAreCreated : Obligations.SampleSlotsAreCreated := by
  intro s ch bits hlen
  obtain ⟨x, hcreate, hseq, hframe, hsettle, hrec, hlast⟩ := createSlot_eq ch bits s.hub
  refine ⟨fun hdue => ?_, fun hdue => ?_, fun hdue => exec_sampleSlotCreate_of_not_due hdue bits⟩
  · have hch : ch < s.hub.chans.length := hlen ▸ lt_of_slotDue hdue
    obtain ⟨hretired, hhi, hlo, hstale⟩ := nextSlotValue_of_status (h := s.hub) (c := ch) (bits := bits)
    refine ⟨_, x, exec_sampleSlotCreate_of_due hdue bits, ?_, hseq, hframe, hsettle, hrec, ?_⟩ <;> rw [hcreate]
    · rfl
    refine ⟨by simp [chanAt_updChan_same hch], fun c hc => by simp [chanAt_updChan_ne hc],
      fun f hf hn => mem_frames_addWord_of_ne hf hn _ _, fun f hf hn hw => ?_⟩
    exact ⟨_, nextSlotStatus s.hub ch bits, nextSlotValue s.hub ch bits, mem_frames_addWord_first hf hn hw _, rfl,
      nextSlotStatus_le .., hretired, hhi, hlo, hstale, hlast, fun hr => nextSlotStatus_of_retired hr bits⟩
  · refine ⟨_, exec_sampleSlotCreate_of_due hdue bits, fun f hf hn hw => ?_⟩
    rw [hcreate]
    exact ⟨_, mem_frames_addWord_first hf hn hw _, firstApplicable_nextSlotWord s.hub ch bits⟩

end Sys2Proof.Machine
end

