-- ==== Sys2Proof/Proofs/Raises.lean ====
section
/-! PROOFS. What a raise does to the collector: a fresh source begins to hold, and what is asserted stays asserted (15 R372, R385,
R390). -/

namespace Sys2Proof.Machine

/-! ## A raise of a fresh source -/

/-- A SWITCH_FAULT, whose raise also marks its switch (15 R371). -/
abbrev IsSwitchFault (n : Nat) : Prop := 0x10 ≤ n ∧ n < 0x50 ∧ n % 16 = 10

theorem noteSwitch_of_not_switchFault {r : Raise} (hr : ¬IsSwitchFault r.source) (h : Hub) : noteSwitch r h = h := if_neg hr

/-- A raise that nothing waiting stands for, with room in the queue, takes its place there. -/
theorem enqueueRaise_of_fresh {r : Raise} {h : Hub} (hq : ∀ x ∈ h.faults.queue, ¬(x.source = r.source ∧ x.inst = r.inst))
    (hroom : h.faults.queue.length < 64) (hown : ofCollector r.source r.inst = true → h.faults.queue = []) :
    enqueueRaise r h = { h with faults.queue := insertRaise r h.faults.queue } := by
  have hnew : h.faults.queue.any (fun x => x.source == r.source && x.inst == r.inst) = false := by simpa using hq
  have hmerge : (ofCollector r.source r.inst && !h.faults.queue.isEmpty) = false := by
    cases hc : ofCollector r.source r.inst with
    | false => rfl
    | true => simp [hown hc]
  simp [enqueueRaise, hnew, hmerge, hroom]

theorem raiseFault_of_fresh {source inst : Nat} {h : Hub} (hf : Fresh source inst h) (hs : ¬IsSwitchFault source)
    (start capture : Inst) (detail : BitVec 64) (once : Bool) :
    raiseFault { source := source, inst := inst, start := start, capture := capture, detail := detail } once h =
      raised source inst start capture detail once h := by
  obtain ⟨hocc, hqueue, hroom, hown⟩ := hf
  have hnone : h.faults.occ.find? (fun o => o.source == source && o.inst == inst) = none := by
    simpa [List.find?_eq_none] using hocc
  simp only [raiseFault, hnone]
  rw [noteSwitch_of_not_switchFault hs]
  exact enqueueRaise_of_fresh hqueue hroom hown

theorem raiseHeld_of_fresh {source inst : Nat} {h : Hub} (hf : Fresh source inst h) (hs : ¬IsSwitchFault source)
    (start capture : Inst) (detail : BitVec 64) :
    raiseHeld source inst start capture detail h = raised source inst start capture detail false h :=
  raiseFault_of_fresh hf hs start capture detail false

/-! ## What is asserted after a raise -/

theorem enqueueRaise_occ (r : Raise) (h : Hub) : (enqueueRaise r h).faults.occ = h.faults.occ := by
  unfold enqueueRaise
  repeat' split
  all_goals rfl

/-- An occurrence that a further raise continues (15 R372, R390). -/
def continuedBy (r : Raise) (once : Bool) (o : Occ) : Occ :=
  { o with forced := o.forced || r.forced, real := o.real || r.real, once := o.once && once, cleared := false, endAt := none
           again := if o.cleared then some r.start else o.again }

/-- A raise leaves its source with an occurrence that stands: a new one behind the others, or the one that it continues in place of
those before. -/
theorem raiseFault_occ (r : Raise) (once : Bool) (h : Hub) :
    ∃ o : Occ, o.source = r.source ∧ o.inst = r.inst ∧ o.cleared = false ∧
      ((raiseFault r once h).faults.occ = h.faults.occ ++ [o] ∨
        (∃ x ∈ h.faults.occ, x.source = r.source ∧ x.inst = r.inst) ∧
          (raiseFault r once h).faults.occ =
            h.faults.occ.map fun x => if x.source == r.source && x.inst == r.inst then o else x) := by
  unfold raiseFault
  split
  case h_1 o hfind =>
    have hkey : o.source = r.source ∧ o.inst = r.inst := by simpa using List.find?_some hfind
    refine ⟨continuedBy r once o, hkey.1, hkey.2, rfl, .inr ⟨⟨o, List.mem_of_find?_eq_some hfind, hkey⟩, ?_⟩⟩
    simp only [continuedBy]
    cases o.cleared <;> cases o.handled <;> simp [enqueueRaise_occ, holdsAgain]
  case h_2 =>
    exact ⟨_, rfl, rfl, rfl, .inl (enqueueRaise_occ ..)⟩

theorem asserted_iff {h : Hub} {source inst : Nat} :
    asserted h source inst = true ↔ ∃ o ∈ h.faults.occ, o.source = source ∧ o.inst = inst ∧ o.cleared = false := by
  simp [asserted, and_assoc]

theorem asserted_raiseFault_same (r : Raise) (once : Bool) (h : Hub) :
    asserted (raiseFault r once h) r.source r.inst = true := by
  obtain ⟨o, hsource, hinst, hstands, hocc | ⟨⟨x, hx, hkey⟩, hocc⟩⟩ := raiseFault_occ r once h <;> rw [asserted_iff, hocc]
  · exact ⟨o, by simp, hsource, hinst, hstands⟩
  · exact ⟨o, List.mem_map.mpr ⟨x, hx, by simp [hkey]⟩, hsource, hinst, hstands⟩

theorem asserted_raiseFault_of_asserted {source inst : Nat} {h : Hub} (ha : asserted h source inst = true) (r : Raise) (once : Bool) :
    asserted (raiseFault r once h) source inst = true := by
  obtain ⟨x, hx, hsource, hinst, hstands⟩ := asserted_iff.mp ha
  obtain ⟨o, hosource, hoinst, hostands, hocc | ⟨-, hocc⟩⟩ := raiseFault_occ r once h <;> rw [asserted_iff, hocc]
  · exact ⟨x, List.mem_append_left _ hx, hsource, hinst, hstands⟩
  · refine ⟨_, List.mem_map.mpr ⟨x, hx, rfl⟩, ?_⟩
    split
    next hkey =>
      obtain ⟨hks, hki⟩ : x.source = r.source ∧ x.inst = r.inst := by simpa using hkey
      exact ⟨by rw [hosource, ← hks, hsource], by rw [hoinst, ← hki, hinst], hostands⟩
    next => exact ⟨hsource, hinst, hstands⟩

end Sys2Proof.Machine
end

