-- ==== Sys2Proof/Proofs/Detectors.lean ====
section
/-! PROOFS. The detectors: each raises its source from the start of its qualification time (03 R55, R59, R73, 15 R371, R383, R387,
16 R405, 17 R419). -/

namespace Sys2Proof.Machine

/-! ## Sources and times -/

theorem tileBase_add (t k : Nat) : tileBase t + k = 16 + k + 16 * t := by unfold tileBase; omega

theorem laneBase_add (l k : Nat) : laneBase l + k = 144 + k + 8 * l := by unfold laneBase; omega

/-- `n` milliseconds in units of an instant. -/
def millis (n : Nat) : Int := 65536000000 * (n : Int)

theorem us_thousand (n : Nat) : us (1000 * n) = millis n := by simp only [us, millis]; omega

theorem us_oneMilli : us 1000 = millis 1 := us_thousand 1
theorem us_tenMillis : us 10000 = millis 10 := us_thousand 10
theorem us_oneSecond : us 1000000 = millis 1000 := us_thousand 1000
theorem us_tenSeconds : us 10000000 = millis 10000 := us_thousand 10000

theorem not_isSwitchFault_detectorSource (k : Detector) (i : Nat) : ¬IsSwitchFault (detectorSource k i) := by
  cases k <;> simp only [detectorSource, tileBase] <;> omega

/-! ## What a detector's command answers -/

/-- The answer of a detector's command `dt` after the tick, in a hub otherwise as `g`: a source is asserted that has held for a time, and
its raise waits. -/
def raisedAt (s : State) (dt source inst : Nat) (held : Int) (detail : BitVec 64) (once : Bool) (g : Hub) : Out :=
  .next { s with hub := raised source inst (instAt s.hub dt - held) (instAt s.hub dt) detail once g }

section
variable {s : State} {g : Hub} {source inst : Nat} (hf : Fresh source inst g) (hs : ¬IsSwitchFault source)
include hf hs

/-- A condition that lasts until it clears, held for a time. -/
theorem hubNext_raiseHeld (dt : Nat) (held : Int) (detail : BitVec 64) :
    hubNext s (raiseHeld source inst (instAt s.hub dt - held) (instAt s.hub dt) detail g) =
      raisedAt s dt source inst held detail false g :=
  congrArg (hubNext s) (raiseHeld_of_fresh hf hs _ _ detail)

/-- An event of a moment. -/
theorem hubNext_raiseFault (dt : Nat) (detail : BitVec 64) (once : Bool) :
    hubNext s (raiseFault { source := source, inst := inst, start := instAt s.hub dt, capture := instAt s.hub dt, detail := detail }
      once g) = raisedAt s dt source inst 0 detail once g := by
  rw [raiseFault_of_fresh hf hs, raisedAt, Int.sub_zero]
  rfl

/-- A condition that stands. -/
theorem hubNext_condition (ht : g.time = s.hub.time) {holds : Bool} (hh : holds = true) (qual : Int) (detail : BitVec 64) (dt : Nat) :
    hubNext s (condition holds source inst qual detail dt g) = raisedAt s dt source inst qual detail false g := by
  have hat : instAt g dt = instAt s.hub dt := by simp [instAt, ht]
  rw [condition, if_pos hh, hat, hubNext_raiseHeld hf hs]

end

/-! ## Channels, groups, front ends and tiles -/

theorem exec_detectorAssert_of_asserts {k : Detector} {i qual : Nat} {s : State} (he : evaluated s.hub k i = true)
    (hf : Fresh (detectorSource k i) i s.hub) (ha : assertsNow s.hub k i qual = true) (dt : Nat) :
    exec (.detectorAssert k i qual dt) s = raisedAt s dt (detectorSource k i) i qual 0 false s.hub := by
  have hx : exec (.detectorAssert k i qual dt) s =
      hubNext s (raiseHeld (detectorSource k i) i (instAt s.hub dt - qual) (instAt s.hub dt) 0 s.hub) := by
    simp [exec, execDetectorAssert, ha, assertDetector, he]
  rw [hx, hubNext_raiseHeld hf (not_isSwitchFault_detectorSource k i)]

theorem exec_detectorAssert_of_not_asserts {k : Detector} {i qual : Nat} {s : State} (ha : assertsNow s.hub k i qual = false) (dt : Nat) :
    exec (.detectorAssert k i qual dt) s = .next s := by
  simp [exec, execDetectorAssert, ha, hubNext]

/-- A source of a channel that measures. -/
theorem hubNext_raiseChannel {k ch : Nat} {s : State} (hch : ch < 512) (hm : measuring s.hub ch = true)
    (hf : Fresh (16 + k + 16 * (ch / 128)) ch s.hub) (hk : k % 16 ≠ 10) (qual : Int) (dt : Nat) :
    hubNext s (raiseChannel k ch qual dt s.hub) = raisedAt s dt (16 + k + 16 * (ch / 128)) ch qual 0 false s.hub := by
  have hs : ¬IsSwitchFault (16 + k + 16 * (ch / 128)) := by omega
  simp only [raiseChannel, hch, hm, tileBase_add, tileOfCh, decide_true, Bool.and_self, if_true]
  exact hubNext_raiseHeld hf hs dt qual 0

theorem exec_stuckOver_of_over {ch dt : Nat} {s : State} (hch : ch < 512) (hm : measuring s.hub ch = true)
    (hf : Fresh (0x14 + 16 * (ch / 128)) ch s.hub) {t : Inst} (ho : (chanAt s.hub ch).overFrom = some t)
    (ht : t + millis 10000 ≤ instAt s.hub dt) :
    exec (.stuckOver ch dt) s = raisedAt s dt (0x14 + 16 * (ch / 128)) ch (millis 10000) 0 false s.hub := by
  have hover : overTenSeconds s.hub ch (instAt s.hub dt) = true := by
    simpa [overTenSeconds, ho, us_tenSeconds] using ht
  have hx : exec (.stuckOver ch dt) s = hubNext s (raiseChannel 4 ch (us 10000000) dt s.hub) := by
    simp [exec, execStuckOver, hover]
  rw [hx, hubNext_raiseChannel hch hm hf (by decide), us_tenSeconds]

theorem exec_stuckOver_of_not_over {ch dt : Nat} {s : State}
    (ho : ∀ t, (chanAt s.hub ch).overFrom = some t → instAt s.hub dt < t + millis 10000) : exec (.stuckOver ch dt) s = .next s := by
  have hover : overTenSeconds s.hub ch (instAt s.hub dt) = false := by
    unfold overTenSeconds
    split
    next t h => simpa [us_tenSeconds] using ho t h
    next => rfl
  simp [exec, execStuckOver, hover, hubNext]

theorem exec_sourceFault_raises {ch : Nat} {s : State} (hch : ch < 512) (hm : measuring s.hub ch = true)
    (hl : (chanAt s.hub ch).folded = false) (hf : Fresh (0x1B + 16 * (ch / 128)) ch s.hub) (dt : Nat) :
    exec (.sourceFault ch dt) s = raisedAt s dt (0x1B + 16 * (ch / 128)) ch (millis 10) 0 false s.hub := by
  have hx : exec (.sourceFault ch dt) s = hubNext s (raiseChannel 0xB ch (us 10000) dt s.hub) := by
    simp [exec, execSourceFault, hl]
  rw [hx, hubNext_raiseChannel hch hm hf (by decide), us_tenMillis]

theorem exec_feFault_raises {fe : Nat} {s : State} (hfe : fe < 576) (hf : Fresh (0x15 + 16 * (fe / 144)) fe s.hub) (dt : Nat) :
    exec (.feFault fe dt) s = raisedAt s dt (0x15 + 16 * (fe / 144)) fe 0 0 false s.hub := by
  have hx : exec (.feFault fe dt) s =
      hubNext s (raiseHeld (0x15 + 16 * (fe / 144)) fe (instAt s.hub dt) (instAt s.hub dt) 0 s.hub) := by
    simp [exec, execFeFault, hfe, tileOfFe, tileBase_add]
  rw [hx]
  exact hubNext_raiseFault hf (by omega) dt 0 false

theorem exec_tileLinkError_raises {tile : Nat} {s : State} (ht : tile < 4) (parity : Bool)
    (hf : Fresh ((if parity then 0x1D else 0x1C) + 16 * tile) 0 s.hub) (dt : Nat) :
    exec (.tileLinkError tile parity dt) s = raisedAt s dt ((if parity then 0x1D else 0x1C) + 16 * tile) 0 0 0 false s.hub := by
  have hx : exec (.tileLinkError tile parity dt) s =
      hubNext s (raiseHeld ((if parity then 0x1D else 0x1C) + 16 * tile) 0 (instAt s.hub dt) (instAt s.hub dt) 0 s.hub) := by
    cases parity <;> simp [exec, execTileLinkError, ht, tileBase_add]
  rw [hx]
  exact hubNext_raiseFault hf (by cases parity <;> simp) dt 0 false

/-- A temperature above its source's limit. -/
theorem exec_temperatureLimit_of_above {place n dt : Nat} {limit t : Int} {s : State}
    (hp : tempSource place = some (n, limit)) (ht : limit < t) (hf : Fresh n 0 s.hub) (hs : ¬IsSwitchFault n) :
    exec (.temperatureLimit place t dt) s = raisedAt s dt n 0 (millis 1000) (BitVec.ofInt 64 t) false s.hub := by
  have hx : exec (.temperatureLimit place t dt) s =
      hubNext s (condition (decide (limit < t)) n 0 (us 1000000) (BitVec.ofInt 64 t) dt s.hub) := by
    simp [exec, execTemperatureLimit, hp, asDetail]
  rw [hx, hubNext_condition hf hs rfl (by simpa using ht), us_oneSecond]

theorem tempSource_tile {tile : Nat} (ht : tile < 4) : tempSource tile = some (0x1E + 16 * tile, 11500) := by
  simp [tempSource, ht, tileBase_add]

theorem exec_loopCompliance_of_off {k r : Nat} {s : State} (hk : k < 8) (hon : loopOn s.hub k = true)
    (hoff : loopOff (s.hub.loops.getD k {}).setpoint r = true) (hf : Fresh (0x58 + k) 0 s.hub) (dt : Nat) :
    exec (.loopCompliance k r dt) s =
      raisedAt s dt (0x58 + k) 0 (millis 10) (BitVec.ofNat 64 r) false
        { s.hub with loops := updAt s.hub.loops k fun x => { x with readback := r } } := by
  let g : Hub := { s.hub with loops := updAt s.hub.loops k fun x => { x with readback := r } }
  have hset : (g.loops.getD k {}).setpoint = (s.hub.loops.getD k {}).setpoint := by
    simp only [g, updAt, List.getD_eq_getElem?_getD, List.getElem?_modify_eq]
    cases s.hub.loops[k]? <;> rfl
  have hx : exec (.loopCompliance k r dt) s =
      hubNext s (condition (loopOn g k && loopOff (g.loops.getD k {}).setpoint r) (0x58 + k) 0 (us 10000) (BitVec.ofNat 64 r) dt g) := by
    simp [exec, execLoopCompliance, hk, g]
  have hholds : (loopOn g k && loopOff (g.loops.getD k {}).setpoint r) = true := by
    rw [hset, hoff, Bool.and_true]; exact hon
  rw [hx, hubNext_condition (g := g) hf (by omega) rfl hholds, us_tenMillis]

/-! ## Supplies, clocks, memories, lanes and cores -/

theorem exec_excVinRange_of_out {mv : Nat} {s : State} (ho : excVinOut s.hub mv = true) (hf : Fresh 0x50 0 s.hub) (dt : Nat) :
    exec (.excVinRange mv dt) s =
      raisedAt s dt 0x50 0 (millis 10) (BitVec.ofNat 64 mv) false { s.hub with power.excVinMv := mv } := by
  have hx : exec (.excVinRange mv dt) s =
      hubNext s (condition (excVinOut s.hub mv) 0x50 0 (us 10000) (BitVec.ofNat 64 mv) dt { s.hub with power.excVinMv := mv }) := rfl
  rw [hx, hubNext_condition (g := { s.hub with power.excVinMv := mv }) hf (by omega) rfl ho,
    us_tenMillis]

theorem exec_supplyRange_tile {tile : Nat} {v : Int} {s : State} (ht : tile < 4) (hv : 50 < v.natAbs)
    (hf : Fresh (0x1F + 16 * tile) 0 s.hub) (dt : Nat) :
    exec (.supplyRange (100 + tile) v dt) s = raisedAt s dt (0x1F + 16 * tile) 0 (millis 1) (BitVec.ofInt 64 v) false s.hub := by
  have hx : exec (.supplyRange (100 + tile) v dt) s =
      hubNext s (condition (decide (50 < v.natAbs)) (0x1F + 16 * tile) 0 (us 1000) (BitVec.ofInt 64 v) dt s.hub) := by
    simp [exec, execSupplyRange, show 100 + tile < 104 by omega, tileBase_add, asDetail]
  rw [hx, hubNext_condition hf (by omega) rfl (by simpa using hv), us_oneMilli]

theorem exec_supplyRange_rail {rail : Nat} {v : Int} {s : State} (hlo : 9 ≤ rail) (hhi : rail ≤ 15) (hv : 50 < v.natAbs)
    (hf : Fresh 0x52 rail s.hub) (dt : Nat) :
    exec (.supplyRange rail v dt) s = raisedAt s dt 0x52 rail (millis 1) (BitVec.ofInt 64 v) false s.hub := by
  have hx : exec (.supplyRange rail v dt) s =
      hubNext s (condition (decide (50 < v.natAbs)) 0x52 rail (us 1000) (BitVec.ofInt 64 v) dt s.hub) := by
    simp [exec, execSupplyRange, show ¬100 ≤ rail by omega, hlo, hhi, asDetail]
  rw [hx, hubNext_condition hf (by omega) rfl (by simpa using hv), us_oneMilli]

theorem exec_supplyRange_loop {v : Int} {s : State} (hv : 10 * (s.hub.cfg.loopV : Int) + 500 < v) (hf : Fresh 0x55 0 s.hub) (dt : Nat) :
    exec (.supplyRange 8 v dt) s = raisedAt s dt 0x55 0 (millis 1000) (BitVec.ofInt 64 v) false s.hub := by
  have hx : exec (.supplyRange 8 v dt) s =
      hubNext s (condition (decide ((10 * s.hub.cfg.loopV + 500 : Nat) < v)) 0x55 0 (us 1000000) (BitVec.ofInt 64 v) dt s.hub) := rfl
  rw [hx, hubNext_condition hf (by omega) rfl (by simpa using hv), us_oneSecond]

theorem exec_dmaError_raises {ch : Nat} {s : State} (hch : ch < 32) (hf : Fresh (0x100 + ch) 0 s.hub) (dt : Nat) :
    exec (.dmaError ch dt) s = raisedAt s dt (0x100 + ch) 0 0 0 true s.hub := by
  have hx : exec (.dmaError ch dt) s =
      hubNext s (raiseFault { source := 0x100 + ch, inst := 0, start := instAt s.hub dt, capture := instAt s.hub dt } true s.hub) := by
    simp [exec, execDmaError, hch]
  rw [hx, hubNext_raiseFault hf (by omega)]

theorem exec_laneTxFault_raises {lane : Nat} {s : State} (hl : lane < 6) (hf : Fresh (0x94 + 8 * lane) 0 s.hub) (dt : Nat) :
    exec (.laneTxFault lane dt) s = raisedAt s dt (0x94 + 8 * lane) 0 0 0 false s.hub := by
  have hx : exec (.laneTxFault lane dt) s =
      hubNext s (raiseHeld (0x94 + 8 * lane) 0 (instAt s.hub dt) (instAt s.hub dt) 0 s.hub) := by
    simp [exec, execLaneTxFault, hl, laneBase_add]
  rw [hx]
  exact hubNext_raiseFault hf (by omega) dt 0 false

theorem exec_coreWatchdog_raises {core : Nat} {s : State} (hc : core < 4) (hf : Fresh (0x120 + core) 0 s.hub) (dt : Nat) :
    exec (.coreWatchdog core dt) s = raisedAt s dt (0x120 + core) 0 0 0 false { s.hub with pair.hbStopped := true } := by
  have hx : exec (.coreWatchdog core dt) s =
      hubNext s (raiseHeld (0x120 + core) 0 (instAt s.hub dt) (instAt s.hub dt) 0 { s.hub with pair.hbStopped := true }) := by
    simp [exec, execCoreWatchdog, hc]
  rw [hx]
  exact hubNext_raiseFault (g := { s.hub with pair.hbStopped := true }) hf (by omega) dt 0 false

theorem exec_collectorSelf_raises {register : Nat} {s : State} (hm : s.hub.cfg.selfMerge = false) (hf : Fresh 0x124 register s.hub)
    (dt : Nat) : exec (.collectorSelf register dt) s = raisedAt s dt 0x124 register 0 (BitVec.ofNat 64 register) false s.hub := by
  have hx : exec (.collectorSelf register dt) s =
      hubNext s (raiseHeld 0x124 register (instAt s.hub dt) (instAt s.hub dt) (BitVec.ofNat 64 register) s.hub) := by
    simp [exec, execCollectorSelf, hm]
  rw [hx]
  exact hubNext_raiseFault hf (by omega) dt _ false

/-- A corrected error of a DRAM page. -/
theorem exec_eccError_dramCorrected {e : EccError} {s : State} (hmem : e.mem = .dram) (hc : e.uncorrectable = false) (hu : e.unit < 131072)
    (hf : Fresh 0xD2 e.unit s.hub) (dt : Nat) :
    exec (.eccError e dt) s = raisedAt s dt 0xD2 e.unit 0 (BitVec.ofNat 64 (hitData e s.hub)) true s.hub := by
  have hx : exec (.eccError e dt) s =
      hubNext s (raiseFault { source := 0xD2, inst := e.unit, start := instAt s.hub dt, capture := instAt s.hub dt,
                              detail := BitVec.ofNat 64 (hitData e s.hub) } true s.hub) := by
    simp [exec, execEccError, eccUnitOk, eccError, hmem, hc, hu]
  rw [hx, hubNext_raiseFault hf (by omega)]

theorem exec_cryptoSelftest_of_mismatch {result : Bytes} {s : State} (hr : result ≠ knownAnswer) (hf : Fresh 0x125 0 s.hub) :
    exec (.cryptoSelftest result) s =
      .next { s with hub := raised 0x125 0 s.hub.time.tickInst s.hub.time.tickInst 0 false s.hub } := by
  have hx : exec (.cryptoSelftest result) s = hubNext s (condition (result != knownAnswer) 0x125 0 0 0 0 s.hub) := rfl
  rw [hx, hubNext_condition hf (by omega) rfl (by simpa using hr)]
  simp [raisedAt, instAt]

theorem exec_patrolScrub_page {page : Nat} {s : State} (hp : page < 131072) (hf : Fresh 0xD2 page s.hub) :
    exec (.patrolScrub [page]) s =
      .next { s with hub := raised 0xD2 page s.hub.time.tickInst s.hub.time.tickInst 0 true s.hub } := by
  have hx : exec (.patrolScrub [page]) s = hubNext s (raiseNow 0xD2 page 0 0 s.hub) := by
    simp [exec, execPatrolScrub, hp]
  rw [hx, raiseNow, raiseFault_of_fresh hf (by omega), hubNext]

theorem exec_vinLow_raises {s : State} (hp : s.hub.power.phase ≠ .off) (hf : Fresh 0x51 0 s.hub) :
    exec .vinLow s =
      .next { s with hub := raised 0x51 0 s.hub.time.tickInst s.hub.time.tickInst 0 false { s.hub with power.vinLow := true } } := by
  have hx : exec .vinLow s =
      hubNext s (raiseHeld 0x51 0 s.hub.time.tickInst s.hub.time.tickInst 0 { s.hub with power.vinLow := true }) := by
    simp [exec, execVinLow, hp]
  rw [hx, raiseHeld_of_fresh (h := { s.hub with power.vinLow := true }) hf (by omega), hubNext]

/-- Settles O30: each detector's command is a raise of a fresh source (`raiseFault_of_fresh`). That the DETAIL is 0 for a source
without a value and a signed measured value otherwise is the model's choice (log 13), as is that of EXC_VIN_RANGE in mV (log 15). -/
theorem detectorsAssertTheirSources : Obligations.DetectorsAssertTheirSources := by
  refine ⟨fun s dt i qual => ⟨fun k he hf => ⟨?_, ?_⟩, fun hi hm => ⟨fun hf => ⟨?_, ?_⟩, ?_⟩, ?_, ?_, ?_, ?_⟩,
    fun s dt i => ⟨?_, fun v hv => ⟨?_, ?_⟩, ?_, fun t => ⟨?_, ?_⟩, ?_, ?_, ?_, ?_, ?_, ?_, ?_, ?_⟩⟩
  · exact fun ha => exec_detectorAssert_of_asserts he hf ha dt
  · exact fun ha => exec_detectorAssert_of_not_asserts ha dt
  · exact fun t ho ht => exec_stuckOver_of_over hi hm hf ho ht
  · exact fun ho => exec_stuckOver_of_not_over ho
  · exact fun hl hf => exec_sourceFault_raises hi hm hl hf dt
  · exact fun hi hf => exec_feFault_raises hi hf dt
  · exact fun hi parity hf => exec_tileLinkError_raises hi parity hf dt
  · exact fun hi t ht hf => exec_temperatureLimit_of_above (tempSource_tile hi) ht hf (by omega)
  · exact fun hi r hon hoff hf => exec_loopCompliance_of_off hi hon (decide_eq_true hoff) hf dt
  · exact fun ho hf => exec_excVinRange_of_out (by simpa [excVinOut] using ho) hf dt
  · exact fun hi hf => exec_supplyRange_tile hi hv hf dt
  · exact fun hlo hhi hf => exec_supplyRange_rail hlo hhi hv hf dt
  · exact fun v hv hf => exec_supplyRange_loop hv hf dt
  · exact fun ht hf => exec_temperatureLimit_of_above rfl ht hf (by omega)
  · exact fun ht hf => exec_temperatureLimit_of_above rfl ht hf (by omega)
  · exact fun hi hf => exec_dmaError_raises hi hf dt
  · exact fun hi hf => exec_laneTxFault_raises hi hf dt
  · exact fun hi hf => exec_coreWatchdog_raises hi hf dt
  · exact fun hm hf => exec_collectorSelf_raises hm hf dt
  · exact fun e hmem hc hu hf => exec_eccError_dramCorrected hmem hc hu hf dt
  · exact fun result hr hf => exec_cryptoSelftest_of_mismatch hr hf
  · exact fun hi hf => exec_patrolScrub_page hi hf
  · exact fun hp hf => exec_vinLow_raises hp hf

end Sys2Proof.Machine
end

