-- ==== Sys2Proof/Proofs/Ranges.lean ====
section
/-! PROOFS. Over-range and autorange: what a comparator past its limit marks, what its end and a verdict deadline do to the channel and its
neighbours, and where an autorange step leads (03 R62 to R67). -/

namespace Sys2Proof.Machine

/-! ## One entry of a table -/

theorem updAt_congr {α : Type} {l : List α} {i : Nat} {d : α} {f g : α → α} (hfg : f (l.getD i d) = g (l.getD i d)) :
    updAt l i f = updAt l i g := by
  refine List.ext_getElem? fun j => ?_
  rw [updAt, updAt, List.getElem?_modify, List.getElem?_modify]
  split
  next hij =>
    subst hij
    rw [List.getD_eq_getElem?_getD] at hfg
    cases hx : l[i]? with
    | none => rfl
    | some x => simpa [hx] using hfg
  next => rfl

theorem updFe_congr {i : Nat} {h : Hub} {f g : Fe → Fe} (hfg : f (feAt h i) = g (feAt h i)) : updFe i f h = updFe i g h := by
  rw [updFe, updAt_congr hfg, updFe]

theorem updFe_self {i : Nat} {h : Hub} {f : Fe → Fe} (hf : f (feAt h i) = feAt h i) : updFe i f h = h := by
  rw [updFe_congr (g := id) hf, updFe, updAt, List.modify_id]

theorem feAt_updFe_same {i : Nat} {h : Hub} (hi : i < h.fes.length) (f : Fe → Fe) : feAt (updFe i f h) i = f (feAt h i) := by
  simp [feAt, updFe, updAt, hi]

/-- A front end with an over-range is one of the hub's. -/
theorem lt_of_overRange {h : Hub} {i : Nat} {x : Bool × Inst} (ho : (feAt h i).overRange = some x) : i < h.fes.length := by
  refine Nat.lt_of_not_le fun hle => ?_
  rw [feAt, List.getD_eq_getElem?_getD, List.getElem?_eq_none hle] at ho
  cases ho

/-! ## One change over several channels -/

theorem foldl_updChan (f : Chan → Chan) (ns : List Nat) (h : Hub) :
    ns.foldl (fun h k => updChan k f h) h = { h with chans := ns.foldl (fun cs k => updAt cs k f) h.chans } := by
  induction ns generalizing h with
  | nil => rfl
  | cons n ns ih => simp only [List.foldl_cons, ih]; rfl

theorem chanAt_foldl_updChan (f : Chan → Chan) {ns : List Nat} (hn : ns.Nodup) {h : Hub}
    (hb : ∀ k ∈ ns, k < h.chans.length) (k : Nat) :
    chanAt (ns.foldl (fun h k => updChan k f h) h) k = if k ∈ ns then f (chanAt h k) else chanAt h k := by
  induction ns generalizing h with
  | nil => rfl
  | cons n ns ih =>
    obtain ⟨hnew, hns⟩ := List.nodup_cons.mp hn
    have hlen : (updChan n f h).chans.length = h.chans.length := List.length_modify ..
    have ih := ih hns (h := updChan n f h) fun j hj => hlen ▸ hb j (List.mem_cons_of_mem _ hj)
    rw [List.foldl_cons, ih]
    by_cases hk : k = n
    · subst hk
      simp [hnew, chanAt_updChan_same (hb k List.mem_cons_self)]
    · simp [hk, chanAt_updChan_ne hk]

/-! ## Neighbours and their verdicts (R64, R65) -/

theorem mem_neighbours {h : Hub} {c k : Nat} : k ∈ neighbours h c ↔ k / 8 = c / 8 ∧ k ≠ c ∧ measuring h k = true := by
  have hrange : k ∈ rangeFrom (c / 8 * 8) 8 ↔ k / 8 = c / 8 := by
    simp only [rangeFrom, List.mem_map, List.mem_range]
    constructor
    · rintro ⟨j, hj, rfl⟩; omega
    · intro hk; exact ⟨k - c / 8 * 8, by omega, by omega⟩
  simp [neighbours, hrange]

theorem nodup_rangeFrom (a n : Nat) : (rangeFrom a n).Nodup :=
  List.Pairwise.map _ (fun _ _ hne heq => hne (Nat.add_left_cancel heq)) List.nodup_range

theorem nodup_neighbours (h : Hub) (c : Nat) : (neighbours h c).Nodup :=
  List.Pairwise.filter _ (nodup_rangeFrom _ _)

theorem neighbours_congr {g h : Hub} {c : Nat} (hcfg : g.cfg = h.cfg) (hch : ∀ k, k ≠ c → chanAt g k = chanAt h k) :
    neighbours g c = neighbours h c := by
  refine List.filter_congr fun k _ => ?_
  by_cases hk : k = c
  · simp [hk]
  · simp [measuring, chDesc, hcfg, hch k hk]

/-- Verdicts depend on the raw window and the timebase alone. -/
theorem verdictsFor_congr {g h : Hub} (hf : g.frames = h.frames) (ht : g.time = h.time) (c status cause : Nat) (a b : Inst) :
    verdictsFor g c status cause a b = verdictsFor h c status cause a b := by
  unfold verdictsFor reachable
  rw [hf, ht]

theorem eq_of_mem_verdictsFor {h : Hub} {c status cause : Nat} {a b : Inst} {v : Verdict} (hv : v ∈ verdictsFor h c status cause a b) :
    v.ch = c ∧ v.status = status ∧ v.cause = cause := by
  obtain ⟨f, -, hf⟩ := List.mem_filterMap.mp hv
  dsimp only at hf
  split at hf
  · split at hf
    · cases hf
    · split at hf
      · cases hf
      · cases hf; exact ⟨rfl, rfl, rfl⟩
  · cases hf

/-! ## Start of an over-range (R62) -/

theorem exec_overRangeStart_of_none {fe : Nat} {s : State} (ho : (feAt s.hub fe).overRange = none) (high : Bool) (dt : Nat) :
    exec (.overRangeStart fe high dt) s = .next { s with hub := updFe fe (fun f => { f with
      overRange := some (high, instAt s.hub dt), overCh := heldBy s.hub fe, overDone := s.hub.time.tick }) s.hub } :=
  congrArg (hubNext s) (updFe_congr (by simp [ho]))

theorem exec_overRangeStart_of_some {fe : Nat} {s : State} (ho : (feAt s.hub fe).overRange.isSome = true) (high : Bool) (dt : Nat) :
    exec (.overRangeStart fe high dt) s = .next s :=
  congrArg (hubNext s) (updFe_self (by simp [Option.isSome_iff_ne_none.mp ho]))

/-! ## End of an over-range (R63, R64) -/

/-- The channel of an over-range that has ended recovers where the trips of its range count. -/
def recoverAfterOver (c : Nat) (h : Hub) : Hub :=
  if overCounts (chDesc h c) (chanAt h c).rangeNow then
    updChan c (fun x => { x with recLeft := max x.recLeft (recoverN 20000 (chDesc h c)) }) h
  else h

/-- A neighbour is RECOVERING to 50 µs after the end of an over-range. -/
def recoverUntil (stop : Inst) (x : Chan) : Chan := { x with recUntil := some (max (x.recUntil.getD stop) (stop + us 50)) }

/-- RECOVERING verdicts over the neighbours of a channel, which keep RECOVERING. -/
def disturbNeighbours (c : Nat) (start stop : Inst) (h : Hub) : Hub :=
  (neighbours h c).foldl (fun h k => updChan k (recoverUntil stop) h)
    (issue ((neighbours h c).flatMap fun k => verdictsFor h k sRecovering 1 start stop) h)

/-- The end of an over-range of a channel: one that has shown nothing ends there, another lets the channel recover, and an area above
1.0 V·µs disturbs the neighbours. -/
theorem overEnd_eq {fe c : Nat} {hi : Bool} {first : Inst} {h : Hub} (ho : (feAt h fe).overRange = some (hi, first))
    (hc : overChan h fe = some c) (stop : Inst) (area : Nat) :
    overEnd fe stop area h =
      if stop < pastHolds (chanAt h c) first then updFe fe (closeOver (pastHolds (chanAt h c) first) stop h) h
      else if 1000 < area then
        disturbNeighbours c (pastHolds (chanAt h c) first) stop
          (recoverAfterOver c (updFe fe (closeOver (pastHolds (chanAt h c) first) stop h) h))
      else recoverAfterOver c (updFe fe (closeOver (pastHolds (chanAt h c) first) stop h) h) := by
  simp only [overEnd, ho, hc]
  rfl

theorem overEnd_of_none {fe : Nat} {h : Hub} (ho : (feAt h fe).overRange = none) (stop : Inst) (area : Nat) :
    overEnd fe stop area h = h := by
  simp only [overEnd, ho]

theorem recoverAfterOver_eq (c : Nat) (h : Hub) : recoverAfterOver c h = { h with chans := (recoverAfterOver c h).chans } := by
  unfold recoverAfterOver
  split <;> rfl

theorem disturbNeighbours_eq (c : Nat) (start stop : Inst) (h : Hub) :
    disturbNeighbours c start stop h =
      { h with
        chans := (disturbNeighbours c start stop h).chans
        verdicts := h.verdicts ++ (neighbours h c).flatMap fun k => verdictsFor h k sRecovering 1 start stop } := by
  rw [disturbNeighbours, foldl_updChan]
  rfl

theorem length_recoverAfterOver (c : Nat) (h : Hub) : (recoverAfterOver c h).chans.length = h.chans.length := by
  unfold recoverAfterOver
  split
  · exact List.length_modify ..
  · rfl

theorem chanAt_recoverAfterOver_ne {c k : Nat} (hk : k ≠ c) (h : Hub) : chanAt (recoverAfterOver c h) k = chanAt h k := by
  unfold recoverAfterOver
  split
  · exact chanAt_updChan_ne hk _ h
  · rfl

theorem chanAt_recoverAfterOver_updFe (c fe k : Nat) (f : Fe → Fe) (h : Hub) :
    chanAt (recoverAfterOver c (updFe fe f h)) k = chanAt (recoverAfterOver c h) k := by
  simp only [recoverAfterOver, apply_ite (chanAt · k)]
  rfl

theorem recLeft_recoverAfterOver {c : Nat} {h : Hub} (hc : c < h.chans.length) :
    (chanAt (recoverAfterOver c h) c).recLeft =
      if overCounts (chDesc h c) (chanAt h c).rangeNow then max (chanAt h c).recLeft (recoverN 20000 (chDesc h c))
      else (chanAt h c).recLeft := by
  unfold recoverAfterOver
  split
  · rw [chanAt_updChan_same hc]
  · rfl

theorem neighbours_recoverAfterOver (c : Nat) (h : Hub) : neighbours (recoverAfterOver c h) c = neighbours h c := by
  refine neighbours_congr ?_ fun k hk => chanAt_recoverAfterOver_ne hk h
  rw [recoverAfterOver_eq]

theorem chanAt_disturbNeighbours {c : Nat} {h : Hub} (hb : ∀ k ∈ neighbours h c, k < h.chans.length) (start stop : Inst) (k : Nat) :
    chanAt (disturbNeighbours c start stop h) k = if k ∈ neighbours h c then recoverUntil stop (chanAt h k) else chanAt h k :=
  chanAt_foldl_updChan (h := issue _ h) (recoverUntil stop) (nodup_neighbours h c) hb k

/-- The verdicts after the neighbours of a channel that has recovered are disturbed. -/
theorem mem_verdicts_disturbNeighbours {c : Nat} {start stop : Inst} {h : Hub} {v : Verdict} :
    v ∈ (disturbNeighbours c start stop (recoverAfterOver c h)).verdicts ↔
      v ∈ h.verdicts ∨ ∃ k ∈ neighbours h c, v ∈ verdictsFor h k sRecovering 1 start stop := by
  have hv : ∀ k, verdictsFor (recoverAfterOver c h) k sRecovering 1 start stop = verdictsFor h k sRecovering 1 start stop := fun k =>
    verdictsFor_congr (by rw [recoverAfterOver_eq]) (by rw [recoverAfterOver_eq]) ..
  rw [disturbNeighbours_eq, neighbours_recoverAfterOver]
  simp only [hv, List.mem_append, List.mem_flatMap]
  rw [recoverAfterOver_eq]

/-- The end of an over-range touches the front ends, the channels and the verdicts. -/
theorem overEnd_frame {fe c : Nat} {hi : Bool} {first : Inst} {h : Hub} (ho : (feAt h fe).overRange = some (hi, first))
    (hc : overChan h fe = some c) (stop : Inst) (area : Nat) :
    overEnd fe stop area h =
      { h with
        fes := updAt h.fes fe (closeOver (pastHolds (chanAt h c) first) stop h)
        chans := (overEnd fe stop area h).chans
        verdicts := (overEnd fe stop area h).verdicts } := by
  rw [overEnd_eq ho hc]
  split
  · rfl
  split
  · rw [disturbNeighbours_eq, recoverAfterOver_eq]; rfl
  · rw [recoverAfterOver_eq]; rfl

section
variable {fe c : Nat} {hi : Bool} {first stop : Inst} {area : Nat} {h : Hub} (ho : (feAt h fe).overRange = some (hi, first))
  (hc : overChan h fe = some c)
include ho hc

theorem overRange_overEnd : (feAt (overEnd fe stop area h) fe).overRange = none := by
  have hfe := feAt_updFe_same (lt_of_overRange ho) (closeOver (pastHolds (chanAt h c) first) stop h)
  rw [overEnd_frame ho hc]
  exact congrArg Fe.overRange hfe

/-- One that ends within a hold interval of its channel has shown nothing (04 R94). -/
theorem overEnd_of_hidden (ht : stop < pastHolds (chanAt h c) first) :
    (overEnd fe stop area h).chans = h.chans ∧ (overEnd fe stop area h).verdicts = h.verdicts := by
  rw [overEnd_eq ho hc, if_pos ht]
  exact ⟨rfl, rfl⟩

theorem overEnd_of_small (ht : pastHolds (chanAt h c) first ≤ stop) (ha : area ≤ 1000) :
    overEnd fe stop area h = recoverAfterOver c (updFe fe (closeOver (pastHolds (chanAt h c) first) stop h) h) := by
  rw [overEnd_eq ho hc, if_neg (Int.not_lt.mpr ht), if_neg (Nat.not_lt.mpr ha)]

theorem overEnd_of_large (ht : pastHolds (chanAt h c) first ≤ stop) (ha : 1000 < area) :
    overEnd fe stop area h =
      disturbNeighbours c (pastHolds (chanAt h c) first) stop
        (recoverAfterOver c (updFe fe (closeOver (pastHolds (chanAt h c) first) stop h) h)) := by
  rw [overEnd_eq ho hc, if_neg (Int.not_lt.mpr ht), if_pos ha]

theorem verdicts_overEnd_of_small (ht : pastHolds (chanAt h c) first ≤ stop) (ha : area ≤ 1000) :
    (overEnd fe stop area h).verdicts = h.verdicts := by
  rw [overEnd_of_small ho hc ht ha, recoverAfterOver_eq]
  rfl

theorem chanAt_overEnd_of_small (ht : pastHolds (chanAt h c) first ≤ stop) (ha : area ≤ 1000) {k : Nat} (hk : k ≠ c) :
    chanAt (overEnd fe stop area h) k = chanAt h k := by
  rw [overEnd_of_small ho hc ht ha]
  exact chanAt_recoverAfterOver_ne hk _

theorem mem_verdicts_overEnd_of_large (ht : pastHolds (chanAt h c) first ≤ stop) (ha : 1000 < area) {v : Verdict} :
    v ∈ (overEnd fe stop area h).verdicts ↔
      v ∈ h.verdicts ∨ ∃ k ∈ neighbours h c, v ∈ verdictsFor h k sRecovering 1 (pastHolds (chanAt h c) first) stop := by
  rw [overEnd_of_large ho hc ht ha]
  exact mem_verdicts_disturbNeighbours

variable (hlen : h.chans.length = 512) (hc512 : c < 512)
include hlen hc512

theorem chanAt_overEnd_of_large (ht : pastHolds (chanAt h c) first ≤ stop) (ha : 1000 < area) (k : Nat) :
    chanAt (overEnd fe stop area h) k =
      if k ∈ neighbours h c then recoverUntil stop (chanAt (recoverAfterOver c h) k) else chanAt (recoverAfterOver c h) k := by
  rw [overEnd_of_large ho hc ht ha, chanAt_disturbNeighbours, neighbours_recoverAfterOver, chanAt_recoverAfterOver_updFe]
  · rfl
  · intro j hj
    have hgroup : j / 8 = c / 8 := (mem_neighbours.mp hj).1
    rw [length_recoverAfterOver, updFe_chans, hlen]
    omega

theorem chanAt_overEnd_of_large_ne (ht : pastHolds (chanAt h c) first ≤ stop) (ha : 1000 < area) {k : Nat} (hk : k ≠ c) :
    chanAt (overEnd fe stop area h) k = if k ∈ neighbours h c then recoverUntil stop (chanAt h k) else chanAt h k := by
  rw [chanAt_overEnd_of_large ho hc hlen hc512 ht ha, chanAt_recoverAfterOver_ne hk]

theorem recLeft_overEnd (ht : pastHolds (chanAt h c) first ≤ stop) :
    (chanAt (overEnd fe stop area h) c).recLeft =
      if overCounts (chDesc h c) (chanAt h c).rangeNow then max (chanAt h c).recLeft (recoverN 20000 (chDesc h c))
      else (chanAt h c).recLeft := by
  have hself : c ∉ neighbours h c := fun hn => (mem_neighbours.mp hn).2.1 rfl
  by_cases ha : 1000 < area
  · rw [chanAt_overEnd_of_large ho hc hlen hc512 ht ha, if_neg hself, recLeft_recoverAfterOver (hlen ▸ hc512)]
  · rw [overEnd_of_small ho hc ht (Nat.not_lt.mp ha)]
    exact recLeft_recoverAfterOver (h := updFe fe _ h) (hlen ▸ hc512)

end

/-! ## The verdict deadline (R65) -/

/-- The verdict deadline of a frame is the coming tick. -/
def deadlineDue (h : Hub) (v : Verdict) : Bool := h.frames.any fun f => f.n == v.frame && h.time.tick + 1 == f.n + f.v

theorem deadlineDue_iff {h : Hub} {v : Verdict} :
    deadlineDue h v = true ↔ ∃ f ∈ h.frames, f.n = v.frame ∧ h.time.tick + 1 = f.n + f.v := by
  simp [deadlineDue]

theorem deadlineVerdict_eq {fe c : Nat} {hi : Bool} {first : Inst} {h : Hub} (ho : (feAt h fe).overRange = some (hi, first))
    (hc : overChan h fe = some c) :
    deadlineVerdict fe h =
      { h with
        fes := updAt h.fes fe fun f => { f with overDone := h.time.tick + 1 }
        verdicts := h.verdicts ++ ((neighbours h c).flatMap fun k =>
          verdictsFor h k sRecovering 1 (pastHolds (chanAt h c) first) (frameEnd h)).filter (deadlineDue h) } := by
  simp only [deadlineVerdict, ho, hc]
  rfl

theorem mem_verdicts_deadlineVerdict {fe c : Nat} {hi : Bool} {first : Inst} {h : Hub} {v : Verdict}
    (ho : (feAt h fe).overRange = some (hi, first)) (hc : overChan h fe = some c) :
    v ∈ (deadlineVerdict fe h).verdicts ↔ v ∈ h.verdicts ∨
      (∃ k ∈ neighbours h c, v ∈ verdictsFor h k sRecovering 1 (pastHolds (chanAt h c) first) (frameEnd h)) ∧
        ∃ f ∈ h.frames, f.n = v.frame ∧ h.time.tick + 1 = f.n + f.v := by
  rw [deadlineVerdict_eq ho hc]
  simp only [List.mem_append, List.mem_filter, List.mem_flatMap, deadlineDue_iff]

/-- A verdict new at a deadline is RECOVERING by cause 1, over a neighbour, for a frame whose deadline is the coming tick. -/
theorem new_verdict_deadlineVerdict {fe c : Nat} {hi : Bool} {first : Inst} {h : Hub} {v : Verdict}
    (ho : (feAt h fe).overRange = some (hi, first)) (hc : overChan h fe = some c) (hv : v ∈ (deadlineVerdict fe h).verdicts) :
    v ∈ h.verdicts ∨ (v.status = 4 ∧ v.cause = 1 ∧ v.ch / 8 = c / 8 ∧ v.ch ≠ c ∧
      ∃ f ∈ h.frames, f.n = v.frame ∧ h.time.tick + 1 = f.n + f.v) := by
  refine ((mem_verdicts_deadlineVerdict ho hc).mp hv).imp_right ?_
  rintro ⟨⟨k, hk, hvk⟩, hdue⟩
  obtain ⟨rfl, hstatus, hcause⟩ := eq_of_mem_verdictsFor hvk
  obtain ⟨hgroup, hne, -⟩ := mem_neighbours.mp hk
  exact ⟨hstatus, hcause, hgroup, hne, hdue⟩

/-! ## Autorange (R66) -/

section
variable {c r : Nat} {less : Bool} {h : Hub}

theorem autorange_of_next (hm : measures h = true) (hc : measuring h c = true) (he : dArEn (chDesc h c) = true) (hlt : c < 512)
    (hr : nextRange (chDesc h c) (chanAt h c).rangeNow less = some r) : autorange c less h = switchRange c r h := by
  simp [autorange, hm, hc, he, hlt, hr]

theorem autorange_of_last (hr : nextRange (chDesc h c) (chanAt h c).rangeNow less = none) : autorange c less h = h := by
  simp [autorange, hr]

theorem autorange_of_off (he : dArEn (chDesc h c) = false) : autorange c less h = h := by
  simp [autorange, he]

end

/-- A step to the range of the next lower code: to less sensitivity, in CHARGE to more (log 16). -/
theorem nextRange_lower {d now : Nat} {less : Bool} (hdir : less = !decide (dMode d = 2)) (hlo : dArLo d < now) :
    nextRange d now less = some (now - 1) := by
  by_cases hm : dMode d = 2 <;> simp [nextRange, hdir, hm, hlo]

/-- A step to the range of the next higher code. -/
theorem nextRange_higher {d now : Nat} {less : Bool} (hdir : less = decide (dMode d = 2)) (hhi : now < dArHi d) :
    nextRange d now less = some (now + 1) := by
  by_cases hm : dMode d = 2 <;> simp [nextRange, hdir, hm, hhi]

theorem nextRange_none_of_lowest {d now : Nat} (hm : dMode d ≠ 2) (hlo : now ≤ dArLo d) : nextRange d now true = none := by
  simp [nextRange, hm, hlo]

theorem nextRange_none_of_highest {d now : Nat} (hm : dMode d ≠ 2) (hhi : dArHi d ≤ now) : nextRange d now false = none := by
  simp [nextRange, hm, hhi]

/-- The channel after its switch to a range. -/
theorem chanAt_switchRange_same {c : Nat} {h : Hub} (hc : c < h.chans.length) (range : Nat) :
    chanAt (switchRange c range h) c =
      { chanAt h c with
        rangeNow := range
        gSys := (storedSys h c (dMode (chDesc h c)) range).1
        oSys := (storedSys h c (dMode (chDesc h c)) range).2
        arSwitches := ((chanAt h c).arSwitches + 1) % 2 ^ 32
        recLeft := max (chanAt h c).recLeft
          (recoverN (if dMode (chDesc h c) = 2 then 20000 else rangeTerm (dMode (chDesc h c)) range 0) (chDesc h c)) } :=
  chanAt_updChan_same hc _

theorem chanAt_switchRange_ne {c k : Nat} (hk : k ≠ c) (range : Nat) (h : Hub) : chanAt (switchRange c range h) k = chanAt h k :=
  chanAt_updChan_ne hk _ h

section
variable {c r : Nat} {s : State} (hm : measures s.hub = true) (hc : measuring s.hub c = true) (he : dArEn (chDesc s.hub c) = true)
  (hlt : c < 512)
include hm hc he hlt

theorem exec_autorangeDown_of_next (hr : nextRange (chDesc s.hub c) (chanAt s.hub c).rangeNow true = some r) (dt : Nat) :
    exec (.autorangeDown c dt) s = .next { s with hub := { s.hub with chans := (switchRange c r s.hub).chans } } :=
  congrArg (hubNext s) (autorange_of_next hm hc he hlt hr)

theorem exec_autorangeUp_of_next (hr : nextRange (chDesc s.hub c) (chanAt s.hub c).rangeNow false = some r) (dt : Nat) :
    exec (.autorangeUp c dt) s = .next { s with hub := { s.hub with chans := (switchRange c r s.hub).chans } } :=
  congrArg (hubNext s) (autorange_of_next hm hc he hlt hr)

end

end Sys2Proof.Machine
end

