-- ==== Sys2Proof/Proofs/Phases.lean ====
section
/-! PROOFS. On-phases and limiters: what the end of an on-phase counts, clears and asserts, and the settlement of the events of ranges and
phases (03 R53, R59, R446). -/

namespace Sys2Proof.Machine

theorem groupAt_updGroup_same {g : Nat} {h : Hub} (hg : g < h.groups.length) (f : Group → Group) :
    groupAt (updGroup g f h) g = f (groupAt h g) := by
  simp [groupAt, updGroup, updAt, hg]

/-! ## On-phases without a held detector -/

/-- An on-phase of a group ends: its front ends hold, and its detectors have counts. -/
def endPhase (openCount shortCount : Nat) (x : Group) : Group :=
  { x with onPhase := false, holding := true, openPhases := openCount, shortPhases := shortCount }

/-- Both counts of a channel's detectors cleared. -/
def clearPhases (x : Chan) : Chan := { x with openPhases := 0, shortPhases := 0 }

/-- An on-phase that ends without a held detector clears the counts of the group and of its channels. -/
theorem onPhaseEnd_quiet (g : Nat) (h : Hub) :
    onPhaseEnd g false false 0 0 h =
      (rangeFrom (8 * g) 8).foldl (fun h c => updChan c clearPhases h) (updGroup g (endPhase 0 0) h) := by
  have hbit : ∀ i, bitOf 0 i = false := fun i => by simp [bitOf]
  simp only [onPhaseEnd, phaseCount, hbit, rangeFrom, List.foldl_map, Bool.false_eq_true, if_false]
  rfl

theorem onPhaseEnd_quiet_frame (g : Nat) (h : Hub) :
    onPhaseEnd g false false 0 0 h =
      { h with groups := updAt h.groups g (endPhase 0 0), chans := (onPhaseEnd g false false 0 0 h).chans } := by
  rw [onPhaseEnd_quiet, foldl_updChan]
  rfl

theorem groupAt_onPhaseEnd_quiet {g : Nat} {h : Hub} (hg : g < h.groups.length) :
    groupAt (onPhaseEnd g false false 0 0 h) g = endPhase 0 0 (groupAt h g) := by
  have hgroups : (onPhaseEnd g false false 0 0 h).groups = updAt h.groups g (endPhase 0 0) := by
    rw [onPhaseEnd_quiet_frame]
  rw [groupAt, hgroups]
  exact groupAt_updGroup_same hg (endPhase 0 0)

theorem chanAt_onPhaseEnd_quiet {g c : Nat} {h : Hub} (hlen : h.chans.length = 512) (hg : g < 64) (hc : c / 8 = g) :
    chanAt (onPhaseEnd g false false 0 0 h) c = clearPhases (chanAt h c) := by
  have hin : c ∈ rangeFrom (8 * g) 8 := List.mem_map.mpr ⟨c - 8 * g, List.mem_range.mpr (by omega), by omega⟩
  have hb : ∀ k ∈ rangeFrom (8 * g) 8, k < (updGroup g (endPhase 0 0) h).chans.length := by
    simp only [rangeFrom, List.mem_map, List.mem_range, updGroup_chans]
    rintro _ ⟨j, hj, rfl⟩
    omega
  rw [onPhaseEnd_quiet, chanAt_foldl_updChan clearPhases (nodup_rangeFrom _ _) hb, if_pos hin]
  rfl

/-! ## The third on-phase in succession -/

theorem raiseFault_groups_of_not_switchFault {r : Raise} (hr : ¬IsSwitchFault r.source) (once : Bool) (h : Hub) :
    (raiseFault r once h).groups = h.groups := by
  unfold raiseFault
  split
  · dsimp only
    split <;> split <;> simp
  · rw [noteSwitch_of_not_switchFault hr, enqueueRaise_groups]

theorem assertDetector_groups (k : Detector) (i : Nat) (start now : Inst) (h : Hub) :
    (assertDetector k i start now h).groups = h.groups := by
  unfold assertDetector
  split
  · exact raiseFault_groups_of_not_switchFault (not_isSwitchFault_detectorSource k i) false h
  · rfl

/-- EXC_OPEN of a group is asserted, and the group counts `n` on-phases in which its open detector held. -/
def ExcOpenStands (g n : Nat) (h : Hub) : Prop :=
  asserted h (detectorSource .excOpen g) g = true ∧ (groupAt h g).openPhases = n

theorem ExcOpenStands.updChan {g n : Nat} {h : Hub} (ho : ExcOpenStands g n h) (c : Nat) (f : Chan → Chan) :
    ExcOpenStands g n (updChan c f h) := ho

theorem ExcOpenStands.assertDetector {g n : Nat} {h : Hub} (ho : ExcOpenStands g n h) (k : Detector) (i : Nat) (start now : Inst) :
    ExcOpenStands g n (assertDetector k i start now h) := by
  obtain ⟨ha, hn⟩ := ho
  refine ⟨?_, by rw [groupAt, assertDetector_groups]; exact hn⟩
  unfold Machine.assertDetector
  split
  · exact asserted_raiseFault_of_asserted ha _ false
  · exact ha

theorem ExcOpenStands.assertDetector_if {g n : Nat} {h : Hub} (ho : ExcOpenStands g n h) (p : Prop) [Decidable p] (k : Detector) (i : Nat)
    (start now : Inst) : ExcOpenStands g n (if p then Machine.assertDetector k i start now h else h) := by
  split
  · exact ho.assertDetector k i start now
  · exact ho

/-- A detector that is evaluated asserts its source. -/
theorem asserted_assertDetector {k : Detector} {i : Nat} {h : Hub} (he : evaluated h k i = true) (start now : Inst) :
    asserted (assertDetector k i start now h) (detectorSource k i) i = true := by
  rw [assertDetector, if_pos he]
  exact asserted_raiseFault_same _ false h

theorem evaluated_endPhase {g : Nat} {h : Hub} (hg : g < h.groups.length) (openCount shortCount : Nat) :
    evaluated (updGroup g (endPhase openCount shortCount) h) .excOpen g = evaluated h .excOpen g := by
  have hport : (groupAt (updGroup g (endPhase openCount shortCount) h) g).portOn = (groupAt h g).portOn := by
    rw [groupAt_updGroup_same hg, endPhase]
  unfold evaluated
  dsimp only
  rw [hport]
  rfl

/-- The third on-phase in succession with the excitation open. -/
theorem excOpenStands_onPhaseEnd {g : Nat} {h : Hub} (hg : g < h.groups.length) (hn : 2 ≤ (groupAt h g).openPhases)
    (he : evaluated h .excOpen g = true) (shortHeld : Bool) (chOpen chShort : Nat) :
    ExcOpenStands g ((groupAt h g).openPhases + 1) (onPhaseEnd g true shortHeld chOpen chShort h) := by
  have hthird : 3 ≤ phaseCount true (groupAt h g).openPhases := by simp only [phaseCount, if_true]; omega
  have hopen : ∀ ps start now, ExcOpenStands g ((groupAt h g).openPhases + 1)
      (assertDetector .excOpen g start now (updGroup g (endPhase ((groupAt h g).openPhases + 1) ps) h)) := fun ps start now =>
    ⟨asserted_assertDetector ((evaluated_endPhase hg _ ps).trans he) start now, by
      rw [groupAt, assertDetector_groups]
      exact congrArg Group.openPhases (groupAt_updGroup_same hg (endPhase _ ps))⟩
  unfold onPhaseEnd
  dsimp only
  rw [if_pos hthird]
  refine List.foldlRecOn (motive := ExcOpenStands g _) _ _ ((hopen _ _ _).assertDetector_if _ _ _ _ _) fun h' hstands i _ => ?_
  exact ((hstands.updChan _ _).assertDetector_if _ _ _ _ _).assertDetector_if _ _ _ _ _

/-! ## The commands -/

theorem exec_onPhaseStart_of_not_phased {g : Nat} {s : State} (hp : phased s.hub g = false) : exec (.onPhaseStart g) s = .next s := by
  simp [exec, execOnPhaseStart, hp, hubNext]

theorem exec_onPhaseStart_of_phased {g : Nat} {s : State} (hp : phased s.hub g = true) :
    exec (.onPhaseStart g) s = .next { s with hub := updGroup g (fun x => { x with
      onPhase := true, holding := false, phaseStart := s.hub.time.tickInst + us (gOnOffset (grDesc s.hub g))
      starts := ((s.hub.time.tickInst + us (gOnOffset (grDesc s.hub g))) :: x.starts).take 3 }) s.hub } := by
  simp [exec, execOnPhaseStart, hp, hubNext]

theorem exec_onPhaseEnd_of_not_phased {g : Nat} {s : State} (hp : phased s.hub g = false) (openHeld shortHeld : Bool) (a b : BitVec 8) :
    exec (.onPhaseEnd g openHeld shortHeld a b) s = .next s := by
  simp [exec, execOnPhaseEnd, hp, hubNext]

theorem exec_onPhaseEnd_of_phased {g : Nat} {s : State} (hp : phased s.hub g = true) (hon : (groupAt s.hub g).onPhase = true)
    (openHeld shortHeld : Bool) (a b : BitVec 8) :
    exec (.onPhaseEnd g openHeld shortHeld a b) s =
      .next { s with hub := onPhaseEnd g openHeld shortHeld a.toNat b.toNat s.hub } := by
  simp [exec, execOnPhaseEnd, hp, hon, hubNext]

theorem exec_limiterFoldBack_port (g : Nat) (s : State) :
    exec (.limiterFoldBack true g) s =
      hubNext s (if (groupAt s.hub g).portOn then updGroup g (fun x => { x with folded := true }) s.hub else s.hub) := rfl

theorem exec_limiterFoldBack_source (c : Nat) (s : State) :
    exec (.limiterFoldBack false c) s =
      hubNext s (if (chanAt s.hub c).sourceOn && gExc (grDesc s.hub (c / 8)) == 3 then
          updChan c (fun x => { x with folded := true }) s.hub
        else s.hub) := rfl

/-- Settles O42: an over-range by `overEnd_eq` and `deadlineVerdict_eq`, autorange by where `nextRange` leads, the third open on-phase by
what every later step of `onPhaseEnd` keeps. That with autorange only trips of the least sensitive range count, and that CHARGE is less
sensitive in its ranges of higher code, is the model's choice (log 16). -/
theorem rangeAndPhaseEvents : Obligations.RangeAndPhaseEvents := by
  intro s i
  refine ⟨fun high dt ho => ?_, fun high dt ho => ?_, fun dt area ho => ?_, fun hi first c dt area ho hc hlen hlt => ?_,
    fun hi first c ho hc => ?_, fun dt hlt hlen hup hm he => ?_, fun dt he => ?_, fun hp => ?_, fun hp => ?_,
    fun hp hon hglen hlt hn he shortHeld a b => ?_, fun hp hon hglen hlt hlen => ?_, fun hon => ?_, fun hon hexc => ?_,
    fun hoff => ?_, fun hoff => ?_, rfl⟩
  · exact exec_overRangeStart_of_none ho high dt
  · exact exec_overRangeStart_of_some ho high dt
  · exact congrArg (hubNext s) (overEnd_of_none ho _ area)
  · refine ⟨overEnd i (instAt s.hub dt) area s.hub, rfl, ?_, overRange_overEnd ho hc, overEnd_of_hidden ho hc, fun ht =>
      ⟨recLeft_overEnd ho hc hlen hlt ht, fun ha => ⟨verdicts_overEnd_of_small ho hc ht ha, ?_⟩, fun ha => ⟨?_, ?_⟩⟩⟩
    · rw [overEnd_frame ho hc]
    · exact fun k => chanAt_overEnd_of_small ho hc ht ha
    · exact fun v => mem_verdicts_overEnd_of_large ho hc ht ha
    · exact fun k => chanAt_overEnd_of_large_ne ho hc hlen hlt ht ha
  · refine ⟨deadlineVerdict i s.hub, rfl, ?_, fun v => mem_verdicts_deadlineVerdict ho hc, fun v => new_verdict_deadlineVerdict ho hc⟩
    rw [deadlineVerdict_eq ho hc]
  · have hi : i < s.hub.chans.length := hlen ▸ hlt
    have hsame := fun r => chanAt_switchRange_same hi r
    refine ⟨fun hmode hlo => ?_, fun hmode hhi => ?_, fun hmode hhi => ?_, fun hmode hlo => ?_,
      fun hmode hlo => ?_, fun hmode hhi => ?_⟩
    · exact ⟨_, exec_autorangeDown_of_next hup hm he hlt (nextRange_lower (by simp [hmode]) hlo) dt, congrArg Chan.rangeNow (hsame _),
        congrArg Chan.arSwitches (hsame _), congrArg (fun x : Chan => (x.gSys, x.oSys)) (hsame _),
        fun k hk => chanAt_switchRange_ne hk _ s.hub⟩
    · refine ⟨_, exec_autorangeUp_of_next hup hm he hlt (nextRange_higher (by simp [hmode]) hhi) dt, congrArg Chan.rangeNow (hsame _),
        ?_, fun k hk => chanAt_switchRange_ne hk _ s.hub⟩
      exact (congrArg Chan.recLeft (hsame _)).trans (by rw [if_neg hmode])
    · exact ⟨_, exec_autorangeDown_of_next hup hm he hlt (nextRange_higher (by simp [hmode]) hhi) dt, congrArg Chan.rangeNow (hsame _)⟩
    · exact ⟨_, exec_autorangeUp_of_next hup hm he hlt (nextRange_lower (by simp [hmode]) hlo) dt, congrArg Chan.rangeNow (hsame _)⟩
    · exact congrArg (hubNext s) (autorange_of_last (nextRange_none_of_lowest hmode hlo))
    · exact congrArg (hubNext s) (autorange_of_last (nextRange_none_of_highest hmode hhi))
  · exact ⟨congrArg (hubNext s) (autorange_of_off he), congrArg (hubNext s) (autorange_of_off he)⟩
  · exact ⟨exec_onPhaseStart_of_not_phased hp, exec_onPhaseEnd_of_not_phased hp⟩
  · exact exec_onPhaseStart_of_phased hp
  · have hopen := excOpenStands_onPhaseEnd (hglen ▸ hlt) hn he shortHeld a.toNat b.toNat
    rw [ExcOpenStands, detectorSource, tileBase_add] at hopen
    exact ⟨_, exec_onPhaseEnd_of_phased hp hon .., hopen⟩
  · have hgroup := groupAt_onPhaseEnd_quiet (hglen ▸ hlt)
    refine ⟨_, exec_onPhaseEnd_of_phased hp hon .., ?_, congrArg Group.onPhase hgroup, congrArg Group.holding hgroup,
      congrArg Group.openPhases hgroup, fun c hc => ?_⟩
    · exact onPhaseEnd_quiet_frame i s.hub
    · have hch := chanAt_onPhaseEnd_quiet hlen hlt hc
      exact ⟨congrArg Chan.openPhases hch, congrArg Chan.shortPhases hch⟩
  · rw [exec_limiterFoldBack_port, if_pos hon, hubNext]
  · rw [exec_limiterFoldBack_source, hon, hexc]
    rfl
  · rw [exec_limiterFoldBack_port, hoff]
    rfl
  · rw [exec_limiterFoldBack_source, hoff]
    rfl

end Sys2Proof.Machine
end

