-- ==== Sys2Proof/Proofs/Handovers.lean ====
section
/-! PROOFS. Handovers: when an overlap agrees or is void, what its comparison leaves of the pair, and what a break-before-make handover
does (05 R105 to R107, 14 R349, 15 R371). -/

namespace Sys2Proof.Machine

/-! ## Entries of the tables -/

theorem tileAt_updTile_same {t : Nat} {h : Hub} (ht : t < h.tiles.length) (f : Tile → Tile) :
    tileAt (updTile t f h) t = f (tileAt h t) := by
  simp [tileAt, updTile, updAt, ht]

/-- Two changes of one channel are one. -/
theorem updChan_updChan (c : Nat) (f g : Chan → Chan) (h : Hub) : updChan c f (updChan c g h) = updChan c (f ∘ g) h := by
  simp [updChan, updAt, List.modify_modify_eq]

theorem turn_setStep {t : Nat} {h : Hub} {u : Turn} (ht : t < h.tiles.length) (hu : (tileAt h t).turn = some u) (f : Turn → Turn) :
    (tileAt (setStep t f h) t).turn = some (f u) := by
  rw [setStep, tileAt_updTile_same ht]
  exact congrArg (Option.map f) hu

theorem turn_endTurn {t : Nat} {h : Hub} (ht : t < h.tiles.length) : (tileAt (endTurn t h) t).turn = none := by
  rw [endTurn, tileAt_updTile_same ht]

/-! ## What a raise changes -/

theorem enqueueRaise_frame (r : Raise) (h : Hub) : enqueueRaise r h = { h with faults := (enqueueRaise r h).faults } := by
  unfold enqueueRaise
  repeat' split
  all_goals rfl

theorem noteSwitch_frame (r : Raise) (h : Hub) : noteSwitch r h = { h with groups := (noteSwitch r h).groups } := by
  unfold noteSwitch
  split <;> rfl

/-- A raise touches the collector and, where it is a SWITCH_FAULT, the groups. -/
theorem raiseFault_frame (r : Raise) (once : Bool) (h : Hub) :
    raiseFault r once h = { h with groups := (raiseFault r once h).groups, faults := (raiseFault r once h).faults } := by
  unfold raiseFault
  split
  case h_1 o _ =>
    dsimp only
    cases o.cleared <;> cases o.handled <;> simp only [Bool.false_eq_true, if_true, if_false]
    · rw [enqueueRaise_frame]
    · rw [enqueueRaise_frame]
      rfl
    · rfl
  case h_2 => rw [enqueueRaise_frame, noteSwitch_frame]

theorem raiseNow_frame (source inst sub : Nat) (detail : BitVec 64) (h : Hub) :
    raiseNow source inst sub detail h =
      { h with groups := (raiseNow source inst sub detail h).groups, faults := (raiseNow source inst sub detail h).faults } :=
  raiseFault_frame ..

theorem raiseNow_groups_of_not_switchFault {source : Nat} (hs : ¬IsSwitchFault source) (inst sub : Nat) (detail : BitVec 64) (h : Hub) :
    (raiseNow source inst sub detail h).groups = h.groups := raiseFault_groups_of_not_switchFault hs true h

/-! ## A switch that fails its check (15 R371) -/

theorem switchFault_source (c : Nat) : tileBase (tileOfCh c) + 0xA = 0x1A + 16 * (c / 128) := tileBase_add ..

theorem switchFault_frame (c : Nat) (h : Hub) :
    switchFault c h = { h with groups := (switchFault c h).groups, faults := (switchFault c h).faults } := raiseNow_frame ..

theorem asserted_switchFault (c : Nat) (h : Hub) : asserted (switchFault c h) (0x1A + 16 * (c / 128)) c = true := by
  rw [← switchFault_source]
  exact asserted_raiseFault_same _ true h

/-- A fresh SWITCH_FAULT marks the spare's switch to its channel. -/
theorem mem_badSwitch_switchFault {c : Nat} {h : Hub} (hc : c < 512) (hg : h.groups.length = 64)
    (hf : Fresh (0x1A + 16 * (c / 128)) c h) : c ∈ (groupAt (switchFault c h) (c / 8)).badSwitch := by
  obtain ⟨hocc, -⟩ := hf
  have hnone : h.faults.occ.find? (fun o => o.source == tileBase (tileOfCh c) + 0xA && o.inst == c) = none := by
    rw [switchFault_source]
    simpa [List.find?_eq_none] using hocc
  have hgroups : (switchFault c h).groups =
      updAt h.groups (c / 8) fun g => { g with badSwitch := (c :: g.badSwitch).eraseDups } := by
    simp only [switchFault, raiseNow, raiseFault, hnone, enqueueRaise_groups]
    rw [noteSwitch, if_pos (by simp only [switchFault_source]; omega)]
  rw [groupAt, hgroups]
  exact (congrArg (c ∈ ·) (congrArg Group.badSwitch (groupAt_updGroup_same (h := h) (by omega) _))).mpr (by simp)

/-! ## The comparison of an overlap (R105, R106) -/

/-- A front end has neither an over-range nor one that ended in the window of the open frame. -/
def QuietInFrame (h : Hub) (fe : Nat) : Prop := (feAt h fe).overRange = none ∧ (feAt h fe).overIn ≠ some h.time.tick

theorem overInWindow_of_quiet {h : Hub} {fe : Nat} (hq : QuietInFrame h fe) : overInWindow h fe = false := by
  obtain ⟨hover, hin⟩ := hq
  simp [overInWindow, hover, hin]

theorem overInWindow_of_overIn {h : Hub} {fe : Nat} (hin : (feAt h fe).overIn = some h.time.tick) : overInWindow h fe = true := by
  simp [overInWindow, hin]

theorem overlapVoid_of_quiet {h : Hub} {c : Nat} (hown : QuietInFrame h (ownFe c)) (hspare : QuietInFrame h (spareFe (c / 8))) :
    overlapVoid h c = false := by
  rw [overlapVoid, overInWindow_of_quiet hown, overInWindow_of_quiet hspare, Bool.or_false]

theorem overlapVoid_of_overIn {h : Hub} {c : Nat}
    (hin : (feAt h (ownFe c)).overIn = some h.time.tick ∨ (feAt h (spareFe (c / 8))).overIn = some h.time.tick) :
    overlapVoid h c = true := by
  rw [overlapVoid, Bool.or_eq_true]
  exact hin.imp overInWindow_of_overIn overInWindow_of_overIn

theorem overlapVoid_switchFault (c k : Nat) (h : Hub) : overlapVoid (switchFault c h) k = overlapVoid h k := by
  rw [switchFault_frame]
  rfl

section
variable {ch : Nat} {s : State} {a b : Int}

theorem exec_overlapCompare_of_not_overlap (hp : (chanAt s.hub ch).pair ≠ .overlap) (switchOk : Bool) :
    exec (.overlapCompare ch a b switchOk) s = .next s := by
  simp [exec, execOverlapCompare, hp, hubNext]

variable (hp : (chanAt s.hub ch).pair = .overlap)
include hp

theorem exec_overlapCompare_of_remap {take : Bool} (hh : (chanAt s.hub ch).handover = some take) :
    exec (.overlapCompare ch a b true) s =
      hubNext s (overlapRemap ch take (overlapAgrees s.hub ch a b) (overlapVoid s.hub ch) true s.hub) := by
  simp [exec, execOverlapCompare, hp, hh]

theorem exec_overlapCompare_of_turn {u : Turn} (hh : (chanAt s.hub ch).handover = none)
    (hu : (tileAt s.hub (tileOfCh ch)).turn = some u) (hc : u.ch = ch) :
    exec (.overlapCompare ch a b true) s =
      hubNext s (overlapTurn (tileOfCh ch) ch (overlapAgrees s.hub ch a b) (overlapVoid s.hub ch) true u s.hub) := by
  simp [exec, execOverlapCompare, hp, hh, hu, hc]

theorem exec_overlapCompare_of_badSwitch {u : Turn} (hh : (chanAt s.hub ch).handover = none)
    (hu : (tileAt s.hub (tileOfCh ch)).turn = some u) (hc : u.ch = ch) :
    exec (.overlapCompare ch a b false) s =
      hubNext s (overlapTurn (tileOfCh ch) ch (overlapAgrees s.hub ch a b) (overlapVoid s.hub ch) false u (switchFault ch s.hub)) := by
  have hh' : (chanAt (switchFault ch s.hub) ch).handover = none := by rw [switchFault_frame]; exact hh
  have hu' : (tileAt (switchFault ch s.hub) (tileOfCh ch)).turn = some u := by rw [switchFault_frame]; exact hu
  simp [exec, execOverlapCompare, hp, hh', hu', hc, overlapVoid_switchFault]

end

/-! ## A remap's comparison (14 R349) -/

/-- A take that agrees: the channel is remapped, and its pair goes to the spare at the closing tick. -/
theorem overlapRemap_take_of_agrees (c : Nat) (h : Hub) :
    overlapRemap c true true false true h =
      updChan c (fun x => { x with handover := none, remapped := true, pairDue := some (.spare, some (spareFe (c / 8))) }) h := by
  simp only [overlapRemap, pairAtTick, updChan_updChan]
  rfl

/-- A take whose comparison is void: the pair is bound again at the closing tick. -/
theorem overlapRemap_take_of_void (c : Nat) (agrees : Bool) (h : Hub) :
    overlapRemap c true agrees true true h =
      updChan c (fun x => { x with handover := none, pairDue := some (.bound, some (ownFe c)) }) h := by
  simp only [overlapRemap, pairAtTick, Bool.not_true, Bool.and_false, Bool.or_true, Bool.false_and, if_true, if_false,
    Bool.false_eq_true, updChan_updChan]
  rfl

/-- A take that disagrees: the pair is bound again at the closing tick, with the verdict and the raise of a disagreement. -/
theorem overlapRemap_take_of_disagrees (c : Nat) (h : Hub) :
    overlapRemap c true false false true h =
      pairAtTick c .bound (ownFe c) (overlapFail c (spareFe (c / 8)) 1 (updChan c (fun x => { x with handover := none }) h)) := rfl

/-! ## A disagreement (R106) -/

/-- A disagreement issues verdicts and raises CAL_DISAGREE, which is no SWITCH_FAULT. -/
theorem overlapFail_frame {c : Nat} (fe sub : Nat) (h : Hub) :
    overlapFail c fe sub h =
      { h with
        verdicts := h.verdicts ++ verdictsFor h c sInvalid 2 h.time.tickInst (frameEnd h)
        faults := (overlapFail c fe sub h).faults } := by
  have hs : ¬IsSwitchFault (tileBase (tileOfCh c) + 7) := by unfold tileBase; omega
  have hraise := raiseNow_frame (tileBase (tileOfCh c) + 7) fe sub 0 (issue (verdictsFor h c sInvalid 2 h.time.tickInst (frameEnd h)) h)
  rw [raiseNow_groups_of_not_switchFault hs] at hraise
  exact hraise

theorem asserted_overlapFail (c fe sub : Nat) (h : Hub) :
    asserted (overlapFail c fe sub h) (0x17 + 16 * (c / 128)) fe = true := by
  have hsource : tileBase (tileOfCh c) + 7 = 0x17 + 16 * (c / 128) := tileBase_add ..
  rw [← hsource]
  exact asserted_raiseFault_same _ true _

theorem chanAt_overlapFail (c fe sub : Nat) (h : Hub) (k : Nat) : chanAt (overlapFail c fe sub h) k = chanAt h k := by
  rw [overlapFail_frame]
  rfl

theorem chanAt_overlapRemap_of_disagrees {c : Nat} {h : Hub} (hc : c < h.chans.length) :
    chanAt (overlapRemap c true false false true h) c =
      { chanAt h c with handover := none, pairDue := some (.bound, some (ownFe c)) } := by
  have hlen : c < (overlapFail c (spareFe (c / 8)) 1 (updChan c (fun x => { x with handover := none }) h)).chans.length := by
    rw [overlapFail_frame]
    simpa [updChan, updAt] using hc
  rw [overlapRemap_take_of_disagrees, pairAtTick, chanAt_updChan_same hlen, chanAt_overlapFail, chanAt_updChan_same hc]

theorem verdicts_overlapRemap_of_disagrees (c : Nat) (h : Hub) :
    (overlapRemap c true false false true h).verdicts = h.verdicts ++ verdictsFor h c sInvalid 2 h.time.tickInst (frameEnd h) := by
  rw [overlapRemap_take_of_disagrees, overlapFail_frame]
  rfl

theorem overlapRemap_frame_of_disagrees (c : Nat) (h : Hub) :
    overlapRemap c true false false true h =
      { h with
        chans := (overlapRemap c true false false true h).chans
        verdicts := (overlapRemap c true false false true h).verdicts
        faults := (overlapRemap c true false false true h).faults } := by
  rw [overlapRemap_take_of_disagrees, overlapFail_frame]
  rfl

/-! ## A turn's comparison -/

/-- A take that agrees: the own front end's run is next, and the pair goes to the spare at the closing tick. -/
theorem overlapTurn_take_of_agrees {u : Turn} (hstep : u.step = .overlapTake) (t c : Nat) (h : Hub) :
    overlapTurn t c true false true u h =
      setStep t (fun x => { x with step := .ownRun, fe := ownFe c }) (pairAtTick c .spare (spareFe (c / 8)) h) := by
  simp [overlapTurn, hstep]

/-- A take whose switch failed its check: the turn ends, and the pair is bound again at the closing tick. -/
theorem overlapTurn_take_of_badSwitch {u : Turn} (hstep : u.step = .overlapTake) (t c : Nat) (h : Hub) :
    overlapTurn t c true false false u h = endTurn t (pairAtTick c .bound (ownFe c) h) := by
  simp [overlapTurn, hstep]

theorem pairDue_pairAtTick {c : Nat} {h : Hub} (hc : c < h.chans.length) (p : PairConn) (fe : Nat) :
    (chanAt (pairAtTick c p fe h) c).pairDue = some (p, some fe) := congrArg Chan.pairDue (chanAt_updChan_same hc _)

/-! ## Break before make (R107) -/

theorem chanAt_connect_same {c : Nat} {h : Hub} (hc : c < h.chans.length) (p : PairConn) (fe : Option Nat) :
    chanAt (connect c p fe h) c = { chanAt h c with pair := p, fe := fe } := chanAt_updChan_same hc _

theorem chanAt_breakMake_same {c : Nat} {h : Hub} (hc : c < h.chans.length) (t : Inst) :
    chanAt (breakMake c true t h) c =
      { chanAt h c with
        pair := .spare
        fe := some (spareFe (c / 8))
        holds := (chanAt h c).holds ++ [{ start := t, stop := t + us (holdUs (dMode (chDesc h c)) (chanAt h c).rangeNow) }] } := by
  have hlen : c < (addHold c t (t + us (holdUs (dMode (chDesc h c)) (chanAt h c).rangeNow)) h).chans.length := by
    rw [addHold, updChan, updAt, List.length_modify]
    exact hc
  rw [breakMake, chanAt_connect_same hlen, addHold, chanAt_updChan_same hc]
  rfl

theorem spareOn_breakMake {c : Nat} {h : Hub} (hg : c / 8 < h.groups.length) (t : Inst) :
    (groupAt (breakMake c true t h) (c / 8)).spareOn = some c :=
  congrArg Group.spareOn (groupAt_updGroup_same (h := updChan c _ (addHold c t _ h)) hg _)

section
variable {ch : Nat} {s : State} {u : Turn} (hu : (tileAt s.hub (tileOfCh ch)).turn = some u) (hc : u.ch = ch)
  (hstep : u.step = .handTake)
include hu hc hstep

theorem exec_breakBeforeMakeHandover_take :
    exec (.breakBeforeMakeHandover ch true) s =
      hubNext s (setStep (tileOfCh ch) (fun x => { x with step := .ownRun, fe := ownFe ch })
        (breakMake ch true s.hub.time.tickInst s.hub)) := by
  simp [exec, execBreakBeforeMakeHandover, handover, hu, hc, hstep]

theorem exec_breakBeforeMakeHandover_badSwitch :
    exec (.breakBeforeMakeHandover ch false) s = hubNext s (endTurn (tileOfCh ch) (switchFault ch s.hub)) := by
  simp [exec, execBreakBeforeMakeHandover, handover, hu, hc, hstep]

end

/-- Settles O47: a comparison by `overlapRemap` and `overlapTurn` with what `overlapAgrees` and `overlapVoid` say, a handover by
`breakMake` or `switchFault`. That a remap's comparison follows the rules of a turn's is the model's choice (log 13), and that a take whose
switch failed its check is not made is deduced (log 21). -/
theorem handovers : Obligations.Handovers := by
  intro s ch hch hchans htiles hgroups
  have hspare : ch / 8 * 9 + 8 = spareFe (ch / 8) := by unfold spareFe; omega
  have hlen : ch < s.hub.chans.length := by omega
  have htile : tileOfCh ch < s.hub.tiles.length := by unfold tileOfCh; omega
  have hgroup : ch / 8 < s.hub.groups.length := by omega
  dsimp only
  rw [hspare]
  refine ⟨fun a b hp hh => ⟨fun ho hs hfar => ?_, fun ho hs hfar => ?_, fun hin => ?_⟩,
    fun a b u hp hh hu hc hstep ho hs hfar => ?_, fun a b u hp hh hu hc hstep ho hs hfar => ?_,
    fun hp a b ok => exec_overlapCompare_of_not_overlap hp ok, fun u hu hc hstep => ⟨?_, ?_⟩⟩
  · have hagrees : overlapAgrees s.hub ch a b = true := decide_eq_true hfar
    rw [exec_overlapCompare_of_remap hp hh, hagrees, overlapVoid_of_quiet ho hs, overlapRemap_take_of_agrees]
    exact ⟨_, rfl, chanAt_updChan_same hlen _, fun c hc => chanAt_updChan_ne hc _ s.hub⟩
  · have hagrees : overlapAgrees s.hub ch a b = false := decide_eq_false (Nat.not_le.mpr hfar)
    have hchan := chanAt_overlapRemap_of_disagrees hlen
    rw [exec_overlapCompare_of_remap hp hh, hagrees, overlapVoid_of_quiet ho hs]
    refine ⟨_, rfl, overlapRemap_frame_of_disagrees ch s.hub, asserted_overlapFail .., by rw [hchan],
      congrArg Chan.pairDue hchan, fun v hv => ?_⟩
    rw [verdicts_overlapRemap_of_disagrees, List.mem_append] at hv
    exact hv.imp_right eq_of_mem_verdictsFor
  · rw [exec_overlapCompare_of_remap hp hh, overlapVoid_of_overIn hin, overlapRemap_take_of_void]
    exact ⟨_, rfl, chanAt_updChan_same hlen _⟩
  · have hagrees : overlapAgrees s.hub ch a b = true := decide_eq_true hfar
    rw [exec_overlapCompare_of_turn hp hh hu hc, hagrees, overlapVoid_of_quiet ho hs, overlapTurn_take_of_agrees hstep]
    exact ⟨_, rfl, rfl, turn_setStep htile hu _, pairDue_pairAtTick hlen ..⟩
  · have hagrees : overlapAgrees s.hub ch a b = true := decide_eq_true hfar
    rw [exec_overlapCompare_of_badSwitch hp hh hu hc, hagrees, overlapVoid_of_quiet ho hs, overlapTurn_take_of_badSwitch hstep]
    refine ⟨_, rfl, asserted_switchFault ch s.hub, turn_endTurn ?_, pairDue_pairAtTick ?_ ..⟩ <;> rw [switchFault_frame]
    · exact htile
    · exact hlen
  · have hchan := chanAt_breakMake_same hlen s.hub.time.tickInst
    rw [exec_breakBeforeMakeHandover_take hu hc hstep]
    exact ⟨_, rfl, rfl, congrArg Chan.pair hchan, congrArg Chan.fe hchan, spareOn_breakMake hgroup _, congrArg Chan.holds hchan,
      turn_setStep htile hu _⟩
  · rw [exec_breakBeforeMakeHandover_badSwitch hu hc hstep]
    refine ⟨_, rfl, ?_, asserted_switchFault ch s.hub, turn_endTurn ?_, mem_badSwitch_switchFault hch hgroups⟩
    · rw [switchFault_frame]
      rfl
    · rw [switchFault_frame]
      exact htile

end Sys2Proof.Machine
end

