-- ==== Sys2Proof/Proofs/CalibrationRuns.lean ====
section
/-! PROOFS. The end of a self-calibration run: which quality entries it leaves (05 R99, R109, 15 R377). A turn of a channel on a tile that
is not the channel's own can lose the entries that its run has just written, when the channel retires and takes the turn of its own tile
with it. -/

namespace Sys2Proof.Machine

/-! ## Quality entries (R101) -/

/-- Entries written for a front end take the place of those of their modes and ranges. -/
theorem mem_quality_writeQuality {fe : Nat} {qs : List Quality} {h : Hub} (hfe : fe < h.fes.length) {q : Quality} :
    q ∈ (feAt (writeQuality fe qs h) fe).quality ↔
      (q ∈ (feAt h fe).quality ∧ ∀ p ∈ qs, ¬(p.mode = q.mode ∧ p.range = q.range)) ∨ q ∈ qs := by
  rw [writeQuality, feAt_updFe_same hfe]
  simp

/-- Where a whole run is written down with one RESULT, every entry of its mode and ranges has it. -/
theorem result_of_mem_writeQuality_runQuality {u : Turn} {n : Nat} {h : Hub} (hfe : u.fe < h.fes.length) {q : Quality}
    (hq : q ∈ (feAt (writeQuality u.fe (runQuality h u n) h) u.fe).quality) (hmode : q.mode = u.mode) (hrange : q.range ∈ u.ranges) :
    q.result = n := by
  obtain ⟨-, hold⟩ | hnew := (mem_quality_writeQuality hfe).mp hq
  · exact absurd ⟨hmode.symm, rfl⟩ (hold _ (List.mem_map.mpr ⟨q.range, hrange, rfl⟩))
  · obtain ⟨r, -, rfl⟩ := List.mem_map.mp hnew
    rfl

/-- A range's RESULT is ACCEPTED, DISAGREE or LIMIT (R99, R101). -/
theorem result_runRange_le (k tol : Nat) (m : List Int) : (runRange k tol m).result ≤ 2 := by
  unfold runRange
  extract_lets
  split
  · exact Nat.le_succ 1
  · change (if _ then 1 else if _ then 2 else 0) ≤ 2
    split
    · exact Nat.le_succ 1
    split
    · exact Nat.le_refl 2
    · exact Nat.zero_le 2

/-! ## What the end of a run leaves of the tables -/

/-- Two hubs with the same configuration, channels, groups and tiles, and as many front ends. -/
structure SameTables (g h : Hub) : Prop where
  cfg : g.cfg = h.cfg
  chans : g.chans = h.chans
  groups : g.groups = h.groups
  tiles : g.tiles = h.tiles
  fes : g.fes.length = h.fes.length

theorem SameTables.refl (h : Hub) : SameTables h h := ⟨rfl, rfl, rfl, rfl, rfl⟩

theorem SameTables.updFe {g h : Hub} (hs : SameTables g h) (fe : Nat) (f : Fe → Fe) : SameTables (updFe fe f g) h :=
  ⟨hs.cfg, hs.chans, hs.groups, hs.tiles, (List.length_modify ..).trans hs.fes⟩

theorem SameTables.raiseNow {g h : Hub} (hs : SameTables g h) {source : Nat} (hn : ¬IsSwitchFault source) (inst sub : Nat)
    (detail : BitVec 64) : SameTables (raiseNow source inst sub detail g) h :=
  ⟨by simp [hs.cfg], by simp [hs.chans], by rw [raiseNow_groups_of_not_switchFault hn, hs.groups], by simp [hs.tiles], by simp [hs.fes]⟩

theorem SameTables.updFe_unless {g h : Hub} (hs : SameTables g h) (p : Prop) [Decidable p] (fe : Nat) (f : Fe → Fe) :
    SameTables (if p then g else Machine.updFe fe f g) h := by
  split
  · exact hs
  · exact hs.updFe fe f

theorem SameTables.raiseNow_if {g h : Hub} (hs : SameTables g h) (p : Prop) [Decidable p] {source : Nat} (hn : ¬IsSwitchFault source)
    (inst sub : Nat) (detail : BitVec 64) : SameTables (if p then Machine.raiseNow source inst sub detail g else g) h := by
  split
  · exact hs.raiseNow hn inst sub detail
  · exact hs

theorem SameTables.jChanges {g h : Hub} (hs : SameTables g h) (details : List Bytes) :
    SameTables (details.foldl (fun h d => jChange 0x3001 d h) g) h :=
  List.foldlRecOn (motive := (SameTables · h)) _ _ hs fun g' hs' d _ =>
    ⟨by simp [hs'.cfg], by simp [hs'.chans], by simp [hs'.groups], by simp [hs'.tiles], by simp [hs'.fes]⟩

/-- A run's end scores the run, which touches the front ends and the collector, and goes on with the turn's next step. -/
theorem runEnd_eq_afterRun (t : Nat) (outputs : List (List (List Int))) (temp : Int) (u : Turn) (h : Hub) :
    ∃ ok details g, SameTables g h ∧ runEnd t outputs temp u h = afterRun t u ok details g := by
  have h6 : ¬IsSwitchFault (tileBase t + 6) := by unfold tileBase; omega
  have h7 : ¬IsSwitchFault (tileBase t + 7) := by unfold tileBase; omega
  have hquality := (SameTables.refl h).updFe u.fe
  exact ⟨_, _, _, ((((hquality _).updFe_unless ..).updFe_unless ..).raiseNow_if _ h7 ..).raiseNow_if _ h6 .., rfl⟩

/-! ## A turn given up (R109) -/

theorem fes_foldl_jChange (details : List Bytes) (h : Hub) :
    (details.foldl (fun h d => jChange 0x3001 d h) h).fes = h.fes :=
  List.foldlRecOn (motive := (·.fes = h.fes)) _ _ rfl fun g hg d _ => (jChange_fes 0x3001 d g).trans hg

/-- A channel's turn with a run in progress is given up: of the front ends, only that run's quality entries change. -/
theorem fes_abandonTurn {c : Nat} {u : Turn} {h : Hub} (hu : (tileAt h (tileOfCh c)).turn = some u) (hc : u.ch = c)
    (hstarted : u.startTick.isSome = true) (stop : Inst) :
    (abandonTurn c stop h).fes = (writeQuality u.fe (runQuality h u 3) h).fes := by
  unfold abandonTurn
  simp only [hu, hc, hstarted, ne_eq, not_true_eq_false, if_true, if_false]
  split <;> exact fes_foldl_jChange ..

theorem fes_retire (c : Nat) (h : Hub) : (retire c h).fes = (abandonTurn c h.time.tickInst h).fes := rfl

/-- A REMAP without a usable spare gives up the turn of its channel. -/
theorem fes_noSpareLeft {c : Nat} {h : Hub} (hr : retiring h c = false) (fe source : Nat) :
    (noSpareLeft c fe source h).fes = (abandonTurn c h.time.tickInst (markEntry source fe 2 h)).fes := by
  have hr' : retiring (markEntry source fe 2 h) c = false := hr
  rw [noSpareLeft, retireChannel, hr', if_neg Bool.false_ne_true, jChange_fes, fes_retire]
  rfl

/-! ## A remap's spare run (15 R377) -/

theorem spareUsable_of_spareLost {c : Nat} {h : Hub} (hl : (groupAt h (c / 8)).spareLost = true) : spareUsable h c = false := by
  simp [spareUsable, spareFree, hl]

theorem retiring_of_remains {h : Hub} {c : Nat} (hr : remains h c = true) : retiring h c = false := by
  simp only [remains, measuring, Bool.and_eq_true, Bool.not_eq_true'] at hr
  simp [retiring, hr]

/-- The hub after a remap's spare run: the run's records, its turn ended, and the REMAP no longer waiting. -/
def remapRunOver (t : Nat) (u : Turn) (details : List Bytes) (h : Hub) : Hub :=
  let h := updChan u.ch (fun x => { x with remapDue := false }) (endTurn t (details.foldl (fun h d => jChange 0x3001 d h) h))
  { h with faults.remaps := h.faults.remaps.filter (·.1 != ownFe u.ch) }

section
variable {t : Nat} {u : Turn} {h : Hub}

/-- After a remap's run the channel is remapped, or retires where the spare is not usable. -/
theorem afterRun_of_remap (hch : u.ch < 512) (hstep : u.step = .spareRun) (hremap : u.remap = true) (ok : Bool) (details : List Bytes) :
    ∃ source, afterRun t u ok details h =
      if !remains (remapRunOver t u details h) u.ch then remapRunOver t u details h
      else if ok && spareUsable (remapRunOver t u details h) u.ch then
        remapTo u.ch (remapRunOver t u details h).time.tick (remapRunOver t u details h).time.tickInst (remapRunOver t u details h)
      else noSpareLeft u.ch (ownFe u.ch) source (remapRunOver t u details h) := by
  unfold afterRun
  simp only [if_neg (Nat.not_le.mpr hch), hstep, hremap, if_true]
  exact ⟨_, rfl⟩

theorem afterRun_of_noSpare (hch : u.ch < 512) (hstep : u.step = .spareRun) (hremap : u.remap = true) (details : List Bytes)
    (hremains : remains (remapRunOver t u details h) u.ch = true)
    (hspare : spareUsable (remapRunOver t u details h) u.ch = false) (ok : Bool) :
    ∃ source, afterRun t u ok details h = noSpareLeft u.ch (ownFe u.ch) source (remapRunOver t u details h) := by
  obtain ⟨source, hafter⟩ := afterRun_of_remap (t := t) (h := h) hch hstep hremap ok details
  exact ⟨source, by simpa [hremains, hspare] using hafter⟩

theorem tileAt_updTile_ne {k : Nat} (hk : k ≠ t) (f : Tile → Tile) (h : Hub) : tileAt (updTile t f h) k = tileAt h k := by
  simp [tileAt, updTile, updAt, List.getD_eq_getElem?_getD, hk.symm]

variable {g : Hub} (hs : SameTables g h) (details : List Bytes)
include hs

theorem remains_remapRunOver (hlen : u.ch < h.chans.length) : remains (remapRunOver t u details g) u.ch = remains h u.ch := by
  obtain ⟨hcfg, hchans, -, -, -⟩ := hs.jChanges details
  have hsame := chanAt_updChan_same (h := details.foldl (fun h d => jChange 0x3001 d h) g) (hchans.symm ▸ hlen)
    fun x => { x with remapDue := false }
  have hchan : chanAt (remapRunOver t u details g) u.ch = { chanAt h u.ch with remapDue := false } := by
    rw [show chanAt h u.ch = chanAt _ u.ch from congrArg (·.getD u.ch {}) hchans.symm]
    exact hsame
  have hdesc : chDesc (remapRunOver t u details g) u.ch = chDesc h u.ch := congrArg (fun x : Cfg => (x.chan.getD u.ch 3).toNat) hcfg
  simp [remains, measuring, hchan, hdesc]

theorem groupAt_remapRunOver (k : Nat) : groupAt (remapRunOver t u details g) k = groupAt h k :=
  congrArg (·.getD k {}) (hs.jChanges details).groups

theorem tileAt_remapRunOver {k : Nat} (hk : k ≠ t) : tileAt (remapRunOver t u details g) k = tileAt h k :=
  (tileAt_updTile_ne hk ..).trans (congrArg (·.getD k {}) (hs.jChanges details).tiles)

theorem fes_length_remapRunOver : (remapRunOver t u details g).fes.length = h.fes.length := (hs.jChanges details).fes

end

/-! ## The end of a run on a tile that is not its channel's -/

theorem exec_calRunEnd_of_over {tile : Nat} {u : Turn} {s : State} (hu : (tileAt s.hub tile).turn = some u)
    (ho : runOver s.hub tile u = true) (bits : List (List Bool)) (temp : Int) :
    exec (.calRunEnd tile bits temp) s =
      hubNext s (runEnd tile (runOutputs s.hub tile u bits).1 temp u
        (updTile tile (fun y => { y with calChain := (runOutputs s.hub tile u bits).2 }) s.hub)) := by
  simp [exec, execCalRunEnd, hu, ho]

/-- A remap's spare run on a tile that stands on its channel's own tile, another one, too: it has started, the channel takes part, and the
spare is lost. -/
structure StrayRun (h : Hub) (t : Nat) (u : Turn) : Prop where
  step : u.step = .spareRun
  remap : u.remap = true
  started : u.startTick.isSome = true
  ch : u.ch < 512
  chan : u.ch < h.chans.length
  fe : u.fe < h.fes.length
  turn : (tileAt h (tileOfCh u.ch)).turn = some u
  other : tileOfCh u.ch ≠ t
  remains : remains h u.ch = true
  lost : (groupAt h (u.ch / 8)).spareLost = true

theorem StrayRun.updTile {h : Hub} {t : Nat} {u : Turn} (hs : StrayRun h t u) (f : Tile → Tile) : StrayRun (updTile t f h) t u :=
  { hs with
    turn := by rw [tileAt_updTile_ne hs.other]; exact hs.turn
    remains := hs.remains
    lost := hs.lost }

/-- As the one run ends the channel retires, for its spare is lost; that gives up the other, which leaves every entry of the run
ABANDONED. -/
theorem result_of_mem_quality_runEnd {h : Hub} {t : Nat} {u : Turn} (hstray : StrayRun h t u) (outputs : List (List (List Int)))
    (temp : Int) {q : Quality} (hq : q ∈ (feAt (runEnd t outputs temp u h) u.fe).quality) (hmode : q.mode = u.mode)
    (hrange : q.range ∈ u.ranges) : q.result = 3 := by
  obtain ⟨ok, details, g, hs, hrun⟩ := runEnd_eq_afterRun t outputs temp u h
  have hremains : remains (remapRunOver t u details g) u.ch = true := (remains_remapRunOver hs details hstray.chan).trans hstray.remains
  have hlost : (groupAt (remapRunOver t u details g) (u.ch / 8)).spareLost = true := by
    rw [groupAt_remapRunOver hs]; exact hstray.lost
  have hturn : (tileAt (remapRunOver t u details g) (tileOfCh u.ch)).turn = some u := by
    rw [tileAt_remapRunOver hs details hstray.other]; exact hstray.turn
  have hfe : u.fe < (remapRunOver t u details g).fes.length := (fes_length_remapRunOver hs details).symm ▸ hstray.fe
  obtain ⟨source, hafter⟩ :=
    afterRun_of_noSpare hstray.ch hstray.step hstray.remap details hremains (spareUsable_of_spareLost hlost) ok
  have hfes := (fes_noSpareLeft (retiring_of_remains hremains) (ownFe u.ch) source).trans
    (fes_abandonTurn (h := markEntry source (ownFe u.ch) 2 (remapRunOver t u details g)) hturn rfl hstray.started _)
  rw [hrun, hafter, feAt, hfes] at hq
  exact result_of_mem_writeQuality_runQuality (h := markEntry source (ownFe u.ch) 2 (remapRunOver t u details g)) hfe hq hmode hrange

theorem result_of_mem_quality_calRunEnd {s s' : State} {t : Nat} {u : Turn} (hstray : StrayRun s.hub t u)
    (hu : (tileAt s.hub t).turn = some u) (hover : runOver s.hub t u = true) {bits : List (List Bool)} {temp : Int}
    (hexec : exec (.calRunEnd t bits temp) s = .next s') {q : Quality} (hq : q ∈ (feAt s'.hub u.fe).quality) (hmode : q.mode = u.mode)
    (hrange : q.range ∈ u.ranges) : q.result = 3 := by
  rw [exec_calRunEnd_of_over hu hover] at hexec
  obtain rfl := Host.Outcome.next.inj hexec
  exact result_of_mem_quality_runEnd (hstray.updTile _) _ _ hq hmode hrange

/-! ## The counterexample -/

/-- The run of group 16's spare, front end 152, for a REMAP of channel 128, with its path check complete. -/
def strayTurn : Turn :=
  { ch := 128, step := .spareRun, fe := 152, mode := 0, ranges := [0], trigger := 3, startTick := some 0, path := List.replicate 7 0
    remap := true }

/-- A hub with that turn on tile 0 as well as on tile 1, which is channel 128's, and with the spare lost. The hub itself starts a turn on
the tile of its channel alone. -/
def strayHub : Hub :=
  { cfg.chan := (List.replicate 512 3).set 128 0
    groups := (List.replicate 64 {}).set 16 { spareLost := true }
    tiles := [{ turn := some strayTurn }, { turn := some strayTurn }, {}, {}] }

theorem strayRun_strayHub : StrayRun strayHub 0 strayTurn where
  step := rfl
  remap := rfl
  started := rfl
  ch := by decide
  chan := by rw [show strayHub.chans.length = 512 from List.length_replicate]; decide
  fe := by rw [show strayHub.fes.length = 576 from List.length_replicate]; decide
  turn := rfl
  other := by decide
  remains := by decide
  lost := by decide

/-- Refutes O46, by its clause on the end of a run: on `strayHub` the quality entry of the run that ends is ABANDONED (RESULT 3), and no
RESULT of a run's own is. The clause also speaks of a turn that stands on another tile than its channel's. -/
theorem not_calibrationAndHousekeepingEvents : ¬ Obligations.CalibrationAndHousekeepingEvents := by
  intro hob
  obtain ⟨htile, -⟩ := hob
  obtain ⟨-, -, -, hruns, -, -⟩ := htile { hub := strayHub } 0 (by decide) rfl List.length_replicate List.length_replicate
  obtain ⟨hrun, -⟩ := hruns strayTurn [List.replicate rangeBits false] 0 rfl rfl (by decide)
  obtain ⟨t, hexec, hentries⟩ := hrun (Nat.le_refl 0) rfl
  obtain ⟨⟨q, hq, hmode, hrange, hresult, -⟩, -⟩ := hentries 0 _ (List.mem_cons_self ..)
  have habandoned : q.result = 3 :=
    result_of_mem_quality_calRunEnd strayRun_strayHub rfl (by decide) hexec hq hmode (hrange ▸ List.mem_cons_self ..)
  have hscored : q.result ≤ 2 := Nat.le_trans (Nat.le_of_eq hresult) (result_runRange_le ..)
  omega

end Sys2Proof.Machine
end

