-- ==== Sys2Proof/Proofs/Captures.lean ====
section
/-! PROOFS. Flares and captures: what exporting writes and pays for, the end of a REARM interval, member flares, TRIG_IN and flare messages
(07 R152, R153, R157, R169, R171). -/

namespace Sys2Proof.Machine

/-! ## Entries of the tables -/

theorem defAt_updDef_same {d : Nat} {h : Hub} (hd : d < h.cap.defs.length) (f : CapDef → CapDef) :
    defAt (updDef d f h) d = f (defAt h d) := by
  simp [defAt, updDef, updAt, hd]

theorem defAt_updDef_ne {d k : Nat} (hk : k ≠ d) (f : CapDef → CapDef) (h : Hub) : defAt (updDef d f h) k = defAt h k := by
  simp [defAt, updDef, updAt, List.getD_eq_getElem?_getD, hk.symm]

/-- Two changes of one definition are one. -/
theorem updDef_updDef (d : Nat) (f g : CapDef → CapDef) (h : Hub) : updDef d f (updDef d g h) = updDef d (f ∘ g) h := by
  simp [updDef, updAt, List.modify_modify_eq]

/-- A definition that is not as the table's default stands in the table. -/
theorem lt_of_defAt_ne {d : Nat} {h : Hub} (hne : defAt h d ≠ {}) : d < h.cap.defs.length := by
  refine Nat.not_le.mp fun hd => hne ?_
  rw [defAt, List.getD_eq_getElem?_getD, List.getElem?_eq_none hd, Option.getD_none]

theorem linkAt_updLink_same {k : Nat} {h : Hub} (hk : k < h.links.length) (f : Link → Link) :
    linkAt (updLink k f h) k = f (linkAt h k) := by
  simp [linkAt, updLink, updAt, hk]

theorem linkAt_updLink_ne {j k : Nat} (hj : j ≠ k) (f : Link → Link) (h : Hub) : linkAt (updLink k f h) j = linkAt h j := by
  simp [linkAt, updLink, updAt, List.getD_eq_getElem?_getD, hj.symm]

/-! ## The statistics of delivered words (R166, R167) -/

/-- A hub after words have been counted: only the tables of the statistics and of what they hold have moved. -/
def CountsOnly (h g : Hub) : Prop := g = { h with cap.hist := g.cap.hist, cap.maps := g.cap.maps, cap.counted := g.cap.counted }

theorem CountsOnly.refl (h : Hub) : CountsOnly h h := rfl

theorem CountsOnly.trans {h g k : Hub} (hg : CountsOnly h g) (hk : CountsOnly g k) : CountsOnly h k := by
  rw [CountsOnly] at hg
  rw [hg] at hk
  exact hk

theorem countsOnly_countWords (d : Nat) (c : Capture) (s : CapSeg) (pos ch : Nat) (ws : List Word) (h : Hub) :
    CountsOnly h (countWords d c s pos ch ws h) := rfl

theorem countsOnly_countSeg (d : Nat) (c : Capture) (pos : Nat) (s : CapSeg) (h : Hub) : CountsOnly h (countSeg d c pos s h) := by
  unfold countSeg
  split
  · exact .refl h
  · exact List.foldlRecOn _ _ (CountsOnly.refl h) fun g hg x _ => hg.trans (countsOnly_countWords d c s pos x.1 x.2 g)

theorem countsOnly_countSegs (d : Nat) (c : Capture) (ss : List CapSeg) :
    ∀ (pos : Nat) (h : Hub), CountsOnly h (countSegs d c pos ss h) := by
  induction ss with
  | nil => exact fun _ h => .refl h
  | cons s ss ih => exact fun pos h => (countsOnly_countSeg d c pos s h).trans (ih _ _)

/-! ## Exporting one record (R171) -/

theorem lt_of_exporting {d : Nat} {h : Hub} {c : Capture} (hc : exporting (defAt h d) = some c) : d < h.cap.defs.length :=
  lt_of_defAt_ne fun hd => by simp [hd, exporting] at hc

theorem dataChecked_frame (r : Rec) (h : Hub) : dataChecked r h = { h with stream.badBodies := (dataChecked r h).stream.badBodies } := by
  unfold dataChecked
  split <;> rfl

/-- What a record costs the budget: its bytes, each by the tick rate. -/
def exportCost (r : Rec) (h : Hub) : Int := (recLen r * tickHz h.time.tCode : Nat)

theorem exportCost_nonneg (r : Rec) (h : Hub) : 0 ≤ exportCost r h := Int.natCast_nonneg _

/-- The hub once a record that the budget pays for has been written. -/
def exportPaid (d : Nat) (c : Capture) (r : Rec) (run : List CapSeg) (h : Hub) : Hub :=
  updDef d (fun x => { x with budget := x.budget - exportCost r h })
    (updCapture d c.id (fun c => { c with exported := c.exported + sumNat (run.map (·.count)) })
      (countSegs d c c.exported run (emit r (dataChecked r h))))

/-- What exporting does to a hub: records stand behind those already due, and the definition's budget does not grow. -/
structure Exports (d : Nat) (h g : Hub) : Prop where
  frame : g = { h with cap := g.cap, stream.due := g.stream.due, stream.badBodies := g.stream.badBodies }
  due : h.stream.due <+: g.stream.due
  budget : (defAt g d).budget ≤ (defAt h d).budget

theorem Exports.refl (d : Nat) (h : Hub) : Exports d h h := ⟨rfl, ⟨[], List.append_nil _⟩, Int.le_refl _⟩

theorem Exports.trans {d : Nat} {h g k : Hub} (hg : Exports d h g) (hk : Exports d g k) : Exports d h k where
  frame := by
    have hframe := hk.frame
    rw [hg.frame] at hframe
    exact hframe
  due := hg.due.trans hk.due
  budget := Int.le_trans hk.budget hg.budget

section
variable {d : Nat} (c : Capture) (r : Rec) (run : List CapSeg) (h : Hub)

theorem countsOnly_exported : CountsOnly (emit r (dataChecked r h)) (countSegs d c c.exported run (emit r (dataChecked r h))) :=
  countsOnly_countSegs ..

theorem due_exportPaid : (exportPaid d c r run h).stream.due = h.stream.due ++ [r] := by
  have hcounts := congrArg (·.stream.due) (countsOnly_exported (d := d) c r run h)
  have hchecked := congrArg (·.stream.due) (dataChecked_frame r h)
  exact hcounts.trans (congrArg (· ++ [r]) hchecked)

theorem frame_exportPaid :
    exportPaid d c r run h =
      { h with
        cap := (exportPaid d c r run h).cap
        stream.due := (exportPaid d c r run h).stream.due
        stream.badBodies := (exportPaid d c r run h).stream.badBodies } := by
  rw [exportPaid, countsOnly_exported (d := d) c r run h, dataChecked_frame]
  rfl

theorem budget_exportPaid (hd : d < h.cap.defs.length) :
    (defAt (exportPaid d c r run h) d).budget = (defAt h d).budget - exportCost r h := by
  have hdefs : (countSegs d c c.exported run (emit r (dataChecked r h))).cap.defs = h.cap.defs := by
    rw [countsOnly_exported (d := d) c r run h, dataChecked_frame]
    rfl
  rw [exportPaid, updCapture, updDef_updDef, defAt_updDef_same (hdefs ▸ hd), defAt, hdefs]
  rfl

end

section
variable {d : Nat} {h : Hub}

theorem exportOne_of_none (hc : exporting (defAt h d) = none) : exportOne d h = (h, false) := by
  simp [exportOne, hc]

variable {c : Capture} (hc : exporting (defAt h d) = some c)
include hc

theorem exportOne_of_done (hn : nextData h d c = none) : exportOne d h = (dropCapture d c.id h, true) := by
  simp [exportOne, hc, hn]

theorem exports_dropCapture : Exports d h (dropCapture d c.id h) where
  frame := rfl
  due := ⟨[], List.append_nil _⟩
  budget := Int.le_of_eq (by rw [dropCapture, defAt_updDef_same (lt_of_exporting hc)])

theorem exports_exportPaid (r : Rec) (run : List CapSeg) : Exports d h (exportPaid d c r run h) where
  frame := frame_exportPaid c r run h
  due := due_exportPaid c r run h ▸ ⟨[r], rfl⟩
  budget := by
    rw [budget_exportPaid c r run h (lt_of_exporting hc)]
    exact Int.sub_le_self _ (exportCost_nonneg r h)

variable {r : Rec} {run : List CapSeg} (hn : nextData h d c = some (r, run))
include hn

theorem exportOne_of_paid (hb : exportCost r h ≤ (defAt h d).budget) : exportOne d h = (exportPaid d c r run h, true) := by
  simp only [exportOne, hc, hn]
  exact if_pos hb

theorem exportOne_of_unpaid (hb : (defAt h d).budget < exportCost r h) : exportOne d h = (h, false) := by
  simp only [exportOne, hc, hn]
  exact if_neg (Int.not_le.mpr hb)

end

/-! ## Exporting while the budget lasts (R171) -/

theorem exports_exportOne (d : Nat) (h : Hub) : Exports d h (exportOne d h).1 := by
  cases hc : exporting (defAt h d) with
  | none => rw [exportOne_of_none hc]; exact .refl d h
  | some c =>
    cases hn : nextData h d c with
    | none => rw [exportOne_of_done hc hn]; exact exports_dropCapture hc
    | some x =>
      by_cases hb : exportCost x.1 h ≤ (defAt h d).budget
      · rw [exportOne_of_paid hc hn hb]; exact exports_exportPaid hc ..
      · rw [exportOne_of_unpaid hc hn (Int.not_le.mp hb)]; exact .refl d h

theorem exports_exportFuel (n d : Nat) : ∀ h : Hub, Exports d h (exportFuel n d h) := by
  induction n with
  | zero => exact .refl d
  | succ n ih =>
    intro h
    simp only [exportFuel]
    split
    · exact (exports_exportOne d h).trans (ih _)
    · exact exports_exportOne d h

/-- CAPTURE_DATA_EXPORT tries one record at least. -/
theorem exec_captureDataExport_eq (d : Nat) (s : State) :
    ∃ n, exec (.captureDataExport d) s = hubNext s (exportFuel (n + 1) d s.hub) := ⟨_, rfl⟩

theorem exec_captureDataExport_of_none {d : Nat} {s : State} (hc : exporting (defAt s.hub d) = none) :
    exec (.captureDataExport d) s = .next s := by
  obtain ⟨n, hexec⟩ := exec_captureDataExport_eq d s
  simp [hexec, exportFuel, exportOne_of_none hc, hubNext]

/-- A record that the budget pays for is written first, and exporting goes on from there. -/
theorem exec_captureDataExport_of_paid {d : Nat} {s : State} {c : Capture} {r : Rec} {run : List CapSeg}
    (hc : exporting (defAt s.hub d) = some c) (hn : nextData s.hub d c = some (r, run))
    (hb : exportCost r s.hub ≤ (defAt s.hub d).budget) :
    ∃ t, exec (.captureDataExport d) s = hubNext s t ∧ Exports d (exportPaid d c r run s.hub) t := by
  obtain ⟨n, hexec⟩ := exec_captureDataExport_eq d s
  exact ⟨_, by simp [hexec, exportFuel, exportOne_of_paid hc hn hb], exports_exportFuel n d _⟩

/-! ## The end of a capture's post window (R157) -/

theorem rearmDef_of_over {now : Inst} {x : CapDef} (hr : x.state = .running) (ho : ∀ c ∈ x.caps, capRuns c now = false) :
    rearmDef now x =
      { x with state := .armed, rearmFrom := ((x.caps.getLast?).map lastGrid).getD x.rearmFrom, rearmTo := now } := by
  have hnone : x.caps.any (fun c => capRuns c now) = false := by simpa using ho
  simp [rearmDef, hr, hnone]

/-! ## Member flares (R152) -/

theorem keptFor_iff {h : Hub} {cu : Nat} {m : Member} :
    keptFor h cu m = true ↔
      isMember h cu m.unit = true ∧ 250000 * h.time.op4k ≤ 250000 * m.decided + fC (unitDesc h cu) + 1000000000 := by
  simp [keptFor, Nat.mul_comm]

theorem mem_members_expireMembers {h : Hub} {sel : Nat → Bool} {m : Member} :
    m ∈ (expireMembers sel h).cap.members ↔ m ∈ h.cap.members ∧ (sel m.unit = true → ∃ cu < 16, keptFor h cu m = true) := by
  cases hs : sel m.unit <;> simp [expireMembers, hs]

/-! ## Events behind those that wait -/

/-- A hub with further events behind those that wait. -/
def addEvents (es : List EventFlare) (h : Hub) : Hub := { h with cap.events := h.cap.events ++ es }

theorem addEvents_nil (h : Hub) : addEvents [] h = h := by simp [addEvents]

theorem addEvents_addEvents (es fs : List EventFlare) (h : Hub) : addEvents fs (addEvents es h) = addEvents (es ++ fs) h := by
  simp [addEvents]

/-! ## TRIG_IN (R153) -/

/-- A unit takes the edges of a sense of TRIG_IN. -/
def takesEdge (h : Hub) (rising : Bool) (u : Nat) : Bool := unitOn h u 4 && fBelow (unitDesc h u) != rising

theorem takesEdge_iff {h : Hub} {rising : Bool} {u : Nat} :
    takesEdge h rising u = true ↔ fEnable (unitDesc h u) = true ∧ fSource (unitDesc h u) = 4 ∧ fBelow (unitDesc h u) ≠ rising := by
  simp [takesEdge, unitOn, and_assoc]

/-- The event of an edge, for the coming tick. -/
def edgeEvent (h : Hub) (st : Inst) (u : Nat) : EventFlare :=
  { unit := u, inst := st, epoch := h.time.epoch, shift := some h.time.shift, due := h.time.tick + 1 }

/-- An event that no waiting one stands for waits behind the others. -/
theorem queueEvent_of_new {e : EventFlare} {h : Hub} (hn : ∀ x ∈ h.cap.events, x.inst = e.inst → x.unit ≠ e.unit) :
    queueEvent e h = addEvents [e] h := by
  have hnone : h.cap.events.any (fun x => x.unit == e.unit && decide (x.inst = e.inst)) = false := by
    simpa [imp_not_comm] using hn
  simp [queueEvent, hnone, addEvents]

/-- Units in turn queue their events of an edge, each its own. -/
theorem foldl_queueEvent {rising : Bool} {st : Inst} {us : List Nat} (hu : us.Nodup) {h : Hub}
    (hn : ∀ x ∈ h.cap.events, x.inst = st → x.unit ∉ us) :
    us.foldl (fun g u => if takesEdge g rising u then queueEvent (edgeEvent g st u) g else g) h =
      addEvents ((us.filter (takesEdge h rising)).map (edgeEvent h st)) h := by
  induction us generalizing h with
  | nil => exact (addEvents_nil h).symm
  | cons u us ih =>
    obtain ⟨hfresh, hnodup⟩ := List.nodup_cons.mp hu
    have hothers : ∀ x ∈ h.cap.events, x.inst = st → x.unit ∉ us := fun x hx hi hmem => hn x hx hi (List.mem_cons_of_mem _ hmem)
    rw [List.foldl_cons]
    cases ht : takesEdge h rising u with
    | false => rw [List.filter_cons_of_neg (by simp [ht])]; exact ih hnodup hothers
    | true =>
      have hqueue : queueEvent (edgeEvent h st u) h = addEvents [edgeEvent h st u] h :=
        queueEvent_of_new fun x hx hi hxu => hn x hx hi (hxu ▸ List.mem_cons_self ..)
      have hrest := ih hnodup (h := addEvents [edgeEvent h st u] h) fun x hx hi => by
        rcases List.mem_append.mp hx with hold | hnew
        · exact hothers x hold hi
        · rw [List.mem_singleton.mp hnew]; exact hfresh
      rw [if_pos rfl, hqueue, hrest, addEvents_addEvents, List.filter_cons_of_pos ht]
      rfl

theorem us_one : us 1 = 65536000 := rfl

/-- The events of an accepted edge, one of each unit that takes it. -/
def edgeEvents (h : Hub) (rising : Bool) (st : Inst) : List EventFlare :=
  ((List.range 16).filter (takesEdge h rising)).map (edgeEvent h st)

theorem eq_edgeEvent_of_mem {h : Hub} {rising : Bool} {st : Inst} {e : EventFlare} (he : e ∈ edgeEvents h rising st) :
    e = edgeEvent h st e.unit := by
  obtain ⟨u, -, rfl⟩ := List.mem_map.mp he
  rfl

theorem exists_mem_edgeEvents_iff {h : Hub} {rising : Bool} {st : Inst} {u : Nat} :
    (∃ e ∈ edgeEvents h rising st, e.unit = u) ↔ u < 16 ∧ takesEdge h rising u = true := by
  have hunit : (∃ e ∈ edgeEvents h rising st, e.unit = u) ↔ u ∈ (List.range 16).filter (takesEdge h rising) := by
    constructor
    · rintro ⟨e, he, rfl⟩
      obtain ⟨k, hk, rfl⟩ := List.mem_map.mp he
      exact hk
    · exact fun hu => ⟨edgeEvent h st u, List.mem_map.mpr ⟨u, hu, rfl⟩, rfl⟩
  rw [hunit, List.mem_filter, List.mem_range]

section
variable {rising : Bool} {t : Inst} {h : Hub}

/-- An edge within 1 µs of the last accepted one is ignored. -/
theorem trigInEdge_of_close {l : Inst} (hl : h.cap.lastTrig = some l) (hc : t / 262144 * 262144 ≤ l + us 1) :
    trigInEdge rising t h = h := by
  simp [trigInEdge, hl, Int.not_lt.mpr hc]

theorem trigInEdge_of_accepted (ha : isActive h = true) (hl : ∀ l, h.cap.lastTrig = some l → l + us 1 < t / 262144 * 262144)
    (hn : ∀ e ∈ h.cap.events, e.inst ≠ t / 262144 * 262144) :
    trigInEdge rising t h =
      addEvents (edgeEvents h rising (t / 262144 * 262144)) { h with cap.lastTrig := some (t / 262144 * 262144) } := by
  refine Eq.trans ?_ (foldl_queueEvent (h := { h with cap.lastTrig := some (t / 262144 * 262144) }) (List.nodup_range (n := 16))
    fun x hx hi => absurd hi (hn x hx))
  cases hlast : h.cap.lastTrig with
  | none => simp [trigInEdge, takesFlares, ha, hlast, takesEdge, edgeEvent]
  | some l => simp [trigInEdge, takesFlares, ha, hlast, hl l hlast, takesEdge, edgeEvent]

end

/-! ## Flare messages (R169) -/

/-- REMOTE units only add events. -/
theorem matchRemote_eq (done : Nat) (msg : Bytes) (h : Hub) : ∃ es, matchRemote done msg h = addEvents es h := by
  unfold matchRemote
  split
  · exact ⟨[], (addEvents_nil h).symm⟩
  · refine List.foldlRecOn (motive := fun g => ∃ es, g = addEvents es h) _ _ ⟨[], (addEvents_nil h).symm⟩ ?_
    rintro g ⟨es, rfl⟩ u -
    split
    · exact ⟨_, addEvents_addEvents ..⟩
    · exact ⟨es, rfl⟩

/-- A flare message as it goes on: one hop less is left, one more is done. -/
def onwardFlare (msg : Bytes) : Bytes :=
  flareMessage (fieldAt msg 0 4) (fieldAt msg 4 1) (fieldAt msg 5 1 - 1) (fieldAt msg 6 1 + 1) (fieldAt msg 8 4) (msg.drop 16)

/-- The hub once a flare message from a bond has gone on over the other, where hops remain. -/
def forwardFlare (link : Nat) (msg : Bytes) (h : Hub) : Hub :=
  if 1 < fieldAt msg 5 1 then updLink (1 - link) (putFlare (onwardFlare msg)) h else h

theorem forwardFlare_of_hops {msg : Bytes} (hm : 1 < fieldAt msg 5 1) (link : Nat) (h : Hub) :
    forwardFlare link msg h = updLink (1 - link) (putFlare (onwardFlare msg)) h := if_pos hm

theorem forwardFlare_of_last {msg : Bytes} (hm : fieldAt msg 5 1 ≤ 1) (link : Nat) (h : Hub) : forwardFlare link msg h = h :=
  if_neg (Nat.not_lt.mpr hm)

theorem forwardFlare_frame (link : Nat) (msg : Bytes) (h : Hub) :
    forwardFlare link msg h = { h with links := (forwardFlare link msg h).links } := by
  unfold forwardFlare
  split <;> rfl

theorem linkAt_forwardFlare_same {link : Nat} (hl : link ≤ 1) (msg : Bytes) (h : Hub) :
    linkAt (forwardFlare link msg h) link = linkAt h link := by
  unfold forwardFlare
  split
  · exact linkAt_updLink_ne (by omega) ..
  · rfl

theorem flareReceipt_eq {link : Nat} {msg : Bytes} (hl : link ≤ 1) (hm : msg.length = 32) (h : Hub) :
    ∃ es, flareReceipt link msg h = addEvents es (forwardFlare link msg h) := by
  obtain ⟨es, hes⟩ := matchRemote_eq (fieldAt msg 6 1 + 1) msg (forwardFlare link msg h)
  refine ⟨es, hes ▸ ?_⟩
  simp only [flareReceipt, hm, Nat.not_lt.mpr hl, ne_eq, not_true_eq_false, decide_false, Bool.or_self, Bool.false_eq_true, if_false]
  rfl

theorem isStandby_addEvents_forwardFlare (es : List EventFlare) (link : Nat) (msg : Bytes) (h : Hub) :
    isStandby (addEvents es (forwardFlare link msg h)) = isStandby h := by
  rw [forwardFlare_frame]
  rfl

/-- On an up bond of a hub that is no standby a flare message goes on and is matched, and nothing else. -/
theorem exec_flareMessageReceipt_of_up {s : State} {link : Nat} {msg : Bytes} (hup : isUp s.hub = true) (hl : link ≤ 1)
    (hlink : (linkAt s.hub link).up = true) (hm : msg.length = 32) (hs : isStandby s.hub = false) :
    ∃ es, exec (.flareMessageReceipt link msg) s = hubNext s (addEvents es (forwardFlare link msg s.hub)) := by
  obtain ⟨es, hes⟩ := flareReceipt_eq hl hm s.hub
  refine ⟨es, ?_⟩
  simp [exec, execFlareMessageReceipt, linkRuns, hup, hlink, flareArrives, hes, isStandby_addEvents_forwardFlare, hs]

/-- Settles O48: CAPTURE_DATA_EXPORT by `exportFuel`, a record of it by `exportOne`; the other rows by `rearmDef`, `expireMembers`,
`trigInEdge` and `flareReceipt`. That the budget counts bytes·T, and that exporting starts from the bound of `exportBound`, is the model's
reading (log 20). -/
theorem flareAndCaptureEvents : Obligations.FlareAndCaptureEvents := by
  intro s i
  dsimp only
  refine ⟨fun c r run hc hn hb => ?_, exec_captureDataExport_of_none, fun hrun hover => ?_, ⟨_, rfl, fun m => ?_⟩,
    fun rising dt ha => ⟨fun l hl hclose => ?_, fun hlast hnew => ?_⟩, fun link msg hup hl hlink hm hs hlinks => ?_⟩
  · obtain ⟨t, hexec, hrest⟩ := exec_captureDataExport_of_paid hc hn (by exact_mod_cast hb)
    have hall := (exports_exportPaid hc r run).trans hrest
    have hbudget := hrest.budget
    rw [budget_exportPaid c r run s.hub (lt_of_exporting hc), exportCost] at hbudget
    refine ⟨t, hexec, hall.frame, due_exportPaid c r run s.hub ▸ hrest.due, ?_⟩
    push_cast at hbudget
    omega
  · have hi : i < s.hub.cap.defs.length := lt_of_defAt_ne fun hd => by simp [hd] at hrun
    have hdef := (defAt_updDef_same hi (rearmDef (frameEnd s.hub))).trans (rearmDef_of_over hrun hover)
    exact ⟨_, rfl, congrArg CapDef.state hdef, congrArg CapDef.rearmTo hdef, (congrArg CapDef.caps hdef).trans rfl,
      fun d hd => defAt_updDef_ne hd _ s.hub⟩
  · exact (mem_members_expireMembers (h := s.hub) (sel := (· == i))).trans (by simp [keptFor_iff])
  · rw [← us_one] at hclose
    exact congrArg (hubNext s) (trigInEdge_of_close hl hclose)
  · refine ⟨_, congrArg (hubNext s) (trigInEdge_of_accepted ha hlast hnew), fun e he => ?_, fun u => ?_⟩
    · rw [eq_edgeEvent_of_mem he]
      exact ⟨rfl, rfl, rfl⟩
    · rw [exists_mem_edgeEvents_iff, takesEdge_iff]
  · obtain ⟨es, hexec⟩ := exec_flareMessageReceipt_of_up hup hl hlink hm hs
    refine ⟨_, hexec, ?_, linkAt_forwardFlare_same hl msg s.hub, fun hlast => ?_, fun hhops => ?_, ?_⟩
    · rw [forwardFlare_frame]; rfl
    · rw [forwardFlare_of_last hlast]; rfl
    · rw [forwardFlare_of_hops hhops]
      exact linkAt_updLink_same (by omega) _
    · rw [forwardFlare_frame]; exact ⟨es, rfl⟩

end Sys2Proof.Machine
end

