-- ==== Sys2Proof/Proofs/LateCommands.lean ====
section
/-! PROOFS. Commands that end later: what each leaves and the completion notice it sends (08 R195, 13 R322, R334, R335, 14 R354, R366). -/

namespace Sys2Proof.Machine

/-! ## Firmware (R334, R335) -/

/-- No check answers RESULT 6, which R366 keeps for a read-back that fails. -/
theorem imageCheck_ne_six (get : Nat → Byte) (h : Hub) : imageCheck get h ≠ 6 := by
  unfold imageCheck
  iterate 5 refine iteInduction (motive := (· ≠ 6)) (fun _ => by decide) fun _ => ?_
  decide

@[simp] theorem setOther_fw (i : Image) (h : Hub) : (setOther i h).fw = h.fw := by unfold setOther; split <;> rfl

@[simp] theorem setOther_faults (i : Image) (h : Hub) : (setOther i h).faults = h.faults := by unfold setOther; split <;> rfl

/-- The image slot that is not running takes the image. -/
theorem setOther_written (i : Image) (h : Hub) :
    (if h.flash.running = 0 then (setOther i h).flash.imageB else (setOther i h).flash.imageA) = i := by
  by_cases hr : h.flash.running = 0 <;> simp [setOther, hr]

/-- The running image slot stays. -/
theorem setOther_kept (i : Image) (h : Hub) :
    if h.flash.running = 0 then (setOther i h).flash.imageA = h.flash.imageA else (setOther i h).flash.imageB = h.flash.imageB := by
  by_cases hr : h.flash.running = 0 <;> simp [setOther, hr]

/-- RESULT of the staged image. -/
def stagedResult (h : Hub) : Nat := imageCheck (readByte h.fw.staging) h

/-- The hub once the staged image stands in the slot that is not running, installed or not. -/
def afterInstall (ok : Bool) (h : Hub) : Hub := setOther (stagedImage ok h) { h with fw.installing := none }

section
variable {s : State} {r : Req}

theorem exec_fwVerifyDone_of_verifying (hv : s.hub.fw.verifying = some r) :
    exec .fwVerifyDone s =
      .next (sendNotice 0x0B08 r rOk (fwNotice (stagedResult s.hub) 0xFF s.hub)
        { s with hub := { s.hub with fw.verifying := none, fw.verified := stagedResult s.hub == 0 } }) := by
  simp [exec, execFwVerifyDone, verifyDone, hv, stagedResult]

variable (hi : s.hub.fw.installing = some r)
include hi

theorem exec_fwInstallDone_of_readBack :
    exec (.fwInstallDone true) s =
      .next (sendNotice 0x0B09 r rOk (fwNotice (stagedResult s.hub) (1 - s.hub.flash.running) s.hub)
        { s with hub := afterInstall (stagedResult s.hub == 0) s.hub }) := by
  simp [exec, execFwInstallDone, installDone, hi, stagedResult, afterInstall, imageCheck_ne_six]

theorem exec_fwInstallDone_of_badReadBack :
    exec (.fwInstallDone false) s =
      .next (sendNotice 0x0B09 r rFault (fwNotice 6 (1 - s.hub.flash.running) s.hub)
        { s with hub := raiseNow 0xD6 (1 - s.hub.flash.running) 0 0 (afterInstall false s.hub) }) := by
  simp [exec, execFwInstallDone, installDone, hi, afterInstall]

end

theorem installed_afterInstall (ok : Bool) (h : Hub) :
    (if h.flash.running = 0 then (afterInstall ok h).flash.imageB else (afterInstall ok h).flash.imageA).installed = ok :=
  congrArg Image.installed (setOther_written (stagedImage ok h) { h with fw.installing := none })

theorem kept_afterInstall (ok : Bool) (h : Hub) :
    if h.flash.running = 0 then (afterInstall ok h).flash.imageA = h.flash.imageA
    else (afterInstall ok h).flash.imageB = h.flash.imageB :=
  setOther_kept (stagedImage ok h) { h with fw.installing := none }

/-! ## Compression jobs (R195) -/

/-- A job that asks for its cancellation stops before its next body, whatever became of its capture. -/
theorem jobRun_of_cancelAsked {x : Job} (hx : x.cancelAsked = true) (h : Hub) : jobRun h x = (h.stream.badBodies, x, .cancelled) := by
  unfold jobRun jobSome
  cases windowCapture h x.def_ x.capId with
  | none => simp [hx]
  | some c => simp [jobFuel, jobBody, hx]

/-- A job that has stopped. -/
def stoppedJob (x : Job) (reason : JobStop) : Job :=
  { x with running := false, stop := some reason, cancelAsked := false, sourceLost := false }

theorem exec_compressJobStop_of_running {s : State} {j : Nat} {x : Job} (hj : jobAt s.hub j = some x) (hx : x.running = true) :
    exec (.compressJobStop j) s =
      let run := jobRun s.hub x
      let y := stoppedJob run.2.1 run.2.2
      .next (sendNotice (jobCode x.req) x.req (stopStatus run.2.2) (jobNotice j y run.2.2)
        { s with hub := { setJob j (some y) s.hub with stream.badBodies := run.1 } }) := by
  simp [exec, execCompressJobStop, jobStop, hj, hx, stoppedJob]

/-! ## System calibration windows (R111 to R113, R354) -/

theorem exec_calSystemWindowClose_of_full {s : State} {ch : Nat} {w : CalWin} (hw : (chanAt s.hub ch).calWin = some w)
    (hn : w.n ≤ w.count) :
    exec (.calSystemWindowClose ch) s =
      let o := winEval s.hub ch w
      .next (sendNotice 0x0302 w.req rOk
        (winNotice ch w o o.g o.o (if o.result = 0 ∧ w.step ≠ 0 then streamTick s.hub + 1 else 0))
        { s with hub := windowEffect ch w o s.hub }) := by
  simp [exec, execCalSystemWindowClose, windowClose, hw, Nat.not_lt.mpr hn]

theorem winEval_result_of_badSlot {w : CalWin} (hg : w.allGood = false) (h : Hub) (ch : Nat) : (winEval h ch w).result = 1 := by
  simp [winEval, hg]

/-- The hub without a channel's window. -/
def withoutWin (ch : Nat) (h : Hub) : Hub := updChan ch (fun x => { x with calWin := none }) h

/-- A channel's coefficients by an evaluated window, for the mode and range the channel is in. -/
def winCoef (h : Hub) (ch : Nat) (o : WinOut) : SysCoef := ⟨ch, dMode (chDesc h ch), (chanAt h ch).rangeNow, o.g, o.o⟩

/-- The coefficients in use before those of a window. -/
def usedCoef (h : Hub) (ch : Nat) : Nat × Int :=
  storedSys (withoutWin ch h) ch (dMode (chDesc h ch)) (chanAt h ch).rangeNow

/-- The hub whose channel has new coefficients for the coming tick in place of its window. -/
def withCoef (ch : Nat) (o : WinOut) (h : Hub) : Hub :=
  updChan ch (fun x => { x with newSys := some (winCoef h ch o, usedCoef h ch) }) (withoutWin ch h)

section
variable {ch : Nat} {w : CalWin} {o : WinOut} {h : Hub}

theorem windowEffect_of_disagrees (ho : o.result = 2) :
    windowEffect ch w o h =
      raiseNow (tileBase (tileOfCh ch) + 7) ((chanAt (withoutWin ch h) ch).fe.getD (ownFe ch)) 3 0 (withoutWin ch h) :=
  if_pos ho

theorem windowEffect_of_rejected (h2 : o.result ≠ 2) (h0 : o.result ≠ 0) : windowEffect ch w o h = withoutWin ch h :=
  (if_neg h2).trans (if_pos h0)

theorem windowEffect_of_zero (ho : o.result = 0) (hs : w.step = 0) :
    windowEffect ch w o h =
      updChan ch (fun x => { x with zero := some (dMode (chDesc h ch), (chanAt h ch).rangeNow, o.mean, w.target) })
        (withoutWin ch h) := by
  simp [windowEffect, ho, hs, withoutWin, chanModeRange]

/-- An accepted SPAN or TARE touches, of the channels, its own alone. -/
theorem windowEffect_chans_of_coef (ho : o.result = 0) (hs : w.step ≠ 0) :
    (windowEffect ch w o h).chans = (withCoef ch o h).chans := by
  have hagrees : o.result ≠ 2 := by omega
  simp only [windowEffect, if_neg hagrees, if_neg (not_not_intro ho), if_neg hs, changeRec_chans]
  rfl

theorem chanAt_congr {g k : Hub} (hg : g.chans = k.chans) (c : Nat) : chanAt g c = chanAt k c := congrArg (·.getD c {}) hg

theorem length_withoutWin : (withoutWin ch h).chans.length = h.chans.length := List.length_modify ..

variable (hc : ch < h.chans.length)
include hc

theorem calWin_withoutWin : (chanAt (withoutWin ch h) ch).calWin = none := by
  rw [withoutWin, chanAt_updChan_same hc]

theorem chanAt_withCoef :
    chanAt (withCoef ch o h) ch = { chanAt (withoutWin ch h) ch with newSys := some (winCoef h ch o, usedCoef h ch) } :=
  chanAt_updChan_same (Nat.lt_of_lt_of_eq hc length_withoutWin.symm) _

theorem calWin_windowEffect : (chanAt (windowEffect ch w o h) ch).calWin = none := by
  by_cases h2 : o.result = 2
  · rw [windowEffect_of_disagrees h2, chanAt_congr (raiseNow_chans ..), calWin_withoutWin hc]
  by_cases h0 : o.result = 0
  · by_cases hs : w.step = 0
    · rw [windowEffect_of_zero h0 hs, chanAt_updChan_same (Nat.lt_of_lt_of_eq hc length_withoutWin.symm)]
      exact calWin_withoutWin hc
    · rw [chanAt_congr (windowEffect_chans_of_coef h0 hs), chanAt_withCoef hc]
      exact calWin_withoutWin hc
  · rw [windowEffect_of_rejected h2 h0, calWin_withoutWin hc]

theorem newSys_windowEffect (ho : o.result = 0) (hs : w.step ≠ 0) :
    (chanAt (windowEffect ch w o h) ch).newSys = some (winCoef h ch o, usedCoef h ch) := by
  rw [chanAt_congr (windowEffect_chans_of_coef ho hs), chanAt_withCoef hc]

end

/-- Settles O29: each end is its row's equation (`exec_fwVerifyDone_of_verifying` and those like it); a cancelled job keeps its buffer by
`jobRun_of_cancelAsked`, and what a window leaves follows its RESULT and step (`windowEffect_of_rejected`, `newSys_windowEffect`). -/
theorem lateCommandsSendTheirNotice : Obligations.LateCommandsSendTheirNotice := by
  intro s r
  dsimp only
  refine ⟨exec_fwVerifyDone_of_verifying, fun hi => ⟨?readBack, ?badReadBack⟩, fun j x hj hx => ?job, fun ch w hw hn hc => ?window⟩
  case readBack =>
    exact ⟨_, exec_fwInstallDone_of_readBack hi, setOther_fw .., setOther_faults .., installed_afterInstall .., kept_afterInstall ..⟩
  case badReadBack =>
    refine ⟨_, exec_fwInstallDone_of_badReadBack hi, asserted_raiseFault_same .., ?_⟩
    rw [raiseNow_flash]
    exact installed_afterInstall false s.hub
  case job =>
    refine ⟨_, exec_compressJobStop_of_running hj hx, rfl, rfl, rfl, rfl, rfl, fun hcancel => ?_⟩
    rw [jobRun_of_cancelAsked hcancel]
    exact ⟨rfl, rfl⟩
  case window =>
    refine ⟨_, exec_calSystemWindowClose_of_full hw hn, calWin_windowEffect hc, fun hbad => ?_,
      fun ho hs => ⟨_, newSys_windowEffect hc ho hs⟩⟩
    have hresult := winEval_result_of_badSlot hbad s.hub ch
    exact ⟨hresult, windowEffect_of_rejected (by simp [hresult]) (by simp [hresult])⟩

end Sys2Proof.Machine
end

