-- ==== Sys2Proof/Proofs/RecordBook.lean ====
section
/-! PROOFS. The record book: what each operation on the stream does to the counts that R213 relates, and the counts of a LEDGER (09 R203, R204,
R211 to R213, R223 to R226, 08 R190). -/

namespace Sys2Proof.Machine

/-! ## The book -/

/-- The record book of a hub: the counts that R213 relates. -/
structure Book where
  assigned : Nat
  acked : Nat
  held : Nat
  uncopied : Nat
  withdrawn : Nat

/-- The hub's record book. -/
def book (h : Hub) : Book :=
  { assigned := h.stream.assigned, acked := h.stream.acked, held := h.stream.reserve.length, uncopied := h.stream.uncopied
    withdrawn := h.stream.withdrawn }

/-- Every assigned number is acknowledged, held, still to be copied or withdrawn. -/
def Book.Balanced (b : Book) : Prop := b.assigned = b.acked + (b.held + b.uncopied) + b.withdrawn

theorem balanced_iff_book {h : Hub} : balanced h ↔ (book h).Balanced := Iff.rfl

theorem balanced_of_book_eq {g h : Hub} (hb : book g = book h) (h0 : balanced h) : balanced g := by
  rw [balanced_iff_book] at h0 ⊢
  rwa [hb]

@[simp] theorem book_updChan (c : Nat) (f : Chan → Chan) (h : Hub) : book (updChan c f h) = book h := rfl
@[simp] theorem book_bodyChecked (h : Hub) : book (bodyChecked h) = book h := rfl
@[simp] theorem book_emit (r : Rec) (h : Hub) : book (emit r h) = book h := rfl

/-- The part of a list that a condition selects, and the rest, are the whole. -/
theorem length_eq_length_filter_add_not {α : Type} (p : α → Bool) (l : List α) :
    l.length = (l.filter p).length + (l.filter (!p ·)).length := by
  have hnot : (fun a => decide ¬p a = true) = (!p ·) := funext fun a => by cases p a <;> rfl
  rw [List.length_eq_countP_add_countP p, hnot, List.countP_eq_length_filter, List.countP_eq_length_filter]

/-! ## Slots and the ledger's columns -/

/-- Moving slot counts between columns leaves the stream alone. -/
@[simp] theorem countSlots_stream (ss : List (Nat × Nat)) (f : Nat → Chan → Chan) (h : Hub) : (countSlots ss f h).stream = h.stream :=
  List.foldlRecOn (motive := fun g : Hub => g.stream = h.stream) ss _ rfl fun _ hg _ _ => hg

/-- The custody of acknowledged records' slots leaves the stream alone. -/
theorem foldl_bookCustody_stream (rs : List Rec) (h : Hub) :
    (rs.foldl (fun h r => bookCustody (recSlots r) h) h).stream = h.stream :=
  List.foldlRecOn (motive := fun g : Hub => g.stream = h.stream) rs _ rfl fun _ hg _ _ => (countSlots_stream ..).trans hg

/-! ## Assignment (R203) -/

/-- The book after one more number has been assigned, to a record that is held. -/
def Book.assignOne (b : Book) : Book := { b with assigned := b.assigned + 1, held := b.held + 1 }

theorem book_of_stream_eq {g h : Hub} (hs : g.stream = h.stream) : book g = book h := by simp only [book, hs]

theorem book_assignAt (st : Stamp) (h : Hub) (r : Rec) : book (assignAt st h r) = (book h).assignOne := by
  unfold assignAt
  extract_lets q r _ gLedger gSlots span _ gNamed _ _ gHeld
  have hledger : book gLedger = book h := by unfold gLedger; split <;> rfl
  have hslots : book gSlots = book gLedger := book_of_stream_eq (countSlots_stream ..)
  have hnamed : book gNamed = book gSlots := by unfold gNamed; split <;> rfl
  have hheld : book gHeld = (book gNamed).assignOne := by simp +zetaDelta [book, Book.assignOne]
  have hall : book gHeld = (book h).assignOne := by rw [hheld, hnamed, hslots, hledger]
  split
  · exact (book_of_stream_eq (jChange_stream ..)).trans hall
  · exact hall

theorem balanced_assign {h : Hub} (hb : balanced h) (r : Rec) : balanced (assign h r) := by
  rw [balanced_iff_book, assign, book_assignAt]
  simp only [balanced, Book.Balanced, Book.assignOne, book] at hb ⊢
  omega

/-! ## Acknowledgement (R226) -/

theorem balanced_applyAcks {h : Hub} (hb : balanced h) : balanced (applyAcks h) := by
  have hsplit := length_eq_length_filter_add_not (fun x => inRanges h.stream.acks x.record.seq) h.stream.reserve
  unfold balanced applyAcks
  rw [foldl_bookCustody_stream]
  simp only [balanced, List.length_map] at hb ⊢
  omega

/-! ## Repair (08 R190) -/

@[simp] theorem length_reseedAt (bad : Bool) (c k : Nat) (rs : List Rec) : (reseedAt bad c k rs).1.length = rs.length := by
  induction rs generalizing k with
  | nil => simp [reseedAt]
  | cons r rest ih =>
    cases k with
    | zero => rfl
    | succ k => simp [reseedAt, ih]

/-- Repair re-encodes records; it moves none in the book. -/
theorem book_repairFuel (gone : List Rec) (n : Nat) (work : List (Nat × Nat)) (h : Hub) :
    book (repairFuel gone n work h) = book h := by
  induction n generalizing work h with
  | zero => rfl
  | succ n ih =>
    match work with
    | [] => rfl
    | (c, seq) :: more =>
      simp only [repairFuel]
      split
      case h_1 => exact ih ..
      case h_2 => exact (ih ..).trans (book_updChan ..)
      case h_3 q _ =>
        split
        · exact ih ..
        · rw [ih]
          simp [book, bodyChecked]
      case h_4 k _ => exact (ih ..).trans rfl

theorem book_repair (gone : List Rec) (h : Hub) : book (repair gone h) = book h := book_repairFuel ..

/-! ## Withdrawal and drops (R223, R225) -/

theorem balanced_withdraw {h : Hub} (hb : balanced h) (reason : Nat) (sel : Held → Bool) : balanced (withdraw reason sel h) := by
  have hsplit := length_eq_length_filter_add_not sel h.stream.reserve
  unfold withdraw
  dsimp only
  split
  · exact hb
  · rw [balanced_iff_book, book_emit, book_repair]
    simp only [balanced, Book.Balanced, book, List.length_map] at hb ⊢
    omega

theorem balanced_dropSpan {h : Hub} (hb : balanced h) : balanced (dropSpan h) := by
  unfold dropSpan
  split
  · exact hb
  · exact balanced_withdraw hb ..

theorem balanced_dropFuel (n : Nat) {h : Hub} (hb : balanced h) : balanced (dropFuel n h) := by
  induction n generalizing h with
  | zero => exact hb
  | succ n ih =>
    unfold dropFuel
    split
    · exact hb
    · split
      · exact ih (balanced_dropSpan hb)
      · exact hb

theorem balanced_makeDrops {h : Hub} (hb : balanced h) : balanced (makeDrops h) := by
  unfold makeDrops
  split
  · exact balanced_dropFuel _ hb
  · exact hb

/-! ## Release (R204) -/

theorem balanced_releaseDue {h : Hub} (hb : balanced h) : balanced (releaseDue h) :=
  List.foldlRecOn (motive := balanced) _ _ hb fun _ hg r _ => balanced_assign hg r

/-- A hub that emits no stream drops what fell due (13 R331, log 27). -/
theorem stream_releaseDue_of_not_runsInFull {h : Hub} (hr : runsInFull h = false) :
    (releaseDue h).stream = { h.stream with due := [] } := by
  simp [releaseDue, hr]

/-! ## The LEDGER (R211, R213) -/

section
variable (h : Hub) (chs : List Nat)

theorem assigned_ledgerPayload : fieldAt (ledgerPayload h chs) 16 8 = h.stream.assigned % 2 ^ 64 := by
  unfold ledgerPayload
  iterate 5 rw [fieldAt_before (by simp [zeros])]
  rw [fieldAt_behind (by simp [zeros]) (leNat_length ..), ofLe_leNat]

theorem acked_ledgerPayload : fieldAt (ledgerPayload h chs) 24 8 = h.stream.acked % 2 ^ 64 := by
  unfold ledgerPayload
  iterate 4 rw [fieldAt_before (by simp [zeros])]
  rw [fieldAt_behind (by simp [zeros]) (leNat_length ..), ofLe_leNat]

theorem held_ledgerPayload : fieldAt (ledgerPayload h chs) 32 8 = (h.stream.reserve.length + h.stream.uncopied) % 2 ^ 64 := by
  unfold ledgerPayload
  iterate 3 rw [fieldAt_before (by simp [zeros])]
  rw [fieldAt_behind (by simp [zeros]) (leNat_length ..), ofLe_leNat]

theorem withdrawn_ledgerPayload : fieldAt (ledgerPayload h chs) 40 8 = h.stream.withdrawn % 2 ^ 64 := by
  unfold ledgerPayload
  iterate 2 rw [fieldAt_before (by simp [zeros])]
  rw [fieldAt_behind (by simp [zeros]) (leNat_length ..), ofLe_leNat]

end

/-- The four counts of a LEDGER balance where the book does: none of them exceeds REC_ASSIGNED, so that all fit their fields. -/
theorem balanced_ledgerPayload {h : Hub} (hb : balanced h) (hlt : h.stream.assigned < 2 ^ 64) (chs : List Nat) :
    fieldAt (ledgerPayload h chs) 16 8 =
      fieldAt (ledgerPayload h chs) 24 8 + fieldAt (ledgerPayload h chs) 32 8 + fieldAt (ledgerPayload h chs) 40 8 := by
  rw [assigned_ledgerPayload, acked_ledgerPayload, held_ledgerPayload, withdrawn_ledgerPayload]
  unfold balanced at hb
  omega

/-- Settles O43: each operation keeps the book or moves a count from one column to another (`book_assignAt`, `balanced_applyAcks`,
`balanced_withdraw`, `book_repair`), and a LEDGER's fields are the book's counts. That no life-cycle state but OPERATIONAL and MAINTENANCE
has a stream is, for BLANK and DECOMMISSIONED, the model's reading (log 27). -/
theorem recordBookBalances : Obligations.RecordBookBalances := by
  intro h hb
  exact ⟨balanced_assign hb, balanced_applyAcks hb, balanced_withdraw hb, balanced_makeDrops hb, balanced_releaseDue hb,
    stream_releaseDue_of_not_runsInFull, balanced_ledgerPayload hb⟩

end Sys2Proof.Machine
end

