-- ==== Sys2Proof/Proofs/CustodyOutlet.lean ====
section
/-! PROOFS. Feeding the outlets: what the custody stream and the copies change, and what a change of the lanes carries through (09 R218, R220,
R224, 12 R305). -/

namespace Sys2Proof.Machine

/-! ## FIFOs (R220, R221) -/

/-- The words a FIFO carries: those that stand in it, then those of its packet that wait for room. -/
def carried (f : Fifo) : List Word := f.words ++ f.rest

@[simp] theorem carried_fifoFill (f : Fifo) : carried (fifoFill f) = carried f := by
  simp [carried, fifoFill]

/-- A packet goes behind what a FIFO with no packet under way holds. -/
theorem carried_fifoStart {f : Fifo} (hf : f.rest = []) (seq : Nat) (ws : List Word) :
    carried (fifoStart seq ws f) = carried f ++ ws := by
  rw [fifoStart, carried_fifoFill]
  simp [carried, hf]

/-! ## Records sent (R224) -/

/-- Every held record of a number has been sent. -/
def sentAll (q : Nat) (h : Hub) : Prop := ∀ y ∈ h.stream.reserve, y.record.seq = q → y.sent = true

theorem markSent_reserve_length (seq : Nat) (h : Hub) : (markSent seq h).stream.reserve.length = h.stream.reserve.length := by
  simp [markSent]

theorem sentAll_markSent_same (q : Nat) (h : Hub) : sentAll q (markSent q h) := by
  intro y hy hq
  obtain ⟨x, -, rfl⟩ := List.mem_map.mp hy
  split at hq
  next heq => rw [if_pos heq]
  next hne => exact absurd hq (by simpa using hne)

theorem sentAll_markSent {q : Nat} {h : Hub} (hs : sentAll q h) (seq : Nat) : sentAll q (markSent seq h) := by
  intro y hy hq
  obtain ⟨x, hx, rfl⟩ := List.mem_map.mp hy
  split at hq
  next heq => rw [if_pos heq]
  next hne => rw [if_neg hne]; exact hs x hx hq

/-! ## Feeding the custody outlet (R218, R224) -/

/-- The hub and the FIFO after the packet of one record has been started. -/
def feedOne (x : Held) (h : Hub) (f : Fifo) : Hub × Fifo :=
  (markSent x.record.seq h, fifoStart x.record.seq (packetWords (heldBytes h x)) f)

/-- Feeding starts packets one after the other, each with none under way: what every such step keeps, feeding keeps. -/
theorem feedFuel_induction {P : Hub × Fifo → Prop} (hstep : ∀ h f x, f.rest = [] → P (h, f) → P (feedOne x h f)) (n : Nat) :
    ∀ x, P x → P (feedFuel n x) := by
  induction n with
  | zero => exact fun _ hx => hx
  | succ n ih =>
    rintro ⟨h, f⟩ hx
    unfold feedFuel
    split
    · exact hx
    next hroom =>
      obtain ⟨hrest, -⟩ : f.rest = [] ∧ fifoFree f ≠ 0 := by simpa using hroom
      split
      · exact hx
      · exact ih _ (hstep h f _ hrest hx)

theorem feedFuel_succ_of_next {h : Hub} {f : Fifo} {x : Held} (hrest : f.rest = []) (hroom : fifoFree f ≠ 0)
    (hx : nextToSend h = some x) (n : Nat) : feedFuel (n + 1) (h, f) = feedFuel n (feedOne x h f) := by
  simp [feedFuel, hrest, hroom, hx, feedOne]

theorem feedFuel_frame (n : Nat) (x : Hub × Fifo) : (feedFuel n x).1 = { x.1 with stream := (feedFuel n x).1.stream } :=
  feedFuel_induction (P := fun y => y.1 = { x.1 with stream := y.1.stream })
    (fun h _ _ _ (hy : h = _) => by rw [feedOne, hy]; rfl) n x rfl

theorem feed_frame (h : Hub) (f : Fifo) : (feed h f).1 = { h with stream := (feed h f).1.stream } := feedFuel_frame ..

theorem feedFuel_reserve_length (n : Nat) (x : Hub × Fifo) :
    (feedFuel n x).1.stream.reserve.length = x.1.stream.reserve.length :=
  feedFuel_induction (P := fun y => y.1.stream.reserve.length = x.1.stream.reserve.length)
    (fun h _ _ _ hy => (markSent_reserve_length _ h).trans hy) n x rfl

/-- What a FIFO carries is not disturbed by what is fed behind it. -/
theorem carried_prefix_feedFuel (n : Nat) (x : Hub × Fifo) : carried x.2 <+: carried (feedFuel n x).2 :=
  feedFuel_induction (P := fun y => carried x.2 <+: carried y.2)
    (fun h _ z hf hy => hy.trans ⟨_, (carried_fifoStart hf z.record.seq (packetWords (heldBytes h z))).symm⟩) n x (List.prefix_refl _)

theorem sentAll_feedFuel {q : Nat} {x : Hub × Fifo} (hs : sentAll q x.1) (n : Nat) : sentAll q (feedFuel n x).1 :=
  feedFuel_induction (P := fun y => sentAll q y.1) (fun _ _ _ _ hy => sentAll_markSent hy _) n x hs

/-! ## What the outlets change -/

/-- A state after its outlets have been served: only the stream, the outlets' FIFOs and their counts of drops have moved. -/
def OutletsOnly (s t : State) : Prop :=
  t = { s with hub := { s.hub with stream := t.hub.stream, outlets := t.hub.outlets }
               host := { s.host with fifo := t.host.fifo, copyDrops := t.host.copyDrops } }

theorem OutletsOnly.refl (s : State) : OutletsOnly s s := rfl

theorem OutletsOnly.trans {s t u : State} (ht : OutletsOnly s t) (hu : OutletsOnly t u) : OutletsOnly s u := by
  rw [OutletsOnly] at ht
  rw [ht] at hu
  exact hu

theorem outletsOnly_feedCustody (s : State) : OutletsOnly s (feedCustody s) := by
  unfold feedCustody OutletsOnly
  dsimp only
  split <;> rw [feed_frame]

theorem outletsOnly_copyRecord (s : State) (x : Held) : OutletsOnly s (copyRecord s x) := by
  unfold copyRecord
  dsimp only
  repeat' split
  all_goals rfl

theorem outletsOnly_copyReleased (s : State) : OutletsOnly s (copyReleased s) := by
  refine OutletsOnly.trans (t := (s.hub.stream.reserve.filter fun x : Held => !x.copied && mayLeave s.hub x.tick).foldl copyRecord s) ?_ rfl
  exact List.foldlRecOn _ _ (OutletsOnly.refl s) fun t ht x _ => ht.trans (outletsOnly_copyRecord t x)

/-! ## A change of the lanes carried through -/

/-- Lane P's loss touches the pair alone. -/
theorem pairLinkLost_frame (h : Hub) : pairLinkLost h = { h with pair := (pairLinkLost h).pair } := by
  unfold pairLinkLost detach
  dsimp only
  repeat' split
  all_goals rfl

theorem pairLinkLost_heldResp (h : Hub) : (pairLinkLost h).pair.heldResp = h.pair.heldResp := by
  unfold pairLinkLost detach
  dsimp only
  repeat' split
  all_goals rfl

theorem afterLanes_frame (before h : Hub) : afterLanes before h = { h with pair := (afterLanes before h).pair } := by
  unfold afterLanes
  split
  · exact pairLinkLost_frame h
  · rfl

theorem afterLanes_heldResp (before h : Hub) : (afterLanes before h).pair.heldResp = h.pair.heldResp := by
  unfold afterLanes
  split
  · exact pairLinkLost_heldResp h
  · rfl

/-- Without held answers none is released. -/
theorem releaseHeld_of_none {s : State} (hr : s.hub.pair.heldResp = []) : releaseHeld s = s := by
  simp only [releaseHeld, hr, List.filter_nil, List.foldl_nil]
  rw [← hr]

/-- What a change of the lanes carries through: the pair, the stream and the outlets move, and nothing else. -/
theorem settleLanes_frame {before : Hub} {s : State} (hr : s.hub.pair.heldResp = []) :
    settleLanes before s =
      { s with hub := { s.hub with pair := (settleLanes before s).hub.pair, stream := (settleLanes before s).hub.stream
                                   outlets := (settleLanes before s).hub.outlets }
               host := { s.host with fifo := (settleLanes before s).host.fifo
                                     copyDrops := (settleLanes before s).host.copyDrops } } := by
  have hserved := (outletsOnly_copyReleased { s with hub := afterLanes before s.hub }).trans (outletsOnly_feedCustody _)
  have hpair : (feedCustody (copyReleased { s with hub := afterLanes before s.hub })).hub.pair.heldResp = [] := by
    rw [hserved]
    exact (afterLanes_heldResp before s.hub).trans hr
  rw [settleLanes, releaseHeld_of_none hpair, hserved, afterLanes_frame]

end Sys2Proof.Machine
end

