-- ==== Sys2Proof/Proofs/LaneLoss.lean ====
section
/-! PROOFS. Losses of lanes, and the Ethernet link: what a loss leaves of the lanes and raises, and how lane U in Ethernet goes up and down (11 R265,
R268, R278, R287). -/

namespace Sys2Proof.Machine

/-! ## One lane of the table -/

theorem laneAt_updLane_same {l : Nat} {h : Hub} (hl : l < h.lanes.length) (f : Lane → Lane) :
    laneAt (updLane l f h) l = f (laneAt h l) := by
  simp [laneAt, updLane, updAt, hl]

theorem laneAt_updLane_ne {l m : Nat} (hm : m ≠ l) (f : Lane → Lane) (h : Hub) : laneAt (updLane l f h) m = laneAt h m := by
  simp [laneAt, updLane, updAt, List.getD_eq_getElem?_getD, hm.symm]

theorem laneAt_congr {g h : Hub} (hl : g.lanes = h.lanes) (l : Nat) : laneAt g l = laneAt h l := by rw [laneAt, hl, laneAt]

theorem length_lanes_updLane (l : Nat) (f : Lane → Lane) (h : Hub) : (updLane l f h).lanes.length = h.lanes.length := by
  simp [updLane, updAt]

/-! ## What a link's loss leaves alone (R278) -/

@[simp] theorem recordDatagram_lanes (origin offset seq port : Nat) (bs : Bytes) (h : Hub) :
    (recordDatagram origin offset seq port bs h).lanes = h.lanes := by
  unfold recordDatagram
  split <;> rfl

@[simp] theorem forwardEth_lanes (c : Cell) (h : Hub) : (forwardEth c h).lanes = h.lanes := by
  unfold forwardEth
  dsimp only
  repeat' split
  all_goals simp

@[simp] theorem freeSources_lanes (cs : List Cell) (h : Hub) : (freeSources cs h).lanes = h.lanes := by
  refine List.foldlRecOn (motive := fun g : Hub => g.lanes = h.lanes) cs _ rfl fun g hg c _ => ?_
  split
  · exact hg
  · exact hg

@[simp] theorem drainPass_lanes (h : Hub) : (drainPass h).lanes = h.lanes := by
  unfold drainPass
  split
  · rw [freeSources_lanes]
    exact List.foldlRecOn (motive := fun g : Hub => g.lanes = h.lanes) _ _ rfl fun g hg c _ => (forwardEth_lanes c g).trans hg
  · rfl

@[simp] theorem queuePass_lanes (toward : Nat) (cs : List Cell) (h : Hub) : (queuePass toward cs h).lanes = h.lanes := by
  unfold queuePass
  dsimp only
  split
  · exact drainPass_lanes _
  · rfl

@[simp] theorem cutPass_lanes (k : Nat) (h : Hub) : (cutPass k h).lanes = h.lanes := by
  unfold cutPass
  dsimp only
  split
  · rfl
  · split <;> simp

@[simp] theorem cutOwn_lanes (k : Nat) (h : Hub) : (cutOwn k h).lanes = h.lanes := by
  unfold cutOwn
  split <;> rfl

/-- Closing the units that a link was bringing touches no lane. -/
theorem foldl_abortOnward_lanes (ps : List Partial) (h : Hub) :
    (ps.foldl (fun h p => abortOnward p.origin h) h).lanes = h.lanes :=
  List.foldlRecOn (motive := fun g : Hub => g.lanes = h.lanes) ps _ rfl fun _ hg _ _ => (queuePass_lanes ..).trans hg

@[simp] theorem linkDown_lanes (k : Nat) (h : Hub) : (linkDown k h).lanes = h.lanes := by
  unfold linkDown
  dsimp only
  split <;> split <;> simp [unsend, flushLane, foldl_abortOnward_lanes]

@[simp] theorem leaveLink_lanes (l : Nat) (h : Hub) : (leaveLink l h).lanes = h.lanes := by
  unfold leaveLink
  dsimp only
  split
  · split
    · rfl
    · exact linkDown_lanes ..
  · rfl

/-! ## A lane that leaves what it was doing (R265) -/

/-- The lane as it leaves for another state. -/
def leftFor (st : LaneState) (d : BitVec 64) (x : Lane) : Lane := { idleLane x with state := st, rate := restRate st d }

theorem laneTo_lanes (st : LaneState) (l : Nat) (h : Hub) :
    (laneTo st l h).lanes = (updLane l (leftFor st (laneDesc h l)) h).lanes := by
  unfold laneTo
  dsimp only
  split
  · exact leaveLink_lanes ..
  · rfl

theorem length_lanes_laneTo (st : LaneState) (l : Nat) (h : Hub) : (laneTo st l h).lanes.length = h.lanes.length := by
  rw [laneTo_lanes, length_lanes_updLane]

theorem laneAt_laneTo_same {l : Nat} {h : Hub} (hl : l < h.lanes.length) (st : LaneState) :
    laneAt (laneTo st l h) l = leftFor st (laneDesc h l) (laneAt h l) :=
  (laneAt_congr (laneTo_lanes ..) l).trans (laneAt_updLane_same hl _)

theorem laneAt_laneTo_ne {l m : Nat} (hm : m ≠ l) (st : LaneState) (h : Hub) : laneAt (laneTo st l h) m = laneAt h m :=
  (laneAt_congr (laneTo_lanes ..) m).trans (laneAt_updLane_ne hm _ _)

/-! ## A failed training (R267) -/

theorem laneAt_failTraining_same {l : Nat} {h : Hub} (hl : l < h.lanes.length) :
    laneAt (failTraining l h) l = { laneAt h l with fails := h.time.op4k :: recentFails h (laneAt h l) } :=
  (laneAt_congr (raiseNow_lanes ..) l).trans (laneAt_updLane_same hl _)

theorem laneAt_failTraining_ne {l m : Nat} (hm : m ≠ l) (h : Hub) : laneAt (failTraining l h) m = laneAt h m :=
  (laneAt_congr (raiseNow_lanes ..) m).trans (laneAt_updLane_ne hm _ h)

/-- What is asserted stays so when a failed training is counted. -/
theorem asserted_failTraining_of_asserted {source inst : Nat} {h : Hub} (ha : asserted h source inst = true) (l : Nat) :
    asserted (failTraining l h) source inst = true :=
  asserted_raiseFault_of_asserted (h := updLane l _ h) ha ..

/-! ## Loss of a lane (R268) -/

/-- A loss of lock is counted. -/
def countLoss (x : Lane) : Lane := { x with lockLosses := x.lockLosses + 1 }

/-- The lane as its loss leaves it: out of training, searching at 1.25 Gb/s, the loss counted and reported. -/
def lost (x : Lane) : Lane :=
  { idleLane x with state := .searching, rate := some 0, lockLosses := x.lockLosses + 1, silent := true }

/-- The raise of LANE_LOS, `k` 0, or LANE_LOL, `k` 1. -/
def lossRaise (k l dt : Nat) (h : Hub) : Raise :=
  { source := laneBase l + k, inst := 0, start := instAt h dt, capture := instAt h dt }

/-- A lane that was UP has left for search, and its loss is raised. -/
def loseLane (k l dt : Nat) (h : Hub) : Hub :=
  raiseFault (lossRaise k l dt h) true
    (updLane l (fun x => { x with silent := true }) (laneTo .searching l (updLane l countLoss h)))

/-- Within 60 s of reaching UP the loss is a failed training too. -/
theorem laneLoss_of_up {l : Nat} {h : Hub} (hup : (laneAt h l).state = .up) (k dt : Nat) :
    laneLoss k l dt h = loseLane k l dt h ∨ laneLoss k l dt h = failTraining l (loseLane k l dt h) := by
  have hite : ∀ (soon : Bool) (a b : Hub), (if soon then a else b) = b ∨ (if soon then a else b) = a
    | true, _, _ => .inr rfl
    | false, _, _ => .inl rfl
  simp only [laneLoss, hup, beq_self_eq_true, if_true]
  exact hite _ (failTraining l (loseLane k l dt h)) (loseLane k l dt h)

section
variable {l : Nat} {h : Hub} (k dt : Nat)

theorem length_lanes_loseLane : (loseLane k l dt h).lanes.length = h.lanes.length := by
  rw [loseLane, raiseFault_lanes, length_lanes_updLane, length_lanes_laneTo, length_lanes_updLane]

theorem laneAt_loseLane_ne {m : Nat} (hm : m ≠ l) : laneAt (loseLane k l dt h) m = laneAt h m := by
  rw [loseLane, laneAt_congr (raiseFault_lanes ..), laneAt_updLane_ne hm, laneAt_laneTo_ne hm, laneAt_updLane_ne hm]

theorem laneAt_laneLoss_ne (hup : (laneAt h l).state = .up) {m : Nat} (hm : m ≠ l) :
    laneAt (laneLoss k l dt h) m = laneAt h m := by
  obtain hg | hg := laneLoss_of_up hup k dt <;> rw [hg]
  · exact laneAt_loseLane_ne k dt hm
  · rw [laneAt_failTraining_ne hm, laneAt_loseLane_ne k dt hm]

theorem asserted_laneLoss (hup : (laneAt h l).state = .up) : asserted (laneLoss k l dt h) (laneBase l + k) 0 = true := by
  have hraised : asserted (loseLane k l dt h) (laneBase l + k) 0 = true := asserted_raiseFault_same (lossRaise k l dt h) true _
  obtain hg | hg := laneLoss_of_up hup k dt <;> rw [hg]
  · exact hraised
  · exact asserted_failTraining_of_asserted hraised l

variable (hl : l < h.lanes.length)
include hl

theorem laneAt_loseLane_same : laneAt (loseLane k l dt h) l = lost (laneAt h l) := by
  have hcounted := Nat.lt_of_lt_of_eq hl (length_lanes_updLane l countLoss h).symm
  have hleft := Nat.lt_of_lt_of_eq hcounted (length_lanes_laneTo .searching l _).symm
  rw [loseLane, laneAt_congr (raiseFault_lanes ..), laneAt_updLane_same hleft, laneAt_laneTo_same hcounted, laneAt_updLane_same hl]
  rfl

/-- What the loss makes of the lane itself: it may also count as a failed training. -/
theorem laneAt_laneLoss_same (hup : (laneAt h l).state = .up) :
    ∃ fails, laneAt (laneLoss k l dt h) l = { lost (laneAt h l) with fails := fails } := by
  obtain hg | hg := laneLoss_of_up hup k dt <;> rw [hg]
  · exact ⟨_, laneAt_loseLane_same k dt hl⟩
  · refine ⟨(loseLane k l dt h).time.op4k :: recentFails (loseLane k l dt h) (lost (laneAt h l)), ?_⟩
    rw [laneAt_failTraining_same (by rwa [length_lanes_loseLane]), laneAt_loseLane_same k dt hl]

end

/-- A lane that searches only counts the loss. -/
theorem laneLoss_of_searching {l : Nat} {h : Hub} (hs : (laneAt h l).state = .searching) (ht : (laneAt h l).train = .idle)
    (k dt : Nat) : laneLoss k l dt h = updLane l countLoss h := by
  simp only [laneLoss, hs, ht]
  rfl

/-- The row that reports a loss: LANE_LOS, `k` 0, or LANE_LOL, `k` 1. -/
def lossEvent (k l dt : Nat) : Instr := if k = 0 then .laneLos l dt else .laneLol l dt

theorem exec_lossEvent {k : Nat} (hk : k = 0 ∨ k = 1) (l dt : Nat) (s : State) :
    exec (lossEvent k l dt) s = .next (settleLanes s.hub { s with hub := laneLoss k l dt s.hub }) := by
  rcases hk with rfl | rfl <;> rfl

/-! ## The Ethernet link (R287) -/

theorem askHop_frame (h : Hub) : askHop h = { h with out := (askHop h).out } := by
  unfold askHop
  split <;> rfl

theorem negotiated_frame (h : Hub) : negotiated h = { h with out := (negotiated h).out } := by
  unfold negotiated
  split <;> rfl

/-- The hub with lane U in Ethernet going up: the page has been negotiated, and the next hop is asked for. -/
def ethRisen (h : Hub) : Hub := askHop (negotiated (updLane 5 (fun x => { x with state := .ethUp }) h))

theorem ethRisen_frame (h : Hub) :
    ethRisen h = { updLane 5 (fun x => { x with state := .ethUp }) h with out := (ethRisen h).out } := by
  rw [ethRisen, askHop_frame, negotiated_frame]

/-- The hub with lane U in Ethernet going down. -/
def ethFallen (h : Hub) : Hub := updLane 5 (fun x => { x with state := .ethDown }) { h with eth.fwd := [] }

theorem exec_ethLinkUp_of_down {s : State} (hm : ethMode s.hub = true) (hp : lanesPowered s.hub = true)
    (hd : (laneAt s.hub 5).state = .ethDown) (hl : lLoop (laneDesc s.hub 5) = 0) :
    exec .ethLinkUp s = .next { s with hub := ethRisen s.hub } := by
  simp [exec, execEthLinkUp, hubNext, hm, hp, hd, hl, ethRisen]

theorem exec_ethLinkUp_of_loop {s : State} (hl : lLoop (laneDesc s.hub 5) ≠ 0) : exec .ethLinkUp s = .next s := by
  simp [exec, execEthLinkUp, hubNext, hl]

theorem exec_ethLinkDown_of_up {s : State} (hu : (laneAt s.hub 5).state = .ethUp) :
    exec .ethLinkDown s = .next { s with hub := ethFallen s.hub } := by
  simp [exec, execEthLinkDown, hubNext, hu, ethFallen]

theorem exec_ethLinkDown_of_not_up {s : State} (hu : (laneAt s.hub 5).state ≠ .ethUp) : exec .ethLinkDown s = .next s := by
  simp [exec, execEthLinkDown, hubNext, hu]

/-- Settles O50: what a change of the lanes carries through moves the pair, the stream and the outlets alone (`settleLanes_frame`), which
is all that the statement asks of it; a loss is `laneLoss`, whose lane is then `lost` and whose raise stands; lane U in Ethernet follows
`ethRisen` and `ethFallen`. -/
theorem laneLossEvents : Obligations.LaneLossEvents := by
  refine ⟨fun before s _ _ hheld => ?_, fun s l dt hl hlen => ⟨fun k hk => ⟨fun hup => ?_, fun hs ht => ?_⟩, ?_⟩⟩
  · dsimp only
    rw [settleLanes_frame hheld]
    exact ⟨rfl, rfl, rfl, rfl, rfl, rfl, rfl, rfl, rfl⟩
  · obtain ⟨fails, hlane⟩ := laneAt_laneLoss_same k dt (hlen ▸ hl) hup
    refine ⟨_, exec_lossEvent hk l dt s, asserted_laneLoss k dt hup, ?_, ?_, ?_, ?_, fun m hm => laneAt_laneLoss_ne k dt hup hm⟩ <;>
      rw [hlane] <;> rfl
  · exact laneLoss_of_searching hs ht k dt ▸ exec_lossEvent hk l dt s
  have h5 : 5 < s.hub.lanes.length := by omega
  refine ⟨fun hm hp hd hloop => ⟨_, exec_ethLinkUp_of_down hm hp hd hloop, ?_⟩, exec_ethLinkUp_of_loop, fun hu =>
    ⟨_, exec_ethLinkDown_of_up hu, rfl, ?_, fun m hm => laneAt_updLane_ne hm ..⟩, exec_ethLinkDown_of_not_up⟩
  · rw [ethRisen_frame]
    exact ⟨rfl, congrArg Lane.state (laneAt_updLane_same h5 _), fun m hm => laneAt_updLane_ne hm ..⟩
  · exact congrArg Lane.state (laneAt_updLane_same (h := { s.hub with eth.fwd := [] }) h5 _)

end Sys2Proof.Machine
end

