-- ==== Sys2Proof/Proofs/PassingTraffic.lean ====
section
/-! PROOFS. Traffic on its way through the hub: records forwarded in the custody direction, mailbox messages between links (09 R224, 11 R271, R284,
R285). -/

namespace Sys2Proof.Machine

/-! ## Tables and links -/

theorem getD_updAt {α : Type} {l : List α} {i : Nat} (hi : i < l.length) (f : α → α) (d : α) :
    (updAt l i f).getD i d = f (l.getD i d) := by
  simp [updAt, hi]

/-- A link that is up is one of the hub's. -/
theorem lt_of_linkAt_up {k : Nat} {h : Hub} (hup : (linkAt h k).up = true) : k < h.links.length := by
  refine Nat.not_le.mp fun hk => ?_
  rw [linkAt, List.getD_eq_getElem?_getD, List.getElem?_eq_none hk] at hup
  cases hup

/-- Two changes of one link are one. -/
theorem updLink_updLink (k : Nat) (f g : Link → Link) (h : Hub) : updLink k f (updLink k g h) = updLink k (f ∘ g) h := by
  simp [updLink, updAt, List.modify_modify_eq]

/-! ## Records of other hubs (11 R271, R285) -/

/-- On a bond, cells to be forwarded wait for their turn. -/
theorem queuePass_of_bond {toward : Nat} (ht : toward ≠ 3) (cs : List Cell) (h : Hub) :
    queuePass toward cs h = updLink toward (fun l => { l with outQ := updAt l.outQ 3 (· ++ cs) }) h := by
  simp [queuePass, ht]

/-- The link a record's cell comes by: a receive buffer of its class is taken. -/
def takeBuffer (i : Nat) (l : Link) : Link := { l with rxFree := lowerCls i 1 l.rxFree }

/-- The link once a cell has been accepted in order. -/
def acceptOne (l : Link) : Link := { l with expect := l.expect + 1, accepted := l.expect, acceptedValid := true, beyond := [] }

/-- The unit of a record's cell is under way on its link until its LAST. -/
def trackUnit (c : Cell) (l : Link) : Link :=
  let ps := l.partials.filter (!forwards c.origin ·)
  { l with partials := if cLast c then ps else ps ++ [{ cls := 4, origin := c.origin, data := [] }] }

/-- The link by which a record's cell has come and been accepted. -/
def tookCell (c : Cell) (l : Link) : Link := trackUnit c (acceptOne (takeBuffer (clsIdx c.cls) l))

/-- A record's cell as it goes on: PASS, with the receive buffer that it keeps until it leaves. -/
def onwardCell (k : Nat) (c : Cell) : Cell := { c with cls := 4, src := some (k, clsIdx c.cls) }

/-- The link on which a cell waits as PASS. -/
def waitAsPass (c : Cell) (l : Link) : Link := { l with outQ := updAt l.outQ 3 (· ++ [c]) }

/-- The hub once a record's cell has been accepted from one bond and waits on the other. -/
def passedOn (k : Nat) (c : Cell) (h : Hub) : Hub :=
  updLink (1 - k) (waitAsPass (onwardCell k c)) (updLink k (tookCell c) h)

/-- The unit of a cell has not been cut off on its link: the cell opens it, or the link has it under way. -/
def unitStands (c : Cell) (l : Link) : Prop := cFirst c = true ∨ ∃ p ∈ l.partials, p.cls = 4 ∧ p.origin = c.origin

theorem any_forwards_of_mem {ps : List Partial} {origin : BitVec 32} (hp : ∃ p ∈ ps, p.cls = 4 ∧ p.origin = origin) :
    ps.any (forwards origin) = true := by
  simpa [forwards] using hp

section
variable {k : Nat} {c : Cell} {h : Hub} (hk : k < 2) (hto : custodyLink h.cfg = 1 - k) (hunit : unitStands c (linkAt h k))
include hk hto hunit

/-- A cell that comes from the other bond, of a unit that has not been cut off, waits on the bond of the custody direction. -/
theorem forwardCell_of_onward :
    forwardCell k c h = updLink (1 - k) (waitAsPass (onwardCell k c)) (updLink k (trackUnit c) h) := by
  have hne : ¬1 - k = k := by omega
  have hbond : 1 - k ≠ 3 := by omega
  have hkeep : (!cFirst c && !(linkAt h k).partials.any (forwards c.origin)) = false := by
    rcases hunit with hfirst | hp
    · simp [hfirst]
    · simp [any_forwards_of_mem hp]
  simp only [forwardCell, hto, hne, hkeep, if_false, Bool.false_eq_true, queuePass_of_bond hbond]
  rfl

theorem forwardCell_accepted (hlen : k < h.links.length) :
    forwardCell k c (updLink k acceptOne (updLink k (takeBuffer (clsIdx c.cls)) h)) = passedOn k c h := by
  have htaken : linkAt (updLink k (acceptOne ∘ takeBuffer (clsIdx c.cls)) h) k = acceptOne (takeBuffer (clsIdx c.cls) (linkAt h k)) :=
    linkAt_updLink_same hlen _
  rw [updLink_updLink, forwardCell_of_onward (h := updLink k (acceptOne ∘ takeBuffer (clsIdx c.cls)) h) hk hto (htaken ▸ hunit),
    updLink_updLink]
  rfl

end

theorem linkAt_passedOn_same {k : Nat} {h : Hub} (hk : k < 2) (hlen : k < h.links.length) (c : Cell) :
    linkAt (passedOn k c h) k = tookCell c (linkAt h k) := by
  rw [passedOn, linkAt_updLink_ne (by omega), linkAt_updLink_same hlen]

theorem linkAt_passedOn_onward {k : Nat} {h : Hub} (hk : k < 2) (hlen : 1 - k < h.links.length) (c : Cell) :
    linkAt (passedOn k c h) (1 - k) = waitAsPass (onwardCell k c) (linkAt h (1 - k)) := by
  rw [passedOn, linkAt_updLink_same (by simpa [updLink, updAt] using hlen), linkAt_updLink_ne (by omega)]

/-- Accepting a record's cell that no cell held ahead follows forwards it, and delivers nothing. -/
theorem acceptFuel_of_record {k : Nat} {c : Cell} {h : Hub} (hc : c.cls = 3) (n : Nat)
    (ha : (linkAt (forwardCell k c (updLink k acceptOne h)) k).ahead = []) :
    acceptFuel k (n + 1) c h = (forwardCell k c (updLink k acceptOne h), []) := by
  unfold acceptFuel
  extract_lets g r l
  have hpass : r = (forwardCell k c (updLink k acceptOne h), []) := if_pos (.inl hc)
  have hnone : l.ahead = [] := (congrArg (fun x : Hub × List Delivery => (linkAt x.1 k).ahead) hpass).trans ha
  rw [hnone]
  exact hpass

/-- A DATA cell that is sound, with a buffer for it, is accepted from one bond and waits on the other. -/
theorem acceptCells_of_onward {k : Nat} {b : Bytes} {s : State} (hlen : k < s.hub.links.length) (hk : k < 2)
    (hto : custodyLink s.hub.cfg = 1 - k) (hcrc : lcrcOk b = true) (hres : cellReserved b = false)
    (hc : (cellFrom b).2.2.cls = 3) (hfree : 0 < (linkAt s.hub k).rxFree.getD 2 0) (hahead : (linkAt s.hub k).ahead = [])
    (hunit : unitStands (cellFrom b).2.2 (linkAt s.hub k)) :
    acceptCells k [b] s = { s with hub := passedOn k (cellFrom b).2.2 s.hub } := by
  have hforward := forwardCell_accepted hk hto hunit hlen
  have hnone : (linkAt (passedOn k (cellFrom b).2.2 s.hub) k).ahead = [] := by
    rw [linkAt_passedOn_same hk hlen _]
    exact hahead
  have haccept := acceptFuel_of_record hc 1023 (hforward ▸ hnone)
  rw [hforward] at haccept
  have hsound : (!lcrcOk b || cellReserved b || decide ((cellFrom b).2.2.cls < 3 ∨ 4 < (cellFrom b).2.2.cls) ||
      (linkAt s.hub k).rxFree.getD (clsIdx (cellFrom b).2.2.cls) 0 == 0) = false := by
    simpa [hcrc, hres, hc, clsIdx] using Nat.pos_iff_ne_zero.mp hfree
  simp only [acceptCells, List.foldl_cons, List.foldl_nil, hsound, Bool.false_eq_true, if_false]
  exact congrArg (fun r => deliverAll k (headLane s.hub k) r.2 { s with hub := r.1 }) haccept

/-- Links alone move when a record's cell goes on. -/
theorem passedOn_frame (k : Nat) (c : Cell) (h : Hub) : passedOn k c h = { h with links := (passedOn k c h).links } := rfl

theorem exec_passThroughRecord_of_accepted {s : State} {k : Nat} {b : Bytes} (hup : isUp s.hub = true)
    (hlink : (linkAt s.hub k).up = true) (hk : k ≠ 2)
    (ha : acceptCells k [b] s = { s with hub := passedOn k (cellFrom b).2.2 s.hub }) :
    exec (.passThroughRecord k [b]) s =
      .next (settleLanes s.hub { s with hub := { s.hub with links := (passedOn k (cellFrom b).2.2 s.hub).links } }) := by
  rw [← passedOn_frame]
  simp [exec, execPassThroughRecord, linkRuns, hup, hlink, hk, ha]

/-! ## Mailbox messages for other hubs (11 R284) -/

/-- Cells of one class join those of their class that wait. -/
theorem foldl_append_of_class {cs : List Cell} {i : Nat} (hc : ∀ c ∈ cs, clsIdx c.cls = i) (q : List (List Cell)) :
    cs.foldl (fun q c => updAt q (clsIdx c.cls) (· ++ [c])) q = updAt q i (· ++ cs) := by
  induction cs generalizing q with
  | nil =>
    have hid : (fun x : List Cell => x ++ []) = id := funext List.append_nil
    rw [List.foldl_nil, updAt, hid, List.modify_id]
  | cons c cs ih =>
    rw [List.foldl_cons, ih fun x hx => hc x (List.mem_cons_of_mem _ hx), hc c (List.mem_cons_self ..)]
    simp [updAt, List.modify_modify_eq, Function.comp_def]

theorem cls_of_mem_unitCells {cls mb hops : Nat} {origin : BitVec 32} {bs : Bytes} {c : Cell}
    (hc : c ∈ unitCells cls mb hops origin bs) : c.cls = cls := by
  obtain ⟨i, hi, rfl⟩ := List.mem_mapIdx.mp hc
  rfl

/-- The link a message goes on by. -/
def waitAsMail (cs : List Cell) (l : Link) : Link := { l with outQ := updAt l.outQ 0 (· ++ cs) }

theorem queueCells_frame (k : Nat) (cs : List Cell) (h : Hub) : queueCells k cs h = { h with links := (queueCells k cs h).links } := by
  unfold queueCells
  split <;> rfl

theorem linkAt_queueCells_ne {k m : Nat} (hm : m ≠ k) (cs : List Cell) (h : Hub) :
    linkAt (queueCells k cs h) m = linkAt h m := by
  unfold queueCells
  split
  · exact linkAt_updLink_ne hm ..
  · rfl

theorem linkAt_queueCells_same {k : Nat} {cs : List Cell} {h : Hub} (hup : (linkAt h k).up = true)
    (hc : ∀ c ∈ cs, clsIdx c.cls = 0) : linkAt (queueCells k cs h) k = waitAsMail cs (linkAt h k) := by
  rw [queueCells, if_pos hup, linkAt_updLink_same (lt_of_linkAt_up hup), foldl_append_of_class hc, waitAsMail]

section
variable (cs : List Cell) (h : Hub)

/-- Cells queued on several links. -/
def queueOn (ks : List Nat) : Hub := ks.foldl (fun h k => queueCells k cs h) h

theorem queueOn_frame (ks : List Nat) : queueOn cs h ks = { h with links := (queueOn cs h ks).links } :=
  List.foldlRecOn (motive := fun g : Hub => g = { h with links := g.links }) ks _ rfl fun g (hg : g = _) _ _ => by
    rw [queueCells_frame, hg]

theorem linkAt_queueOn_of_not_mem {ks : List Nat} {m : Nat} (hm : m ∉ ks) : linkAt (queueOn cs h ks) m = linkAt h m :=
  List.foldlRecOn (motive := fun g : Hub => linkAt g m = linkAt h m) ks _ rfl fun g hg _ hk =>
    (linkAt_queueCells_ne (ne_of_mem_of_not_mem hk hm).symm cs g).trans hg

variable {cs h}

theorem linkAt_queueOn_of_mem {ks : List Nat} (hks : ks.Nodup) {m : Nat} (hm : m ∈ ks) (hup : (linkAt h m).up = true)
    (hc : ∀ c ∈ cs, clsIdx c.cls = 0) : linkAt (queueOn cs h ks) m = waitAsMail cs (linkAt h m) := by
  induction ks generalizing h with
  | nil => cases hm
  | cons k ks ih =>
    obtain ⟨hfresh, hnodup⟩ := List.nodup_cons.mp hks
    change linkAt (queueOn cs (queueCells k cs h) ks) m = _
    by_cases hmk : m = k
    · subst hmk
      rw [linkAt_queueOn_of_not_mem _ _ hfresh, linkAt_queueCells_same hup hc]
    · have hstill := linkAt_queueCells_ne hmk cs h
      rw [ih hnodup (List.mem_of_ne_of_mem hmk hm) (by rw [hstill]; exact hup), hstill]

end

/-- The links by which a message that came on one goes on. -/
def onwardLinks (h : Hub) (from_ : Nat) : List Nat := (mailLinks h).filter (· != from_)

theorem nodup_onwardLinks (h : Hub) (from_ : Nat) : (onwardLinks h from_).Nodup := by
  refine List.Pairwise.filter _ (List.Pairwise.filter _ ?_)
  decide

theorem not_mem_onwardLinks (h : Hub) (from_ : Nat) : from_ ∉ onwardLinks h from_ := by simp [onwardLinks]

theorem mem_onwardLinks {h : Hub} {from_ m : Nat} (hm : m = 0 ∨ m = 1) (hne : m ≠ from_) (hup : (linkAt h m).up = true) :
    m ∈ onwardLinks h from_ := by
  rcases hm with rfl | rfl <;> simp [onwardLinks, mailLinks, hne, hup]

theorem forwardMail_eq (from_ : Nat) (dest : BitVec 32) (hops mb : Nat) (msg : Bytes) (h : Hub) :
    forwardMail from_ dest hops mb msg h = queueOn (unitCells 1 mb hops dest msg) h (onwardLinks h from_) := rfl

section
variable (from_ : Nat) (dest : BitVec 32) (hops mb : Nat) (msg : Bytes) (h : Hub)

theorem forwardMail_frame :
    forwardMail from_ dest hops mb msg h = { h with links := (forwardMail from_ dest hops mb msg h).links } := by
  rw [forwardMail_eq, ← queueOn_frame]

/-- The link a message came by sends nothing of it back. -/
theorem linkAt_forwardMail_from : linkAt (forwardMail from_ dest hops mb msg h) from_ = linkAt h from_ := by
  rw [forwardMail_eq, linkAt_queueOn_of_not_mem _ _ (not_mem_onwardLinks h from_)]

theorem linkAt_forwardMail_onward {m : Nat} (hm : m = 0 ∨ m = 1) (hne : m ≠ from_) (hup : (linkAt h m).up = true) :
    linkAt (forwardMail from_ dest hops mb msg h) m = waitAsMail (unitCells 1 mb hops dest msg) (linkAt h m) := by
  rw [forwardMail_eq]
  refine linkAt_queueOn_of_mem (nodup_onwardLinks h from_) (mem_onwardLinks hm hne hup) hup fun c hc => ?_
  rw [cls_of_mem_unitCells hc]
  rfl

end

/-- A message for another hub, on a link that carries such messages, goes on with one hop more; at 31 hops it is dropped. -/
theorem exec_mailboxCellMessage_elsewhere {s : State} {k mb : Nat} {dest : Word} (hup : isUp s.hub = true)
    (hlink : (linkAt s.hub k).up = true) (hk : k ≠ 2) (hlo : 2 ≤ mb) (hhi : mb ≤ 5) (hdest : dest ≠ s.hub.flash.hubId)
    (hops : Nat) (msg : Bytes) (env : Env) :
    exec (.mailboxCellMessage k dest hops mb msg env) s =
      .next (if 31 ≤ hops then s else { s with hub := forwardMail k dest (hops + 1) mb msg s.hub }) := by
  have hmb : ¬(mb < 2 ∨ 5 < mb) := by omega
  have hother : (dest == s.hub.flash.hubId) = false := by simpa using hdest
  simp only [exec, execMailboxCellMessage, mailArrives, hup, hlink, Bool.and_self, if_true, hk, hmb, hother, if_false,
    Bool.false_eq_true]

/-! ## The custody outlet (R224) -/

/-- The record that a hub has next starts first in an empty FIFO. -/
theorem feed_of_next {h : Hub} {f : Fifo} {x : Held} (hf : carried f = []) (hx : nextToSend h = some x) :
    feed h f = feedFuel 4095 (feedOne x h (fifoFill f)) := by
  obtain ⟨hwords, hrest⟩ := List.append_eq_nil_iff.mp ((carried_fifoFill f).trans hf)
  exact feedFuel_succ_of_next hrest (by simp [fifoFree, hwords, fifoCapacity]) hx 4095

section
variable {h : Hub} {f : Fifo} {x : Held} (hf : carried f = []) (hx : nextToSend h = some x)
include hf hx

theorem packet_prefix_feed : packetWords (heldBytes h x) <+: carried (feed h f).2 := by
  rw [feed_of_next hf hx]
  obtain ⟨-, hrest⟩ := List.append_eq_nil_iff.mp ((carried_fifoFill f).trans hf)
  have hstart : carried (feedOne x h (fifoFill f)).2 = packetWords (heldBytes h x) := by
    rw [feedOne, carried_fifoStart hrest, carried_fifoFill, hf, List.nil_append]
  exact hstart ▸ carried_prefix_feedFuel 4095 (feedOne x h (fifoFill f))

theorem sentAll_feed : sentAll x.record.seq (feed h f).1 := by
  rw [feed_of_next hf hx]
  exact sentAll_feedFuel (sentAll_markSent_same x.record.seq h) 4095

end

theorem feed_reserve_length (h : Hub) (f : Fifo) : (feed h f).1.stream.reserve.length = h.stream.reserve.length :=
  feedFuel_reserve_length ..

/-- The state once the lane outlet has been fed. -/
def laneFed (s : State) : State :=
  { s with hub := { (feed s.hub s.hub.outlets.lane).1 with outlets.lane := (feed s.hub s.hub.outlets.lane).2 } }

theorem exec_outletSend_of_lane {s : State} (hc : custodyOutlet s.hub = 0) : exec (.outletSend 0) s = .next (laneFed s) := by
  simp [exec, execOutletSend, outletSend, hc, feedCustody, laneFed]

theorem exec_outletSend_of_other {o : Nat} {s : State} (ho : o ≠ 1) (hc : custodyOutlet s.hub ≠ o) :
    exec (.outletSend o) s = .next s := by
  simp [exec, execOutletSend, outletSend, ho, hc]

/-- Settles O54: a record's cell takes its place on the other bond (`passedOn`), a message for another hub on every other link that carries
such messages (`queueOn`), and feeding the lane outlet starts the next record's packet (`feed_of_next`). That the custody direction is the
link `custodyLink` gives is the model's choice (log 19). -/
theorem trafficPassesThrough : Obligations.TrafficPassesThrough := by
  intro s k hlinks
  dsimp only
  refine ⟨fun b hup hk hlink hto hcrc hres hc hfree hahead hout hunit => ?record,
    fun dest hops mb msg env hup hlink hk hlo hhi hdest => ?mail, fun x hc hwords hrest hx => ?outlet,
    fun o ho hc => exec_outletSend_of_other ho hc⟩
  case record =>
    have hlen : k < s.hub.links.length := by omega
    have hlen' : 1 - k < s.hub.links.length := by omega
    have haccept := acceptCells_of_onward hlen hk hto hcrc hres hc hfree hahead hunit
    refine ⟨_, exec_passThroughRecord_of_accepted hup hlink (by omega) haccept, ?_, ?_, ?_⟩
    · refine (congrArg (fun l : Link => l.outQ.getD 3 []) (linkAt_passedOn_onward hk hlen' _)).trans ?_
      rw [waitAsPass, getD_updAt (by omega)]
      simp [onwardCell, hc, clsIdx]
    · exact congrArg Link.expect (linkAt_passedOn_same hk hlen _)
    · refine (congrArg Link.rxFree (linkAt_passedOn_same hk hlen _)).trans ?_
      simp [tookCell, trackUnit, acceptOne, takeBuffer, hc, clsIdx, lowerCls]
  case mail =>
    have hexec := exec_mailboxCellMessage_elsewhere hup hlink hk hlo hhi hdest hops msg env
    refine ⟨fun hlast => by rw [hexec, if_pos hlast], fun hmore => ?_⟩
    refine ⟨(forwardMail k dest (hops + 1) mb msg s.hub).links, ?_, ?_, fun m hm hne hmup hmout => ?_⟩
    · rw [hexec, if_neg (Nat.not_le.mpr hmore), ← forwardMail_frame]
    · exact linkAt_forwardMail_from ..
    · refine (congrArg (fun l : Link => l.outQ.getD 0 []) (linkAt_forwardMail_onward _ _ _ _ _ _ hm hne hmup)).trans ?_
      rw [waitAsMail, getD_updAt (by omega)]
  case outlet =>
    have hempty : carried s.hub.outlets.lane = [] := by rw [carried, hwords, hrest, List.append_nil]
    exact ⟨_, exec_outletSend_of_lane hc, rfl, packet_prefix_feed hempty hx, sentAll_feed hempty hx, feed_reserve_length ..⟩

end Sys2Proof.Machine
end

