-- ==== Sys2Proof/Proofs/Offsets.lean ====
section
/-! PROOFS. Which offsets the servo takes: the margin of a measurement, what an accepted offset and an outlier leave of the clock, and what a
loss of the source changes (10 R242, R244, R246). -/

namespace Sys2Proof.Machine

/-! ## A loss of the source (R246) -/

theorem not_isSwitchFault_timeHoldover : ¬IsSwitchFault 0x67 := by simp [IsSwitchFault]

theorem follows_iff {h : Hub} : follows h = true ↔ h.time.servo ≠ .holdover ∧ h.time.servo ≠ .freeRun := by
  unfold follows
  cases h.time.servo <;> decide

theorem loseSource_of_follows {h : Hub} (hf : follows h = true) (hl : h.time.lost = false) :
    loseSource h = raiseHeld 0x67 0 h.time.tickInst h.time.tickInst 0 { h with time.lost := true, time.qual := [] } := by
  rw [loseSource, if_pos (by rw [hf, hl]; rfl)]

/-- Of the clock a loss touches only that it stands and the offsets that qualify the source. -/
theorem loseSource_time (h : Hub) :
    (loseSource h).time = { h.time with lost := (loseSource h).time.lost, qual := (loseSource h).time.qual } := by
  unfold loseSource
  split
  · simp
  · rfl

/-! ## The margin (R244) -/

/-- How far from the predicted offset a measurement may lie. -/
def margin (h : Hub) : Int :=
  if h.time.servo = .acquire ∨ h.time.firstAfterStep = true then stepThreshold h.cfg.timeBlock else 100 * 65536

theorem isOutlier_iff {theta p : Int} {h : Hub} (hr : h.time.rampDue = false) (hp : h.time.predicted = some p) :
    isOutlier theta h = true ↔ margin h < ((theta - p).natAbs : Int) := by
  simp [isOutlier, margin, hr, hp, stepLimit, ns]

/-! ## An accepted offset (R242) -/

/-- What the clock shows of an offset that the servo took: the reading itself, no outlier since, and a measurement in this interval. -/
def Took (theta : Int) (before after : TimeSt) : Prop :=
  after.theta = theta ∧ after.outliers = 0 ∧ after.firstAfterStep = false ∧ after.missed = 0 ∧ after.measuredThisTick = true ∧
    after.tick = before.tick ∧ after.tickInst = before.tickInst

theorem freqFault_time (h : Hub) : (freqFault h).time = { h.time with freqLimited := (freqFault h).time.freqLimited } := by
  unfold freqFault
  dsimp only
  split
  · simp
  · split
    · simp
    · rfl

theorem took_acceptOffset (theta : Int) (h : Hub) : Took theta h.time (acceptOffset theta (measured h)).time := by
  unfold acceptOffset
  dsimp only
  rw [freqFault_time]
  refine ⟨rfl, rfl, rfl, ?_, ?_, ?_, ?_⟩ <;> split <;> rfl

theorem took_loseSource {theta : Int} {before : TimeSt} {h : Hub} (ht : Took theta before h.time) :
    Took theta before (loseSource h).time := by
  rw [loseSource_time]
  exact ht

/-! ## An outlier (R244) -/

/-- The hub counts an outlier; it is the first measurement after a step, too. -/
def countOutlier (h : Hub) : Hub :=
  { h with time.outliers := min 65535 (h.time.outliers + 1), time.firstAfterStep := false }

/-- What the clock shows of an outlier: the servo goes on as before, and the next margin is the narrow one. -/
def Ignored (before after : TimeSt) : Prop :=
  after.outliers = min 65535 (before.outliers + 1) ∧ after.firstAfterStep = false ∧ after.missed = 0 ∧
    after.integ = before.integ ∧ after.freq = before.freq ∧ after.ramp = before.ramp ∧ after.yHist = before.yHist ∧
    after.theta = before.theta ∧ after.servo = before.servo ∧ after.predicted = before.predicted

theorem ignored_countOutlier (h : Hub) : Ignored h.time (countOutlier (measured h)).time :=
  ⟨rfl, rfl, rfl, rfl, rfl, rfl, rfl, rfl, rfl, rfl⟩

theorem ignored_loseSource {before : TimeSt} {h : Hub} (hi : Ignored before h.time) : Ignored before (loseSource h).time := by
  rw [loseSource_time]
  exact hi

/-! ## A measurement of a source that is followed -/

section
variable {theta : Int} {h : Hub} (hl : h.time.lost = false) (hf : follows h = true)
include hl hf

/-- Either the offset lies within the margin and is accepted, or it is an outlier, of which the fourth loses a source other than PPS. -/
theorem sourceMeasured_of_follows :
    sourceMeasured theta h =
      if isOutlier theta h = true then
        (if 4 ≤ (countOutlier (measured h)).time.outliers && !ppsSource h.time.source then loseSource (countOutlier (measured h))
          else countOutlier (measured h), false)
      else (acceptOffset theta (measured h), true) := by
  obtain ⟨hholdover, hfree⟩ := follows_iff.mp hf
  unfold sourceMeasured
  dsimp only
  rw [if_neg (by simp [measured, hl, hholdover, hfree])]
  rfl

theorem sourceMeasured_accepted_iff : (sourceMeasured theta h).2 = true ↔ isOutlier theta h = false := by
  rw [sourceMeasured_of_follows hl hf]
  cases isOutlier theta h <;> simp

theorem took_sourceMeasured (ho : isOutlier theta h = false) : Took theta h.time (sourceMeasured theta h).1.time := by
  rw [sourceMeasured_of_follows hl hf, if_neg (by simp [ho])]
  exact took_acceptOffset theta h

theorem ignored_sourceMeasured (ho : isOutlier theta h = true) : Ignored h.time (sourceMeasured theta h).1.time := by
  rw [sourceMeasured_of_follows hl hf, if_pos ho]
  dsimp only
  split
  · exact ignored_loseSource (ignored_countOutlier h)
  · exact ignored_countOutlier h

end

/-! ## PPS edges (R241, R246) -/

/-- Edges beyond 1 µs in succession. -/
def badEdgesAfter (theta : Int) (h : Hub) : Nat := if ns 1000 < (theta.natAbs : Int) then h.time.badEdges + 1 else 0

/-- What an edge of the selected sense leaves: its offset is measured, and the fourth bad edge loses the source. -/
def edgeMeasured (theta : Int) (h : Hub) : Hub :=
  let g := (sourceMeasured theta { h with time.badEdges := badEdgesAfter theta h }).1
  if 4 ≤ badEdgesAfter theta h then loseSource g else g

theorem exec_ppsEdge_of_selected {s : State} {edge : Inst} {rising : Bool} (hup : isUp s.hub = true)
    (hsrc : s.hub.time.source = 5 ∨ s.hub.time.source = 6) (hsense : rising ≠ bitOf s.hub.cfg.timeBlock.toNat 3) :
    exec (.ppsEdge rising edge) s = .next { s with hub := edgeMeasured (ppsTheta s.hub edge) s.hub } := by
  have hpps : ppsSource s.hub.time.source = true := by simpa [ppsSource] using hsrc
  change hubNext s (if isUp s.hub then ppsReceipt rising edge s.hub else s.hub) = _
  rw [if_pos hup, ppsReceipt, if_neg (by simp [hpps, hsense])]
  rfl

section
variable {theta : Int} {h : Hub} (hl : h.time.lost = false) (hf : follows h = true)
include hl hf

theorem took_edgeMeasured (ho : isOutlier theta h = false) : Took theta h.time (edgeMeasured theta h).time := by
  have htook := took_sourceMeasured (h := { h with time.badEdges := badEdgesAfter theta h }) hl hf ho
  unfold edgeMeasured
  dsimp only
  split
  · exact took_loseSource htook
  · exact htook

theorem ignored_edgeMeasured (ho : isOutlier theta h = true) : Ignored h.time (edgeMeasured theta h).time := by
  have hignored := ignored_sourceMeasured (h := { h with time.badEdges := badEdgesAfter theta h }) hl hf ho
  unfold edgeMeasured
  dsimp only
  split
  · exact ignored_loseSource hignored
  · exact hignored

end

/-- Settles O44: a measurement of a source that is followed goes one of two ways by `isOutlier`, which is the margin about the predicted
offset. How that offset is predicted is the model's choice (log 25). -/
theorem offsetsWithinTheMarginAreAccepted : Obligations.OffsetsWithinTheMarginAreAccepted := by
  refine ⟨fun theta p h hl hholdover hfree hr hp => ?measurement, fun s edge rising p hup hsrc hsense hf hl hr hp => ?edge⟩
  case measurement =>
    have hf : follows h = true := follows_iff.mpr ⟨hholdover, hfree⟩
    have hout := isOutlier_iff (theta := theta) hr hp
    refine ⟨?_, fun hfar => ?_⟩
    · rw [sourceMeasured_accepted_iff hl hf, ← Bool.not_eq_true, hout]
      exact Int.not_lt
    · obtain ⟨-, hfirst, -, hinteg, hfreq, -, -, -, hservo, hpred⟩ := ignored_sourceMeasured hl hf (hout.mpr hfar)
      exact ⟨hfirst, hfreq, hinteg, hpred, hservo⟩
  case edge =>
    have hout := isOutlier_iff (theta := ppsTheta s.hub edge) hr hp
    have hexec := exec_ppsEdge_of_selected (edge := edge) hup hsrc hsense
    refine ⟨fun hnear => ⟨_, hexec, took_edgeMeasured hl hf ?_⟩, fun hfar => ⟨_, hexec, ignored_edgeMeasured hl hf (hout.mpr hfar)⟩⟩
    rw [← Bool.not_eq_true, hout]
    exact Int.not_lt.mpr hnear

end Sys2Proof.Machine
end

