-- ==== Sys2Proof/Proofs/TimeEvents.lean ====
section
/-! PROOFS. Events of network time: time messages, lost and qualified sources, REF10 and REFCLK (10 R238, R246, R248, 17 R423, 18 R441). -/

namespace Sys2Proof.Machine

/-! ## Time messages (R238) -/

/-- What a message's exchange tells of its lane. -/
def laneMeasOf (h : Hub) (l : Nat) (msg : Bytes) (arrive : Inst) : LaneMeas :=
  { theta := (exchange h l msg (arriveStamp h l arrive)).1, delay := (exchange h l msg (arriveStamp h l arrive)).2
    valid := exchangeValid h l msg (arriveStamp h l arrive), age := 0 }

/-- The hub with the lane's measurement, and the message to echo. -/
def messageNoted (l : Nat) (msg : Bytes) (arrive : Inst) (h : Hub) : Hub :=
  updLane l (fun y => { y with farMsg := some (fieldAt msg 0 2, (msg.drop 16).take 16, stampOf h (arriveStamp h l arrive)) })
    { h with time.laneMeas := setAt h.time.laneMeas l (laneMeasOf h l msg arrive) }

/-- A message of 64 bytes on a lane that is UP is noted, and counts for the source where the lane is the one in force. -/
theorem timeReceipt_of_up {l : Nat} {msg : Bytes} {h : Hub} (hm : msg.length = 64) (hl : l ≤ 5) (hu : (laneAt h l).state = .up)
    (arrive : Inst) :
    timeReceipt l msg arrive h =
      if sourceLane h != some l then messageNoted l msg arrive h
      else
        let g := noteUtc (sfieldAt msg 4 2) (messageNoted l msg arrive h)
        if exchangeValid h l msg (arriveStamp h l arrive) then
          upstreamMeasured (exchange h l msg (arriveStamp h l arrive)).1 (stampFrom ((msg.drop 16).take 16)) g
        else { g with time.qual := [] } := by
  rw [timeReceipt, if_neg (by simp [hm, hu, hl])]
  rfl

theorem exec_timeMessageReceipt_of_up {s : State} (hup : isUp s.hub = true) (l : Nat) (msg : Bytes) (arrive : Inst) :
    exec (.timeMessageReceipt l msg arrive) s = .next { s with hub := timeReceipt l msg arrive s.hub } := by
  change hubNext s (if isUp s.hub then timeReceipt l msg arrive s.hub else s.hub) = _
  rw [if_pos hup, hubNext]

/-! ## Sources lost and qualified (R246, R248) -/

theorem loseSource_of_fresh {h : Hub} (hf : follows h = true) (hl : h.time.lost = false) (hfresh : Fresh 0x67 0 h) :
    loseSource h = raised 0x67 0 h.time.tickInst h.time.tickInst 0 false { h with time.lost := true, time.qual := [] } := by
  rw [loseSource_of_follows hf hl]
  exact raiseHeld_of_fresh (h := { h with time.lost := true, time.qual := [] }) hfresh not_isSwitchFault_timeHoldover ..

/-- The exit that 16 qualifying offsets book. -/
def exitBooked (h : Hub) : Hub :=
  let theta := h.time.qual.headD 0
  let g := { h with time.qual := [], time.exitAt := exitTick h }
  if stepThreshold h.cfg.timeBlock < (theta.natAbs : Int) then { g with time.exitStep := some (-theta) }
  else { g with time.exitSlew := some theta }

theorem tryQualify_of_qualified {h : Hub} (hs : h.time.servo = .holdover ∨ h.time.servo = .freeRun) (hlo : 1 ≤ h.time.source)
    (hhi : h.time.source ≤ 6) (hq : qualified h.time.qual = true) (hstep : h.time.exitStep = none) (hslew : h.time.exitSlew = none) :
    tryQualify h = exitBooked h := by
  rw [tryQualify, if_pos (by simp [hs, realSource, hlo, hhi, hq, hstep, hslew])]
  rfl

theorem exec_slewComplete_of_zero {s : State} (hs : s.hub.time.servo = .slew) (hd : s.hub.time.rampDue = false)
    (hr : s.hub.time.ramp = 0) : exec .slewComplete s = .next { s with hub := { s.hub with time.servo := .track } } :=
  congrArg (hubNext s) (if_pos (by simp [hs, hd, hr]))

/-! ## REF10 (R246) -/

section
variable {h : Hub} (hr : h.power.ref10 = true)
include hr

theorem ref10Lost_of_unused (h6 : h.time.source ≠ 6) (h7 : h.time.source ≠ 7) :
    ref10Lost h = { h with power.ref10 := false } := by
  simp [ref10Lost, hr, h6, h7]

theorem ref10Lost_of_pps (h6 : h.time.source = 6) : ref10Lost h = loseSource { h with power.ref10 := false } := by
  simp [ref10Lost, hr, h6]

theorem ref10Lost_of_alone (h7 : h.time.source = 7) : ref10Lost h = raiseNow 0x67 0 0 0 { h with power.ref10 := false } := by
  simp [ref10Lost, hr, h7]

end

/-! ## REFCLK (17 R423, 18 R441) -/

theorem not_bringingUp_of_isUp {h : Hub} (hup : isUp h = true) : bringingUp h.power.phase = false ∧ h.power.phase ≠ .noRefclk := by
  have hphase : h.power.phase = .run ∨ h.power.phase = .draining := by
    simp only [isUp, Bool.and_eq_true, Bool.or_eq_true, beq_iff_eq] at hup
    exact hup.2
  rcases hphase with hp | hp <;> simp [hp, bringingUp]

/-- The first of the PLLs that REFCLK feeds, whatever REF10 feeds. -/
theorem refclkPlls_eq_cons (h : Hub) : refclkPlls h = 0x61 :: (refclkPlls h).tail := by
  unfold refclkPlls
  cases h.power.ref10 <;> rfl

theorem not_isSwitchFault_of_mem_refclkPlls {h : Hub} {x : Nat} (hx : x ∈ refclkPlls h) : ¬IsSwitchFault x := by
  have hrange : 0x61 ≤ x := by
    obtain ⟨k, -, rfl⟩ := List.mem_map.mp (List.mem_filter.mp hx).1
    exact Nat.le_add_right ..
  unfold IsSwitchFault
  omega

theorem raiseHeld_frame {source : Nat} (hs : ¬IsSwitchFault source) (inst : Nat) (start capture : Inst) (detail : BitVec 64) (h : Hub) :
    raiseHeld source inst start capture detail h = { h with faults := (raiseHeld source inst start capture detail h).faults } := by
  have hframe := raiseFault_frame { source := source, inst := inst, start := start, capture := capture, detail := detail } false h
  rwa [raiseFault_groups_of_not_switchFault hs] at hframe

theorem clearOcc_frame (source inst : Nat) (at_ : Inst) (h : Hub) :
    clearOcc source inst at_ h = { h with faults := (clearOcc source inst at_ h).faults } := by
  unfold clearOcc
  split <;> rfl

/-- A row of steps of which each touches the collector alone. -/
theorem foldl_faults_frame {α : Type} {step : Hub → α → Hub} {l : List α}
    (hstep : ∀ x ∈ l, ∀ h, step h x = { h with faults := (step h x).faults }) (h : Hub) :
    l.foldl step h = { h with faults := (l.foldl step h).faults } := by
  refine List.foldlRecOn (motive := fun g : Hub => g = { h with faults := g.faults }) l step rfl fun g hg x hx => ?_
  rw [hstep x hx g]
  exact congrArg (fun y : Hub => { y with faults := (step g x).faults }) hg

/-- Each occurrence that a clear leaves was there before; it still stands only where it stood, and not as what is cleared unless a held
force bit keeps that (15 R372, R389). -/
theorem mem_occ_clearOcc {source inst : Nat} {at_ : Inst} {h : Hub} {o : Occ} (ho : o ∈ (clearOcc source inst at_ h).faults.occ) :
    ∃ x ∈ h.faults.occ, o.source = x.source ∧ o.inst = x.inst ∧ (o.cleared = false → x.cleared = false ∧
      (h.faults.force.contains (source, inst, true) = false → ¬(x.source = source ∧ x.inst = inst))) := by
  unfold clearOcc at ho
  split at ho
  case isTrue hforce =>
    obtain ⟨x, hx, rfl⟩ := List.mem_map.mp ho
    refine ⟨x, hx, ?_⟩
    have hkept : h.faults.force.contains (source, inst, true) ≠ false := by simp only [hforce]; decide
    split <;> exact ⟨rfl, rfl, fun hc => ⟨hc, fun hfree => absurd hfree hkept⟩⟩
  case isFalse =>
    obtain ⟨x, hx, rfl⟩ := List.mem_map.mp ho
    refine ⟨x, hx, ?_⟩
    split
    next => exact ⟨rfl, rfl, fun hc => absurd hc (by simp)⟩
    next hkey => exact ⟨rfl, rfl, fun hc => ⟨hc, fun _ => by simpa using hkey⟩⟩

theorem asserted_clearOcc_same {source inst : Nat} {h : Hub} (hforce : h.faults.force.contains (source, inst, true) = false) (at_ : Inst) :
    asserted (clearOcc source inst at_ h) source inst = false := by
  rw [← Bool.not_eq_true, asserted_iff]
  rintro ⟨o, ho, hsource, hinst, hstands⟩
  obtain ⟨x, -, hxs, hxi, hstood⟩ := mem_occ_clearOcc ho
  exact (hstood hstands).2 hforce ⟨hxs.symm.trans hsource, hxi.symm.trans hinst⟩

/-- A clear asserts nothing. -/
theorem asserted_clearOcc_of_not {source inst : Nat} {h : Hub} (ha : asserted h source inst = false) (n i : Nat) (at_ : Inst) :
    asserted (clearOcc n i at_ h) source inst = false := by
  rw [← Bool.not_eq_true, asserted_iff] at ha ⊢
  rintro ⟨o, ho, hsource, hinst, hstands⟩
  obtain ⟨x, hx, hxs, hxi, hstood⟩ := mem_occ_clearOcc ho
  exact ha ⟨x, hx, hxs.symm.trans hsource, hxi.symm.trans hinst, (hstood hstands).1⟩

/-- Every PLL that REFCLK feeds loses lock. -/
def pllsUnlocked (h : Hub) : Hub :=
  (refclkPlls h).foldl (fun h x => raiseHeld x 0 h.time.tickInst h.time.tickInst 0 h) h

/-- Every PLL that REFCLK feeds has its lock again. -/
def pllsLocked (h : Hub) : Hub := (refclkPlls h).foldl (fun h x => clearOcc x 0 h.time.tickInst h) h

theorem pllsUnlocked_frame (h : Hub) : pllsUnlocked h = { h with faults := (pllsUnlocked h).faults } :=
  foldl_faults_frame (fun _ hx _ => raiseHeld_frame (not_isSwitchFault_of_mem_refclkPlls hx) ..) h

theorem pllsLocked_frame (h : Hub) : pllsLocked h = { h with faults := (pllsLocked h).faults } :=
  foldl_faults_frame (fun _ _ _ => clearOcc_frame ..) h

theorem asserted_pllsUnlocked (h : Hub) : asserted (pllsUnlocked h) 0x61 0 = true := by
  rw [pllsUnlocked, refclkPlls_eq_cons, List.foldl_cons]
  refine List.foldlRecOn (motive := fun g => asserted g 0x61 0 = true) _ _ ?_ fun g hg x _ => ?_
  · exact asserted_raiseFault_same _ false h
  · exact asserted_raiseFault_of_asserted hg _ false

theorem asserted_pllsLocked {h : Hub} (hforce : h.faults.force.contains (0x61, 0, true) = false) :
    asserted (pllsLocked h) 0x61 0 = false := by
  rw [pllsLocked, refclkPlls_eq_cons, List.foldl_cons]
  refine List.foldlRecOn (motive := fun g => asserted g 0x61 0 = false) _ _ ?_ fun g hg x _ => ?_
  · exact asserted_clearOcc_same hforce _
  · exact asserted_clearOcc_of_not hg ..

section
variable {s : State}

theorem exec_refclkAbsent_of_bringingUp (hb : bringingUp s.hub.power.phase = true) :
    exec .refclkAbsent s = .next { s with hub := { s.hub with power.refclk := false, power.phase := .noRefclk } } :=
  congrArg (hubNext s) (if_pos hb)

theorem exec_refclkAbsent_of_up (hup : isUp s.hub = true) :
    exec .refclkAbsent s = .next { s with hub := pllsUnlocked { s.hub with power.refclk := false } } :=
  congrArg (hubNext s) ((if_neg (by simp [(not_bringingUp_of_isUp hup).1])).trans (if_pos hup))

theorem exec_refclkPresent_of_noRefclk (hp : s.hub.power.phase = .noRefclk) :
    exec .refclkPresent s =
      .next { s with hub := { s.hub with power.refclk := true, power.phase := .clocks, power.calibrated := false } } :=
  congrArg (hubNext s) (if_pos (by simp [hp]))

theorem exec_refclkPresent_of_up (hup : isUp s.hub = true) :
    exec .refclkPresent s = .next { s with hub := pllsLocked { s.hub with power.refclk := true } } :=
  congrArg (hubNext s) ((if_neg (by simp [(not_bringingUp_of_isUp hup).2])).trans (if_pos hup))

end

/-- Settles O45, clause by clause through the equation of each event. The tick of an exit, and that SOURCE REF10 raises TIME_HOLDOVER without a
servo to hold, are the model's reading (log 25). -/
theorem timeEvents : Obligations.TimeEvents := by
  intro s
  dsimp only
  refine ⟨fun lane msg arrive hup hm hl _ _ hlane hother => ?message, fun hup lane msg arrive hm hl _ _ hlane hsrc hinvalid => ?invalid,
    fun hf hl hfresh => ?lost, fun hs hlo hhi hq hstep hslew => ?qualified, exec_slewComplete_of_zero,
    fun hr h6 h7 => congrArg (hubNext s) (ref10Lost_of_unused hr h6 h7), fun hr h6 hf hl hfresh => ?pps, fun hr h7 hfresh => ?alone,
    exec_refclkAbsent_of_bringingUp, fun hup => ?absent, exec_refclkPresent_of_noRefclk, fun hup hforce => ?present⟩
  case message =>
    refine ⟨messageNoted lane msg arrive s.hub, laneMeasOf s.hub lane msg arrive, ?_, rfl, rfl, rfl, rfl⟩
    rw [exec_timeMessageReceipt_of_up hup, timeReceipt_of_up hm hl hlane, if_pos (by simpa using hother)]
  case invalid =>
    refine ⟨{ noteUtc (sfieldAt msg 4 2) (messageNoted lane msg arrive s.hub) with time.qual := [] }, ?_, rfl, rfl, rfl, rfl, rfl, rfl⟩
    rw [exec_timeMessageReceipt_of_up hup, timeReceipt_of_up hm hl hlane, if_neg (by simp [hsrc])]
    simp only [hinvalid, Bool.false_eq_true, if_false]
  case lost => exact congrArg (hubNext s) (loseSource_of_fresh hf hl hfresh)
  case qualified =>
    have hbooked := tryQualify_of_qualified hs hlo hhi hq hstep hslew
    exact ⟨fun hfar => congrArg (hubNext s) (hbooked.trans (if_pos hfar)),
      fun hnear => congrArg (hubNext s) (hbooked.trans (if_neg (Int.not_lt.mpr hnear)))⟩
  case pps => exact congrArg (hubNext s) ((ref10Lost_of_pps hr h6).trans (loseSource_of_fresh hf hl hfresh))
  case alone =>
    exact congrArg (hubNext s) ((ref10Lost_of_alone hr h7).trans
      (raiseFault_of_fresh (h := { s.hub with power.ref10 := false }) hfresh not_isSwitchFault_timeHoldover _ _ 0 true))
  case absent => exact ⟨_, exec_refclkAbsent_of_up hup, pllsUnlocked_frame _, asserted_pllsUnlocked _⟩
  case present => exact ⟨_, exec_refclkPresent_of_up hup, pllsLocked_frame _, asserted_pllsLocked (hforce 0x61)⟩

end Sys2Proof.Machine
end

