-- ==== Sys2Proof/Proofs/Training.lean ====
section
/-! PROOFS. Training of a lane: what it sends, how an attempt starts, steps, adapts, ends and settles (11 R259 to R268). -/

namespace Sys2Proof.Machine

/-- A change of the lanes whose effect on the hub is known, carried through. -/
theorem next_laneWork {f : Hub → Hub} {s : State} {g : Hub} (hg : f s.hub = g) :
    (.next (laneWork f s) : Out) = .next (settleLanes s.hub { s with hub := g }) := by
  rw [laneWork, hg]

/-- A lane that is not as the table's default stands in the table. -/
theorem lt_of_laneAt_ne {l : Nat} {h : Hub} (hne : laneAt h l ≠ {}) : l < h.lanes.length := by
  refine Nat.not_le.mp fun hl => hne ?_
  rw [laneAt, List.getD_eq_getElem?_getD, List.getElem?_eq_none hl, Option.getD_none]

theorem lt_of_laneAt_up {l : Nat} {h : Hub} (hup : (laneAt h l).state = .up) : l < h.lanes.length :=
  lt_of_laneAt_ne fun hd => by rw [hd] at hup; cases hup

/-! ## What a lane sends (R259, R260) -/

/-- The lane once a message has left on it: the running disparity is carried on. -/
def carryOn (m : OutMsg) (x : Lane) : Lane := { x with disparity := (codeGroups x.disparity (lineChars m)).2 }

theorem laneAt_sendLine_same {l : Nat} {h : Hub} (hl : l < h.lanes.length) (m : OutMsg) :
    laneAt (sendLine l m h) l = carryOn m (laneAt h l) := laneAt_updLane_same hl _

theorem laneAt_sendLine_ne {l k : Nat} (hk : k ≠ l) (m : OutMsg) (h : Hub) : laneAt (sendLine l m h) k = laneAt h k :=
  laneAt_updLane_ne hk _ h

theorem length_lanes_sendLine (l : Nat) (m : OutMsg) (h : Hub) : (sendLine l m h).lanes.length = h.lanes.length :=
  length_lanes_updLane ..

/-- Only the lanes and what has left have moved. -/
def LanesOut (h g : Hub) : Prop := g = { h with lanes := g.lanes, out := g.out }

theorem LanesOut.trans {h g k : Hub} (hg : LanesOut h g) (hk : LanesOut g k) : LanesOut h k := by
  rw [LanesOut] at hg
  rw [hg] at hk
  exact hk

theorem lanesOut_sendTs (type rate countdown caps l : Nat) (f : Lane → Lane) (h : Hub) :
    LanesOut h (sendTs type rate countdown caps l (updLane l f h)) := rfl

section
variable (type rate countdown caps l : Nat) (h : Hub)

@[simp] theorem tsBytes_length : (tsBytes type rate countdown caps l h).length = 15 := by simp [tsBytes, zeros]

variable {type countdown l}

theorem fieldAt_tsBytes_type (ht : type < 256) : fieldAt (tsBytes type rate countdown caps l h) 0 1 = type := by
  simp [tsBytes, fieldAt, leNat, ofLe, Nat.mod_eq_of_lt ht]

theorem fieldAt_tsBytes_lane (hl : l < 256) : fieldAt (tsBytes type rate countdown caps l h) 2 1 = l := by
  simp [tsBytes, fieldAt, leNat, ofLe, Nat.mod_eq_of_lt hl]

theorem fieldAt_tsBytes_countdown (hc : countdown < 256) : fieldAt (tsBytes type rate countdown caps l h) 10 1 = countdown := by
  simp [tsBytes, fieldAt, leNat, ofLe, Nat.mod_eq_of_lt hc]

/-- What a hub lays down for a training set passes the check. -/
theorem tsValid_tsBytes (hlo : 1 ≤ type) (hhi : type ≤ 7) : tsValid (tsBytes type rate countdown caps l h) = true := by
  have htype := fieldAt_tsBytes_type rate caps h (countdown := countdown) (l := l) (Nat.lt_of_le_of_lt hhi (by decide : 7 < 256))
  simp only [tsValid, htype, tsBytes_length, hlo, hhi, and_self, decide_true, beq_self_eq_true, Bool.and_true, Bool.true_and]
  simp [tsBytes, leNat, zeros]

end

/-! ## An attempt starts (R265) -/

/-- A lane in search, at 1.25 Gb/s with that rate's preset. -/
def searching (x : Lane) : Lane :=
  { idleLane x with state := .searching, train := .search, rate := some 0, taps := preset 0 }

theorem searchAttempt_of_idle {l : Nat} {h : Hub} (hp : lanesPowered h = true) (hm : lMode (laneDesc h l) = 1)
    (hloop : lLoop (laneDesc h l) = 0 ∨ lLoop (laneDesc h l) = 3) (ht : (laneAt h l).train = .idle)
    (hs : (laneAt h l).state = .searching ∨ (laneAt h l).state = .miswired) :
    searchAttempt l h = sendTs 1 0 0 0 l (updLane l searching h) :=
  if_pos (by simp [hp, hm, hloop, ht, hs])

/-! ## A training set comes (R260, R261) -/

section
variable {l : Nat} {ts : Bytes} {h : Hub}

theorem tsReceipt_of_not_valid (hv : tsValid ts = false) : tsReceipt l ts h = h := if_pos (by simp [hv])

variable (hv : tsValid ts = true)
include hv

theorem tsReceipt_of_idle (ht : (laneAt h l).train = .idle) (hs : (laneAt h l).state = .searching) : tsReceipt l ts h = h := by
  simp [tsReceipt, hv, ht, hs]

theorem tsReceipt_of_step (ht : (laneAt h l).train = .step) (hs : (laneAt h l).state = .training) (h3 : fieldAt ts 0 1 = 3) :
    tsReceipt l ts h = stepSet l (fieldAt ts 10 1) h := by
  simp [tsReceipt, hv, ht, hs, h3]

/-- DONE sets of a partner in bring-up, before any cell has come, are no loss of lock (log 24). -/
theorem tsReceipt_of_done (hs : (laneAt h l).state = .up) (hc : (laneAt h l).carried = false) (h5 : fieldAt ts 0 1 = 5) :
    tsReceipt l ts h = h := by
  simp [tsReceipt, tsWhileUp, hv, hs, hc, h5]

end

/-! ## Counting down to a rate step (R261) -/

section
variable (rate l : Nat)

theorem length_lanes_countDown (n : Nat) (h : Hub) : (countDown rate l n h).lanes.length = h.lanes.length := by
  induction n generalizing h with
  | zero => exact length_lanes_sendLine ..
  | succ n ih => exact (ih _).trans (length_lanes_sendLine ..)

theorem laneAt_countDown_ne {k : Nat} (hk : k ≠ l) (n : Nat) (h : Hub) : laneAt (countDown rate l n h) k = laneAt h k := by
  induction n generalizing h with
  | zero => exact laneAt_sendLine_ne hk ..
  | succ n ih => exact (ih _).trans (laneAt_sendLine_ne hk ..)

/-- The last set of a count has COUNTDOWN 0. -/
theorem mem_out_countDown (n : Nat) (h : Hub) :
    ∃ b, .ts l b ∈ (countDown rate l n h).out ∧ fieldAt b 0 1 = 3 ∧ fieldAt b 10 1 = 0 := by
  induction n generalizing h with
  | zero =>
    exact ⟨_, List.mem_append_right _ (List.mem_singleton_self _), fieldAt_tsBytes_type _ _ _ (by decide),
      fieldAt_tsBytes_countdown _ _ _ (by decide)⟩
  | succ n ih => exact ih _

end

/-- The hub once the sets that a switching lane still owes have left. -/
def countedDown (l : Nat) (h : Hub) : Hub :=
  if (laneAt h l).countdown = 0 then h else countDown (rateOf (laneAt h l) + 1) l ((laneAt h l).countdown - 1) h

theorem length_lanes_countedDown (l : Nat) (h : Hub) : (countedDown l h).lanes.length = h.lanes.length := by
  unfold countedDown
  split
  · rfl
  · exact length_lanes_countDown ..

theorem laneAt_countedDown_ne {l k : Nat} (hk : k ≠ l) (h : Hub) : laneAt (countedDown l h) k = laneAt h k := by
  unfold countedDown
  split
  · rfl
  · exact laneAt_countDown_ne _ _ hk ..

theorem mem_out_countedDown {l : Nat} {h : Hub} (hc : (laneAt h l).countdown ≠ 0) :
    ∃ b, .ts l b ∈ (countedDown l h).out ∧ fieldAt b 0 1 = 3 ∧ fieldAt b 10 1 = 0 := by
  rw [countedDown, if_neg hc]
  exact mem_out_countDown ..

/-- The lane at the rate it steps to. -/
def steppedTo (rate : Nat) (x : Lane) : Lane := beginAdapt rate { x with countdown := 0 }

/-- On a received 0 the own count goes to its end and the lane adapts one rate up. -/
theorem stepSet_zero (l : Nat) (h : Hub) :
    stepSet l 0 h = sendTs 4 (rateOf (laneAt h l) + 1) 0 0 l (updLane l (steppedTo (rateOf (laneAt h l) + 1)) (countedDown l h)) := rfl

theorem laneAt_stepSet_zero {l : Nat} {h : Hub} (hl : l < h.lanes.length) :
    ∃ m x, laneAt (stepSet l 0 h) l = carryOn m (steppedTo (rateOf (laneAt h l) + 1) x) := by
  have hcounted : l < (countedDown l h).lanes.length := Nat.lt_of_lt_of_eq hl (length_lanes_countedDown l h).symm
  rw [stepSet_zero]
  exact ⟨_, _, (laneAt_sendLine_same (Nat.lt_of_lt_of_eq hcounted (length_lanes_updLane ..).symm) _).trans
    (congrArg _ (laneAt_updLane_same hcounted _))⟩

theorem laneAt_stepSet_zero_ne {l k : Nat} (hk : k ≠ l) (h : Hub) : laneAt (stepSet l 0 h) k = laneAt h k := by
  rw [stepSet_zero]
  exact (laneAt_sendLine_ne hk ..).trans ((laneAt_updLane_ne hk ..).trans (laneAt_countedDown_ne hk h))

theorem stepSet_of_pos {l n : Nat} {h : Hub} (hn : n ≠ 0) (hc : 0 < (laneAt h l).countdown) :
    stepSet l n h = sendTs 3 (rateOf (laneAt h l) + 1) ((laneAt h l).countdown - 1) 0 l
      (updLane l (fun x => { x with countdown := x.countdown - 1 }) h) := by
  simp [stepSet, hn, Nat.pos_iff_ne_zero.mp hc]

/-! ## The eye (R263) -/

/-- A rate that has been passed changes only where the training stands. -/
theorem laneAt_tryPass {l : Nat} {h : Hub} (hl : l < h.lanes.length) :
    ∃ m p t n, laneAt (tryPass l h) l = laneAt h l ∨ laneAt (tryPass l h) l =
      carryOn m { laneAt h l with passed := p, passedTaps := (laneAt h l).taps, train := t, countdown := n } := by
  have hsent (m : OutMsg) (f : Lane → Lane) : laneAt (sendLine l m (updLane l f h)) l = carryOn m (f (laneAt h l)) :=
    (laneAt_sendLine_same (Nat.lt_of_lt_of_eq hl (length_lanes_updLane ..).symm) m).trans (congrArg _ (laneAt_updLane_same hl f))
  unfold tryPass
  dsimp only
  split
  · split
    · exact ⟨_, _, _, _, .inr (hsent ..)⟩
    · exact ⟨_, _, _, _, .inr (hsent ..)⟩
  · exact ⟨.idle l, none, .idle, 0, .inl rfl⟩

theorem lanesOut_tryPass (l : Nat) (h : Hub) : LanesOut h (tryPass l h) := by
  unfold tryPass
  dsimp only
  split
  · split
    · exact lanesOut_sendTs ..
    · exact lanesOut_sendTs ..
  · rfl

/-- The lane with a measurement of its eye. -/
def eyeSeen (eyeH eyeV violations : Nat) (x : Lane) : Lane :=
  { x with eyeH := eyeH, eyeV := eyeV, rxReady := eyeMet eyeH eyeV violations }

/-- A receiver that is ready says so with DONE. -/
def doneBy (l : Nat) (h : Hub) : Hub :=
  tryPass l (sendTs 5 (rateOf (laneAt h l)) 0 0 l (updLane l (fun x => { x with doneSent := true }) h))

theorem lanesOut_doneBy (l : Nat) (h : Hub) : LanesOut h (doneBy l h) := (lanesOut_sendTs ..).trans (lanesOut_tryPass ..)

/-- What a DONE set leaves of the lane that sends it. -/
theorem laneAt_doneBy {l : Nat} {h : Hub} (hl : l < h.lanes.length) :
    (laneAt (doneBy l h) l).eyeH = (laneAt h l).eyeH ∧ (laneAt (doneBy l h) l).eyeV = (laneAt h l).eyeV ∧
      (laneAt (doneBy l h) l).rxReady = (laneAt h l).rxReady ∧ (laneAt (doneBy l h) l).doneSent = true := by
  have hready : l < (updLane l (fun x => { x with doneSent := true }) h).lanes.length :=
    Nat.lt_of_lt_of_eq hl (length_lanes_updLane ..).symm
  have hsent (m : OutMsg) : laneAt (sendLine l m (updLane l (fun x => { x with doneSent := true }) h)) l =
      carryOn m { laneAt h l with doneSent := true } :=
    (laneAt_sendLine_same hready m).trans (congrArg _ (laneAt_updLane_same hl _))
  obtain ⟨m, p, t, n, hlane | hlane⟩ := laneAt_tryPass (h := sendTs 5 (rateOf (laneAt h l)) 0 0 l
    (updLane l (fun x => { x with doneSent := true }) h)) (Nat.lt_of_lt_of_eq hready (length_lanes_sendLine ..).symm)
  all_goals rw [doneBy, hlane, sendTs, hsent]; exact ⟨rfl, rfl, rfl, rfl⟩

theorem rxReadyAt_eq (l eyeH eyeV v : Nat) (h : Hub) :
    rxReadyAt l eyeH eyeV v h =
      if ((laneAt (updLane l (eyeSeen eyeH eyeV v) h) l).train == .adapt || (laneAt (updLane l (eyeSeen eyeH eyeV v) h) l).train == .revert) &&
          eyeMet eyeH eyeV v then doneBy l (updLane l (eyeSeen eyeH eyeV v) h)
      else updLane l (eyeSeen eyeH eyeV v) h := rfl

theorem lanesOut_rxReadyAt (l eyeH eyeV v : Nat) (h : Hub) : LanesOut h (rxReadyAt l eyeH eyeV v h) := by
  have hseen : LanesOut h (updLane l (eyeSeen eyeH eyeV v) h) := rfl
  rw [rxReadyAt_eq]
  split
  · exact hseen.trans (lanesOut_doneBy ..)
  · exact hseen

/-- The lane has the measurement of its eye, and is ready as that says; one that adapts has then sent DONE. -/
theorem laneAt_rxReadyAt {l : Nat} {h : Hub} (hl : l < h.lanes.length) (eyeH eyeV v : Nat) :
    (laneAt (rxReadyAt l eyeH eyeV v h) l).eyeH = eyeH ∧ (laneAt (rxReadyAt l eyeH eyeV v h) l).eyeV = eyeV ∧
      (laneAt (rxReadyAt l eyeH eyeV v h) l).rxReady = eyeMet eyeH eyeV v ∧
      ((laneAt h l).train = .adapt → eyeMet eyeH eyeV v = true → (laneAt (rxReadyAt l eyeH eyeV v h) l).doneSent = true) := by
  have hseen := laneAt_updLane_same hl (eyeSeen eyeH eyeV v)
  rw [rxReadyAt_eq]
  split
  · obtain ⟨hh, hv, hr, hd⟩ := laneAt_doneBy (Nat.lt_of_lt_of_eq hl (length_lanes_updLane l (eyeSeen eyeH eyeV v) h).symm)
    rw [hh, hv, hr, hseen]
    exact ⟨rfl, rfl, rfl, fun _ _ => hd⟩
  next hnot =>
    rw [hseen] at hnot ⊢
    exact ⟨rfl, rfl, rfl, fun ht hmet => absurd hnot (by simp [eyeSeen, ht, hmet])⟩

/-! ## An attempt ends (R264, R265, R267) -/

/-- The lane at the end of an attempt: the next one comes after a longer wait. -/
def waitLonger (d : BitVec 64) (x : Lane) : Lane := { leftFor .searching d x with waitMs := nextWait x.waitMs }

section
variable {l : Nat} {h : Hub}

theorem laneTo_of_not_up (hs : (laneAt h l).state ≠ .up) (st : LaneState) :
    laneTo st l h = updLane l (leftFor st (laneDesc h l)) h :=
  if_neg (by simpa using hs)

theorem attemptEnds_frame (hs : (laneAt h l).state ≠ .up) : attemptEnds l h = { h with lanes := (attemptEnds l h).lanes } := by
  rw [attemptEnds, laneTo_of_not_up hs]
  rfl

theorem laneAt_attemptEnds (hl : l < h.lanes.length) : laneAt (attemptEnds l h) l = waitLonger (laneDesc h l) (laneAt h l) := by
  rw [attemptEnds, laneAt_updLane_same (by rwa [length_lanes_laneTo]), laneAt_laneTo_same hl]
  rfl

theorem trainingTimeout_of_silent {heard : Bool} (ht : (laneAt h l).train = .search ∨ (laneAt h l).train = .caps ∨
    (laneAt h l).train = .revert ∨ (laneAt h l).train = .settle ∧ heard = false) : trainingTimeout l heard h = attemptEnds l h := by
  rcases ht with ht | ht | ht | ⟨ht, rfl⟩ <;> simp [trainingTimeout, ht]

theorem trainingTimeout_of_failed (ht : (laneAt h l).train = .adapt) (hp : (laneAt h l).passed = none) :
    trainingTimeout l true h = failTraining l (attemptEnds l h) := by
  simp [trainingTimeout, ht, hp]

/-- The lane back at the rate it had passed. -/
def revertedTo (rate : Nat) (x : Lane) : Lane := { beginAdapt rate x with train := .revert, taps := x.passedTaps }

theorem trainingTimeout_of_passed {r : Nat} (ht : (laneAt h l).train = .adapt) (hp : (laneAt h l).passed = some r) :
    trainingTimeout l true h = sendTs 4 r 0 0 l (updLane l (revertedTo r) h) := by
  simp only [trainingTimeout, ht, hp]
  rfl

theorem failTraining_frame (l : Nat) (h : Hub) :
    failTraining l h = { h with lanes := (failTraining l h).lanes, faults := (failTraining l h).faults } := by
  have hs : ¬IsSwitchFault (laneBase l + 2) := by unfold IsSwitchFault laneBase; omega
  rw [failTraining, raiseNow_frame, raiseNow_groups_of_not_switchFault hs]
  rfl

theorem asserted_failTraining (l : Nat) (h : Hub) : asserted (failTraining l h) (0x92 + 8 * l) 0 = true :=
  laneBase_add l 2 ▸ asserted_raiseFault_same { source := laneBase l + 2, inst := 0, .. } true _

end

/-! ## A settled lane (R261) -/

/-- The lane with the latencies measured at its rate. -/
def withLatency (tx rx : Nat) (x : Lane) : Lane := { x with latTx := tx, latRx := rx }

section
variable {l : Nat} {h : Hub} (ht : (laneAt h l).train = .settle) (hreq : (laneAt h l).loopReq = false)
include ht hreq

theorem latencyMeasured_of_waiting (hr : h.time.running = false) (tx rx : Nat) :
    latencyMeasured l tx rx h = updLane l (fun x => { x with measured := true }) (updLane l (withLatency tx rx) h) := by
  simp only [latencyMeasured, ht, hreq, hr, updLane_time]
  rfl

theorem latencyMeasured_of_running (hr : h.time.running = true) (hloop : lLoop (laneDesc h l) ≠ 3) (tx rx : Nat) :
    latencyMeasured l tx rx h = laneUp l (updLane l (withLatency tx rx) h) := by
  have hno : ¬lLoop (laneDesc (updLane l (withLatency tx rx) h) l) = 3 := hloop
  have hjoin : joinLink l (updLane l (withLatency tx rx) h) = laneUp l (updLane l (withLatency tx rx) h) := if_neg hno
  rw [← hjoin]
  simp only [latencyMeasured, ht, hreq, hr, updLane_time]
  rfl

end

/-- The lane as it enters UP. -/
def enterUp (linked : Bool) (now : Nat) (x : Lane) : Lane :=
  { x with state := .up, train := .idle, waitMs := 0, upSince := some now, rejoin := linked, measured := false, silent := false }

theorem laneUp_lanes (l : Nat) (h : Hub) :
    (laneUp l h).lanes = (updLane l (enterUp (linkAt h (laneLink l)).up h.time.op4k) h).lanes := by
  unfold laneUp
  dsimp only
  split <;> rfl

/-! ## Character alignment (R259) -/

theorem alignAt_fourth {x : Lane} {boundary : Nat} (ha : x.aligned = none) (hr : x.setRun = (boundary, 3)) :
    (alignAt boundary false x).aligned = some boundary := by
  simp [alignAt, ha, hr]

theorem alignAt_first {x : Lane} {boundary : Nat} (ha : x.aligned = none) (hr : x.setRun.1 ≠ boundary) :
    (alignAt boundary false x).aligned = none ∧ (alignAt boundary false x).setRun = (boundary, 1) := by
  simp [alignAt, ha, hr]

theorem exec_characterAlignment_of_powered {s : State} {l : Nat} (hp : lanesPowered s.hub = true) (hm : lMode (laneDesc s.hub l) = 1)
    (boundary : Nat) (comma : Bool) :
    exec (.characterAlignment l boundary comma) s = .next { s with hub := updLane l (alignAt boundary comma) s.hub } :=
  congrArg (hubNext s) (if_pos (by simp [hp, hm]))

/-- Settles O49, clause by clause: each event is a change of its lane with at most a training set sent, and the rest of the lanes and the hub
stands. That DONE sets on an UP lane are the partner's bring-up is the model's choice (log 24). -/
theorem laneTrainingEvents : Obligations.LaneTrainingEvents := by
  intro s l hl hlen
  have hin : l < s.hub.lanes.length := by omega
  have hupd (f : Lane → Lane) : l < (updLane l f s.hub).lanes.length := by rwa [length_lanes_updLane]
  have hsent (m : OutMsg) (f : Lane → Lane) : laneAt (sendLine l m (updLane l f s.hub)) l = carryOn m (f (laneAt s.hub l)) :=
    (laneAt_sendLine_same (hupd f) m).trans (congrArg _ (laneAt_updLane_same hin f))
  dsimp only
  refine ⟨fun hp hm hloop ht hs => ?start,
    fun ts hv => ⟨fun ht hs => next_laneWork (tsReceipt_of_idle hv ht hs), fun ht hs h3 h0 => ?switch, fun ht hs h3 h0 hlo hhi => ?count,
      fun hs hc h5 => next_laneWork (tsReceipt_of_done hv hs hc h5)⟩,
    fun ts hv => next_laneWork (tsReceipt_of_not_valid hv), fun eyeH eyeV v => ?eye, fun heard ht hs => ?silent, fun ht hs hp => ?failed,
    fun r ht hs hp => ?back, fun ht hreq hr tx rx => ?waits, fun ht hreq hr hloop tx rx => ?joins,
    fun hs => next_laneWork (if_pos (by simp [hs])), fun hp hm boundary => ⟨fun ha hr => ?fourth, fun ha hr => ?first⟩⟩
  case start =>
    refine ⟨_, _, next_laneWork (searchAttempt_of_idle hp hm hloop ht hs), rfl, ?_, ?_, ?_, ?_, tsBytes_length .., ?_, ?_, ?_,
      fun k hk => (laneAt_sendLine_ne hk ..).trans (laneAt_updLane_ne hk ..)⟩
    · exact congrArg Lane.state (hsent _ searching)
    · exact congrArg Lane.train (hsent _ searching)
    · exact congrArg Lane.rate (hsent _ searching)
    · exact (congrArg Lane.waitMs (hsent _ searching) :)
    · exact tsValid_tsBytes _ _ _ (by decide) (by decide)
    · exact fieldAt_tsBytes_type _ _ _ (by decide)
    · exact fieldAt_tsBytes_lane _ _ _ (by omega)
  case switch =>
    obtain ⟨m, x, hlane⟩ := laneAt_stepSet_zero hin
    refine ⟨_, next_laneWork ((tsReceipt_of_step hv ht hs h3).trans (by rw [h0])), ?_, ?_, ?_, ?_, fun hc => ?_,
      fun k hk => laneAt_stepSet_zero_ne hk _⟩
    iterate 4 rw [hlane]; rfl
    obtain ⟨b, hb, hfields⟩ := mem_out_countedDown hc
    rw [stepSet_zero]
    exact ⟨b, List.mem_append_left _ hb, hfields⟩
  case count =>
    refine ⟨_, _, next_laneWork ((tsReceipt_of_step hv ht hs h3).trans (stepSet_of_pos h0 hlo)), rfl, ?_, ?_,
      fieldAt_tsBytes_type _ _ _ (by decide), fieldAt_tsBytes_countdown _ _ _ (by omega)⟩
    · exact congrArg Lane.countdown (hsent _ _)
    · exact (congrArg Lane.train (hsent _ _)).trans ht
  case eye =>
    obtain ⟨hh, hv, hr, hd⟩ := laneAt_rxReadyAt hin eyeH eyeV v
    exact ⟨_, next_laneWork rfl, hh, hv, hr, lanesOut_rxReadyAt .., hd⟩
  case silent =>
    refine ⟨_, next_laneWork (trainingTimeout_of_silent ht), attemptEnds_frame hs, ?_⟩
    rw [laneAt_attemptEnds hin]
    exact ⟨rfl, rfl, rfl⟩
  case failed =>
    have hframe := attemptEnds_frame hs
    have hended : l < (attemptEnds l s.hub).lanes.length := by
      rw [attemptEnds, length_lanes_updLane, length_lanes_laneTo]
      exact hin
    refine ⟨_, next_laneWork (trainingTimeout_of_failed ht hp), asserted_failTraining l _, ?_, ?_, ?_⟩
    · rw [laneAt_failTraining_same hended, laneAt_attemptEnds hin]
      rfl
    · rw [laneAt_failTraining_same hended, hframe]
      rfl
    · rw [failTraining_frame, hframe]
  case back =>
    refine ⟨_, next_laneWork (trainingTimeout_of_passed ht hp), rfl, ?_⟩
    rw [sendTs, hsent]
    exact ⟨rfl, rfl, rfl, rfl⟩
  case waits =>
    refine ⟨_, next_laneWork (latencyMeasured_of_waiting ht hreq hr tx rx), rfl, ?_⟩
    rw [laneAt_updLane_same (hupd _), laneAt_updLane_same hin]
    exact ⟨rfl, rfl, rfl, rfl⟩
  case joins =>
    refine ⟨_, next_laneWork (latencyMeasured_of_running ht hreq hr hloop tx rx), ?_⟩
    rw [laneAt_congr (laneUp_lanes ..), laneAt_updLane_same (hupd _), laneAt_updLane_same hin]
    exact ⟨rfl, rfl, rfl, rfl, rfl⟩
  case fourth =>
    refine ⟨_, exec_characterAlignment_of_powered hp hm boundary false, ?_⟩
    exact (congrArg Lane.aligned (laneAt_updLane_same hin _)).trans (alignAt_fourth ha hr)
  case first =>
    refine ⟨_, exec_characterAlignment_of_powered hp hm boundary false, ?_⟩
    have hfirst := alignAt_first ha hr
    rw [← laneAt_updLane_same hin (alignAt boundary false)] at hfirst
    exact hfirst

end Sys2Proof.Machine
end

