-- ==== Sys2Proof/Proofs/CellStarts.lean ====
section
/-! PROOFS. What a lane sends at a cell start: LINK messages, the tick's TIME cell, cells to be sent again, the class of the slot, IDLE (11 R259,
R272 to R276, R279). -/

namespace Sys2Proof.Machine

theorem updLink_congr {k : Nat} {h : Hub} {f g : Link → Link} (hfg : f (linkAt h k) = g (linkAt h k)) : updLink k f h = updLink k g h := by
  rw [updLink, updAt_congr hfg, updLink]

@[simp] theorem linkAt_updLane (l : Nat) (f : Lane → Lane) (h : Hub) (k : Nat) : linkAt (updLane l f h) k = linkAt h k := rfl

@[simp] theorem linkAt_sendLine (l : Nat) (m : OutMsg) (h : Hub) (k : Nat) : linkAt (sendLine l m h) k = linkAt h k := rfl

theorem laneLink_lt {lane : Nat} (hl : lane < 6) : laneLink lane < 4 := by
  unfold laneLink
  split
  · decide
  · split <;> omega

theorem fieldAt_cellBytes_cls (lseq ack : BitVec 16) {c : Cell} (hc : c.cls < 256) : fieldAt (cellBytes lseq ack c) 2 1 = c.cls := by
  simp [cellBytes, fieldAt, leNat, ofLe, Nat.mod_eq_of_lt hc]

/-- Whatever leaves on a lane changes no more of any lane than the running disparity. -/
theorem laneAt_sendLine (l : Nat) (m : OutMsg) (h : Hub) (k : Nat) :
    laneAt (sendLine l m h) k = { laneAt h k with disparity := (laneAt (sendLine l m h) k).disparity } := by
  by_cases hk : k = l
  · subst hk
    by_cases hl : k < h.lanes.length
    · rw [laneAt_sendLine_same hl]
      rfl
    · have hgone (g : Hub) (hg : g.lanes.length = h.lanes.length) : laneAt g k = {} :=
        Classical.byContradiction fun hne => hl (hg ▸ lt_of_laneAt_ne hne)
      rw [hgone _ (length_lanes_sendLine ..), hgone h rfl]
  · rw [laneAt_sendLine_ne hk]

/-! ## A lane that carries traffic (R276) -/

/-- A lane that is UP in its link, on a hub that runs. -/
structure InTraffic (lane : Nat) (h : Hub) : Prop where
  up : (laneAt h lane).state = .up
  joined : (laneAt h lane).rejoin = false
  notStopped : (laneAt h lane).stopped = false
  runs : isUp h = true
  linked : (linkAt h (laneLink lane)).up = true

section
variable {lane slot : Nat} {depart : Inst} {h : Hub} (ht : InTraffic lane h)
include ht

/-- LINK messages go first, then TIME, then what is to be sent again; the slot's class comes last. -/
theorem nextCell_of_inTraffic :
    nextCell lane slot depart h =
      (startLink (laneLink lane) h).orElse fun _ => (startTime (laneLink lane) lane slot depart h).orElse fun _ =>
        (startResend (laneLink lane) lane h).orElse fun _ => startSlot (laneLink lane) lane slot h := by
  simp [nextCell, linkRuns, ht.up, ht.joined, ht.notStopped, ht.runs, ht.linked]

theorem nextCell_of_link {x : Bytes × Hub} (hx : startLink (laneLink lane) h = some x) : nextCell lane slot depart h = some x := by
  rw [nextCell_of_inTraffic ht, hx]
  rfl

section
variable (hsilent : startLink (laneLink lane) h = none)
include hsilent

/-- In slot 0 the tick's TIME cell leaves. -/
theorem nextCell_of_time (hslot : slot = 0) (hdue : (laneAt h lane).timeDue = true) :
    ∃ b, nextCell lane slot depart h = some (b, noteDeparture lane depart h) ∧ fieldAt b 2 1 = 0 := by
  refine ⟨_, ?_, fieldAt_cellBytes_cls 0 ((linkAt h (laneLink lane)).expect - 1)
    (c := { cls := 0, flags := 3, origin := h.flash.hubId, data := timeMessage lane depart h }) (Nat.zero_lt_succ _)⟩
  rw [nextCell_of_inTraffic ht, hsilent, startTime, if_pos (by simp [hslot, hdue])]
  rfl

variable (hslot : slot ≠ 0)
include hslot

theorem nextCell_of_resend {x : Bytes × Hub} (hx : startResend (laneLink lane) lane h = some x) :
    nextCell lane slot depart h = some x := by
  have htime : startTime (laneLink lane) lane slot depart h = none := by simp [startTime, hslot]
  rw [nextCell_of_inTraffic ht, hsilent, htime, hx]
  rfl

theorem nextCell_of_slot (hx : startResend (laneLink lane) lane h = none) :
    nextCell lane slot depart h = startSlot (laneLink lane) lane slot h := by
  have htime : startTime (laneLink lane) lane slot depart h = none := by simp [startTime, hslot]
  rw [nextCell_of_inTraffic ht, hsilent, htime, hx]
  rfl

end

end

section
variable {lane : Nat} {s : State} (ht : InTraffic lane s.hub) (given : Nat) {depart : Inst}
include ht

/-- On a hub that runs, the slot is that of the instant. -/
theorem exec_cellTransmit_of_runs :
    exec (.cellTransmit lane given depart) s = .next (laneWork (cellTransmit lane (slotOf s.hub depart) depart) s) := by
  simp [exec, execCellTransmit, ht.runs]

theorem exec_cellTransmit_of_cell {b : Bytes} {g : Hub} (hn : nextCell lane (slotOf s.hub depart) depart s.hub = some (b, g)) :
    exec (.cellTransmit lane given depart) s = .next (settleLanes s.hub { s with hub := sendLine lane (.cell lane b) g }) := by
  rw [exec_cellTransmit_of_runs ht]
  exact next_laneWork (by simp [cellTransmit, ht.up, hn])

theorem exec_cellTransmit_of_none (hn : nextCell lane (slotOf s.hub depart) depart s.hub = none) :
    exec (.cellTransmit lane given depart) s = .next (settleLanes s.hub { s with hub := sendLine lane (.idle lane) s.hub }) := by
  rw [exec_cellTransmit_of_runs ht]
  exact next_laneWork (by simp [cellTransmit, sendsIdle, ht.up, hn])

end

/-! ## LINK messages (R273 to R275) -/

/-- A LINK message as it leaves. -/
def linkCellBytes (k : Nat) (m : Bytes) (h : Hub) : Bytes :=
  cellBytes 0 ((linkAt h k).expect - 1) { cls := 6, flags := 3, origin := h.flash.hubId, data := m }

section
variable {k : Nat} {h : Hub}

theorem startLink_of_some {m : Bytes} {f : Link → Link} (hn : nextLink (linkAt h k) = some (m, f (linkAt h k))) :
    startLink k h = some (linkCellBytes k m h, updLink k f h) := by
  rw [startLink, hn, updLink_congr (f := f) (g := fun _ => f (linkAt h k)) rfl]
  rfl

/-- The order among LINK messages: RESYNC, CREDIT, then those that wait (log 24). -/
theorem startLink_of_resync (hr : (linkAt h k).resyncDue = true) :
    startLink k h = some (linkCellBytes k (resyncLeaves (linkAt h k)).1 h, updLink k (fun l => (resyncLeaves l).2) h) :=
  startLink_of_some (if_pos hr)

theorem startLink_of_credit (hr : (linkAt h k).resyncDue = false) (hc : (linkAt h k).creditDue = true) :
    startLink k h = some (linkCellBytes k (creditMsg (linkAt h k)) h, updLink k (fun l => (creditLeaves l).2) h) :=
  startLink_of_some (by simp [nextLink, hr, hc, creditLeaves])

section
variable (hr : (linkAt h k).resyncDue = false) (hc : (linkAt h k).creditDue = false)
include hr hc

theorem startLink_of_waiting {m : Bytes} {ms : List Bytes} (hq : (linkAt h k).linkQ = m :: ms) :
    startLink k h = some (linkCellBytes k m h, updLink k (fun l => { l with linkQ := ms }) h) :=
  startLink_of_some (by simp [nextLink, hr, hc, hq])

theorem startLink_of_silent (hq : (linkAt h k).linkQ = []) : startLink k h = none := by
  simp [startLink, nextLink, hr, hc, hq]

end

/-! ## Cells sent again (R272) -/

theorem startResend_of_none (hq : (linkAt h k).resendQ = []) (lane : Nat) : startResend k lane h = none := by
  simp [startResend, hq]

/-- A cell that is sent again is a replay of its lane. -/
def countReplay (x : Lane) : Lane := { x with replays := x.replays + 1 }

theorem startResend_of_first {q : BitVec 16} {c : Cell} {rest : List (BitVec 16 × Cell)} (hq : (linkAt h k).resendQ = (q, c) :: rest)
    (hready : (linkAt h k).ready = true) (lane : Nat) :
    startResend k lane h = some (cellBytes q ((linkAt h k).expect - 1) c,
      updLane lane countReplay (updLink k (fun l => { l with resendQ := rest }) h)) := by
  simp only [startResend, hq, hready, if_true]
  rfl

/-! ## First sends (R272, R273, R279) -/

/-- The link once a queued cell has been taken from its class. -/
def leftQueue (i : Nat) (cs : List Cell) (l : Link) : Link := { l with outQ := setAt l.outQ i cs }

/-- The link once a sequenced cell has left: it has the next LSEQ and a credit, and stays in the replay buffer. -/
def sentCell (c : Cell) (l : Link) : Link :=
  { l with nextLseq := l.nextLseq + 1, replay := l.replay ++ [(l.nextLseq, c)], credits := lowerCls (clsIdx c.cls) 1 l.credits }

theorem startCell_eq (k : Nat) (c : Cell) (h : Hub) :
    startCell k c h = (cellBytes (linkAt h k).nextLseq ((linkAt h k).expect - 1) c, updLink k (sentCell c) h) := by
  rw [updLink_congr (f := sentCell c) rfl, startCell]
  exact congrArg _ (updLink_congr rfl)

/-- MAILBOX, FLARE and SHADOW send their oldest cell. -/
theorem startClass_of_queued {i : Nat} {c : Cell} {cs : List Cell} (h2 : i ≠ 2) (h3 : i ≠ 3) (hlen : k < h.links.length)
    (hmay : mayStart (linkAt h k) i = true) (hq : (linkAt h k).outQ.getD i [] = c :: cs) :
    startClass k i h = some (cellBytes (linkAt h k).nextLseq ((linkAt h k).expect - 1) c, updLink k (sentCell c ∘ leftQueue i cs) h) := by
  have htake : takeQueued k i h = some (c, updLink k (leftQueue i cs) h) := by
    simp only [takeQueued, h3, if_false, hq]
    rfl
  have hstart : startCell k c (updLink k (leftQueue i cs) h) =
      (cellBytes (linkAt h k).nextLseq ((linkAt h k).expect - 1) c, updLink k (sentCell c ∘ leftQueue i cs) h) := by
    rw [startCell_eq, updLink_updLink, linkAt_updLink_same hlen]
    rfl
  simp [startClass, hmay, h2, htake, hstart]

theorem startSlot_of_class {i lane slot : Nat} {x : Bytes × Hub} (hs : (h.cfg.slots.getD lane []).getD slot 0 = i + 1)
    (hx : startClass k i h = some x) : startSlot k lane slot h = some x := by
  rw [startSlot, hs, Nat.add_sub_cancel, hx]
  rfl

/-- Without credits no class may start. -/
theorem startClass_of_no_credit (hc : ∀ i, (linkAt h k).credits.getD i 0 = 0) (i : Nat) : startClass k i h = none := by
  have hmay : mayStart (linkAt h k) i = false := by
    rw [mayStart, hc i]
    simp
  simp [startClass, hmay]

theorem startFirst_of_none (hn : ∀ i, startClass k i h = none) (is : List Nat) : startFirst k h is = none := by
  induction is with
  | nil => rfl
  | cons i is ih => rw [startFirst, hn, ih]; rfl

theorem startSlot_of_no_credit (hc : ∀ i, (linkAt h k).credits.getD i 0 = 0) (lane slot : Nat) : startSlot k lane slot h = none := by
  have hnone := startClass_of_no_credit hc
  rw [startSlot, startFirst_of_none hnone, hnone, ite_self]
  rfl

end

/-- Settles O51: at a cell start `nextCell` takes the first of its sources that has something, and the cell leaves on the lane. The order among
LINK messages is the model's choice (log 24). -/
theorem cellsLeaveInTheirSlots : Obligations.CellsLeaveInTheirSlots := by
  intro s lane given depart hlane hlinks
  dsimp only
  intro hup hrejoin hstopped hrun hlink
  have ht : InTraffic lane s.hub := ⟨hup, hrejoin, hstopped, hrun, hlink⟩
  have hk : laneLink lane < s.hub.links.length := hlinks.symm ▸ laneLink_lt hlane
  have hin : lane < s.hub.lanes.length := lt_of_laneAt_up hup
  refine ⟨fun hr => ?resync, fun hr hc => ?credit, fun m ms hr hc hq => ?waiting, fun ⟨hr, hc, hq⟩ hslot hdue => ?time,
    fun i c cs ⟨hr, hc, hq⟩ hslot hresend hready hi hcode hfirst hcredit hroom hcls => ?first,
    fun ⟨hr, hc, hq⟩ hslot hresend hcredit => ?idle, fun q c rest ⟨hr, hc, hq⟩ hslot hresend hready => ?again⟩
  case resync =>
    refine ⟨(resyncLeaves (linkAt s.hub (laneLink lane))).2, rfl, rfl, rfl, rfl, ?_⟩
    rw [exec_cellTransmit_of_cell ht given (nextCell_of_link ht (startLink_of_resync hr)),
      updLink_congr (f := fun l => (resyncLeaves l).2) (g := fun _ => (resyncLeaves (linkAt s.hub (laneLink lane))).2) rfl]
    rfl
  case credit => exact exec_cellTransmit_of_cell ht given (nextCell_of_link ht (startLink_of_credit hr hc))
  case waiting => exact exec_cellTransmit_of_cell ht given (nextCell_of_link ht (startLink_of_waiting hr hc hq))
  case time =>
    obtain ⟨b, hnext, hcls⟩ := nextCell_of_time (depart := depart) ht (startLink_of_silent hr hc hq) hslot hdue
    refine ⟨_, b, exec_cellTransmit_of_cell ht given hnext, rfl, hcls, ?_, rfl⟩
    have hnoted : lane < (noteDeparture lane depart s.hub).lanes.length := Nat.lt_of_lt_of_eq hin (length_lanes_updLane ..).symm
    rw [laneAt_sendLine_same hnoted, noteDeparture, laneAt_updLane_same hin]
    rfl
  case first =>
    have hmay : mayStart (linkAt s.hub (laneLink lane)) i = true := by
      rw [mayStart, hready, decide_eq_true hcredit, decide_eq_true hroom]
      rfl
    have hstart := startSlot_of_class hcode (startClass_of_queued (by omega) (by omega) hk hmay hfirst)
    have hnext := (nextCell_of_slot (depart := depart) ht (startLink_of_silent hr hc hq) hslot (startResend_of_none hresend lane)).trans
      hstart
    have hsent := linkAt_updLink_same hk (sentCell c ∘ leftQueue i cs)
    refine ⟨_, exec_cellTransmit_of_cell ht given hnext, rfl, fun m => laneAt_sendLine .., ?_⟩
    rw [linkAt_sendLine, hsent]
    refine ⟨rfl, rfl, rfl, ?_, fun m hm => (linkAt_sendLine ..).trans (linkAt_updLink_ne hm ..)⟩
    simp [sentCell, leftQueue, lowerCls, hcls, clsIdx]
  case idle =>
    refine exec_cellTransmit_of_none ht given ?_
    rw [nextCell_of_slot ht (startLink_of_silent hr hc hq) hslot (startResend_of_none hresend lane), startSlot_of_no_credit hcredit]
  case again =>
    have hnext := nextCell_of_resend (depart := depart) ht (startLink_of_silent hr hc hq) hslot (startResend_of_first hresend hready lane)
    refine ⟨_, exec_cellTransmit_of_cell ht given hnext, rfl, ?_, ?_, ?_⟩
    · rw [linkAt_sendLine, linkAt_updLane, linkAt_updLink_same hk]
    · rw [linkAt_sendLine, linkAt_updLane, linkAt_updLink_same hk]
    · rw [laneAt_sendLine_same (by rwa [length_lanes_updLane]), laneAt_updLane_same (by exact hin)]
      rfl

end Sys2Proof.Machine
end

