-- ==== Sys2Proof/Proofs/CellReceipts.lean ====
section
/-! PROOFS. Which received cells are accepted: cells that fail their LCRC and the replays they ask for, cells in sequence and repeats (11 R268, R270
to R272). -/

namespace Sys2Proof.Machine

/-! ## Replays asked for (R268, R272) -/

/-- The link that asks for its lowest missing cell. -/
def askAgain (l : Link) : Link := { l with linkQ := l.linkQ ++ [nakMsg l.expect], beyond := [] }

/-- The lane with one more replay asked for on its account. -/
def noteReplay (arrive : Inst) (x : Lane) : Lane := { x with asked := arrive :: askedIn arrive x }

/-- A replay asked for on account of one lane: the lane is lost with the 17th in 1 ms. -/
def noteLane (arrive : Inst) (h : Hub) (l : Nat) : Hub :=
  let g := updLane l (noteReplay arrive) h
  if 16 < (laneAt g l).asked.length then laneLoss 1 l 0 g else g

theorem noteAsked_eq (arrive : Inst) (ls : List Nat) (h : Hub) : noteAsked arrive ls h = ls.foldl (noteLane arrive) h := rfl

section
variable {l : Nat} {arrive : Inst} {h : Hub} (hl : l < h.lanes.length)
include hl

theorem length_asked_noteReplay :
    (laneAt (updLane l (noteReplay arrive) h) l).asked.length = (askedIn arrive (laneAt h l)).length + 1 := by
  rw [laneAt_updLane_same hl]
  rfl

theorem noteLane_of_few (hfew : (askedIn arrive (laneAt h l)).length < 16) :
    noteLane arrive h l = updLane l (noteReplay arrive) h :=
  if_neg (by rw [length_asked_noteReplay hl]; omega)

theorem noteLane_of_many (hmany : 16 ≤ (askedIn arrive (laneAt h l)).length) :
    noteLane arrive h l = laneLoss 1 l 0 (updLane l (noteReplay arrive) h) :=
  if_pos (by rw [length_asked_noteReplay hl]; omega)

end

theorem state_updLane_noteReplay {l : Nat} {h : Hub} (hup : (laneAt h l).state = .up) (arrive : Inst) :
    (laneAt (updLane l (noteReplay arrive) h) l).state = .up := by
  rw [laneAt_updLane_same (lt_of_laneAt_up hup)]
  exact hup

/-- An UP lane on whose account too many replays have been asked for raises LANE_LOL. -/
theorem asserted_noteLane {l : Nat} {arrive : Inst} {h : Hub} (hup : (laneAt h l).state = .up)
    (hmany : 16 ≤ (askedIn arrive (laneAt h l)).length) : asserted (noteLane arrive h l) (0x91 + 8 * l) 0 = true := by
  rw [noteLane_of_many (lt_of_laneAt_up hup) hmany]
  exact laneBase_add l 1 ▸ asserted_laneLoss 1 0 (state_updLane_noteReplay hup arrive)

/-- The lane itself is then as its loss leaves it. -/
theorem laneAt_noteLane_of_many {l : Nat} {arrive : Inst} {h : Hub} (hup : (laneAt h l).state = .up)
    (hmany : 16 ≤ (askedIn arrive (laneAt h l)).length) :
    ∃ fails, laneAt (noteLane arrive h l) l = { lost (noteReplay arrive (laneAt h l)) with fails := fails } := by
  have hl := lt_of_laneAt_up hup
  rw [noteLane_of_many hl hmany, ← laneAt_updLane_same hl (noteReplay arrive)]
  exact laneAt_laneLoss_same 1 0 (by rwa [length_lanes_updLane]) (state_updLane_noteReplay hup arrive)

/-! ## A cell comes (R270) -/

/-- A sound cell has come on the lane. -/
def markCarried (x : Lane) : Lane := { x with carried := true }

section
variable {lane : Nat} {b : Bytes} {arrive : Inst} {s : State}

theorem exec_cellReceipt {t : State} (ht : cellReceipt lane b arrive s = t) :
    exec (.cellReceipt lane b arrive) s = .next (settleLanes s.hub t) := by
  simp only [exec, execCellReceipt, ht]

variable (hup : (laneAt s.hub lane).state = .up) (hrun : linkRuns s.hub (laneLink lane) = true)
include hup hrun

theorem cellReceipt_of_bad (hcrc : lcrcOk b = false) :
    cellReceipt lane b arrive s = { s with hub := badCell (laneLink lane) lane arrive s.hub } := by
  simp [cellReceipt, hup, hrun, hcrc]

theorem cellReceipt_of_good (hcrc : lcrcOk b = true) (hres : cellReserved b = false) :
    cellReceipt lane b arrive s = goodCell (laneLink lane) lane b arrive { s with hub := updLane lane markCarried s.hub } := by
  simp only [cellReceipt, hup, hrun, hcrc, hres]
  rfl

end

/-! ## A cell that fails its LCRC (R272) -/

/-- A failed LCRC is counted. -/
def countCrc (x : Lane) : Lane := { x with crcErrors := x.crcErrors + 1 }

/-- The hub once a failed cell is counted and answered. -/
def nakSent (k lane : Nat) (h : Hub) : Hub := updLink k askAgain (updLane lane countCrc h)

theorem badCell_of_ready {k lane : Nat} {h : Hub} (hr : (linkAt h k).ready = true) (arrive : Inst) :
    badCell k lane arrive h = noteLane arrive (nakSent k lane h) lane :=
  if_pos hr

/-! ## A sequenced cell (R271, R272) -/

theorem applyAck_of_none {k : Nat} {h : Hub} (hr : (linkAt h k).replay = []) (ack : BitVec 16) : applyAck k ack h = h := by
  simp [applyAck, hr]

section
variable {k lane : Nat} {b : Bytes} {arrive : Inst} {s : State} (hreplay : (linkAt s.hub k).replay = [])
  (hheard : (linkAt s.hub k).resyncHeard = true) (hlo : 1 ≤ (cellFrom b).2.2.cls) (hhi : (cellFrom b).2.2.cls ≤ 5)
include hreplay hheard hlo hhi

/-- With nothing to acknowledge, a sequenced cell that asks for no replay leaves what `sequencedReceipt` makes of it. -/
theorem goodCell_of_sequenced {g : Hub} (hg : sequencedReceipt k lane (cellFrom b).1 (cellFrom b).2.2 s.hub = (g, []))
    (hquiet : (linkAt g k).linkQ = (linkAt s.hub k).linkQ) : goodCell k lane b arrive s = { s with hub := g } := by
  have hzero : ¬(cellFrom b).2.2.cls = 0 := by omega
  have hsix : ¬(cellFrom b).2.2.cls = 6 := by omega
  simp only [goodCell, applyAck_of_none hreplay, ite_self, hzero, hsix, if_false, hheard, hg, hquiet, Nat.lt_irrefl, decide_false,
    Bool.not_true, Bool.false_eq_true]
  rfl

end

theorem covers_pred_self (e : BitVec 16) : covers (e - 1) e = false := by
  have hfar : ¬(e - 1 - e).toNat < 32768 := by bv_omega
  exact decide_eq_false hfar

theorem sequencedReceipt_of_repeat {k : Nat} {lseq : BitVec 16} {h : Hub} (hc : covers ((linkAt h k).expect - 1) lseq = true) (lane : Nat)
    (c : Cell) : sequencedReceipt k lane lseq c h = (h, []) :=
  if_pos hc

theorem sequencedReceipt_of_next {k : Nat} {lseq : BitVec 16} {c : Cell} {h : Hub} (hl : lseq = (linkAt h k).expect)
    (hfree : 0 < (linkAt h k).rxFree.getD (clsIdx c.cls) 0) (lane : Nat) :
    sequencedReceipt k lane lseq c h = acceptFuel k 1024 c (updLink k (takeBuffer (clsIdx c.cls)) h) := by
  rw [sequencedReceipt, hl, covers_pred_self, if_neg Bool.false_ne_true, if_neg (Nat.pos_iff_ne_zero.mp hfree), if_pos rfl]
  rfl

/-- The first part of a unit whose end is still to come. -/
def opensUnit (c : Cell) : Prop := cFirst c = true ∧ cLast c = false ∧ cAbort c = false

/-- A part joins the units under way, in place of one of its class and origin. -/
theorem assemble_of_opensUnit {c : Cell} (hc : opensUnit c) (ps : List Partial) :
    assemble c ps = ((ps.filter fun p => !(p.cls == c.cls && p.origin == c.origin)) ++
      [{ cls := c.cls, origin := c.origin, data := c.data }], none) := by
  obtain ⟨hfirst, hlast, habort⟩ := hc
  simp [assemble, hfirst, hlast, habort]

/-- The link that keeps a part with its unit, and frees its buffer. -/
def keepPart (c : Cell) (l : Link) : Link := freeBuffer (clsIdx c.cls) { l with partials := (assemble c l.partials).1 }

theorem passOn_of_opensUnit {c : Cell} (hc : opensUnit c) (h3 : c.cls ≠ 3) (h4 : c.cls ≠ 4) (k : Nat) (h : Hub) :
    passOn k c h = (updLink k (keepPart c) h, []) := by
  have hpart : (assemble c (linkAt h k).partials).2 = none := congrArg Prod.snd (assemble_of_opensUnit hc _)
  have hkept : updLink k (keepPart c) h = updLink k (fun l => freeBuffer (clsIdx c.cls)
      { l with partials := (assemble c (linkAt h k).partials).1 }) h := updLink_congr rfl
  rw [passOn, if_neg (by simp [h3, h4]), hkept]
  dsimp only
  rw [hpart]

/-- A freed buffer is counted as free and as freed; it may make a CREDIT due. -/
theorem freeBuffer_eq (i : Nat) (l : Link) :
    freeBuffer i l = { l with rxFree := raiseCls i 1 l.rxFree, freed := raiseCls i 1 l.freed, creditDue := (freeBuffer i l).creditDue } := by
  unfold freeBuffer
  dsimp only
  split <;> rfl

/-- A buffer that was free is so again once it has been taken and freed. -/
theorem raiseCls_lowerCls {i : Nat} {l : List Nat} (hl : 0 < l.getD i 0) : raiseCls i 1 (lowerCls i 1 l) = l := by
  have hback : l.getD i 0 - 1 + 1 = l.getD i 0 := by omega
  rw [raiseCls, lowerCls, updAt, updAt, List.modify_modify_eq]
  exact (updAt_congr (d := 0) (g := id) hback).trans (List.modify_id _ _)

/-- The link by which a part has come, been accepted in order and kept. -/
def tookPart (c : Cell) (l : Link) : Link := keepPart c (acceptOne (takeBuffer (clsIdx c.cls) l))

theorem tookPart_eq (c : Cell) (l : Link) :
    tookPart c l = { l with
      expect := l.expect + 1, accepted := l.expect, acceptedValid := true, beyond := [], partials := (assemble c l.partials).1
      rxFree := raiseCls (clsIdx c.cls) 1 (lowerCls (clsIdx c.cls) 1 l.rxFree), freed := raiseCls (clsIdx c.cls) 1 l.freed
      creditDue := (tookPart c l).creditDue } := by
  rw [tookPart, keepPart, freeBuffer_eq]
  rfl

/-- Accepting a part that no cell held ahead follows keeps it, and delivers nothing. -/
theorem acceptFuel_of_opensUnit {k : Nat} {c : Cell} {h : Hub} (hc : opensUnit c) (h3 : c.cls ≠ 3) (h4 : c.cls ≠ 4)
    (hlen : k < h.links.length) (ha : (linkAt h k).ahead = []) (n : Nat) :
    acceptFuel k (n + 1) c (updLink k (takeBuffer (clsIdx c.cls)) h) = (updLink k (tookPart c) h, []) := by
  have haccepted : updLink k (keepPart c) (updLink k acceptOne (updLink k (takeBuffer (clsIdx c.cls)) h)) = updLink k (tookPart c) h := by
    rw [updLink_updLink, updLink_updLink]
    rfl
  have hnone : (linkAt (updLink k (tookPart c) h) k).ahead = [] := by
    rw [linkAt_updLink_same hlen, tookPart_eq]
    exact ha
  unfold acceptFuel
  extract_lets g r l
  have hpass : r = (updLink k (tookPart c) h, []) := (passOn_of_opensUnit hc h3 h4 k g).trans (congrArg (·, []) haccepted)
  have hahead : l.ahead = [] := (congrArg (fun x : Hub × List Delivery => (linkAt x.1 k).ahead) hpass).trans hnone
  rw [hahead]
  exact hpass

/-- Settles O52: a cell that fails its LCRC is counted and answered (`nakSent`), and too many replays lose the lane (`noteLane`); the next one
in sequence is kept with its unit (`tookPart`); a repeat changes no link. How replays are counted is the model's choice (log 24). -/
theorem cellsAreAcceptedInOrder : Obligations.CellsAreAcceptedInOrder := by
  intro s lane b arrive hlane hlinks _
  dsimp only
  intro hup hrun hlink hready hreplay hheard
  have hk : laneLink lane < s.hub.links.length := hlinks.symm ▸ laneLink_lt hlane
  have hin : lane < s.hub.lanes.length := lt_of_laneAt_up hup
  have hruns : linkRuns s.hub (laneLink lane) = true := by rw [linkRuns, hrun, hlink]; rfl
  refine ⟨fun hcrc => ?bad, fun hcrc hres hcls hseq hfree ha _ hfreed _ hfirst hlast habort => ?next, fun hcrc hres hlo hhi hcov => ?again⟩
  case bad =>
    refine ⟨_, exec_cellReceipt (cellReceipt_of_bad hup hruns hcrc), ?_⟩
    rw [badCell_of_ready hready]
    have hcounted : laneAt (nakSent (laneLink lane) lane s.hub) lane = countCrc (laneAt s.hub lane) := laneAt_updLane_same hin _
    have hasked : askedIn arrive (laneAt (nakSent (laneLink lane) lane s.hub) lane) = askedIn arrive (laneAt s.hub lane) := by
      rw [hcounted]
      rfl
    have hstill : (laneAt (nakSent (laneLink lane) lane s.hub) lane).state = .up := by rwa [hcounted]
    obtain hfew | hmany := Nat.lt_or_ge (askedIn arrive (laneAt s.hub lane)).length 16
    · have hnak := linkAt_updLink_same (h := updLane lane countCrc s.hub) hk askAgain
      rw [noteLane_of_few (lt_of_laneAt_up hstill) (by rwa [hasked]), laneAt_updLane_same (lt_of_laneAt_up hstill), hcounted]
      exact ⟨rfl, fun _ => ⟨rfl, congrArg Link.linkQ hnak, (congrArg Link.expect hnak :), hup⟩, fun hmany => absurd hfew (Nat.not_lt.mpr hmany)⟩
    · obtain ⟨fails, hlost⟩ := laneAt_noteLane_of_many (arrive := arrive) hstill (by rwa [hasked])
      rw [hlost, hcounted]
      exact ⟨rfl, fun hfew => absurd hfew (Nat.not_lt.mpr hmany), fun _ => ⟨asserted_noteLane hstill (by rwa [hasked]), rfl⟩⟩
  case next =>
    have hunit : opensUnit (cellFrom b).2.2 := ⟨hfirst, hlast, habort⟩
    have hidx : clsIdx (cellFrom b).2.2.cls = 0 := by rw [hcls]; rfl
    have htook : linkAt (updLink (laneLink lane) (tookPart (cellFrom b).2.2) (updLane lane markCarried s.hub)) (laneLink lane) =
        tookPart (cellFrom b).2.2 (linkAt s.hub (laneLink lane)) := linkAt_updLink_same (h := updLane lane markCarried s.hub) hk _
    rw [tookPart_eq, hidx] at htook
    have hreceipt : sequencedReceipt (laneLink lane) lane (cellFrom b).1 (cellFrom b).2.2 (updLane lane markCarried s.hub) =
        (updLink (laneLink lane) (tookPart (cellFrom b).2.2) (updLane lane markCarried s.hub), []) :=
      (sequencedReceipt_of_next (h := updLane lane markCarried s.hub) hseq (hidx.symm ▸ hfree) lane).trans
        (acceptFuel_of_opensUnit (h := updLane lane markCarried s.hub) hunit (by omega) (by omega) hk ha 1023)
    have hgood := goodCell_of_sequenced (arrive := arrive) (s := { s with hub := updLane lane markCarried s.hub }) hreplay hheard
      (by omega) (by omega) hreceipt (congrArg Link.linkQ htook :)
    refine ⟨_, exec_cellReceipt ((cellReceipt_of_good hup hruns hcrc hres).trans hgood), rfl, ?_⟩
    rw [htook]
    refine ⟨rfl, rfl, ?_, raiseCls_lowerCls hfree, getD_updAt (by omega) ..⟩
    rw [assemble_of_opensUnit hunit, hcls]
    exact List.mem_append_right _ (List.mem_singleton_self _)
  case again =>
    have hrepeat := sequencedReceipt_of_repeat (h := updLane lane markCarried s.hub) hcov lane (cellFrom b).2.2
    have hgood := goodCell_of_sequenced (arrive := arrive) (s := { s with hub := updLane lane markCarried s.hub }) hreplay hheard
      hlo hhi hrepeat rfl
    exact exec_cellReceipt ((cellReceipt_of_good hup hruns hcrc hres).trans hgood)

end Sys2Proof.Machine
end

