-- ==== Sys2Proof/Proofs/ReplaysAsked.lean ====
section
/-! PROOFS. Replays asked for on account of several lanes: what the loss of one lane leaves of the others and of the collector (11 R268, R272,
R278). -/

namespace Sys2Proof.Machine

/-! ## What a link's loss moves (R278) -/

/-- A hub after traffic has been cut off or redirected: links, what has left, the stream and the outlets have moved, and nothing else. -/
def TrafficOnly (h g : Hub) : Prop :=
  g = { h with links := g.links, eth := g.eth, out := g.out, stream := g.stream, outlets := g.outlets }

theorem TrafficOnly.refl (h : Hub) : TrafficOnly h h := rfl

theorem TrafficOnly.trans {h g k : Hub} (hg : TrafficOnly h g) (hk : TrafficOnly g k) : TrafficOnly h k := by
  rw [TrafficOnly] at hg
  rw [hg] at hk
  exact hk

theorem TrafficOnly.faults {h g : Hub} (hg : TrafficOnly h g) : g.faults = h.faults := by
  rw [TrafficOnly] at hg
  rw [hg]

theorem trafficOnly_updLink (k : Nat) (f : Link → Link) (h : Hub) : TrafficOnly h (updLink k f h) := rfl

theorem trafficOnly_eth (h : Hub) (e : Eth) : TrafficOnly h { h with eth := e } := rfl

theorem trafficOnly_links (h : Hub) (ls : List Link) : TrafficOnly h { h with links := ls } := rfl

theorem trafficOnly_unsend_flushLane (f : Held → Bool) (h : Hub) : TrafficOnly h (unsend f (flushLane h)) := rfl

theorem trafficOnly_recordDatagram (origin offset seq port : Nat) (bs : Bytes) (h : Hub) :
    TrafficOnly h (recordDatagram origin offset seq port bs h) := by
  unfold recordDatagram
  split
  · exact .refl h
  · rfl

theorem trafficOnly_forwardEth (c : Cell) (h : Hub) : TrafficOnly h (forwardEth c h) := by
  unfold forwardEth
  extract_lets cur others
  split
  · exact trafficOnly_eth ..
  · split
    · exact (trafficOnly_recordDatagram ..).trans (trafficOnly_eth ..)
    · exact trafficOnly_eth ..

theorem trafficOnly_freeSources (cs : List Cell) (h : Hub) : TrafficOnly h (freeSources cs h) := by
  refine List.foldlRecOn cs _ (TrafficOnly.refl h) fun g hg c _ => ?_
  split
  · exact hg.trans (trafficOnly_updLink ..)
  · exact hg

theorem trafficOnly_drainPass (h : Hub) : TrafficOnly h (drainPass h) := by
  unfold drainPass
  split
  · refine TrafficOnly.trans ?_ (trafficOnly_freeSources ..)
    exact List.foldlRecOn _ _ (trafficOnly_updLink ..) fun g hg c _ => hg.trans (trafficOnly_forwardEth c g)
  · exact .refl h

theorem trafficOnly_queuePass (toward : Nat) (cs : List Cell) (h : Hub) : TrafficOnly h (queuePass toward cs h) := by
  unfold queuePass
  dsimp only
  split
  · exact (trafficOnly_updLink ..).trans (trafficOnly_drainPass _)
  · exact trafficOnly_updLink ..

theorem trafficOnly_cutPass (k : Nat) (h : Hub) : TrafficOnly h (cutPass k h) := by
  unfold cutPass
  extract_lets l
  split
  · exact .refl h
  · refine TrafficOnly.trans ?_ (trafficOnly_updLink ..)
    split
    · exact trafficOnly_freeSources ..
    · exact (trafficOnly_freeSources ..).trans (trafficOnly_links ..)

theorem trafficOnly_cutOwn (k : Nat) (h : Hub) : TrafficOnly h (cutOwn k h) := by
  unfold cutOwn
  split
  · exact .refl h
  · exact trafficOnly_updLink ..

theorem trafficOnly_foldl_abortOnward (ps : List Partial) (h : Hub) :
    TrafficOnly h (ps.foldl (fun h p => abortOnward p.origin h) h) :=
  List.foldlRecOn ps _ (TrafficOnly.refl h) fun _ hg _ _ => hg.trans (trafficOnly_queuePass ..)

theorem trafficOnly_linkDown (k : Nat) (h : Hub) : TrafficOnly h (linkDown k h) := by
  unfold linkDown
  extract_lets l aborted cut gone
  have haborted : TrafficOnly h aborted := by
    show TrafficOnly h (if l.up then _ else h)
    split
    · exact trafficOnly_foldl_abortOnward ..
    · exact .refl h
  have hgone : TrafficOnly h gone :=
    ((haborted.trans (trafficOnly_cutPass k aborted)).trans (trafficOnly_cutOwn ..)).trans (trafficOnly_updLink ..)
  split
  · exact hgone.trans (trafficOnly_unsend_flushLane ..)
  · exact hgone

theorem trafficOnly_leaveLink (l : Nat) (h : Hub) : TrafficOnly h (leaveLink l h) := by
  unfold leaveLink
  dsimp only
  split
  · split
    · exact trafficOnly_updLink ..
    · exact trafficOnly_linkDown ..
  · exact .refl h

theorem laneTo_faults (st : LaneState) (l : Nat) (h : Hub) : (laneTo st l h).faults = h.faults := by
  unfold laneTo
  dsimp only
  split
  · exact (trafficOnly_leaveLink ..).faults
  · rfl

/-! ## One lane's share (R268) -/

/-- What is asserted stays so when a lane that was UP is lost. -/
theorem asserted_laneLoss_of_asserted {l source inst : Nat} {h : Hub} (hup : (laneAt h l).state = .up)
    (ha : asserted h source inst = true) (k dt : Nat) : asserted (laneLoss k l dt h) source inst = true := by
  have hleft : asserted (updLane l (fun x => { x with silent := true }) (laneTo .searching l (updLane l countLoss h))) source inst =
      true := by
    rw [asserted, updLane_faults, laneTo_faults, updLane_faults]
    exact ha
  have hlost : asserted (loseLane k l dt h) source inst = true := asserted_raiseFault_of_asserted hleft ..
  obtain hg | hg := laneLoss_of_up hup k dt <;> rw [hg]
  · exact hlost
  · exact asserted_failTraining_of_asserted hlost l

section
variable {l : Nat} {arrive : Inst} {h : Hub} (hup : (laneAt h l).state = .up)
include hup

/-- A replay asked for on account of an UP lane is noted there, and may lose the lane. -/
theorem noteLane_of_up :
    noteLane arrive h l = updLane l (noteReplay arrive) h ∨
      noteLane arrive h l = laneLoss 1 l 0 (updLane l (noteReplay arrive) h) := by
  obtain hfew | hmany := Nat.lt_or_ge (askedIn arrive (laneAt h l)).length 16
  · exact .inl (noteLane_of_few (lt_of_laneAt_up hup) hfew)
  · exact .inr (noteLane_of_many (lt_of_laneAt_up hup) hmany)

theorem laneAt_noteLane_ne {m : Nat} (hm : m ≠ l) : laneAt (noteLane arrive h l) m = laneAt h m := by
  obtain hg | hg := noteLane_of_up (arrive := arrive) hup <;> rw [hg]
  · exact laneAt_updLane_ne hm ..
  · rw [laneAt_laneLoss_ne 1 0 (state_updLane_noteReplay hup arrive) hm, laneAt_updLane_ne hm]

theorem asserted_noteLane_of_asserted {source inst : Nat} (ha : asserted h source inst = true) :
    asserted (noteLane arrive h l) source inst = true := by
  obtain hg | hg := noteLane_of_up (arrive := arrive) hup <;> rw [hg]
  · exact ha
  · exact asserted_laneLoss_of_asserted (state_updLane_noteReplay hup arrive) ha 1 0

end

/-! ## Every lane's share (R268, R272) -/

/-- Noting one lane's share leaves the lanes after it UP. -/
theorem up_noteLane_of_mem {l : Nat} {ls : List Nat} {h : Hub} (hnodup : (l :: ls).Nodup)
    (hup : ∀ m ∈ l :: ls, (laneAt h m).state = .up) (arrive : Inst) : ∀ m ∈ ls, (laneAt (noteLane arrive h l) m).state = .up := by
  intro m hm
  have hne : m ≠ l := ne_of_mem_of_not_mem hm (List.nodup_cons.mp hnodup).1
  rw [laneAt_noteLane_ne (hup l List.mem_cons_self) hne]
  exact hup m (List.mem_cons_of_mem _ hm)

section
variable {arrive : Inst} {ls : List Nat} {h : Hub} (hnodup : ls.Nodup) (hup : ∀ l ∈ ls, (laneAt h l).state = .up)
include hnodup hup

theorem asserted_noteAsked_of_asserted {source inst : Nat} (ha : asserted h source inst = true) :
    asserted (noteAsked arrive ls h) source inst = true := by
  rw [noteAsked_eq]
  induction ls generalizing h with
  | nil => exact ha
  | cons l ls ih =>
    exact ih (List.nodup_cons.mp hnodup).2 (up_noteLane_of_mem hnodup hup arrive)
      (asserted_noteLane_of_asserted (hup l List.mem_cons_self) ha)

/-- The lane with too many replays raises LANE_LOL, whatever becomes of the others. -/
theorem asserted_noteAsked {m : Nat} (hm : m ∈ ls) (hmany : 16 ≤ (askedIn arrive (laneAt h m)).length) :
    asserted (noteAsked arrive ls h) (0x91 + 8 * m) 0 = true := by
  induction ls generalizing h with
  | nil => cases hm
  | cons l ls ih =>
    have hrest := (List.nodup_cons.mp hnodup).2
    have hstill := up_noteLane_of_mem hnodup hup arrive
    by_cases hml : m = l
    · subst hml
      exact asserted_noteAsked_of_asserted hrest hstill (asserted_noteLane (hup m List.mem_cons_self) hmany)
    · have hsame : laneAt (noteLane arrive h l) m = laneAt h m := laneAt_noteLane_ne (hup l List.mem_cons_self) hml
      exact ih (h := noteLane arrive h l) hrest hstill (List.mem_of_ne_of_mem hml hm) (hsame ▸ hmany)

/-- While no lane has too many, the replays are noted and nothing else changes. -/
theorem noteAsked_of_few (hfew : ∀ l ∈ ls, (askedIn arrive (laneAt h l)).length < 16) :
    noteAsked arrive ls h = { h with lanes := (noteAsked arrive ls h).lanes } ∧
      ∀ m, laneAt (noteAsked arrive ls h) m = { laneAt h m with asked := (laneAt (noteAsked arrive ls h) m).asked } := by
  rw [noteAsked_eq]
  induction ls generalizing h with
  | nil => exact ⟨rfl, fun _ => rfl⟩
  | cons l ls ih =>
    have hin := lt_of_laneAt_up (hup l List.mem_cons_self)
    have hnoted := noteLane_of_few hin (hfew l List.mem_cons_self)
    have hlane : ∀ m, laneAt (noteLane arrive h l) m = { laneAt h m with asked := (laneAt (noteLane arrive h l) m).asked } := by
      intro m
      by_cases hm : m = l
      · subst hm
        rw [hnoted, laneAt_updLane_same hin]
        rfl
      · rw [laneAt_noteLane_ne (hup l List.mem_cons_self) hm]
    obtain ⟨hframe, hlanes⟩ := ih (List.nodup_cons.mp hnodup).2 (up_noteLane_of_mem hnodup hup arrive) fun m hm => by
      rw [laneAt_noteLane_ne (hup l List.mem_cons_self) (ne_of_mem_of_not_mem hm (List.nodup_cons.mp hnodup).1)]
      exact hfew m (List.mem_cons_of_mem _ hm)
    rw [List.foldl_cons]
    refine ⟨?_, fun m => ?_⟩
    · rw [hframe, hnoted]
      rfl
    · rw [hlanes m, hlane m]

end

end Sys2Proof.Machine
end

