-- ==== Sys2Proof/Proofs/LinkMessages.lean ====
section
/-! PROOFS. LINK messages: what NAK, a gap, CREDIT, RESYNC and a returned test cell ask of a link and its lanes (11 R272 to R275, R277). -/

namespace Sys2Proof.Machine

/-! ## Fields and tables -/

theorem ofLe_lt (bs : Bytes) : ofLe bs < 2 ^ (8 * bs.length) := by
  induction bs with
  | nil => exact Nat.one_pos
  | cons b bs ih =>
    have hb := b.isLt
    rw [ofLe, List.length_cons, Nat.mul_add, Nat.pow_add, Nat.mul_comm (2 ^ _)]
    omega

theorem fieldAt_lt (bs : Bytes) (off n : Nat) : fieldAt bs off n < 2 ^ (8 * n) :=
  Nat.lt_of_lt_of_le (ofLe_lt _) (Nat.pow_le_pow_right (by decide) (Nat.mul_le_mul_left 8 (List.length_take_le ..)))

theorem getD_mapI {α β : Type} {i : Nat} {l : List α} (hi : i < l.length) (f : Nat → α → β) (a : α) (b : β) :
    (mapI f l).getD i b = f i (l.getD i a) := by
  simp [mapI, hi]

theorem getD_map_range {α : Type} {i n : Nat} (hi : i < n) (f : Nat → α) (d : α) : ((List.range n).map f).getD i d = f i := by
  simp [hi]

theorem updLane_congr {l : Nat} {h : Hub} {f g : Lane → Lane} (hfg : f (laneAt h l) = g (laneAt h l)) : updLane l f h = updLane l g h := by
  rw [updLane, updAt_congr hfg, updLane]

/-! ## A gap that has stood (R272) -/

/-- A gap has stood: its lowest missing cell is asked for, on account of every lane that carries the link's traffic. -/
def gapAsked (k : Nat) (h : Hub) : Hub := noteAsked h.time.tickInst (upLanes h k) (updLink k askAgain h)

section
variable {k : Nat} {s : State}

theorem exec_nakGapTimeout_of_gap (hr : linkRuns s.hub k = true) (ha : (linkAt s.hub k).ahead ≠ []) :
    exec (.nakGapTimeout k) s = .next (settleLanes s.hub { s with hub := gapAsked k s.hub }) := by
  have hgap : (linkRuns s.hub k && !(linkAt s.hub k).ahead.isEmpty) = true := by simp [hr, ha]
  simp only [exec, execNakGapTimeout, hgap, if_true]
  exact next_laneWork rfl

theorem exec_nakGapTimeout_of_none (ha : (linkAt s.hub k).ahead = []) : exec (.nakGapTimeout k) s = .next s := by
  simp [exec, execNakGapTimeout, ha]

end

theorem nodup_upLanes {k : Nat} (hk : k < 4) (h : Hub) : (upLanes h k).Nodup := by
  have hlanes : ∀ k < 4, (linkLanes k).Nodup := by decide
  exact (hlanes k hk).filter _

theorem up_of_mem_upLanes {h : Hub} {k m : Nat} (hm : m ∈ upLanes h k) : (laneAt h m).state = .up := by
  have hcarries := (List.mem_filter.mp hm).2
  simp only [Bool.and_eq_true, beq_iff_eq] at hcarries
  exact hcarries.1.1

/-! ## Credits (R273) -/

/-- The counts of buffers freed that a CREDIT reports. -/
def freedCounts (msg : Bytes) : List Nat := (List.range 5).map fun i => fieldAt msg (4 + 4 * i) 4

/-- The credits that a CREDIT leaves. -/
def grownCredits (msg : Bytes) (l : Link) : List Nat :=
  mapI (fun i c => c + (BitVec.ofNat 32 ((freedCounts msg).getD i 0) - BitVec.ofNat 32 (l.farFreed.getD i 0)).toNat) l.credits

/-- Credits and cells in flight of some class exceed the far side's buffers. -/
def breaksBook (k : Nat) (l : Link) (credits : List Nat) : Bool :=
  (List.range 5).any fun i => decide ((rxCaps k).getD i 0 < credits.getD i 0 + inFlight l i)

/-- The link once a CREDIT has been applied. -/
def creditedBy (msg : Bytes) (l : Link) : Link := { l with credits := grownCredits msg l, farFreed := freedCounts msg }

theorem creditReceipt_eq (k lane : Nat) (msg : Bytes) (h : Hub) :
    creditReceipt k lane msg h =
      if breaksBook k (linkAt h k) (grownCredits msg (linkAt h k)) then raiseNow (laneBase lane + 5) 0 0 0 h
      else updLink k (creditedBy msg) h := by
  have hcredited : updLink k (creditedBy msg) h =
      updLink k (fun l => { l with credits := grownCredits msg (linkAt h k), farFreed := freedCounts msg }) h := updLink_congr rfl
  rw [hcredited]
  rfl

theorem breaksBook_iff {k : Nat} {l : Link} {credits : List Nat} :
    breaksBook k l credits = true ↔ ∃ i, i < 5 ∧ (rxCaps k).getD i 0 < credits.getD i 0 + inFlight l i := by
  simp [breaksBook]

/-- After a restart of the counts the credits grow by what the message reports. -/
theorem getD_grownCredits {l : Link} (hc : l.credits.length = 5) (hf : l.farFreed = [0, 0, 0, 0, 0]) (msg : Bytes) {i : Nat} (hi : i < 5) :
    (grownCredits msg l).getD i 0 = l.credits.getD i 0 + (freedCounts msg).getD i 0 := by
  have hnone : ∀ j < 5, [0, 0, 0, 0, 0].getD j 0 = 0 := by decide
  have hzero : l.farFreed.getD i 0 = 0 := hf ▸ hnone i hi
  have hlt : (freedCounts msg).getD i 0 < 2 ^ 32 := by
    rw [freedCounts, getD_map_range hi]
    exact fieldAt_lt msg _ 4
  rw [grownCredits, getD_mapI (hc.symm ▸ hi) _ 0, hzero]
  simp only [BitVec.sub_zero, BitVec.toNat_ofNat, Nat.mod_eq_of_lt hlt]

theorem exec_credit_of_runs {k : Nat} {s : State} (hr : linkRuns s.hub k = true) (msg : Bytes) :
    exec (.credit k msg) s = .next { s with hub := creditReceipt k (headLane s.hub k) msg s.hub } := by
  simp only [exec, execCredit, hr, if_true, hubNext]

theorem exec_creditReturnSend (k : Nat) (s : State) :
    exec (.creditReturnSend k) s =
      .next (if linkRuns s.hub k && (linkAt s.hub k).ready then { s with hub := updLink k (fun l => { l with creditDue := true }) s.hub }
        else s) := by
  simp only [exec, execCreditReturnSend, hubNext]
  split <;> rfl

/-! ## RESYNC (R274, R277) -/

/-- The far side's free buffers that a RESYNC reports. -/
def freeCounts (msg : Bytes) : List Nat := (List.range 5).map fun i => fieldAt msg (8 + 2 * i) 2

/-- The link as a RESYNC restarts it: what is not acknowledged goes again, on the credits that leaves. -/
def restarted (msg : Bytes) (l : Link) : Link :=
  { l with
    resendQ := l.replay, credits := mapI (fun i f => f - inFlight l i) (freeCounts msg)
    farFreed := [0, 0, 0, 0, 0], freed := [0, 0, 0, 0, 0], reported := [0, 0, 0, 0, 0] }

/-- A RESYNC on a link that is not ready: the next number expected is known. -/
def initialisedBy (msg : Bytes) (l : Link) : Link :=
  { restarted msg l with expect := BitVec.ofNat 16 (fieldAt msg 2 2), resyncHeard := true }

/-- A RESYNC on a link that carries traffic: the side that did not start it answers. -/
def answersResync (msg : Bytes) (l : Link) : Link :=
  if l.resyncSent then { restarted msg l with resyncSent := false }
  else { restarted msg l with resyncDue := true, resyncAnswer := true }

/-- A RESYNC at a link: it completes the initialisation, or restarts a link that carries traffic. -/
def resyncedBy (msg : Bytes) (l : Link) : Link := if !l.ready then initialisedBy msg l else answersResync msg l

theorem resyncReceipt_eq (k lane : Nat) (msg : Bytes) (h : Hub) :
    resyncReceipt k lane msg h =
      if (List.range 5).any fun i => decide ((rxCaps k).getD i 0 < (freeCounts msg).getD i 0) then raiseNow (laneBase lane + 5) 0 0 0 h
      else
        let g := if bitOf (fieldAt msg 1 1) 0 && (linkAt h k).ready then applyAck k (BitVec.ofNat 16 (fieldAt msg 4 2)) h else h
        updLink k (resyncedBy msg) (if (linkAt g k).ready then stopLost k lane g else g) := rfl

/-- The free buffers fit the book. -/
def freeFits (k : Nat) (msg : Bytes) : Prop := ∀ i, i < 5 → fieldAt msg (8 + 2 * i) 2 ≤ (rxCaps k).getD i 0

theorem freeFits_any {k : Nat} {msg : Bytes} (hf : freeFits k msg) :
    ((List.range 5).any fun i => decide ((rxCaps k).getD i 0 < (freeCounts msg).getD i 0)) = false := by
  rw [List.any_eq_false]
  intro i hi
  have hi5 := List.mem_range.mp hi
  rw [freeCounts, getD_map_range hi5]
  simpa using hf i hi5

section
variable {k : Nat} {msg : Bytes} {h : Hub} (hf : freeFits k msg) (lane : Nat)
include hf

theorem resyncReceipt_of_not_ready (hr : (linkAt h k).ready = false) :
    resyncReceipt k lane msg h = updLink k (initialisedBy msg) h := by
  rw [resyncReceipt_eq, freeFits_any hf, hr, Bool.and_false]
  simp only [Bool.false_eq_true, if_false, hr]
  exact updLink_congr (by rw [resyncedBy, hr]; rfl)

/-- A RESYNC that acknowledges nothing, on a link that carries traffic, stops the lanes that the far side has lost. -/
theorem resyncReceipt_of_ready (hr : (linkAt h k).ready = true) (hv : bitOf (fieldAt msg 1 1) 0 = false)
    (hstop : linkAt (stopLost k lane h) k = linkAt h k) :
    resyncReceipt k lane msg h = updLink k (answersResync msg) (stopLost k lane h) := by
  rw [resyncReceipt_eq, freeFits_any hf, hv, Bool.false_and]
  simp only [Bool.false_eq_true, if_false, hr, if_true]
  exact updLink_congr (by rw [resyncedBy, hstop, hr]; rfl)

end

theorem stopLost_frame (k lane : Nat) (h : Hub) : stopLost k lane h = { h with lanes := (stopLost k lane h).lanes } :=
  List.foldlRecOn (motive := fun g : Hub => g = { h with lanes := g.lanes }) _ _ rfl fun g (hg : g = _) _ _ => by
    rw [hg]
    rfl

theorem linkAt_stopLost (k lane : Nat) (h : Hub) : linkAt (stopLost k lane h) k = linkAt h k := by rw [stopLost_frame]; rfl

theorem exec_resync_of_runs {k : Nat} {s : State} (hr : linkRuns s.hub k = true) {msg : Bytes} {g : Hub}
    (hg : resyncReceipt k (headLane s.hub k) msg s.hub = g) :
    exec (.resync k msg) s = .next (settleLanes s.hub { s with hub := g }) := by
  simp only [exec, execResync, hr, if_true]
  exact next_laneWork hg

/-- With nothing in flight the credits are the far side's free buffers. -/
theorem credits_restarted_of_none {l : Link} (hr : l.replay = []) (msg : Bytes) : (restarted msg l).credits = freeCounts msg := by
  have hnone (i : Nat) : inFlight l i = 0 := by simp [inFlight, hr]
  simp only [restarted, hnone, mapI, Nat.sub_zero]
  exact List.ext_getElem (by simp) fun i _ _ => by simp

/-! ## Test loops (R275) -/

theorem exec_loopTest_of_loopback {lane : Nat} {s : State} (hs : (laneAt s.hub lane).state = .loopback)
    (hp : lPrbs (laneDesc s.hub lane) = false) (msg : Bytes) (ok : Bool) :
    exec (.loopTest lane msg ok) s = .next { s with hub := loopReturned lane msg ok s.hub } :=
  congrArg (hubNext s) (if_pos (by simp [hs, hp]))

/-- The payload of a LOOP_TEST cell of a count. -/
def loopPayload (n : Nat) : Bytes := (List.range 232).map fun i => BitVec.ofNat 8 (n + i)

theorem fieldAt_loopTestMsg {n : Nat} (hn : n < 2 ^ 32) : fieldAt (loopTestMsg n) 4 4 = n := by
  rw [loopTestMsg, fieldAt_behind (leNat_length 4 4) (leNat_length 4 n), ofLe_leNat_of_lt hn]

theorem drop_loopTestMsg (n : Nat) : padTo 232 ((loopTestMsg n).drop 8) = loopPayload n := by
  have hdrop : (loopTestMsg n).drop 8 = loopPayload n := List.drop_left' (by simp)
  rw [hdrop, padTo, List.take_left' (by simp [loopPayload])]

/-- A payload that comes back as it left has no bit in error. -/
theorem bitErrors_loopPayload (n : Nat) : sumNat (mapI (fun i b => bitDiff b (BitVec.ofNat 8 (n + i))) (loopPayload n)) = 0 := by
  refine List.foldlRecOn (motive := fun a => a = 0) _ _ rfl fun a ha x hx => ?_
  obtain ⟨i, hi, rfl⟩ := List.mem_mapIdx.mp hx
  simp [ha, loopPayload, bitDiff, bitsLe]

/-- The lane once a test cell has come back: the counts before it have had their turn. -/
def loopSeenAfter (n : Nat) (x : Lane) : Lane := { x with loopSeen := x.loopSeen.filter fun c => decide (n < c) }

theorem loopReturned_of_sound {lane n : Nat} {h : Hub} (hn : n < 2 ^ 32) (hseen : ∀ c ∈ (laneAt h lane).loopSeen, n ≤ c) :
    loopReturned lane (loopTestMsg n) true h = updLane lane (fun _ => loopSeenAfter n (laneAt h lane)) h := by
  have hnone : (laneAt h lane).loopSeen.filter (fun c => decide (c < n)) = [] := by simpa using hseen
  rw [loopReturned]
  simp only [fieldAt_loopTestMsg hn, drop_loopTestMsg, bitErrors_loopPayload, Bool.not_true, Bool.false_eq_true, if_false]
  refine updLane_congr ?_
  simp [hnone, loopSeenAfter]

/-- Settles O53, clause by clause: a LINK message changes its link; a gap counts for the link's lanes too (`gapAsked`), and a RESYNC on a link that
carries traffic stops those that the far side has lost. How replays are counted is the model's choice (log 24). -/
theorem linkMessages : Obligations.LinkMessages := by
  intro s k hk4 hrun hlinks hup _
  have hk : k < s.hub.links.length := by omega
  have hr : linkRuns s.hub k = true := by rw [linkRuns, hrun, hup]; rfl
  have hnodup := nodup_upLanes hk4 s.hub
  have hcarry : ∀ m ∈ upLanes s.hub k, (laneAt (updLink k askAgain s.hub) m).state = .up := fun m hm => up_of_mem_upLanes hm
  dsimp only
  refine ⟨fun missing => ?nak, fun ha hfew => ?gap, fun m hm ha hmany => ?lost, exec_nakGapTimeout_of_none,
    fun msg hc hf => ?credit, fun hready => ?due, fun hready => ?idle, fun msg hready ha hreplay hfree => ?fresh,
    fun msg hready hv hfree => ?running, fun lane msg hlane hs hp => ⟨?bad, fun n hn hmsg hseen => ?sound⟩⟩
  case nak => exact congrArg (hubNext s) (if_pos hr)
  case gap =>
    obtain ⟨hframe, hsame⟩ := noteAsked_of_few hnodup hcarry hfew
    have hlink (m : Nat) : linkAt (gapAsked k s.hub) m = linkAt (updLink k askAgain s.hub) m := by rw [gapAsked, hframe]; rfl
    refine ⟨_, exec_nakGapTimeout_of_gap hr ha, ?_, (hlink k).trans (linkAt_updLink_same hk _),
      fun m hm => (hlink m).trans (linkAt_updLink_ne hm ..), hsame⟩
    rw [gapAsked, hframe]
    rfl
  case lost => exact ⟨_, exec_nakGapTimeout_of_gap hr ha, asserted_noteAsked hnodup hcarry hm hmany⟩
  case credit =>
    refine ⟨fun hfits => ?_, fun ⟨i, hi, hover⟩ hfresh => ?_⟩
    · have hbook : ¬breaksBook k (linkAt s.hub k) (grownCredits msg (linkAt s.hub k)) = true := by
        rw [breaksBook_iff]
        rintro ⟨i, hi, hover⟩
        rw [getD_grownCredits hc hf msg hi] at hover
        exact absurd (hfits i hi) (Nat.not_le.mpr hover)
      have hlink : (updAt s.hub.links k (creditedBy msg)).getD k {} = creditedBy msg (linkAt s.hub k) := linkAt_updLink_same hk _
      have hexec := exec_credit_of_runs hr msg
      rw [creditReceipt_eq, if_neg hbook] at hexec
      refine ⟨_, hexec, ?_, fun i hi => ?_⟩
      · rw [hlink]
        rfl
      · rw [hlink]
        exact getD_grownCredits hc hf msg hi
    · have hbook : breaksBook k (linkAt s.hub k) (grownCredits msg (linkAt s.hub k)) = true :=
        breaksBook_iff.mpr ⟨i, hi, (getD_grownCredits hc hf msg hi).symm ▸ hover⟩
      have hsource : laneBase (headLane s.hub k) + 5 = 0x95 + 8 * headLane s.hub k := laneBase_add ..
      have hswitch : ¬IsSwitchFault (0x95 + 8 * headLane s.hub k) := by unfold IsSwitchFault; omega
      rw [exec_credit_of_runs hr, creditReceipt_eq, if_pos hbook, hsource]
      exact congrArg (hubNext s) (raiseFault_of_fresh hfresh hswitch _ _ 0 true)
  case due => rw [exec_creditReturnSend, hr, hready]; rfl
  case idle => rw [exec_creditReturnSend, hready, Bool.and_false]; rfl
  case fresh =>
    have hlink := linkAt_updLink_same hk (initialisedBy msg)
    exact ⟨_, exec_resync_of_runs hr (resyncReceipt_of_not_ready hfree _ hready), congrArg Link.resyncHeard hlink,
      congrArg Link.expect hlink, (congrArg Link.credits hlink).trans (credits_restarted_of_none hreplay msg),
      fun m hm => linkAt_updLink_ne hm (initialisedBy msg) s.hub⟩
  case running =>
    have hstop := linkAt_stopLost k (headLane s.hub k) s.hub
    have hlink : linkAt (updLink k (answersResync msg) (stopLost k (headLane s.hub k) s.hub)) k = answersResync msg (linkAt s.hub k) := by
      rw [linkAt_updLink_same (by rw [stopLost_frame]; exact hk), hstop]
    refine ⟨_, exec_resync_of_runs hr (resyncReceipt_of_ready hfree _ hready hv hstop), ?_, ?_⟩
    · rw [stopLost_frame]
      rfl
    have hcredit (i : Nat) (hi : i < 5) : (restarted msg (linkAt s.hub k)).credits.getD i 0 =
        fieldAt msg (8 + 2 * i) 2 - inFlight (linkAt s.hub k) i := by
      rw [restarted, getD_mapI (by simpa [freeCounts] using hi) _ 0, freeCounts, getD_map_range hi]
    rw [hlink, answersResync]
    split
    next hsent => exact ⟨rfl, rfl, rfl, hcredit, fun hno => absurd hsent (by simp [hno]), fun _ => ⟨rfl, rfl⟩⟩
    next hno => exact ⟨rfl, rfl, rfl, hcredit, fun _ => ⟨rfl, rfl⟩, fun hsent => absurd hsent hno⟩
  case bad => exact exec_loopTest_of_loopback hs hp msg false
  case sound =>
    subst hmsg
    exact ⟨loopSeenAfter n (laneAt s.hub lane), (exec_loopTest_of_loopback hs hp _ true).trans (by rw [loopReturned_of_sound hn hseen]), rfl⟩

end Sys2Proof.Machine
end

