-- ==== Sys2Proof/Proofs/MailDatagrams.lean ====
section
/-! PROOFS. Lane U in Ethernet: mailbox datagrams on their way to the bonds, and the resolution of addresses (11 R287, R288, R290). -/

namespace Sys2Proof.Machine

/-! ## Mailbox datagrams (R290) -/

/-- The hub has an address on a link that is up, and runs. -/
structure Addressed (h : Hub) : Prop where
  runs : isUp h = true
  linked : ethUp h = true
  addr : upAddr h ≠ 0

section
variable {d : Bytes} {s : State}

theorem exec_udpMailboxDatagram_of_ok (ha : Addressed s.hub) (hok : datagramOk d = true) (env : Env) :
    exec (.udpMailboxDatagram d env) s = .next (mailDatagram d env s) := by
  simp [exec, execUdpMailboxDatagram, ha.runs, ha.linked, ha.addr, hok]

theorem exec_udpMailboxDatagram_of_not_ok (hok : datagramOk d = false) (env : Env) : exec (.udpMailboxDatagram d env) s = .next s := by
  simp [exec, execUdpMailboxDatagram, hok]

end

/-- What the first datagram of a message makes of it. -/
def firstOf (d : Bytes) : Reasm :=
  { dest := BitVec.ofNat 32 (fieldAt d 0 4), mb := fieldAt d 4 1, msgId := BitVec.ofNat 32 (fieldAt d 8 4), total := fieldAt d 6 2
    data := [(fieldAt d 12 2, d.drop 16)] }

theorem coverFrom_single (o : Nat) (b : Bytes) : coverFrom 0 [(o, b)] = if 0 < o then [] else b := by
  cases o <;> simp [coverFrom]

/-- A datagram that no message waits for opens one, or is the whole of it. -/
theorem reassemble_of_first {d : Bytes} {h : Hub} (hr : h.eth.reasm = []) :
    reassemble d h =
      if fieldAt d 6 2 ≤ (coverFrom 0 [(fieldAt d 12 2, d.drop 16)]).length then ({ h with eth.reasm := [] }, some (firstOf d))
      else ({ h with eth.reasm := [firstOf d] }, none) := by
  simp only [reassemble, hr, List.find?_nil, List.filter_nil, Option.getD_none, insertBy, List.nil_append]
  rfl

theorem reasm_self {h : Hub} {r : List Reasm} (hr : h.eth.reasm = r) : { h with eth.reasm := r } = h := by rw [← hr]

section
variable {d : Bytes} {s : State} (hr : s.hub.eth.reasm = [])
include hr

/-- A whole message for another hub goes onto the bonds with no hop counted. -/
theorem mailDatagram_of_whole (hoff : fieldAt d 12 2 = 0) (htotal : fieldAt d 6 2 = d.length - 16)
    (hdest : BitVec.ofNat 32 (fieldAt d 0 4) ≠ s.hub.flash.hubId) (env : Env) :
    mailDatagram d env s =
      { s with hub := forwardMail 3 (BitVec.ofNat 32 (fieldAt d 0 4)) 0 (fieldAt d 4 1) (d.drop 16) s.hub } := by
  have hcover : coverFrom 0 [(fieldAt d 12 2, d.drop 16)] = d.drop 16 := by rw [coverFrom_single, hoff, if_neg (Nat.lt_irrefl 0)]
  have hwhole : reassemble d s.hub = (s.hub, some (firstOf d)) := by
    rw [reassemble_of_first hr, hcover, if_pos (Nat.le_of_eq (htotal.trans List.length_drop.symm)), reasm_self hr]
  have hother : ¬(BitVec.ofNat 32 (fieldAt d 0 4) == s.hub.flash.hubId) = true := by simpa using hdest
  rw [mailDatagram, hwhole]
  simp only [firstOf, hcover, hother, if_false, Bool.false_eq_true]

/-- A message that is not complete waits. -/
theorem mailDatagram_of_part (htotal : d.length - 16 < fieldAt d 6 2) (env : Env) :
    mailDatagram d env s = { s with hub := { s.hub with eth.reasm := [firstOf d] } } := by
  have hshort : (coverFrom 0 [(fieldAt d 12 2, d.drop 16)]).length ≤ d.length - 16 := by
    rw [coverFrom_single]
    split <;> simp
  rw [mailDatagram, reassemble_of_first hr, if_neg (by omega)]

end

/-! ## Address resolution (R287) -/

theorem exec_arpRequest_of_addressed {ip : Word} {s : State} (ha : Addressed s.hub) (hip : ip.toNat = upAddr s.hub) (sender : Word)
    (mac : BitVec 48) :
    exec (.arpRequest ip sender mac) s = .next { s with hub := sendOut (.arp true sender mac (Config.mac 0)) s.hub } :=
  congrArg (hubNext s) (if_pos (by simp [ha.runs, ha.linked, ha.addr, hip]))

theorem exec_arpRequest_of_other {ip : Word} {s : State} (hip : ip.toNat ≠ upAddr s.hub) (sender : Word) (mac : BitVec 48) :
    exec (.arpRequest ip sender mac) s = .next s :=
  congrArg (hubNext s) (if_neg (by simp [hip]))

/-- The hub that has an address resolved. -/
def resolved (ip : Word) (mac : BitVec 48) (h : Hub) : Hub := { h with eth.arp := (ip, mac) :: h.eth.arp.filter (·.1 != ip) }

section
variable {ip : Word} {s : State} (mac : BitVec 48)

theorem exec_arpReply_of_hop (he : ethUp s.hub = true) (hip : ip.toNat = nextHop s.hub) :
    exec (.arpReply ip mac) s = .next { s with hub := drainEth (resolved ip mac s.hub) } := by
  simp only [exec, execArpReply, he, hip, beq_self_eq_true, Bool.and_self, if_true]
  rfl

theorem exec_arpReply_of_other (hip : ip.toNat ≠ nextHop s.hub) : exec (.arpReply ip mac) s = .next s := by
  simp [exec, execArpReply, hip]

end

/-- A hub without an address sends nothing. -/
theorem drainEth_of_no_address {h : Hub} (ha : upAddr h = 0) : drainEth h = h := by
  simp [drainEth, ethReady, askHop, ha]

/-- What is resolved, and what is to be, stands. -/
def ArpKept (h g : Hub) : Prop := g.eth.arp = h.eth.arp ∧ g.cfg = h.cfg

theorem ArpKept.refl (h : Hub) : ArpKept h h := ⟨rfl, rfl⟩

theorem ArpKept.trans {h g k : Hub} (hg : ArpKept h g) (hk : ArpKept g k) : ArpKept h k := ⟨hk.1.trans hg.1, hk.2.trans hg.2⟩

theorem arpKept_recordDatagram (origin offset seq port : Nat) (bs : Bytes) (h : Hub) :
    ArpKept h (recordDatagram origin offset seq port bs h) := by
  unfold recordDatagram
  split <;> exact ⟨rfl, rfl⟩

theorem arpKept_drainOne (ws : List Word) (h : Hub) : ArpKept h (drainOne ws h) := by
  unfold drainOne
  dsimp only
  split
  · exact ⟨rfl, rfl⟩
  · exact ArpKept.trans ⟨rfl, rfl⟩ (arpKept_recordDatagram ..)

theorem arpKept_drainFuel (n : Nat) (h : Hub) : ArpKept h (drainFuel n h) := by
  induction n generalizing h with
  | zero => exact .refl h
  | succ n ih =>
    unfold drainFuel
    split
    · exact (arpKept_drainOne ..).trans (ih _)
    · exact .refl h

theorem arpKept_forwardEth (c : Cell) (h : Hub) : ArpKept h (forwardEth c h) := by
  unfold forwardEth
  extract_lets cur others
  split
  · exact ⟨rfl, rfl⟩
  · split
    · exact (arpKept_recordDatagram ..).trans ⟨rfl, rfl⟩
    · exact ⟨rfl, rfl⟩

theorem arpKept_freeSources (cs : List Cell) (h : Hub) : ArpKept h (freeSources cs h) := by
  refine List.foldlRecOn cs _ (ArpKept.refl h) fun g hg c _ => ?_
  split
  · exact hg.trans ⟨rfl, rfl⟩
  · exact hg

theorem arpKept_drainPass (h : Hub) : ArpKept h (drainPass h) := by
  unfold drainPass
  split
  · refine ArpKept.trans ?_ (arpKept_freeSources ..)
    exact List.foldlRecOn _ _ ⟨rfl, rfl⟩ fun g hg c _ => hg.trans (arpKept_forwardEth c g)
  · exact .refl h

theorem arpKept_drainEth (h : Hub) : ArpKept h (drainEth h) := by
  unfold drainEth
  split
  · exact (arpKept_drainFuel ..).trans (arpKept_drainPass _)
  · rw [askHop_frame]
    exact ⟨rfl, rfl⟩

theorem nextHop_congr {g h : Hub} (hc : g.cfg = h.cfg) : nextHop g = nextHop h := by
  rw [nextHop, nextHop, upPrefix, upAddr, upSink, upGateway, hc]
  rfl

/-- The reply for the address the hub resolves is the newest entry, and resolves it. -/
theorem hopResolved_of_head {h : Hub} {ip : Word} {mac : BitVec 48} (hh : h.eth.arp.head? = some (ip, mac)) (hip : ip.toNat = nextHop h) :
    hopResolved h = true :=
  List.any_eq_true.mpr ⟨_, List.mem_of_mem_head? hh, by simp [hip]⟩

end Sys2Proof.Machine
end

