-- ==== Sys2Proof/Proofs/PtpPort.lean ====
section
/-! PROOFS. The PTP port: which master it selects, what it sends, and what a Delay_Resp and a Sync measure (10 R240, R246, 11 R291). -/

namespace Sys2Proof.Machine

/-! ## Announce (R291) -/

/-- The hub that has just taken an Announce's sender as its master. -/
def masterTaken (a : Announce) (h : Hub) : Hub :=
  { h with eth.ptp.master := some a, eth.ptp.portMaster := false, eth.ptp.announceAt := h.time.op4k }

theorem announceReceipt_of_other_domain {a : Announce} {h : Hub} (hd : a.domain.toNat ≠ fieldAt h.cfg.uplink 6 1) :
    announceReceipt a h = h :=
  if_pos (by simp [hd])

section
variable {a : Announce} {h : Hub} (he : ethUp h = true) (hrole : fieldAt h.cfg.uplink 7 1 = 0)
  (hd : a.domain.toNat = fieldAt h.cfg.uplink 6 1)
include he hrole hd

theorem announceReceipt_of_none (hm : h.eth.ptp.master = none) : announceReceipt a h = masterTaken a h := by
  simp [announceReceipt, ptpRole, he, hrole, hd, hm, masterTaken]

variable {m : Announce} (hm : h.eth.ptp.master = some m)
include hm

/-- A better master takes the place of the one selected. -/
theorem announceReceipt_of_better (hb : lexLt (announceKey a) (announceKey m) = true) : announceReceipt a h = masterTaken a h := by
  simp [announceReceipt, ptpRole, he, hrole, hd, hm, hb, masterTaken]

theorem announceReceipt_of_worse (hp : m.port ≠ a.port) (hb : lexLt (announceKey a) (announceKey m) = false)
    (hport : h.eth.ptp.portMaster = false) : announceReceipt a h = h := by
  have hkept : announceReceipt a h = { h with eth.ptp.master := some m, eth.ptp.portMaster := false } := by
    simp [announceReceipt, ptpRole, he, hrole, hd, hm, hp, hb]
  rw [hkept, ← hm, ← hport]

end

theorem masterTick_of_late {h : Hub} (hm : h.eth.ptp.master.isSome = true)
    (hl : announceLate (h.time.op4k - h.eth.ptp.announceAt) h = true) :
    masterTick h = { h with eth.ptp.master := none, eth.ptp.portMaster := fieldAt h.cfg.uplink 7 1 == 2 } :=
  if_pos (by rw [hm, hl]; rfl)

/-! ## What the port sends (R291) -/

section
variable {h : Hub} (hs : ptpSends h = true)
include hs

section
variable (hm : ptpMaster h = true) (at_ : Inst)
include hm

theorem ptpSend_sync_of_master :
    ptpSend .sync at_ h =
      { h with
        eth.ptp.syncSeq := (h.eth.ptp.syncSeq + 1) % 65536
        out := h.out ++ [ptpMsg h 0 h.eth.ptp.syncSeq [], ptpMsg h 8 h.eth.ptp.syncSeq (ptpStamp (resolve at_))] } := by
  simp [ptpSend, hs, hm, sendOut]

theorem ptpSend_announce_of_master :
    ptpSend .announce at_ h =
      { h with
        eth.ptp.announceSeq := (h.eth.ptp.announceSeq + 1) % 65536
        out := h.out ++ [ptpMsg h 11 h.eth.ptp.announceSeq (announceBytes h)] } := by
  simp [ptpSend, hs, hm, sendOut]

theorem ptpSend_delayReq_of_master : ptpSend .delayReq at_ h = h := by
  simp [ptpSend, hs, hm]

end

section
variable (hm : ptpMaster h = false) (at_ : Inst)
include hm

theorem ptpSend_delayReq_of_slave (hsome : h.eth.ptp.master.isSome = true) :
    ptpSend .delayReq at_ h =
      { h with
        eth.ptp.delaySeq := (h.eth.ptp.delaySeq + 1) % 65536
        eth.ptp.reqSent := some at_
        out := h.out ++ [ptpMsg h 1 h.eth.ptp.delaySeq []] } := by
  simp [ptpSend, hs, hm, hsome, sendOut]

theorem ptpSend_sync_of_slave : ptpSend .sync at_ h = h := by
  simp [ptpSend, hs, hm]

end

end

/-- The body of a Delay_Resp: when the request came, and the port that asked. -/
def delayRespBody (at_ : Inst) (port : BitVec 80) : Bytes := ptpStamp (resolve at_) ++ (leNat 10 port.toNat).reverse

theorem delayRespBody_length (at_ : Inst) (port : BitVec 80) : (delayRespBody at_ port).length = 20 := by
  simp [delayRespBody, ptpStamp]

theorem exec_ptpDelayReq_of_master {s : State} (hs : ptpSends s.hub = true) (hm : ptpMaster s.hub = true) (at_ : Inst) (seqId : BitVec 16)
    (port : BitVec 80) :
    exec (.ptpDelayReq at_ seqId port) s =
      .next { s with hub := sendOut (ptpMsg s.hub 9 seqId.toNat (delayRespBody at_ port)) s.hub } :=
  congrArg (hubNext s) (if_pos (by rw [hs, hm]; rfl))

/-! ## What the port measures (10 R240) -/

/-- A measurement of a source that waits for its exit counts towards its qualification, and books no further exit. -/
theorem sourceMeasured_of_booked {h : Hub} (hs : h.time.servo = .holdover) (hx : h.time.exitStep.isSome = true) (theta : Int) :
    (sourceMeasured theta h).1 =
      { h with time.measuredThisTick := true, time.missed := 0, time.lastMeas := h.time.op4k, time.firstAfterStep := false
               time.qual := (theta :: h.time.qual).take 16 } := by
  have hbooked : h.time.exitStep.isNone = false := by simpa using hx
  simp [sourceMeasured, measured, tryQualify, hs, hbooked]

theorem syncReceipt_of_exchange {h : Hub} {master : BitVec 64} {d : Inst × Inst × Int} (he : ethUp h = true) (hsrc : h.time.source = 4)
    (hm : h.eth.ptp.master.map (·.port) = some master) (hd : h.eth.ptp.delay = some d) (origin arrive c : Int) :
    syncReceipt origin arrive c master h = (sourceMeasured (syncTheta h origin arrive c d) h).1 := by
  simp [syncReceipt, he, hsrc, hm, hd]

/-- Settles O55: datagrams by `reassemble`, addresses by `drainEth`, which keeps what is resolved, and the PTP port message by message. When a
master is dropped, and which parts of a message a row carries, are the model's choice (log 25, log 12). -/
theorem uplinkEvents : Obligations.UplinkEvents := by
  refine ⟨fun s => ?eth, fun s => ?ptp⟩
  case eth =>
    dsimp only
    refine ⟨fun d env hup he ha hok hr hoff htotal hdest => ?whole, fun d env hup he ha hok hr htotal => ?part,
      fun d env hok => exec_udpMailboxDatagram_of_not_ok hok env, fun dest id => ⟨_, rfl, fun r => ?late⟩,
      fun ip sender mac hup he ha => ⟨fun hip => exec_arpRequest_of_addressed ⟨hup, he, ha⟩ hip sender mac,
        fun hip => exec_arpRequest_of_other hip sender mac⟩,
      fun ip mac he ha hip => ?silent, fun ip mac he hip => ?hop, fun ip mac hip => exec_arpReply_of_other mac hip⟩
    case whole =>
      have hexec := exec_udpMailboxDatagram_of_ok ⟨hup, he, ha⟩ hok env
      rw [mailDatagram_of_whole hr hoff htotal hdest] at hexec
      refine ⟨_, hexec, forwardMail_frame .., fun k hk hlink hlen => ?_⟩
      rw [linkAt_forwardMail_onward _ _ _ _ _ _ hk (by omega) hlink, waitAsMail, getD_updAt (by omega)]
    case part =>
      have hexec := exec_udpMailboxDatagram_of_ok ⟨hup, he, ha⟩ hok env
      rw [mailDatagram_of_part hr htotal] at hexec
      exact ⟨_, firstOf d, hexec, rfl, rfl, rfl, rfl, rfl, rfl⟩
    case late =>
      refine List.mem_filter.trans (and_congr_right fun _ => ?_)
      rw [Bool.not_eq_true', ← Bool.not_eq_true, Bool.and_eq_true, beq_iff_eq, beq_iff_eq]
    case silent =>
      rw [exec_arpReply_of_hop mac he hip, drainEth_of_no_address (h := resolved ip mac s.hub) ha]
      rfl
    case hop =>
      obtain ⟨harp, hcfg⟩ := arpKept_drainEth (resolved ip mac s.hub)
      have hhead : (drainEth (resolved ip mac s.hub)).eth.arp.head? = some (ip, mac) := by rw [harp]; rfl
      exact ⟨_, exec_arpReply_of_hop mac he hip, hhead, hopResolved_of_head hhead (hip.trans (nextHop_congr hcfg).symm)⟩
  case ptp =>
    dsimp only
    refine ⟨fun a he hrole hd => ⟨fun hm => ?first, fun m hm hp => ⟨fun hb => ?better, fun hb hport => ?worse⟩⟩, fun a hd => ?domain,
      fun hm hl => ?dropped, fun hsrc hf hl hfresh => ?timeout, fun hsrc => ?unused, fun hs hm at_ => ?master,
      fun hs hm hsome at_ => ?slave, fun depart arrive c he hreq => ?resp,
      fun origin arrive c master t3 t4 c2 hup he hsrc hm hd hservo hx => ?sync⟩
    case first => exact congrArg (hubNext s) (announceReceipt_of_none he hrole hd hm)
    case better => exact congrArg (hubNext s) (announceReceipt_of_better he hrole hd hm hb)
    case worse => exact congrArg (hubNext s) (announceReceipt_of_worse he hrole hd hm hp hb hport)
    case domain => exact congrArg (hubNext s) (announceReceipt_of_other_domain hd)
    case dropped =>
      rw [masterTick_of_late hm hl]
      exact ⟨rfl, rfl⟩
    case timeout => exact congrArg (hubNext s) ((if_pos hsrc).trans (loseSource_of_fresh hf hl hfresh))
    case unused => exact congrArg (hubNext s) (if_neg hsrc)
    case master =>
      exact ⟨congrArg (hubNext s) (ptpSend_sync_of_master hs hm at_),
        ⟨announceBytes s.hub, congrArg (hubNext s) (ptpSend_announce_of_master hs hm at_)⟩,
        congrArg (hubNext s) (ptpSend_delayReq_of_master hs hm at_),
        fun seqId port => ⟨delayRespBody at_ port, delayRespBody_length at_ port, exec_ptpDelayReq_of_master hs hm at_ seqId port⟩⟩
    case slave =>
      exact ⟨congrArg (hubNext s) (ptpSend_delayReq_of_slave hs hm at_ hsome), congrArg (hubNext s) (ptpSend_sync_of_slave hs hm at_)⟩
    case resp => exact congrArg (hubNext s) (if_pos (by rw [he, hreq]; rfl))
    case sync =>
      refine congrArg (hubNext s) ((if_pos hup).trans ?_)
      rw [syncReceipt_of_exchange he hsrc hm hd]
      exact sourceMeasured_of_booked hservo hx _

end Sys2Proof.Machine
end

