-- ==== Sys2Proof/Proofs/PairRelease.lean ====
section
/-! PROOFS. Release of the active role: the record it journals, the turns it gives up, the outputs it switches off, the records it keeps
(12 R310). -/

namespace Sys2Proof.Machine

/-! ## The number of the next journal record (15 R391, R393) -/

theorem nextIndex_programOne (h : Hub) : (programOne h).flash.nextIndex = h.flash.nextIndex := by
  unfold programOne
  split
  · rfl
  · dsimp only
    split <;> rfl

theorem nextIndex_programFuel (n : Nat) (h : Hub) : (programFuel n h).flash.nextIndex = h.flash.nextIndex := by
  induction n generalizing h with
  | zero => rfl
  | succ n ih => exact (ih _).trans (nextIndex_programOne h)

theorem nextIndex_programAll (h : Hub) : (programAll h).flash.nextIndex = h.flash.nextIndex := by
  unfold programAll
  split
  · rfl
  · exact nextIndex_programFuel ..

theorem nextIndex_queueRec (r : JRec) (h : Hub) : (queueRec r h).flash.nextIndex = h.flash.nextIndex + 1 := by
  unfold queueRec
  dsimp only
  split
  · rfl
  · rw [nextIndex_programOne]

theorem nextIndex_jChange (code : Nat) (detail : Bytes) (h : Hub) :
    (jChange code detail h).flash.nextIndex = h.flash.nextIndex + 1 :=
  (nextIndex_programAll _).trans (nextIndex_queueRec ..)

/-! ## Turns given up (05 R109) -/

/-- What giving up turns leaves as it was, of what a release speaks of. -/
structure StreamKept (h g : Hub) : Prop where
  cfg : g.cfg = h.cfg
  stream : g.stream = h.stream
  pair : g.pair = h.pair
  faults : g.faults = h.faults

theorem StreamKept.refl (h : Hub) : StreamKept h h := ⟨rfl, rfl, rfl, rfl⟩

theorem StreamKept.trans {h g k : Hub} (hg : StreamKept h g) (hk : StreamKept g k) : StreamKept h k :=
  ⟨hk.cfg.trans hg.cfg, hk.stream.trans hg.stream, hk.pair.trans hg.pair, hk.faults.trans hg.faults⟩

theorem streamKept_jChange (code : Nat) (detail : Bytes) (h : Hub) : StreamKept h (jChange code detail h) :=
  ⟨jChange_cfg .., jChange_stream .., jChange_pair .., jChange_faults ..⟩

theorem streamKept_updChan (c : Nat) (f : Chan → Chan) (h : Hub) : StreamKept h (updChan c f h) := ⟨rfl, rfl, rfl, rfl⟩

theorem streamKept_connect (c : Nat) (p : PairConn) (fe : Option Nat) (h : Hub) : StreamKept h (connect c p fe h) := ⟨rfl, rfl, rfl, rfl⟩

theorem streamKept_endTurn (t : Nat) (h : Hub) : StreamKept h (endTurn t h) := ⟨rfl, rfl, rfl, rfl⟩

theorem streamKept_writeQuality_if (p : Prop) [Decidable p] (fe : Nat) (qs : List Quality) (h : Hub) :
    StreamKept h (if p then writeQuality fe qs h else h) := by
  split
  · exact ⟨rfl, rfl, rfl, rfl⟩
  · exact .refl h

theorem streamKept_abandonTurn (c : Nat) (stop : Inst) (h : Hub) : StreamKept h (abandonTurn c stop h) := by
  unfold abandonTurn
  extract_lets t
  split
  next => exact .refl h
  next u _ =>
    split
    · exact .refl h
    · extract_lets scored ended
      have hended : StreamKept h ended :=
        List.foldlRecOn (motive := (StreamKept h ·)) _ _ ((streamKept_writeQuality_if ..).trans (streamKept_endTurn t scored))
          fun g hg d _ => hg.trans (streamKept_jChange 0x3001 d g)
      split
      · exact hended
      · split
        · exact hended.trans (((streamKept_updChan ..).trans (streamKept_updChan ..)).trans (streamKept_connect ..))
        · exact hended
      · exact hended.trans ((streamKept_updChan ..).trans (streamKept_connect ..))

theorem streamKept_abandonSpare (t : Nat) (u : Turn) (h : Hub) : StreamKept h (abandonSpare t u h) :=
  (streamKept_writeQuality_if ..).trans (streamKept_endTurn ..)

theorem streamKept_abandonTurns (h : Hub) : StreamKept h (abandonTurns h) := by
  refine List.foldlRecOn (motive := (StreamKept h ·)) _ _ (.refl h) fun g hg t _ => ?_
  split
  · split
    · exact hg.trans (streamKept_abandonTurn ..)
    · exact hg.trans (streamKept_abandonSpare ..)
  · exact hg

theorem turn_tileAt_of_idle {h : Hub} (hidle : ∀ x ∈ h.tiles, x.turn = none) (t : Nat) : (tileAt h t).turn = none := by
  rcases Nat.lt_or_ge t h.tiles.length with ht | ht
  · rw [tileAt, List.getD_eq_getElem _ _ ht]
    exact hidle _ (List.getElem_mem ht)
  · rw [tileAt, List.getD_eq_default _ _ ht]

theorem abandonTurns_of_idle {h : Hub} (hidle : ∀ x ∈ h.tiles, x.turn = none) : abandonTurns h = h :=
  List.foldlRecOn (motive := (· = h)) _ _ rfl fun g hg t _ => by
    subst hg
    rw [turn_tileAt_of_idle hidle]

/-! ## Excitation, sources and pairs off (12 R310) -/

theorem loopsToFault_frame (h : Hub) : loopsToFault h = { h with loops := (loopsToFault h).loops } :=
  List.foldlRecOn (motive := fun g : Hub => g = { h with loops := g.loops }) _ _ rfl fun g (hg : g = _) k _ => by
    rw [hg]
    rfl

theorem streamKept_shutDown (h : Hub) : StreamKept h (shutDown h) := by
  unfold shutDown
  rw [loopsToFault_frame]
  obtain ⟨hcfg, hstream, hpair, hfaults⟩ := streamKept_abandonTurns h
  exact ⟨hcfg, hstream, hpair, hfaults⟩

theorem portOn_shutDown {h : Hub} {g : Group} (hg : g ∈ (shutDown h).groups) : g.portOn = false := by
  rw [shutDown, loopsToFault_frame] at hg
  obtain ⟨x, -, rfl⟩ := List.mem_map.mp hg
  rfl

theorem isolated_shutDown {h : Hub} {c : Chan} (hc : c ∈ (shutDown h).chans) :
    c.pair = .isolated ∧ c.fe = none ∧ c.sourceOn = false := by
  rw [shutDown, loopsToFault_frame] at hc
  obtain ⟨x, -, rfl⟩ := List.mem_map.mp hc
  exact ⟨rfl, rfl, rfl⟩

theorem flash_shutDown_of_idle {h : Hub} (hidle : ∀ x ∈ h.tiles, x.turn = none) : (shutDown h).flash = h.flash := by
  rw [shutDown, loopsToFault_frame, abandonTurns_of_idle hidle]

/-! ## Nothing more is sent, every record is kept (12 R310) -/

/-- The records a hub holds in its reserve, which a release keeps. -/
def heldRecords (h : Hub) : List Rec := h.stream.reserve.map (·.record)

@[simp] theorem heldRecords_unsend (sel : Held → Bool) (h : Hub) : heldRecords (unsend sel h) = heldRecords h := by
  rw [heldRecords, heldRecords, unsend, List.map_map]
  refine List.map_congr_left fun x _ => ?_
  dsimp only [Function.comp_apply]
  split <;> rfl

/-- The stream has nothing left to send again, and else only marks of its reserve have moved. -/
structure SendingStopped (h g : Hub) : Prop where
  stream : g.stream = { h.stream with reserve := g.stream.reserve, resend := [], retx := [] }
  records : heldRecords g = heldRecords h

theorem SendingStopped.congr {h g k : Hub} (hg : SendingStopped h g) (hk : k.stream = g.stream) : SendingStopped h k := by
  obtain ⟨hstream, hrecords⟩ := hg
  rw [heldRecords, ← hk] at hrecords
  rw [← hk] at hstream
  exact ⟨hstream, hrecords⟩

theorem SendingStopped.unsend {h g : Hub} (hg : SendingStopped h g) (sel : Held → Bool) : SendingStopped h (unsend sel g) where
  stream := by
    rw [Machine.unsend, hg.stream]
  records := (heldRecords_unsend sel g).trans hg.records

theorem stream_cutOwn (k : Nat) (h : Hub) : (cutOwn k h).stream = h.stream := by
  unfold cutOwn
  split <;> rfl

theorem trafficOnly_flushLane (h : Hub) : TrafficOnly h (flushLane h) := rfl

theorem trafficOnly_flushEth (h : Hub) : TrafficOnly h (flushEth h) := rfl

theorem trafficOnly_stopOutlets (h : Hub) : TrafficOnly h (stopOutlets h) := by
  unfold stopOutlets
  extract_lets g
  have hg : TrafficOnly h g := ((trafficOnly_cutOwn ..).trans (trafficOnly_flushLane _)).trans (trafficOnly_flushEth _)
  clear_value g
  exact hg.trans rfl

theorem sendingStopped_stopOutlets (h : Hub) : SendingStopped h (stopOutlets h) where
  stream := by
    show ({ (cutOwn (custodyLink h.cfg) h).stream with reserve := _, resend := [], retx := [] } : Stream) = _
    rw [stream_cutOwn]
    rfl
  records := by
    show heldRecords (flushEth (flushLane (cutOwn (custodyLink h.cfg) h))) = _
    rw [flushEth, heldRecords_unsend]
    show heldRecords (flushLane (cutOwn (custodyLink h.cfg) h)) = _
    rw [flushLane, heldRecords_unsend]
    exact congrArg (·.reserve.map (·.record)) (stream_cutOwn ..)

/-! ## The role released (12 R310) -/

/-- What a hub is after it has released the active role, told by what it was. -/
structure Released (h g : Hub) : Prop where
  state : g.pair.state = .resyncing
  paired : g.pair.paired = h.pair.paired
  live : g.pair.live = false
  takeoverAt : g.pair.takeoverAt = none
  journal : (∀ x ∈ h.tiles, x.turn = none) → g.flash.nextIndex = h.flash.nextIndex + 1
  ports : ∀ x ∈ g.groups, x.portOn = false
  pairs : ∀ c ∈ g.chans, c.pair = .isolated ∧ c.fe = none ∧ c.sourceOn = false
  sending : SendingStopped h g
  cfg : g.cfg = h.cfg
  faults : g.faults = h.faults

/-- The hub once its release is journalled, its outlets stopped and its outputs off. -/
def releaseJournalled (h : Hub) : Hub :=
  jChange 0x3011 (leNat 6 (streamTick h + 1) ++ leNat 8 h.stream.nextSeq ++ leNat 2 h.time.epoch) (shutDown (stopOutlets h))

theorem releaseRole_eq (h : Hub) : releaseRole h = toResync false (stopLive (releaseJournalled h)) := rfl

theorem streamKept_releaseJournalled (h : Hub) : StreamKept (stopOutlets h) (releaseJournalled h) :=
  (streamKept_shutDown _).trans (streamKept_jChange ..)

theorem nextIndex_releaseJournalled {h : Hub} (hidle : ∀ x ∈ h.tiles, x.turn = none) :
    (releaseJournalled h).flash.nextIndex = h.flash.nextIndex + 1 := by
  have htiles : (stopOutlets h).tiles = h.tiles := by rw [trafficOnly_stopOutlets h]
  have hflash : (stopOutlets h).flash = h.flash := by rw [trafficOnly_stopOutlets h]
  rw [releaseJournalled, nextIndex_jChange, flash_shutDown_of_idle (htiles.symm ▸ hidle), hflash]

/-- A hub of which the pair's state alone has moved. -/
def PairOnly (h g : Hub) : Prop := g = { h with pair := g.pair }

theorem PairOnly.trans {h g k : Hub} (hg : PairOnly h g) (hk : PairOnly g k) : PairOnly h k := by
  rw [PairOnly] at hg
  rw [hg] at hk
  exact hk

theorem pairOnly_stopLive (h : Hub) : PairOnly h (stopLive h) := rfl

theorem pairOnly_toResync (wait : Bool) (h : Hub) : PairOnly h (toResync wait h) := rfl

/-- Where a hub's outputs are off and its sending is stopped, resynchronising ends its role. -/
theorem released_toResync {h g : Hub} (hpaired : g.pair.paired = h.pair.paired)
    (hjournal : (∀ x ∈ h.tiles, x.turn = none) → g.flash.nextIndex = h.flash.nextIndex + 1) (hports : ∀ x ∈ g.groups, x.portOn = false)
    (hpairs : ∀ c ∈ g.chans, c.pair = .isolated ∧ c.fe = none ∧ c.sourceOn = false) (hsending : SendingStopped h g)
    (hcfg : g.cfg = h.cfg) (hfaults : g.faults = h.faults) : Released h (toResync false (stopLive g)) := by
  have hframe : PairOnly g (toResync false (stopLive g)) := (pairOnly_stopLive g).trans (pairOnly_toResync ..)
  rw [hframe]
  exact ⟨rfl, hpaired, rfl, rfl, hjournal, hports, hpairs, hsending.congr rfl, hcfg, hfaults⟩

theorem released_releaseRole (h : Hub) : Released h (releaseRole h) := by
  have hstop := trafficOnly_stopOutlets h
  obtain ⟨hcfg, hstream, hpair, hfaults⟩ := streamKept_releaseJournalled h
  have hgroups : (releaseJournalled h).groups = (shutDown (stopOutlets h)).groups := jChange_groups ..
  have hchans : (releaseJournalled h).chans = (shutDown (stopOutlets h)).chans := jChange_chans ..
  rw [releaseRole_eq]
  refine released_toResync ?_ nextIndex_releaseJournalled ?_ ?_ ((sendingStopped_stopOutlets h).congr hstream) ?_ ?_
  · rw [hpair, hstop]
  · rw [hgroups]
    exact fun x => portOn_shutDown
  · rw [hchans]
    exact fun c => isolated_shutDown
  · rw [hcfg, hstop]
  · rw [hfaults, hstop]

theorem Released.unsend {h g : Hub} (hg : Released h g) (sel : Held → Bool) : Released h (unsend sel g) :=
  ⟨hg.state, hg.paired, hg.live, hg.takeoverAt, hg.journal, hg.ports, hg.pairs, hg.sending.unsend sel, hg.cfg, hg.faults⟩

/-! ## The host outlet of a hub that leaves the role (12 R310) -/

theorem isActive_of_paired {h : Hub} (hp : h.pair.paired = true) :
    isActive h = (isUp h && (h.pair.state == .active || h.pair.state == .activeSolo)) := by
  simp [isActive, hp]

theorem isActive_of_resyncing {h : Hub} (hp : h.pair.paired = true) (hs : h.pair.state = .resyncing) : isActive h = false := by
  simp [isActive_of_paired hp, hs]

theorem leaveRole_of_active {before g : Hub} (ha : isActive g = isActive before) (s : State) :
    leaveRole before { s with hub := g } = { s with hub := g } := by
  simp [leaveRole, ha]

/-- A hub that has released its role has its host FIFO emptied as well. -/
theorem leaveRole_of_released {before h g : Hub} (s : State) (hup : isUp before = true) (ha : isActive before = true)
    (hp : h.pair.paired = true) (hg : Released h g) :
    ∃ t, leaveRole before { s with hub := g } = { s with hub := t, host.fifo := fifoFlush s.host.fifo } ∧ Released h t := by
  have hout : isActive g = false := isActive_of_resyncing (hg.paired.trans hp) hg.state
  refine ⟨_, ?_, hg.unsend fun x => s.host.fifo.seqs.contains x.record.seq⟩
  simp [leaveRole, hup, ha, hout]

end Sys2Proof.Machine
end

