-- ==== Sys2Proof/Proofs/PairRoles.lean ====
section
/-! PROOFS. The roles of a pair: the grant, its conflicts, the takeover and the release (12 R298, R299, R308, R310). -/

namespace Sys2Proof.Machine

theorem not_isStandby_of_active {h : Hub} (ha : isActive h = true) : isStandby h = false := by simp [isStandby, ha]

theorem isStandby_of_inactive {h : Hub} (hup : isUp h = true) (hp : h.pair.paired = true) (ha : isActive h = false) :
    isStandby h = true := by
  simp [isStandby, hup, hp, ha]

theorem not_mayTake_of_active {h : Hub} (ha : isActive h = true) : mayTake h = false := by simp [mayTake, not_isStandby_of_active ha]

/-! ## The grant (R298) -/

section
variable {h : Hub} (hup : isUp h = true) (hp : h.pair.paired = true)
include hup hp

theorem grantLevel_of_low :
    grantLevel h.pair.grantLow h =
      clearOcc 0xC1 0 h.time.tickInst { h with pair.grant := false, pair.takeoverAt := none, pair.taken := false, pair.conflict := 0 } := by
  unfold grantLevel
  rw [if_neg (by simp [hup, hp]), if_pos rfl]

theorem grantLevel_of_high :
    grantLevel (!h.pair.grantLow) h =
      if mayTake h then
        if partnerActive h || h.pair.takeoverAt.isSome then { h with pair.grant := true }
        else { h with pair.grant := true, pair.takeoverAt := some (h.time.tick + 2) }
      else unreadyNotice { h with pair.grant := true } := by
  unfold grantLevel
  rw [if_neg (by simp [hup, hp]), if_neg (by simp)]
  rfl

theorem grantLevel_of_may_take (hm : mayTake h = true) (hother : partnerActive h = false) (hnone : h.pair.takeoverAt = none) :
    grantLevel (!h.pair.grantLow) h = { h with pair.grant := true, pair.takeoverAt := some (h.time.tick + 2) } := by
  rw [grantLevel_of_high hup hp, if_pos hm, if_neg (by simp [hother, hnone])]

theorem grantLevel_of_may_not_take (hm : mayTake h = false) :
    grantLevel (!h.pair.grantLow) h = unreadyNotice { h with pair.grant := true } := by
  rw [grantLevel_of_high hup hp, hm, if_neg Bool.false_ne_true]

end

theorem unreadyNotice_of_active {h : Hub} (ha : isActive h = true) : unreadyNotice h = { h with pair.unreadyRaised := false } := by
  simp [unreadyNotice, not_isStandby_of_active ha]

theorem unreadyNotice_of_resyncing {h : Hub} (hstand : isStandby h = true) (hs : h.pair.state = .resyncing)
    (hg : h.pair.grant = true) (hr : h.pair.unreadyRaised = false) :
    unreadyNotice h = raiseNow 0xC0 0 0 0 { h with pair.unreadyRaised := true } := by
  simp [unreadyNotice, hstand, hs, hg, hr]

/-! ## A conflict (R299) -/

theorem doubleGrant_of_active {h : Hub} (hup : isUp h = true) (hp : h.pair.paired = true) (ha : isActive h = true)
    (hg : h.pair.grant = true) (hother : partnerActive h = true ∨ partnerWaits h = true) : doubleGrant h = true := by
  have hs : h.pair.state ≠ .resyncing := fun hs => by simp [isActive_of_resyncing hp hs] at ha
  simp [doubleGrant, hup, hp, hg, hs, ha, hother]

theorem not_asserted_of_fresh {source inst : Nat} {h : Hub} (hf : Fresh source inst h) : asserted h source inst = false := by
  simp only [asserted, List.any_eq_false, Bool.and_eq_true, beq_iff_eq]
  exact fun o ho hkey => hf.1 o ho hkey.1

/-- The hub in which PAIR_CONFLICT begins to hold. -/
def inConflict (h : Hub) : Hub := raised 0xC1 0 h.time.tickInst h.time.tickInst 0 false h

theorem asserted_inConflict (h : Hub) : asserted (inConflict h) 0xC1 0 = true := by simp [asserted, inConflict, raised]

section
variable {h : Hub} (hf : Fresh 0xC1 0 h) (tick : Nat)
include hf

theorem conflictLasts_of_fresh :
    conflictLasts tick h =
      if h.power.sideB then (if isActive h then releaseRole (inConflict h) else { inConflict h with pair.takeoverAt := none })
      else if mayTake h then { inConflict h with pair.takeoverAt := some (tick + 1) } else inConflict h := by
  rw [conflictLasts, if_neg (by simp [not_asserted_of_fresh hf]), raiseHeld_of_fresh hf (by decide)]
  rfl

variable (ha : isActive h = true)
include ha

theorem conflictLasts_of_hubA (hside : h.power.sideB = false) : conflictLasts tick h = inConflict h := by
  simp [conflictLasts_of_fresh hf, hside, not_mayTake_of_active ha]

theorem conflictLasts_of_hubB (hside : h.power.sideB = true) : conflictLasts tick h = releaseRole (inConflict h) := by
  simp [conflictLasts_of_fresh hf, hside, ha]

end

theorem exec_pairConflict_of_due {s : State} (hd : doubleGrant s.hub = true) (hn : s.hub.pair.conflictTicks ≤ s.hub.pair.conflict + 1) :
    exec .pairConflict s = .next (leaveRole s.hub { s with hub := conflictLasts (s.hub.time.tick + 1) s.hub }) := by
  show Host.Outcome.next (leaveRole s.hub { s with hub := if _ then _ else _ }) = _
  simp [hd, hn]

theorem exec_pairConflict_of_early {s : State} (hn : s.hub.pair.conflict + 1 < s.hub.pair.conflictTicks) : exec .pairConflict s = .next s := by
  show Host.Outcome.next (leaveRole s.hub { s with hub := if _ then _ else _ }) = _
  rw [if_neg (by simp [hn]), leaveRole_of_active rfl]

/-! ## The takeover (R308) -/

theorem issueTakeover_of_next {h : Hub} (hs : isStandby h = true) (hat : h.pair.takeoverAt = some (h.time.tick + 1)) :
    issueTakeover h = { h with verdicts := heldVerdicts h, pair.taken := true } := by
  simp [issueTakeover, hs, hat]

theorem issueTakeover_of_active {h : Hub} (ha : isActive h = true) : issueTakeover h = h := by
  simp [issueTakeover, not_isStandby_of_active ha]

/-- The verdict of a takeover on a channel's words of a held frame. -/
def heldVerdict (f : Frame) (w : Nat × List Word) : Verdict :=
  { frame := f.n, ch := w.1, first := 0, slots := w.2.length, status := sSettling, cause := 0 }

theorem mem_heldVerdicts {h : Hub} {v : Verdict} :
    v ∈ heldVerdicts h ↔ ∃ l r, h.pair.lastVerdict = some l ∧ h.pair.lastRaw = some r ∧
      ∃ f ∈ h.frames, (l < f.n + f.v ∧ f.n ≤ r) ∧ ∃ w ∈ f.words, heldVerdict f w = v := by
  unfold heldVerdicts
  split
  next l r hl hr => simp [hl, hr, heldVerdict, and_assoc]
  next hnone =>
    simp only [List.not_mem_nil, false_iff]
    rintro ⟨l, r, hl, hr, -⟩
    exact hnone l r hl hr

/-! ## The release (R310) -/

theorem exec_release_of_granted {s : State} (hg : s.hub.pair.grant = true) : exec .release s = .next s := by
  show Host.Outcome.next (leaveRole s.hub { s with hub := releaseIfRemoved s.hub }) = _
  have hkept : releaseIfRemoved s.hub = s.hub := by simp [releaseIfRemoved, hg]
  rw [hkept, leaveRole_of_active rfl]

theorem exec_release_of_removed {s : State} (hp : s.hub.pair.paired = true) (ha : isActive s.hub = true) (hg : s.hub.pair.grant = false) :
    exec .release s = .next (leaveRole s.hub { s with hub := releaseRole s.hub }) := by
  show Host.Outcome.next (leaveRole s.hub { s with hub := releaseIfRemoved s.hub }) = _
  have hreleased : releaseIfRemoved s.hub = releaseRole s.hub := by simp [releaseIfRemoved, hp, ha, hg]
  rw [hreleased]

/-- Settles O56, clause by clause: the grant, the conflict on either side, the takeover, the release. -/
theorem pairRoles : Obligations.PairRoles := by
  intro s hup hp h
  refine ⟨?low, ?takes, ?granted, ?unready, ?hubA, ?hubB, ?takeover, ?noTakeover, ?removed, exec_release_of_granted⟩
  case low =>
    refine ⟨_, congrArg (hubNext s) (grantLevel_of_low hup hp), ?_, clearOcc_pair ..⟩
    conv_lhs => rw [clearOcc_frame]
    rw [clearOcc_pair]
  case takes =>
    intro ha hstate hother hnone
    have hstand : isStandby h = true := isStandby_of_inactive hup hp ha
    have hm : mayTake h = true := by simp [mayTake, hstand, hstate]
    exact congrArg (hubNext s) (grantLevel_of_may_take hup hp hm hother hnone)
  case granted =>
    intro ha
    have ha' : isActive { h with pair.grant := true } = true := ha
    exact congrArg (hubNext s) ((grantLevel_of_may_not_take hup hp (not_mayTake_of_active ha)).trans (unreadyNotice_of_active ha'))
  case unready =>
    intro hs hr hf g
    have hstand : isStandby h = true := isStandby_of_inactive hup hp (isActive_of_resyncing hp hs)
    have hm : mayTake h = false := by simp [mayTake, hs]
    have hraise : grantLevel (!h.pair.grantLow) h = raiseNow 0xC0 0 0 0 g :=
      (grantLevel_of_may_not_take hup hp hm).trans (unreadyNotice_of_resyncing hstand hs rfl hr)
    have hg : Fresh 0xC0 0 g := hf
    exact congrArg (hubNext s) (hraise.trans (raiseFault_of_fresh hg (by decide) ..))
  case hubA =>
    intro hg hother ha hside hf
    refine ⟨fun hn => ?_, exec_pairConflict_of_early⟩
    have hstill : isActive (inConflict h) = isActive s.hub := rfl
    rw [exec_pairConflict_of_due (doubleGrant_of_active hup hp ha hg hother) hn, conflictLasts_of_hubA hf _ ha hside,
      leaveRole_of_active hstill]
    rfl
  case hubB =>
    intro hg hother ha hside hf hn
    obtain ⟨t, hleft, ht⟩ := leaveRole_of_released s hup ha (h := inConflict h) hp (released_releaseRole (inConflict h))
    rw [exec_pairConflict_of_due (doubleGrant_of_active hup hp ha hg hother) hn, conflictLasts_of_hubB hf _ ha hside, hleft]
    refine ⟨t, rfl, ?_, ht.state, ht.journal⟩
    rw [asserted, ht.faults]
    exact asserted_inConflict h
  case takeover =>
    intro ha hat
    refine ⟨_, congrArg (hubNext s) (issueTakeover_of_next (isStandby_of_inactive hup hp ha) hat), fun v hv => ?_,
      fun l r hl hr f hf hlf hfr w hw => mem_heldVerdicts.mpr ⟨l, r, hl, hr, f, hf, ⟨hlf, hfr⟩, w, hw, rfl⟩⟩
    obtain ⟨l, r, hl, hr, f, hf, hheld, w, -, rfl⟩ := mem_heldVerdicts.mp hv
    exact ⟨rfl, rfl, rfl, f, hf, rfl, l, r, hl, hr, hheld⟩
  case noTakeover => exact fun ha => congrArg (hubNext s) (issueTakeover_of_active ha)
  case removed =>
    intro ha hg
    obtain ⟨t, hleft, ht⟩ := leaveRole_of_released s hup ha hp (released_releaseRole h)
    rw [exec_release_of_removed hp ha hg, hleft]
    exact ⟨t, rfl, ht.state, ht.live, ht.takeoverAt, ht.journal, ht.ports, ht.pairs, ht.sending.stream, ht.sending.records, ht.cfg⟩

end Sys2Proof.Machine
end

