-- ==== Sys2Proof/Proofs/PairUnits.lean ====
section
/-! PROOFS. Units of a pair and its resynchronisation: STATUS units, broken headers, silence, PAIR_RESYNC, completion (12 R296, R301, R302,
R313). -/

namespace Sys2Proof.Machine

/-! ## Fields of a unit (R301) -/

theorem ofLe_append (a b : Bytes) : ofLe (a ++ b) = ofLe a + 2 ^ (8 * a.length) * ofLe b := by
  induction a with
  | nil => simp [ofLe]
  | cons x a ih =>
    simp only [List.cons_append, ofLe, ih, List.length_cons, Nat.mul_add, Nat.pow_add, Nat.mul_one]
    ring

/-- A field of two parts, the first of them low. -/
theorem fieldAt_add (bs : Bytes) (off n m : Nat) : fieldAt bs off (n + m) = fieldAt bs off n + 2 ^ (8 * n) * fieldAt bs (off + n) m := by
  simp only [fieldAt, List.take_add, ofLe_append, List.drop_drop]
  rcases Nat.le_total n (bs.drop off).length with hn | hn
  · rw [List.length_take_of_le hn]
  · have hnil : bs.drop (off + n) = [] := by
      rw [List.drop_eq_nil_iff]
      rw [List.length_drop] at hn
      omega
    simp [hnil, ofLe]

theorem fieldAt_drop (bs : Bytes) (k off n : Nat) : fieldAt (bs.drop k) off n = fieldAt bs (k + off) n := by
  rw [fieldAt, fieldAt, List.drop_drop]

/-- A header word of KIND alone: TILE and RSVD are 0. -/
theorem header_of_kind {u : Bytes} {kind : Nat} (hk : kind < 256) (hu : fieldAt u 0 4 = kind) :
    fieldAt u 0 1 = kind ∧ fieldAt u 1 1 = 0 ∧ fieldAt u 2 2 = 0 := by
  have hword : fieldAt u 0 4 = fieldAt u 0 1 + 256 * (fieldAt u 1 1 + 256 * fieldAt u 2 2) := by
    rw [fieldAt_add u 0 1 3, fieldAt_add u 1 1 2]
    rfl
  have hlow : fieldAt u 0 1 < 256 := fieldAt_lt u 0 1
  omega

/-! ## Receipt of a unit (R302) -/

/-- The hub that has counted a unit. -/
def unitCounted (h : Hub) : Hub := { h with pair.unitsRx := h.pair.unitsRx + 1 }

theorem shadowUnit_of_down {s : State} (hl : (linkAt s.hub 2).up = false) (u : Bytes) : shadowUnit u s = s := by
  simp [shadowUnit, hl]

section
variable {s : State} (hup : isUp s.hub = true) (hp : s.hub.pair.paired = true) (hl : (linkAt s.hub 2).up = true) {u : Bytes}
include hup hp hl

theorem shadowUnit_of_broken (hb : u.length < 16 ∨ fieldAt u 2 2 ≠ 0) :
    shadowUnit u s = { s with hub := shadowLost (unitCounted s.hub) } := by
  have hbroken : u.length < 16 ∨ fieldAt u 4 4 ≠ u.length ∨ fieldAt u 0 1 = 0 ∨ 11 < fieldAt u 0 1 ∨ fieldAt u 2 2 ≠ 0 ∨
      (fieldAt u 0 1 ≠ 1 ∧ fieldAt u 1 1 ≠ 0) := by
    rcases hb with hb | hb
    · exact .inl hb
    · exact .inr (.inr (.inr (.inr (.inl hb))))
  unfold shadowUnit
  dsimp only
  rw [if_neg (by simp [hup, hp, hl]), if_pos hbroken]
  rfl

theorem shadowUnit_of_status (hlen : 16 ≤ u.length) (hfield : fieldAt u 4 4 = u.length) (hkind : fieldAt u 0 4 = 7) :
    shadowUnit u s = { s with hub := statusUnit (fieldAt u 8 8) (u.drop 16) (unitCounted s.hub) } := by
  obtain ⟨h0, h1, h2⟩ := header_of_kind (by omega) hkind
  unfold shadowUnit
  dsimp only
  rw [if_neg (by simp [hup, hp, hl]), if_neg (by omega), if_pos h0]
  rfl

end

/-! ## A partner's STATUS (R296, R302) -/

/-- The partner that the body of a STATUS unit shows. -/
def partnerOf (tick : Nat) (body : Bytes) : Partner :=
  { state := fieldAt body 0 1, eclipse := bitOf (fieldAt body 1 1) 0, granted := bitOf (fieldAt body 1 1) 1
    epoch := fieldAt body 2 2, nextSeq := fieldAt body 8 8, tick := tick }

/-- A STATUS body keeps its layout. -/
structure StatusBody (body : Bytes) : Prop where
  length : body.length = 16
  state : fieldAt body 0 1 < 5
  flags : fieldAt body 1 1 ≤ 3
  reserved : fieldAt body 4 4 = 0

/-- The active hub that knows its partner: one that has lost a SHADOWING partner sends it nothing more. -/
def partnerKnown (p : Partner) (h : Hub) : Hub :=
  if h.pair.partner.map (·.state) == some 2 && p.state != 2 then stopLive { h with pair.partner := some p } else { h with pair.partner := some p }

theorem statusUnit_of_active {tick : Nat} {body : Bytes} {h : Hub} (hb : StatusBody body) (ha : isActive h = true) :
    statusUnit tick body h =
      { partnerKnown (partnerOf tick body) h with pair.state := if fieldAt body 0 1 = 2 then .active else .activeSolo } := by
  obtain ⟨hlength, hstate, hflags, hreserved⟩ := hb
  have hlayout : (body.length ≠ 16 || decide (4 < fieldAt body 0 1) || decide (3 < fieldAt body 1 1) || fieldAt body 4 4 != 0) = false := by
    simp [hlength, hreserved]
    omega
  have ha' : isActive { h with pair.partner := some (partnerOf tick body) } = true := ha
  rw [partnerOf] at ha'
  simp only [statusUnit, hlayout, ha', Bool.false_eq_true, if_false, if_true]
  rfl

theorem partnerKnown_of_shadowing {p : Partner} (hs : p.state = 2) (h : Hub) : partnerKnown p h = { h with pair.partner := some p } := by
  simp [partnerKnown, hs]

theorem partnerKnown_frame (p : Partner) (h : Hub) : partnerKnown p h = { h with pair := (partnerKnown p h).pair } := by
  unfold partnerKnown
  split <;> rfl

theorem partner_partnerKnown (p : Partner) (h : Hub) : (partnerKnown p h).pair.partner = some p := by
  unfold partnerKnown
  split <;> rfl

/-! ## A unit that breaks its layout (R302) -/

theorem shadowLost_of_active {h : Hub} (hp : h.pair.paired = true) (ha : isActive h = true) (hf : Fresh 0xC2 0 h) :
    shadowLost h =
      raised 0xC2 0 h.time.tickInst h.time.tickInst 0 true { h with pair.shadowLost := h.pair.shadowLost + 1 } := by
  have hstate : h.pair.state = .active ∨ h.pair.state = .activeSolo := by
    simp only [isActive_of_paired hp, Bool.and_eq_true, Bool.or_eq_true, beq_iff_eq] at ha
    exact ha.2
  have hf' : Fresh 0xC2 0 { h with pair.shadowLost := h.pair.shadowLost + 1 } := hf
  have hraise : raiseNow 0xC2 0 0 0 { h with pair.shadowLost := h.pair.shadowLost + 1 } = _ := raiseFault_of_fresh hf' (by decide) ..
  rw [shadowLost, hraise]
  rcases hstate with hs | hs <;> simp [raised, hs]

/-! ## Silence (R296) -/

theorem silentFor_of_shadowing {n : Nat} {h : Hub} (hstand : isStandby h = true) (hs : h.pair.state = .shadowing) (hn : n ≤ h.pair.silent) :
    silentFor n h = { h with pair.state := .detached } := by
  simp [silentFor, hstand, hn, detach, hs]

theorem silentFor_of_heard {n : Nat} {h : Hub} (hn : h.pair.silent < n) : silentFor n h = h := by
  simp [silentFor, Nat.not_le.mpr hn]

/-! ## PAIR_RESYNC (R313, 14 R364) -/

theorem resyncTick_of_early {h : Hub} {at_ : Nat} (hr : h.pair.retryAt = some at_) (hn : h.time.op4k < at_) : resyncTick h = h := by
  simp [resyncTick, hr, hn]

theorem resyncTick_of_due {h : Hub} {at_ : Nat} (hm : mayRequest h = true) (hr : h.pair.retryAt = some at_) (hn : at_ ≤ h.time.op4k) :
    resyncTick h = requestResync h := by
  simp [resyncTick, hm, hr, hn]

/-- The message's COMMAND field, behind the version and the flags. -/
theorem fieldAt_msgBytes_code {code : Nat} (hc : code < 65536) (r : Req) : fieldAt (msgBytes code r) 2 2 = code := by
  have hsplit : ∃ rest, msgBytes code r = leNat 1 r.version.toNat ++ leNat 1 r.flags.toNat ++ leNat 2 code ++ rest := by
    simp only [msgBytes, reqBytes, headerBytes, List.append_assoc]
    exact ⟨_, rfl⟩
  obtain ⟨rest, hm⟩ := hsplit
  rw [hm, fieldAt_behind (by simp) (by simp)]
  exact ofLe_leNat_of_lt (by omega)

/-- The hub that has asked for a resynchronisation with a message. -/
def resyncAsked (m : Bytes) (h : Hub) : Hub :=
  { queueCells 2 (unitCells 1 6 0 h.flash.hubId m) h with
    pair.resyncWait := true, pair.resyncSent := h.pair.resyncSent + 1, pair.retryAt := none }

theorem requestResync_of_key {h : Hub} (hk : (slotAt h 0).key.isSome = true) : ∃ r, requestResync h = resyncAsked (msgBytes 0x0A01 r) h := by
  obtain ⟨k, hk⟩ := Option.isSome_iff_exists.mp hk
  simp only [requestResync, hk]
  exact ⟨_, rfl⟩

theorem resyncAsked_frame (m : Bytes) (h : Hub) : resyncAsked m h = { h with links := (resyncAsked m h).links, pair := (resyncAsked m h).pair } := by
  rw [resyncAsked, queueCells_frame]

/-- The message waits whole among the MAILBOX cells of lane P. -/
theorem outQ_resyncAsked {h : Hub} (hup : (linkAt h 2).up = true) (hq : 0 < (linkAt h 2).outQ.length) (m : Bytes) :
    (linkAt (resyncAsked m h) 2).outQ.getD 0 [] = (linkAt h 2).outQ.getD 0 [] ++ unitCells 1 6 0 h.flash.hubId m := by
  have hclass : ∀ c ∈ unitCells 1 6 0 h.flash.hubId m, clsIdx c.cls = 0 := fun c hc => by rw [cls_of_mem_unitCells hc, clsIdx]
  show (linkAt (queueCells 2 (unitCells 1 6 0 h.flash.hubId m) h) 2).outQ.getD 0 [] = _
  rw [linkAt_queueCells_same hup hclass, waitAsMail, getD_updAt hq]

/-! ## Completion (R313) -/

theorem resyncDone_of_complete {h : Hub} (hstand : isStandby h = true) (hs : h.pair.state = .resyncing) (hsnap : h.pair.snapped = true)
    (hcopy : h.pair.copyDone = true) (hdigest : h.pair.digestOk = true) :
    resyncDone h = { h with pair.state := .shadowing, pair.resyncWait := false } := by
  simp [resyncDone, hstand, hs, hsnap, hcopy, hdigest]

theorem resyncDone_of_no_digest {h : Hub} (hd : h.pair.digestOk = false) : resyncDone h = h := by simp [resyncDone, hd]

/-- Settles O57, clause by clause: STATUS, a broken unit, a link that is down, silence, the retry before its instant and at it,
completion. -/
theorem pairUnits : Obligations.PairUnits := by
  intro s hup hp h
  refine ⟨?status, ?broken, ?down, ?silence, ?early, ?retry, ?complete, ?incomplete⟩
  case status =>
    intro u hl ha hlen hkind hfield hflags hreserved p g
    have hbody (hstate : fieldAt u 16 1 < 5) : StatusBody (u.drop 16) :=
      ⟨by simp [hlen], by rwa [fieldAt_drop], by rwa [fieldAt_drop], by rwa [fieldAt_drop]⟩
    have hpartner : partnerOf (fieldAt u 8 8) (u.drop 16) = p := by simp only [partnerOf, fieldAt_drop]; rfl
    have ha' : isActive (unitCounted h) = true := ha
    have hunit (hstate : fieldAt u 16 1 < 5) : exec (.shadowUnitReceipt u) s =
        .next { s with hub := { partnerKnown p (unitCounted h) with
                                  pair.state := if fieldAt u 16 1 = 2 then .active else .activeSolo } } := by
      show Host.Outcome.next (shadowUnit u s) = _
      rw [shadowUnit_of_status hup hp hl (by omega) (hfield.trans hlen.symm) hkind, statusUnit_of_active (hbody hstate) ha', hpartner,
        fieldAt_drop]
    refine ⟨fun h2 => ?_, fun hstate h2 => ⟨_, hunit hstate, ?_, partner_partnerKnown .., if_neg h2⟩⟩
    · rw [hunit (by omega), if_pos h2, partnerKnown_of_shadowing h2]
      rfl
    · conv_lhs => rw [partnerKnown_frame]
      rfl
  case broken =>
    intro u hl ha hb hf g
    have hf' : Fresh 0xC2 0 (unitCounted h) := hf
    show Host.Outcome.next (shadowUnit u s) = _
    rw [shadowUnit_of_broken hup hp hl hb, shadowLost_of_active (h := unitCounted s.hub) hp ha hf']
    rfl
  case down => exact fun u hl => congrArg Host.Outcome.next (shadowUnit_of_down hl u)
  case silence =>
    intro ha hs
    exact ⟨fun hn => congrArg (hubNext s) (silentFor_of_shadowing (isStandby_of_inactive hup hp ha) hs hn),
      fun hn => congrArg (hubNext s) (silentFor_of_heard hn)⟩
  case early =>
    intro at_ hr hn
    show hubNext s (if s.hub.pair.retryAt.isSome then resyncTick s.hub else s.hub) = _
    rw [resyncTick_of_early hr hn, ite_self]
    rfl
  case retry =>
    intro at_ hs hl hwait hsnap hr hn hkey _ hq
    have hstand : isStandby h = true := isStandby_of_inactive hup hp (isActive_of_resyncing hp hs)
    have hm : mayRequest h = true := by simp [mayRequest, hstand, hs, hl, hwait, hsnap]
    obtain ⟨r, hasked⟩ := requestResync_of_key hkey
    have hexec : exec .resyncRetry s = hubNext s (resyncAsked (msgBytes 0x0A01 r) h) := by
      show hubNext s (if s.hub.pair.retryAt.isSome then resyncTick s.hub else s.hub) = _
      rw [hr, Option.isSome_some, if_pos rfl, resyncTick_of_due hm hr hn, hasked]
    exact ⟨_, hexec, resyncAsked_frame .., rfl, rfl, rfl, _, outQ_resyncAsked hl (by omega) _, fieldAt_msgBytes_code (by decide) r⟩
  case complete =>
    intro hs hsnap hcopy hdigest
    have hstand := isStandby_of_inactive hup hp (isActive_of_resyncing hp hs)
    exact congrArg (hubNext s) (resyncDone_of_complete hstand hs hsnap hcopy hdigest)
  case incomplete => exact fun hd => congrArg (hubNext s) (resyncDone_of_no_digest hd)

end Sys2Proof.Machine
end

