-- ==== Sys2Proof/Proofs/HostFifo.lean ====
section
/-! PROOFS. The invariant of the host port window under the operations on the host's FIFO and on the window's registers and buffers
(13 R315, 09 R220 to R223). -/

namespace Sys2Proof.Machine

/-! ## FIFOs (09 R220 to R223) -/

/-- A FIFO as R220 and R221 let it stand: no more words than it has, PACKETS counting the words with END. -/
def FifoInv (f : Fifo) : Prop := f.words.length ≤ fifoCapacity ∧ f.packets = endCount f.words

@[simp] theorem endCount_append (as bs : List Word) : endCount (as ++ bs) = endCount as + endCount bs := by
  simp [endCount]

@[simp] theorem endCount_cons (w : Word) (ws : List Word) : endCount (w :: ws) = (if wEnd w then 1 else 0) + endCount ws := by
  unfold endCount
  rw [List.filter_cons]
  split
  · rw [List.length_cons, Nat.add_comm]
  · rw [Nat.zero_add]

theorem FifoInv.fill {f : Fifo} (hf : FifoInv f) : FifoInv (fifoFill f) := by
  obtain ⟨hroom, hcount⟩ := hf
  refine ⟨?_, ?_⟩
  · simp only [fifoFill, List.length_append, List.length_take]
    omega
  · simp only [fifoFill, endCount_append, hcount]

theorem FifoInv.start {f : Fifo} (hf : FifoInv f) (seq : Nat) (ws : List Word) : FifoInv (fifoStart seq ws f) :=
  FifoInv.fill (f := { f with rest := ws, seqs := f.seqs ++ [seq] }) hf

/-- A FIFO without its oldest word, before the room is filled again. -/
def fifoTail (w : Word) (ws : List Word) (f : Fifo) : Fifo :=
  { f with
    words := ws
    packets := if wEnd w then f.packets - 1 else f.packets
    seqs := if wEnd w then f.seqs.drop 1 else f.seqs }

theorem fifoPop_of_empty {f : Fifo} (hw : f.words = []) : fifoPop f = (notValidWord, f) := by
  simp only [fifoPop, hw]

theorem fifoPop_of_cons {f : Fifo} {w : Word} {ws : List Word} (hw : f.words = w :: ws) :
    fifoPop f = (w, fifoFill (fifoTail w ws f)) := by
  simp only [fifoPop, hw, fifoTail]

theorem FifoInv.tail {f : Fifo} {w : Word} {ws : List Word} (hf : FifoInv f) (hw : f.words = w :: ws) : FifoInv (fifoTail w ws f) := by
  obtain ⟨hroom, hcount⟩ := hf
  rw [hw, List.length_cons] at hroom
  rw [hw, endCount_cons] at hcount
  refine ⟨Nat.le_of_succ_le hroom, ?_⟩
  show (if wEnd w then f.packets - 1 else f.packets) = endCount ws
  rw [hcount]
  split <;> omega

theorem FifoInv.pop {f : Fifo} (hf : FifoInv f) : FifoInv (fifoPop f).2 := by
  cases hw : f.words with
  | nil => rwa [fifoPop_of_empty hw]
  | cons w ws => rw [fifoPop_of_cons hw]; exact (hf.tail hw).fill

theorem FifoInv.overrun {f : Fifo} (hf : FifoInv f) : FifoInv (fifoOverrun f) := by
  unfold fifoOverrun
  split
  · exact hf
  next w _ _ => exact FifoInv.fill (f := { f with overrun := true, rest := [BitVec.ofNat 32 (8 + wSeq w)] }) hf

theorem FifoInv.flush (f : Fifo) : FifoInv (fifoFlush f) := ⟨Nat.zero_le _, rfl⟩

theorem FifoInv.feed {f : Fifo} (hf : FifoInv f) (h : Hub) : FifoInv (feed h f).2 :=
  feedFuel_induction (P := fun y => FifoInv y.2) (fun _ _ x _ hy => hy.start x.record.seq _) _ _ hf.fill

theorem FifoInv.copy {f : Fifo} (hf : FifoInv f) (seq : Nat) (ws : List Word) : FifoInv (copyTo seq ws f).1 := by
  unfold copyTo
  split
  · exact hf.start seq ws
  · exact hf

/-! ## ATTN (13 R315) -/

/-- No reserved bit of ATTN is set, nor the bit that the FIFO holds. -/
abbrev AttnInv (a : Word) : Prop := a &&& 0xFFFFFF40#32 = 0#32

theorem AttnInv.or {a b : Word} (ha : AttnInv a) (hb : AttnInv b) : AttnInv (a ||| b) := by
  unfold AttnInv at *
  rw [BitVec.and_comm, BitVec.and_or_distrib_left, BitVec.and_comm, ha, BitVec.and_comm, hb, BitVec.or_self]

theorem AttnInv.and {a : Word} (ha : AttnInv a) (b : Word) : AttnInv (a &&& b) := by
  unfold AttnInv at *
  rw [BitVec.and_assoc, BitVec.and_comm b, ← BitVec.and_assoc, ha, BitVec.zero_and]

/-! ## The window (13 R315) -/

theorem HostInv.wf {s : State} (hs : HostInv s) : Memory.wf s.host.ram = true := hs.1

theorem HostInv.fifo {s : State} (hs : HostInv s) : FifoInv s.host.fifo := hs.2.2

/-- A change of the hub alone leaves the window as it is. -/
theorem HostInv.setHub {s : State} (hs : HostInv s) (h : Hub) : HostInv { s with hub := h } := hs

/-- The window after reset (R315). -/
theorem hostInv_of_reset {s : State} (hh : s.host = {}) : HostInv s := by
  unfold HostInv
  rw [hh]
  exact ⟨rfl, by decide, Nat.zero_le _, rfl⟩

theorem HostInv.setFifo {s : State} {f : Fifo} (hs : HostInv s) (hf : FifoInv f) : HostInv { s with host.fifo := f } := by
  obtain ⟨hram, hattn, -⟩ := hs
  exact ⟨hram, hattn, hf⟩

theorem HostInv.write {s : State} (hs : HostInv s) (a : Nat) (bs : Bytes) :
    HostInv { s with host.ram := writeBytes s.host.ram a bs } := by
  obtain ⟨hram, hattn, hfifo⟩ := hs
  exact ⟨writeBytes_wf hram, hattn, hfifo⟩

theorem HostInv.setAttn {s : State} {n : Nat} (hs : HostInv s) (hn : AttnInv (BitVec.ofNat 32 n)) : HostInv (setAttn n s) := by
  obtain ⟨hram, hattn, hfifo⟩ := hs
  exact ⟨hram, AttnInv.or hattn hn, hfifo⟩

theorem HostInv.updMb {s : State} (hs : HostInv s) (mb : Nat) (f : HostMb → HostMb) : HostInv (updMb mb f s) := by
  unfold Machine.updMb
  exact iteInduction (fun _ => hs) fun _ => iteInduction (fun _ => hs) fun _ => hs

theorem HostInv.attnClear {s : State} (hs : HostInv s) (bits : Word) : HostInv (attnClear bits s) := by
  obtain ⟨hram, hattn, hfifo⟩ := hs
  exact ⟨hram, AttnInv.and hattn _, hfifo⟩

theorem HostInv.storeWord {s : State} (hs : HostInv s) (a : Nat) (w : Word) : HostInv (storeWord a w s) := by
  unfold Machine.storeWord
  split
  · exact hs
  · split
    · exact hs.write a _
    · exact hs

/-! ## The outlets and the host's FIFO (09 R218, R222 to R224) -/

theorem HostInv.feedCustody {s : State} (hs : HostInv s) : HostInv (feedCustody s) := by
  unfold Machine.feedCustody
  split
  · exact hs
  · exact hs
  · exact hs.setFifo (hs.fifo.feed s.hub)

theorem HostInv.copyRecord {s : State} (hs : HostInv s) (x : Held) : HostInv (copyRecord s x) := by
  have hcopied := hs.setFifo (hs.fifo.copy x.record.seq (packetWords (recBytes s.hub x.record)))
  unfold Machine.copyRecord
  cases hostCopy s.hub x.record.ty with
  | true => exact iteInduction (fun _ => hcopied) fun _ => hcopied
  | false => exact iteInduction (fun _ => hs) fun _ => hs

theorem HostInv.copyReleased {s : State} (hs : HostInv s) : HostInv (copyReleased s) :=
  List.foldlRecOn (motive := HostInv) _ _ hs fun _ ht x _ => ht.copyRecord x

theorem HostInv.outletOverrun {s : State} (hs : HostInv s) (o : Nat) : HostInv (outletOverrun o s) := by
  have hover : HostInv (match o with
      | 0 => { s with hub := { s.hub with outlets.lane := fifoOverrun s.hub.outlets.lane } }
      | 1 => { s with hub := { s.hub with outlets.eth := fifoOverrun s.hub.outlets.eth } }
      | _ => { s with host.fifo := fifoOverrun s.host.fifo }) := by
    split
    · exact hs
    · exact hs
    · exact hs.setFifo hs.fifo.overrun
  unfold Machine.outletOverrun
  dsimp only
  split
  · exact iteInduction (fun _ => hover) fun _ => hover
  · exact hover

end Sys2Proof.Machine
end

