-- ==== Sys2Proof/Proofs/HostSteps.lean ====
section
/-! PROOFS. The invariant of the host port window under every row: the mailboxes, transactions, ticks, lanes and resets
(13 R314 to R319, 09 R220, R221). -/

namespace Sys2Proof.Machine

/-! ## Mailboxes (13 R316 to R319) -/

theorem attnInv_responseBit {mb : Nat} (hm : isHostMb mb = true) : AttnInv (BitVec.ofNat 32 (2 ^ hostIndex mb)) := by
  obtain rfl | rfl | rfl : mb = 0 ∨ mb = 1 ∨ mb = 7 := by simpa [isHostMb, or_assoc] using hm
  all_goals exact by decide

theorem attnInv_noticeBit {mb : Nat} (hm : isHostMb mb = true) : AttnInv (BitVec.ofNat 32 (2 ^ (3 + hostIndex mb))) := by
  obtain rfl | rfl | rfl : mb = 0 ∨ mb = 1 ∨ mb = 7 := by simpa [isHostMb, or_assoc] using hm
  all_goals exact by decide

theorem HostInv.deliverNotice {s : State} {mb : Nat} (hs : HostInv s) (hm : isHostMb mb = true) : HostInv (deliverNotice mb s) := by
  unfold Machine.deliverNotice
  dsimp only
  split
  · exact hs
  next n ns _ =>
    refine iteInduction (fun _ => hs) fun _ => HostInv.setAttn (HostInv.write ?_ _ n) (attnInv_noticeBit hm)
    exact (hs.setHub _).updMb mb _

theorem HostInv.deliverResponse {s : State} (hs : HostInv s) (mb : Nat) (m : Bytes) : HostInv (deliverResponse mb m s) := by
  unfold Machine.deliverResponse
  split
  next hm => exact HostInv.setAttn ((hs.write (hostBase mb + 0x2000) m).updMb mb _) (attnInv_responseBit hm)
  · exact iteInduction (fun _ => hs) fun _ => hs

theorem HostInv.deliverNoticeMsg {s : State} (hs : HostInv s) (mb : Nat) (m : Bytes) : HostInv (deliverNoticeMsg mb m s) := by
  unfold Machine.deliverNoticeMsg
  split
  next hm => exact (hs.updMb mb _).deliverNotice hm
  · exact iteInduction (fun _ => hs) fun _ => hs

theorem HostInv.releaseHeld {s : State} (hs : HostInv s) : HostInv (releaseHeld s) :=
  List.foldlRecOn (motive := HostInv) _ _ hs fun _ ht x _ => ht.deliverResponse x.2.1 x.2.2

theorem HostInv.respond {s : State} (hs : HostInv s) (code mb : Nat) (m : Bytes) : HostInv (respond code mb m s) := by
  unfold Machine.respond
  exact iteInduction (fun _ => hs) fun _ => hs.deliverResponse mb m

/-- A restart leaves the window as it is after reset (R315). -/
theorem hostInv_restart (phase : Phase) (warm : Bool) (s : State) : HostInv (restart phase warm s) := hostInv_of_reset rfl

theorem hostInv_doReset (r : ResetDue) (s : State) : HostInv (doReset r s) := hostInv_of_reset rfl

theorem HostInv.process {s : State} (hs : HostInv s) (code : Nat) (cmd : Option Cmd) (env : Env) (r : Req) :
    HostInv (process code cmd env r s) := by
  have hresponse (m : Bytes) : HostInv (Machine.respond code r.mailbox m { s with hub := (handle code cmd env r s.hub).hub }) :=
    (hs.setHub _).respond code r.mailbox m
  unfold Machine.process
  dsimp only
  split
  · exact iteInduction (fun _ => hostInv_doReset ..) fun _ => hresponse _
  · exact hresponse _

theorem HostInv.takeMessage {s : State} (hs : HostInv s) (env : Env) (w : Waiting) : HostInv (takeMessage env w s) := by
  have hidle : HostInv (if isHostMb w.mb then Machine.updMb w.mb (fun x => { x with busy := false }) s else s) :=
    iteInduction (motive := HostInv) (fun _ => hs.updMb w.mb _) fun _ => hs
  unfold Machine.takeMessage
  rcases parseMsg w.mb w.msg with _ | ⟨code, r⟩
  · exact hidle
  · exact iteInduction (fun _ => iteInduction (motive := HostInv) (fun _ => hidle) fun _ => hidle) fun _ => hs.process code _ env r

theorem HostInv.serveOne {s : State} (hs : HostInv s) (env : Env) : HostInv (serveOne env s) := by
  unfold Machine.serveOne
  split
  · exact hs
  · split
    · exact hs
    next w _ =>
      exact iteInduction (fun _ => hs) fun _ => iteInduction (fun _ => hs) fun _ =>
        (hs.setHub _).takeMessage env w

theorem HostInv.serveFuel {s : State} (hs : HostInv s) (env : Env) (n : Nat) : HostInv (serveFuel env n s) := by
  induction n generalizing s with
  | zero => exact hs
  | succ n ih => exact iteInduction (fun _ => hs) fun _ => ih (hs.serveOne env)

theorem HostInv.serve {s : State} (hs : HostInv s) (env : Env) : HostInv (serve env s) :=
  iteInduction (fun _ => hs.serveFuel env _) fun _ => hs

theorem HostInv.answerBusy {s : State} (hs : HostInv s) (mb : Nat) (msg : Bytes) : HostInv (answerBusy mb msg s) := by
  unfold Machine.answerBusy
  split
  · exact hs
  · exact iteInduction (fun _ => hs) fun _ => hs.deliverResponse mb _

theorem HostInv.arrive {s : State} (hs : HostInv s) (mb via : Nat) (msg : Bytes) (env : Env) : HostInv (arrive mb via msg env s) :=
  iteInduction (fun _ => hs) fun _ => iteInduction (fun _ => hs) fun _ => iteInduction (fun _ => hs.answerBusy mb msg) fun _ =>
    (hs.setHub _).serve env

theorem HostInv.sendNotice {s : State} (hs : HostInv s) (code : Nat) (r : Req) (status : Nat) (payload : Bytes) :
    HostInv (sendNotice code r status payload s) :=
  iteInduction (fun _ => hs) fun _ => (hs.setHub _).deliverNoticeMsg r.mailbox _

/-! ## Transactions (13 R314, R315) -/

theorem HostInv.fifoDataRead {s : State} (hs : HostInv s) : HostInv (fifoDataRead s) := by
  have hpop : HostInv { s with host.fifo := (fifoPop s.host.fifo).2
                               host.packetsRead := if !s.host.fifo.words.isEmpty && wEnd (fifoPop s.host.fifo).1 then
                                 s.host.packetsRead + 1 else s.host.packetsRead } := hs.setFifo hs.fifo.pop
  exact iteInduction (motive := HostInv) (fun _ => hpop.feedCustody) fun _ => hpop

theorem HostInv.readOne {s : State} (hs : HostInv s) (addr : Nat) : HostInv (readOne addr s).2 :=
  iteInduction (motive := HostInv) (fun _ => hs.fifoDataRead) fun _ => iteInduction (fun _ => hs) fun _ => hs

theorem HostInv.readBurst {s : State} (hs : HostInv s) (n addr : Nat) : HostInv (readBurst n addr s).2 := by
  induction n generalizing s addr with
  | zero => exact hs
  | succ n ih => exact ih (hs.readOne addr) (nextAddr addr)

theorem HostInv.submit {s : State} (hs : HostInv s) (mb : Nat) : HostInv (submit mb s) :=
  iteInduction (fun _ => hs.setAttn (n := 0x80) (by decide)) fun _ => hs.updMb mb _

theorem HostInv.doorbell {s : State} (hs : HostInv s) (bits : Word) (env : Env) : HostInv (doorbell bits env s) :=
  iteInduction (fun _ => hs) fun _ =>
    HostInv.serve (List.foldlRecOn (motive := HostInv) _ _ hs fun _ ht mb _ => ht.submit mb) env

theorem HostInv.writeOne {s : State} (hs : HostInv s) (env : Env) (addr : Nat) (w : Word) : HostInv (writeOne env addr w s) := by
  unfold Machine.writeOne
  split
  · exact hs.attnClear w
  · exact hs.doorbell w env
  · exact hs
  · exact hs.storeWord addr w

theorem HostInv.writeBurst {s : State} (hs : HostInv s) (env : Env) (addr : Nat) (words : List Bytes) :
    HostInv (writeBurst env addr words s) := by
  induction words generalizing s addr with
  | nil => exact hs
  | cons b bs ih => exact iteInduction (fun _ => ih (hs.writeOne env addr _) (nextAddr addr)) fun _ => hs

theorem HostInv.readReply {s : State} (hs : HostInv s) (addr : Nat) : HostInv (readReply addr s) := hs.readOne addr

/-! ## Ends of jobs, messages between links, the pair (08 R195, 05 R111, 14 R366, 11 R284, R290, 12 R302, R310) -/

theorem HostInv.jobStop {s : State} (hs : HostInv s) (j : Nat) : HostInv (jobStop j s) := by
  unfold Machine.jobStop
  split
  · exact hs
  · exact iteInduction (fun _ => hs) fun _ => (hs.setHub _).sendNotice _ _ _ _

theorem HostInv.windowClose {s : State} (hs : HostInv s) (ch : Nat) : HostInv (windowClose ch s) := by
  unfold Machine.windowClose
  split
  · exact hs
  · exact iteInduction (fun _ => hs) fun _ => (hs.setHub _).sendNotice _ _ _ _

theorem HostInv.verifyDone {s : State} (hs : HostInv s) : HostInv (verifyDone s) := by
  unfold Machine.verifyDone
  split
  · exact hs
  · exact (hs.setHub _).sendNotice _ _ _ _

theorem HostInv.installDone {s : State} (hs : HostInv s) (ok : Bool) : HostInv (installDone ok s) := by
  unfold Machine.installDone
  split
  · exact hs
  · exact (hs.setHub _).sendNotice _ _ _ _

theorem HostInv.mailArrives {s : State} (hs : HostInv s) (k lane : Nat) (dest : BitVec 32) (hops mb : Nat) (msg : Bytes) (env : Env) :
    HostInv (mailArrives k lane dest hops mb msg env s) :=
  iteInduction (fun _ => iteInduction (fun _ => hs.arrive 6 lane msg env) fun _ => hs) fun _ => iteInduction (fun _ => hs) fun _ =>
    iteInduction (fun _ => hs.arrive mb lane msg env) fun _ => iteInduction (fun _ => hs) fun _ => hs

theorem HostInv.mailDatagram {s : State} (hs : HostInv s) (d : Bytes) (env : Env) : HostInv (mailDatagram d env s) := by
  unfold Machine.mailDatagram
  dsimp only
  split
  · exact hs
  · exact iteInduction (fun _ => (hs.setHub _).arrive _ _ _ env) fun _ => hs

theorem HostInv.leaveRole {s : State} (hs : HostInv s) (before : Hub) : HostInv (leaveRole before s) :=
  iteInduction (fun _ => hs.setFifo (.flush _)) fun _ => hs

theorem HostInv.relayUnit {s : State} (hs : HostInv s) (body : Bytes) : HostInv (relayUnit body s) :=
  iteInduction (fun _ => hs) fun _ => iteInduction (fun _ => hs) fun _ => hs.arrive _ _ _ _

theorem HostInv.shadowUnit {s : State} (hs : HostInv s) (u : Bytes) : HostInv (shadowUnit u s) :=
  iteInduction (fun _ => hs) fun _ => iteInduction (fun _ => hs) fun _ => iteInduction (fun _ => hs) fun _ =>
    iteInduction
      (fun _ => iteInduction (fun _ => (hs.setHub _).relayUnit _) fun _ => iteInduction (fun _ => hs) fun _ => hs)
      fun _ => iteInduction (fun _ => hs) fun _ => hs

/-! ## Ticks and lanes (06 R136, 11 R259 to R285) -/

theorem HostInv.settleLanes {s : State} (hs : HostInv s) (before : Hub) : HostInv (settleLanes before s) :=
  ((hs.setHub _).copyReleased).feedCustody.releaseHeld

theorem HostInv.laneWork {s : State} (hs : HostInv s) (f : Hub → Hub) : HostInv (laneWork f s) :=
  (hs.setHub _).settleLanes s.hub

theorem HostInv.outletSend {s : State} (hs : HostInv s) (outlet : Nat) : HostInv (outletSend outlet s) := by
  have hdrained : HostInv (if outlet = 1 then { s with hub := drainEth s.hub } else s) := iteInduction (fun _ => hs) fun _ => hs
  exact iteInduction (motive := HostInv) (fun _ => hdrained.feedCustody) fun _ => hdrained

theorem HostInv.resetLeft {s : State} (hs : HostInv s) : HostInv (resetLeft s) := by
  unfold Machine.resetLeft
  split
  · exact iteInduction (fun _ => hostInv_doReset ..) fun _ => hs
  · exact hs

theorem HostInv.tick {s : State} (hs : HostInv s) (overrun : Option Bool) : HostInv (tick overrun s) := by
  have hcopied := ((hs.setHub (hubTick overrun s.hub)).leaveRole s.hub).copyReleased
  exact HostInv.resetLeft (HostInv.releaseHeld (HostInv.feedCustody (iteInduction (motive := HostInv) (fun _ => hcopied) fun _ => hcopied)))

theorem HostInv.deliver {s : State} (hs : HostInv s) (k lane : Nat) (d : Delivery) : HostInv (deliver k lane d s) := by
  cases d with
  | mail dest hops mb msg => exact hs.mailArrives k lane dest hops mb msg {}
  | flare msg => exact hs
  | shadow bytes => exact hs.shadowUnit bytes

theorem HostInv.deliverAll {s : State} (hs : HostInv s) (k lane : Nat) (ds : List Delivery) : HostInv (deliverAll k lane ds s) :=
  List.foldlRecOn (motive := HostInv) _ _ hs fun _ ht d _ => ht.deliver k lane d

theorem HostInv.goodCell {s : State} (hs : HostInv s) (k lane : Nat) (bytes : Bytes) (arrive : Inst) :
    HostInv (goodCell k lane bytes arrive s) :=
  iteInduction (motive := HostInv) (fun _ => hs) fun _ => iteInduction (fun _ => hs) fun _ => iteInduction (fun _ => hs) fun _ =>
    (hs.setHub _).deliverAll k lane _

theorem HostInv.cellReceipt {s : State} (hs : HostInv s) (lane : Nat) (bytes : Bytes) (arrive : Inst) :
    HostInv (cellReceipt lane bytes arrive s) :=
  iteInduction (motive := HostInv) (fun _ => hs) fun _ => iteInduction (fun _ => hs) fun _ => iteInduction (fun _ => hs) fun _ =>
    iteInduction (fun _ => hs) fun _ => iteInduction (fun _ => hs) fun _ =>
      (hs.setHub _).goodCell _ lane bytes arrive

theorem HostInv.acceptCells {s : State} (hs : HostInv s) (k : Nat) (cells : List Bytes) : HostInv (acceptCells k cells s) :=
  List.foldlRecOn (motive := HostInv) _ _ hs fun _ ht _ _ =>
    iteInduction (motive := HostInv) (fun _ => ht) fun _ => (ht.setHub _).deliverAll k _ _

/-! ## Every row -/

/-- A row that is a command of chapter 14 is processed with its code and its own step 7. -/
theorem exec_of_commandRow {i : Instr} {code : Nat} {cmd : Cmd} {env : Env} {r : Req} (hrow : commandRow i = some (code, cmd, env, r))
    (s : State) : exec i s = runCommand code cmd env r s := by
  cases i <;> cases hrow <;> rfl

/-- The state that an outcome holds keeps the invariant. -/
def Keeps (o : Out) : Prop := ∀ t, o = .next t → HostInv t

theorem keeps_next {s : State} (hs : HostInv s) : Keeps (.next s) := by
  rintro t ⟨⟩
  exact hs

/-- A row that changes the hub alone leaves the window as it is. -/
theorem keeps_hubNext {s : State} (hs : HostInv s) (h : Hub) : Keeps (hubNext s h) := keeps_next (s := { s with hub := h }) hs

theorem keeps_runCommand {s : State} (hs : HostInv s) (code : Nat) (cmd : Cmd) (env : Env) (r : Req) :
    Keeps (runCommand code cmd env r s) :=
  keeps_next (iteInduction (fun _ => hs) fun _ => iteInduction (fun _ => hs) fun _ => iteInduction (fun _ => hs) fun _ =>
    (hs.setHub _).process code _ env r)

theorem keeps_hostPortTransaction {s : State} (hs : HostInv s) (op : Byte) (addr : BitVec 24) (data : Bytes) (count : Nat) (env : Env) :
    Keeps (execHostPortTransaction op addr data count env s) :=
  keeps_next (iteInduction (fun _ => hs) fun _ => iteInduction (fun _ => hs) fun _ => iteInduction (fun _ => hs) fun _ =>
    iteInduction (fun _ => hs.readBurst count addr.toNat) fun _ => hs.writeBurst env addr.toNat (chunks 4 data))

theorem keeps_faultRaise {s : State} (hs : HostInv s) (source inst : Nat) (forced : Bool) (detail : BitVec 64) (dt : Nat) :
    Keeps (execFaultRaise source inst forced detail dt s) := by
  have hover : HostInv (if 0x80 ≤ source ∧ source ≤ 0x82 ∧ !forced then outletOverrun (source - 0x80) s
      else if (source = 0x72 ∨ source = 0x73) ∧ !forced then { s with hub := { s.hub with stream.badBodies := s.hub.stream.badBodies + 1 } }
      else s) :=
    iteInduction (fun _ => hs.outletOverrun _) fun _ => iteInduction (fun _ => hs) fun _ => hs
  exact iteInduction (motive := Keeps) (fun _ => keeps_hubNext hover _) fun _ => keeps_next hs

theorem keeps_firstLight {s : State} (hs : HostInv s) (elapsed : Inst) : Keeps (execFirstLight elapsed s) :=
  iteInduction (motive := Keeps)
    (fun _ => keeps_next ((hs.setHub _).copyReleased).feedCustody.releaseHeld) fun _ => keeps_next hs

theorem keeps_drainEnd {s : State} (hs : HostInv s) (timedOut : Bool) : Keeps (execDrainEnd timedOut s) := by
  unfold execDrainEnd
  split
  · exact iteInduction (fun _ => keeps_next (hostInv_doReset ..)) fun _ => keeps_next hs
  · exact keeps_next hs

theorem keeps_vinRise {s : State} (hs : HostInv s) : Keeps (execVinRise s) := by
  refine keeps_next ?_
  split
  · exact hostInv_restart ..
  · exact iteInduction (fun _ => hs) fun _ => hs

/-- Every row keeps the invariant: the commands of chapter 14 by the seven steps, the rows that touch the window each by its operation,
the others because they change the hub alone. -/
theorem keeps_exec {s : State} (hs : HostInv s) (i : Instr) : Keeps (exec i s) := by
  cases hrow : commandRow i with
  | some row => exact exec_of_commandRow hrow s ▸ keeps_runCommand hs _ _ _ _
  | none =>
    cases i <;> simp only [commandRow, reduceCtorEq] at hrow
    case hostPortTransaction op addr data count env => exact keeps_hostPortTransaction hs op addr data count env
    case registerWrite addr w => exact keeps_next (iteInduction (fun _ => hs.storeWord addr.toNat w) fun _ => hs)
    case doorbell bits env => exact keeps_next (hs.doorbell bits env)
    case attnClear bits => exact keeps_next (iteInduction (fun _ => hs.attnClear bits) fun _ => hs)
    case fifoStatusClear bits => exact keeps_next (iteInduction (fun _ => hs) fun _ => hs)
    case fifoDataRead => exact keeps_next (iteInduction (fun _ => hs.readReply 0x24) fun _ => hs)
    case copyDropsRead => exact keeps_next (iteInduction (fun _ => hs.readReply 0x2C) fun _ => hs)
    case noticeDeliver mb => exact keeps_next (iteInduction (fun hm => hs.deliverNotice hm) fun _ => hs)
    case mailboxMessageArrival mb msg via env => exact keeps_next (iteInduction (fun _ => hs.arrive mb via msg env) fun _ => hs)
    case faultRaise source inst forced detail dt => exact keeps_faultRaise hs source inst forced detail dt
    case compressJobStop j => exact keeps_next (hs.jobStop j)
    case calSystemWindowClose ch => exact keeps_next (hs.windowClose ch)
    case fwVerifyDone => exact keeps_next hs.verifyDone
    case fwInstallDone ok => exact keeps_next (hs.installDone ok)
    case outletSend o => exact keeps_next (hs.outletSend o)
    case arpReply ip mac => exact iteInduction (motive := Keeps) (fun _ => keeps_hubNext hs _) fun _ => keeps_next hs
    case mailboxCellMessage link dest hops mb msg env =>
      exact keeps_next (iteInduction (fun _ => hs.mailArrives link _ dest hops mb msg env) fun _ => hs)
    case udpMailboxDatagram d env => exact keeps_next (iteInduction (fun _ => hs.mailDatagram d env) fun _ => hs)
    case collectorForcedReset => exact keeps_next (iteInduction (fun _ => hostInv_restart ..) fun _ => hs)
    case release => exact keeps_next ((hs.setHub _).leaveRole s.hub)
    case pairConflict => exact keeps_next ((hs.setHub _).leaveRole s.hub)
    case shadowUnitReceipt u => exact keeps_next (hs.shadowUnit u)
    case meridianTick overrun => exact keeps_next (iteInduction (fun _ => hs.tick overrun) fun _ => hs)
    case laneSearchAttempt => exact keeps_next (hs.laneWork _)
    case tsReceipt => exact keeps_next (hs.laneWork _)
    case rxReady => exact keeps_next (hs.laneWork _)
    case trainingTimeout => exact keeps_next (hs.laneWork _)
    case latencyMeasure => exact keeps_next (hs.laneWork _)
    case laneLos => exact keeps_next (hs.laneWork _)
    case laneLol => exact keeps_next (hs.laneWork _)
    case laneRejoin => exact keeps_next (hs.laneWork _)
    case cellTransmit => exact keeps_next (hs.laneWork _)
    case resync => exact keeps_next (iteInduction (fun _ => hs.laneWork _) fun _ => hs)
    case nakGapTimeout => exact keeps_next (iteInduction (fun _ => hs.laneWork _) fun _ => hs)
    case cellReceipt lane cell arrive => exact keeps_next ((hs.cellReceipt lane cell arrive).settleLanes s.hub)
    case passThroughRecord link cells =>
      exact keeps_next (iteInduction (fun _ => (hs.acceptCells link cells).settleLanes s.hub) fun _ => hs)
    case vinRise => exact keeps_vinRise hs
    case brownOut => exact keeps_next (hostInv_restart ..)
    case resetN => exact keeps_next (iteInduction (fun _ => hostInv_restart ..) fun _ => hs)
    case firstLight elapsed => exact keeps_firstLight hs elapsed
    case drainEnd timedOut => exact keeps_drainEnd hs timedOut
    all_goals exact keeps_hubNext hs _

/-! ## The statements -/

/-- Settles O1, by the queue's two forms. -/
theorem stepRunsFrontCommand : Obligations.StepRunsFrontCommand := by
  unfold Obligations.StepRunsFrontCommand
  refine ⟨fun c s rest hq => ?_, fun s hq => ?_⟩
  · simp only [step, hq]
  · simp only [step, hq]

/-- Settles O3: the queue is no part of the window, and the row at its front keeps the invariant. -/
theorem everyStepKeepsHostInv : Obligations.EveryStepKeepsHostInv := by
  intro s t hs hstep
  cases hq : s.pending with
  | nil =>
    rw [stepRunsFrontCommand.2 s hq] at hstep
    exact keeps_next hs t hstep
  | cons c rest =>
    rw [stepRunsFrontCommand.1 c s rest hq] at hstep
    exact keeps_exec (s := { s with pending := rest }) hs c t hstep

/-- Settles O4, by evaluation of the reset values; every byte of the buffers is an unlisted one. -/
theorem resetState : Obligations.ResetState := by
  refine ⟨hostInv_of_reset rfl, rfl, rfl, rfl, ?_, rfl, ?_, rfl, rfl, fun a => rfl, rfl, rfl⟩
  · decide
  · decide

end Sys2Proof.Machine
end

