-- ==== Sys2Proof/Proofs/HostPort.lean ====
section
/-! PROOFS. The host port as the host sees it: transactions, register writes, the attention and FIFO registers (13 R314, R315, R317,
09 R221, R222, 17 R423). -/

namespace Sys2Proof.Machine

/-! ## Words of the buffers (13 R315) -/

theorem leNat_ofLe (bs : Bytes) : leNat bs.length (ofLe bs) = bs := by
  induction bs with
  | nil => rfl
  | cons b bs ih =>
    have hlow : BitVec.ofNat 8 (b.toNat + 256 * ofLe bs) = b := BitVec.eq_of_toNat_eq (by simp [Nat.mod_eq_of_lt b.isLt])
    have hhigh : (b.toNat + 256 * ofLe bs) / 256 = ofLe bs := by omega
    simp only [List.length_cons, leNat, ofLe, hlow, hhigh, ih]

/-- The word that 4 bytes spell holds those bytes. -/
theorem leNat_word_of_bytes {bs : Bytes} (hl : bs.length = 4) : leNat 4 (BitVec.ofNat 32 (ofLe bs)).toNat = bs := by
  have hlt : ofLe bs < 2 ^ 32 := by simpa [hl] using ofLe_lt bs
  have hbytes := leNat_ofLe bs
  rw [BitVec.toNat_ofNat, Nat.mod_eq_of_lt hlt]
  rwa [hl] at hbytes

theorem chunks_of_word : ∀ {bs : Bytes}, bs.length = 4 → chunks 4 bs = [bs]
  | [_, _, _, _], _ => rfl

/-- The buffers lie above every register. -/
theorem le_of_bufferAt {a : Nat} {x : Nat × Nat} (hb : bufferAt a = some x) : 65536 ≤ a := by
  unfold bufferAt at hb
  dsimp only at hb
  split at hb
  next hblock => omega
  · cases hb

theorem readWindow_of_buffer {a : Nat} {x : Nat × Nat} (hb : bufferAt a = some x) (s : State) :
    readWindow s a = BitVec.ofNat 32 (ofLe (readBytes s.host.ram a 4)) := by
  have hhigh := le_of_bufferAt hb
  unfold readWindow
  split
  case h_12 => rw [hb, Option.isSome_some, if_pos rfl]
  all_goals omega

theorem storeWord_of_request {a mb : Nat} (hb : bufferAt a = some (mb, 0)) (w : Word) (s : State) :
    storeWord a w s = { s with host.ram := writeBytes s.host.ram a (leNat 4 w.toNat) } := by
  have hhigh := le_of_bufferAt hb
  rw [storeWord, if_neg (by omega), hb]
  rfl

theorem storeWord_of_other {a : Nat} (ha : a ≠ 0x14) (hb : ∀ mb, bufferAt a ≠ some (mb, 0)) (w : Word) (s : State) :
    storeWord a w s = s := by
  rw [storeWord, if_neg ha]
  split
  next mb hrequest => exact absurd hrequest (hb mb)
  · rfl

theorem writeOne_of_request {a mb : Nat} (hb : bufferAt a = some (mb, 0)) (env : Env) (w : Word) (s : State) :
    writeOne env a w s = storeWord a w s := by
  have hhigh := le_of_bufferAt hb
  unfold writeOne
  split
  case h_4 => rfl
  all_goals omega

/-! ## Transactions (13 R314, R317, 17 R423) -/

theorem portAnswers_of_ready {h : Hub} (hr : portReady h = true) : portAnswers h = true := by
  have hphase : h.power.phase = .run ∨ h.power.phase = .draining := by simpa [portReady] using hr
  rcases hphase with hp | hp <;> simp [portAnswers, hp]

/-- What the port drives in a transaction that it answers. -/
def portReply (h : Hub) (status : Nat) (words : List Word) : HpReply :=
  { answered := true, status := BitVec.ofNat 8 status, state := BitVec.ofNat 8 (phaseCode h.power.phase), words := words }

/-- What an unserved transaction answers: zero words to a read, none to a write. -/
def zeroWords (op : Byte) (count : Nat) : List Word := if op == 0xA5 then List.replicate count 0 else []

section
variable {s : State} {op : Byte} {addr : BitVec 24} (data : Bytes) (count : Nat) (env : Env)

theorem transaction_of_silent (hx : (op ≠ 0xA5 ∧ op ≠ 0x5A) ∨ portAnswers s.hub = false) :
    exec (.hostPortTransaction op addr data count env) s = .next { s with host.reply := {} } := by
  have hcond : (!portAnswers s.hub || !(op == 0xA5 || op == 0x5A)) = true := by
    rcases hx with ⟨hread, hwrite⟩ | hport
    · rw [beq_false_of_ne hread, beq_false_of_ne hwrite, Bool.or_false, Bool.not_false, Bool.or_true]
    · simp [hport]
  exact congrArg Host.Outcome.next (if_pos hcond)

/-- A port that answers looks at its bring-up, then at the address. -/
theorem transaction_of_answering (hop : op = 0xA5 ∨ op = 0x5A) (ha : portAnswers s.hub = true) :
    exec (.hostPortTransaction op addr data count env) s = .next (
      if !portReady s.hub then { s with host.reply := portReply s.hub 0x10 (zeroWords op count) }
      else if addr.toNat % 4 ≠ 0 || !mapped addr.toNat then { s with host.reply := portReply s.hub 0x24 (zeroWords op count) }
      else if op == 0xA5 then { (readBurst count addr.toNat s).2 with host.reply := portReply s.hub 0 (readBurst count addr.toNat s).1 }
      else { writeBurst env addr.toNat (chunks 4 data) s with host.reply := portReply s.hub 0 [] }) := by
  have hcond : (!portAnswers s.hub || !(op == 0xA5 || op == 0x5A)) = false := by
    rcases hop with rfl | rfl <;> simp [ha]
  exact congrArg Host.Outcome.next (if_neg (Bool.eq_false_iff.mp hcond))

theorem transaction_of_bringUp (hop : op = 0xA5 ∨ op = 0x5A) (ha : portAnswers s.hub = true) (hr : portReady s.hub = false) :
    exec (.hostPortTransaction op addr data count env) s = .next { s with host.reply := portReply s.hub 0x10 (zeroWords op count) } := by
  rw [transaction_of_answering data count env hop ha, hr, Bool.not_false, if_pos rfl]

theorem transaction_of_bad_address (hop : op = 0xA5 ∨ op = 0x5A) (hr : portReady s.hub = true)
    (ha : addr.toNat % 4 ≠ 0 ∨ mapped addr.toNat = false) :
    exec (.hostPortTransaction op addr data count env) s = .next { s with host.reply := portReply s.hub 0x24 (zeroWords op count) } := by
  have hcond : (decide (addr.toNat % 4 ≠ 0) || !mapped addr.toNat) = true := by
    rcases ha with ha | ha <;> simp [ha]
  rw [transaction_of_answering data count env hop (portAnswers_of_ready hr), hr, Bool.not_true, if_neg Bool.false_ne_true, if_pos hcond]

section
variable (hr : portReady s.hub = true) (h4 : addr.toNat % 4 = 0) (hm : mapped addr.toNat = true)
include hr h4 hm

theorem transaction_read :
    exec (.hostPortTransaction 0xA5 addr data count env) s =
      .next { (readBurst count addr.toNat s).2 with host.reply := portReply s.hub 0 (readBurst count addr.toNat s).1 } := by
  rw [transaction_of_answering data count env (.inl rfl) (portAnswers_of_ready hr)]
  simp [hr, h4, hm]

theorem transaction_write :
    exec (.hostPortTransaction 0x5A addr data count env) s =
      .next { writeBurst env addr.toNat (chunks 4 data) s with host.reply := portReply s.hub 0 [] } := by
  rw [transaction_of_answering data count env (.inr rfl) (portAnswers_of_ready hr)]
  simp [hr, h4, hm]

end

end

theorem readBurst_length (n addr : Nat) (s : State) : (readBurst n addr s).1.length = n := by
  induction n generalizing addr s with
  | zero => rfl
  | succ n ih => exact congrArg (· + 1) (ih (nextAddr addr) (readOne addr s).2)

/-- A register that no read changes. -/
theorem readBurst_one_of_plain {a : Nat} (h24 : a ≠ 0x24) (h2C : a ≠ 0x2C) (s : State) : readBurst 1 a s = ([readWindow s a], s) := by
  simp [readBurst, readOne, h24, h2C]

/-- A whole word written to a request buffer. -/
theorem writeBurst_of_request {a mb : Nat} {data : Bytes} (hb : bufferAt a = some (mb, 0)) (hl : data.length = 4) (env : Env) (s : State) :
    writeBurst env a (chunks 4 data) s = { s with host.ram := writeBytes s.host.ram a data } := by
  rw [chunks_of_word hl, writeBurst, if_pos hl, writeBurst, writeOne_of_request hb, storeWord_of_request hb, leNat_word_of_bytes hl]

theorem registerWrite_of_ready {s : State} {addr : BitVec 24} (hr : portReady s.hub = true) (h4 : addr.toNat % 4 = 0) (w : Word) :
    exec (.registerWrite addr w) s = .next (storeWord addr.toNat w s) :=
  congrArg Host.Outcome.next (if_pos (by simp [hr, h4]))

/-- Settles O5, clause by clause in the order of the transaction's checks, then the register writes. -/
theorem hostPortTransactions : Obligations.HostPortTransactions := by
  refine ⟨fun s op addr data count env => ⟨?silent, ?bringUp, ?badAddress, ?read, ?write⟩, fun s addr w hr h4 =>
    ⟨?enable, ?request, ?other⟩⟩
  case silent => exact transaction_of_silent data count env
  case bringUp =>
    intro ha hr
    exact ⟨transaction_of_bringUp data count env (.inl rfl) ha hr, transaction_of_bringUp data count env (.inr rfl) ha hr⟩
  case badAddress =>
    intro hr hbad
    exact ⟨transaction_of_bad_address data count env (.inl rfl) hr hbad, transaction_of_bad_address data count env (.inr rfl) hr hbad⟩
  case read =>
    intro hr h4 hm
    refine ⟨⟨_, transaction_read data count env hr h4 hm, rfl, readBurst_length ..⟩, fun h24 h2C => ?_⟩
    rw [transaction_read data 1 env hr h4 hm, readBurst_one_of_plain h24 h2C]
    rfl
  case write =>
    intro hr h4 hs hl mb hb
    have hm : mapped addr.toNat = true := by simp [mapped, hb]
    refine ⟨_, transaction_write data count env hr h4 hm, ?_⟩
    rw [writeBurst_of_request hb hl]
    refine ⟨rfl, ?_, fun b hout => readByte_writeBytes_outside hs.wf (by rwa [hl])⟩
    rw [← hl]
    exact readBytes_writeBytes hs.wf
  case enable =>
    rintro rfl
    rw [registerWrite_of_ready hr h4]
    rfl
  case request =>
    intro mb hs hb
    have hbytes : readBytes (writeBytes s.host.ram addr.toNat (leNat 4 w.toNat)) addr.toNat 4 = leNat 4 w.toNat := by
      simpa using readBytes_writeBytes (bs := leNat 4 w.toNat) (a := addr.toNat) hs.wf
    rw [registerWrite_of_ready hr h4, storeWord_of_request hb]
    refine ⟨_, rfl, rfl, ?_, hbytes, fun b hout => readByte_writeBytes_outside hs.wf (by rwa [leNat_length])⟩
    rw [readWindow_of_buffer hb, hbytes, ofLe_leNat_of_lt w.isLt, BitVec.ofNat_toNat, BitVec.setWidth_eq]
  case other =>
    intro h14 hb
    have ha : addr.toNat ≠ 0x14 := fun ha => h14 (BitVec.eq_of_toNat_eq ha)
    rw [registerWrite_of_ready hr h4, storeWord_of_other ha hb]

/-! ## ATTN, FIFO_STATUS, FIFO_DATA, COPY_DROPS (13 R315, 09 R221, R222) -/

/-- Bit 6 of ATTN is the FIFO's NOTICE (R315, 09 R221). -/
theorem getLsbD_attnWord (s : State) {i : Nat} (hi : i < 32) :
    (attnWord s).getLsbD i = if i = 6 then s.host.fifo.notice else s.host.attn.getLsbD i := by
  have hmask : ∀ j : Fin 32, (0xFFFFFFBF : Word).getLsbD j = decide (j.val ≠ 6) := by decide
  have hbit : ∀ j : Fin 32, (0x40 : Word).getLsbD j = decide (j.val = 6) := by decide
  have hnotice : (if s.host.fifo.notice then (0x40 : Word) else 0).getLsbD i = (s.host.fifo.notice && decide (i = 6)) := by
    cases s.host.fifo.notice
    · simp
    · simpa using hbit ⟨i, hi⟩
  rw [attnWord, BitVec.getLsbD_or, BitVec.getLsbD_and, hmask ⟨i, hi⟩, hnotice]
  by_cases h6 : i = 6 <;> simp [h6]

/-- Writing 1 to a bit of ATTN clears it, the FIFO's NOTICE with bit 6. -/
theorem attnWord_attnClear (bits : Word) (s : State) : attnWord (attnClear bits s) = attnWord s &&& ~~~bits := by
  refine BitVec.eq_of_getLsbD_eq fun i hi => ?_
  rw [BitVec.getLsbD_and, getLsbD_attnWord _ hi, getLsbD_attnWord _ hi, BitVec.getLsbD_not]
  by_cases h6 : i = 6 <;> simp [attnClear, h6, hi]

theorem exec_attnClear_of_ready {s : State} (hr : portReady s.hub = true) (bits : Word) :
    exec (.attnClear bits) s = .next (attnClear bits s) := congrArg Host.Outcome.next (if_pos hr)

theorem exec_fifoStatusClear_of_ready {s : State} (hr : portReady s.hub = true) (bits : Word) :
    exec (.fifoStatusClear bits) s = .next (fifoStatusClear bits s) := congrArg Host.Outcome.next (if_pos hr)

theorem exec_fifoDataRead_of_ready {s : State} (hr : portReady s.hub = true) :
    exec .fifoDataRead s = .next { fifoDataRead s with host.reply := portReply s.hub 0 [(fifoPop s.host.fifo).1] } :=
  congrArg Host.Outcome.next (if_pos hr)

theorem exec_copyDropsRead_of_ready {s : State} (hr : portReady s.hub = true) : exec .copyDropsRead s = .next (readReply 0x2C s) :=
  congrArg Host.Outcome.next (if_pos hr)

theorem fifoDataRead_of_empty {s : State} (hw : s.host.fifo.words = []) (hc : custodyOutlet s.hub ≠ 2) : fifoDataRead s = s := by
  simp [fifoDataRead, fifoPop_of_empty hw, hw, hc]

/-- A read of a word outside the custody stream: it leaves, and PACKETS_READ counts an END word. -/
theorem fifoDataRead_of_cons {s : State} {w : Word} {ws : List Word} (hw : s.host.fifo.words = w :: ws) (hc : custodyOutlet s.hub ≠ 2) :
    fifoDataRead s =
      { s with host.fifo := fifoFill (fifoTail w ws s.host.fifo)
               host.packetsRead := if wEnd w then s.host.packetsRead + 1 else s.host.packetsRead } := by
  simp [fifoDataRead, fifoPop_of_cons hw, hw, hc]

/-- Settles O7: a write-one-to-clear register each, then the reads of an empty FIFO, of COPY_DROPS and of a FIFO that holds words. -/
theorem attentionAndFifoRegisters : Obligations.AttentionAndFifoRegisters := by
  refine ⟨fun s bits hr => ⟨?attn, ?status, ?empty, ?drops⟩, ?word⟩
  case attn =>
    rw [exec_attnClear_of_ready hr]
    exact ⟨_, rfl, attnWord_attnClear bits s, rfl⟩
  case status =>
    rw [exec_fifoStatusClear_of_ready hr]
    rfl
  case empty =>
    intro hw hc
    rw [exec_fifoDataRead_of_ready hr, fifoDataRead_of_empty hw hc, fifoPop_of_empty hw]
    exact ⟨_, rfl, rfl, rfl⟩
  case drops =>
    rw [exec_copyDropsRead_of_ready hr]
    exact ⟨_, rfl, rfl, rfl⟩
  case word =>
    intro s w ws hr hc hs hw
    have hcarried : carried (fifoFill (fifoTail w ws s.host.fifo)) = ws ++ s.host.fifo.rest := carried_fifoFill _
    rw [exec_fifoDataRead_of_ready hr, fifoDataRead_of_cons hw hc, fifoPop_of_cons hw]
    exact ⟨_, rfl, rfl, rfl, rfl, hcarried, rfl, rfl, rfl, hs.setFifo (hs.fifo.tail hw).fill⟩

end Sys2Proof.Machine
end

