-- ==== Sys2Proof/Proofs/HostMailboxes.lean ====
section
/-! PROOFS. The mailboxes as the host sees them: responses and notices in their buffers, doorbells, and messages that arrive for MB2 to
MB5 (13 R316, R318, R319, R322). -/

namespace Sys2Proof.Machine

/-! ## One mailbox of the window (13 R315) -/

theorem isHostMb_iff {mb : Nat} : isHostMb mb = true ↔ mb = 0 ∨ mb = 1 ∨ mb = 7 := by
  simp [isHostMb, or_assoc]

@[simp] theorem hostMb_updMb {mb : Nat} (hm : isHostMb mb = true) (f : HostMb → HostMb) (s : State) :
    hostMb (updMb mb f s) mb = f (hostMb s mb) := by
  obtain rfl | rfl | rfl := isHostMb_iff.mp hm <;> rfl

@[simp] theorem hostMb_setAttn (bits mb : Nat) (s : State) : hostMb (setAttn bits s) mb = hostMb s mb := rfl

/-- An update of a mailbox's registers. -/
theorem updMb_frame (mb : Nat) (f : HostMb → HostMb) (s : State) :
    updMb mb f s =
      { s with host.mb0 := (updMb mb f s).host.mb0, host.mb1 := (updMb mb f s).host.mb1, host.mb7 := (updMb mb f s).host.mb7 } := by
  unfold updMb
  split
  · rfl
  · split <;> rfl

@[simp] theorem updMb_hub (mb : Nat) (f : HostMb → HostMb) (s : State) : (updMb mb f s).hub = s.hub := by rw [updMb_frame]
@[simp] theorem updMb_pending (mb : Nat) (f : HostMb → HostMb) (s : State) : (updMb mb f s).pending = s.pending := by rw [updMb_frame]
@[simp] theorem updMb_ram (mb : Nat) (f : HostMb → HostMb) (s : State) : (updMb mb f s).host.ram = s.host.ram := by rw [updMb_frame]
@[simp] theorem updMb_attn (mb : Nat) (f : HostMb → HostMb) (s : State) : (updMb mb f s).host.attn = s.host.attn := by rw [updMb_frame]

theorem bitOf_toNat (w : Word) (i : Nat) : bitOf w.toNat i = w.getLsbD i := by
  rw [bitOf, BitVec.getLsbD, Nat.testBit_eq_decide_div_mod_eq]
  rfl

/-- A bit that has been set in ATTN stands. -/
theorem bitOf_attn_setAttn {i : Nat} (hi : i < 32) (s : State) : bitOf (setAttn (2 ^ i) s).host.attn.toNat i = true := by
  rw [bitOf_toNat, setAttn, BitVec.getLsbD_or, BitVec.getLsbD_ofNat, Nat.testBit_two_pow_self, decide_eq_true hi, Bool.and_self,
    Bool.or_true]

theorem hostIndex_lt {mb : Nat} (hm : isHostMb mb = true) : hostIndex mb < 3 := by
  obtain rfl | rfl | rfl := isHostMb_iff.mp hm <;> decide

/-! ## PENDING commands counted (13 R316) -/

@[simp] theorem pendingOf_setPending (mb n : Nat) (h : Hub) : pendingOf (setPending mb n h) mb = n := by
  simp [pendingOf, setPending]

/-! ## Responses (13 R316) -/

theorem deliverResponse_of_host {mb : Nat} (hm : isHostMb mb = true) (m : Bytes) (s : State) :
    deliverResponse mb m s =
      setAttn (2 ^ hostIndex mb)
        (updMb mb (fun x => { x with busy := false }) { s with host.ram := writeBytes s.host.ram (hostBase mb + 0x2000) m }) :=
  if_pos hm

theorem respond_of_unpaired {s : State} (hp : s.hub.pair.paired = false) (code mb : Nat) (m : Bytes) :
    respond code mb m s = deliverResponse mb m s := by
  simp [respond, hp]

theorem answered_deliverResponse {s : State} {mb : Nat} (hs : HostInv s) (hm : isHostMb mb = true) (m : Bytes) :
    Answered mb m (deliverResponse mb m s) := by
  have hi := hostIndex_lt hm
  rw [deliverResponse_of_host hm]
  refine ⟨?_, bitOf_attn_setAttn (by omega) _, ?_⟩
  · simpa [setAttn] using readBytes_writeBytes (bs := m) hs.wf
  · rw [hostMb_setAttn, hostMb_updMb hm]

/-- Settles O9: on an unpaired hub the response is delivered at once, and its delivery writes RESPONSE, ATTN and MB_STATE alone. -/
theorem responseReachesTheHost : Obligations.ResponseReachesTheHost := by
  intro s code mb m hmb hs hp
  have hm := isHostMb_iff.mpr hmb
  rw [respond_of_unpaired hp]
  refine ⟨answered_deliverResponse hs hm m, ?_, ?_, fun b hout => ?_⟩
  · simp [deliverResponse_of_host hm, setAttn]
  · simp [deliverResponse_of_host hm, setAttn]
  · simpa [deliverResponse_of_host hm, setAttn] using readByte_writeBytes_outside hs.wf hout

/-! ## Notices (13 R316, R322) -/

/-- The machine once the oldest notice of a mailbox has been written to NOTICE. -/
def noticeWritten (mb : Nat) (n : Bytes) (ns : List Bytes) (s : State) : State :=
  let s := updMb mb (fun x => { x with notices := ns }) { s with hub := setPending mb (pendingOf s.hub mb - 1) s.hub }
  setAttn (2 ^ (3 + hostIndex mb)) { s with host.ram := writeBytes s.host.ram (hostBase mb + 0x4000) n }

theorem deliverNotice_of_clear {s : State} {mb : Nat} {n : Bytes} {ns : List Bytes} (hn : (hostMb s mb).notices = n :: ns)
    (hb : bitOf s.host.attn.toNat (3 + hostIndex mb) = false) : deliverNotice mb s = noticeWritten mb n ns s := by
  simp [deliverNotice, hn, hb, noticeWritten]

theorem deliverNotice_of_set {s : State} {mb : Nat} (hx : (hostMb s mb).notices = [] ∨ bitOf s.host.attn.toNat (3 + hostIndex mb) = true) :
    deliverNotice mb s = s := by
  unfold deliverNotice
  dsimp only
  split
  · rfl
  next n ns hn =>
    have hbit : bitOf s.host.attn.toNat (3 + hostIndex mb) = true := hx.resolve_left (by simp [hn])
    rw [if_pos hbit]

section
variable {s : State} {mb : Nat} (hm : isHostMb mb = true) (n : Bytes) (ns : List Bytes)

theorem noticeWritten_hub : (noticeWritten mb n ns s).hub = setPending mb (pendingOf s.hub mb - 1) s.hub := by
  simp [noticeWritten, setAttn]

theorem noticeWritten_pending : (noticeWritten mb n ns s).pending = s.pending := by simp [noticeWritten, setAttn]

theorem noticeWritten_ram : (noticeWritten mb n ns s).host.ram = writeBytes s.host.ram (hostBase mb + 0x4000) n := by
  simp [noticeWritten, setAttn]

include hm

theorem noticeWritten_notices : (hostMb (noticeWritten mb n ns s) mb).notices = ns := by
  have hupd : hostMb (noticeWritten mb n ns s) mb = _ := hostMb_updMb hm (fun x => { x with notices := ns }) _
  rw [hupd]

theorem noticeWritten_bit : bitOf (noticeWritten mb n ns s).host.attn.toNat (3 + hostIndex mb) = true := by
  have hi := hostIndex_lt hm
  exact bitOf_attn_setAttn (by omega) _

end

/-- The hub once the key kept for a notice is no longer needed. -/
def keyDropped (r : Req) (h : Hub) : Hub := { h with mbx.noticeKeys := h.mbx.noticeKeys.filter (·.1 != r) }

/-- A notice queued behind those that wait. -/
def noticeQueued (r : Req) (m : Bytes) (s : State) : State :=
  updMb r.mailbox (fun x => { x with notices := x.notices ++ [m] }) { s with hub := keyDropped r s.hub }

theorem sendNotice_of_host {s : State} {code : Nat} {r : Req} (hm : isHostMb r.mailbox = true)
    (ha : isShadowed code = true → isStandby s.hub = false) (status : Nat) (payload : Bytes) :
    sendNotice code r status payload s =
      deliverNotice r.mailbox (noticeQueued r
        (responseBytes s.hub code r (if isCritical r then noticeKey r s.hub else none) true status payload) s) := by
  have hown : (isShadowed code && isStandby s.hub) = false := by
    cases hc : isShadowed code with
    | false => rfl
    | true => rw [ha hc]; rfl
  unfold sendNotice deliverNoticeMsg
  dsimp only
  rw [hown, if_neg Bool.false_ne_true, if_pos hm, if_pos hm]
  rfl

theorem not_mem_noticeKeys_keyDropped (r : Req) (k : Option Bytes) (h : Hub) : (r, k) ∉ (keyDropped r h).mbx.noticeKeys := by
  simp [keyDropped]

section
variable {s : State} {r : Req} (m : Bytes)

theorem noticeQueued_hub : (noticeQueued r m s).hub = keyDropped r s.hub := updMb_hub ..
theorem noticeQueued_attn : (noticeQueued r m s).host.attn = s.host.attn := updMb_attn ..
theorem noticeQueued_ram : (noticeQueued r m s).host.ram = s.host.ram := updMb_ram ..

theorem noticeQueued_notices (hm : isHostMb r.mailbox = true) :
    (hostMb (noticeQueued r m s) r.mailbox).notices = (hostMb s r.mailbox).notices ++ [m] := by
  rw [noticeQueued, hostMb_updMb hm]
  rfl

/-- Delivery of a queued notice keeps the queue of commands, and the key stays dropped. -/
theorem deliverNotice_noticeQueued_frame (hm : isHostMb r.mailbox = true) :
    (deliverNotice r.mailbox (noticeQueued r m s)).pending = s.pending ∧
      (deliverNotice r.mailbox (noticeQueued r m s)).hub.mbx.noticeKeys = (keyDropped r s.hub).mbx.noticeKeys := by
  obtain ⟨n, ns, hn⟩ : ∃ n ns, (hostMb (noticeQueued r m s) r.mailbox).notices = n :: ns :=
    List.exists_cons_of_ne_nil (by rw [noticeQueued_notices m hm]; simp)
  cases hb : bitOf (noticeQueued r m s).host.attn.toNat (3 + hostIndex r.mailbox) with
  | true =>
    rw [deliverNotice_of_set (.inr hb), noticeQueued_hub]
    exact ⟨updMb_pending .., rfl⟩
  | false =>
    rw [deliverNotice_of_clear hn hb, noticeWritten_hub, noticeWritten_pending, noticeQueued_hub]
    exact ⟨updMb_pending .., rfl⟩

end

/-- Settles O8: NOTICE_DELIVER with the notice bit clear and otherwise, then a notice sent onto a clear and onto a set notice bit. -/
theorem noticesReachTheHost : Obligations.NoticesReachTheHost := by
  refine ⟨fun s mb hmb hs => ?deliver, fun s code status r payload hm hs ha => ?send⟩
  case deliver =>
    have hm := isHostMb_iff.mpr hmb
    have hexec : exec (.noticeDeliver mb) s = .next (deliverNotice mb s) := congrArg Host.Outcome.next (if_pos hm)
    refine ⟨fun n ns hn hb => ?_, fun hx => by rw [hexec, deliverNotice_of_set hx]⟩
    rw [hexec, deliverNotice_of_clear hn hb]
    refine ⟨_, rfl, noticeWritten_hub n ns, noticeWritten_notices hm n ns, ?_, noticeWritten_bit hm n ns, fun b hout => ?_⟩
    · rw [noticeWritten_ram]
      exact readBytes_writeBytes hs.wf
    · rw [noticeWritten_ram]
      exact readByte_writeBytes_outside hs.wf hout
  case send =>
    intro m t
    have ht : t = deliverNotice r.mailbox (noticeQueued r m s) := sendNotice_of_host hm ha status payload
    obtain ⟨hpending, hkeys⟩ := deliverNotice_noticeQueued_frame (s := s) m hm
    have hqueued := noticeQueued_notices (s := s) m hm
    rw [ht]
    refine ⟨hpending, fun k hk => not_mem_noticeKeys_keyDropped r k s.hub (hkeys ▸ hk), fun hn hb => ?_, fun hb => ?_⟩
    · rw [hn, List.nil_append] at hqueued
      rw [deliverNotice_of_clear hqueued ((noticeQueued_attn (s := s) (r := r) m).symm ▸ hb)]
      refine ⟨?_, noticeWritten_bit hm m [], noticeWritten_notices hm m [], ?_⟩
      · rw [noticeWritten_ram, noticeQueued_ram]
        exact readBytes_writeBytes hs.wf
      · rw [noticeWritten_hub, noticeQueued_hub, pendingOf_setPending]
        rfl
    · rw [deliverNotice_of_set (.inr ((noticeQueued_attn (s := s) (r := r) m).symm ▸ hb))]
      refine ⟨hqueued, noticeQueued_ram m, ?_⟩
      rw [noticeQueued_hub]
      rfl

/-! ## Doorbells (13 R316, R319) -/

/-- The machine once a mailbox's request waits for Wiori. -/
def rung (mb : Nat) (s : State) : State :=
  { updMb mb (fun x => { x with busy := true }) s with
    hub := { s.hub with mbx.waiting := s.hub.mbx.waiting ++ [{ mb := mb, msg := requestBytesAt s mb }] } }

theorem submit_of_idle {s : State} {mb : Nat} (hi : mbState s mb = 0) : submit mb s = rung mb s := by
  unfold submit
  rw [if_neg (by simp [hi])]
  simp only [updMb_hub, rung]

theorem submit_of_taken {s : State} {mb : Nat} (hi : mbState s mb ≠ 0) : submit mb s = setAttn 0x80 s := if_pos hi

theorem mbState_rung {s : State} {mb : Nat} (hm : isHostMb mb = true) (hi : mbState s mb = 0) : mbState (rung mb s) mb = 1 := by
  have hopen : (decide (mb = 7) && s.hub.flash.lifecycle != .maintenance) = false := by
    cases hlocked : (decide (mb = 7) && s.hub.flash.lifecycle != .maintenance) with
    | false => rfl
    | true => simp only [mbState, hlocked, if_true, OfNat.ofNat_ne_zero] at hi
  have hbusy : hostMb (rung mb s) mb = { hostMb s mb with busy := true } := hostMb_updMb hm _ s
  unfold mbState
  rw [hbusy, show (rung mb s).hub.flash = s.hub.flash from rfl, hopen]
  rfl

theorem serve_of_busy {env : Env} (he : env.free = false) (s : State) : serve env s = s := by simp [serve, he]

/-- A write to DOORBELL that names one mailbox. -/
theorem exec_doorbell_of_one {s : State} {mb : Nat} (hr : portReady s.hub = true) (hm : isHostMb mb = true) (env : Env) :
    exec (.doorbell (BitVec.ofNat 32 (2 ^ hostIndex mb)) env) s = .next (serve env (submit mb s)) := by
  have hone : ([0, 1, 7] : List Nat).filter (fun x => (BitVec.ofNat 32 (2 ^ hostIndex mb)).getLsbD (hostIndex x)) = [mb] := by
    obtain rfl | rfl | rfl := isHostMb_iff.mp hm <;> decide
  show Host.Outcome.next (doorbell _ env s) = _
  rw [doorbell, hr, hone]
  rfl

/-- The turn comes to a mailbox below 8 whose messages alone wait. -/
theorem nextMailbox_of_one {h : Hub} {w : Waiting} (hw : h.mbx.waiting = [w]) (hlt : w.mb < 8) : nextMailbox h = some w.mb := by
  have hturn : w.mb ∈ (List.range 8).map fun k => (h.mbx.last + 1 + k) % 8 :=
    List.mem_map.mpr ⟨(w.mb + 15 - h.mbx.last % 8) % 8, List.mem_range.mpr (by omega), by omega⟩
  obtain ⟨x, hx⟩ : ∃ x, nextMailbox h = some x :=
    Option.isSome_iff_exists.mp (List.find?_isSome.mpr ⟨w.mb, hturn, by simp [hw]⟩)
  have hmb : w.mb = x := by simpa [hw] using List.find?_some hx
  rw [hx, hmb]

theorem serve_of_one {s : State} {w : Waiting} {env : Env} (hf : env.free = true) (hh : s.hub.faults.hardware = none)
    (hw : s.hub.mbx.waiting = [w]) (hm : isHostMb w.mb = true) (hserved : served s.hub w.mb = true) :
    serve env s = takeMessage env w { s with hub := { s.hub with mbx.waiting := [], mbx.last := w.mb } } := by
  have hmb := isHostMb_iff.mp hm
  have hnext : nextMailbox s.hub = some w.mb := nextMailbox_of_one hw (by omega)
  have hown : decide (2 ≤ w.mb ∧ w.mb ≤ 5) = false := decide_eq_false (by omega)
  have hserved' : served { s.hub with mbx.waiting := [], mbx.last := w.mb } w.mb = true := hserved
  simp [serve, hf, hh, hw, serveFuel, serveOne, hnext, hown, hserved']

/-! ## Messages that arrive (13 R318) -/

section
variable {s : State} {mb : Nat} (h2 : 2 ≤ mb) (h5 : mb ≤ 5) (hserved : served s.hub mb = true) (ha : isStandby s.hub = false)
  (msg : Bytes) (via : Nat) (env : Env)
include h2 h5 hserved ha

theorem exec_arrival_of_served : exec (.mailboxMessageArrival mb msg via env) s = .next (
    if 4 ≤ (s.hub.mbx.waiting.filter (·.mb == mb)).length then answerBusy mb msg s
    else serve env { s with hub := { s.hub with mbx.waiting := s.hub.mbx.waiting ++ [⟨mb, msg, via⟩] } }) := by
  have hrow : exec (.mailboxMessageArrival mb msg via env) s = .next (arrive mb via msg env s) :=
    congrArg Host.Outcome.next (if_pos ⟨h2, h5⟩)
  rw [hrow, arrive]
  simp [hserved, ha]

end

theorem answerBusy_of_request {s : State} {mb code : Nat} {msg : Bytes} {r : Req} (h2 : 2 ≤ mb) (h5 : mb ≤ 5)
    (hp : parseMsg mb msg = some (code, r)) (hr : isResponse r = false) :
    answerBusy mb msg s = { s with hub := emit (responseRec mb 0 (responseBytes s.hub code r none false rBusy [])) s.hub } := by
  have hm : isHostMb mb = false := by
    rw [Bool.eq_false_iff, Ne, isHostMb_iff]
    omega
  have h6 : mb ≠ 6 := by omega
  simp [answerBusy, hp, hr, deliverResponse, hm, h6]

/-- Settles O6: the doorbell of an idle, of a taken and of a served mailbox, then the message that waits and the fifth one. -/
theorem mailboxesTakeRequests : Obligations.MailboxesTakeRequests := by
  refine ⟨fun s env mb hr hmb => ?doorbell, fun s mb via msg env h2 h5 hserved ha =>
    ⟨fun hfew he => ?waits, fun code r hfull hp hreq => ?fifth⟩⟩
  case doorbell =>
    have hm := isHostMb_iff.mpr hmb
    have hexec := exec_doorbell_of_one hr hm env
    refine ⟨fun hi he => ?_, fun hi he => ?_, fun hi he hw hh hserved => ?_⟩
    · exact ⟨by rw [hexec, serve_of_busy he, submit_of_idle hi]; rfl, mbState_rung hm hi⟩
    · rw [hexec, serve_of_busy he, submit_of_taken hi]
      rfl
    · have hone : (rung mb s).hub.mbx.waiting = [{ mb := mb, msg := requestBytesAt s mb }] := by simp [rung, hw]
      rw [hexec, submit_of_idle hi, serve_of_one (s := rung mb s) he hh hone hm hserved]
      simp only [rung, hw]
  case waits => rw [exec_arrival_of_served h2 h5 hserved ha, if_neg (by omega), serve_of_busy he]
  case fifth =>
    rw [exec_arrival_of_served h2 h5 hserved ha, if_pos hfull, answerBusy_of_request h2 h5 hp hreq]
    rfl

end Sys2Proof.Machine
end

