-- ==== Sys2Proof/Proofs/Requests.lean ====
section
/-! PROOFS. Requests: what a message spells, the order in which a request is checked, and what an accepted and a refused one leave
(13 R320, R324, R325, 12 R304, 15 R376, R380). -/

namespace Sys2Proof.Machine

/-! ## The bytes of a request (13 R320) -/

/-- Numbers laid down one behind the other, each with its width in bytes. -/
def partsBytes (ps : List (Nat × Nat)) : Bytes := ps.flatMap fun p => leNat p.1 p.2

theorem partsBytes_length (ps : List (Nat × Nat)) : (partsBytes ps).length = (ps.map (·.1)).sum := by
  simp [partsBytes, List.length_flatMap]

/-- A number laid down among others reads back where those before it end. -/
theorem fieldAt_part {ps : List (Nat × Nat)} {k : Nat} (hk : k < ps.length) (hv : ps[k].2 < 2 ^ (8 * ps[k].1)) (c : Bytes) :
    fieldAt (partsBytes ps ++ c) ((ps.take k).map (·.1)).sum ps[k].1 = ps[k].2 := by
  have hps : ps = ps.take k ++ ps[k] :: ps.drop (k + 1) := by rw [List.getElem_cons_drop, List.take_append_drop]
  have hbytes : partsBytes ps = partsBytes (ps.take k) ++ (leNat ps[k].1 ps[k].2 ++ partsBytes (ps.drop (k + 1))) := by
    conv_lhs => rw [hps]
    simp only [partsBytes, List.flatMap_append, List.flatMap_cons]
  rw [hbytes, ← List.append_assoc, List.append_assoc, fieldAt_behind (partsBytes_length _) (leNat_length ..), ofLe_leNat_of_lt hv]

/-- A byte of a string is its field of one byte. -/
theorem getD_eq_fieldAt {bs : Bytes} {i : Nat} (hi : i < bs.length) : bs.getD i 0 = BitVec.ofNat 8 (fieldAt bs i 1) := by
  rw [fieldAt, List.drop_eq_getElem_cons hi, List.take_succ_cons, List.take_zero, List.getD_eq_getElem _ _ hi]
  simp [ofLe]

/-- The header of a request in the order of R320. -/
def headerParts (code : Nat) (r : Req) : List (Nat × Nat) :=
  [(1, r.version.toNat), (1, r.flags.toNat), (2, code), (4, r.origin.toNat), (1, r.keySlot.toNat), (1, r.status.toNat),
   (2, r.length.toNat), (4, r.msgId.toNat), (8, r.counter.toNat), (4, r.dest.toNat), (4, r.rsvd.toNat)]

theorem msgBytes_eq (code : Nat) (r : Req) : msgBytes code r = partsBytes (headerParts code r) ++ (r.payload ++ r.tag) := by
  simp [msgBytes, reqBytes, headerBytes, partsBytes, headerParts, leNat]

theorem drop_msgBytes (code : Nat) (r : Req) : (msgBytes code r).drop 32 = r.payload ++ r.tag := by
  have h32 : (partsBytes (headerParts code r)).length = 32 := partsBytes_length _
  rw [msgBytes_eq, ← h32, List.drop_left]

/-- Settles O10: each field of the header by its place among the parts, then payload and tag by LENGTH. -/
theorem messagesParseBack : Obligations.MessagesParseBack := by
  intro code r hcode hlen
  have hlong : 32 ≤ (msgBytes code r).length := by
    have hhead : (partsBytes (headerParts code r)).length = 32 := partsBytes_length _
    rw [msgBytes_eq, List.length_append, hhead]
    exact Nat.le_add_right ..
  have hpart (k : Nat) (hk : k < 11) (hv : (headerParts code r)[k].2 < 2 ^ (8 * (headerParts code r)[k].1)) :=
    fieldAt_part (ps := headerParts code r) hk hv (r.payload ++ r.tag)
  simp only [← msgBytes_eq] at hpart
  have hversion : fieldAt (msgBytes code r) 0 1 = r.version.toNat := hpart 0 (by decide) r.version.isLt
  have hflags : fieldAt (msgBytes code r) 1 1 = r.flags.toNat := hpart 1 (by decide) r.flags.isLt
  have hcommand : fieldAt (msgBytes code r) 2 2 = code := fieldAt_msgBytes_code hcode r
  have horigin : fieldAt (msgBytes code r) 4 4 = r.origin.toNat := hpart 3 (by decide) r.origin.isLt
  have hslot : fieldAt (msgBytes code r) 8 1 = r.keySlot.toNat := hpart 4 (by decide) r.keySlot.isLt
  have hstatus : fieldAt (msgBytes code r) 9 1 = r.status.toNat := hpart 5 (by decide) r.status.isLt
  have hlength : fieldAt (msgBytes code r) 10 2 = r.payload.length := (hpart 6 (by decide) r.length.isLt).trans hlen.symm
  have hmsgId : fieldAt (msgBytes code r) 12 4 = r.msgId.toNat := hpart 7 (by decide) r.msgId.isLt
  have hcounter : fieldAt (msgBytes code r) 16 8 = r.counter.toNat := hpart 8 (by decide) r.counter.isLt
  have hdest : fieldAt (msgBytes code r) 24 4 = r.dest.toNat := hpart 9 (by decide) r.dest.isLt
  have hrsvd : fieldAt (msgBytes code r) 28 4 = r.rsvd.toNat := hpart 10 (by decide) r.rsvd.isLt
  have hbyte {i : Nat} (hi : i < 32) := getD_eq_fieldAt (bs := msgBytes code r) (i := i) (by omega)
  unfold parseMsg
  rw [if_neg (by omega), hbyte (i := 0) (by decide), hbyte (i := 1) (by decide), hbyte (i := 8) (by decide), hbyte (i := 9) (by decide)]
  simp only [hversion, hflags, hcommand, horigin, hslot, hstatus, hlength, hmsgId, hcounter, hdest, hrsvd, drop_msgBytes,
    List.take_left, List.drop_left, BitVec.ofNat_toNat, BitVec.setWidth_eq]
  rw [hlen, BitVec.ofNat_toNat, BitVec.setWidth_eq]

/-! ## A request that Wiori processes (13 R324, R325) -/

/-- A request reaches the seven steps: its mailbox is served by a running Wiori, it is no response, and it is not relayed. -/
structure Processed (r : Req) (s : State) : Prop where
  served : served s.hub r.mailbox = true
  runs : s.hub.faults.hardware = none
  request : isResponse r = false
  own : 2 ≤ r.mailbox → r.mailbox ≤ 5 → isStandby s.hub = false

theorem Admitted.processed {code : Nat} {r : Req} {s : State} (a : Admitted code r s) : Processed r s :=
  ⟨a.served, a.runs, a.request, a.own⟩

theorem runCommand_of_processed {r : Req} {s : State} (hp : Processed r s) (code : Nat) (cmd : Cmd) (env : Env) :
    runCommand code cmd env r s = .next (process code (some cmd) env r { s with hub := meeting r s }) := by
  obtain ⟨hserved, hruns, hreq, hown⟩ := hp
  have hown' : (decide (2 ≤ r.mailbox ∧ r.mailbox ≤ 5) && isStandby s.hub) = false := by
    by_cases hm : 2 ≤ r.mailbox ∧ r.mailbox ≤ 5
    · rw [hown hm.1 hm.2, Bool.and_false]
    · rw [decide_eq_false hm, Bool.false_and]
  simp only [runCommand, hserved, hruns, hreq, hown', Bool.not_true, Option.isSome_none, Bool.or_false, Bool.false_eq_true, if_false, meeting]

/-- What a request comes to that asks for no reset: its response leaves, and the hub is the one its handling left. -/
theorem process_of_no_reset {code : Nat} {cmd : Option Cmd} {env : Env} {r : Req} {s : State} {p : Reply} {tagged : Bool} {g : Hub}
    (hh : handle code cmd env r s.hub = ⟨p, tagged, g⟩) (hr : p.reset = none) :
    process code cmd env r s =
      respond code r.mailbox
        (responseBytes s.hub code r (if tagged then keyOf s.hub r.keySlot.toNat else none) false p.status p.payload) { s with hub := g } := by
  unfold process
  dsimp only
  rw [hh]
  simp only [hr]

/-- A row that is a command, its request processed without a reset. -/
theorem exec_of_handled {i : Instr} {s : State} {code : Nat} {cmd : Cmd} {env : Env} {r : Req} {p : Reply} {tagged : Bool} {g : Hub}
    (hrow : commandRow i = some (code, cmd, env, r)) (hp : Processed r s)
    (hh : handle code (some cmd) env r (meeting r s) = ⟨p, tagged, g⟩) (hr : p.reset = none) :
    exec i s = .next (respond code r.mailbox
      (responseBytes (meeting r s) code r (if tagged then keyOf (meeting r s) r.keySlot.toNat else none) false p.status p.payload)
      { s with hub := g }) := by
  rw [exec_of_commandRow hrow, runCommand_of_processed hp, process_of_no_reset hh hr]

/-! ## The counter (13 R324, R325) -/

@[simp] theorem raiseCounter_flash (o : BitVec 32) (slot n : Nat) (h : Hub) : (raiseCounter o slot n h).flash = h.flash := by
  unfold raiseCounter
  split
  · rfl
  · split <;> rfl

theorem consumed_of_critical {r : Req} (hc : isCritical r = true) (h : Hub) :
    consumed r h = raiseCounter r.origin r.keySlot.toNat r.counter.toNat h := if_pos hc

theorem consumed_of_plain {r : Req} (hc : isCritical r = false) (h : Hub) : consumed r h = h := by simp [consumed, hc]

/-- A counter that passes step 5 is above the last one accepted, and a new origin and slot find room in the table. -/
theorem counterFault_eq_none {r : Req} {h : Hub} (hn : counterFault r h = none) :
    (lastCounter h r.origin r.keySlot.toNat).getD 0 < r.counter.toNat ∧
      (lastCounter h r.origin r.keySlot.toNat = none → h.mbx.counters.length < 1024) := by
  unfold counterFault at hn
  dsimp only at hn
  split at hn
  · cases hn
  next hlast =>
    refine ⟨Nat.lt_of_not_le hlast, fun hnone => ?_⟩
    by_contra hfull
    simp [hnone, Nat.le_of_not_lt hfull] at hn

/-- The counter consumed is the last one accepted from then on. -/
theorem lastCounter_raiseCounter {o : BitVec 32} {slot n : Nat} {h : Hub} (hn : (lastCounter h o slot).getD 0 ≤ n)
    (hroom : lastCounter h o slot = none → h.mbx.counters.length < 1024) : lastCounter (raiseCounter o slot n h) o slot = some n := by
  cases hx : h.mbx.counters.find? fun e => e.origin == o && e.slot == slot with
  | some e =>
    have hown : (e.origin == o && e.slot == slot) = true :=
      List.find?_some (p := fun e : CtrEntry => e.origin == o && e.slot == slot) hx
    have hany : (h.mbx.counters.any fun e => e.origin == o && e.slot == slot) = true :=
      List.any_eq_true.mpr ⟨e, List.mem_of_find?_eq_some hx, hown⟩
    have hle : e.counter ≤ n := by simpa [lastCounter, hx] using hn
    have hsame : ((fun e : CtrEntry => e.origin == o && e.slot == slot) ∘ fun e : CtrEntry =>
        if e.origin == o && e.slot == slot then { e with counter := max e.counter n } else e) =
          fun e => e.origin == o && e.slot == slot := by
      funext y
      dsimp only [Function.comp]
      split <;> rfl
    rw [raiseCounter, if_pos hany, lastCounter]
    dsimp only
    rw [List.find?_map, hsame, hx, Option.map_some, Option.map_some, if_pos hown, max_eq_right hle]
  | none =>
    have hany : ¬(h.mbx.counters.any fun e => e.origin == o && e.slot == slot) = true := by
      rw [List.any_eq_true, ← List.find?_isSome, hx]
      exact Bool.false_ne_true
    have hlen := hroom (by rw [lastCounter, hx, Option.map_none])
    rw [raiseCounter, if_neg hany, if_neg (by omega), lastCounter, List.find?_append, hx]
    simp

theorem lastCounter_of_counters {g h : Hub} (hc : g.mbx.counters = h.mbx.counters) (o : BitVec 32) (slot : Nat) :
    lastCounter g o slot = lastCounter h o slot := by rw [lastCounter, hc, lastCounter]

/-- What a refusal takes with it leaves the mailboxes as they are. -/
theorem refusedAfter_mbx (code status : Nat) (r : Req) (h : Hub) : (refusedAfter code status r h).mbx = h.mbx := by
  unfold refusedAfter dropStaged
  dsimp only
  repeat' split
  all_goals simp

/-- A refusal at steps 6 and 7 has consumed the counter. -/
theorem lastCounter_refusedAfter {r : Req} {h : Hub} (hc : isCritical r = true) (hn : counterFault r h = none) (code status : Nat) :
    lastCounter (refusedAfter code status r (consumed r h)) r.origin r.keySlot.toNat = some r.counter.toNat := by
  obtain ⟨hlast, hroom⟩ := counterFault_eq_none hn
  rw [lastCounter_of_counters (congrArg _ (refusedAfter_mbx ..)), consumed_of_critical hc]
  exact lastCounter_raiseCounter hlast.le hroom

/-! ## The steps, each with those before it passed (13 R324) -/

section
variable {code : Nat} {cmd : Cmd} {env : Env} {r : Req} {h : Hub}

theorem handle_of_malformed (hf : wellFormed code true r h = false) : handle code (some cmd) env r h = ⟨refuse 0x24, false, h⟩ := by
  simp [handle, hf, rArgument]

section
variable (hf : wellFormed code true r h = true)
include hf

theorem handle_of_wrong_mailbox (hm : mailboxOk code r h = false) : handle code (some cmd) env r h = ⟨refuse 0x25, false, h⟩ := by
  simp [handle, hf, hm, rState]

variable (hm : mailboxOk code r h = true) (hs : standbyRefuses code r h = false)
include hm hs

theorem handle_of_plain_change (hc : isCritical r = false) (hch : changes code = true) :
    handle code (some cmd) env r h = ⟨refuse 0x20, false, authFail code 3 r h⟩ := by
  simp [handle, hf, hm, hs, hc, hch, rAuth]

theorem handle_of_plain_read (hc : isCritical r = false) (hch : changes code = false) :
    handle code (some cmd) env r h = execute code cmd env r h := by
  simp [handle, hf, hm, hs, hc, hch]

variable (hc : isCritical r = true)
include hc

theorem handle_of_unauthentic (ha : authentic code r h = false) :
    handle code (some cmd) env r h = ⟨refuse 0x20, false, authFail code 3 r h⟩ := by
  simp [handle, hf, hm, hs, hc, ha, rAuth]

variable (ha : authentic code r h = true)
include ha

theorem handle_of_no_right (hr : rightsOk code r h = false) :
    handle code (some cmd) env r h = ⟨refuse 0x20, true, authFail code 4 r h⟩ := by
  simp [handle, hf, hm, hs, hc, ha, hr, rAuth]

variable (hr : rightsOk code r h = true) (hj : journalBlocked h = false)
include hr hj

theorem handle_of_replay (hn : r.counter.toNat ≤ (lastCounter h r.origin r.keySlot.toNat).getD 0) :
    handle code (some cmd) env r h = ⟨refuse 0x21, true, h⟩ := by
  simp [handle, hf, hm, hs, hc, ha, hr, hj, counterFault, hn, rReplay]

variable (hn : counterFault r h = none)
include hn

/-- Steps 6 and 7 meet the hub whose counter is consumed. -/
theorem handle_of_counted : handle code (some cmd) env r h =
    if changes code && !lifecycleOk code r h.flash.lifecycle then
      ⟨refuse 0x22, true, refusedAfter code 0x22 r (consumed r h)⟩
    else if eclipseRefuses code h then ⟨refuse 0x25, true, refusedAfter code 0x25 r (consumed r h)⟩
    else execute code cmd env r (consumed r h) := by
  rw [consumed_of_critical hc]
  unfold handle
  simp only [hf, hm, hs, hc, ha, hr, hj, hn, Bool.not_true, Bool.or_false, Bool.false_eq_true, if_false, raiseCounter_flash,
    eclipseRefuses_raiseCounter, rLifecycle, rState]

end
end

/-- An admitted request comes to its own step 7. -/
theorem handle_of_admitted {code : Nat} {r : Req} {s : State} (a : Admitted code r s) (cmd : Cmd) (env : Env) :
    handle code (some cmd) env r (meeting r s) = execute code cmd env r (atStep7 r s) := by
  have hf : wellFormed code true r (meeting r s) = true := a.formed
  have hm : mailboxOk code r (meeting r s) = true := a.mailbox
  have hs : standbyRefuses code r (meeting r s) = false := a.active
  cases hc : isCritical r with
  | false => rw [handle_of_plain_read hf hm hs hc (a.plain hc), atStep7, consumed_of_plain hc]
  | true =>
    obtain ⟨ha, hr, hj, hn, hl⟩ := a.critical hc
    have he : eclipseRefuses code (meeting r s) = false := a.eclipse hc
    have hl' : (changes code && !lifecycleOk code r (meeting r s).flash.lifecycle) = false := by
      cases hch : changes code with
      | false => rfl
      | true => simp [meeting, hl hch]
    rw [handle_of_counted hf hm hs hc ha hr hj hn, hl', he]
    rfl

/-- Settles O11: step 7's own refusal, then the steps in order, each with those before it passed. -/
theorem refusalsInOrder : Obligations.RefusalsInOrder := by
  refine ⟨fun i s code cmd env r p hrow a hcmd hreset => ?own, fun i s code cmd env r hrow hserved hruns hreq hown => ?steps⟩
  case own =>
    have hh : handle code (some cmd) env r (meeting r s) = ⟨p, isCritical r, refusedAfter code p.status r (atStep7 r s)⟩ := by
      rw [handle_of_admitted a, execute, hcmd]
    exact exec_of_handled hrow a.processed hh hreset
  case steps =>
    intro h goesOut
    have hout {tagged : Bool} {p : Reply} {g : Hub} (hh : handle code (some cmd) env r h = ⟨p, tagged, g⟩) (hr : p.reset = none) :
        goesOut tagged p g := exec_of_handled hrow ⟨hserved, hruns, hreq, hown⟩ hh hr
    refine ⟨fun hf => ?malformed, fun hf hm => ?mailbox, fun hf hm hs => ⟨fun hc hch => ?plain, fun hc ha => ?unauthentic, fun hc ha =>
      ⟨fun hr => ?noRight, fun hr hj => ⟨fun hn => ?replay, fun hn hch hl => ?lifeCycle, fun hn hl he => ?eclipse⟩⟩⟩⟩
    case malformed => exact hout (handle_of_malformed hf) rfl
    case mailbox => exact hout (handle_of_wrong_mailbox hf hm) rfl
    case plain => exact hout (handle_of_plain_change hf hm hs hc hch) rfl
    case unauthentic => exact hout (handle_of_unauthentic hf hm hs hc ha) rfl
    case noRight => exact hout (handle_of_no_right hf hm hs hc ha hr) rfl
    case replay => exact hout (handle_of_replay hf hm hs hc ha hr hj hn) rfl
    case lifeCycle =>
      have hrefused : (changes code && !lifecycleOk code r h.flash.lifecycle) = true := by simp [hch, hl]
      exact ⟨_, hout ((handle_of_counted hf hm hs hc ha hr hj hn).trans (if_pos hrefused)) rfl, lastCounter_refusedAfter hc hn code _⟩
    case eclipse =>
      have hpassed : ¬(changes code && !lifecycleOk code r h.flash.lifecycle) = true := by
        cases hch : changes code with
        | false => simp
        | true => simp [hl hch]
      have hhandled := (handle_of_counted (cmd := cmd) (env := env) hf hm hs hc ha hr hj hn).trans ((if_neg hpassed).trans (if_pos he))
      exact ⟨_, hout hhandled rfl, lastCounter_refusedAfter hc hn code _⟩

/-- Settles O12: the row runs its command, and an admitted one whose step 7 passes is carried out, PENDING or done. -/
theorem acceptedCommandIsCarriedOut : Obligations.AcceptedCommandIsCarriedOut := by
  intro i s code cmd env r p h hrow a hcmd hroom
  rw [exec_of_commandRow hrow]
  by_cases hp : p.status = rPending
  · exact runCommand_pending a hcmd (hroom hp)
  · exact runCommand_done a hcmd hp

end Sys2Proof.Machine
end

