-- ==== Sys2Proof/Proofs/CommandChecks.lean ====
section
/-! PROOFS. The commands of chapter 14 at their own step 7: checks that pass, the fields of an answer, and what an accepted or held change
leaves (13 R324, R333, 14 R340 to R344). -/

namespace Sys2Proof.Machine

/-! ## A command whose own checks pass -/

/-- A check that passes hands its value to what follows. -/
theorem ok_bind {α β : Type} {x : Except Reply α} {v : α} {f : α → Except Reply β} {y : Except Reply β} (hx : x = .ok v) (hf : f v = y) :
    (x >>= f) = y := by
  subst hx
  exact hf

theorem needLen_ok {c : Ctx} {n : Nat} (h : c.req.payload.length = n) : needLen c n = .ok () := if_pos h

theorem needLen_nil {c : Ctx} (h : c.req.payload = []) : needLen c 0 = .ok () := needLen_ok (List.length_eq_zero_iff.mpr h)

theorem needArg_ok {off : Nat} {b : Bool} (h : b = true) : needArg off b = .ok () := if_pos h

theorem needZero_ok {c : Ctx} {off n : Nat} (h : allZero ((c.req.payload.drop off).take n) = true) : needZero c off n = .ok () := if_pos h

theorem needState_ok {b : Bool} (h : b = true) : needState b = .ok () := if_pos h

theorem needStateAt_ok {off : Nat} {b : Bool} (h : b = true) : needStateAt off b = .ok () := if_pos h

theorem needRoom_ok {b : Bool} (h : b = true) : needRoom b = .ok () := if_pos h

theorem needBudget_ok {f : Option Failure} (h : f = none) : needBudget f = .ok () := by
  subst h
  rfl

theorem needRel_ok {f : Option RelFault} (h : f = none) (chans : Option Bool) (hd : Head) : needRel chans hd f = .ok () := by
  subst h
  rfl

theorem needTick_ok {h : Hub} {named lead t : Nat} (ht : effectTick h named lead = some t) (off : Nat) : needTick h off named lead = .ok t := by
  rw [needTick, ht]

theorem checkAll_ok {α : Type} {f : Nat → α → Chk} {l : List α} {k : Nat} (h : ∀ i x, l[i]? = some x → f (k + i) x = .ok ()) :
    checkAll f k l = .ok () := by
  induction l generalizing k with
  | nil => rfl
  | cons x l ih =>
    refine ok_bind (h 0 x rfl) (ih fun i y hy => ?_)
    rw [Nat.add_right_comm]
    exact h (i + 1) y hy

theorem checkAll_entries {α : Type} {f : Nat → α → Chk} {l : List α} (h : ∀ i x, l[i]? = some x → f i x = .ok ()) : checkAll f 0 l = .ok () :=
  checkAll_ok fun i x hx => by rw [Nat.zero_add]; exact h i x hx

theorem needEntry_ok {off entry : Nat} {b : Bool} (h : b = true) : needEntry off entry b = .ok () := if_pos h

/-- An admitted command that is answered at once. -/
theorem exec_of_answered {i : Instr} {code : Nat} {cmd : Cmd} {env : Env} {r : Req} {s : State} {p : Reply} {h : Hub}
    (hrow : commandRow i = some (code, cmd, env, r)) (a : Admitted code r s)
    (hcmd : cmd { code := code, req := r, env := env } (atStep7 r s) = .ok (p, h)) (hp : (p.status == rPending) = false := by rfl) :
    exec i s = .next (answered code r s p h) :=
  acceptedCommandIsCarriedOut i s code cmd env r p h hrow a hcmd fun e => absurd e (by simpa using hp)

/-- An admitted command that is answered with PENDING. -/
theorem exec_of_pending {i : Instr} {code : Nat} {cmd : Cmd} {env : Env} {r : Req} {s : State} {p : Reply} {h : Hub}
    (hrow : commandRow i = some (code, cmd, env, r)) (a : Admitted code r s)
    (hcmd : cmd { code := code, req := r, env := env } (atStep7 r s) = .ok (p, h)) (hroom : pendingRoom r s) :
    exec i s = .next (answered code r s p h) :=
  acceptedCommandIsCarriedOut i s code cmd env r p h hrow a hcmd fun _ => hroom


/-! ## Tables changed entry by entry -/

theorem length_foldl_updAt {α : Type} (f : Nat → α → α) (ks : List Nat) (l : List α) :
    (ks.foldl (fun l k => updAt l k (f k)) l).length = l.length := by
  induction ks generalizing l with
  | nil => rfl
  | cons k ks ih => exact (ih _).trans (List.length_modify ..)

/-- Different entries changed each by its own function. -/
theorem getElem?_foldl_updAt {α : Type} (f : Nat → α → α) {ks : List Nat} (hn : ks.Nodup) (l : List α) (i : Nat) :
    (ks.foldl (fun l k => updAt l k (f k)) l)[i]? = if i ∈ ks then l[i]?.map (f i) else l[i]? := by
  induction ks generalizing l with
  | nil => rfl
  | cons k ks ih =>
    obtain ⟨hnew, hks⟩ := List.nodup_cons.mp hn
    rw [List.foldl_cons, ih hks, updAt, List.getElem?_modify]
    by_cases hik : i = k
    · subst hik
      simp [hnew]
    · simp [hik, Ne.symm hik]

/-! ## Fields of an answer -/

/-- A number laid down among others reads back, cut to its width, where those before it end. -/
theorem fieldAt_parts {ps : List (Nat × Nat)} {k off n v : Nat} (hk : ps[k]? = some (n, v)) (hoff : ((ps.take k).map (·.1)).sum = off)
    (c : Bytes) : fieldAt (partsBytes ps ++ c) off n = v % 2 ^ (8 * n) := by
  obtain ⟨hlt, hget⟩ := List.getElem?_eq_some_iff.mp hk
  have hps : ps = ps.take k ++ (n, v) :: ps.drop (k + 1) := by rw [← hget, List.getElem_cons_drop, List.take_append_drop]
  have hbytes : partsBytes ps = partsBytes (ps.take k) ++ (leNat n v ++ partsBytes (ps.drop (k + 1))) := by
    conv_lhs => rw [hps]
    simp only [partsBytes, List.flatMap_append, List.flatMap_cons]
  rw [hbytes, ← List.append_assoc, List.append_assoc, fieldAt_behind ((partsBytes_length _).trans hoff) (leNat_length ..), ofLe_leNat]

theorem partsBytes_cons (n v : Nat) (ps : List (Nat × Nat)) : partsBytes ((n, v) :: ps) = leNat n v ++ partsBytes ps := rfl

theorem partsBytes_nil : partsBytes [] = [] := rfl

theorem zeros_eq (n : Nat) : zeros n = leNat n 0 := by
  induction n with
  | zero => rfl
  | succ n ih => simpa [zeros, List.replicate_succ, leNat] using ih

theorem partsBytes_append (ps qs : List (Nat × Nat)) : partsBytes (ps ++ qs) = partsBytes ps ++ partsBytes qs := List.flatMap_append

/-- The low `n` bytes of a whole number in two's complement. -/
def lowBytes (n : Nat) (v : Int) : Nat := (v % (2 ^ (8 * n) : Nat)).toNat

theorem leInt_eq (n : Nat) (v : Int) : leInt n v = leNat n (lowBytes n v) := rfl

/-! ## Changes that the configuration store does not take (14 R344) -/

/-- An item that no configuration holds. -/
def leavesCfg (i : Item) : Prop := ∀ c, cfgItem i c = c

theorem foldl_cfgItem_of_leavesCfg {items : List Item} (hi : ∀ i ∈ items, leavesCfg i) (c : Cfg) :
    items.foldl (fun c i => cfgItem i c) c = c := by
  induction items generalizing c with
  | nil => rfl
  | cons i items ih => rw [List.foldl_cons, hi i List.mem_cons_self, ih fun j hj => hi j (List.mem_cons_of_mem _ hj)]

/-- They wait for their tick, and the store stays. -/
theorem acceptItems_of_leavesCfg {items : List Item} (hi : ∀ i ∈ items, leavesCfg i) (tick : Nat) (h : Hub) :
    acceptItems tick items h = { h with changes := h.changes ++ items.map fun i => ⟨tick, i⟩ } := by
  have hstore : (storedItems tick items h).foldl (fun c i => cfgItem i c) h.flash.store = h.flash.store :=
    foldl_cfgItem_of_leavesCfg (fun i hm => hi i (List.mem_of_mem_filter hm)) _
  unfold acceptItems
  rw [hstore]
  rfl

theorem acceptItems_map_of_leavesCfg {α : Type} {f : α → Item} (hf : ∀ x, leavesCfg (f x)) (xs : List α) (tick : Nat) (h : Hub) :
    acceptItems tick (xs.map f) h = { h with changes := h.changes ++ xs.map fun x => ⟨tick, f x⟩ } := by
  rw [acceptItems_of_leavesCfg (List.forall_mem_map.mpr fun x _ => hf x), List.map_map]
  rfl

theorem acceptItems_one_of_leavesCfg {i : Item} (hi : leavesCfg i) (tick : Nat) (h : Hub) :
    acceptItems tick [i] h = { h with changes := h.changes ++ [⟨tick, i⟩] } :=
  acceptItems_of_leavesCfg (fun _ hj => List.mem_singleton.mp hj ▸ hi) tick h

/-! ## Accepted and held changes (13 R333, 14 R340, R343, R344) -/

theorem accepted_status (h : Hub) (t : Nat) (rest args : Bytes) : ((accepted h t rest args).status == rPending) = false := by
  unfold accepted
  split <;> rfl

theorem takeItems_eq_changed (tick : Nat) (items : List Item) (h : Hub) : takeItems tick items h = changed tick items h := by
  by_cases hp : h.flash.lifecycle = .provisioned
  · rw [takeItems, if_pos (show stored h = true from beq_iff_eq.mpr hp), changed, if_pos hp]
  · rw [takeItems, if_neg (show ¬stored h = true from fun e => hp (beq_iff_eq.mp e)), changed, if_neg hp]
    rfl

theorem stage_of_room {origin : BitVec 32} {h : Hub} (hr : stageRoom origin h) (code : Nat) (items : List Item) :
    stage origin code items h = .ok (holding origin code items h) := by
  have hroom : ((h.staged.map (·.origin)).eraseDups.contains origin || decide ((h.staged.map (·.origin)).eraseDups.length < 4)) = true := by
    rcases hr with hm | hl
    · rw [List.contains_iff_mem.mpr (List.mem_eraseDups.mpr hm), Bool.true_or]
    · rw [decide_eq_true hl, Bool.or_true]
  exact if_pos hroom

section
variable {code : Nat} {r : Req} {hd : Head} {tick : Nat} {own items : List Item} {h : Hub}

theorem commitItems_ok (hrel : relFaultFrom (schedule tick items (checkBase h)) tick = none)
    (hbudget : budgetFault (schedule tick items (checkBase h)) tick = none) (chans : Option Bool) (hd : Head) :
    commitItems chans hd tick items h = .ok (changed tick items h) := by
  simp only [commitItems, hrel, hbudget, takeItems_eq_changed]
  rfl

theorem stageOrCommit_held (hs : hd.stage = true) (hr : stageRoom r.origin h) (chans : Option Bool) (args : Bytes)
    (rest : List Item → Bytes) :
    stageOrCommit chans { code := code, req := r } hd tick own args rest h = .ok (stagedReply args, holding r.origin code own h) :=
  (if_pos hs).trans (ok_bind (stage_of_room hr ..) rfl)

theorem stageOrCommit_committed (hs : hd.stage = false) (hall : items = addItems (stagedItems h r.origin code) own)
    (hrel : relFaultFrom (schedule tick items (checkBase (dropStaged r.origin code h))) tick = none)
    (hbudget : budgetFault (schedule tick items (checkBase (dropStaged r.origin code h))) tick = none)
    (chans : Option Bool) (args : Bytes) (rest : List Item → Bytes) :
    stageOrCommit chans { code := code, req := r } hd tick own args rest h =
      .ok (accepted h tick (rest items) args, changed tick items (dropStaged r.origin code h)) := by
  subst hall
  exact (if_neg (by simp [hs])).trans (ok_bind (commitItems_ok hrel hbudget ..) rfl)

theorem simpleCommit_held (hs : hd.stage = true) (hr : stageRoom r.origin h) (args : Bytes) :
    simpleCommit { code := code, req := r } hd tick own args h = .ok (stagedReply args, holding r.origin code own h) :=
  (if_pos hs).trans (ok_bind (stage_of_room hr ..) rfl)

theorem simpleCommit_committed (hs : hd.stage = false) (args : Bytes) :
    simpleCommit { code := code, req := r } hd tick own args h =
      .ok (accepted h tick [] args, changed tick (addItems (stagedItems h r.origin code) own) (dropStaged r.origin code h)) :=
  (if_neg (by simp [hs])).trans (by rw [takeItems_eq_changed]; rfl)

end

end Sys2Proof.Machine
end

