-- ==== Sys2Proof/Proofs/ChannelCommands.lean ====
section
/-! PROOFS. The commands of groups 0x00 to 0x02: information, channels, excitation and time (14 R347 to R352). -/

namespace Sys2Proof.Machine

/-! ## READ_IDENTITY (14 R348) -/

/-- The fields of R348 before the generations of the keys and the label. -/
def identityParts (h : Hub) : List (Nat × Nat) :=
  [(4, 0x4B5A0512), (4, revision h), (4, h.flash.hubId.toNat), (1, lifeCode h.flash.lifecycle), (1, h.flash.running), (1, h.flash.bootChoice),
   (1, b2n h.power.sideB), (8, (Config.serial 0).toNat), (8, opSeconds h), (4, h.flash.powerCycles), (4, h.flash.seqBlock),
   (2, h.time.epoch), (2, 0), (4, imageVersion h.flash.imageA), (4, imageVersion h.flash.imageB), (4, h.flash.minSec), (1, h.flash.revoked),
   (1, ofBits (h.flash.keys.map (·.key.isSome))), (2, 0), (6, (Config.mac 0).toNat), (2, 0), (4, h.flash.bringUps)]

theorem identityBytes_eq (h : Hub) :
    identityBytes h = partsBytes (identityParts h) ++ (h.flash.keys.flatMap (fun k => leNat 4 k.gen.toNat) ++ h.flash.store.label) := by
  unfold identityBytes identityParts
  simp only [partsBytes_cons, partsBytes_nil, zeros_eq, List.append_assoc, List.nil_append]

theorem identityParts_length (h : Hub) : (partsBytes (identityParts h)).length = 72 := by
  rw [partsBytes_length]
  simp [identityParts]

theorem generations_length (ks : List KeySlot) : (ks.flatMap fun k => leNat 4 k.gen.toNat).length = 4 * ks.length := by
  simp [List.length_flatMap, Nat.mul_comm]

theorem lifeCode_lt (l : LifeCycle) : lifeCode l < 256 := by cases l <;> decide

/-! ## READ_CHANNEL (14 R350) -/

/-- The fields of an entry of READ_CHANNEL. -/
def chanParts (h : Hub) (c : Nat) : List (Nat × Nat) :=
  let ch := chanAt h c
  let v := h.view.chans.getD c {}
  [(8, chDesc h c), (1, pairCode ch.pair), (1, chanState h c), (1, v.rangeNow), (1, 0), (4, chanDelay h c), (4, v.settleLeft),
   (4, v.arSwitches), (2, ch.fe.getD 0xFFFF), (6, 0)]

theorem chanEntry_eq (h : Hub) (c : Nat) : chanEntry h c = partsBytes (chanParts h c) ++ [] := by
  unfold chanEntry chanParts
  simp only [partsBytes_cons, partsBytes_nil, zeros_eq, List.append_assoc, List.append_nil]

theorem pairCode_lt (p : PairConn) : pairCode p < 256 := by cases p <;> decide

/-- Settles O13, command by command: the checks that pass, then the fields of the answer. -/
theorem informationAndChannelCommands : Obligations.InformationAndChannelCommands := by
  refine ⟨fun r s => ⟨?label, ?identity, ?ledger⟩, fun r s t => ⟨?remap, ?revive, ?channel⟩⟩
  case label =>
    exact fun a hl => exec_of_answered rfl a <| ok_bind (needLen_ok hl) rfl
  case identity =>
    intro a hl hkeys hlabel
    have hexec := exec_of_answered (i := .readIdentity r) rfl a <| ok_bind (needLen_nil hl) rfl
    have hfield {k off n v : Nat} (hk : (identityParts (atStep7 r s))[k]? = some (n, v))
        (hoff : (((identityParts (atStep7 r s)).take k).map (·.1)).sum = off) :
        fieldAt (identityBytes (atStep7 r s)) off n = v % 2 ^ (8 * n) := by
      rw [identityBytes_eq]
      exact fieldAt_parts hk hoff _
    have hfront : (partsBytes (identityParts (atStep7 r s)) ++ (atStep7 r s).flash.keys.flatMap fun k => leNat 4 k.gen.toNat).length = 104 := by
      rw [List.length_append, generations_length, hkeys, identityParts_length]
    refine ⟨_, hexec, ?_, hfield (k := 0) rfl rfl, (hfield (k := 2) rfl rfl).trans (Nat.mod_eq_of_lt (BitVec.isLt _)),
      (hfield (k := 3) rfl rfl).trans (Nat.mod_eq_of_lt (lifeCode_lt _)), hfield (k := 9) rfl (by simp [identityParts]),
      hfield (k := 11) rfl (by simp [identityParts]), hfield (k := 21) rfl (by simp [identityParts]), ?_⟩
    · rw [identityBytes_eq, ← List.append_assoc, List.length_append, hfront, hlabel]
    · rw [identityBytes_eq, ← List.append_assoc, ← hfront, List.drop_left]
  case ledger =>
    intro a hl h1 h100
    exact exec_of_answered rfl a <| ok_bind (needLen_ok hl) <| ok_bind (needArg_ok (by simp [pf, h1, h100])) rfl
  case remap =>
    intro a hl hch hact hz ht hok
    exact exec_of_answered rfl a <| ok_bind (needLen_ok hl) <| ok_bind (needArg_ok (decide_eq_true hch)) <|
      ok_bind (needArg_ok (decide_eq_true hact)) <| ok_bind (needZero_ok hz) <| ok_bind (needTick_ok ht _) <| ok_bind (needState_ok hok) (congrArg (fun g => Except.ok (_, g)) (acceptItems_one_of_leavesCfg (fun _ => rfl) ..))
  case revive =>
    intro grp mask chs a hl hgrp hmask hz ht hret cfg n
    exact exec_of_answered rfl a <| ok_bind (needLen_ok hl) <| ok_bind (needArg_ok (decide_eq_true hgrp)) <|
      ok_bind (needArg_ok (decide_eq_true hmask)) <| ok_bind (needZero_ok hz) <| ok_bind (needTick_ok ht _) <|
      ok_bind (needStateAt_ok (List.all_eq_true.mpr hret)) (congrArg (fun g => Except.ok (_, g)) (acceptItems_map_of_leavesCfg (fun _ _ => rfl) ..))
  case channel =>
    intro a hl h1 h64 chs
    refine ⟨exec_of_answered rfl a <| ok_bind (needLen_ok hl) <| ok_bind (needArg_ok (by simp [pf, h1, h64])) rfl, fun c _ => ?_⟩
    rw [chanEntry_eq]
    refine ⟨?_, (fieldAt_parts (k := 0) rfl rfl _).trans (Nat.mod_eq_of_lt (BitVec.isLt _)),
      (fieldAt_parts (k := 1) rfl rfl _).trans (Nat.mod_eq_of_lt (pairCode_lt _))⟩
    rw [List.append_nil, partsBytes_length]
    rfl

/-! ## CFG_CHANNEL and CFG_EXCITATION (14 R349) -/

/-- Settles O14: the entries pass, then they are held or committed. -/
theorem channelConfigurationCommands : Obligations.ChannelConfigurationCommands := by
  intro r s hd t g
  refine ⟨?channel, ?excitation⟩
  case channel =>
    intro a hread harg ht hentries own
    have hpasses {x : Reply × Hub} (hx : stageOrCommit (some true) { code := 0x0100, req := r } hd t own (argsList hd)
        (chanReply (planAt (checkBase g) t)) g = .ok x) : cmdCfgChannel { code := 0x0100, req := r } g = .ok x :=
      ok_bind hread <| ok_bind (needArg_ok (decide_eq_true harg)) <| ok_bind (needTick_ok ht _) <| ok_bind hentries hx
    constructor
    · intro hs hroom
      exact exec_of_answered rfl a (hpasses (stageOrCommit_held hs hroom ..))
    · intro hs all g' hrel hbudget
      exact exec_of_answered rfl a (hpasses (stageOrCommit_committed hs rfl hrel hbudget ..)) (accepted_status ..)
  case excitation =>
    intro a hread harg lo hi hle ht hentries own args
    have hpasses {x : Reply × Hub} (hx : stageOrCommit (some false) { code := 0x0101, req := r } hd t own args
        (excReply g (planAt (checkBase g) t)) g = .ok x) : cmdCfgExcitation { code := 0x0101, req := r } g = .ok x :=
      ok_bind hread <| ok_bind (needArg_ok (decide_eq_true harg)) <| ok_bind (needArg_ok (decide_eq_true hle)) <|
        ok_bind (needTick_ok ht _) <| ok_bind hentries hx
    constructor
    · intro hs hroom
      exact exec_of_answered rfl a (hpasses (stageOrCommit_held hs hroom ..))
    · intro hs all g' hrel hbudget
      exact exec_of_answered rfl a (hpasses (stageOrCommit_committed hs rfl hrel hbudget ..)) (accepted_status ..)

/-! ## READ_TIME (14 R352) -/

/-- The fields of a stamp (10 R231). -/
def stampParts (s : Stamp) : List (Nat × Nat) :=
  [(2, s.epoch), (6, (s.inst / secUnits).toNat), (4, (s.inst % secUnits).toNat / 65536), (2, (s.inst % secUnits).toNat % 65536), (2, s.quality)]

theorem stampBytes_eq (s : Stamp) : stampBytes s = partsBytes (stampParts s) := by
  unfold stampBytes stampParts
  simp only [partsBytes_cons, partsBytes_nil, List.append_assoc, List.append_nil]

/-- The fields of R352 after the stamp and before the lanes. -/
def clockParts (h : Hub) : List (Nat × Nat) :=
  [(8, lowBytes 8 h.view.theta), (8, lowBytes 8 h.view.freq), (1, servoCode h.time.servo), (1, h.time.source), (2, lowBytes 2 h.time.utc),
   (2, h.view.outliers), (2, 0), (8, (h.time.step.map fun x => toStream h x.1).getD 0), (8, 0)]

theorem timeBytes_eq (h : Hub) :
    timeBytes h = leNat 8 (streamTick h) ++ (stampBytes (tickStamp h) ++ (partsBytes (clockParts h) ++ h.view.laneMeas.flatMap laneMeasBytes)) := by
  unfold timeBytes clockParts
  simp only [partsBytes_cons, partsBytes_nil, zeros_eq, leInt_eq, List.append_assoc, List.nil_append]
  cases h.time.step <;> rfl

theorem timeBytes_parts (h : Hub) : timeBytes h =
    partsBytes ((8, streamTick h) :: stampParts (tickStamp h) ++ clockParts h) ++ h.view.laneMeas.flatMap laneMeasBytes := by
  rw [timeBytes_eq, partsBytes_append, partsBytes_cons, stampBytes_eq]
  simp only [List.append_assoc]

theorem laneMeasBytes_length (m : LaneMeas) : (laneMeasBytes m).length = 16 := by simp [laneMeasBytes, leInt_eq, zeros_eq]

theorem timeBytes_length {h : Hub} (h6 : h.view.laneMeas.length = 6) : (timeBytes h).length = 160 := by
  rw [timeBytes_parts, List.length_append, partsBytes_length, List.length_flatMap]
  simp [stampParts, clockParts, laneMeasBytes_length, h6]

theorem servoCode_lt (x : Servo) : servoCode x < 256 := by cases x <;> decide

/-- Settles O16: the checks of each command pass, and the fields of READ_TIME stand at their offsets. -/
theorem timeCommands : Obligations.TimeCommands := by
  intro r s hd t g
  refine ⟨?cfgTime, ?timeStep, ?readTime⟩
  case cfgTime =>
    intro a hread h74 h63 h23 ht hptp hlane
    have hstate : (!(tbSource (BitVec.ofNat 64 hd.arg) == 4 && !laneUEth (checkBase g).cfg) &&
        !(tbSource (BitVec.ofNat 64 hd.arg) == 3 && laneUEth (checkBase g).cfg)) = true := by
      by_cases h4 : tbSource (BitVec.ofNat 64 hd.arg) = 4
      · simp [h4, hptp h4]
      · by_cases h3 : tbSource (BitVec.ofNat 64 hd.arg) = 3
        · simp [h3, hlane h3]
        · simp [h3, h4]
    rw [← takeItems_eq_changed]
    exact exec_of_answered rfl a (ok_bind hread <| ok_bind (needArg_ok (decide_eq_true h74)) <| ok_bind (needArg_ok (decide_eq_true h63)) <|
      ok_bind (needArg_ok (decide_eq_true h23)) <| ok_bind (needTick_ok ht _) <| ok_bind (needState_ok hstate) rfl) (accepted_status ..)
  case timeStep =>
    intro d a hl hns hz ht hhold hnone hd0 hreading hwhole
    have hsource : (!((laneSource g.time.source || g.time.source == 4) && g.time.servo != .holdover)) = true := by
      by_cases hsrc : laneSource g.time.source = true ∨ g.time.source = 4
      · simp [hhold hsrc]
      · obtain ⟨hlane, h4⟩ := not_or.mp hsrc
        simp [hlane, h4]
    have hseconds : (!((g.time.source == 5 || g.time.source == 6) && d % secUnits ≠ 0)) = true := by
      by_cases hsrc : g.time.source = 5 ∨ g.time.source = 6
      · simp [hwhole hsrc]
      · obtain ⟨h5, h6⟩ := not_or.mp hsrc
        simp [h5, h6]
    exact exec_of_answered rfl a <| ok_bind (needLen_ok hl) <| ok_bind (needArg_ok (decide_eq_true hns)) <| ok_bind (needZero_ok hz) <|
      ok_bind (needTick_ok ht _) <| ok_bind (needState_ok hsource) <| ok_bind (needState_ok (Option.isNone_iff_eq_none.mpr hnone)) <|
      ok_bind (needArg_ok (decide_eq_true hd0)) <| ok_bind (needArg_ok (decide_eq_true hreading)) <| ok_bind (needArg_ok hseconds) rfl
  case readTime =>
    intro a hl h6
    refine ⟨_, exec_of_answered rfl a <| ok_bind (needLen_nil hl) rfl, timeBytes_length h6, ?_, ?_, ?_, ?_⟩
    · rw [timeBytes_parts]
      exact fieldAt_parts (k := 0) rfl rfl _
    · rw [timeBytes_eq, List.drop_left' (leNat_length ..), List.take_left' (by rw [stampBytes_eq, partsBytes_length]; rfl)]
    · rw [timeBytes_parts]
      exact (fieldAt_parts (k := 8) rfl (by simp [stampParts, clockParts]) _).trans (Nat.mod_eq_of_lt (servoCode_lt _))
    · rw [timeBytes_parts]
      exact fieldAt_parts (k := 9) rfl (by simp [stampParts, clockParts]) _

end Sys2Proof.Machine
end

