-- ==== Sys2Proof/Proofs/CalibrationCommands.lean ====
section
/-! PROOFS. The commands of group 0x03: calibration and housekeeping (14 R353, R354, 05 R101 to R116). -/

namespace Sys2Proof.Machine

/-! ## CAL_SELF (05 R102) -/

theorem feAt_updFe_ne {i k : Nat} (hk : k ≠ i) (f : Fe → Fe) (h : Hub) : feAt (updFe i f h) k = feAt h k := by
  simp [feAt, updFe, updAt, Ne.symm hk]

/-- Front ends made due one by one: what each is due in depends on none of them. -/
theorem foldl_makeDue (g : Hub) (fes : List Nat) (x : List Fe) :
    fes.foldl (fun h fe => updFe fe (makeDue h fe) h) { g with fes := x } =
      { g with fes := fes.foldl (fun l fe => updAt l fe (makeDue g fe)) x } := by
  induction fes generalizing x with
  | nil => rfl
  | cons fe fes ih => exact ih (updAt x fe (makeDue g fe))

/-- The hub once the named front ends are due. -/
def madeDue (fes : List Nat) (h : Hub) : Hub := { h with fes := fes.foldl (fun l fe => updAt l fe (makeDue h fe)) h.fes }

theorem feAt_madeDue {fes : List Nat} (hn : fes.Nodup) (h : Hub) (fe : Nat) :
    feAt (madeDue fes h) fe = if fe ∈ fes ∧ fe < h.fes.length then makeDue h fe (feAt h fe) else feAt h fe := by
  have hget : (madeDue fes h).fes[fe]? = _ := getElem?_foldl_updAt (makeDue h) hn h.fes fe
  rw [feAt, List.getD_eq_getElem?_getD, hget, feAt, List.getD_eq_getElem?_getD]
  by_cases hm : fe ∈ fes
  · by_cases hl : fe < h.fes.length
    · simp [hm, hl]
    · simp [hm, hl]
  · simp [hm]

theorem mem_due_makeDue {h : Hub} {fe : Nat} {u : Nat × List Nat} (hu : u ∈ feUses h fe) {range : Nat} (hr : range ∈ u.2) (f : Fe) :
    (u.1, range, 3) ∈ (makeDue h fe f).due :=
  List.mem_append_left _ (List.mem_flatMap.mpr ⟨u, hu, List.mem_map.mpr ⟨range, hr, rfl⟩⟩)

theorem mem_rangeFrom {a n i : Nat} : i ∈ rangeFrom a n ↔ a ≤ i ∧ i < a + n := by
  constructor
  · intro hi
    obtain ⟨k, hk, rfl⟩ := List.mem_map.mp hi
    have := List.mem_range.mp hk
    omega
  · intro hi
    exact List.mem_map.mpr ⟨i - a, List.mem_range.mpr (by omega), by omega⟩

/-! ## Reads (05 R101, R114) -/

theorem qualityBytes_length (fe : Nat) (q : Quality) : (qualityBytes fe q).length = 16 := by simp [qualityBytes, leInt_eq]

/-- The entries taken stay whole and at most 255. -/
theorem takeQuality_bounded (h : Hub) (fes : List Nat) {acc : List Bytes} (hl : acc.length ≤ 255) (hw : ∀ e ∈ acc, e.length = 16) :
    (takeQuality h fes acc).1.length ≤ 255 ∧ ∀ e ∈ (takeQuality h fes acc).1, e.length = 16 := by
  induction fes generalizing acc with
  | nil => exact ⟨hl, hw⟩
  | cons fe fes ih =>
    rw [takeQuality]
    split
    next => exact ⟨hl, hw⟩
    next hmore =>
      refine ih (Nat.le_of_not_lt hmore) fun e he => ?_
      rcases List.mem_append.mp he with hold | hnew
      · exact hw e hold
      · obtain ⟨q, _, rfl⟩ := List.mem_map.mp hnew
        exact qualityBytes_length fe q

theorem nodup_eraseDups : ∀ l : List Nat, l.eraseDups.Nodup
  | [] => by simp
  | x :: l => by
    rw [List.eraseDups_cons, List.nodup_cons, List.mem_eraseDups]
    exact ⟨by simp, nodup_eraseDups _⟩
termination_by l => l.length
decreasing_by exact Nat.lt_succ_of_le (List.length_filter_le ..)

/-- Settles O17, command by command. -/
theorem calibrationAndHousekeepingCommands : Obligations.CalibrationAndHousekeepingCommands := by
  refine ⟨fun r s hd t => ⟨?calibration, ?self, ?system⟩, fun r s hd t => ⟨?housekeeping, ?quality, ?codes⟩⟩
  case calibration =>
    intro a hread hblock ht
    rw [← takeItems_eq_changed]
    exact exec_of_answered rfl a (ok_bind hread <| ok_bind (needArg_ok hblock) <| ok_bind (needTick_ok ht _) rfl) (accepted_status ..)
  case self =>
    intro kind first count a hl hk hz hrange
    have hlimit : first + count ≤ if kind = 0 then 512 else 576 := hrange
    let g := atStep7 r s
    let fes := ((rangeFrom first count).map fun i => if kind = 0 then (chanAt g i).fe.getD (homeFe g i) else i).eraseDups
    have hn : fes.Nodup := nodup_eraseDups _
    refine ⟨fes, madeDue fes g, hn, fun fe => ?_, ?_, rfl, length_foldl_updAt .., fun fe hm hlt u hu range hr => ?_, feAt_madeDue hn g⟩
    · simp only [fes, List.mem_eraseDups, List.mem_map, mem_rangeFrom]
      exact ⟨fun ⟨i, ⟨hlo, hhi⟩, hi⟩ => ⟨i, hlo, hhi, hi.symm⟩, fun ⟨i, hlo, hhi, hi⟩ => ⟨i, ⟨hlo, hhi⟩, hi.symm⟩⟩
    · exact exec_of_answered rfl a <| ok_bind (needLen_ok hl) <| ok_bind (needArg_ok (decide_eq_true hk)) <| ok_bind (needZero_ok hz) <|
        ok_bind (needArg_ok (decide_eq_true hlimit)) (congrArg (fun x => Except.ok (_, x)) (foldl_makeDue g fes g.fes))
    · rw [feAt_madeDue hn, if_pos ⟨hm, hlt⟩]
      exact mem_due_makeDue hu hr _
  case system =>
    intro ch step n a hl hch hstep hz hlo hhi heven hz2 ht hspan hfree hopen hroom
    have hn : (decide (16 ≤ n) && decide (n ≤ 16777216) && decide (n % 2 = 0)) = true := by simp [hlo, hhi, heven]
    have hstands : (decide (step ≠ 1) || zeroStands (atStep7 r s) ch) = true := by
      by_cases h1 : step = 1
      · simp [h1, hspan h1]
      · simp [h1]
    have hwindow : ((chanAt (atStep7 r s) ch).calWin.isNone && decide (openWindows (atStep7 r s) < 16)) = true := by simp [hfree, hopen]
    exact exec_of_pending rfl a (ok_bind (needLen_ok hl) <| ok_bind (needArg_ok (decide_eq_true hch)) <|
      ok_bind (needArg_ok (decide_eq_true hstep)) <| ok_bind (needZero_ok hz) <| ok_bind (needArg_ok hn) <| ok_bind (needZero_ok hz2) <|
      ok_bind (needTick_ok ht _) <| ok_bind (needState_ok hstands) <| ok_bind (needRoom_ok hwindow) rfl) hroom
  case housekeeping =>
    intro a hread ht hfirst harg ws seq hentries hseq waits
    have hchecks := checkAll_entries (f := fun i w => needEntry (24 + 4 * i) i (hkEntryOk w)) (l := ws)
      fun i w hw => needEntry_ok (hentries w (List.mem_of_getElem? hw))
    have hpasses {x : Reply × Hub} (hx : (let e := if stored (atStep7 r s) then 0 else (atStep7 r s).hk.pass + 1
        let h' := if stored (atStep7 r s) then atStep7 r s else { atStep7 r s with hk.shadow := some seq }
        ({ payload := leNat 8 e, effect := e, args := leNat 4 (crc32c hd.body).toNat }, { h' with flash.store.hkSeq := seq }) : Reply × Hub) = x) :
        cmdCfgHousekeeping { code := 0x0303, req := r } (atStep7 r s) = .ok x :=
      ok_bind hread <| ok_bind (needTick_ok ht _) <| ok_bind (needArg_ok (decide_eq_true hfirst)) <|
        ok_bind (needArg_ok (decide_eq_true harg)) <| ok_bind hchecks <| ok_bind (needArg_ok hseq) (congrArg Except.ok hx)
    by_cases hp : (atStep7 r s).flash.lifecycle = .provisioned
    · have hst : stored (atStep7 r s) = true := beq_iff_eq.mpr hp
      refine exec_of_answered rfl a (hpasses ?_)
      simp only [hst, if_true, waits, hp, ne_eq, not_true_eq_false, if_false]
    · have hst : stored (atStep7 r s) = false := beq_eq_false_iff_ne.mpr hp
      refine exec_of_answered rfl a (hpasses ?_)
      simp only [hst, waits, hp, ne_eq, not_false_eq_true, if_true]
      rfl
  case quality =>
    intro a hl
    refine ⟨_, _, exec_of_answered rfl a <| ok_bind (needLen_ok hl) rfl, takeQuality_bounded _ _ (Nat.zero_le _) fun _ he => nomatch he⟩
  case codes =>
    intro a hl
    refine ⟨_, exec_of_answered rfl a <| ok_bind (needLen_nil hl) rfl, List.length_mapIdx .., fun e he => ?_⟩
    obtain ⟨i, hi, rfl⟩ := List.mem_mapIdx.mp he
    simp [zeros]

end Sys2Proof.Machine
end

