-- ==== Sys2Proof/Proofs/GraphCommands.lean ====
section
/-! PROOFS. The commands of group 0x04: segments of a graph, activation and its read (14 R355, 06 R139, R140). -/

namespace Sys2Proof.Machine

/-- The graph that ACTIVATE_GRAPH finds under an identifier, no pending activation naming another (R140). -/
theorem graphNamed_of_held {a : Arr} {gid : BitVec 32} {graph : Graph}
    (hg : if gid = 0 then graph = {} else a.shadow = some graph ∧ graph.id = gid ∧ a.named = none) : graphNamed a gid = graph := by
  unfold graphNamed
  split
  next h0 => rw [if_pos h0] at hg; exact hg.symm
  next h0 =>
    rw [if_neg h0] at hg
    rw [hg.1, hg.2.2]
    rfl

theorem held_or_none {a : Arr} {gid : BitVec 32} {graph : Graph}
    (hg : if gid = 0 then graph = {} else a.shadow = some graph ∧ graph.id = gid ∧ a.named = none) :
    (gid == 0 || (match a.shadow with | some g => g.id == gid | none => false)) = true := by
  by_cases h0 : gid = 0
  · simp [h0]
  · rw [if_neg h0] at hg
    simp [hg.1, hg.2.1]

/-- Settles O18: the segment fits the load so far, and the last one passes the checks of R139; an activation passes R140's. -/
theorem graphCommands : Obligations.GraphCommands := by
  intro r s t g gid
  refine ⟨?load, ?activate, ?read⟩
  case load =>
    intro total first count more held a h1 h63 hl hgid ht1 ht1024 hz hfirst hfits hbegun graph
    let c : Ctx := { code := 0x0400, req := r }
    have hheld : g.arr.loading.getD (pf c 4 2, { id := BitVec.ofNat 32 (pf c 0 4) }) = (total, { id := gid, nodes := held }) := by
      by_cases h0 : first = 0
      · rw [if_pos h0] at hbegun
        rw [hbegun.2, List.length_eq_zero_iff.mp (hfirst.trans h0)]
        rfl
      · rw [if_neg h0] at hbegun
        rw [hbegun]
        rfl
    have hwaits : (decide (first ≠ 0) || g.arr.activate.isNone) = true := by
      by_cases h0 : first = 0
      · rw [if_pos h0] at hbegun
        simp [hbegun.1]
      · simp [h0]
    have hcount : (decide (1 ≤ count) && decide (count ≤ 63)) = true := by simp [h1, h63]
    have htotal : (decide (1 ≤ total) && decide (total ≤ 1024)) = true := by simp [ht1, ht1024]
    have horder : (fun x : Nat × Graph => x.1 == total && x.2.id == gid && x.2.nodes.length == first)
        (g.arr.loading.getD (pf c 4 2, { id := BitVec.ofNat 32 (pf c 0 4) })) = true := by
      rw [hheld]
      simp [hfirst]
    have hpasses := fun {x : Reply × Hub} (hx : _ = Except.ok x) =>
      show cmdLoadGraph c g = .ok x from
      ok_bind (needArg_ok hcount) <| ok_bind (needLen_ok hl) <| ok_bind (needArg_ok (decide_eq_true hgid)) <|
        ok_bind (needArg_ok htotal) <| ok_bind (needZero_ok hz) <| ok_bind (needState_ok hwaits) <|
        ok_bind (needStateAt_ok horder) <| ok_bind (needArg_ok (decide_eq_true hfits)) hx
    rw [hheld] at hpasses
    constructor
    · intro hlt
      exact exec_of_answered rfl a (hpasses (if_pos hlt))
    · intro hlast after hnodes hcombine hbudget
      have hover : ¬first + count < total := by omega
      refine ⟨exec_of_answered rfl a (hpasses ((if_neg hover).trans (ok_bind (checkAll_entries fun i d hd => ?_) ?_))), rfl, rfl, fun hact hnamed => ?_⟩
      · rw [hnodes i (List.getElem?_eq_some_iff.mp hd).1]
      · extract_lets
        split
        next hsome => exact absurd (hsome.symm.trans (List.findSome?_eq_none_iff.mpr hcombine)) nofun
        next => exact ok_bind (needBudget_ok hbudget) rfl
      · simp [takeShadow, hact, hnamed]
  case activate =>
    intro a hl hz ht hidle graph hgid waits after hcombine hbudget hactivation
    let c : Ctx := { code := 0x0401, req := r }
    have hgraph : graphNamed g.arr (BitVec.ofNat 32 (pf c 0 4)) = graph := graphNamed_of_held hgid
    have hpasses := fun {x : Reply × Hub} (hx : _ = Except.ok x) =>
      show cmdActivateGraph c g = .ok x from
      ok_bind (needLen_ok hl) <| ok_bind (needZero_ok hz) <| ok_bind (needTick_ok ht _) <| ok_bind (needStateAt_ok (held_or_none hgid)) <|
        ok_bind (needState_ok (Option.isNone_iff_eq_none.mpr hidle)) hx
    rw [hgraph] at hpasses
    have hnone : ¬((planTicks after t).any fun u => (combineRel (planAt after u) graph).isSome) = true := by simpa using hcombine
    by_cases hp : g.flash.lifecycle = .provisioned
    · have hst : stored g = true := beq_iff_eq.mpr hp
      have hafter : after = graphChecked graph g := if_neg (not_not.mpr hp)
      have hact : (if waits then some (gid, t) else none) = g.arr.activate := (if_neg (not_not.mpr hp)).trans hidle.symm
      have hworst : worst ((budgetFault after t).toList ++ []) = none := by rw [hbudget]; rfl
      rw [hst] at hpasses
      rw [hafter] at hworst hnone
      rw [hact]
      exact exec_of_answered rfl a (hpasses ((if_neg hnone).trans (ok_bind (needBudget_ok hworst) rfl))) (accepted_status ..)
    · have hst : stored g = false := beq_eq_false_iff_ne.mpr hp
      have hafter : after = { g with arr.activate := some (gid, t) } := if_pos hp
      have hact : (if waits then some (gid, t) else none) = some (gid, t) := if_pos hp
      have hworst : worst ((budgetFault after t).toList ++ activationFailures after t) = none := by
        rw [hbudget, hactivation hp]
        rfl
      rw [hst] at hpasses
      rw [hafter] at hworst hnone
      rw [hact]
      exact exec_of_answered rfl a (hpasses ((if_neg hnone).trans (ok_bind (needBudget_ok hworst) rfl))) (accepted_status ..)
  case read =>
    intro a hl
    refine exec_of_answered rfl a <| ok_bind (needLen_nil hl) ?_
    cases g.arr.activate <;> rfl

end Sys2Proof.Machine
end

