-- ==== Sys2Proof/Proofs/CaptureCommands.lean ====
section
/-! PROOFS. The commands of groups 0x05 and, for custody, 0x06: flares, captures, custody ranges (14 R356, R357, 07 R147 to R167, 09 R226 to
R228). -/

namespace Sys2Proof.Machine

/-- Settles O19: the entries pass, then they are held or committed, a new CAPTURE_MIB with them. -/
theorem flareAndCaptureConfiguration : Obligations.FlareAndCaptureConfiguration := by
  intro r s hd t g
  refine ⟨?flare, ?capture⟩
  case flare =>
    intro a hread harg ht hentries own
    let c : Ctx := { code := 0x0500, req := r }
    have hpasses := fun {x : Reply × Hub} (hx : _ = Except.ok x) =>
      show cmdCfgFlare c g = .ok x from
      ok_bind hread <| ok_bind (needArg_ok (decide_eq_true harg)) <| ok_bind (needTick_ok ht _) <|
        ok_bind (checkAll_entries fun i d hd => by rw [hentries i d hd]) hx
    constructor
    · intro hs hroom
      have hskip : ¬(!hd.stage && coincidenceNested (planAt (schedule t (commitList c own g) (checkBase g)) t)) = true := by simp [hs]
      exact exec_of_answered rfl a (hpasses ((if_neg hskip).trans (simpleCommit_held hs hroom _)))
    · intro hs all hnested
      have hskip : ¬(!hd.stage && coincidenceNested (planAt (schedule t all (checkBase g)) t)) = true := by simp [hnested]
      exact exec_of_answered rfl a (hpasses ((if_neg hskip).trans (simpleCommit_committed hs _))) (accepted_status ..)
  case capture =>
    intro a hread harg hmib ht hentries own args
    let c : Ctx := { code := 0x0501, req := r }
    have hlow : hd.arg % 65536 = hd.arg := Nat.mod_eq_of_lt harg
    have hpasses := fun {x : Reply × Hub} (hx : _ = Except.ok x) =>
      show cmdCfgCapture c g = .ok x from
      ok_bind hread <| ok_bind (needArg_ok (decide_eq_true harg)) <| ok_bind (needArg_ok (by rw [hlow]; exact hmib)) <|
        ok_bind (needTick_ok ht _) <| ok_bind (checkAll_entries fun i d hi => by rw [hentries d (List.mem_of_getElem? hi)]) hx
    rw [hlow] at hpasses
    constructor
    · intro hs hroom
      exact exec_of_answered rfl a (hpasses ((if_pos hs).trans (ok_bind (stage_of_room hroom ..) rfl)))
    · intro hs all g' after hrel hbudget hring
      have hworst : worst ((budgetFault after t).toList ++ if hd.arg = 0 then [] else ringFailures after hd.arg t) = none := by
        have hfailures : (if hd.arg = 0 then [] else ringFailures after hd.arg t) = [] := by
          split
          next => rfl
          next h0 => exact hring h0
        rw [hbudget, hfailures]
        rfl
      have hreply : (if all.isEmpty = true then { payload := leNat 8 0, args := args } else accepted g t [] args) =
          if all = [] then { payload := leNat 8 0, args := args } else accepted g t [] args := by simp only [List.isEmpty_iff]
      have hhub : (if hd.arg = 0 then takeItems t all g' else { takeItems t all g' with flash.store.captureMib := hd.arg }) =
          { changed t all g' with
            flash.store.captureMib := if hd.arg = 0 then (changed t all g').flash.store.captureMib else hd.arg } := by
        rw [takeItems_eq_changed]
        by_cases h0 : hd.arg = 0
        · rw [if_pos h0, if_pos h0]
        · rw [if_neg h0, if_neg h0]
      refine exec_of_answered rfl a (hpasses ((if_neg (by simp [hs])).trans (ok_bind (needRel_ok hrel ..) <|
        ok_bind (needBudget_ok hworst) (congrArg Except.ok (Prod.ext hreply hhub))))) ?_
      split
      · rfl
      · exact accepted_status ..

/-! ## RELEASE_CAPTURE (14 R356, 07 R164) -/

theorem lt_of_windowCapture {h : Hub} {d id : Nat} {c : Capture} (hc : windowCapture h d id = some c) : d < h.cap.defs.length :=
  lt_of_defAt_ne fun he => by rw [windowCapture, he] at hc; cases hc

theorem id_of_windowCapture {h : Hub} {d id : Nat} {c : Capture} (hc : windowCapture h d id = some c) : c.id = id := by
  have hp := List.find?_some hc
  simp only [Bool.and_eq_true, beq_iff_eq] at hp
  exact hp.1.1

/-- Once its buffer is given up, a definition holds no such capture under WINDOW. -/
theorem windowCapture_giveUpBuffer {h : Hub} {d id : Nat} {c : Capture} (hc : windowCapture h d id = some c) :
    windowCapture (giveUpBuffer d c h) d id = none := by
  obtain rfl := id_of_windowCapture hc
  unfold windowCapture giveUpBuffer
  split
  · rw [dropCapture, defAt_updDef_same (h := revokeCapture d c.id h) (lt_of_windowCapture hc)]
    rw [List.find?_eq_none]
    intro x hx
    have hne := (List.mem_filter.mp hx).2
    simp_all
  · rw [updCapture, defAt_updDef_same (h := revokeCapture d c.id h) (lt_of_windowCapture hc), List.find?_eq_none]
    intro x hx
    obtain ⟨y, _, rfl⟩ := List.mem_map.mp hx
    by_cases hy : y.id = c.id <;> simp [hy]

theorem giveUpBuffer_frame (d : Nat) (c : Capture) (h : Hub) :
    giveUpBuffer d c h = { h with cap.defs := (giveUpBuffer d c h).cap.defs, windows := (revokeCapture d c.id h).windows
                                  jobs := (revokeCapture d c.id h).jobs } := by
  unfold giveUpBuffer
  split <;> rfl

theorem revoked_of_mem_revokeCapture {d id : Nat} {h : Hub} {w : Window} (hw : w ∈ (revokeCapture d id h).windows) (ho : w.isOpen = true)
    (hobject : w.object = 0) (hd : w.def_ = d) (hid : w.capId = id) : w.revoked = true := by
  obtain ⟨v, _, rfl⟩ := List.mem_map.mp hw
  by_cases hsel : (v.isOpen && (v.object == 0 && v.def_ == d && v.capId == id)) = true
  · rw [if_pos hsel]
    rfl
  · rw [if_neg hsel] at ho hobject hd hid
    exact absurd (by simp [ho, hobject, hd, hid]) hsel

theorem sourceLost_of_revokeCapture {d id j : Nat} {h : Hub} {x : Job} (hx : (revokeCapture d id h).jobs[j]? = some (some x))
    (hr : x.running = true) (hd : x.def_ = d) (hid : x.capId = id) : x.sourceLost = true := by
  have hx' : (h.jobs.map fun j => j.map fun x =>
      if x.running && x.def_ == d && x.capId == id then { x with sourceLost := true } else x)[j]? = some (some x) := hx
  rw [List.getElem?_map] at hx'
  obtain ⟨o, _, ho⟩ := Option.map_eq_some_iff.mp hx'
  obtain ⟨y, _, rfl⟩ := Option.map_eq_some_iff.mp ho
  by_cases hsel : (y.running && y.def_ == d && y.capId == id) = true
  · rw [if_pos hsel]
  · rw [if_neg hsel] at hr hd hid
    exact absurd (by simp [hr, hd, hid]) hsel

/-! ## READ_CAPTURES (14 R356) -/

/-- The fields of a definition's entry. -/
def captureParts (h : Hub) (d : Nat) : List (Nat × Nat) :=
  [(1, capCode (defState (defAt h d) h)), (1, freeBuffers h d), (2, 0), (4, (defAt h d).nextId), (4, (defAt h d).missedTotal), (4, 0)]

/-- A definition's entry. -/
def captureEntry (h : Hub) (d : Nat) : Bytes :=
  leNat 1 (capCode (defState (defAt h d) h)) ++ leNat 1 (freeBuffers h d) ++ zeros 2 ++ leNat 4 (defAt h d).nextId ++
    leNat 4 (defAt h d).missedTotal ++ zeros 4

theorem captureEntry_eq (h : Hub) (d : Nat) : captureEntry h d = partsBytes (captureParts h d) ++ [] := by
  unfold captureEntry captureParts
  simp only [partsBytes_cons, partsBytes_nil, zeros_eq, List.append_assoc, List.append_nil]

theorem captureParts_length (h : Hub) (d : Nat) : (partsBytes (captureParts h d)).length = 16 := by
  rw [partsBytes_length]
  rfl

theorem capCode_lt (x : CapState) : capCode x < 256 := by cases x <;> decide

/-- Pieces of one length: a field of the piece at an index. -/
theorem fieldAt_flatMap_range {f : Nat → Bytes} {k : Nat} (hf : ∀ i, (f i).length = k) {n d off m : Nat} (hd : d < n) (hfit : off + m ≤ k) :
    fieldAt ((List.range n).flatMap f) (k * d + off) m = fieldAt (f d) off m := by
  have hsplit : List.range n = List.range d ++ d :: (List.range n).drop (d + 1) := by
    have hlt : d < (List.range n).length := by rw [List.length_range]; exact hd
    conv_lhs => rw [← List.take_append_drop d (List.range n), List.drop_eq_getElem_cons hlt, List.getElem_range, List.take_range,
      min_eq_left hd.le]
  have hfront : ((List.range d).flatMap f).length = k * d := by simp [List.length_flatMap, hf, Nat.mul_comm]
  rw [hsplit, List.flatMap_append, List.flatMap_cons, fieldAt, List.drop_append, hfront, Nat.add_sub_cancel_left,
    List.drop_eq_nil_of_le (by omega), List.nil_append]
  exact fieldAt_before (by rw [hf]; exact hfit)

/-! ## Custody ranges (09 R226, R227) -/

theorem needRanges_ok {c : Ctx} {h : Hub} {most : Nat} (h1 : 1 ≤ pf c 0 1) (hmost : pf c 0 1 ≤ most)
    (hl : c.req.payload.length = 8 + 16 * pf c 0 1) (hz : allZero ((c.req.payload.drop 1).take 7) = true)
    (hmb : c.req.mailbox ≤ 1 → custodyOutlet h = 2) (hr : rangesOk h.stream.nextSeq 0 (seqRanges c) = true) :
    needRanges c h most = .ok (seqRanges c) := by
  have hcount : (decide (1 ≤ pf c 0 1) && decide (pf c 0 1 ≤ most)) = true := by simp [h1, hmost]
  have hstate : (decide (1 < c.req.mailbox) || custodyOutlet h == 2) = true := by
    by_cases hm : c.req.mailbox ≤ 1
    · simp [hmb hm]
    · simp [Nat.lt_of_not_le hm]
  have hranges := (rangeFault_eq_none h.stream.nextSeq (seqRanges c) 0 0).mpr hr
  refine ok_bind (needArg_ok hcount) <| ok_bind (needLen_ok hl) <| ok_bind (needZero_ok hz) <| ok_bind (needState_ok hstate) ?_
  rw [hranges]
  rfl

/-- Settles O20, command by command. -/
theorem captureAndCustodyCommands : Obligations.CaptureAndCustodyCommands := by
  refine ⟨fun r s t => ⟨?now, ?release, ?clear, ?read⟩, fun r s => ?custody⟩
  case now =>
    intro u bs a hl hz hu hon hns hq hinst hnow
    have hunit : (decide (u < 16) && unitOn (atStep7 r s) u 7) = true := by simp [hu, hon]
    have hfree : (!(atStep7 r s).cap.now.any (·.1 == u)) = true := by simpa using hnow
    exact exec_of_answered rfl a <| ok_bind (needLen_ok hl) <| ok_bind (needZero_ok hz) <| ok_bind (needArg_ok hunit) <|
      ok_bind (needArg_ok (decide_eq_true hns)) <| ok_bind (needArg_ok hq) <| ok_bind (needArg_ok (decide_eq_true hinst)) <|
      ok_bind (needState_ok hfree) rfl
  case release =>
    intro d id c a hl hz hd hc
    have hfound : (if d < 8 then windowCapture (atStep7 r s) d id else none) = some c := (if_pos hd).trans hc
    have hcmd : cmdReleaseCapture { code := 0x0503, req := r } (atStep7 r s) =
        .ok ({ args := leNat 1 d ++ leNat 4 id }, giveUpBuffer d c (atStep7 r s)) := by
      refine ok_bind (needLen_ok hl) <| ok_bind (needZero_ok hz) ?_
      extract_lets
      split
      next hnone => exact absurd (hnone.symm.trans hfound) nofun
      next x hx => cases hx.symm.trans hfound; rfl
    have hframe := giveUpBuffer_frame d c (atStep7 r s)
    have hid : c.id = id := id_of_windowCapture hc
    refine ⟨giveUpBuffer d c (atStep7 r s), exec_of_answered rfl a hcmd, ?_, windowCapture_giveUpBuffer hc, fun w hw => ?_, fun j x hj => ?_⟩
    · conv_lhs => rw [hframe]
      rw [hframe]
    · rw [hframe] at hw
      exact fun ho hobject hdef hcap => revoked_of_mem_revokeCapture hw ho hobject hdef (hcap.trans hid.symm)
    · rw [hframe] at hj
      exact fun hr hdef hcap => sourceLost_of_revokeCapture hj hr hdef (hcap.trans hid.symm)
  case clear =>
    intro a hl hw hz ht
    exact exec_of_answered rfl a <| ok_bind (needLen_ok hl) <| ok_bind (needArg_ok (decide_eq_true hw)) <| ok_bind (needZero_ok hz) <|
      ok_bind (needTick_ok ht _) (congrArg (fun g => Except.ok (_, g)) (acceptItems_one_of_leavesCfg (fun _ => rfl) ..))
  case read =>
    intro a hl
    have hexec := exec_of_answered (i := .readCaptures r) rfl a <| ok_bind (needLen_nil hl) rfl
    have hentry (d : Nat) : captureEntry (atStep7 r s) d = partsBytes (captureParts (atStep7 r s) d) ++ [] := captureEntry_eq ..
    have hlen (d : Nat) : (captureEntry (atStep7 r s) d).length = 16 := by
      rw [hentry, List.append_nil, captureParts_length]
    refine ⟨(List.range 8).flatMap (captureEntry (atStep7 r s)), hexec, by simp [List.length_flatMap, hlen], fun d hd => ⟨?_, ?_, ?_⟩⟩
    · refine (fieldAt_flatMap_range (off := 0) (m := 1) hlen hd (by decide)).trans ?_
      rw [hentry]
      exact (fieldAt_parts (k := 0) rfl rfl _).trans (Nat.mod_eq_of_lt (capCode_lt _))
    · rw [fieldAt_flatMap_range hlen hd (by decide), hentry]
      exact fieldAt_parts (k := 3) rfl rfl _
    · rw [fieldAt_flatMap_range hlen hd (by decide), hentry]
      exact fieldAt_parts (k := 4) rfl rfl _
  case custody =>
    intro g n rs freed h1 hl hz hmb hr
    refine ⟨fun a hmost => ?_, fun a hmost hsum => ?_⟩
    · exact exec_of_answered rfl a <| ok_bind (needRanges_ok h1 hmost hl hz hmb hr) rfl
    · have hcount : ((heldIn g rs).map (·.record.seq)).length = freed := List.length_map ..
      have hpasses := fun {x : Reply × Hub} (hx : _ = Except.ok x) =>
        show cmdCustodyRetransmit { code := 0x0602, req := r } g = .ok x from
        ok_bind (needRanges_ok h1 hmost hl hz hmb hr) <| ok_bind (needArg_ok (decide_eq_true hsum)) hx
      have hheld : seqRanges { code := 0x0602, req := r } = rs := rfl
      rw [hheld] at hpasses
      simp only [hcount] at hpasses
      exact ⟨_, exec_of_answered rfl a (hpasses rfl)⟩

end Sys2Proof.Machine
end

