-- ==== Sys2Proof/Proofs/StreamCommands.lean ====
section
/-! PROOFS. The commands of group 0x06 but those of custody: compression, outlets, compression jobs (14 R357, 08 R174 to R196, 09 R217 to
R219). -/

namespace Sys2Proof.Machine

theorem jobAt_of_getElem? {h : Hub} {j : Nat} {x : Option Job} (hj : h.jobs[j]? = some x) : jobAt h j = x := by
  rw [jobAt, List.getD_eq_getElem?_getD, hj]
  rfl

/-- Settles O21, command by command. -/
theorem streamCommands : Obligations.StreamCommands := by
  intro r s hd t g
  refine ⟨?compression, ?outlets, ?job, ?stopped⟩
  case compression =>
    intro a hread h71 h23 h63 ht es hentries
    rw [← takeItems_eq_changed]
    exact exec_of_answered rfl a (ok_bind hread <| ok_bind (needArg_ok (decide_eq_true h71)) <| ok_bind (needArg_ok (decide_eq_true h23)) <|
      ok_bind (needArg_ok (decide_eq_true h63)) <| ok_bind (needTick_ok ht _) <|
      ok_bind (checkAll_entries fun i e he => needEntry_ok (hentries i e he)) rfl) (accepted_status ..)
  case outlets =>
    intro a hread h3 hlo hhi h31 h47 h63 ht heth hhost items hrel hbudget
    have hfields : (decide (bitsOf hd.arg 1 0 ≠ 3) && decide (1 ≤ bitsOf hd.arg 7 2) && decide (bitsOf hd.arg 7 2 ≤ 40)) = true := by
      simp [h3, hlo, hhi]
    have hmode : (decide (bitsOf hd.arg 1 0 ≠ 1) || laneUEth (checkBase g).cfg) = true := by
      by_cases h1 : bitsOf hd.arg 1 0 = 1
      · simp [(heth h1).1]
      · simp [h1]
    have hcopyHost : (!(bitsOf hd.arg 1 0 == 2 && bitsOf hd.arg 16 8 != 0)) = true := by
      by_cases h2 : bitsOf hd.arg 1 0 = 2
      · simp [hhost h2]
      · simp [h2]
    have hcopyEth : (!(bitsOf hd.arg 1 0 == 1 && bitsOf hd.arg 25 17 != 0)) = true := by
      by_cases h1 : bitsOf hd.arg 1 0 = 1
      · simp [(heth h1).2]
      · simp [h1]
    exact exec_of_answered rfl a (ok_bind hread <| ok_bind (needArg_ok hfields) <| ok_bind (needArg_ok (decide_eq_true h31)) <|
      ok_bind (needArg_ok (decide_eq_true h47)) <| ok_bind (needArg_ok (decide_eq_true h63)) <| ok_bind (needTick_ok ht _) <|
      ok_bind (needStateAt_ok hmode) <| ok_bind (needStateAt_ok hcopyHost) <| ok_bind (needStateAt_ok hcopyEth) <|
      ok_bind (commitItems_ok hrel hbudget ..) rfl) (accepted_status ..)
  case job =>
    intro d size id first c j a hl hz1 hz12 hd8 hc hheader hfirst hsize hfree hstaging hroom
    have hfound : (if d < 8 then windowCapture g d id else none) = some c := (if_pos hd8).trans hc
    have hbudget : (if stagingFree g < size then some (13, size, stagingFree g) else none) = none := if_neg (Nat.not_lt.mpr hstaging)
    refine exec_of_pending rfl a (ok_bind (needLen_ok hl) <| ok_bind (needZero_ok hz1) <| ok_bind (needZero_ok hz12) ?_) hroom
    split
    next hnone => exact absurd (hnone.symm.trans hfound) nofun
    next x hx =>
      cases hx.symm.trans hfound
      refine ok_bind (needState_ok hheader) <| ok_bind (needArg_ok (decide_eq_true hfirst)) <| ok_bind (needArg_ok (decide_eq_true hsize)) ?_
      rw [hfree]
      exact ok_bind (needBudget_ok hbudget) rfl
  case stopped =>
    intro j x hl hj
    have hjob : jobAt g j = some x := jobAt_of_getElem? hj
    refine ⟨fun a hstop hroom => ?resume, fun a hrun => ?cancelRunning, fun a hrun => ?cancelStopped⟩
    case resume =>
      refine exec_of_pending rfl a (ok_bind (needLen_ok hl) ?_) hroom
      extract_lets j'
      rw [show jobAt (atStep7 r s) j' = some x from hjob]
      exact ok_bind (needState_ok (by simp [hstop])) rfl
    case cancelRunning =>
      refine exec_of_answered rfl a (ok_bind (needLen_ok hl) ?_)
      extract_lets j'
      rw [show jobAt (atStep7 r s) j' = some x from hjob]
      exact congrArg (fun h => Except.ok (_, h)) (if_pos hrun)
    case cancelStopped =>
      refine exec_of_answered rfl a (ok_bind (needLen_ok hl) ?_)
      extract_lets j'
      rw [show jobAt (atStep7 r s) j' = some x from hjob]
      exact congrArg (fun h => Except.ok (_, h)) (if_neg (by simp [hrun]))

end Sys2Proof.Machine
end

