-- ==== Sys2Proof/Proofs/LaneCommands.lean ====
section
/-! PROOFS. The commands of group 0x07: lanes, slot tables, the uplink and the read of the lanes (14 R358, 11 R258, R280, R281, R286, R288). -/

namespace Sys2Proof.Machine

/-! ## CFG_SLOT_TABLE (11 R281) -/

theorem foldl_updLane (f : Lane → Lane) (ls : List Nat) (h : Hub) :
    ls.foldl (fun h i => updLane i f h) h = { h with lanes := ls.foldl (fun x i => updAt x i f) h.lanes } := by
  induction ls generalizing h with
  | nil => rfl
  | cons l ls ih => exact ih (updLane l f h)

theorem foldl_updLane_frame (f : Lane → Lane) (ls : List Nat) (h : Hub) :
    ls.foldl (fun h i => updLane i f h) h = { h with lanes := (ls.foldl (fun h i => updLane i f h) h).lanes } := by rw [foldl_updLane]

theorem laneAt_foldl_updLane_of_mem (f : Lane → Lane) {ls : List Nat} (hn : ls.Nodup) {h : Hub} {l : Nat} (hm : l ∈ ls)
    (hl : l < h.lanes.length) : laneAt (ls.foldl (fun h i => updLane i f h) h) l = f (laneAt h l) := by
  rw [foldl_updLane, laneAt, List.getD_eq_getElem?_getD]
  rw [getElem?_foldl_updAt (fun _ => f) hn, if_pos hm]
  simp [laneAt, hl]

theorem laneAt_foldl_updLane_of_not_mem (f : Lane → Lane) {ls : List Nat} (hn : ls.Nodup) (h : Hub) {l : Nat} (hm : l ∉ ls) :
    laneAt (ls.foldl (fun h i => updLane i f h) h) l = laneAt h l := by
  rw [foldl_updLane, laneAt, List.getD_eq_getElem?_getD, getElem?_foldl_updAt (fun _ => f) hn, if_neg hm, laneAt, List.getD_eq_getElem?_getD]

theorem nodup_tableLanes (hd : Head) : (tableLanes hd).Nodup := List.nodup_range.filter _

/-! ## CFG_UPLINK (11 R288) -/

/-- The block enters the store unless an accepted one of a later tick has (14 R344). -/
theorem acceptItems_uplink (tick : Nat) (b : Bytes) (h : Hub) :
    acceptItems tick [.uplink b] h = { h with
      changes := h.changes ++ [⟨tick, .uplink b⟩]
      flash.store.uplink := if h.changes.any (fun c => decide (tick < c.tick) && sameSubject c.item (.uplink b)) then
        h.flash.store.uplink else b } := by
  have hstored : storedItems tick [.uplink b] h =
      if h.changes.any (fun c => decide (tick < c.tick) && sameSubject c.item (.uplink b)) then [] else [.uplink b] := by
    unfold storedItems
    cases hlater : h.changes.any (fun c => decide (tick < c.tick) && sameSubject c.item (.uplink b)) <;> simp [hlater]
  unfold acceptItems
  rw [hstored]
  split <;> rfl

/-! ## READ_LANE (11 R286) -/

/-- The fields of a lane's entry. -/
def laneParts (h : Hub) (l : Nat) : List (Nat × Nat) :=
  let x := laneAt h l
  [(1, laneCode x.state), (1, rateCode h l), (1, x.farLane), (1, bondCode h l), (4, x.farHub.toNat), (1, x.taps.pre), (1, x.taps.main),
   (1, x.taps.post), (1, (recentFails h x).length), (2, x.eyeH), (2, x.eyeV), (4, x.crcErrors.toNat), (4, x.replays.toNat),
   (4, x.lockLosses.toNat), (4, x.prbsErrors.toNat)]

theorem laneEntry_eq (h : Hub) (l : Nat) : laneEntry h l = partsBytes (laneParts h l) ++ [] := by
  unfold laneEntry laneParts
  simp only [partsBytes_cons, partsBytes_nil, List.append_assoc, List.append_nil]

theorem laneEntry_length (h : Hub) (l : Nat) : (laneEntry h l).length = 32 := by
  rw [laneEntry_eq, List.append_nil, partsBytes_length]
  rfl

theorem laneCode_lt (x : LaneState) : laneCode x < 256 := by cases x <;> decide

/-- Settles O22, command by command. -/
theorem laneCommands : Obligations.LaneCommands := by
  intro r s hd t g
  refine ⟨?lane, ?table, ?uplink, ?read⟩
  case lane =>
    intro a hread hat harg ds hfields cfg hmove
    let moved := (mapI (fun i d => decide (hd.first + i = 5) && bitsOf d 2 0 != lMode (cfg.lane.getD 5 0)) ds).any id
    have hstate : (!(moved && (bitsOf cfg.outlets.toNat 1 0 == 1 || tbSource cfg.timeBlock == 3 || tbSource cfg.timeBlock == 4))) = true := by
      cases hm : moved with
      | false => rfl
      | true =>
        obtain ⟨b, hb, htrue⟩ := List.any_eq_true.mp hm
        obtain ⟨i, hi, rfl⟩ := List.mem_mapIdx.mp hb
        simp only [id, Bool.and_eq_true, decide_eq_true_eq, bne_iff_ne] at htrue
        obtain ⟨h1, h3, h4⟩ := hmove i ds[i] (List.getElem?_eq_getElem hi) htrue.1 htrue.2
        simp [h1, h3, h4]
    exact exec_of_answered rfl a <| ok_bind hread <| ok_bind (needArg_ok (decide_eq_true hat)) <| ok_bind (needArg_ok (decide_eq_true harg)) <|
      ok_bind (checkAll_entries fun i d hd => by rw [hfields i d hd]) <| ok_bind (needState_ok hstate) rfl
  case table =>
    intro hd a hl h12 hz h1 h6 hfit harg ht tab ls htables put g' hbudget
    have hcount : (decide (1 ≤ hd.count) && decide (hd.count ≤ 6)) = true := by simp [h1, h6]
    have hall : (ls.all fun l => tableOk l tab) = true := List.all_eq_true.mpr htables
    have hafter : budgetFault (if stored g = true then { checkBase g with cfg.slots := put (checkBase g).cfg.slots } else g') t = none := by
      by_cases hp : g.flash.lifecycle = .provisioned
      · rw [if_pos hp] at hbudget
        rw [if_pos (show stored g = true from beq_iff_eq.mpr hp)]
        exact hbudget
      · rw [if_neg hp] at hbudget
        rw [if_neg (show ¬stored g = true from fun e => hp (beq_iff_eq.mp e))]
        exact hbudget
    have hn : ls.Nodup := nodup_tableLanes hd
    have hlanes : g' = { g with lanes := g'.lanes } := foldl_updLane_frame ..
    refine ⟨?_, fun l hm hlt => ?_, fun l hm => laneAt_foldl_updLane_of_not_mem _ hn g hm⟩
    · exact exec_of_answered rfl a <| (if_neg (not_not.mpr hl)).trans <| ok_bind (needArg_ok (decide_eq_true h12)) <| ok_bind (needZero_ok hz) <|
        ok_bind (needArg_ok hcount) <| ok_bind (needArg_ok (decide_eq_true hfit)) <| ok_bind (needArg_ok (decide_eq_true harg)) <|
        ok_bind (needTick_ok ht _) <| ok_bind (needArg_ok hall) <| ok_bind (needBudget_ok hafter) <|
        congrArg (fun h : Hub => Except.ok (acceptedAt g t [] (argsList hd), ({ h with flash.store.slots := put g.flash.store.slots } : Hub))) hlanes
    · rw [laneAt_foldl_updLane_of_mem _ hn hm hlt]
  case uplink =>
    intro a hread harg hfields ht
    refine exec_of_answered rfl a <| ok_bind hread <| ok_bind (needArg_ok (decide_eq_true harg)) ?_
    rw [hfields]
    exact ok_bind (needTick_ok ht _) (congrArg (fun h => Except.ok (_, h)) (acceptItems_uplink ..))
  case read =>
    intro a hl
    refine ⟨exec_of_answered rfl a <| ok_bind (needLen_nil hl) rfl, fun l _ => ⟨laneEntry_length g l, ?_⟩⟩
    rw [laneEntry_eq]
    exact (fieldAt_parts (k := 0) rfl rfl _).trans (Nat.mod_eq_of_lt (laneCode_lt _))

end Sys2Proof.Machine
end

