-- ==== Sys2Proof/Proofs/FaultAndPairCommands.lean ====
section
/-! PROOFS. The commands of groups 0x09, 0x0A and 0x0C: faults and the journal, the pair, loop outputs (14 R362, R363, R367). -/

namespace Sys2Proof.Machine

/-- Settles O24, command by command. -/
theorem faultCommands : Obligations.FaultCommands := by
  intro r s hd t g
  refine ⟨?cfg, ?force, ?faults, ?journal⟩
  case cfg =>
    intro a hread harg ht hentries own
    have hpasses := fun {x : Reply × Hub} (hx : _ = Except.ok x) =>
      show cmdCfgFault { code := 0x0900, req := r } g = .ok x from
      ok_bind hread <| ok_bind (needArg_ok (decide_eq_true harg)) <| ok_bind (needTick_ok ht _) <|
        ok_bind (checkAll_entries fun i e he => by rw [hentries i e he]) hx
    constructor
    · intro hs hroom
      exact exec_of_answered rfl a (hpasses ((if_pos hs).trans (ok_bind (stage_of_room hroom ..) rfl)))
    · intro hs all
      exact exec_of_answered rfl a (hpasses (if_neg (by simp [hs])))
  case force =>
    intro n i mode a hl hsource hinst hmode hz ht
    exact exec_of_answered rfl a <| ok_bind (needLen_ok hl) <| ok_bind (needArg_ok hsource) <| ok_bind (needArg_ok hinst) <|
      ok_bind (needArg_ok (decide_eq_true hmode)) <| ok_bind (needZero_ok hz) <| ok_bind (needTick_ok ht _)
        (congrArg (fun h => Except.ok (_, h)) (acceptItems_one_of_leavesCfg (fun _ => rfl) ..))
  case faults => exact fun a hl => exec_of_answered rfl a <| ok_bind (needLen_nil hl) rfl
  case journal =>
    intro first count rs a hl h1 h63
    have hcount : (decide (1 ≤ count) && decide (count ≤ 63)) = true := by simp [h1, h63]
    exact exec_of_answered rfl a <| ok_bind (needLen_ok hl) <| ok_bind (needArg_ok hcount) rfl

/-! ## READ_PAIR (14 R363) -/

/-- The fields of READ_PAIR. -/
def pairParts (h : Hub) : List (Nat × Nat) :=
  [(1, pairStateCode h.pair.state), (1, (h.pair.partner.map (·.state)).getD 0xFF), (1, b2n h.pair.grant), (1, b2n (heartbeats h)), (4, 0),
   (8, h.pair.unitsRx), (4, h.pair.shadowLost), (4, h.pair.relaySent), (8, lowBytes 8 h.pair.offset)]

theorem cmdReadPair_ok {c : Ctx} (hl : c.req.payload = []) (h : Hub) :
    cmdReadPair c h = .ok (answer rOk (partsBytes (pairParts h) ++ []), h) := by
  refine ok_bind (needLen_nil hl) ?_
  simp only [pairParts, partsBytes_cons, partsBytes_nil, zeros_eq, leInt_eq, List.append_assoc, List.append_nil]
  rfl

theorem pairStateCode_lt (x : PairState) : pairStateCode x < 256 := by cases x <;> decide

theorem b2n_lt (b : Bool) : b2n b < 256 := by cases b <;> decide

/-- Settles O25, command by command. -/
theorem pairAndLoopCommands : Obligations.PairAndLoopCommands := by
  refine ⟨fun r s hd partner => ⟨?cfg, ?resync, ?pair⟩, fun r s hd t => ⟨?loops, ?outputs⟩⟩
  case cfg =>
    intro a hread hat h15 h23 h63
    exact exec_of_answered rfl a <| ok_bind hread <| ok_bind (needArg_ok (decide_eq_true hat)) <| ok_bind (needArg_ok (decide_eq_true h15)) <|
      ok_bind (needArg_ok (decide_eq_true h23)) <| ok_bind (needArg_ok (decide_eq_true h63)) rfl
  case resync =>
    intro a hl hz hpaired hactive hpartner hstate hlo6 hhi6 hlo7 hhi7 hsnapshot hcopy
    have hasks : ((atStep7 r s).pair.paired && isActive (atStep7 r s) && ((atStep7 r s).pair.partner.map (·.state)) == some 3) = true := by
      simp [hpaired, hactive, hpartner, hstate]
    have hreads : ¬(!(decide (fieldAt r.payload 0 2 ≤ (Config.sectionFormat 6).toNat ∧ (Config.sectionFormat 6).toNat ≤ fieldAt r.payload 2 2) &&
        decide (fieldAt r.payload 0 2 ≤ (Config.sectionFormat 7).toNat ∧ (Config.sectionFormat 7).toNat ≤ fieldAt r.payload 2 2))) = true := by
      simp [hlo6, hhi6, hlo7, hhi7]
    have hidle : ((atStep7 r s).pair.snapshot.isNone && (atStep7 r s).pair.copyLeft.isEmpty) = true := by simp [hsnapshot, hcopy]
    exact exec_of_answered rfl a <| ok_bind (needLen_ok hl) <| ok_bind (needZero_ok hz) <| ok_bind (needState_ok hasks) <|
      (if_neg hreads).trans <| ok_bind (needRoom_ok hidle) rfl
  case pair =>
    intro a hl
    refine ⟨partsBytes (pairParts (atStep7 r s)) ++ [], exec_of_answered rfl a (cmdReadPair_ok hl _), ?_,
      (fieldAt_parts (k := 0) rfl rfl _).trans (Nat.mod_eq_of_lt (pairStateCode_lt _)), fieldAt_parts (k := 1) rfl rfl _,
      (fieldAt_parts (k := 2) rfl rfl _).trans (Nat.mod_eq_of_lt (b2n_lt _)), (fieldAt_parts (k := 3) rfl rfl _).trans (Nat.mod_eq_of_lt (b2n_lt _)),
      (fieldAt_parts (k := 4) rfl rfl _).trans (Nat.zero_mod _), fieldAt_parts (k := 5) rfl rfl _, fieldAt_parts (k := 6) rfl rfl _,
      fieldAt_parts (k := 7) rfl rfl _, congrArg (sext 64) ((fieldAt_parts (k := 8) rfl rfl _).trans (Nat.mod_eq_of_lt (twos_lt 64 _)))⟩
    rw [List.append_nil, partsBytes_length]
    rfl
  case loops =>
    intro a hread harg ht hentries items hrel hbudget
    exact exec_of_answered rfl a (ok_bind hread <| ok_bind (needArg_ok (decide_eq_true harg)) <| ok_bind (needTick_ok ht _) <|
      ok_bind (checkAll_entries fun i e he => by rw [hentries i e he]) <| ok_bind (commitItems_ok hrel hbudget ..) rfl) (accepted_status ..)
  case outputs => exact fun a hl => exec_of_answered rfl a <| ok_bind (needLen_nil hl) rfl

end Sys2Proof.Machine
end

