-- ==== Sys2Proof/Proofs/WindowTransfers.lean ====
section
/-! PROOFS. Windows: what a transfer reaches, and the commands of group 0x08 (14 R359 to R361, 16 R399, R400, R414). -/

namespace Sys2Proof.Machine

/-! ## How far a span gets (16 R400) -/

/-- Where the burst at an offset ends. -/
def burstEnd (stop at_ : Nat) : Nat := min stop (at_ / 256 * 256 + 256)

theorem spanRun_succ (bad : List Nat) (limit : Option Nat) (stop n at_ done : Nat) :
    spanRun bad limit stop (n + 1) at_ done =
      if stop ≤ at_ then ⟨done, 0, at_⟩
      else if bad.contains (at_ / 256 * 256) then ⟨done, 2, burstEnd stop at_⟩
      else if limit.any (fun l => decide (l < burstEnd stop at_)) then ⟨done, 3, at_⟩
      else spanRun bad limit stop n (burstEnd stop at_) (done + (burstEnd stop at_ - at_)) := by
  cases limit <;> rfl

theorem spanRun_reason (bad : List Nat) (limit : Option Nat) (stop n at_ done : Nat) :
    (spanRun bad limit stop n at_ done).reason = 0 ∨ (spanRun bad limit stop n at_ done).reason = 2 ∨
      (spanRun bad limit stop n at_ done).reason = 3 := by
  induction n generalizing at_ done with
  | zero =>
    rw [spanRun]
    split
    · exact .inr (.inr rfl)
    · exact .inl rfl
  | succ n ih =>
    rw [spanRun_succ]
    split_ifs
    · exact .inl rfl
    · exact .inr (.inl rfl)
    · exact .inr (.inr rfl)
    · exact ih ..

/-- A span without a failure reaches its stop, and DONE counts every byte from its start. -/
theorem spanRun_reached {bad : List Nat} {limit : Option Nat} {stop n at_ done : Nat}
    (h : (spanRun bad limit stop n at_ done).reason = 0) :
    stop ≤ (spanRun bad limit stop n at_ done).next ∧
      (spanRun bad limit stop n at_ done).done + at_ = done + (spanRun bad limit stop n at_ done).next := by
  induction n generalizing at_ done with
  | zero =>
    rw [spanRun] at h ⊢
    by_cases hlt : at_ < stop
    · rw [if_pos hlt] at h
      cases h
    · exact ⟨Nat.le_of_not_lt hlt, rfl⟩
  | succ n ih =>
    rw [spanRun_succ] at h ⊢
    by_cases hstop : stop ≤ at_
    · rw [if_pos hstop]
      exact ⟨hstop, rfl⟩
    · rw [if_neg hstop] at h ⊢
      have hforward : at_ ≤ burstEnd stop at_ := le_min (Nat.le_of_not_le hstop) (by omega)
      split_ifs at h ⊢
      obtain ⟨hreach, hcount⟩ := ih h
      exact ⟨hreach, by omega⟩

/-- With no burst that fails or waits, enough of them reach the stop. -/
theorem spanRun_clear {stop n at_ : Nat} (hle : at_ ≤ stop) (hn : at_ < stop → stop ≤ (at_ / 256 + n) * 256) (done : Nat) :
    spanRun [] none stop n at_ done = ⟨done + (stop - at_), 0, stop⟩ := by
  induction n generalizing at_ done with
  | zero =>
    obtain rfl : at_ = stop := by omega
    rw [spanRun, if_neg (lt_irrefl at_), Nat.sub_self]
    rfl
  | succ n ih =>
    rw [spanRun_succ]
    by_cases hstop : stop ≤ at_
    · obtain rfl : at_ = stop := le_antisymm hle hstop
      rw [if_pos le_rfl, Nat.sub_self]
      rfl
    · have hend : burstEnd stop at_ = min stop (at_ / 256 * 256 + 256) := rfl
      have hle' : burstEnd stop at_ ≤ stop := min_le_left ..
      have hrest : burstEnd stop at_ < stop → stop ≤ (burstEnd stop at_ / 256 + n) * 256 := by omega
      rw [if_neg hstop, if_neg (by simp), if_neg (by simp), ih hle' hrest]
      congr 1
      omega

/-! ## Serving a span (14 R361) -/

/-- What the bursts of a transfer reach. -/
def spanOf (env : Env) (w : Window) (off len : Nat) (h : Hub) : Span :=
  spanRun (env.bad ++ if w.object = 2 then ((jobAt h w.job).map (·.lost)).getD [] else [])
    (if w.object = 2 then (jobAt h w.job).bind fun j => if j.running then some j.buf.length else none else none)
    (serveSpan.cut env w off (off + len)) env.bursts off 0

/-- The answer to a transfer that ended so. -/
def spanReply (h : Hub) (w : Window) (off : Nat) (x : Span) : Reply :=
  { status := if x.reason = 0 then rOk else rPartial
    payload := leNat 4 x.done ++ leNat 1 x.reason ++ zeros 3 ++ windowBytes h w off x.done }

/-- What is left to resume. -/
def spanRest (off len : Nat) (x : Span) : Option (Nat × Nat) :=
  if x.reason = 2 ∨ x.reason = 3 then some (x.next, off + len - x.next) else none

theorem serveSpan_watchdog {env : Env} {w : Window} (hdog : env.watchdog = true) (hw : w.revoked = false) (i off len : Nat) (h : Hub) :
    serveSpan env i w off len h =
      ({ status := rFault }, raiseNow 0xEE 0 0 0 { h with windows := h.windows.set i { w with rest := none } }) := by
  rw [serveSpan, if_pos (by simp [hdog, hw])]
  rfl

/-- A transfer from a revoked window answers REASON 1 and no byte. -/
theorem serveSpan_revoked {w : Window} (hw : w.revoked = true) (env : Env) (i off len : Nat) (h : Hub) :
    serveSpan env i w off len h =
      (spanReply h w off ⟨0, 1, off⟩, { h with windows := h.windows.set i { w with rest := none } }) := by
  rw [serveSpan, if_neg (by simp [hw])]
  simp [hw, spanReply, setAt]

/-- A transfer that its bursts end: every failure of theirs is told, with the rest. -/
theorem serveSpan_ended {env : Env} {w : Window} {off len : Nat} {h : Hub} (hdog : env.watchdog = false) (hw : w.revoked = false)
    (hend : (spanOf env w off len h).reason = 0 → off + len ≤ (spanOf env w off len h).next) (i : Nat) :
    serveSpan env i w off len h =
      (spanReply h w off (spanOf env w off len h),
        { h with windows := h.windows.set i { w with rest := spanRest off len (spanOf env w off len h) } }) := by
  have hhit : ((spanOf env w off len h).reason == 0 && decide ((spanOf env w off len h).next < off + len)) = false := by
    by_cases h0 : (spanOf env w off len h).reason = 0
    · simp [hend h0]
    · simp [h0]
  rw [serveSpan, if_neg (by simp [hdog])]
  unfold spanOf at hhit
  simp only [hhit, hw, Bool.false_eq_true, if_false, Bool.false_and]
  rfl

/-- A transfer that a revocation meets. -/
theorem serveSpan_hit {env : Env} {w : Window} {off len : Nat} {h : Hub} (hdog : env.watchdog = false) (hw : w.revoked = false)
    (h0 : (spanOf env w off len h).reason = 0) (hlt : (spanOf env w off len h).next < off + len) (i : Nat) :
    serveSpan env i w off len h =
      (spanReply h w off { spanOf env w off len h with reason := 1 },
        { h with windows := h.windows.set i { revokeWindow w with rest := none } }) := by
  have hhit : ((spanOf env w off len h).reason == 0 && decide ((spanOf env w off len h).next < off + len)) = true := by simp [h0, hlt]
  rw [serveSpan, if_neg (by simp [hdog])]
  unfold spanOf at hhit
  simp only [hhit, hw]
  rfl

theorem cut_le (env : Env) (w : Window) (off stop : Nat) : serveSpan.cut env w off stop ≤ stop := by
  unfold serveSpan.cut
  split
  · split
    · exact min_le_left ..
    · exact le_rfl
  · exact le_rfl

theorem cut_of_none {env : Env} (h : env.revoked = none) (w : Window) (off stop : Nat) : serveSpan.cut env w off stop = stop := by
  simp [serveSpan.cut, h]

theorem cut_of_object {w : Window} (hw : ¬w.object < 2) (env : Env) (off stop : Nat) : serveSpan.cut env w off stop = stop := by
  unfold serveSpan.cut
  split
  · exact if_neg hw
  · rfl

/-- Where nothing cuts it, a span without a failure ends at its end. -/
theorem spanOf_ended {env : Env} {w : Window} {off len : Nat} {h : Hub} (hcut : serveSpan.cut env w off (off + len) = off + len)
    (h0 : (spanOf env w off len h).reason = 0) : off + len ≤ (spanOf env w off len h).next := by
  have hreach : serveSpan.cut env w off (off + len) ≤ (spanOf env w off len h).next := (spanRun_reached h0).1
  rwa [hcut] at hreach

/-- The span of a transfer whose bursts all return, of an object that is no job's. -/
theorem spanOf_clear {env : Env} {w : Window} {off len : Nat} (hbad : env.bad = []) (hobject : w.object ≠ 2)
    (hle : off ≤ serveSpan.cut env w off (off + len)) (hn : serveSpan.cut env w off (off + len) ≤ (off / 256 + env.bursts) * 256) (h : Hub) :
    spanOf env w off len h = ⟨serveSpan.cut env w off (off + len) - off, 0, serveSpan.cut env w off (off + len)⟩ := by
  rw [spanOf, hbad, if_neg hobject, if_neg hobject, List.append_nil, spanRun_clear hle fun _ => hn, Nat.zero_add]

theorem spanRest_eq_none_iff (env : Env) (w : Window) (off len : Nat) (h : Hub) :
    spanRest off len (spanOf env w off len h) = none ↔ (spanOf env w off len h).reason = 0 := by
  unfold spanRest
  rcases spanRun_reason _ _ _ env.bursts off 0 with hr | hr | hr <;>
    · change (spanOf env w off len h).reason = _ at hr
      simp [hr]

theorem spanReply_status (h : Hub) (w : Window) (off : Nat) (x : Span) :
    ((spanReply h w off x).status = rOk ↔ x.reason = 0) ∧ ((spanReply h w off x).status = rOk ∨ (spanReply h w off x).status = rPartial) := by
  unfold spanReply
  by_cases h0 : x.reason = 0
  · simp [h0]
  · simp [h0, rOk, rPartial]

theorem spanReply_not_pending (h : Hub) (w : Window) (off : Nat) (x : Span) : ((spanReply h w off x).status == rPending) = false := by
  rcases (spanReply_status h w off x).2 with hs | hs <;> rw [hs] <;> rfl

theorem spanReply_whole (h : Hub) (w : Window) (off len next : Nat) :
    spanReply h w off ⟨len, 0, next⟩ = answer rOk (leNat 4 len ++ zeros 4 ++ windowBytes h w off len) := by
  simp only [spanReply, answer, zeros_eq, List.append_assoc]
  rfl

/-- The whole span arrives, and nothing is left to resume. -/
theorem serveSpan_whole {env : Env} {w : Window} {off len : Nat} (hdog : env.watchdog = false) (hw : w.revoked = false)
    (hrev : env.revoked = none) (hbad : env.bad = []) (hobject : w.object ≠ 2) (hn : off + len ≤ (off / 256 + env.bursts) * 256) (i : Nat)
    (h : Hub) :
    serveSpan env i w off len h =
      (answer rOk (leNat 4 len ++ zeros 4 ++ windowBytes h w off len), { h with windows := h.windows.set i { w with rest := none } }) := by
  have hcut := cut_of_none hrev w off (off + len)
  have hspan : spanOf env w off len h = ⟨len, 0, off + len⟩ := by
    rw [spanOf_clear hbad hobject (by omega) (by omega), hcut, Nat.add_sub_cancel_left]
  rw [serveSpan_ended hdog hw (spanOf_ended hcut), hspan, spanReply_whole]
  rfl

/-- A transfer's own bursts, or a revocation that meets it. -/
theorem serveSpan_cases {env : Env} {w : Window} {off len : Nat} {h : Hub} (hdog : env.watchdog = false) (hw : w.revoked = false) (i : Nat) :
    (∃ rest, serveSpan env i w off len h =
      (spanReply h w off (spanOf env w off len h), { h with windows := h.windows.set i { w with rest := rest } })) ∨
    (w.object < 2 ∧ ∃ done < len, serveSpan env i w off len h =
      (spanReply h w off ⟨done, 1, (spanOf env w off len h).next⟩,
        { h with windows := h.windows.set i { revokeWindow w with rest := none } })) := by
  by_cases hhit : (spanOf env w off len h).reason = 0 ∧ (spanOf env w off len h).next < off + len
  · obtain ⟨h0, hlt⟩ := hhit
    have hobject : w.object < 2 := by
      by_contra hge
      exact absurd (spanOf_ended (cut_of_object hge env off _) h0) (Nat.not_le.mpr hlt)
    have hcount : (spanOf env w off len h).done + off = 0 + (spanOf env w off len h).next := (spanRun_reached h0).2
    exact .inr ⟨hobject, (spanOf env w off len h).done, by omega, serveSpan_hit hdog hw h0 hlt i⟩
  · exact .inl ⟨_, serveSpan_ended hdog hw (fun h0 => Nat.le_of_not_lt fun hlt => hhit ⟨h0, hlt⟩) i⟩

theorem needWindow_ok {c : Ctx} {h : Hub} {w : Window} (hw : h.windows.getD (pf c 0 1) {} = w) (ho : w.isOpen = true)
    (hm : w.mailbox = c.req.mailbox) : needWindow c h = .ok (pf c 0 1, w) := by
  subst hw
  exact ok_bind (needState_ok (by rw [ho, hm, beq_self_eq_true]; rfl)) rfl

/-- Settles O23: each command's checks pass; a TRANSFER's outcomes are those of `serveSpan`. -/
theorem windowCommands : Obligations.WindowCommands := by
  intro r s env g w
  refine ⟨?open_, ?close, ?transfer, ?resume⟩
  case open_ =>
    intro w i a hl hz hfree hexists sized g' hbudget
    have hrate : (if w.rate = 0 then none else budgetFault g' g.time.tick) = none := by
      by_cases h0 : w.rate = 0
      · exact if_pos h0
      · exact (if_neg h0).trans (hbudget h0)
    refine exec_of_answered rfl a <| ok_bind (needLen_ok hl) <| ok_bind (needZero_ok hz) ?_
    extract_lets
    split
    next hnone => exact absurd (hnone.symm.trans hfree) nofun
    next j hj =>
      cases hj.symm.trans hfree
      exact ok_bind (needArg_ok hexists) <| ok_bind (needBudget_ok hrate) rfl
  case close =>
    intro a hl ho hm
    exact exec_of_answered rfl a <| ok_bind (needLen_ok hl) <| ok_bind (needWindow_ok rfl ho hm) rfl
  case transfer =>
    intro off len a hl hz ho hm hrev hoff hlen h4 h4064 hend
    let i := fieldAt r.payload 0 1
    have hpasses : cmdTransfer { code := 0x0880, req := r, env := env } g = .ok (serveSpan env i w off len g) :=
      ok_bind (needLen_ok hl) <| ok_bind (needZero_ok hz) <| ok_bind (needWindow_ok rfl ho hm) <|
        ok_bind (needState_ok (show (!w.revoked) = true by rw [hrev]; rfl)) <| ok_bind (needArg_ok (decide_eq_true hoff)) <|
        ok_bind (needArg_ok (by simp only [Bool.and_eq_true, decide_eq_true_eq]; exact ⟨⟨hlen, h4⟩, h4064⟩)) <|
        ok_bind (needArg_ok (decide_eq_true hend)) rfl
    refine ⟨fun hdog => ?_, fun hdog hnone => ?_, fun hdog k hk => ?_, fun hdog hbad hobject hn k hk => ?_, fun hdog hnone hbad hobject hn => ?_⟩
    · rw [serveSpan_watchdog hdog hrev] at hpasses
      exact exec_of_answered rfl a hpasses
    · rw [serveSpan_ended hdog hrev (spanOf_ended (cut_of_none hnone ..))] at hpasses
      obtain ⟨hok, hstatus⟩ := spanReply_status g w off (spanOf env w off len g)
      exact ⟨_, _, exec_of_answered rfl a hpasses (spanReply_not_pending ..), hok.trans (spanRest_eq_none_iff ..).symm, hstatus⟩
    · rcases serveSpan_cases (off := off) (len := len) (h := g) hdog hrev i with ⟨rest, hserve⟩ | ⟨hobject, done, hdone, hserve⟩
      · rw [hserve] at hpasses
        exact ⟨_, _, exec_of_answered rfl a hpasses (spanReply_not_pending ..), (spanReply_status ..).2, .inl rfl⟩
      · rw [hserve] at hpasses
        refine ⟨_, _, exec_of_answered rfl a hpasses (spanReply_not_pending ..), (spanReply_status ..).2, .inr ⟨hobject, rfl, rfl, ?_, ?_⟩⟩
        · simp only [spanReply, List.append_assoc]
          exact (fieldAt_behind (leNat_length ..) (leNat_length ..)).trans (ofLe_leNat ..)
        · refine lt_of_le_of_lt ?_ hdone
          simp only [spanReply, List.append_assoc]
          exact (fieldAt_parts (ps := [(4, done)]) (k := 0) rfl rfl _).trans_le (Nat.mod_le ..)
    · intro stop hlt
      have hoffstop : off ≤ stop := by
        change off ≤ if k = 0 then off else (off / 256 + k) * 256
        split <;> omega
      have hcut : serveSpan.cut env w off (off + len) = stop := by
        simp only [serveSpan.cut, hk, if_pos hobject]
        exact min_eq_right hlt.le
      have hspan := spanOf_clear (len := len) hbad (show w.object ≠ 2 by omega) (by rw [hcut]; exact hoffstop) (by rw [hcut]; omega) g
      rw [hcut] at hspan
      rw [serveSpan_hit hdog hrev (by rw [hspan]) (by rw [hspan]; exact hlt), hspan] at hpasses
      exact exec_of_answered rfl a hpasses
    · rw [serveSpan_whole hdog hrev hnone hbad hobject (by omega)] at hpasses
      exact exec_of_answered rfl a hpasses
  case resume =>
    intro off len a hl ho hm hrest hdog hnone
    have hpasses : cmdResumeTransfer { code := 0x0881, req := r, env := env } g = .ok (serveSpan env (fieldAt r.payload 0 1) w off len g) := by
      refine ok_bind (needLen_ok hl) <| ok_bind (needWindow_ok (w := w) rfl ho hm) ?_
      rw [hrest]
      rfl
    by_cases hrev : w.revoked = true
    · rw [serveSpan_revoked hrev] at hpasses
      exact ⟨_, none, exec_of_answered rfl a hpasses (spanReply_not_pending ..), fun _ _ hw => absurd (hrev.symm.trans hw) nofun⟩
    · rw [Bool.not_eq_true] at hrev
      by_cases hfull : env.bad = [] ∧ w.object ≠ 2 ∧ len / 256 + 2 ≤ env.bursts
      · obtain ⟨hbad, hobject, hn⟩ := hfull
        rw [serveSpan_whole hdog hrev hnone hbad hobject (by omega)] at hpasses
        exact ⟨_, none, exec_of_answered rfl a hpasses, fun _ _ _ _ => ⟨rfl, rfl⟩⟩
      · rw [serveSpan_ended hdog hrev (spanOf_ended (cut_of_none hnone ..))] at hpasses
        exact ⟨_, _, exec_of_answered rfl a hpasses (spanReply_not_pending ..), fun hbad hobject _ hn => absurd ⟨hbad, hobject, hn⟩ hfull⟩

end Sys2Proof.Machine
end

