-- ==== Sys2Proof/Proofs/LifeCommands.lean ====
section
/-! PROOFS. The commands of group 0x0B: life cycle, keys, firmware, RESET (13 R329 to R335, 14 R365, R366, 17 R428, R429). -/

namespace Sys2Proof.Machine

/-! ## What journaling leaves of the flash (15 R393) -/

theorem programOne_flash (h : Hub) : (programOne h).flash =
    { h.flash with journal := (programOne h).flash.journal, ctrCheckpoint := (programOne h).flash.ctrCheckpoint } := by
  unfold programOne
  split
  · rfl
  · dsimp only
    split <;> rfl

theorem programFuel_flash (n : Nat) (h : Hub) : (programFuel n h).flash =
    { h.flash with journal := (programFuel n h).flash.journal, ctrCheckpoint := (programFuel n h).flash.ctrCheckpoint } := by
  induction n generalizing h with
  | zero => rfl
  | succ n ih =>
    rw [programFuel, ih, programOne_flash]

theorem programAll_flash (h : Hub) : (programAll h).flash =
    { h.flash with journal := (programAll h).flash.journal, ctrCheckpoint := (programAll h).flash.ctrCheckpoint } := by
  unfold programAll
  split
  · rfl
  · exact programFuel_flash ..

theorem queueRec_flash (r : JRec) (h : Hub) : (queueRec r h).flash =
    { h.flash with journal := (queueRec r h).flash.journal, ctrCheckpoint := (queueRec r h).flash.ctrCheckpoint
                   nextIndex := (queueRec r h).flash.nextIndex } := by
  unfold queueRec
  dsimp only
  split
  · rfl
  · exact congrArg (fun f : Flash => { f with nextIndex := (programOne h).flash.nextIndex + 1 }) (programOne_flash h)

theorem changeRec_flash (r : Req) (code : Nat) (detail : Bytes) (h : Hub) : (changeRec r code detail h).flash =
    { h.flash with journal := (changeRec r code detail h).flash.journal, ctrCheckpoint := (changeRec r code detail h).flash.ctrCheckpoint
                   nextIndex := (changeRec r code detail h).flash.nextIndex } := by
  rw [changeRec, programAll_flash, queueRec_flash]

theorem custodyOpen_changeRec (r : Req) (code : Nat) (detail : Bytes) (h : Hub) : custodyOpen (changeRec r code detail h) = custodyOpen h := by
  have hlife : (changeRec r code detail h).flash.lifecycle = h.flash.lifecycle := by rw [changeRec_flash]
  have hpower : (changeRec r code detail h).power = h.power := (programAll_power _).trans (queueRec_power ..)
  have htime : (changeRec r code detail h).time = h.time := (programAll_time _).trans (queueRec_time ..)
  have hpair : (changeRec r code detail h).pair = h.pair := (programAll_pair _).trans (queueRec_pair ..)
  have hstream : (changeRec r code detail h).stream = h.stream := (programAll_stream _).trans (queueRec_stream ..)
  simp only [custodyOpen, isActive, isUp, notInCustody, hlife, hpower, htime, hpair, hstream]

/-! ## A command that its own step 7 refuses (13 R324) -/

theorem exec_of_refused {i : Instr} {code : Nat} {cmd : Cmd} {env : Env} {r : Req} {s : State} {p : Reply}
    (hrow : commandRow i = some (code, cmd, env, r)) (a : Admitted code r s)
    (hcmd : cmd { code := code, req := r, env := env } (atStep7 r s) = .error p) (hp : p.reset = none) :
    exec i s = .next (refusedBy code r s p) :=
  refusalsInOrder.1 i s code cmd env r p hrow a hcmd hp

theorem error_bind {α β : Type} {x : Except Reply α} {p : Reply} (hx : x = .error p) (f : α → Except Reply β) : (x >>= f) = .error p := by
  subst hx
  rfl

theorem needArg_error {off : Nat} {b : Bool} (h : b = false) : needArg off b = .error (refuseAt rArgument off 0xFFFF) := by
  subst h
  rfl

theorem needState_error {b : Bool} (h : b = false) : needState b = .error (refuse rState) := by
  subst h
  rfl

/-! ## FORCE (17 R428, R429) -/

/-- What FORCE comes to: a drain where records are outside custody and the code is 1, otherwise the reset. -/
theorem startReset_eq (kind cause force : Nat) (target : Option LifeCycle) (h : Hub) :
    startReset kind cause force target h =
      ({ reset := if custodyOpen h = true ∧ force = 1 then none
           else some { kind := kind, cause := cause, force := if custodyOpen h then force else 0, target := target } },
        if custodyOpen h = true ∧ force = 1 then
          { h with
            power.phase := .draining
            power.drain := some { tick := (h.power.drain.map (·.tick)).getD h.time.tick, cause := cause, kind := kind, target := target } }
        else h) := by
  unfold startReset
  by_cases hd : custodyOpen h = true ∧ force = 1
  · rw [if_pos (by simp [hd]), if_pos hd, if_pos hd]
  · rw [if_neg (by simpa using hd), if_neg hd, if_neg hd]

section
variable {code : Nat} {new : LifeCycle} {env : Env} {r : Req}

theorem transition_unknown_force (hl : r.payload.length = 1) (hf : 3 ≤ fieldAt r.payload 0 1) (h : Hub) :
    transition new { code := code, req := r, env := env } h = .error (refuseAt 0x24 0 0xFFFF) :=
  ok_bind (needLen_ok hl) (error_bind (needArg_error (decide_eq_false (Nat.not_lt.mpr hf))) _)

theorem transition_without_force {h : Hub} (hl : r.payload.length = 1) (hf : fieldAt r.payload 0 1 = 0) (ho : custodyOpen h = true) :
    transition new { code := code, req := r, env := env } h = .error (refuse 0x25) := by
  refine ok_bind (needLen_ok hl) <| ok_bind (needArg_ok (decide_eq_true ?_)) <| error_bind (needState_error ?_) _
  · change fieldAt r.payload 0 1 < 3
    omega
  · change (decide (fieldAt r.payload 0 1 ≠ 0) || !custodyOpen h) = false
    simp [hf, ho]

theorem force_allowed {force : Nat} {h : Hub} (hc : custodyOpen h = true → force ≠ 0) : (decide (force ≠ 0) || !custodyOpen h) = true := by
  by_cases ho : custodyOpen h = true
  · simp [hc ho]
  · simp [ho]

/-- A transition that passes: its record, then the drain or the reset. -/
theorem transition_ok {h : Hub} (hl : r.payload.length = 1) (hf : fieldAt r.payload 0 1 < 3)
    (hc : custodyOpen h = true → fieldAt r.payload 0 1 ≠ 0) :
    let force := fieldAt r.payload 0 1
    let drains := custodyOpen h = true ∧ force = 1
    let g := changeRec r 0x3003 (leNat 1 (lifeCode h.flash.lifecycle) ++ leNat 1 (lifeCode new) ++ leNat 1 force) h
    transition new { code := code, req := r, env := env } h =
      .ok ({ ownRecord := true
             reset := if drains then none
               else some { kind := 0, cause := 1, force := if custodyOpen h then force else 0, target := some new } },
        if drains then
          { g with
            power.phase := .draining
            power.drain := some { tick := (h.power.drain.map (·.tick)).getD h.time.tick, cause := 1, kind := 0, target := some new } }
        else g) := by
  intro force drains g
  have hopen : custodyOpen g = custodyOpen h := custodyOpen_changeRec ..
  have hdrain : g.power.drain = h.power.drain := congrArg Power.drain ((programAll_power _).trans (queueRec_power ..))
  have htick : g.time.tick = h.time.tick := congrArg TimeSt.tick ((programAll_time _).trans (queueRec_time ..))
  have hstart := startReset_eq 0 1 force (some new) g
  rw [hopen, hdrain, htick] at hstart
  refine ok_bind (needLen_ok hl) <| ok_bind (needArg_ok (decide_eq_true hf)) <| ok_bind (needState_ok (force_allowed hc)) ?_
  exact congrArg (fun x : Reply × Hub => Except.ok ({ x.1 with ownRecord := true }, x.2)) hstart

end

/-- Settles O28: the refusals of FORCE, then the drain or the reset. -/
theorem forceCodes : Obligations.ForceCodes := by
  intro r s g
  refine ⟨fun a hl hkind => ⟨fun hf => ?_, fun hf ho => ?_⟩, fun hl hf => ?unknown, fun hl hf ho => ?without, ?leave, ?reset⟩
  · exact exec_of_refused (i := .reset r) rfl a (ok_bind (needLen_ok hl) <| ok_bind (needArg_ok (decide_eq_true hkind)) <|
      error_bind (needArg_error (decide_eq_false (Nat.not_lt.mpr hf))) _) rfl
  · refine exec_of_refused (i := .reset r) rfl a (ok_bind (needLen_ok hl) <| ok_bind (needArg_ok (decide_eq_true hkind)) <|
      ok_bind (needArg_ok (decide_eq_true ?_)) <| error_bind (needState_error ?_) _) rfl
    · change fieldAt r.payload 1 1 < 3
      omega
    · change (decide (fieldAt r.payload 1 1 ≠ 0) || !custodyOpen g) = false
      simp [hf, ho]
  case unknown =>
    exact ⟨fun a => exec_of_refused (i := .enterMaintenance r) rfl a (transition_unknown_force hl hf _) rfl,
      fun a => exec_of_refused (i := .exitMaintenance r) rfl a (transition_unknown_force hl hf _) rfl,
      fun a => exec_of_refused (i := .decommission r) rfl a (transition_unknown_force hl hf _) rfl⟩
  case without =>
    exact ⟨fun a => exec_of_refused (i := .enterMaintenance r) rfl a (transition_without_force hl hf ho) rfl,
      fun a => exec_of_refused (i := .exitMaintenance r) rfl a (transition_without_force hl hf ho) rfl,
      fun a => exec_of_refused (i := .decommission r) rfl a (transition_without_force hl hf ho) rfl⟩
  case leave =>
    intro force drains leave hl hf hc
    exact ⟨fun a => exec_of_answered (i := .enterMaintenance r) rfl a (transition_ok hl hf hc),
      fun a => exec_of_answered (i := .exitMaintenance r) rfl a (transition_ok hl hf hc),
      fun a => exec_of_answered (i := .decommission r) rfl a (transition_ok hl hf hc)⟩
  case reset =>
    intro kind force drains a hl hkind hf hc
    refine exec_of_answered (i := .reset r) rfl a <| ok_bind (needLen_ok hl) <| ok_bind (needArg_ok (decide_eq_true hkind)) <|
      ok_bind (needArg_ok (decide_eq_true hf)) <| ok_bind (needState_ok (force_allowed hc)) ?_
    exact congrArg (fun x : Reply × Hub => Except.ok ({ x.1 with args := leNat 1 kind ++ leNat 1 force }, x.2)) (startReset_eq kind 0 force none g)

/-! ## Wrapped keys (13 R329) -/

theorem needWrapped_ok {c : Ctx} {off : Nat} {w : Bytes} {stored : BitVec 32} {k : Bytes} (hk : (c.req.payload.drop off).take 72 = k)
    (hz : fieldAt k 1 1 = 0) (hw : wrapOk w k = true) (hg : stored.toNat < fieldAt k 4 4) : needWrapped c off w stored = .ok k := by
  subst hk
  refine ok_bind (needArg_ok (decide_eq_true hz)) <| (if_neg ?_).trans <| (if_neg (Nat.not_le.mpr hg)).trans rfl
  rw [hw]
  exact Bool.false_ne_true

/-- Settles O26, command by command. -/
theorem provisioningAndKeyCommands : Obligations.ProvisioningAndKeyCommands := by
  refine ⟨fun r s => ⟨?provision, ?commission⟩, fun r s => ⟨?load, ?erase⟩⟩
  case provision =>
    intro k a hl hid hz h0 hk1 hw hg rec_
    exact exec_of_answered rfl a <| ok_bind (needLen_ok hl) <| ok_bind (needArg_ok (decide_eq_true hid)) <| ok_bind (needZero_ok hz) <|
      ok_bind (needArg_ok (decide_eq_true h0)) <| ok_bind (needWrapped_ok rfl hk1 hw hg) rfl
  case commission =>
    intro a hl hv hb
    exact exec_of_answered rfl a <| ok_bind (needLen_nil hl) <| ok_bind (needState_ok hv) <| ok_bind (needBudget_ok hb) rfl
  case load =>
    intro w a hl hs hkey h1 hw hg
    have hwhole : ((r.payload.drop 0).take 72) = r.payload := List.take_of_length_le hl.le
    refine exec_of_answered rfl a <| ok_bind (needLen_ok hl) <| ok_bind (needArg_ok (decide_eq_true hs)) ?_
    have hkey' : (slotAt (atStep7 r s) 0).key.getD [] = w := by rw [hkey]; rfl
    rw [hkey']
    exact ok_bind (needWrapped_ok (k := r.payload) hwhole h1 hw hg) rfl
  case erase =>
    intro a hl h1 h7
    exact exec_of_answered rfl a <| ok_bind (needLen_ok hl) <| ok_bind (needArg_ok (by simp [pf, h1, h7])) rfl

/-- Settles O27, command by command. -/
theorem firmwareCommands : Obligations.FirmwareCommands := by
  intro r s g
  refine ⟨?load, ?verify, ?install, ?activate⟩
  case load =>
    intro off n a h1 hn hz hfit
    refine exec_of_answered rfl a <| (if_neg ?_).trans <| ok_bind (needZero_ok hz) <| ok_bind (needArg_ok (decide_eq_true hfit)) rfl
    change ¬(r.payload.length < 9 ∨ 4096 < r.payload.length)
    have hlen : n = r.payload.length - 8 := rfl
    omega
  case verify =>
    intro a hl hv hi hroom
    exact exec_of_pending rfl a (ok_bind (needLen_nil hl) <| ok_bind (needRoom_ok (by rw [hv, hi]; rfl)) rfl) hroom
  case install =>
    intro a hl hver hv hi hroom
    have hpasses := fun {x : Reply × Hub} (hx : _ = Except.ok x) =>
      show cmdFwInstall { code := 0x0B09, req := r } g = .ok x from
      ok_bind (needLen_nil hl) <| ok_bind (needState_ok hver) <| ok_bind (needRoom_ok (by rw [hv, hi]; rfl)) hx
    refine exec_of_pending rfl a (hpasses (congrArg (fun x : Hub => Except.ok (_, x)) ?_)) hroom
    by_cases h0 : g.flash.running = 0
    · simp [setOther, imageOf, h0]
    · have hother : 1 - g.flash.running = 0 := by omega
      simp [setOther, imageOf, h0, hother]
  case activate =>
    intro other a hl h2 hinst
    exact exec_of_answered rfl a <| ok_bind (needLen_ok hl) <| ok_bind (needArg_ok (decide_eq_true h2)) <| ok_bind (needState_ok hinst) rfl

end Sys2Proof.Machine
end

