-- ==== Sys2Proof/Proofs/Occurrences.lean ====
section
/-! PROOFS. Occurrences: a raise of a source that stands, the raises of FAULT_RAISE, the end of an occurrence (15 R372, R385 to R390, 09
R223). -/

namespace Sys2Proof.Machine

/-! ## A raise again of what stands (15 R390) -/

theorem key_ne {a b n i : Nat} (hne : (a, b) ≠ (n, i)) : (n == a && i == b) = false := by
  rw [Bool.and_eq_false_iff, beq_eq_false_iff_ne, beq_eq_false_iff_ne]
  by_contra hsame
  simp only [not_or, not_not] at hsame
  exact hne (Prod.ext hsame.1.symm hsame.2.symm)

/-- Other sources stand as they stood. -/
theorem asserted_raiseFault_ne {r : Raise} {a b : Nat} (hne : (a, b) ≠ (r.source, r.inst)) (once : Bool) (h : Hub) :
    asserted (raiseFault r once h) a b = asserted h a b := by
  obtain ⟨o, hsource, hinst, -, hocc | ⟨-, hocc⟩⟩ := raiseFault_occ r once h
  · rw [asserted, asserted, hocc, List.any_append, List.any_cons, List.any_nil, hsource, hinst, key_ne hne, Bool.false_and, Bool.or_false,
      Bool.or_false]
  · rw [asserted, asserted, hocc, List.any_map]
    congr 1
    funext x
    dsimp only [Function.comp]
    by_cases hx : (x.source == r.source && x.inst == r.inst) = true
    · rw [if_pos hx]
      simp only [Bool.and_eq_true, beq_iff_eq] at hx
      rw [hsource, hinst, hx.1, hx.2, key_ne hne, Bool.false_and, Bool.false_and]
    · rw [if_neg hx]

theorem enqueueRaise_length_of_waiting {r : Raise} {h : Hub} (hw : ∃ x ∈ h.faults.queue, x.source = r.source ∧ x.inst = r.inst) :
    (enqueueRaise r h).faults.queue.length = h.faults.queue.length := by
  have hany : (h.faults.queue.any fun x => x.source == r.source && x.inst == r.inst) = true := by simpa using hw
  rw [enqueueRaise, if_pos hany]
  exact List.length_map ..

/-- A raise of an occurrence that stands and waits joins the raise that waits. -/
theorem raiseFault_length_of_waiting {r : Raise} {h : Hub} (ho : ∃ o ∈ h.faults.occ, o.source = r.source ∧ o.inst = r.inst)
    (hw : ∃ x ∈ h.faults.queue, x.source = r.source ∧ x.inst = r.inst) (once : Bool) :
    (raiseFault r once h).faults.queue.length = h.faults.queue.length := by
  unfold raiseFault
  split
  case h_1 o _ =>
    have hagain (g : Hub) (hg : g.faults.queue = h.faults.queue) :
        ∃ x ∈ (holdsAgain r.source r.inst g).faults.queue, x.source = r.source ∧ x.inst = r.inst := by
      obtain ⟨x, hx, hkey⟩ := hw
      exact ⟨{ x with ended := none }, List.mem_map.mpr ⟨x, hg.symm ▸ hx, by simp [hkey]⟩, hkey⟩
    dsimp only
    cases o.cleared <;> cases o.handled <;> simp only [Bool.false_eq_true, if_true, if_false]
    · exact enqueueRaise_length_of_waiting hw
    · refine (enqueueRaise_length_of_waiting ?_).trans (List.length_map ..)
      exact hagain _ rfl
    · exact List.length_map ..
  case h_2 hnone =>
    obtain ⟨o, hmem, hkey⟩ := ho
    exact absurd hkey (by simpa using List.find?_eq_none.mp hnone o hmem)

/-- A fresh source of any kind begins to hold; a SWITCH_FAULT marks its switch too. -/
theorem raiseFault_of_fresh_noted {source inst : Nat} {h : Hub} (hf : Fresh source inst h) (start capture : Inst) (detail : BitVec 64)
    (once : Bool) :
    let r : Raise := { source := source, inst := inst, start := start, capture := capture, detail := detail }
    raiseFault r once h = raised source inst start capture detail once (noteSwitch r h) := by
  intro r
  obtain ⟨hocc, hqueue, hroom, hown⟩ := hf
  have hnone : h.faults.occ.find? (fun o => o.source == r.source && o.inst == r.inst) = none := by
    simpa [List.find?_eq_none] using hocc
  have hfaults := noteSwitch_faults r h
  have htime : (noteSwitch r h).time = h.time := by rw [noteSwitch_frame]
  have hcfg : (noteSwitch r h).cfg = h.cfg := by rw [noteSwitch_frame]
  simp only [raiseFault, hnone, raised, hfaults, htime, hcfg]
  exact enqueueRaise_of_fresh hqueue hroom hown

/-! ## FAULT_RAISE (15 R385 to R387) -/

/-- A raise of a source that is no outlet's and does not merge. -/
theorem exec_faultRaise {s : State} {source inst dt : Nat} {detail : BitVec 64} (hok : instOk source inst = true)
    (hscope : (sourceOf source).map (·.inst) = some .channel → measuring s.hub inst = true) (hout : source < 0x80 ∨ 0x82 < source)
    (hself : source = 0x124 → s.hub.cfg.selfMerge = false) :
    let r : Raise := { source := source, inst := inst, start := instAt s.hub dt, capture := instAt s.hub dt, detail := detail }
    let g := if source = 0x72 ∨ source = 0x73 then { s.hub with stream.badBodies := s.hub.stream.badBodies + 1 } else s.hub
    exec (.faultRaise source inst false detail dt) s = .next { s with hub := raiseFault r false g } := by
  intro r g
  have hmeasures : (match (sourceOf source).map (·.inst) with
      | some .channel => measuring s.hub inst
      | _ => true) = true := by
    split
    next hs => exact hscope hs
    next => rfl
  have hplain : ¬(0x80 ≤ source ∧ source ≤ 0x82 ∧ (!false) = true) := by omega
  have honce : decide (0x80 ≤ source ∧ source ≤ 0x82) = false := decide_eq_false (by omega)
  have hmerge (g : Hub) (hg : g.cfg = s.hub.cfg) (r : Raise) (hr : r.source = source) : raiseOrMerge r false g = raiseFault r false g :=
    if_neg fun hm => absurd (hm.2.symm.trans (hg ▸ hself (hr ▸ hm.1))) Bool.true_eq_false.mp
  refine (if_pos ((Bool.and_eq_true ..).mpr ⟨hok, hmeasures⟩)).trans ?_
  rw [if_neg hplain, honce]
  by_cases hbody : source = 0x72 ∨ source = 0x73
  · rw [if_pos ⟨hbody, rfl⟩, show g = { s.hub with stream.badBodies := s.hub.stream.badBodies + 1 } from if_pos hbody]
    exact congrArg (fun g => Host.Outcome.next { s with hub := g })
      (hmerge { s.hub with stream.badBodies := s.hub.stream.badBodies + 1 } rfl r rfl)
  · rw [if_neg (fun hb => hbody hb.1), show g = s.hub from if_neg hbody]
    exact congrArg (fun g => Host.Outcome.next { s with hub := g }) (hmerge _ rfl r rfl)

/-- What an error of the collector's own that merges leaves (15 R387). -/
theorem mergeNewest_frame (source inst : Nat) (h : Hub) : ∃ q e, q.length = h.faults.queue.length ∧
    mergeNewest source inst h = { h with faults.queue := q, faults.history := e } := by
  unfold mergeNewest
  split
  · exact ⟨_, _, List.length_modify .., rfl⟩
  · exact ⟨_, _, rfl, rfl⟩

/-! ## OUTLET_OVERRUN (09 R223) -/

theorem repairFuel_outlets (gone : List Rec) (n : Nat) (work : List (Nat × Nat)) (h : Hub) :
    (repairFuel gone n work h).outlets = h.outlets := by
  induction n generalizing work h with
  | zero => rfl
  | succ n ih =>
    match work with
    | [] => rfl
    | (c, seq) :: more =>
      simp only [repairFuel]
      split
      · exact ih ..
      · exact ih ..
      · split
        · exact ih ..
        · exact ih ..
      · exact ih ..

theorem withdraw_outlets (reason : Nat) (sel : Held → Bool) (h : Hub) : (withdraw reason sel h).outlets = h.outlets := by
  unfold withdraw
  extract_lets gone g g'
  split
  · rfl
  · exact repairFuel_outlets ..

theorem fifoOverrun_overrun (f : Fifo) : (fifoOverrun f).overrun = true := by
  unfold fifoOverrun
  split <;> rfl

/-- A FIFO is marked with its overrun. -/
def marked (o : Nat) (s : State) : Prop :=
  (if o = 0 then s.hub.outlets.lane else if o = 1 then s.hub.outlets.eth else s.host.fifo).overrun = true

/-- The overrun of an outlet marks its FIFO; the withdrawal of the record that was being written touches no FIFO. -/
theorem marked_outletOverrun {o : Nat} (ho : o ≤ 2) (s : State) : marked o (outletOverrun o s) := by
  have hcut (cut : Option Nat) (g : State) (hg : marked o g) : marked o (match cut with
      | some q =>
        if custodyOutlet g.hub = o then { g with hub := withdraw 2 (fun x => x.record.seq == q && droppable x.record) g.hub } else g
      | none => g) := by
    cases cut with
    | none => exact hg
    | some q => exact iteInduction (fun _ => by simpa only [marked, withdraw_outlets] using hg) fun _ => hg
  match o with
  | 0 | 1 | 2 => exact hcut _ _ (fifoOverrun_overrun _)

/-- FAULT_RAISE of an OUTLET_OVERRUN. -/
theorem exec_faultRaise_outlet {o : Nat} (ho : o ≤ 2) (s : State) (forced : Bool) (detail : BitVec 64) (dt : Nat) :
    exec (.faultRaise (0x80 + o) 0 forced detail dt) s =
      let g := if forced then s else outletOverrun o s
      .next { g with hub := raiseFault { source := 0x80 + o, inst := 0, start := instAt s.hub dt, capture := instAt s.hub dt
                                         forced := forced, real := !forced, detail := detail } true g.hub } := by
  match o with
  | 0 | 1 | 2 => cases forced <;> rfl

/-! ## The end of an occurrence (15 R372, R389) -/

theorem clearOcc_parts (source inst : Nat) (at_ : Inst) (h : Hub) :
    clearOcc source inst at_ h = { h with
      faults.occ := (clearOcc source inst at_ h).faults.occ
      faults.queue := (clearOcc source inst at_ h).faults.queue
      faults.eclipse := (clearOcc source inst at_ h).faults.eclipse } := by
  unfold clearOcc
  split <;> rfl

theorem asserted_clearOcc_forced {source inst : Nat} {h : Hub} (hforce : h.faults.force.contains (source, inst, true) = true) (at_ : Inst)
    (a b : Nat) : asserted (clearOcc source inst at_ h) a b = asserted h a b := by
  rw [clearOcc, if_pos hforce, asserted, asserted, List.any_map]
  congr 1
  funext x
  dsimp only [Function.comp]
  split <;> rfl

theorem asserted_clearOcc_ne {source inst a b : Nat} (hne : (a, b) ≠ (source, inst)) (at_ : Inst) (h : Hub) :
    asserted (clearOcc source inst at_ h) a b = asserted h a b := by
  by_cases hforce : h.faults.force.contains (source, inst, true) = true
  · exact asserted_clearOcc_forced hforce at_ a b
  · rw [clearOcc, if_neg hforce, asserted, asserted, List.any_map]
    congr 1
    funext x
    dsimp only [Function.comp]
    by_cases hx : (x.source == source && x.inst == inst) = true
    · rw [if_pos hx]
      simp only [Bool.and_eq_true, beq_iff_eq] at hx
      rw [hx.1, hx.2, key_ne hne, Bool.false_and, Bool.false_and]
    · rw [if_neg hx]

/-- Settles O31: the raise of a fresh source and of one that waits, the merge, the outlets, the end. -/
theorem occurrencesRaiseOnceAndClear : Obligations.OccurrencesRaiseOnceAndClear := by
  intro s source inst dt detail h at'
  refine ⟨fun hok hscope hout hself => ⟨fun hf => ?fresh, ?again⟩, fun hinst hmerge forced => ?merge, fun forced ho => ?outlet, ?ends⟩
  case fresh =>
    intro r g
    have hfresh : Fresh source inst g := by
      change Fresh source inst (if source = 0x72 ∨ source = 0x73 then { h with stream.badBodies := h.stream.badBodies + 1 } else h)
      split <;> exact hf
    exact (exec_faultRaise hok hscope hout hself).trans
      (congrArg (fun x => Host.Outcome.next { s with hub := x }) (raiseFault_of_fresh_noted hfresh ..))
  case again =>
    let g := if source = 0x72 ∨ source = 0x73 then { h with stream.badBodies := h.stream.badBodies + 1 } else h
    have hfaults : g.faults = h.faults := by
      change (if source = 0x72 ∨ source = 0x73 then { h with stream.badBodies := h.stream.badBodies + 1 } else h).faults = h.faults
      split <;> rfl
    refine ⟨_, exec_faultRaise hok hscope hout hself, asserted_raiseFault_same .., fun ho hw => ?_, fun a b hne => ?_⟩
    · have hlen := raiseFault_length_of_waiting (h := g)
        (r := { source := source, inst := inst, start := at', capture := at', detail := detail }) (hfaults ▸ ho) (hfaults ▸ hw) false
      rw [hfaults] at hlen
      exact hlen
    · exact (asserted_raiseFault_ne (r := { source := source, inst := inst, start := at', capture := at', detail := detail }) hne false g).trans
        (by rw [asserted, asserted, hfaults])
  case merge =>
    obtain ⟨q, e, hlen, hframe⟩ := mergeNewest_frame 0x124 inst h
    have hok : instOk 0x124 inst = true := decide_eq_true hinst
    refine ⟨mergeNewest 0x124 inst h, (if_pos ((Bool.and_eq_true ..).mpr ⟨hok, rfl⟩)).trans ?_, ?_⟩
    · rw [if_neg (by omega), if_neg (by omega)]
      exact congrArg (hubNext s) (if_pos ⟨rfl, hmerge⟩)
    · rw [hframe]
      exact ⟨rfl, hlen, rfl⟩
  case outlet =>
    refine ⟨_, exec_faultRaise_outlet ho s forced detail dt, asserted_raiseFault_same .., fun hreal => ?_⟩
    subst hreal
    have hmarks := marked_outletOverrun ho s
    simpa only [marked, raiseFault_outlets, Bool.false_eq_true, if_false] using hmarks
  case ends =>
    refine ⟨clearOcc source inst at' h, rfl, clearOcc_parts .., fun hforce => asserted_clearOcc_same hforce at',
      fun hforce => asserted_clearOcc_forced hforce at' .., fun a b hne => asserted_clearOcc_ne hne at' h⟩

end Sys2Proof.Machine
end

