-- ==== Sys2Proof/Proofs/JournalWork.lean ====
section
/-! PROOFS. The journal: what writing it moves, and its timed work (15 R391 to R394, 13 R326). -/

namespace Sys2Proof.Machine

/-! ## What writing the journal moves -/

/-- A hub after its journal has been written: the journal's state, the flash and the windows have moved, and nothing else. -/
def JournalOnly (h g : Hub) : Prop := g = { h with flash := g.flash, jr := g.jr, windows := g.windows }

theorem JournalOnly.refl (h : Hub) : JournalOnly h h := rfl

theorem JournalOnly.trans {h g k : Hub} (hg : JournalOnly h g) (hk : JournalOnly g k) : JournalOnly h k := by
  rw [JournalOnly] at hg
  rw [hg] at hk
  exact hk

theorem journalOnly_programOne (h : Hub) : JournalOnly h (programOne h) := by
  unfold programOne
  split
  · exact .refl h
  · dsimp only
    split <;> rfl

theorem journalOnly_programFuel (n : Nat) (h : Hub) : JournalOnly h (programFuel n h) := by
  induction n generalizing h with
  | zero => exact .refl h
  | succ n ih => exact (journalOnly_programOne h).trans (ih _)

theorem journalOnly_programAll (h : Hub) : JournalOnly h (programAll h) :=
  iteInduction (fun _ => .refl h) fun _ => journalOnly_programFuel ..

theorem journalOnly_queueRec (r : JRec) (h : Hub) : JournalOnly h (queueRec r h) := by
  have hroom : JournalOnly h (if h.jr.queue.length < 1024 then h else programOne h) :=
    iteInduction (fun _ => .refl h) fun _ => journalOnly_programOne h
  exact hroom.trans rfl

theorem journalOnly_jChange (code : Nat) (detail : Bytes) (h : Hub) : JournalOnly h (jChange code detail h) :=
  (journalOnly_queueRec _ h).trans (journalOnly_programAll _)

theorem journalOnly_jLimited (r : JRec) (h : Hub) : JournalOnly h (jLimited r h) := by
  unfold jLimited
  dsimp only
  split
  · exact JournalOnly.trans (g := { h with jr.buckets := (r.code, tokens h r.code - 1) :: h.jr.buckets.filter (·.1 != r.code) }) rfl
      (journalOnly_queueRec ..)
  · split <;> rfl

theorem journalOnly_closeRun (code : Nat) (h : Hub) : JournalOnly h (closeRun code h) := by
  unfold closeRun
  split
  · exact .refl h
  · exact JournalOnly.trans (g := { h with jr.runs := h.jr.runs.filter (·.code != code) }) rfl (journalOnly_queueRec ..)

theorem journalOnly_closeRuns (h : Hub) : JournalOnly h (closeRuns h) :=
  JournalOnly.trans (List.foldlRecOn h.jr.runs _ (JournalOnly.refl h) fun _ hg r _ => hg.trans (journalOnly_closeRun r.code _))
    (journalOnly_programAll _)

/-- The flash after the journal has been written: its records, the counter checkpoint of its sector and the next number have moved. -/
def FlashJournaled (h g : Hub) : Prop :=
  g.flash = { h.flash with journal := g.flash.journal, ctrCheckpoint := g.flash.ctrCheckpoint, nextIndex := g.flash.nextIndex }

theorem FlashJournaled.refl (h : Hub) : FlashJournaled h h := rfl

theorem FlashJournaled.trans {h g k : Hub} (hg : FlashJournaled h g) (hk : FlashJournaled g k) : FlashJournaled h k := by
  rw [FlashJournaled] at hg
  rw [FlashJournaled, hg] at hk
  exact hk

theorem FlashJournaled.keys {h g : Hub} (hg : FlashJournaled h g) : g.flash.keys = h.flash.keys := by
  rw [FlashJournaled] at hg
  rw [hg]

theorem FlashJournaled.lifecycle {h g : Hub} (hg : FlashJournaled h g) : g.flash.lifecycle = h.flash.lifecycle := by
  rw [FlashJournaled] at hg
  rw [hg]

theorem flashJournaled_programAll (h : Hub) : FlashJournaled h (programAll h) := by
  rw [FlashJournaled, programAll_flash]

theorem flashJournaled_queueRec (r : JRec) (h : Hub) : FlashJournaled h (queueRec r h) := queueRec_flash r h

theorem flashJournaled_jChange (code : Nat) (detail : Bytes) (h : Hub) : FlashJournaled h (jChange code detail h) :=
  (flashJournaled_queueRec _ h).trans (flashJournaled_programAll _)

theorem flashJournaled_closeRun (code : Nat) (h : Hub) : FlashJournaled h (closeRun code h) := by
  unfold closeRun
  split
  · exact .refl h
  · exact FlashJournaled.trans (g := { h with jr.runs := h.jr.runs.filter (·.code != code) }) rfl (flashJournaled_queueRec ..)

theorem flashJournaled_closeRuns (h : Hub) : FlashJournaled h (closeRuns h) :=
  FlashJournaled.trans (List.foldlRecOn h.jr.runs _ (FlashJournaled.refl h) fun _ hg r _ => hg.trans (flashJournaled_closeRun r.code _))
    (flashJournaled_programAll _)

/-! ## Programming (15 R393) -/

theorem programOne_of_erased {h : Hub} {r : JRec} {q : List JRec} (hq : h.jr.queue = r :: q) (he : r.index < h.jr.erasedTo) :
    programOne h = { h with jr.queue := q, flash.journal := h.flash.journal ++ [r] } := by
  unfold programOne
  rw [hq]
  dsimp only
  rw [if_pos he]

/-- A record that finds room in the queue takes the next number. -/
theorem queueRec_of_room {h : Hub} (hroom : h.jr.queue.length < 1024) (r : JRec) :
    queueRec r h = { h with
      jr.queue := h.jr.queue ++ [{ r with index := h.flash.nextIndex, opSeconds := opSeconds h, powerCycles := h.flash.powerCycles
                                          epoch := h.time.epoch, tai := taiSeconds h }]
      flash.nextIndex := h.flash.nextIndex + 1 } := by
  unfold queueRec
  dsimp only
  rw [if_pos hroom]

/-! ## Tokens (15 R394) -/

/-- Buckets filled up, those that stand full then left out. -/
def filledBy (n : Nat) (bs : List (Nat × Nat)) : List (Nat × Nat) := (bs.map fun b => (b.1, b.2 + n)).filter fun b => decide (b.2 < 20)

/-- Where each code has at most one bucket, and none stands full, every bucket gains the tokens, up to 20. -/
theorem getD_find?_filledBy (n code : Nat) {bs : List (Nat × Nat)} (hlow : ∀ b ∈ bs, b.2 < 20) (hone : bs.Pairwise fun x y => x.1 ≠ y.1) :
    (((filledBy n bs).find? (·.1 == code)).map (·.2)).getD 20 = min 20 (((bs.find? (·.1 == code)).map (·.2)).getD 20 + n) := by
  induction bs with
  | nil => exact (min_eq_left (Nat.le_add_right ..)).symm
  | cons b bs ih =>
    obtain ⟨hb, hbs⟩ := List.pairwise_cons.mp hone
    have hrest := ih (fun x hx => hlow x (List.mem_cons_of_mem _ hx)) hbs
    have hcons : filledBy n (b :: bs) = if b.2 + n < 20 then (b.1, b.2 + n) :: filledBy n bs else filledBy n bs := by
      simp only [filledBy, List.map_cons, List.filter_cons, decide_eq_true_eq]
    rw [hcons]
    by_cases hcode : b.1 = code
    · have hnone : (filledBy n bs).find? (·.1 == code) = none := by
        rw [List.find?_eq_none]
        intro x hx
        obtain ⟨y, hy, rfl⟩ := List.mem_map.mp (List.mem_of_mem_filter hx)
        simpa [hcode] using (hb y hy).symm
      split
      next hlt => simpa [hcode] using hlt.le
      next hge =>
        rw [hnone]
        simpa [hcode] using Nat.le_of_not_lt hge
    · have hother : (b.1 == code) = false := beq_eq_false_iff_ne.mpr hcode
      split <;> simpa [List.find?_cons, hother] using hrest

/-- Settles O34: program, erase, refill, and the end of a suppressed run. -/
theorem journalEvents : Obligations.JournalEvents := by
  intro s hfree
  refine ⟨fun r q hq he => ?program, fun r q hq he => ?erase, ?refill, fun code run hrun hold hroom => ?suppressed⟩
  case program =>
    refine ⟨_, congrArg (hubNext s) ((if_neg (by rw [hfree]; exact Bool.false_ne_true)).trans (programOne_of_erased hq he)), rfl, rfl, rfl⟩
  case erase =>
    have hindex : ((s.hub.jr.queue.head?).map (·.index)).getD s.hub.flash.nextIndex = r.index := by rw [hq]; rfl
    have hexec : exec .journalSectorErase s = hubNext s (eraseSector r.index s.hub) := by
      have hrow : exec .journalSectorErase s =
          hubNext s (if ((s.hub.jr.queue.head?).map (·.index)).getD s.hub.flash.nextIndex < s.hub.jr.erasedTo || journalBlocked s.hub then s.hub
            else eraseSector (((s.hub.jr.queue.head?).map (·.index)).getD s.hub.flash.nextIndex) s.hub) := rfl
      rw [hrow, hindex, if_neg (by simp [hfree, he])]
    refine ⟨_, hexec, rfl, rfl, rfl, fun x => ?_⟩
    exact List.mem_filter.trans (and_congr_right fun _ => decide_eq_true_iff)
  case refill =>
    refine ⟨_, rfl, rfl, rfl, rfl, fun code hlow hone => ?_⟩
    exact getD_find?_filledBy _ code hlow hone
  case suppressed =>
    have hcode : run.code = code.toNat := by simpa using List.find?_some hrun
    have hdue : (s.hub.jr.runs.any fun r => r.code == code.toNat && decide (r.first + 60 ≤ opSeconds s.hub)) = true :=
      List.any_eq_true.mpr ⟨run, List.mem_of_find?_eq_some hrun, by simp [hcode, hold]⟩
    have hclose : closeIfOld code.toNat s.hub =
        queueRec { kind := 2, code := 0x2001, detail := leNat 2 code.toNat ++ zeros 2 ++ leNat 4 run.count ++ leNat 5 run.first ++ zeros 3 }
          { s.hub with jr.runs := s.hub.jr.runs.filter (·.code != code.toNat) } := by
      rw [closeIfOld, if_pos hdue, closeRun, hrun]
    rw [queueRec_of_room (h := { s.hub with jr.runs := s.hub.jr.runs.filter (·.code != code.toNat) }) hroom] at hclose
    exact ⟨_, _, congrArg (hubNext s) hclose, rfl, rfl, rfl, rfl, rfl, rfl⟩

end Sys2Proof.Machine
end

