-- ==== Sys2Proof/Proofs/Collector.lean ====
section
/-! PROOFS. The collector: the raise at the front of its queue, handled with LOG or RETRY, and what outlasts its persistence time (15 R373,
R384, R385). -/

namespace Sys2Proof.Machine

/-! ## What the steps of a handling keep -/

/-- What of the collector and the configuration stays. -/
structure CollectorKept (h g : Hub) : Prop where
  queue : g.faults.queue = h.faults.queue
  counts : g.faults.counts = h.faults.counts
  perm : g.faults.perm = h.faults.perm
  history : g.faults.history = h.faults.history
  chans : g.chans = h.chans
  cfg : g.cfg = h.cfg

/-- It stays, and the lanes and the record stream with it. -/
structure HubKept (h g : Hub) : Prop extends CollectorKept h g where
  lanes : g.lanes = h.lanes
  stream : g.stream = h.stream

theorem CollectorKept.trans {h g k : Hub} (hg : CollectorKept h g) (hk : CollectorKept g k) : CollectorKept h k :=
  ⟨hk.queue.trans hg.queue, hk.counts.trans hg.counts, hk.perm.trans hg.perm, hk.history.trans hg.history, hk.chans.trans hg.chans,
    hk.cfg.trans hg.cfg⟩

theorem HubKept.trans {h g k : Hub} (hg : HubKept h g) (hk : HubKept g k) : HubKept h k :=
  ⟨hg.toCollectorKept.trans hk.toCollectorKept, hk.lanes.trans hg.lanes, hk.stream.trans hg.stream⟩

theorem HubKept.refl (h : Hub) : HubKept h h := ⟨⟨rfl, rfl, rfl, rfl, rfl, rfl⟩, rfl, rfl⟩

theorem JournalOnly.kept {h g : Hub} (hg : JournalOnly h g) : HubKept h g := by
  rw [JournalOnly] at hg
  rw [hg]
  exact ⟨⟨rfl, rfl, rfl, rfl, rfl, rfl⟩, rfl, rfl⟩

theorem TrafficOnly.kept {h g : Hub} (hg : TrafficOnly h g) : CollectorKept h g := by
  rw [TrafficOnly] at hg
  rw [hg]
  exact ⟨rfl, rfl, rfl, rfl, rfl, rfl⟩

theorem collectorKept_laneTo (st : LaneState) (l : Nat) (h : Hub) : CollectorKept h (laneTo st l h) := by
  have hleft : CollectorKept h (updLane l (fun x => { idleLane x with state := st, rate := restRate st (laneDesc h l) }) h) :=
    ⟨rfl, rfl, rfl, rfl, rfl, rfl⟩
  exact iteInduction (fun _ => hleft.trans (trafficOnly_leaveLink ..).kept) fun _ => hleft

theorem collectorKept_retryLane (source : Nat) (h : Hub) : CollectorKept h (retryLane source h) :=
  iteInduction (fun _ => collectorKept_laneTo ..) fun _ => (HubKept.refl h).toCollectorKept

/-- RETRY of a lane's own source takes the lane back to its search (R376). -/
theorem laneAt_retryLane {h : Hub} {source l : Nat} (hs : source = 0x90 + 8 * l ∨ source = 0x91 + 8 * l) (hl6 : l < 6)
    (hl : l < h.lanes.length) (hup : (laneAt h l).state = .up) : (laneAt (retryLane source h) l).state = .searching := by
  have hlane : (source - 0x90) / 8 = l := by omega
  have hguard : 0x90 ≤ source ∧ source < 0xC0 ∧ source % 8 < 2 ∧ (laneAt h l).state = .up := ⟨by omega, by omega, by omega, hup⟩
  unfold retryLane
  rw [hlane, if_pos hguard, laneAt_laneTo_same hl]
  rfl

/-! ## The stages of a handling (R373, R384) -/

/-- The fault, its record queued, its occurrence marked as handled. -/
def noted (r : Raise) (rec : JRec) (h : Hub) : Hub :=
  let g := if recorded r.source r.inst h then jLimited rec h else h
  causeAgain r.source r.inst r.ended { g with faults.occ := g.faults.occ.map fun o =>
      if o.source == r.source && o.inst == r.inst then { o with handled := true } else o }

theorem hubKept_noted (r : Raise) (rec : JRec) (h : Hub) : HubKept h (noted r rec h) := by
  have hrec : HubKept h (if recorded r.source r.inst h then jLimited rec h else h) :=
    iteInduction (fun _ => (journalOnly_jLimited ..).kept) fun _ => .refl h
  exact hrec.trans ⟨⟨rfl, rfl, rfl, rfl, rfl, rfl⟩, rfl, rfl⟩

/-- A declaration without a reaction of its own: the fault is permanent, and its record is written. -/
theorem declare_quiet {reaction : Nat} (hr : reaction ≤ 1) (source inst cls occ : Nat) (ended : Option Inst) (at_ : Inst) (h : Hub) :
    HubKept { h with faults.perm := (source, inst) :: h.faults.perm } (declare source inst cls reaction occ ended at_ h) := by
  have hreact (g : Hub) : react source inst cls reaction ended at_ g = g := by
    match reaction, hr with
    | 0, _ | 1, _ => rfl
  unfold declare
  rw [hreact]
  exact iteInduction (fun _ => (journalOnly_jChange ..).kept) fun _ => .refl _

/-- Its record is one of the journal, where the collector can write it. -/
theorem declare_quiet_journal {reaction : Nat} (hr : reaction ≤ 1) (source inst cls occ : Nat) (ended : Option Inst) (at_ : Inst) (h : Hub) :
    (declare source inst cls reaction occ ended at_ h).faults.occ = h.faults.occ ∧
      (declare source inst cls reaction occ ended at_ h).flash.nextIndex =
        h.flash.nextIndex + if recorded source inst h = true then 1 else 0 := by
  have hreact (g : Hub) : react source inst cls reaction ended at_ g = g := by
    match reaction, hr with
    | 0, _ | 1, _ => rfl
  unfold declare
  rw [hreact]
  have hrecorded : recorded source inst { h with faults.perm := (source, inst) :: h.faults.perm } = recorded source inst h := rfl
  dsimp only
  rw [hrecorded]
  split
  · exact ⟨by rw [jChange_faults], nextIndex_jChange ..⟩
  · exact ⟨rfl, rfl⟩

theorem faultFlags_permanent (forced real perm merged fallback : Bool) : bitOf (faultFlags forced real perm merged fallback) 2 = perm := by
  cases forced <;> cases real <;> cases perm <;> cases merged <;> cases fallback <;> rfl

theorem declared_iff {h : Hub} {source inst : Nat} : declared h source inst = true ↔ (source, inst) ∈ h.faults.perm := List.contains_iff_mem

theorem pushHistory_last (e : Hist) (h : Hub) : (pushHistory e h).faults.history.getLast? = some e := by
  have hlen : h.faults.history.length + 1 - 32 < (h.faults.history ++ [e]).length := by
    rw [List.length_append, List.length_singleton]
    omega
  rw [pushHistory, List.getLast?_drop, if_neg (Nat.not_le.mpr hlen), List.getLast?_concat]

theorem pushHistory_length (e : Hist) (h : Hub) : (pushHistory e h).faults.history.length = min 32 (h.faults.history.length + 1) := by
  rw [pushHistory, List.length_drop, List.length_append, List.length_singleton]
  omega

/-- The urgent conversion, the retry, the declaration: what follows the record. -/
def concluded (r : Raise) (cfg : FaultCfg) (permanent : Bool) (occ : Nat) (g : Hub) : Hub :=
  let k := collectorAsks r.source r.inst (if cfg.reaction = 1 then retryLane r.source g else g)
  if permanent then declare r.source r.inst cfg.cls cfg.reaction occ r.ended r.capture k else k

/-- A raise that counts, with nothing merged into it: its history entry, its record, and what follows. -/
theorem handleRaise_stages {r : Raise} {h : Hub} (hm : r.merged = []) (hs : r.soft = false) (hc : counts r = true)
    (hok : h.faults.historyOk = true) :
    let cfg := cfgOfOcc h r.source r.inst
    let c := countOne r.source r.inst h
    let occ := max 1 c.2.2
    ∃ (e : Hist) (rec : JRec), e.source = r.source ∧ e.inst = r.inst ∧ e.cls = cfg.cls ∧ e.detail = r.detail ∧ e.occurrences = occ ∧
      bitOf e.flags 2 = c.2.1 ∧
      handleRaise r h = concluded r cfg c.2.1 occ
        (noted r rec (pushHistory e (issue (faultVerdicts h r.source r.inst r.start (r.ended.getD (frameEnd h))).1 c.1))) := by
  intro cfg c occ
  have hcfg : (if r.soft then ⟨0, 0, 0, 0⟩ else cfgOfOcc h r.source r.inst : FaultCfg) = cfg := if_neg (by simp [hs])
  have hcount : (if counts r then countOne r.source r.inst h else (h, false, (countsOf h r.source r.inst).length)) = c := if_pos hc
  have hwrite (e : Hist) (v : List Verdict) : writeEntry e (issue v c.1) = pushHistory e (issue v c.1) := if_pos hok
  unfold handleRaise
  rw [hcfg, hcount, hm]
  dsimp only
  rw [hwrite]
  exact ⟨_, _, rfl, rfl, rfl, rfl, rfl, faultFlags_permanent .., rfl⟩

section
variable {r : Raise} {cfg : FaultCfg} {permanent : Bool} {occ : Nat} {g : Hub}

/-- A lane's retry aside, what follows the record of a LOG or RETRY source is the declaration, and it leaves the rest as it is. -/
theorem concluded_quiet (hr : cfg.reaction ≤ 1) :
    let t := concluded r cfg permanent occ g
    let k := if cfg.reaction = 1 then retryLane r.source g else g
    HubKept { k with faults.perm := if permanent then (r.source, r.inst) :: g.faults.perm else g.faults.perm } t := by
  intro t k
  have hk : CollectorKept g k := iteInduction (fun _ => collectorKept_retryLane ..) fun _ => (HubKept.refl g).toCollectorKept
  cases permanent with
  | true =>
    have hdeclare := declare_quiet hr r.source r.inst cfg.cls occ r.ended r.capture (collectorAsks r.source r.inst k)
    refine HubKept.trans ?_ hdeclare
    exact ⟨⟨rfl, rfl, congrArg ((r.source, r.inst) :: ·) hk.perm, rfl, rfl, rfl⟩, rfl, rfl⟩
  | false => exact ⟨⟨rfl, rfl, hk.perm, rfl, rfl, rfl⟩, rfl, rfl⟩

end

theorem countsOf_eq {h : Hub} {source inst : Nat} {ts : List Nat} {rest : List ((Nat × Nat) × List Nat)}
    (hc : h.faults.counts = ((source, inst), ts) :: rest) : countsOf h source inst = ts := by
  simp [countsOf, hc]

theorem declared_eq {h g : Hub} {source inst : Nat} {permanent : Bool}
    (hp : g.faults.perm = if permanent then (source, inst) :: h.faults.perm else h.faults.perm) :
    declared g source inst = (declared h source inst || permanent) := by
  rw [declared, hp]
  cases permanent with
  | true => simp
  | false => exact (Bool.or_false _).symm

/-- No reaction of these goes before the eclipse state (R378). -/
theorem eclipseFirst_of_quiet {r : Raise} {h : Hub} (hr : (cfgOfOcc h r.source r.inst).reaction ≤ 1) (q : List Raise) :
    eclipseFirst r q h = h := by
  have hreaction : decide (2 ≤ (cfgOfOcc h r.source r.inst).reaction ∧ (cfgOfOcc h r.source r.inst).reaction < 7) = false :=
    decide_eq_false (by omega)
  exact if_neg (by simp [willReact, hreaction])

/-- Settles O32: the handling by its stages; persistence by the declaration alone. -/
theorem collectorHandlesRaises : Obligations.CollectorHandlesRaises := by
  refine ⟨fun s => ⟨fun hq => ?empty, fun r q hq hm hs hc hok hr => ?handle⟩, fun s source inst => ⟨fun o ho => ⟨fun hout => ?young, fun hout hr => ?old⟩, fun hnone => ?none_⟩⟩
  case empty =>
    exact congrArg (hubNext s) (by rw [handleNext, hq])
  case handle =>
    intro cfg within permanent
    let h : Hub := { s.hub with faults.queue := q }
    obtain ⟨e, rec, hsource, hinst, hcls, hdetail, hocc, hflag, hstages⟩ := handleRaise_stages (r := r) (h := h) hm hs hc hok
    have hnext : handleNext s.hub = handleRaise r h := by
      rw [handleNext, hq]
      exact congrArg (handleRaise r) (eclipseFirst_of_quiet (h := h) hr q)
    let pushed := pushHistory e (issue (faultVerdicts h r.source r.inst r.start (r.ended.getD (frameEnd h))).1
      (countOne r.source r.inst h).1)
    let g := noted r rec pushed
    let k := if cfg.reaction = 1 then retryLane r.source g else g
    have hg : HubKept pushed g := hubKept_noted ..
    have hk : CollectorKept g k := iteInduction (fun _ => collectorKept_retryLane ..) fun _ => (HubKept.refl g).toCollectorKept
    have ht : HubKept { k with faults.perm := if permanent then (r.source, r.inst) :: g.faults.perm else g.faults.perm } (handleRaise r h) := by
      rw [hstages]
      exact concluded_quiet hr
    have hhistory : (handleRaise r h).faults.history = pushed.faults.history := ht.history.trans (hk.history.trans hg.history)
    have hlanes (hr0 : cfg.reaction ≠ 1) : k = g := if_neg hr0
    refine ⟨handleRaise r h, congrArg (hubNext s) hnext, ht.queue.trans (hk.queue.trans hg.queue),
      countsOf_eq (ht.counts.trans (hk.counts.trans hg.counts)), declared_eq (ht.perm.trans ?_), ⟨e, ?_, hsource, hinst, hcls, hdetail, ?_, hflag⟩,
      ?_, ht.chans.trans (hk.chans.trans hg.chans), ht.cfg.trans (hk.cfg.trans hg.cfg), fun h0 => ⟨?_, ?_⟩, fun l hl6 h1 hl hlen hup => ?_⟩
    · exact congrArg (fun x => if permanent then (r.source, r.inst) :: x else x) hg.perm
    · rw [hhistory, pushHistory_last]
    · exact hocc.trans (max_eq_right (Nat.le_add_left ..))
    · rw [hhistory, pushHistory_length]
      rfl
    · exact ht.lanes.trans ((congrArg Hub.lanes (hlanes (by omega))).trans hg.lanes)
    · exact ht.stream.trans ((congrArg Hub.stream (hlanes (by omega))).trans hg.stream)
    · have hkl : k = retryLane r.source g := if_pos h1
      have hgl : laneAt g l = laneAt s.hub l := laneAt_congr hg.lanes l
      rw [laneAt_congr ht.lanes l]
      change (laneAt k l).state = .searching
      rw [hkl]
      exact laneAt_retryLane hl hl6 (by rw [hg.lanes]; exact hlen) (by rw [hgl]; exact hup)
  case young =>
    have hstay : persistExpire source inst s.hub = s.hub := by
      rw [persistExpire, ho]
      exact if_neg (by simp [hout])
    exact congrArg (hubNext s) hstay
  case old =>
    let cfg := cfgWith source o.conf
    let g := markEntry source inst cfg.reaction s.hub
    have hrun : persistExpire source inst s.hub =
        declare source inst cfg.cls cfg.reaction (max 1 (countsOf s.hub source inst).length) none s.hub.time.tickInst g := by
      rw [persistExpire, ho]
      exact if_pos hout
    obtain ⟨hocc, hindex⟩ := declare_quiet_journal hr source inst cfg.cls (max 1 (countsOf s.hub source inst).length) none s.hub.time.tickInst g
    have hkept := declare_quiet hr source inst cfg.cls (max 1 (countsOf s.hub source inst).length) none s.hub.time.tickInst g
    exact ⟨_, congrArg (hubNext s) hrun, declared_iff.mpr (hkept.perm ▸ List.mem_cons_self), hocc, hkept.queue, hkept.chans, hindex⟩
  case none_ =>
    have hstay : persistExpire source inst s.hub = s.hub := by
      rw [persistExpire, List.find?_eq_none.mpr (by simpa using hnone)]
    exact congrArg (hubNext s) hstay

end Sys2Proof.Machine
end

