-- ==== Sys2Proof/Proofs/Eclipse.lean ====
section
/-! PROOFS. The eclipse state: its exit, its occultations, the collector's forced reset (15 R379 to R382, 09 R209). -/

namespace Sys2Proof.Machine

theorem bookExit_of_ready {h : Hub} {e : Eclipse} (he : h.faults.eclipse = some e) (hd : e.exitDue = false) (hr : exitReady h = true) :
    bookExit h = jChange 0x300E (eclipseDetail (toStream h (h.time.tick + 1)) e.causes)
      { h with faults.eclipse := some { e with exitDue := true } } := by
  unfold bookExit
  rw [he]
  exact if_neg (by simp [hd, hr])

theorem bookExit_of_not_ready {h : Hub} (hr : exitReady h = false) : bookExit h = h := by
  unfold bookExit
  split
  · rfl
  · exact if_pos (by simp [hr])

/-- What the forced reset writes before it begins. -/
def resetNoted (h : Hub) : Hub := if fabWorks h then jChange 0x3013 (forcedDetail 0 0 2 h) (closeRuns h) else h

theorem flashJournaled_resetNoted (h : Hub) : FlashJournaled h (resetNoted h) :=
  iteInduction (fun _ => (flashJournaled_closeRuns h).trans (flashJournaled_jChange ..)) fun _ => .refl h

/-- Settles O33: the exit and its record, an occultation, the forced reset. -/
theorem eclipseEvents : Obligations.EclipseEvents := by
  intro s
  refine ⟨fun e he hd => ⟨fun hr => ?exit, fun hr => ?wait⟩, fun e he hin hactive hdue => ?occult, fun hc => ?reset, fun hc => ?idle⟩
  case exit =>
    have hbook := bookExit_of_ready he hd hr
    have hframe := journalOnly_jChange 0x300E (eclipseDetail (toStream s.hub (s.hub.time.tick + 1)) e.causes)
      { s.hub with faults.eclipse := some { e with exitDue := true } }
    refine ⟨_, congrArg (hubNext s) hbook, by rw [jChange_faults], nextIndex_jChange .., ?_⟩
    rw [jChange_faults]
    exact hframe
  case wait => exact congrArg (hubNext s) (bookExit_of_not_ready hr)
  case occult =>
    have hguard : (inEclipse s.hub && decide (toStream s.hub (s.hub.time.tick + 1) % max 1 (ledgerPeriod s.hub) = 0)) = true := by
      rw [hin, Bool.true_and]
      exact decide_eq_true hdue
    have hocc : eclipseOcc s.hub =
        emit { ty := 5, order := 2, occSlots := e.slots, payload := occPayload 3 2 0 0 0 (toStream s.hub e.firstTick) e.ticks e.slots }
          { s.hub with stream.eclSpan := none } := by
      unfold eclipseOcc
      rw [he]
      exact if_neg (by simp [hactive])
    refine ⟨_, (congrArg (hubNext s) ((if_pos (by simpa using hguard)).trans hocc)), rfl, rfl, rfl⟩
  case reset =>
    have hexec : exec .collectorForcedReset s = .next (restart .clocks true { s with hub := resetNoted s.hub }) :=
      congrArg Host.Outcome.next (if_pos hc)
    have hflash := flashJournaled_resetNoted s.hub
    exact ⟨_, hexec, rfl, rfl, rfl, rfl, rfl, hflash.keys, hflash.lifecycle⟩
  case idle => exact congrArg Host.Outcome.next (if_neg (by rw [hc]; exact Bool.false_ne_true))

end Sys2Proof.Machine
end

