-- ==== Sys2Proof/Proofs/ArbiterRounds.lean ====
section
/-! PROOFS. The arbiter: refills, rounds, preemption, the watchdog (16 R409 to R412, R414). -/

namespace Sys2Proof.Machine

/-! ## What the arbiter's steps move -/

/-- A hub after steps of the arbiter: its state and the supply of free values have moved, and nothing else. -/
def ArbiterOnly (h g : Hub) : Prop := g = { h with arb := g.arb, free := g.free }

theorem ArbiterOnly.refl (h : Hub) : ArbiterOnly h h := rfl

theorem ArbiterOnly.trans {h g k : Hub} (hg : ArbiterOnly h g) (hk : ArbiterOnly g k) : ArbiterOnly h k := by
  rw [ArbiterOnly] at hg
  rw [hg] at hk
  exact hk

theorem arbiterOnly_setResource (e : Bool) (r : Resource) (h : Hub) : ArbiterOnly h (setResource e r h) := by
  cases e <;> rfl

theorem arbiterOnly_debit (e : Bool) (i : Nat) (h : Hub) : ArbiterOnly h (debit e i h) := by
  unfold debit
  dsimp only
  split
  · exact ArbiterOnly.trans (g := { h with free := h.free + 1 }) rfl (arbiterOnly_setResource ..)
  · exact arbiterOnly_setResource ..

theorem arbiterOnly_grant (e : Bool) (i : Nat) (h : Hub) : ArbiterOnly h (grant e i h) :=
  (arbiterOnly_debit e i h).trans (arbiterOnly_setResource ..)

/-! ## Resources -/

theorem resource_setResource (e : Bool) (r : Resource) (h : Hub) : resource (setResource e r h) e = r := by
  cases e <;> rfl

theorem resource_setResource_other (e : Bool) (r : Resource) (h : Hub) : resource (setResource e r h) (!e) = resource h (!e) := by
  cases e <;> rfl

theorem setResource_pend (e : Bool) (r : Resource) (h : Hub) : (setResource e r h).arb.pend = h.arb.pend := by
  cases e <;> rfl

theorem setResource_free (e : Bool) (r : Resource) (h : Hub) : (setResource e r h).free = h.free := by
  cases e <;> rfl

theorem reqAt_updReq_same {i : Nat} {r : Resource} (hi : i < r.reqs.length) (f : Requester → Requester) :
    reqAt (updReq i f r) i = f (reqAt r i) := by
  simp [reqAt, updReq, updAt, hi]

theorem reqAt_updReq_ne {i j : Nat} (hij : j ≠ i) (f : Requester → Requester) (r : Resource) : reqAt (updReq i f r) j = reqAt r j := by
  simp [reqAt, updReq, updAt, Ne.symm hij]

/-- A debit changes one counter of one resource; a counter above its least loses one, and draws no free value. -/
theorem debit_eq (e : Bool) (i : Nat) (h : Hub) : ∃ (f : Requester → Requester) (n : Nat),
    debit e i h = setResource e (updReq i f (resource h e)) { h with free := n } ∧
      ((reqAt (resource h e) i).credit ≠ -32768 → f = (fun q => { q with credit := q.credit - 1 }) ∧ n = h.free) := by
  unfold debit
  dsimp only
  split
  next hleast => exact ⟨_, _, rfl, fun hne => absurd hleast hne⟩
  next => exact ⟨_, h.free, rfl, fun _ => ⟨rfl, rfl⟩⟩

/-- What a debit leaves. -/
structure Debited (e : Bool) (i : Nat) (h g : Hub) : Prop where
  other : resource g (!e) = resource h (!e)
  pend : g.arb.pend = h.arb.pend
  same : ∀ j, j ≠ i → reqAt (resource g e) j = reqAt (resource h e) j
  credit : i < (resource h e).reqs.length → (reqAt (resource h e) i).credit ≠ -32768 →
    (reqAt (resource g e) i).credit = (reqAt (resource h e) i).credit - 1
  free : (reqAt (resource h e) i).credit ≠ -32768 → g.free = h.free

theorem debited (e : Bool) (i : Nat) (h : Hub) : Debited e i h (debit e i h) := by
  obtain ⟨f, n, hd, hf⟩ := debit_eq e i h
  rw [hd]
  refine ⟨?_, ?_, fun j hj => ?_, fun hi hc => ?_, fun hc => ?_⟩
  · rw [resource_setResource_other]
    cases e <;> rfl
  · exact setResource_pend ..
  · rw [resource_setResource, reqAt_updReq_ne hj]
  · rw [resource_setResource, reqAt_updReq_same hi, (hf hc).1]
  · rw [setResource_free]
    exact (hf hc).2

theorem debit_holder (e : Bool) (i : Nat) (h : Hub) : (resource (debit e i h) e).holder = (resource h e).holder ∧
    (resource (debit e i h) e).preempted = (resource h e).preempted := by
  obtain ⟨f, n, hd, -⟩ := debit_eq e i h
  rw [hd, resource_setResource]
  exact ⟨rfl, rfl⟩

theorem debited_grant (e : Bool) (i : Nat) (h : Hub) : Debited e i h (grant e i h) ∧ (resource (grant e i h) e).holder = some i := by
  obtain ⟨other, pend, same, credit, free⟩ := debited e i h
  refine ⟨⟨?_, ?_, ?_, ?_, ?_⟩, ?_⟩
  · exact (resource_setResource_other ..).trans other
  · exact (setResource_pend ..).trans pend
  · intro j hj
    rw [← same j hj, grant, resource_setResource]
    rfl
  · intro hi hc
    rw [← credit hi hc, grant, resource_setResource]
    rfl
  · intro hc
    exact (setResource_free ..).trans (free hc)
  · rw [grant, resource_setResource]

/-! ## Pending requests (R411) -/

theorem pendAt_updPend_ne {i j : Nat} (hij : j ≠ i) (f : PendQueue → PendQueue) (h : Hub) : pendAt (updPend i f h) j = pendAt h j := by
  simp [pendAt, updPend, updAt, Ne.symm hij]

/-- An entry changed is an entry written. -/
theorem updPend_eq_set (i : Nat) (f : PendQueue → PendQueue) (h : Hub) :
    updPend i f h = { h with arb.pend := h.arb.pend.set i (f (pendAt h i)) } := by
  have hset : h.arb.pend.modify i f = h.arb.pend.set i (f (pendAt h i)) := by
    rw [List.modify_eq_set_getElem?]
    by_cases hi : i < h.arb.pend.length
    · simp [pendAt, hi]
    · simp [List.getElem?_eq_none (Nat.le_of_not_lt hi), List.set_eq_of_length_le (Nat.le_of_not_lt hi)]
  unfold updPend updAt
  rw [hset]

theorem pendAt_emptied (i : Nat) (h : Hub) : pendAt (updPend i (fun _ => {}) h) i = { parked := [] } := by
  rw [updPend_eq_set]
  by_cases hi : i < h.arb.pend.length
  · simp [pendAt, hi]
  · simp [pendAt, hi]

/-- Requests that are parked change the pending queues alone. -/
theorem parked_frame (e : Bool) (is : List Nat) (h : Hub) :
    is.foldl (fun h i => park e i h) h = { h with arb.pend := (is.foldl (fun h i => park e i h) h).arb.pend } := by
  refine List.foldlRecOn (motive := fun g : Hub => g = { h with arb.pend := g.arb.pend }) is _ rfl fun g hg i _ => ?_
  exact congrArg (fun y : Hub => { y with arb.pend := (park e i g).arb.pend }) hg

theorem mem_waiting {e : Bool} {g : Hub} {i : Nat} : i ∈ (List.range 20).filter (waits e g) ↔ i < 20 ∧ waits e g i = true := by
  rw [List.mem_filter, List.mem_range]

/-! ## A round (R410) -/

/-- Cyclic order finds one of any requesters there are. -/
theorem cyclicFirst_of_ne_nil (after : Nat) {is : List Nat} (hne : is ≠ []) (h20 : ∀ i ∈ is, i < 20) : ∃ w ∈ is, cyclicFirst after is = some w := by
  obtain ⟨i, hi⟩ := List.exists_mem_of_ne_nil is hne
  have hlt := h20 i hi
  have hmem : i ∈ (List.range 20).map fun k => (after + 1 + k) % 20 := by
    refine List.mem_map.mpr ⟨(i + 20 * (after + 1) - (after + 1)) % 20, List.mem_range.mpr (Nat.mod_lt _ (by decide)), ?_⟩
    omega
  obtain ⟨w, hw⟩ := Option.isSome_iff_exists.mp (List.find?_isSome.mpr ⟨i, hmem, List.contains_iff_mem.mpr hi⟩)
  exact ⟨w, List.contains_iff_mem.mp (List.find?_some hw), hw⟩

theorem exists_min? {l : List Nat} (hne : l ≠ []) : ∃ c, l.min? = some c ∧ c ∈ l ∧ ∀ x ∈ l, c ≤ x := by
  obtain ⟨c, hc⟩ := Option.isSome_iff_exists.mp (List.isSome_min?_of_ne_nil hne)
  obtain ⟨hmem, hle⟩ := List.min?_eq_some_iff.mp hc
  exact ⟨c, hc, hmem, hle⟩

theorem exists_max? {l : List Int} (hne : l ≠ []) : ∃ m, l.max? = some m ∧ m ∈ l ∧ ∀ x ∈ l, x ≤ m := by
  obtain ⟨m, hm⟩ := Option.isSome_iff_exists.mp (List.isSome_max?_of_ne_nil hne)
  obtain ⟨hmem, hle⟩ := List.max?_eq_some_iff.mp hm
  exact ⟨m, hm, hmem, hle⟩

/-- The winner of a round: one of the highest class there is, with the highest counter within it. -/
theorem roundWinner_spec {h : Hub} {e : Bool} {is : List Nat} (hne : is ≠ []) (h20 : ∀ i ∈ is, i < 20) :
    ∃ w ∈ is, roundWinner h e is = some w ∧ (∀ j ∈ is, reqClass h e w ≤ reqClass h e j) ∧
      ∀ j ∈ is, reqClass h e j = reqClass h e w → (reqAt (resource h e) j).credit ≤ (reqAt (resource h e) w).credit := by
  obtain ⟨c, hc, hcmem, hcle⟩ := exists_min? (l := is.map (reqClass h e)) (by simpa using hne)
  let top := is.filter fun i => reqClass h e i == c
  have htop : top ≠ [] := by
    obtain ⟨i, hi, hic⟩ := List.mem_map.mp hcmem
    exact List.ne_nil_of_mem (List.mem_filter.mpr ⟨hi, by simpa using hic⟩)
  obtain ⟨m, hm, hmmem, hmle⟩ := exists_max? (l := top.map fun i => (reqAt (resource h e) i).credit) (by simpa using htop)
  let best := top.filter fun i => (reqAt (resource h e) i).credit == m
  have hbest : best ≠ [] := by
    obtain ⟨i, hi, him⟩ := List.mem_map.mp hmmem
    exact List.ne_nil_of_mem (List.mem_filter.mpr ⟨hi, by simpa using him⟩)
  obtain ⟨w, hw, hfirst⟩ := cyclicFirst_of_ne_nil ((resource h e).last.getD c 19) hbest
    fun i hi => h20 i (List.mem_of_mem_filter (List.mem_of_mem_filter hi))
  obtain ⟨hwtop, hwm⟩ := List.mem_filter.mp hw
  obtain ⟨hwis, hwc⟩ := List.mem_filter.mp hwtop
  have hwc' : reqClass h e w = c := by simpa using hwc
  have hwm' : (reqAt (resource h e) w).credit = m := by simpa using hwm
  refine ⟨w, hwis, ?_, fun j hj => ?_, fun j hj hjc => ?_⟩
  · simp only [roundWinner, hc]
    change (match (top.map fun i => (reqAt (resource h e) i).credit).max? with
      | none => none
      | some m => cyclicFirst ((resource h e).last.getD c 19) (top.filter fun i => (reqAt (resource h e) i).credit == m)) = some w
    rw [hm]
    exact hfirst
  · rw [hwc']
    exact hcle _ (List.mem_map_of_mem hj)
  · rw [hwm']
    have hjtop : j ∈ top := List.mem_filter.mpr ⟨hj, by simpa using hjc.trans hwc'⟩
    exact hmle _ (List.mem_map_of_mem hjtop)

/-! ## A break point (R410, R412) -/

section
variable {e : Bool} {is : List Nat} {h : Hub}

/-- The requests of a break point, parked. -/
def allParked (e : Bool) (is : List Nat) (h : Hub) : Hub := is.foldl (fun h i => park e i h) h

theorem resource_allParked (e : Bool) (is : List Nat) (h : Hub) (k : Bool) : resource (allParked e is h) k = resource h k := by
  rw [allParked, parked_frame]
  rfl

theorem reqClass_allParked (e : Bool) (is : List Nat) (h : Hub) (k : Bool) (i : Nat) : reqClass (allParked e is h) k i = reqClass h k i := by
  rw [allParked, parked_frame]
  rfl

theorem allParked_free (e : Bool) (is : List Nat) (h : Hub) : (allParked e is h).free = h.free := by rw [allParked, parked_frame]

theorem arbiterOnly_allParked (e : Bool) (is : List Nat) (h : Hub) : ArbiterOnly h (allParked e is h) := by
  have hframe : allParked e is h = { h with arb.pend := (allParked e is h).arb.pend } := parked_frame e is h
  rw [hframe]
  rfl

theorem breakPoint_of_preempted {i n : Nat} (hp : (resource h e).preempted = some (i, n)) :
    breakPoint e is h = setResource e { resource h e with holder := some i, preempted := none } (allParked e is h) := by
  have hr := resource_allParked e is h e
  unfold breakPoint
  change (match (resource (allParked e is h) e).preempted with
    | some (i, _) => setResource e { resource (allParked e is h) e with holder := some i, preempted := none } (allParked e is h)
    | none => _) = _
  rw [hr, hp]

theorem breakPoint_of_round (hp : (resource h e).preempted = none) : breakPoint e is h =
    match roundWinner (allParked e is h) e ((List.range 20).filter (waits e (allParked e is h))) with
    | none => setResource e { resource h e with holder := none } (allParked e is h)
    | some i => unpark e i (grant e i (allParked e is h)) := by
  have hr := resource_allParked e is h e
  unfold breakPoint
  change (match (resource (allParked e is h) e).preempted with
    | some (i, _) => _
    | none =>
      match roundWinner (allParked e is h) e ((List.range 20).filter (waits e (allParked e is h))) with
      | none => setResource e { resource (allParked e is h) e with holder := none } (allParked e is h)
      | some i => unpark e i (grant e i (allParked e is h))) = _
  rw [hr, hp]

theorem breakPoint_of_no_waiter (hp : (resource h e).preempted = none) (hw : ∀ i < 20, waits e (allParked e is h) i = false) :
    breakPoint e is h = setResource e { resource h e with holder := none } (allParked e is h) := by
  have hnone : (List.range 20).filter (waits e (allParked e is h)) = [] := by
    rw [List.filter_eq_nil_iff]
    intro i hi
    rw [hw i (List.mem_range.mp hi)]
    exact Bool.false_ne_true
  rw [breakPoint_of_round hp, hnone]
  rfl

/-- Where a request waits, a break point grants the winner of the round. -/
theorem breakPoint_of_waiter (hp : (resource h e).preempted = none) (hw : ∃ i < 20, waits e (allParked e is h) i = true) :
    ∃ w < 20, waits e (allParked e is h) w = true ∧ breakPoint e is h = unpark e w (grant e w (allParked e is h)) ∧
      (∀ j < 20, waits e (allParked e is h) j = true → reqClass h e w ≤ reqClass h e j) ∧
      ∀ j < 20, waits e (allParked e is h) j = true → reqClass h e j = reqClass h e w →
        (reqAt (resource h e) j).credit ≤ (reqAt (resource h e) w).credit := by
  obtain ⟨i, hi, hwi⟩ := hw
  obtain ⟨w, hmem, hwin, hclass, hcredit⟩ := roundWinner_spec (h := allParked e is h) (e := e)
    (List.ne_nil_of_mem (mem_waiting.mpr ⟨hi, hwi⟩)) fun j hj => (mem_waiting.mp hj).1
  obtain ⟨hw20, hww⟩ := mem_waiting.mp hmem
  simp only [reqClass_allParked, resource_allParked] at hclass hcredit
  refine ⟨w, hw20, hww, ?_, fun j hj hwj => hclass j (mem_waiting.mpr ⟨hj, hwj⟩), fun j hj hwj => hcredit j (mem_waiting.mpr ⟨hj, hwj⟩)⟩
  rw [breakPoint_of_round hp, hwin]

theorem arbiterOnly_breakPoint (e : Bool) (is : List Nat) (h : Hub) : ArbiterOnly h (breakPoint e is h) := by
  refine (arbiterOnly_allParked e is h).trans ?_
  unfold breakPoint
  dsimp only
  split
  · exact arbiterOnly_setResource ..
  · split
    · exact arbiterOnly_setResource ..
    · exact (arbiterOnly_grant ..).trans rfl

/-- A break point of one resource leaves the other. -/
theorem resource_breakPoint_other (e : Bool) (is : List Nat) (h : Hub) : resource (breakPoint e is h) (!e) = resource h (!e) := by
  rw [← resource_allParked e is h (!e)]
  unfold breakPoint
  dsimp only
  split
  · exact resource_setResource_other ..
  · split
    · exact resource_setResource_other ..
    · exact (debited_grant e _ _).1.other

end

/-! ## Preemption and the watchdog (R412, R414) -/

/-- The DRAM port with a burst broken off for a privileged requester. -/
def brokenOff (i j n : Nat) (h : Hub) : Hub := setResource false { h.arb.dram with holder := some i, preempted := some (j, n) } h

theorem preempt_of_unprivileged {i j n : Nat} {h : Hub} (hh : h.arb.dram.holder = some j) (hj : 5 ≤ j) :
    preempt i n h = debit false i (brokenOff i j n h) := by
  unfold preempt
  dsimp only
  rw [hh]
  exact if_neg (by simp [privileged, Nat.not_lt.mpr hj])

theorem preempt_of_privileged {i n : Nat} {h : Hub} (hh : ∀ j, h.arb.dram.holder = some j → j < 5) : preempt i n h = park false i h := by
  unfold preempt
  dsimp only
  split
  · rfl
  next j hj => exact if_pos (decide_eq_true (hh j hj))

theorem exec_privilegedPreemption {i : Nat} (hi : i < 5) (n : Nat) (s : State) :
    exec (.privilegedPreemption i n) s = hubNext s (preempt i n s.hub) := congrArg (hubNext s) (if_pos (decide_eq_true hi))

theorem resource_withdrawGrant_same (e : Bool) (i : Nat) (h : Hub) : (resource (withdrawGrant e i h) e).holder ≠ some i ∧
    (resource (withdrawGrant e i h) e).reqs = (resource h e).reqs := by
  unfold withdrawGrant
  dsimp only
  split
  · rw [show resource (updPend i (fun _ => {}) (setResource e { resource h e with holder := none } h)) e =
      { resource h e with holder := none } from resource_setResource ..]
    exact ⟨nofun, rfl⟩
  next hno => exact ⟨hno, rfl⟩

theorem resource_withdrawGrant_other (e : Bool) (i : Nat) (h : Hub) : resource (withdrawGrant e i h) (!e) = resource h (!e) := by
  unfold withdrawGrant
  dsimp only
  split
  · exact resource_setResource_other ..
  · rfl

/-- A grant that is withdrawn takes its requester's parked requests with it. -/
theorem withdrawGrant_eq (e : Bool) (i : Nat) (h : Hub) : withdrawGrant e i h =
    if (resource h e).holder = some i then updPend i (fun _ => {}) (setResource e { resource h e with holder := none } h) else h := rfl

theorem arbOnly_withdrawGrant (e : Bool) (i : Nat) (h : Hub) : withdrawGrant e i h = { h with arb := (withdrawGrant e i h).arb } := by
  rw [withdrawGrant_eq]
  split
  · cases e <;> rfl
  · rfl

theorem pendAt_withdrawGrant_ne {i j : Nat} (hij : j ≠ i) (e : Bool) (h : Hub) : pendAt (withdrawGrant e i h) j = pendAt h j := by
  rw [withdrawGrant_eq]
  split
  · rw [pendAt_updPend_ne hij, pendAt, setResource_pend, pendAt]
  · rfl

theorem pendAt_withdrawGrant_same {e : Bool} {i : Nat} {h : Hub} (hh : (resource h e).holder = some i ∨ pendAt h i = { parked := [] }) :
    pendAt (withdrawGrant e i h) i = { parked := [] } := by
  rw [withdrawGrant_eq]
  split
  · exact pendAt_emptied ..
  next hno => exact hh.resolve_left hno

/-- Both resources without a requester's grant. -/
def withdrawnFor (i : Nat) (h : Hub) : Hub := withdrawGrant true i (withdrawGrant false i h)

/-- The raise of GRANT_WATCHDOG. -/
def watchdogRaise (i : Nat) (at_ : Inst) : Raise := { source := 0xE0 + i, inst := 0, start := at_, capture := at_ }

theorem exec_grantWatchdog {i : Nat} {s : State} (hh : s.hub.arb.dram.holder = some i ∨ s.hub.arb.enc.holder = some i) (dt : Nat) :
    exec (.grantWatchdog i dt) s = hubNext s (raiseFault (watchdogRaise i (instAt s.hub dt)) true (withdrawnFor i s.hub)) :=
  congrArg (hubNext s) (if_pos hh)

theorem not_isSwitchFault_watchdog (i : Nat) : ¬IsSwitchFault (0xE0 + i) := by
  unfold IsSwitchFault
  omega

theorem withdrawnFor_frame (i : Nat) (h : Hub) : withdrawnFor i h = { h with arb := (withdrawnFor i h).arb } := by
  unfold withdrawnFor
  rw [arbOnly_withdrawGrant true, arbOnly_withdrawGrant false]

theorem dram_withdrawnFor (i : Nat) (h : Hub) :
    (withdrawnFor i h).arb.dram.holder ≠ some i ∧ (withdrawnFor i h).arb.dram.reqs = h.arb.dram.reqs := by
  have hdram : (withdrawnFor i h).arb.dram = resource (withdrawGrant false i h) false :=
    resource_withdrawGrant_other true i (withdrawGrant false i h)
  rw [hdram]
  exact resource_withdrawGrant_same false i h

theorem enc_withdrawnFor (i : Nat) (h : Hub) :
    (withdrawnFor i h).arb.enc.holder ≠ some i ∧ (withdrawnFor i h).arb.enc.reqs = h.arb.enc.reqs := by
  obtain ⟨hholder, hreqs⟩ := resource_withdrawGrant_same true i (withdrawGrant false i h)
  exact ⟨hholder, hreqs.trans (congrArg Resource.reqs (resource_withdrawGrant_other false i h))⟩

theorem pendAt_withdrawnFor_same {i : Nat} {h : Hub} (hh : h.arb.dram.holder = some i ∨ h.arb.enc.holder = some i) :
    pendAt (withdrawnFor i h) i = { parked := [] } := by
  rcases hh with hd | he
  · exact pendAt_withdrawGrant_same (.inr (pendAt_withdrawGrant_same (e := false) (.inl hd)))
  · have hother : resource (withdrawGrant false i h) true = resource h true := resource_withdrawGrant_other false i h
    exact pendAt_withdrawGrant_same (.inl (by rw [hother]; exact he))

theorem pendAt_withdrawnFor_ne {i j : Nat} (hij : j ≠ i) (h : Hub) : pendAt (withdrawnFor i h) j = pendAt h j :=
  (pendAt_withdrawGrant_ne hij ..).trans (pendAt_withdrawGrant_ne hij ..)

/-- What a privileged request that takes the port leaves (R412). -/
theorem preempt_taken {i j n : Nat} {h : Hub} (hh : h.arb.dram.holder = some j) (hj : 5 ≤ j) :
    let t := preempt i n h
    t.arb.dram.holder = some i ∧ t.arb.dram.preempted = some (j, n) ∧ t.arb.enc = h.arb.enc ∧ t.arb.pend = h.arb.pend ∧
      ((reqAt h.arb.dram i).credit ≠ -32768 → t.free = h.free ∧
        (i < h.arb.dram.reqs.length → (reqAt t.arb.dram i).credit = (reqAt h.arb.dram i).credit - 1)) := by
  intro t
  have ht : t = debit false i (brokenOff i j n h) := preempt_of_unprivileged hh hj
  rw [ht]
  obtain ⟨hholder, hpreempted⟩ := debit_holder false i (brokenOff i j n h)
  obtain ⟨other, pend, -, credit, free⟩ := debited false i (brokenOff i j n h)
  exact ⟨hholder, hpreempted, other, pend, fun hc => ⟨free hc, fun hi => credit hi hc⟩⟩

theorem arbiterOnly_preempt (i n : Nat) (h : Hub) : ArbiterOnly h (preempt i n h) := by
  unfold preempt
  dsimp only
  split
  · rfl
  · split
    · rfl
    · exact ArbiterOnly.trans (arbiterOnly_setResource ..) (arbiterOnly_debit ..)

/-- Settles O36: a break point by its cases, then preemption and the watchdog. -/
theorem arbiterCommandsComplete : Obligations.ArbiterCommandsComplete := by
  intro s h refill
  refine ⟨rfl, fun enc requests => ?round, fun i n => ⟨fun hi => ?unranked, fun hi => ?preempt⟩, fun i dt => ⟨fun hd he => ?none_, fun hh => ?watchdog⟩⟩
  case round =>
    intro g r
    let is := requests.filter (uses enc)
    have hframe : breakPoint enc is h = { h with arb := (breakPoint enc is h).arb, free := (breakPoint enc is h).free } :=
      arbiterOnly_breakPoint enc is h
    have hother := resource_breakPoint_other enc is h
    have hgpend : (allParked enc is h).arb.pend = g.arb.pend := rfl
    refine ⟨(breakPoint enc is h).arb, (breakPoint enc is h).free, congrArg (hubNext s) hframe, ?_, fun i n hp => ?_, fun hp hw => ?_, fun hp hw => ?_⟩
    · cases enc <;> exact hother
    · have hb := breakPoint_of_preempted (is := is) (h := h) (e := enc) hp
      refine ⟨?_, ?_, ?_⟩
      · change resource (breakPoint enc is h) enc = _
        rw [hb, resource_setResource]
        rfl
      · exact (congrArg (fun x : Hub => x.arb.pend) hb).trans (setResource_pend ..)
      · rw [hb, setResource_free, allParked_free]
    · have hb := breakPoint_of_no_waiter (is := is) (h := h) (e := enc) hp hw
      refine ⟨?_, ?_, ?_⟩
      · change resource (breakPoint enc is h) enc = _
        rw [hb, resource_setResource]
        rfl
      · exact (congrArg (fun x : Hub => x.arb.pend) hb).trans (setResource_pend ..)
      · rw [hb, setResource_free, allParked_free]
    · obtain ⟨w, hw20, hww, hb, hclass, hcredit⟩ := breakPoint_of_waiter (is := is) (h := h) (e := enc) hp hw
      obtain ⟨⟨-, -, same, credit, free⟩, holder⟩ := debited_grant enc w (allParked enc is h)
      rw [resource_allParked] at same credit free
      have hr : resource (breakPoint enc is h) enc = resource (grant enc w (allParked enc is h)) enc := by
        rw [hb]
        rfl
      refine ⟨w, hw20, ?_, hww, hclass, hcredit, fun hlen hc => ⟨?_, ?_⟩, fun j hj => ?_⟩
      · change (resource (breakPoint enc is h) enc).holder = some w
        rw [hr, holder]
      · change (reqAt (resource (breakPoint enc is h) enc) w).credit = _
        rw [hr, credit hlen hc]
        rfl
      · rw [hb]
        exact (free hc).trans (allParked_free ..)
      · change reqAt (resource (breakPoint enc is h) enc) j = _
        rw [hr, same j hj]
        rfl
  case unranked => exact congrArg (hubNext s) (if_neg (by simp [privileged, Nat.not_lt.mpr hi]))
  case preempt =>
    have hexec : exec (.privilegedPreemption i n) s =
        .next { s with hub := { h with arb := (preempt i n h).arb, free := (preempt i n h).free } } :=
      (exec_privilegedPreemption hi n s).trans (congrArg (hubNext s) (arbiterOnly_preempt i n h))
    refine ⟨(preempt i n h).arb, (preempt i n h).free, hexec, ?_, fun j hj hh => ?_, fun hlow => ?_⟩
    · by_cases htaken : ∃ j, h.arb.dram.holder = some j ∧ 5 ≤ j
      · obtain ⟨j, hh, hj⟩ := htaken
        exact (preempt_taken hh hj).2.2.1
      · have hlow : ∀ j, h.arb.dram.holder = some j → j < 5 := fun j hh => Nat.lt_of_not_le fun hj => htaken ⟨j, hh, hj⟩
        rw [preempt_of_privileged hlow]
        rfl
    · obtain ⟨hholder, hpreempted, -, hpend, hdebit⟩ := preempt_taken (i := i) (n := n) hh hj
      exact ⟨hholder, hpreempted, hpend, fun hlen hc => (hdebit hc).2 hlen⟩
    · rw [preempt_of_privileged hlow]
      exact ⟨rfl, rfl⟩
  case none_ => exact congrArg (hubNext s) (if_neg (not_or.mpr ⟨hd, he⟩))
  case watchdog =>
    let g := withdrawnFor i h
    let t := raiseFault (watchdogRaise i (instAt h dt)) true g
    have harb : t.arb = g.arb := raiseFault_arb ..
    have hframe : t = { g with faults := t.faults } := by
      have hraise := raiseFault_frame (watchdogRaise i (instAt h dt)) true g
      rwa [raiseFault_groups_of_not_switchFault (not_isSwitchFault_watchdog i)] at hraise
    have hg : { g with faults := t.faults } = { h with arb := t.arb, faults := t.faults } := by
      rw [harb]
      exact congrArg (fun y : Hub => { y with faults := t.faults }) (withdrawnFor_frame i h)
    obtain ⟨hdram, hdramReqs⟩ := dram_withdrawnFor i h
    obtain ⟨henc, hencReqs⟩ := enc_withdrawnFor i h
    have hpend (j : Nat) : pendAt t j = pendAt g j := by rw [pendAt, harb, pendAt]
    refine ⟨t, exec_grantWatchdog hh dt, hframe.trans hg, ?_, ?_, ?_, ?_, ?_, fun j hj => ?_, asserted_raiseFault_same ..⟩
    · rw [harb]; exact hdram
    · rw [harb]; exact henc
    · rw [harb]; exact hdramReqs
    · rw [harb]; exact hencReqs
    · rw [hpend]; exact pendAt_withdrawnFor_same hh
    · rw [hpend]; exact pendAt_withdrawnFor_ne hj h

/-! ## One requester alone (R410) -/

/-- A request parked and granted at once leaves the pending queues as they were. -/
theorem pend_granted {e : Bool} {i : Nat} {h g : Hub} (hi : h.arb.pend[i]? = some { parked := [] }) (hg : g.arb.pend = (park e i h).arb.pend) :
    (unpark e i g).arb.pend = h.arb.pend := by
  have hpend : (unpark e i g).arb.pend = (h.arb.pend.modify i fun q =>
      if q.parked.length < 4 then { q with parked := q.parked ++ [e] } else { q with stalled := q.stalled <|> some e }).modify i fun q =>
      { parked := q.parked.erase e ++ q.stalled.toList, stalled := none } := by
    rw [unpark, updPend, hg]
    rfl
  refine hpend.trans (List.ext_getElem? fun j => ?_)
  by_cases hij : i = j
  · subst hij
    simp [hi]
  · simp [hij]

/-- Where all pending queues are empty, the requester of a request is the one that waits. -/
theorem waits_park_iff {e : Bool} {i j : Nat} {h : Hub} (hempty : ∀ k < 20, h.arb.pend[k]? = some { parked := [] }) (hj : j < 20) :
    waits e (park e i h) j = true ↔ j = i := by
  unfold waits
  by_cases hij : j = i
  · subst hij
    simp [park, pendAt, updPend, updAt, hempty j hj]
  · rw [park, pendAt_updPend_ne hij]
    simp [pendAt, hempty j hj, hij]

/-- An arbiter of whose parts the DRAM port alone has moved. -/
theorem arb_of_dram {a b : Arb} (henc : a.enc = b.enc) (hpend : a.pend = b.pend) : a = { b with dram := a.dram } := by
  cases a
  cases henc
  cases hpend
  rfl

theorem hub_of_dram {h t : Hub} (ht : ArbiterOnly h t) (henc : t.arb.enc = h.arb.enc) (hpend : t.arb.pend = h.arb.pend)
    (hfree : t.free = h.free) : t = { h with arb.dram := t.arb.dram } := by
  rw [ArbiterOnly, hfree, arb_of_dram henc hpend] at ht
  exact ht

/-- Settles O35, event by event. -/
theorem arbiterGrants : Obligations.ArbiterGrants := by
  intro s h
  refine ⟨?refill, fun i hp hlen hi h9 hempty hc => ?single, fun i n hp => ?finish, fun i n j hi hh => ⟨fun hj hlen hc => ?take, fun hj hroom => ?park⟩,
    fun i dt hd he hf => ?watchdog⟩
  case refill =>
    refine ⟨{ h.arb with dram := refilled h false, enc := refilled h true }, rfl, rfl, fun enc => ?_⟩
    cases enc <;>
      refine ⟨rfl, rfl, rfl, List.length_mapIdx, fun i q hq => List.getElem?_mapIdx.trans ?_⟩ <;>
      exact congrArg (Option.map _) hq
  case single =>
    have hg : allParked false [i] h = park false i h := rfl
    have hmine : ∃ j < 20, waits false (allParked false [i] h) j = true := ⟨i, hi, (waits_park_iff hempty hi).mpr rfl⟩
    obtain ⟨w, hw20, hww, hb, -, -⟩ := breakPoint_of_waiter (e := false) (is := [i]) (h := h) hp hmine
    obtain rfl : w = i := (waits_park_iff hempty hw20).mp hww
    obtain ⟨⟨-, pend, same, credit, free⟩, holder⟩ := debited_grant false w (allParked false [w] h)
    have hdram : (breakPoint false [w] h).arb.dram = resource (grant false w (allParked false [w] h)) false := congrArg (·.arb.dram) hb
    have hpend : (breakPoint false [w] h).arb.pend = h.arb.pend := by
      rw [hb]
      exact pend_granted (hempty w hi) pend
    have hfree : (breakPoint false [w] h).free = h.free := by
      rw [hb]
      exact free hc
    have huses : [w].filter (uses false) = [w] := by simp [uses, hi, h9]
    have hexec : exec (.arbitrationRound false [w]) s = hubNext s (breakPoint false ([w].filter (uses false)) h) := rfl
    rw [huses, hub_of_dram (arbiterOnly_breakPoint false [w] h) (resource_breakPoint_other false [w] h) hpend hfree] at hexec
    refine ⟨_, hexec, ?_, ?_, fun j hj => ?_⟩
    · rw [hdram]
      exact holder
    · rw [hdram]
      exact credit (by rw [resource_allParked]; exact hlen ▸ hi) hc
    · rw [hdram]
      exact same j hj
  case finish =>
    exact congrArg (hubNext s) (breakPoint_of_preempted (e := false) (is := []) (h := h) hp)
  case take =>
    obtain ⟨hholder, hpreempted, henc, hpend, hdebit⟩ := preempt_taken (i := i) (n := n) hh hj
    obtain ⟨hfree, hcredit⟩ := hdebit hc
    exact ⟨_, (exec_privilegedPreemption hi n s).trans (congrArg (hubNext s) (hub_of_dram (arbiterOnly_preempt i n h) henc hpend hfree)),
      hholder, hpreempted, hcredit hlen⟩
  case park =>
    have hlow : ∀ k, h.arb.dram.holder = some k → k < 5 := fun k hk => by
      obtain rfl : j = k := Option.some.inj (hh.symm.trans hk)
      exact hj
    refine (exec_privilegedPreemption hi n s).trans (congrArg (hubNext s) ?_)
    rw [preempt_of_privileged hlow, park, updPend_eq_set, if_pos hroom]
  case watchdog =>
    have hfirst : withdrawGrant false i h = updPend i (fun _ => {}) { h with arb.dram.holder := none } := by
      rw [withdrawGrant_eq]
      exact if_pos hd
    have hsecond : withdrawnFor i h = updPend i (fun _ => {}) { h with arb.dram.holder := none } := by
      rw [withdrawnFor, hfirst, withdrawGrant_eq]
      exact if_neg he
    rw [updPend_eq_set] at hsecond
    refine (exec_grantWatchdog (.inl hd) dt).trans (congrArg (hubNext s) ?_)
    rw [hsecond]
    exact raiseFault_of_fresh (h := { h with arb.dram.holder := none, arb.pend := h.arb.pend.set i {} }) hf (not_isSwitchFault_watchdog i) ..

end Sys2Proof.Machine
end

