-- ==== Sys2Proof/Proofs/Memory.lean ====
section
/-! PROOFS. Pages, the block pool and revoked windows (16 R399, R403, R406). -/

namespace Sys2Proof.Machine

/-- The next block's last burst is issued where none is out. -/
theorem moveBlock_of_none {h : Hub} (h0 : h.mem.poolMoving = 0) :
    moveBlock h = { h with mem.poolMoving := min 1 h.mem.poolUse, mem.poolUse := h.mem.poolUse - min 1 h.mem.poolUse } := by
  unfold moveBlock
  dsimp only
  rw [if_pos h0, h0, Nat.zero_add]

theorem execWindowRevoke_entry (k i : Nat) (h : Hub) (w : Window) :
    (if i == k && w.isOpen && !objectExists h w then revokeWindow w else w) =
      if i = k ∧ w.isOpen = true ∧ objectExists h w = false then { w with revoked := true, table := [] } else w := by
  by_cases hall : i = k ∧ w.isOpen = true ∧ objectExists h w = false
  · rw [if_pos hall, if_pos (by simp [hall])]
    rfl
  · rw [if_neg hall, if_neg (by simpa [and_assoc] using hall)]

/-- Settles O37: the move's page, the pool's block, the window. -/
theorem memoryEvents : Obligations.MemoryEvents := by
  intro s k h
  refine ⟨?page, ?pool, ?window⟩
  case page =>
    refine ⟨{ h.mem with moving := h.mem.moving.filter (·.1 != k), retired := h.mem.retired ++ h.mem.moving.filter (·.1 == k) },
      rfl, rfl, fun new hn => ?_, fun x hx => List.mem_append_left _ hx, fun x => ?_, rfl⟩
    · exact List.mem_append_right _ (List.mem_filter.mpr ⟨hn, beq_self_eq_true _⟩)
    · exact List.mem_filter.trans (and_congr_right fun _ => bne_iff_ne)
  case pool =>
    let g : Hub := { h with mem.poolFree := h.mem.poolFree + h.mem.poolMoving, mem.poolMoving := 0 }
    refine ⟨{ g.mem with poolMoving := min 1 g.mem.poolUse, poolUse := g.mem.poolUse - min 1 g.mem.poolUse },
      congrArg (hubNext s) (moveBlock_of_none (h := g) rfl), rfl, min_le_left .., ?_, rfl⟩
    change h.mem.poolFree + h.mem.poolMoving + (h.mem.poolUse - min 1 h.mem.poolUse) + min 1 h.mem.poolUse = _
    omega
  case window =>
    refine ⟨_, rfl, List.length_mapIdx, fun i w hw => ?_⟩
    refine List.getElem?_mapIdx.trans ?_
    rw [hw]
    exact congrArg some (execWindowRevoke_entry k i h w)

end Sys2Proof.Machine
end

