-- ==== Sys2Proof/Proofs/PowerAndReset.lean ====
section
/-! PROOFS. VIN, brown-out and RESET_N (17 R419 to R421, 15 R393). -/

namespace Sys2Proof.Machine

/-- The record being programmed, if any, is all that a loss of power leaves in flash (R393). -/
theorem tearRecord_flash (h : Hub) : (tearRecord h).flash = { h.flash with journal := (tearRecord h).flash.journal } ∧
    ((tearRecord h).flash.journal = h.flash.journal ∨
      ∃ r q, h.jr.queue = r :: q ∧ (tearRecord h).flash.journal = h.flash.journal ++ [{ r with torn := true }]) := by
  unfold tearRecord
  cases h.jr.queue with
  | nil => exact ⟨rfl, .inl rfl⟩
  | cons r q =>
    dsimp only
    split
    · exact ⟨rfl, .inr ⟨r, q, rfl, rfl⟩⟩
    · exact ⟨rfl, .inl rfl⟩

/-- It touches no supply and nothing that has left the hub. -/
theorem tearRecord_frame (h : Hub) : tearRecord h = { h with flash := (tearRecord h).flash, free := (tearRecord h).free } := by
  unfold tearRecord
  split
  · rfl
  · dsimp only
    split <;> rfl

theorem tearRecord_kept (h : Hub) : (tearRecord h).power = h.power ∧ (tearRecord h).hbOut = h.hbOut ∧ (tearRecord h).out = h.out := by
  rw [tearRecord_frame]
  exact ⟨rfl, rfl, rfl⟩

/-- VIN back above the start threshold ends VIN_LOW. -/
def vinRecovered (h : Hub) : Hub := clearOcc 0x51 0 h.time.tickInst { h with power.vinLow := false }

theorem exec_vinRise_of_low {s : State} (hp : s.hub.power.phase ≠ .off) (hl : s.hub.power.vinLow = true) :
    exec .vinRise s = .next { s with hub := vinRecovered s.hub } := by
  have hrise : execVinRise s = .next (match s.hub.power.phase with
    | .off => hardReset .supply { s with hub.power.vinGood := true }
    | _ => if s.hub.power.vinLow then { s with hub := vinRecovered s.hub } else s) := rfl
  refine hrise.trans (congrArg Host.Outcome.next ?_)
  split
  next hoff => exact absurd hoff hp
  next => exact if_pos hl

theorem exec_vinRise_of_steady {s : State} (hp : s.hub.power.phase ≠ .off) (hl : s.hub.power.vinLow = false) : exec .vinRise s = .next s := by
  refine congrArg Host.Outcome.next ?_
  split
  next hoff => exact absurd hoff hp
  next => exact if_neg (by simp [hl])

theorem exec_vinRise_of_off {s : State} (hp : s.hub.power.phase = .off) :
    exec .vinRise s = .next (hardReset .supply { s with hub.power.vinGood := true }) := by
  refine congrArg Host.Outcome.next ?_
  split
  next => rfl
  next hon => exact absurd hp hon

/-- Settles O58, by the restart each row comes to. -/
theorem powerResets : Obligations.PowerResets := by
  intro s h wiped
  have htorn := tearRecord_flash h
  obtain ⟨hpower, hbeat, hout⟩ := tearRecord_kept s.hub
  refine ⟨fun hoff => ?rise, exec_vinRise_of_steady, fun hp hl => ?low, ?brown, fun ns hp hns => ?reset, fun ns hno => ?short⟩
  case rise => exact ⟨_, exec_vinRise_of_off hoff, ⟨rfl, rfl, rfl, rfl, .inl rfl⟩, rfl⟩
  case low =>
    let g : Hub := { h with power.vinLow := false }
    have hg : vinRecovered h = { g with faults := (vinRecovered h).faults } := clearOcc_frame 0x51 0 h.time.tickInst g
    have hpower : (vinRecovered h).power = { h.power with vinLow := false } := congrArg Hub.power hg
    refine ⟨vinRecovered h, exec_vinRise_of_low hp hl, hpower, ?_, ?_⟩
    · rw [hpower]
      exact hg
    · by_cases hforce : h.faults.force.contains (0x51, 0, true) = true
      · rw [hforce, Bool.true_and]
        exact asserted_clearOcc_forced (h := g) hforce ..
      · rw [Bool.not_eq_true] at hforce
        rw [hforce, Bool.false_and]
        exact asserted_clearOcc_same (h := g) hforce _
  case brown =>
    refine ⟨_, rfl, rfl, rfl, ?_, htorn⟩
    simp only [hardReset, restart, hpower, hbeat, hout]
    rfl
  case reset =>
    refine ⟨_, congrArg Host.Outcome.next (if_pos ⟨hns, hp⟩), rfl, rfl, ?_, htorn⟩
    simp only [hardReset, restart, hpower, hbeat, hout]
    rfl
  case short =>
    refine congrArg Host.Outcome.next (if_neg ?_)
    rintro ⟨hns, hp⟩
    rcases hno with hoff | hlt
    · exact hp hoff
    · omega

end Sys2Proof.Machine
end

