-- ==== Sys2Proof/Proofs/BringUp.lean ====
section
/-! PROOFS. Bring-up: BOOT, RESTORE, CALIBRATE, and the ends of the phases (17 R422, R423, 13 R327, R336, 05 R110). -/

namespace Sys2Proof.Machine

/-! ## BOOT (13 R336) -/

theorem bootEnd_of_some {h : Hub} {i : Nat} (hs : bootSlot h = some i) : bootEnd h = { h with
    power.phase := .selftest, flash.running := i
    power.bootCounted := h.power.bootCounted || i == h.flash.bootChoice
    flash.bootFails := if i = h.flash.bootChoice ∧ h.power.bootCounted = false then h.flash.bootFails + 1 else h.flash.bootFails } := by
  have hfails : (if i = h.flash.bootChoice ∧ (!h.power.bootCounted) = true then h.flash.bootFails + 1 else h.flash.bootFails) =
      if i = h.flash.bootChoice ∧ h.power.bootCounted = false then h.flash.bootFails + 1 else h.flash.bootFails :=
    if_congr (and_congr_right fun _ => Bool.not_eq_true' _ ▸ Iff.rfl) rfl rfl
  unfold bootEnd
  rw [hs]
  dsimp only
  rw [hfails]

theorem bootEnd_of_none {h : Hub} (hs : bootSlot h = none) : bootEnd h = { h with power.phase := .noImage } := by
  unfold bootEnd
  rw [hs]

/-- The image that runs, with its slots written out. -/
theorem bootSlot_eq (h : Hub) : bootSlot h =
    if imageVerifies (imageOf h h.flash.bootChoice) h && (decide (h.flash.bootFails < 3 + b2n h.power.bootCounted) ||
        !imageVerifies (imageOf h (1 - h.flash.bootChoice)) h) then some h.flash.bootChoice
    else if imageVerifies (imageOf h (1 - h.flash.bootChoice)) h then some (1 - h.flash.bootChoice) else none := rfl

section
variable {h : Hub} (hok : imageVerifies (imageOf h h.flash.bootChoice) h = true)
include hok

theorem bootSlot_of_choice (hfew : h.flash.bootFails - b2n h.power.bootCounted < 3 ∨
    imageVerifies (imageOf h (1 - h.flash.bootChoice)) h = false) : bootSlot h = some h.flash.bootChoice := by
  refine (bootSlot_eq h).trans (if_pos ?_)
  rw [hok, Bool.true_and, Bool.or_eq_true, decide_eq_true_eq]
  refine hfew.imp (fun hlt => ?_) fun hno => by rw [hno]; rfl
  omega

theorem bootSlot_of_failed (hmany : 3 ≤ h.flash.bootFails - b2n h.power.bootCounted)
    (hother : imageVerifies (imageOf h (1 - h.flash.bootChoice)) h = true) : bootSlot h = some (1 - h.flash.bootChoice) := by
  refine (bootSlot_eq h).trans ((if_neg ?_).trans (if_pos hother))
  rw [hok, Bool.true_and, hother, Bool.not_true, Bool.or_false, decide_eq_true_eq]
  omega

end

section
variable {h : Hub} (hno : imageVerifies (imageOf h h.flash.bootChoice) h = false)
include hno

theorem bootSlot_of_other (hother : imageVerifies (imageOf h (1 - h.flash.bootChoice)) h = true) :
    bootSlot h = some (1 - h.flash.bootChoice) := by
  refine (bootSlot_eq h).trans ((if_neg ?_).trans (if_pos hother))
  rw [hno, Bool.false_and]
  exact Bool.false_ne_true

theorem bootSlot_of_neither (hother : imageVerifies (imageOf h (1 - h.flash.bootChoice)) h = false) : bootSlot h = none := by
  refine (bootSlot_eq h).trans ((if_neg ?_).trans (if_neg (by rw [hother]; exact Bool.false_ne_true)))
  rw [hno, Bool.false_and]
  exact Bool.false_ne_true

end

/-! ## RESTORE (17 R422, R424) -/

/-- What RESTORE keeps once the counts have risen. -/
structure CountsKept (h g : Hub) : Prop where
  opBase : g.time.opBase = h.time.opBase
  opLog : g.flash.opLog = h.flash.opLog
  bringUps : g.flash.bringUps = h.flash.bringUps
  powerCycles : g.flash.powerCycles = h.flash.powerCycles
  keys : g.flash.keys = h.flash.keys
  lifecycle : g.flash.lifecycle = h.flash.lifecycle

theorem CountsKept.refl (h : Hub) : CountsKept h h := ⟨rfl, rfl, rfl, rfl, rfl, rfl⟩

theorem CountsKept.trans {h g k : Hub} (hg : CountsKept h g) (hk : CountsKept g k) : CountsKept h k :=
  ⟨hk.opBase.trans hg.opBase, hk.opLog.trans hg.opLog, hk.bringUps.trans hg.bringUps, hk.powerCycles.trans hg.powerCycles,
    hk.keys.trans hg.keys, hk.lifecycle.trans hg.lifecycle⟩

theorem countsKept_of_eq {h g : Hub} (htime : g.time = h.time) (hflash : g.flash = h.flash) : CountsKept h g := by
  constructor <;> simp only [htime, hflash]

/-- Writing the journal keeps them. -/
theorem countsKept_of_journal {h g : Hub} (hj : JournalOnly h g) (hf : FlashJournaled h g) : CountsKept h g := by
  have htime : g.time = h.time := by rw [JournalOnly] at hj; rw [hj]
  rw [FlashJournaled] at hf
  exact ⟨by rw [htime], by rw [hf], by rw [hf], by rw [hf], by rw [hf], by rw [hf]⟩

theorem countsKept_jChange (code : Nat) (detail : Bytes) (h : Hub) : CountsKept h (jChange code detail h) :=
  countsKept_of_journal (journalOnly_jChange ..) (flashJournaled_jChange ..)

theorem flashJournaled_jLimited (r : JRec) (h : Hub) : FlashJournaled h (jLimited r h) := by
  unfold jLimited
  dsimp only
  split
  · exact FlashJournaled.trans (g := { h with jr.buckets := (r.code, tokens h r.code - 1) :: h.jr.buckets.filter (·.1 != r.code) }) rfl
      (flashJournaled_queueRec ..)
  · split <;> rfl

theorem countsKept_jEvent (code : Nat) (detail : Bytes) (h : Hub) : CountsKept h (jEvent code detail h) :=
  countsKept_of_journal (journalOnly_jLimited ..) (flashJournaled_jLimited ..)

theorem TrafficOnly.counts {h g : Hub} (hg : TrafficOnly h g) : CountsKept h g := by
  rw [TrafficOnly] at hg
  exact countsKept_of_eq (by rw [hg]) (by rw [hg])

theorem countsKept_laneTo (st : LaneState) (l : Nat) (h : Hub) : CountsKept h (laneTo st l h) := by
  have hleft : CountsKept h (updLane l (fun x => { idleLane x with state := st, rate := restRate st (laneDesc h l) }) h) := countsKept_of_eq rfl rfl
  exact iteInduction (fun _ => hleft.trans (trafficOnly_leaveLink ..).counts) fun _ => hleft

theorem countsKept_clearLaneFaults (l : Nat) (h : Hub) : CountsKept h (clearLaneFaults l h) := ⟨rfl, rfl, rfl, rfl, rfl, rfl⟩

theorem countsKept_applyLane (l : Nat) (d : BitVec 64) (h : Hub) : CountsKept h (applyLane l d h) := by
  refine iteInduction (motive := CountsKept h) (fun _ => iteInduction (fun _ => ?revived) fun _ => ⟨rfl, rfl, rfl, rfl, rfl, rfl⟩)
    fun _ => iteInduction (fun _ => ?restarted) fun _ => ⟨rfl, rfl, rfl, rfl, rfl, rfl⟩
  case revived =>
    refine CountsKept.trans (CountsKept.trans ?_ (countsKept_laneTo ..)) (countsKept_clearLaneFaults ..)
    exact ⟨rfl, rfl, rfl, rfl, rfl, rfl⟩
  case restarted =>
    refine CountsKept.trans ?_ (countsKept_laneTo ..)
    exact ⟨rfl, rfl, rfl, rfl, rfl, rfl⟩

theorem countsKept_restoreCounters (h : Hub) : CountsKept h (restoreCounters h) := by
  refine List.foldlRecOn (motive := CountsKept h) _ _ ⟨rfl, rfl, rfl, rfl, rfl, rfl⟩ fun g hg r _ => hg.trans ?_
  refine countsKept_of_eq ?_ (raiseCounter_flash ..)
  unfold raiseCounter
  split
  · rfl
  · split <;> rfl

theorem countsKept_restoreJournal (h : Hub) : CountsKept h (restoreJournal h) := by
  refine iteInduction (motive := CountsKept h) (fun _ => CountsKept.trans ?_ (countsKept_jEvent ..)) fun _ => ⟨rfl, rfl, rfl, rfl, rfl, rfl⟩
  exact ⟨rfl, rfl, rfl, rfl, rfl, rfl⟩

theorem countsKept_noteFallback (h : Hub) : CountsKept h (noteFallback h) :=
  iteInduction (fun _ => .refl h) fun _ => countsKept_jChange ..

theorem countsKept_restoreConfig (h : Hub) : CountsKept h (restoreConfig h) := by
  have hlanes (g : Hub) (hg : CountsKept h g) (f : Nat → BitVec 64) : CountsKept h ((List.range 6).foldl (fun h l => applyLane l (f l) h) g) :=
    List.foldlRecOn (motive := CountsKept h) _ _ hg fun x hx l _ => hx.trans (countsKept_applyLane ..)
  unfold restoreConfig
  dsimp only
  split
  · refine (hlanes _ ?_ _).trans (countsKept_jChange ..)
    exact ⟨rfl, rfl, rfl, rfl, rfl, rfl⟩
  · refine hlanes _ ?_ _
    exact ⟨rfl, rfl, rfl, rfl, rfl, rfl⟩

/-- The start of CALIBRATE: what RESTORE has accepted holds from tick 0 on. -/
def calibrating (h : Hub) : Hub := { h with
  power.phase := .calibrate
  flash.accepted := (sortBy (·.1) h.flash.accepted).map fun x => (0, x.2) }

theorem restoreEnd_eq (h : Hub) :
    restoreEnd h = loopsToFault (calibrating (restoreConfig (noteFallback (restoreJournal (restoreCounters (restoreCounts h)))))) := by
  unfold restoreEnd calibrating
  dsimp only

/-- RESTORE ends in CALIBRATE with the counts of R422 risen. -/
theorem countsKept_restoreEnd (h : Hub) : (restoreEnd h).power.phase = .calibrate ∧ CountsKept (restoreCounts h) (restoreEnd h) := by
  have hcounters := countsKept_restoreCounters (restoreCounts h)
  have hjournal := countsKept_restoreJournal (restoreCounters (restoreCounts h))
  have hfallback := countsKept_noteFallback (restoreJournal (restoreCounters (restoreCounts h)))
  have hconfig := countsKept_restoreConfig (noteFallback (restoreJournal (restoreCounters (restoreCounts h))))
  have hkept := ((hcounters.trans hjournal).trans hfallback).trans hconfig
  rw [restoreEnd_eq, loopsToFault_frame]
  generalize restoreConfig (noteFallback (restoreJournal (restoreCounters (restoreCounts h)))) = g at hkept ⊢
  exact ⟨rfl, hkept.trans ⟨rfl, rfl, rfl, rfl, rfl, rfl⟩⟩

/-! ## CALIBRATE (05 R110) -/

/-- Power, time and configuration stay. -/
structure SetupKept (h g : Hub) : Prop where
  power : g.power = h.power
  time : g.time = h.time
  cfg : g.cfg = h.cfg

theorem SetupKept.refl (h : Hub) : SetupKept h h := ⟨rfl, rfl, rfl⟩

theorem SetupKept.trans {h g k : Hub} (hg : SetupKept h g) (hk : SetupKept g k) : SetupKept h k :=
  ⟨hk.power.trans hg.power, hk.time.trans hg.time, hk.cfg.trans hg.cfg⟩

theorem setupKept_updFe (i : Nat) (f : Fe → Fe) (h : Hub) : SetupKept h (updFe i f h) := ⟨rfl, rfl, rfl⟩

theorem setupKept_raiseNow (source inst sub : Nat) (detail : BitVec 64) (h : Hub) : SetupKept h (raiseNow source inst sub detail h) :=
  ⟨raiseNow_power .., raiseNow_time .., raiseNow_cfg ..⟩

theorem setupKept_lightRun (env : BootEnv) (fe mode range : Nat) (h : Hub) : SetupKept h (lightRun env fe mode range h) := by
  unfold lightRun
  extract_lets t temp outs r q g
  have hg : SetupKept h g := setupKept_updFe ..
  split
  · exact (hg.trans (setupKept_updFe ..)).trans ⟨jChange_power .., jChange_time .., jChange_cfg ..⟩
  · exact (hg.trans (setupKept_updFe ..)).trans (setupKept_raiseNow ..)

theorem setupKept_noteSparePath (t g : Nat) (bad last : Bool) (h : Hub) : SetupKept h (noteSparePath t g bad last h) := by
  have hmarked (f : Group → Group) : SetupKept h (updGroup g f h) := ⟨rfl, rfl, rfl⟩
  exact iteInduction (fun _ => (hmarked _).trans (setupKept_raiseNow ..)) fun _ => iteInduction (fun _ => hmarked _) fun _ => .refl h

theorem setupKept_lightTileRun (env : BootEnv) (t : Nat) (h : Hub) (x : Nat × Nat × List Nat) : SetupKept h (lightTileRun env t h x) := by
  unfold lightTileRun
  extract_lets mode range path q
  split
  · exact List.foldlRecOn (motive := SetupKept h) _ _ (.refl h) fun g hg fe _ => hg.trans (setupKept_updFe ..)
  · split
    · have hg : SetupKept h (x.2.2.foldl (fun h fe => lightDue mode range (writeQuality fe [q fe] h) fe) h) := List.foldlRecOn (motive := SetupKept h) _ _ (.refl h) fun k hk fe _ =>
        (hk.trans (setupKept_updFe ..)).trans (setupKept_updFe ..)
      refine SetupKept.trans ?_ (setupKept_raiseNow ..)
      exact hg.trans ⟨rfl, rfl, rfl⟩
    · refine List.foldlRecOn (motive := SetupKept h) _ _ (.refl h) fun g hg fe _ => hg.trans ?_
      exact iteInduction (fun _ => setupKept_lightRun ..) fun _ => (setupKept_lightRun ..).trans (setupKept_noteSparePath ..)

theorem setupKept_calibrateAll (env : BootEnv) (h : Hub) : SetupKept h (calibrateAll env h) :=
  List.foldlRecOn (motive := SetupKept h) _ _ (.refl h) fun _ hg t _ =>
    List.foldlRecOn (motive := SetupKept h) _ _ hg fun _ hk x _ => hk.trans (setupKept_lightTileRun env t _ x)

/-! ## The ends of the phases (R423) -/

theorem exec_phaseEnd {s : State} {env : BootEnv} {g : Hub} (hg : phaseEnd env s.hub = g) :
    exec (.bringUpPhaseEnd env) s = .next { s with hub := g } := congrArg (hubNext s) hg

/-- The end of the wipe, as the two bits show it. -/
theorem wipeDone_eq (h : Hub) : (if h.power.dramWiping then { h with power.dramWiping := false, power.dramWiped := true } else h) =
    { h with power.dramWiping := false, power.dramWiped := h.power.dramWiped || h.power.dramWiping } := by
  by_cases hw : h.power.dramWiping = true
  · rw [if_pos hw, hw, Bool.or_true]
  · rw [if_neg hw]
    rw [Bool.not_eq_true] at hw
    rw [hw, Bool.or_false, ← hw]

theorem logSeconds_eq (h : Hub) : logSeconds h =
    { h with flash.opLog := if h.flash.opLog + 64 ≤ opSeconds h then opSeconds h else h.flash.opLog } := by
  unfold logSeconds
  split <;> rfl

theorem phaseEnd_of_none {h : Hub} (hs : h.power.phase ≠ .supply) (hb : bringingUp h.power.phase = false ∨ h.power.phase = .align)
    (env : BootEnv) : phaseEnd env h = h := by
  unfold phaseEnd
  cases hp : h.power.phase <;> simp_all [bringingUp]

theorem selftestEnd_of_passed {env : BootEnv} (hr : env.ramOk = true) (hk : env.kat = knownAnswer) (h : Hub) :
    selftestEnd env h = { h with power.phase := .restore, power.dramWiping := !h.power.dramWiped } := if_pos (by simp [hr, hk])

theorem selftestEnd_of_failed {env : BootEnv} (hf : env.ramOk = false ∨ env.kat ≠ knownAnswer) (h : Hub) :
    selftestEnd env h = { h with power.phase := .selftestFail } := by
  refine if_neg ?_
  rw [Bool.and_eq_true, beq_iff_eq]
  rintro ⟨hr, hk⟩
  rcases hf with hf | hf
  · exact absurd (hf.symm.trans hr) nofun
  · exact hf hk

/-- Settles O59, phase by phase. -/
theorem bringUpPhases : Obligations.BringUpPhases := by
  intro s env h goes
  refine ⟨fun hp => ?supply, fun hp => ?clocks, fun hp => ?boot, fun hp hr hk => ?passed, fun hp hf => ?failed, fun hp hres => ?restore,
    fun hp => ?calibrate, fun hs hb => ?held, ?wipe, ?log⟩
  case supply => exact exec_phaseEnd (by rw [phaseEnd, hp])
  case clocks => exact exec_phaseEnd (by rw [phaseEnd, hp])
  case boot =>
    intro c runs failed
    have hend : phaseEnd env h = bootEnd h := by rw [phaseEnd, hp]
    exact ⟨fun hok hfew => exec_phaseEnd (hend.trans (bootEnd_of_some (bootSlot_of_choice hok hfew))),
      fun hok hmany ho => exec_phaseEnd (hend.trans (bootEnd_of_some (bootSlot_of_failed hok hmany ho))),
      fun hno ho => exec_phaseEnd (hend.trans (bootEnd_of_some (bootSlot_of_other hno ho))),
      fun hno ho => exec_phaseEnd (hend.trans (bootEnd_of_none (bootSlot_of_neither hno ho)))⟩
  case passed => exact exec_phaseEnd ((show phaseEnd env h = selftestEnd env h by rw [phaseEnd, hp]).trans (selftestEnd_of_passed hr hk h))
  case failed => exact exec_phaseEnd ((show phaseEnd env h = selftestEnd env h by rw [phaseEnd, hp]).trans (selftestEnd_of_failed hf h))
  case restore =>
    obtain ⟨hphase, hkept⟩ := countsKept_restoreEnd h
    have hcounts : restoreCounts h = { h with
        power.restored := true
        time.opBase := h.flash.opLog + 64
        flash.opLog := h.flash.opLog + 64
        flash.powerCycles := if h.power.warm then h.flash.powerCycles else (h.flash.powerCycles + 1) % 2 ^ 32
        flash.bringUps := (h.flash.bringUps + 1) % 2 ^ 32
        jr.refilled := (h.flash.opLog + 64) / 6 } := if_neg (by simp [hres])
    rw [hcounts] at hkept
    exact ⟨restoreEnd h, exec_phaseEnd (by rw [phaseEnd, hp]), hphase, hkept.opBase, hkept.opLog, hkept.bringUps, hkept.powerCycles, hkept.keys,
      hkept.lifecycle⟩
  case calibrate =>
    have hkept := setupKept_calibrateAll env h
    have hwiped : (calibrateAll env h).power.dramWiped = h.power.dramWiped := congrArg Power.dramWiped hkept.power
    exact ⟨calibrateEnd env h, exec_phaseEnd (by rw [phaseEnd, hp]), rfl, rfl, hwiped, hkept.time, hkept.cfg⟩
  case held => exact exec_phaseEnd (phaseEnd_of_none hs hb env)
  case wipe => exact congrArg (hubNext s) (wipeDone_eq h)
  case log => exact congrArg (hubNext s) (logSeconds_eq h)

end Sys2Proof.Machine
end

