-- ==== Sys2Proof/Proofs/QueueKept.lean ====
section
/-! PROOFS. Every row answers with a next state, and leaves the commands that wait as they are. -/

namespace Sys2Proof.Machine

/-- The commands that wait are the same. -/
def SameQueue (s t : State) : Prop := t.pending = s.pending

theorem SameQueue.refl (s : State) : SameQueue s s := rfl

theorem SameQueue.trans {s t u : State} (hs : SameQueue s t) (ht : SameQueue t u) : SameQueue s u := Eq.trans ht hs

/-- A step that keeps the queue keeps it after a change of the hub too. -/
theorem SameQueue.afterHub {s t : State} {h : Hub} (ht : SameQueue { s with hub := h } t) : SameQueue s t := ht

/-! ## Mailboxes (13 R316 to R319) -/

theorem sameQueue_updMb (mb : Nat) (f : HostMb → HostMb) (s : State) : SameQueue s (updMb mb f s) := updMb_pending ..

theorem sameQueue_deliverNotice (mb : Nat) (s : State) : SameQueue s (deliverNotice mb s) := by
  unfold deliverNotice
  dsimp only
  split
  · exact .refl s
  next n ns _ =>
    refine iteInduction (fun _ => .refl s) fun _ => ?_
    exact (sameQueue_updMb mb _ { s with hub := setPending mb (pendingOf s.hub mb - 1) s.hub }).trans rfl

theorem sameQueue_deliverResponse (mb : Nat) (m : Bytes) (s : State) : SameQueue s (deliverResponse mb m s) := by
  unfold deliverResponse
  split
  · exact (sameQueue_updMb mb _ { s with host.ram := writeBytes s.host.ram (hostBase mb + 0x2000) m }).trans rfl
  · exact iteInduction (fun _ => rfl) fun _ => rfl

theorem sameQueue_deliverNoticeMsg (mb : Nat) (m : Bytes) (s : State) : SameQueue s (deliverNoticeMsg mb m s) := by
  unfold deliverNoticeMsg
  split
  · exact (sameQueue_updMb ..).trans (sameQueue_deliverNotice ..)
  · exact iteInduction (fun _ => rfl) fun _ => rfl

theorem sameQueue_releaseHeld (s : State) : SameQueue s (releaseHeld s) :=
  List.foldlRecOn (motive := SameQueue s) _ _ rfl fun _ ht x _ => ht.trans (sameQueue_deliverResponse x.2.1 x.2.2 _)

theorem sameQueue_respond (code mb : Nat) (m : Bytes) (s : State) : SameQueue s (respond code mb m s) :=
  iteInduction (fun _ => rfl) fun _ => sameQueue_deliverResponse mb m s

theorem sameQueue_process (code : Nat) (cmd : Option Cmd) (env : Env) (r : Req) (s : State) : SameQueue s (process code cmd env r s) := by
  have hresponse (m : Bytes) : SameQueue s (respond code r.mailbox m { s with hub := (handle code cmd env r s.hub).hub }) :=
    (sameQueue_respond ..).afterHub
  unfold process
  dsimp only
  split
  · exact iteInduction (motive := SameQueue s) (fun _ => hresponse _) fun _ => hresponse _
  · exact hresponse _

theorem sameQueue_takeMessage (env : Env) (w : Waiting) (s : State) : SameQueue s (takeMessage env w s) := by
  have hidle : SameQueue s (if isHostMb w.mb then updMb w.mb (fun x => { x with busy := false }) s else s) :=
    iteInduction (motive := SameQueue s) (fun _ => sameQueue_updMb ..) fun _ => .refl s
  unfold takeMessage
  rcases parseMsg w.mb w.msg with _ | ⟨code, r⟩
  · exact hidle
  · exact iteInduction (fun _ => iteInduction (motive := SameQueue s) (fun _ => hidle) fun _ => hidle) fun _ => sameQueue_process ..

theorem sameQueue_serveOne (env : Env) (s : State) : SameQueue s (serveOne env s) := by
  unfold serveOne
  split
  · exact .refl s
  · split
    · exact .refl s
    · exact iteInduction (fun _ => rfl) fun _ => iteInduction (fun _ => rfl) fun _ => (sameQueue_takeMessage ..).afterHub

theorem sameQueue_serveFuel (env : Env) (n : Nat) (s : State) : SameQueue s (serveFuel env n s) := by
  induction n generalizing s with
  | zero => exact .refl s
  | succ n ih => exact iteInduction (fun _ => .refl s) fun _ => (sameQueue_serveOne env s).trans (ih _)

theorem sameQueue_serve (env : Env) (s : State) : SameQueue s (serve env s) :=
  iteInduction (fun _ => sameQueue_serveFuel ..) fun _ => .refl s

theorem sameQueue_answerBusy (mb : Nat) (msg : Bytes) (s : State) : SameQueue s (answerBusy mb msg s) := by
  unfold answerBusy
  split
  · exact .refl s
  · exact iteInduction (fun _ => rfl) fun _ => sameQueue_deliverResponse ..

theorem sameQueue_arrive (mb via : Nat) (msg : Bytes) (env : Env) (s : State) : SameQueue s (arrive mb via msg env s) :=
  iteInduction (fun _ => rfl) fun _ => iteInduction (fun _ => rfl) fun _ => iteInduction (fun _ => sameQueue_answerBusy ..) fun _ =>
    (sameQueue_serve ..).afterHub

theorem sameQueue_sendNotice (code : Nat) (r : Req) (status : Nat) (payload : Bytes) (s : State) :
    SameQueue s (sendNotice code r status payload s) :=
  iteInduction (fun _ => rfl) fun _ => (sameQueue_deliverNoticeMsg ..).afterHub

/-! ## The outlets and the host's FIFO (09 R218, R222 to R224) -/

theorem sameQueue_feedCustody (s : State) : SameQueue s (feedCustody s) := by
  unfold feedCustody
  split <;> exact rfl

theorem sameQueue_copyRecord (s : State) (x : Held) : SameQueue s (copyRecord s x) := by
  unfold copyRecord
  cases hostCopy s.hub x.record.ty with
  | true => exact iteInduction (motive := SameQueue s) (fun _ => rfl) fun _ => rfl
  | false => exact iteInduction (motive := SameQueue s) (fun _ => rfl) fun _ => rfl

theorem sameQueue_copyReleased (s : State) : SameQueue s (copyReleased s) :=
  List.foldlRecOn (motive := SameQueue s) _ _ rfl fun _ ht x _ => ht.trans (sameQueue_copyRecord _ x)

theorem sameQueue_outletOverrun (o : Nat) (s : State) : SameQueue s (outletOverrun o s) := by
  have hover : SameQueue s (match o with
      | 0 => { s with hub := { s.hub with outlets.lane := fifoOverrun s.hub.outlets.lane } }
      | 1 => { s with hub := { s.hub with outlets.eth := fifoOverrun s.hub.outlets.eth } }
      | _ => { s with host.fifo := fifoOverrun s.host.fifo }) := by
    split <;> exact rfl
  unfold outletOverrun
  dsimp only
  split
  · exact iteInduction (motive := SameQueue s) (fun _ => hover) fun _ => hover
  · exact hover

/-! ## Transactions (13 R314, R315) -/

theorem sameQueue_fifoDataRead (s : State) : SameQueue s (fifoDataRead s) :=
  iteInduction (motive := SameQueue s) (fun _ => SameQueue.trans rfl (sameQueue_feedCustody _)) fun _ => rfl

theorem sameQueue_readOne (addr : Nat) (s : State) : SameQueue s (readOne addr s).2 :=
  iteInduction (motive := SameQueue s) (fun _ => sameQueue_fifoDataRead s) fun _ => iteInduction (fun _ => rfl) fun _ => rfl

theorem sameQueue_readBurst (n addr : Nat) (s : State) : SameQueue s (readBurst n addr s).2 := by
  induction n generalizing s addr with
  | zero => exact .refl s
  | succ n ih => exact (sameQueue_readOne addr s).trans (ih (nextAddr addr) _)

theorem sameQueue_submit (mb : Nat) (s : State) : SameQueue s (submit mb s) :=
  iteInduction (fun _ => rfl) fun _ => (sameQueue_updMb ..).afterHub

theorem sameQueue_doorbell (bits : Word) (env : Env) (s : State) : SameQueue s (doorbell bits env s) :=
  iteInduction (fun _ => rfl) fun _ =>
    SameQueue.trans (List.foldlRecOn (motive := SameQueue s) _ _ rfl fun _ ht mb _ => ht.trans (sameQueue_submit mb _)) (sameQueue_serve ..)

theorem sameQueue_storeWord (a : Nat) (w : Word) (s : State) : SameQueue s (storeWord a w s) := by
  unfold storeWord
  split
  · exact rfl
  · split <;> exact rfl

theorem sameQueue_writeOne (env : Env) (addr : Nat) (w : Word) (s : State) : SameQueue s (writeOne env addr w s) := by
  unfold writeOne
  split
  · exact rfl
  · exact sameQueue_doorbell ..
  · exact rfl
  · exact sameQueue_storeWord ..

theorem sameQueue_writeBurst (env : Env) (addr : Nat) (words : List Bytes) (s : State) : SameQueue s (writeBurst env addr words s) := by
  induction words generalizing s addr with
  | nil => exact .refl s
  | cons b bs ih => exact iteInduction (fun _ => (sameQueue_writeOne ..).trans (ih (nextAddr addr) _)) fun _ => .refl s

/-! ## Ends of jobs, messages between links, the pair -/

theorem sameQueue_jobStop (j : Nat) (s : State) : SameQueue s (jobStop j s) := by
  unfold jobStop
  split
  · exact .refl s
  · exact iteInduction (fun _ => rfl) fun _ => (sameQueue_sendNotice ..).afterHub

theorem sameQueue_windowClose (ch : Nat) (s : State) : SameQueue s (windowClose ch s) := by
  unfold windowClose
  split
  · exact .refl s
  · exact iteInduction (fun _ => rfl) fun _ => (sameQueue_sendNotice ..).afterHub

theorem sameQueue_verifyDone (s : State) : SameQueue s (verifyDone s) := by
  unfold verifyDone
  split
  · exact .refl s
  · exact (sameQueue_sendNotice ..).afterHub

theorem sameQueue_installDone (ok : Bool) (s : State) : SameQueue s (installDone ok s) := by
  unfold installDone
  split
  · exact .refl s
  · exact (sameQueue_sendNotice ..).afterHub

theorem sameQueue_mailArrives (k lane : Nat) (dest : BitVec 32) (hops mb : Nat) (msg : Bytes) (env : Env) (s : State) :
    SameQueue s (mailArrives k lane dest hops mb msg env s) :=
  iteInduction (fun _ => iteInduction (fun _ => sameQueue_arrive ..) fun _ => rfl) fun _ => iteInduction (fun _ => rfl) fun _ =>
    iteInduction (fun _ => sameQueue_arrive ..) fun _ => iteInduction (fun _ => rfl) fun _ => rfl

theorem sameQueue_mailDatagram (d : Bytes) (env : Env) (s : State) : SameQueue s (mailDatagram d env s) := by
  unfold mailDatagram
  dsimp only
  split
  · exact .refl s
  · exact iteInduction (fun _ => (sameQueue_arrive ..).afterHub) fun _ => rfl

theorem sameQueue_leaveRole (before : Hub) (s : State) : SameQueue s (leaveRole before s) :=
  iteInduction (fun _ => rfl) fun _ => .refl s

theorem sameQueue_relayUnit (body : Bytes) (s : State) : SameQueue s (relayUnit body s) :=
  iteInduction (fun _ => rfl) fun _ => iteInduction (fun _ => rfl) fun _ => sameQueue_arrive ..

theorem sameQueue_shadowUnit (u : Bytes) (s : State) : SameQueue s (shadowUnit u s) :=
  iteInduction (fun _ => rfl) fun _ => iteInduction (fun _ => rfl) fun _ => iteInduction (fun _ => rfl) fun _ =>
    iteInduction
      (fun _ => iteInduction (fun _ => (sameQueue_relayUnit ..).afterHub) fun _ => iteInduction (fun _ => rfl) fun _ => rfl)
      fun _ => iteInduction (fun _ => rfl) fun _ => rfl

/-! ## Ticks and lanes -/

theorem sameQueue_settleLanes (before : Hub) (s : State) : SameQueue s (settleLanes before s) :=
  (((sameQueue_copyReleased _).trans (sameQueue_feedCustody _)).trans (sameQueue_releaseHeld _)).afterHub

theorem sameQueue_laneWork (f : Hub → Hub) (s : State) : SameQueue s (laneWork f s) := (sameQueue_settleLanes ..).afterHub

theorem sameQueue_outletSend (outlet : Nat) (s : State) : SameQueue s (outletSend outlet s) := by
  have hdrained : SameQueue s (if outlet = 1 then { s with hub := drainEth s.hub } else s) := iteInduction (fun _ => rfl) fun _ => rfl
  exact iteInduction (motive := SameQueue s) (fun _ => hdrained.trans (sameQueue_feedCustody _)) fun _ => hdrained

theorem sameQueue_resetLeft (s : State) : SameQueue s (resetLeft s) := by
  unfold resetLeft
  split
  · exact iteInduction (fun _ => rfl) fun _ => .refl s
  · exact .refl s

theorem sameQueue_tick (overrun : Option Bool) (s : State) : SameQueue s (tick overrun s) := by
  have hcopied : SameQueue s (copyReleased (leaveRole s.hub { s with hub := hubTick overrun s.hub })) :=
    ((sameQueue_leaveRole s.hub _).trans (sameQueue_copyReleased _)).afterHub
  refine SameQueue.trans (SameQueue.trans (SameQueue.trans ?_ (sameQueue_feedCustody _)) (sameQueue_releaseHeld _)) (sameQueue_resetLeft _)
  exact iteInduction (motive := SameQueue s) (fun _ => hcopied) fun _ => hcopied

theorem sameQueue_deliver (k lane : Nat) (d : Delivery) (s : State) : SameQueue s (deliver k lane d s) := by
  cases d with
  | mail dest hops mb msg => exact sameQueue_mailArrives ..
  | flare msg => exact rfl
  | shadow bytes => exact sameQueue_shadowUnit ..

theorem sameQueue_deliverAll (k lane : Nat) (ds : List Delivery) (s : State) : SameQueue s (deliverAll k lane ds s) :=
  List.foldlRecOn (motive := SameQueue s) _ _ rfl fun _ ht d _ => ht.trans (sameQueue_deliver k lane d _)

theorem sameQueue_goodCell (k lane : Nat) (bytes : Bytes) (arrive : Inst) (s : State) : SameQueue s (goodCell k lane bytes arrive s) :=
  iteInduction (motive := SameQueue s) (fun _ => rfl) fun _ => iteInduction (fun _ => rfl) fun _ => iteInduction (fun _ => rfl) fun _ =>
    (sameQueue_deliverAll ..).afterHub

theorem sameQueue_cellReceipt (lane : Nat) (bytes : Bytes) (arrive : Inst) (s : State) : SameQueue s (cellReceipt lane bytes arrive s) :=
  iteInduction (motive := SameQueue s) (fun _ => rfl) fun _ => iteInduction (fun _ => rfl) fun _ => iteInduction (fun _ => rfl) fun _ =>
    iteInduction (fun _ => rfl) fun _ => iteInduction (fun _ => rfl) fun _ => (sameQueue_goodCell ..).afterHub

theorem sameQueue_acceptCells (k : Nat) (cells : List Bytes) (s : State) : SameQueue s (acceptCells k cells s) :=
  List.foldlRecOn (motive := SameQueue s) _ _ rfl fun _ ht _ _ =>
    iteInduction (motive := SameQueue s) (fun _ => ht) fun _ => ht.trans (sameQueue_deliverAll ..).afterHub

/-! ## Every row -/

/-- An outcome is a next state, with the same commands waiting. -/
def Completes (s : State) (o : Out) : Prop := ∃ t, o = .next t ∧ SameQueue s t

theorem completes_next {s t : State} (ht : SameQueue s t) : Completes s (.next t) := ⟨t, rfl, ht⟩

theorem completes_hubNext (s : State) (h : Hub) : Completes s (hubNext s h) := completes_next rfl

theorem completes_runCommand (code : Nat) (cmd : Cmd) (env : Env) (r : Req) (s : State) : Completes s (runCommand code cmd env r s) :=
  completes_next (iteInduction (fun _ => .refl s) fun _ => iteInduction (fun _ => .refl s) fun _ => iteInduction (fun _ => rfl) fun _ =>
    (sameQueue_process ..).afterHub)

theorem completes_faultRaise (source inst : Nat) (forced : Bool) (detail : BitVec 64) (dt : Nat) (s : State) :
    Completes s (execFaultRaise source inst forced detail dt s) := by
  have hover : SameQueue s (if 0x80 ≤ source ∧ source ≤ 0x82 ∧ !forced then outletOverrun (source - 0x80) s
      else if (source = 0x72 ∨ source = 0x73) ∧ !forced then { s with hub := { s.hub with stream.badBodies := s.hub.stream.badBodies + 1 } }
      else s) :=
    iteInduction (fun _ => sameQueue_outletOverrun ..) fun _ => iteInduction (fun _ => rfl) fun _ => rfl
  exact iteInduction (motive := Completes s) (fun _ => completes_next hover) fun _ => completes_next rfl

theorem completes_firstLight (elapsed : Inst) (s : State) : Completes s (execFirstLight elapsed s) :=
  iteInduction (motive := Completes s) (fun _ => completes_next
    (((sameQueue_copyReleased _).trans (sameQueue_feedCustody _)).trans (sameQueue_releaseHeld _)).afterHub) fun _ => completes_next rfl

theorem completes_drainEnd (timedOut : Bool) (s : State) : Completes s (execDrainEnd timedOut s) := by
  unfold execDrainEnd
  split
  · exact iteInduction (motive := Completes s) (fun _ => completes_next rfl) fun _ => completes_next rfl
  · exact completes_next rfl

theorem completes_vinRise (s : State) : Completes s (execVinRise s) := by
  refine completes_next ?_
  split
  · exact rfl
  · exact iteInduction (fun _ => rfl) fun _ => rfl

/-- Every row completes: the commands of chapter 14 by the seven steps, the rows that touch more than the hub each by its operation, the
others because they change the hub alone. -/
theorem completes_exec (i : Instr) (s : State) : Completes s (exec i s) := by
  cases hrow : commandRow i with
  | some row => exact exec_of_commandRow hrow s ▸ completes_runCommand ..
  | none =>
    cases i <;> simp only [commandRow, reduceCtorEq] at hrow
    case hostPortTransaction op addr data count env =>
      exact completes_next (iteInduction (fun _ => rfl) fun _ => iteInduction (fun _ => rfl) fun _ => iteInduction (fun _ => rfl) fun _ =>
        iteInduction (fun _ => sameQueue_readBurst ..) fun _ => sameQueue_writeBurst ..)
    case registerWrite addr w => exact completes_next (iteInduction (fun _ => sameQueue_storeWord ..) fun _ => rfl)
    case doorbell bits env => exact completes_next (sameQueue_doorbell ..)
    case attnClear bits => exact completes_next (iteInduction (fun _ => rfl) fun _ => rfl)
    case fifoStatusClear bits => exact completes_next (iteInduction (fun _ => rfl) fun _ => rfl)
    case fifoDataRead => exact completes_next (iteInduction (fun _ => sameQueue_readOne ..) fun _ => rfl)
    case copyDropsRead => exact completes_next (iteInduction (fun _ => sameQueue_readOne ..) fun _ => rfl)
    case noticeDeliver mb => exact completes_next (iteInduction (fun _ => sameQueue_deliverNotice ..) fun _ => rfl)
    case mailboxMessageArrival mb msg via env => exact completes_next (iteInduction (fun _ => sameQueue_arrive ..) fun _ => rfl)
    case faultRaise source inst forced detail dt => exact completes_faultRaise ..
    case compressJobStop j => exact completes_next (sameQueue_jobStop ..)
    case calSystemWindowClose ch => exact completes_next (sameQueue_windowClose ..)
    case fwVerifyDone => exact completes_next (sameQueue_verifyDone s)
    case fwInstallDone ok => exact completes_next (sameQueue_installDone ..)
    case outletSend o => exact completes_next (sameQueue_outletSend ..)
    case arpReply ip mac => exact iteInduction (motive := Completes s) (fun _ => completes_hubNext ..) fun _ => completes_next rfl
    case mailboxCellMessage link dest hops mb msg env => exact completes_next (iteInduction (fun _ => sameQueue_mailArrives ..) fun _ => rfl)
    case udpMailboxDatagram d env => exact completes_next (iteInduction (fun _ => sameQueue_mailDatagram ..) fun _ => rfl)
    case collectorForcedReset => exact completes_next (iteInduction (fun _ => rfl) fun _ => rfl)
    case release => exact completes_next (sameQueue_leaveRole ..).afterHub
    case pairConflict => exact completes_next (sameQueue_leaveRole ..).afterHub
    case shadowUnitReceipt u => exact completes_next (sameQueue_shadowUnit ..)
    case meridianTick overrun => exact completes_next (iteInduction (fun _ => sameQueue_tick ..) fun _ => rfl)
    case laneSearchAttempt => exact completes_next (sameQueue_laneWork ..)
    case tsReceipt => exact completes_next (sameQueue_laneWork ..)
    case rxReady => exact completes_next (sameQueue_laneWork ..)
    case trainingTimeout => exact completes_next (sameQueue_laneWork ..)
    case latencyMeasure => exact completes_next (sameQueue_laneWork ..)
    case laneLos => exact completes_next (sameQueue_laneWork ..)
    case laneLol => exact completes_next (sameQueue_laneWork ..)
    case laneRejoin => exact completes_next (sameQueue_laneWork ..)
    case cellTransmit => exact completes_next (sameQueue_laneWork ..)
    case resync => exact completes_next (iteInduction (fun _ => sameQueue_laneWork ..) fun _ => rfl)
    case nakGapTimeout => exact completes_next (iteInduction (fun _ => sameQueue_laneWork ..) fun _ => rfl)
    case cellReceipt lane cell arrive => exact completes_next ((sameQueue_cellReceipt ..).trans (sameQueue_settleLanes ..))
    case passThroughRecord link cells =>
      exact completes_next (iteInduction (fun _ => (sameQueue_acceptCells ..).trans (sameQueue_settleLanes ..)) fun _ => rfl)
    case vinRise => exact completes_vinRise s
    case brownOut => exact completes_next rfl
    case resetN => exact completes_next (iteInduction (fun _ => rfl) fun _ => rfl)
    case firstLight elapsed => exact completes_firstLight ..
    case drainEnd timedOut => exact completes_drainEnd ..
    all_goals exact completes_hubNext ..

theorem step_completes (s : State) : ∃ t, step s = .next t := by
  cases hq : s.pending with
  | nil => exact ⟨s, stepRunsFrontCommand.2 s hq⟩
  | cons c rest =>
    obtain ⟨t, ht, -⟩ := completes_exec c { s with pending := rest }
    exact ⟨t, (stepRunsFrontCommand.1 c s rest hq).trans ht⟩

/-- Settles O2: every row completes, so every step does. -/
theorem everyRunIsSafe : Obligations.EveryRunIsSafe := by
  refine ⟨fun s n => ?_, fun c s t ht => ?_⟩
  · induction n generalizing s with
    | zero => rfl
    | succ n ih =>
      obtain ⟨t, ht⟩ := step_completes s
      rw [runSteps, ht]
      exact ih t
  · obtain ⟨u, hu, hsame⟩ := completes_exec c s
    cases hu.symm.trans ht
    exact hsame

end Sys2Proof.Machine
end

