-- ==== Sys2Proof/Proofs/RunKept.lean ====
section
/-! PROOFS. What first light sets for the run, and the work at tick 0 that leaves it as it is (17 R425, R426): the phase, the tick and
whether frames run. -/

namespace Sys2Proof.Machine

/-- The phase, the tick and whether frames run are the same. -/
@[simp, reducible] def RunKept (h g : Hub) : Prop :=
  g.power.phase = h.power.phase ∧ g.time.tick = h.time.tick ∧ g.time.running = h.time.running

theorem RunKept.refl (h : Hub) : RunKept h h := ⟨rfl, rfl, rfl⟩

theorem RunKept.trans {h g k : Hub} (hg : RunKept h g) (gk : RunKept g k) : RunKept h k :=
  ⟨gk.1.trans hg.1, gk.2.1.trans hg.2.1, gk.2.2.trans hg.2.2⟩

/-- A function that leaves power and time as they are keeps the run. -/
theorem RunKept.of_eq {h g : Hub} (hp : g.power = h.power) (ht : g.time = h.time) : RunKept h g := by simp [hp, ht]

/-- A repeated change keeps the run when each one does. -/
@[simp] theorem RunKept.foldl {α : Type} {f : Hub → α → Hub} (hf : ∀ g x, RunKept g (f g x)) (xs : List α) (h : Hub) :
    RunKept h (xs.foldl f h) :=
  List.foldlRecOn (motive := RunKept h) xs f (.refl h) fun g hg x _ => hg.trans (hf g x)

/-- A choice of hubs takes its run from the one chosen. -/
@[simp] theorem ite_runKept (c : Prop) [Decidable c] (a b : Hub) :
    (if c then a else b).power.phase = (if c then a.power.phase else b.power.phase) ∧
    (if c then a else b).time.tick = (if c then a.time.tick else b.time.tick) ∧
    (if c then a else b).time.running = if c then a.time.running else b.time.running :=
  ⟨apply_ite (fun h : Hub => h.power.phase) .., apply_ite (fun h : Hub => h.time.tick) .., apply_ite (fun h : Hub => h.time.running) ..⟩

/-! ## Work at tick 0 (R426) -/

@[simp] theorem runKept_lightImage (h : Hub) : RunKept h (lightImage h) := by
  simp [lightImage, setRunning]

@[simp] theorem runKept_loadSys (c : Nat) (h : Hub) : RunKept h (loadSys c h) := by simp [loadSys]

@[simp] theorem runKept_settleAll (h : Hub) : RunKept h (settleAll h) := by simp [settleAll]

@[simp] theorem runKept_homePort (g : Nat) (h : Hub) : RunKept h (homePort g h) := by simp [homePort]

@[simp] theorem runKept_connect (c : Nat) (p : PairConn) (fe : Option Nat) (h : Hub) : RunKept h (connect c p fe h) := by simp [connect]

@[simp] theorem runKept_rejoin (c : Nat) (h : Hub) : RunKept h (rejoin c h) := by simp [rejoin]

@[simp] theorem runKept_homePair (c : Nat) (h : Hub) : RunKept h (homePair c h) := by simp [homePair]

@[simp] theorem runKept_powerUp (h : Hub) : RunKept h (powerUp h) := by simp [powerUp]

@[simp] theorem runKept_setPhases (t : Nat) (inst : Inst) (h : Hub) : RunKept h (setPhases t inst h) := by simp [setPhases, setPhase]

@[simp] theorem runKept_lightWork (h : Hub) : RunKept h (lightWork h) := by simp [lightWork]

/-- The run that first light starts, from what the earlier steps of bring-up left. -/
theorem lightTime_run (elapsed : Inst) (h : Hub) :
    (lightTime elapsed h).power.phase = h.power.phase ∧ (lightTime elapsed h).time.tick = 0 ∧ (lightTime elapsed h).time.running = true :=
  ⟨rfl, rfl, rfl⟩

end Sys2Proof.Machine
end

