-- ==== Sys2Proof/Proofs/RunKeptInStream.lean ====
section
/-! PROOFS. What tick 0 queues, releases and sends to a partner leaves the run as it is (09 R204 to R230, 12 R301 to R305). -/

namespace Sys2Proof.Machine

/-! ## Occultations, ledgers, captures and custody (09 R209, R226, R230) -/

@[simp] theorem runKept_eclipseOcc (h : Hub) : RunKept h (eclipseOcc h) := by
  unfold eclipseOcc
  split <;> simp

@[simp] theorem runKept_eclipsePeriod (h : Hub) : RunKept h (eclipsePeriod h) := by simp [eclipsePeriod]

@[simp] theorem runKept_countSlots (ss : List (Nat × Nat)) (f : Nat → Chan → Chan) (h : Hub) : RunKept h (countSlots ss f h) := by
  simp [countSlots]

@[simp] theorem runKept_applyAcks (h : Hub) : RunKept h (applyAcks h) := by simp [applyAcks, bookCustody]

@[simp] theorem runKept_overwritten (d : Nat) (c : Capture) (h : Hub) : RunKept h (overwritten d c h) := by
  simp [overwritten, updCapture, revokeWindows]

@[simp] theorem runKept_revokeOverwritten (h : Hub) : RunKept h (revokeOverwritten h) := by simp [revokeOverwritten]

@[simp] theorem runKept_queueLedger (h : Hub) : RunKept h (queueLedger h) := by simp [queueLedger]

@[simp] theorem runKept_finalLedger (h : Hub) : RunKept h (finalLedger h) := by simp [finalLedger]

@[simp] theorem runKept_ledgerAt (t : Nat) (h : Hub) : RunKept h (ledgerAt t h) := by simp [ledgerAt]

/-! ## Records that are withdrawn (09 R215, 08 R186) -/

theorem runKept_repairFuel (gone : List Rec) (n : Nat) (work : List (Nat × Nat)) (h : Hub) : RunKept h (repairFuel gone n work h) := by
  induction n generalizing work h with
  | zero => exact .refl h
  | succ n ih =>
    cases work with
    | nil => exact .refl h
    | cons x more =>
      unfold repairFuel
      dsimp only
      split
      case h_1 => exact ih ..
      case h_2 => exact RunKept.trans (by simp) (ih ..)
      case h_3 => exact iteInduction (motive := RunKept h) (fun _ => ih ..) fun _ => ih ..
      case h_4 => exact ih ..

@[simp] theorem runKept_repair (gone : List Rec) (h : Hub) : RunKept h (repair gone h) := runKept_repairFuel ..

@[simp] theorem runKept_withdraw (reason : Nat) (sel : Held → Bool) (h : Hub) : RunKept h (withdraw reason sel h) := by
  simp [withdraw]

@[simp] theorem runKept_dropSpan (h : Hub) : RunKept h (dropSpan h) := by
  unfold dropSpan
  split <;> simp

@[simp] theorem runKept_dropFuel (n : Nat) (h : Hub) : RunKept h (dropFuel n h) := by
  induction n generalizing h with
  | zero => exact .refl h
  | succ n ih => simp [dropFuel, ih]

@[simp] theorem runKept_makeDrops (h : Hub) : RunKept h (makeDrops h) := by simp [makeDrops]

/-! ## Release (09 R204 to R214) -/

@[simp] theorem runKept_mirrorJournal (h : Hub) : RunKept h (mirrorJournal h) := by simp [mirrorJournal]

@[simp] theorem runKept_finalDone (h : Hub) : RunKept h (finalDone h) := by simp [finalDone]

@[simp] theorem runKept_assign (h : Hub) (r : Rec) : RunKept h (assign h r) := by
  simp [assign, assignAt, bookOcculted]

@[simp] theorem runKept_releaseDue (h : Hub) : RunKept h (releaseDue h) := by simp [releaseDue]

@[simp] theorem runKept_noteHeader (h : Hub) (r : Rec) : RunKept h (noteHeader h r) := by simp [noteHeader, updCapture]

@[simp] theorem runKept_releaseAll (h : Hub) : RunKept h (releaseAll h) := by simp [releaseAll, cutAfterFinal]

@[simp] theorem runKept_takeBlocks (n : Nat) (h : Hub) : RunKept h (takeBlocks n h) := by simp [takeBlocks, moveBlock]

/-- The record of a block leaves the run as it is, whatever numbers the block starts at. -/
@[simp] theorem runKept_newBlock (tick : Nat) (st : Stamp) (h : Hub) : RunKept h (newBlock tick st h) := by
  unfold newBlock
  dsimp only
  generalize hrec : jChange _ _ _ = g
  have hg : RunKept h g := by
    subst hrec
    exact .of_eq (jChange_power ..) (jChange_time ..)
  exact hg.trans (RunKept.trans (.refl g) (runKept_queueLedger _))

/-! ## Units to the partner (12 R301 to R305) -/

@[simp] theorem runKept_queueCells (k : Nat) (cs : List Cell) (h : Hub) : RunKept h (queueCells k cs h) := by simp [queueCells]

@[simp] theorem runKept_sendUnit (kind tile tick : Nat) (body : Bytes) (h : Hub) : RunKept h (sendUnit kind tile tick body h) :=
  iteInduction (motive := RunKept h) (fun _ => runKept_queueCells 2 _ h) fun _ => .refl h

@[simp] theorem runKept_sendStatus (h : Hub) : RunKept h (sendStatus h) := by simp [sendStatus]

@[simp] theorem runKept_sendSnapshot (h : Hub) : RunKept h (sendSnapshot h) := by simp [sendSnapshot]

theorem runKept_copyFuel (n : Nat) (h : Hub) : RunKept h (copyFuel n h) := by
  induction n generalizing h with
  | zero => exact .refl h
  | succ n ih =>
    unfold copyFuel
    split
    · exact .refl h
    next q qs _ =>
      refine iteInduction (fun _ => .refl h) fun _ => .trans ?_ (ih _)
      cases h.stream.reserve.find? (·.record.seq == q) <;> simp

@[simp] theorem runKept_copyReserve (h : Hub) : RunKept h (copyReserve h) := by simp [copyReserve, runKept_copyFuel]

@[simp] theorem runKept_copyTick (h : Hub) : RunKept h (copyTick h) := by simp [copyTick]

@[simp] theorem runKept_sendRaw (f : Frame) (h : Hub) : RunKept h (sendRaw f h) := by simp [sendRaw]

@[simp] theorem runKept_sendLive (raw : Option Frame) (vs : List Verdict) (events : List Cand) (h : Hub) :
    RunKept h (sendLive raw vs events h) := by
  unfold sendLive
  refine iteInduction (motive := RunKept h) (fun _ => .refl h) fun _ => ?_
  cases raw <;> simp

@[simp] theorem runKept_sendJournal (h : Hub) : RunKept h (sendJournal h) := by simp [sendJournal]

/-- The release of a tick (09 R230). -/
@[simp] theorem runKept_releaseTick (c : Closed) (events : List Cand) (h : Hub) : RunKept h (releaseTick c events h) := by
  simp [releaseTick]

end Sys2Proof.Machine
end

