-- ==== Sys2Proof/Proofs/RunKeptInHandovers.lean ====
section
/-! PROOFS. Retired channels and spares, the eclipse state, lanes and the pair leave the run as it is (04 R87 to R110, 11 R261 to R285,
12 R296 to R313, 15 R376 to R379). -/

namespace Sys2Proof.Machine

/-! ## Turns of calibration and handovers (04 R87 to R110) -/

@[simp] theorem runKept_writeQuality (fe : Nat) (qs : List Quality) (h : Hub) : RunKept h (writeQuality fe qs h) := by
  simp [writeQuality]

@[simp] theorem runKept_endTurn (t : Nat) (h : Hub) : RunKept h (endTurn t h) := by simp [endTurn]

@[simp] theorem runKept_abandonTurn (c : Nat) (at_ : Inst) (h : Hub) : RunKept h (abandonTurn c at_ h) := by
  unfold abandonTurn
  dsimp only
  split
  · simp
  next u _ =>
    refine iteInduction (fun _ => .refl h) fun _ => ?_
    cases u.step <;> simp [sourceBack, endHold]

@[simp] theorem runKept_abandonSpare (t : Nat) (u : Turn) (h : Hub) : RunKept h (abandonSpare t u h) := by simp [abandonSpare]

@[simp] theorem runKept_abandonTurns (h : Hub) : RunKept h (abandonTurns h) := by
  unfold abandonTurns
  refine .foldl (fun g t => ?_) _ h
  split <;> simp

@[simp] theorem runKept_pairAtTick (c : Nat) (p : PairConn) (fe : Nat) (h : Hub) : RunKept h (pairAtTick c p fe h) := by
  simp [pairAtTick]

@[simp] theorem runKept_switchFault (c : Nat) (h : Hub) : RunKept h (switchFault c h) := by simp [switchFault]

@[simp] theorem runKept_breakMake (c : Nat) (toSpare : Bool) (t : Inst) (h : Hub) : RunKept h (breakMake c toSpare t h) := by
  simp [breakMake, addHold]

@[simp] theorem runKept_returnAt (c : Nat) (inst : Inst) (h : Hub) : RunKept h (returnAt c inst h) := by
  simp [returnAt, addHold, drawSound, drawFree]

@[simp] theorem runKept_beginReturn (t c : Nat) (h : Hub) : RunKept h (beginReturn t c h) := by
  simp [beginReturn, setStep, overlap]

@[simp] theorem runKept_giveBack (t : Nat) (u : Turn) (inst : Inst) (h : Hub) : RunKept h (giveBack t u inst h) := by
  unfold giveBack
  refine iteInduction (fun _ => runKept_abandonSpare t u h) fun _ => ?_
  cases u.step <;> simp

@[simp] theorem runKept_cancelHandover (c : Nat) (h : Hub) : RunKept h (cancelHandover c h) := by simp [cancelHandover]

/-! ## Retirement (15 R376, R377) -/

@[simp] theorem runKept_retire (c : Nat) (h : Hub) : RunKept h (retire c h) := by simp [retire, isolate]

@[simp] theorem runKept_retireChannel (c source : Nat) (noSpare : Bool) (h : Hub) : RunKept h (retireChannel c source noSpare h) := by
  simp [retireChannel]

@[simp] theorem runKept_retireGroup (g source : Nat) (h : Hub) : RunKept h (retireGroup g source h) := by simp [retireGroup]

@[simp] theorem runKept_spareFaulty (g source : Nat) (h : Hub) : RunKept h (spareFaulty g source h) := by
  unfold spareFaulty
  dsimp only
  generalize hlost : updGroup g _ h = k
  have hk : RunKept h k := by subst hlost; simp
  refine hk.trans ?_
  split <;> split <;> simp

@[simp] theorem runKept_retireReaction (source inst : Nat) (h : Hub) : RunKept h (retireReaction source inst h) := by
  unfold retireReaction
  split
  case h_2 =>
    dsimp only
    split
    · simp
    · split <;> simp
  all_goals simp

@[simp] theorem runKept_remapReaction (fe source : Nat) (h : Hub) : RunKept h (remapReaction fe source h) := by
  unfold remapReaction
  refine iteInduction (fun _ => ?_) fun _ => iteInduction (fun _ => ?_) fun _ => ?_
  all_goals simp

/-! ## The eclipse state and failover (15 R378, R379) -/

@[simp] theorem runKept_loopToFault (k : Nat) (h : Hub) : RunKept h (loopToFault k h) := by simp [loopToFault]

@[simp] theorem runKept_loopsToFault (h : Hub) : RunKept h (loopsToFault h) := by simp [loopsToFault]

@[simp] theorem runKept_shutDown (h : Hub) : RunKept h (shutDown h) := by simp [shutDown]

@[simp] theorem runKept_cutDef (d tick : Nat) (h : Hub) : RunKept h (cutDef d tick h) := by simp [cutDef]

@[simp] theorem runKept_eclipseActions (h : Hub) : RunKept h (eclipseActions h) := by simp [eclipseActions]

@[simp] theorem runKept_enterEclipse (source inst cls : Nat) (ended : Option Inst) (at_ : Inst) (h : Hub) :
    RunKept h (enterEclipse source inst cls ended at_ h) := by
  unfold enterEclipse
  dsimp only
  split <;> simp

@[simp] theorem runKept_failover (source : Nat) (h : Hub) : RunKept h (failover source h) := by simp [failover]

/-! ## Lanes and links (11 R261, R268, R285) -/

@[simp] theorem runKept_unsend (sel : Held → Bool) (h : Hub) : RunKept h (unsend sel h) := by simp [unsend]

@[simp] theorem runKept_flushLane (h : Hub) : RunKept h (flushLane h) := by simp [flushLane]

@[simp] theorem runKept_cutOwn (k : Nat) (h : Hub) : RunKept h (cutOwn k h) := by
  unfold cutOwn
  split <;> simp

@[simp] theorem runKept_freeSources (cs : List Cell) (h : Hub) : RunKept h (freeSources cs h) := by
  refine .foldl (fun g c => ?_) cs h
  split <;> simp

@[simp] theorem runKept_recordDatagram (origin offset seq port : Nat) (bs : Bytes) (h : Hub) :
    RunKept h (recordDatagram origin offset seq port bs h) := by simp [recordDatagram]

@[simp] theorem runKept_forwardEth (c : Cell) (h : Hub) : RunKept h (forwardEth c h) := by simp [forwardEth]

@[simp] theorem runKept_drainPass (h : Hub) : RunKept h (drainPass h) := by simp [drainPass]

@[simp] theorem runKept_queuePass (toward : Nat) (cs : List Cell) (h : Hub) : RunKept h (queuePass toward cs h) := by simp [queuePass]

@[simp] theorem runKept_cutPass (k : Nat) (h : Hub) : RunKept h (cutPass k h) := by
  unfold cutPass
  dsimp only
  split <;> simp

@[simp] theorem runKept_linkDown (k : Nat) (h : Hub) : RunKept h (linkDown k h) := by simp [linkDown, abortOnward]

@[simp] theorem runKept_leaveLink (l : Nat) (h : Hub) : RunKept h (leaveLink l h) := by simp [leaveLink, linkResync]

@[simp] theorem runKept_laneTo (st : LaneState) (l : Nat) (h : Hub) : RunKept h (laneTo st l h) := by simp [laneTo]

@[simp] theorem runKept_retireLane (l source : Nat) (h : Hub) : RunKept h (retireLane l source h) := by simp [retireLane]

@[simp] theorem runKept_retirePage (page : Nat) (h : Hub) : RunKept h (retirePage page h) := by simp [retirePage]

@[simp] theorem runKept_joinLink (l : Nat) (h : Hub) : RunKept h (joinLink l h) := by
  simp [joinLink, sendTs, sendLine, laneUp, linkInit]

@[simp] theorem runKept_lanesFirstLight (h : Hub) : RunKept h (lanesFirstLight h) := by simp [lanesFirstLight]

@[simp] theorem runKept_swapTable (t l : Nat) (h : Hub) : RunKept h (swapTable t l h) := by
  unfold swapTable
  split <;> simp

@[simp] theorem runKept_lanesTick (h : Hub) : RunKept h (lanesTick h) := by simp [lanesTick]

/-! ## The pair (12 R296 to R313) -/

@[simp] theorem runKept_detach (h : Hub) : RunKept h (detach h) := by
  unfold detach
  split <;> simp [dropShadow]

@[simp] theorem runKept_pairLinkLost (h : Hub) : RunKept h (pairLinkLost h) := by simp [pairLinkLost, stopLive]

@[simp] theorem runKept_afterLanes (before h : Hub) : RunKept h (afterLanes before h) := by simp [afterLanes]

@[simp] theorem runKept_releaseRole (h : Hub) : RunKept h (releaseRole h) := by
  simp [releaseRole, toResync, stopLive, dropShadow, stopOutlets, flushEth]

@[simp] theorem runKept_conflictLasts (tick : Nat) (h : Hub) : RunKept h (conflictLasts tick h) := by simp [conflictLasts]

@[simp] theorem runKept_conflictTick (h : Hub) : RunKept h (conflictTick h) := by simp [conflictTick]

@[simp] theorem runKept_requestResync (h : Hub) : RunKept h (requestResync h) := by
  unfold requestResync
  split <;> simp

@[simp] theorem runKept_resyncTick (h : Hub) : RunKept h (resyncTick h) := by simp [resyncTick]

@[simp] theorem runKept_unreadyNotice (h : Hub) : RunKept h (unreadyNotice h) := by simp [unreadyNotice]

@[simp] theorem runKept_pairTick (h : Hub) : RunKept h (pairTick h) := by simp [pairTick, takeIfFree, silentFor, resyncDone]

end Sys2Proof.Machine
end

