-- ==== Sys2Proof/Proofs/FirstLight.lean ====
section
/-! PROOFS. First light and the end of a drain (17 R425, R426, R429). -/

namespace Sys2Proof.Machine

/-! ## What a tick does besides its release (15 R373, R394) -/

@[simp] theorem runKept_react (source inst cls reaction : Nat) (ended : Option Inst) (at_ : Inst) (h : Hub) :
    RunKept h (react source inst cls reaction ended at_ h) := by
  unfold react
  split <;> simp

@[simp] theorem runKept_declare (source inst cls reaction occurrences : Nat) (ended : Option Inst) (at_ : Inst) (h : Hub) :
    RunKept h (declare source inst cls reaction occurrences ended at_ h) := by simp [declare]

@[simp] theorem runKept_persistExpire (source inst : Nat) (h : Hub) : RunKept h (persistExpire source inst h) := by
  unfold persistExpire
  split <;> simp [markEntry]

@[simp] theorem runKept_persistAll (h : Hub) : RunKept h (persistAll h) := by simp [persistAll]

@[simp] theorem runKept_closeIfOld (code : Nat) (h : Hub) : RunKept h (closeIfOld code h) := by
  unfold closeIfOld closeRun
  refine iteInduction (fun _ => ?_) fun _ => .refl h
  split <;> simp

@[simp] theorem runKept_closeOldRuns (h : Hub) : RunKept h (closeOldRuns h) := by simp [closeOldRuns]

@[simp] theorem runKept_loopFaults (h : Hub) : RunKept h (loopFaults h) := by simp [loopFaults]

@[simp] theorem runKept_pathTick (t : Nat) (h : Hub) : RunKept h (pathTick t h) := by
  unfold pathTick
  split <;> simp [urgent]

@[simp] theorem runKept_jobAdvance (j : Nat) (h : Hub) : RunKept h (jobAdvance j h) := by
  unfold jobAdvance
  split <;> simp [drawFree, setJob]

@[simp] theorem runKept_ptpTick (h : Hub) : RunKept h (ptpTick h) := by simp [ptpTick, masterTick]

@[simp] theorem runKept_logSeconds (h : Hub) : RunKept h (logSeconds h) := by simp [logSeconds]

@[simp] theorem runKept_refillTokens (h : Hub) : RunKept h (refillTokens h) := by simp [refillTokens]

@[simp] theorem runKept_noteView (h : Hub) : RunKept h (noteView h) := by simp [noteView]

@[simp] theorem runKept_heartbeat (h : Hub) : RunKept h (heartbeat h) := by simp [heartbeat]

/-- The work of a tick besides its release. -/
@[simp] theorem runKept_housekeep (h : Hub) : RunKept h (housekeep h) := by simp [housekeep]

@[simp] theorem runKept_lightPair (h : Hub) : RunKept h (lightPair h) := ⟨rfl, rfl, rfl⟩

@[simp] theorem runKept_lightCounts (h : Hub) : RunKept h (lightCounts h) := ⟨rfl, rfl, rfl⟩

@[simp] theorem runKept_openFrame (h : Hub) : RunKept h (openFrame h) := ⟨rfl, rfl, rfl⟩

/-- All that follows the setting of the timebase keeps the run. -/
theorem lightHub_runKept (elapsed : Inst) (h : Hub) :
    RunKept (lightTime elapsed { h with power.phase := .run }) (lightHub elapsed h) := by
  unfold lightHub
  generalize lightTime elapsed { h with power.phase := .run } = g
  simp

/-- The hub at tick 0 runs, at tick 0, whatever bring-up left. -/
theorem lightHub_run (elapsed : Inst) (h : Hub) :
    (lightHub elapsed h).power.phase = .run ∧ (lightHub elapsed h).time.tick = 0 ∧ (lightHub elapsed h).time.running = true := by
  obtain ⟨hphase, htick, hrunning⟩ := lightHub_runKept elapsed h
  exact ⟨hphase, htick, hrunning⟩

/-! ## Copies and records that leave (09 R220 to R226) -/

/-- The run of the hub is the same in both states. -/
@[reducible] def StateRunKept (s t : State) : Prop := RunKept s.hub t.hub

theorem stateRunKept_copyRecord (s : State) (x : Held) : StateRunKept s (copyRecord s x) := by
  unfold copyRecord
  dsimp only
  generalize hhost : (if hostCopy s.hub x.record.ty then _ else s) = t
  have ht : StateRunKept s t := by
    subst hhost
    exact iteInduction (motive := StateRunKept s) (fun _ => .refl s.hub) fun _ => .refl s.hub
  exact iteInduction (motive := StateRunKept s) (fun _ => ht) fun _ => ht

theorem stateRunKept_copyReleased (s : State) : StateRunKept s (copyReleased s) :=
  List.foldlRecOn (motive := StateRunKept s) _ copyRecord (.refl s.hub) fun t ht x _ => ht.trans (stateRunKept_copyRecord t x)

theorem stateRunKept_releaseHeld (s : State) : StateRunKept s (releaseHeld s) := by
  refine List.foldlRecOn (motive := StateRunKept s) _ _ (.refl s.hub) fun t ht x _ => ht.trans ?_
  unfold deliverResponse
  split
  · simp [setAttn]
  · split <;> simp

@[simp] theorem runKept_markSent (seq : Nat) (h : Hub) : RunKept h (markSent seq h) := by simp [markSent]

theorem runKept_feedFuel (n : Nat) (x : Hub × Fifo) : RunKept x.1 (feedFuel n x).1 := by
  induction n generalizing x with
  | zero => exact .refl x.1
  | succ n ih =>
    obtain ⟨h, f⟩ := x
    unfold feedFuel
    refine iteInduction (motive := fun y : Hub × Fifo => RunKept h y.1) (fun _ => .refl h) fun _ => ?_
    split
    · exact .refl h
    · exact (runKept_markSent _ h).trans (ih _)

theorem stateRunKept_feedCustody (s : State) : StateRunKept s (feedCustody s) := by
  unfold feedCustody
  split <;> exact runKept_feedFuel ..

/-- FIRST_LIGHT once CALIBRATE and the wipe have ended (R425). -/
theorem execFirstLight_of_ready {s : State} (elapsed : Inst) (hphase : s.hub.power.phase = .align) (hcal : s.hub.power.calibrated = true)
    (hwiped : s.hub.power.dramWiped = true) :
    execFirstLight elapsed s = .next (releaseHeld (feedCustody (copyReleased { s with hub := lightHub elapsed s.hub }))) :=
  if_pos ⟨hphase, hcal, hwiped⟩

theorem execFirstLight_of_notReady {s : State} (elapsed : Inst)
    (hwait : s.hub.power.phase ≠ .align ∨ s.hub.power.calibrated = false ∨ s.hub.power.dramWiped = false) :
    execFirstLight elapsed s = .next s := by
  refine if_neg ?_
  rintro ⟨hphase, hcal, hwiped⟩
  simp [hphase, hcal, hwiped] at hwait

/-- What leaves at tick 0 leaves the run as the hub has set it. -/
theorem execFirstLight_run (elapsed : Inst) (s : State) :
    StateRunKept { s with hub := lightHub elapsed s.hub }
      (releaseHeld (feedCustody (copyReleased { s with hub := lightHub elapsed s.hub }))) :=
  ((stateRunKept_copyReleased _).trans (stateRunKept_feedCustody _)).trans (stateRunKept_releaseHeld _)

/-! ## The end of a drain (R429) -/

theorem FlashJournaled.hubId {h g : Hub} (hg : FlashJournaled h g) : g.flash.hubId = h.flash.hubId := by
  rw [FlashJournaled] at hg
  rw [hg]

theorem FlashJournaled.store {h g : Hub} (hg : FlashJournaled h g) : g.flash.store = h.flash.store := by
  rw [FlashJournaled] at hg
  rw [hg]

/-- A reset the hub starts itself writes its journal, and then what the new state asks for. -/
theorem doReset_flash (r : ResetDue) (s : State) :
    ∃ g, FlashJournaled s.hub g ∧ (doReset r s).hub.flash = r.target.elim g.flash fun t => wipeFlash t g.flash := by
  have hforced : FlashJournaled s.hub (if r.force = 0 then closeRuns s.hub
      else jChange 0x3013 (forcedDetail r.kind r.force r.cause (closeRuns s.hub)) (closeRuns s.hub)) :=
    iteInduction (motive := FlashJournaled s.hub) (fun _ => flashJournaled_closeRuns _) fun _ =>
      (flashJournaled_closeRuns _).trans (flashJournaled_jChange ..)
  refine ⟨_, hforced, ?_⟩
  unfold doReset
  cases r.target <;> rfl

theorem wipeFlash_hubId (t : LifeCycle) (f : Flash) : (wipeFlash t f).hubId = f.hubId := by cases t <;> rfl

theorem wipeFlash_lifecycle (t : LifeCycle) (f : Flash) : (wipeFlash t f).lifecycle = t := by cases t <;> rfl

/-- Only DECOMMISSIONED wipes what the hub keeps. -/
theorem wipeFlash_keeps {t : LifeCycle} (ht : t ≠ .decommissioned) (f : Flash) :
    (wipeFlash t f).keys = f.keys ∧ (wipeFlash t f).store = f.store := by
  cases t
  case decommissioned => exact absurd rfl ht
  all_goals exact ⟨rfl, rfl⟩

/-- The flash of a hub that has reset itself (17 R430, 13 R332). -/
theorem doReset_keeps (r : ResetDue) (s : State) :
    let t := doReset r s
    t.hub.flash.hubId = s.hub.flash.hubId ∧ t.hub.flash.lifecycle = r.target.getD s.hub.flash.lifecycle ∧
      (r.target ≠ some .decommissioned → t.hub.flash.keys = s.hub.flash.keys ∧ t.hub.flash.store = s.hub.flash.store) := by
  obtain ⟨g, hg, hflash⟩ := doReset_flash r s
  dsimp only
  rw [hflash]
  cases htarget : r.target with
  | none => exact ⟨hg.hubId, hg.lifecycle, fun _ => ⟨hg.keys, hg.store⟩⟩
  | some t =>
    refine ⟨(wipeFlash_hubId t _).trans hg.hubId, wipeFlash_lifecycle t _, fun ht => ?_⟩
    obtain ⟨hkeys, hstore⟩ := wipeFlash_keeps (fun h => ht (congrArg some h)) g.flash
    exact ⟨hkeys.trans hg.keys, hstore.trans hg.store⟩

/-- DRAIN_END of a drain that has come to its end: its reset, as asked. -/
theorem execDrainEnd_of_done {s : State} {d : Drain} {late : Bool} (hd : s.hub.power.drain = some d) (hfinal : d.finalReleased = true)
    (hend : late = true ∧ drainTimedOut d s.hub = true ∨ drainCovered d s.hub = true) :
    execDrainEnd late s = .next (doReset { kind := d.kind, cause := d.cause, force := 1, target := d.target } s) := by
  unfold execDrainEnd
  rw [hd]
  exact if_pos ⟨hfinal, hend⟩

theorem execDrainEnd_of_waiting {s : State} {d : Drain} {late : Bool} (hd : s.hub.power.drain = some d)
    (hwait : d.finalReleased = false ∨ (late = false ∨ drainTimedOut d s.hub = false) ∧ drainCovered d s.hub = false) :
    execDrainEnd late s = .next s := by
  unfold execDrainEnd
  rw [hd]
  refine if_neg ?_
  rintro ⟨hfinal, hend⟩
  obtain ho | ⟨ho, hc⟩ := hwait
  · simp [ho] at hfinal
  · obtain ⟨hlate, htimed⟩ | hcovered := hend
    · simp [hlate, htimed] at ho
    · simp [hc] at hcovered

/-- DRAIN_FINAL_TICK of the tick before the final one: the final LEDGER falls due. -/
theorem execDrainFinalTick_of_due {s : State} {d : Drain} (hd : s.hub.power.drain = some d) (hfinal : d.finalReleased = false)
    (htick : s.hub.time.tick = d.tick + s.hub.time.v) (hnone : s.hub.stream.due.any (·.ledger) = false) :
    execDrainFinalTick s = .next { s with hub := emit { ty := 6, order := 7, ledger := true } s.hub } := by
  have hqueue : queueLedger s.hub = emit { ty := 6, order := 7, ledger := true } s.hub := if_neg (by simp [ledgerQueued, hnone])
  unfold execDrainFinalTick
  dsimp only
  rw [hd]
  dsimp only
  rw [if_pos ⟨by omega, hfinal⟩, hqueue]
  rfl

/-- Settles O60: what follows the setting of the timebase keeps the run, and a drain ends in the hub's own reset. -/
theorem firstLightAndDrain : Obligations.FirstLightAndDrain := by
  unfold Obligations.FirstLightAndDrain
  intro s h
  refine ⟨fun elapsed hphase hcal hwiped => ?light, fun elapsed hwait => execFirstLight_of_notReady elapsed hwait,
    fun d hd hfinal htick hnone => ⟨_, execDrainFinalTick_of_due hd hfinal htick hnone, rfl, rfl⟩, fun hd => ?idle,
    fun d late hd => ⟨fun hfinal hend => ?done, fun hwait => execDrainEnd_of_waiting hd hwait⟩⟩
  case light =>
    obtain ⟨hphase', htick, hrunning⟩ := lightHub_run elapsed s.hub
    obtain ⟨kphase, ktick, krunning⟩ := execFirstLight_run elapsed s
    refine ⟨_, execFirstLight_of_ready elapsed hphase hcal hwiped, kphase.trans hphase', ktick.trans htick, krunning.trans hrunning, ?_⟩
    exact (((sameQueue_copyReleased _).trans (sameQueue_feedCustody _)).trans (sameQueue_releaseHeld _)).afterHub
  case idle =>
    refine ⟨?_, fun late => ?_⟩
    · simp only [exec, execDrainFinalTick, h] at hd ⊢
      rw [hd]
      rfl
    · simp only [exec, execDrainEnd, h] at hd ⊢
      rw [hd]
  case done =>
    obtain ⟨hid, hlife, hkept⟩ := doReset_keeps { kind := d.kind, cause := d.cause, force := 1, target := d.target } s
    exact ⟨_, execDrainEnd_of_done hd hfinal hend, rfl, rfl, rfl, rfl, rfl, rfl, hid, hlife, hkept⟩

end Sys2Proof.Machine
end

