-- ==== Sys2Proof/Proofs/TickRate.lean ====
section
/-! PROOFS. CFG_TICK: the rate and V of a boundary (02 R29, R42, 14 R351). -/

namespace Sys2Proof.Machine

/-- Settles O15: in either case the checks in their order; a PROVISIONED hub stores the rate alone, any other books it too. -/
theorem tickRateAndVerdictWindow : Obligations.TickRateAndVerdictWindow := by
  refine ⟨rfl, rfl, fun r s hd => ⟨?refused, ?booked⟩⟩
  case refused =>
    intro a hread hat hbad
    have hrange : (decide (bitsOf hd.arg 51 48 ≤ 5) && decide (1 ≤ bitsOf hd.arg 54 52) && decide (bitsOf hd.arg 54 52 ≤ 4) &&
        decide (bitsOf hd.arg 63 55 = 0)) = false := by
      simp only [Bool.and_eq_false_iff, decide_eq_false_iff_not]
      omega
    exact exec_of_refused rfl a
      (ok_bind hread <| ok_bind (needArg_ok (decide_eq_true hat)) <| error_bind (needArg_error hrange) _) rfl
  case booked =>
    intro a hread hat tc v b htc hv1 hv4 hz hb after old hrel hbudget
    have hrange : (decide (tc ≤ 5) && decide (1 ≤ v) && decide (v ≤ 4) && decide (bitsOf hd.arg 63 55 = 0)) = true := by
      simp [htc, hv1, hv4, hz]
    have hpasses {x : Reply × Hub}
        (hx : (let h' := if stored (atStep7 r s) then atStep7 r s else addRate b tc v (atStep7 r s)
          let last := if stored (atStep7 r s) then (tc, v) else (h'.time.newTicks.getLast?.map (·.2)).getD (tc, v)
          (accepted (atStep7 r s) (rateTickOf after b) [] (leNat 6 b ++ leNat 1 (old.tCode + 16 * tc) ++ leNat 1 (old.v + 16 * v)),
            { h' with flash.store.tCode := last.1, flash.store.v := last.2 }) : Reply × Hub) = x) :
        cmdCfgTick { code := 0x0200, req := r } (atStep7 r s) = .ok x :=
      ok_bind hread <| ok_bind (needArg_ok (decide_eq_true hat)) <| ok_bind (needArg_ok hrange) <| ok_bind (needArg_ok (decide_eq_true hb)) <|
        ok_bind (needRel_ok hrel none hd) <| ok_bind (needBudget_ok hbudget) (congrArg Except.ok hx)
    refine exec_of_answered rfl a (hpasses ?_) (accepted_status ..)
    by_cases hp : (atStep7 r s).flash.lifecycle = .provisioned
    · have hst : stored (atStep7 r s) = true := beq_iff_eq.mpr hp
      simp only [hst, hp, if_true]
    · have hst : stored (atStep7 r s) = false := beq_eq_false_iff_ne.mpr hp
      simp only [hst, hp, if_false, Bool.false_eq_true]
      rfl

end Sys2Proof.Machine
end

