-- ==== Sys2Proof/Proofs/FramesSettle.lean ====
section
/-! PROOFS. Settling: what a frame's way out of the raw window leaves alone, and the entries of the provisional queue at the close of a
node's period (02 R31, 06 R129, R137). -/

namespace Sys2Proof.Machine

/-! ## What settling leaves alone -/

/-- Power, time and the raw window are the same, and records due have only been added to. -/
structure SettleKept (h g : Hub) : Prop where
  power : g.power = h.power
  time : g.time = h.time
  frames : g.frames = h.frames
  due : h.stream.due <+: g.stream.due

theorem SettleKept.of_stream {h g : Hub} (hp : g.power = h.power := by rfl) (ht : g.time = h.time := by rfl)
    (hf : g.frames = h.frames := by rfl) (hs : g.stream.due = h.stream.due := by rfl) : SettleKept h g :=
  ⟨hp, ht, hf, hs ▸ List.prefix_rfl⟩

theorem SettleKept.refl (h : Hub) : SettleKept h h := .of_stream

theorem SettleKept.trans {h g k : Hub} (hg : SettleKept h g) (hk : SettleKept g k) : SettleKept h k :=
  ⟨hk.power.trans hg.power, hk.time.trans hg.time, hk.frames.trans hg.frames, hg.due.trans hk.due⟩

/-- A repeated change keeps what each one keeps. -/
theorem SettleKept.foldl {α : Type} {f : Hub → α → Hub} (hf : ∀ g x, SettleKept g (f g x)) (xs : List α) (h : Hub) :
    SettleKept h (xs.foldl f h) :=
  List.foldlRecOn (motive := SettleKept h) xs f (.refl h) fun g hg x _ => hg.trans (hf g x)

/-- The same of a change that collects flares beside the hub. -/
theorem SettleKept.foldl_fst {α β : Type} {f : Hub × β → α → Hub × β} (hf : ∀ y x, SettleKept y.1 (f y x).1) (xs : List α) (y : Hub × β) :
    SettleKept y.1 (xs.foldl f y).1 :=
  List.foldlRecOn (motive := fun z => SettleKept y.1 z.1) xs f (.refl y.1) fun z hz x _ => hz.trans (hf z x)

theorem settleKept_emit (r : Rec) (h : Hub) : SettleKept h (emit r h) := ⟨rfl, rfl, rfl, ⟨[r], rfl⟩⟩

theorem mem_due_emit (r : Rec) (h : Hub) : r ∈ (emit r h).stream.due := List.mem_append_right _ (List.mem_singleton_self r)

/-! ## The entries of a settled frame (06 R137) -/

theorem settleKept_loopEntry (nodes : List Bytes) (e : ProvEntry) (h : Hub) : SettleKept h (loopEntry nodes e h) :=
  .foldl (fun g _ => iteInduction (motive := SettleKept g) (fun _ => .refl g) fun _ =>
    iteInduction (motive := SettleKept g) (fun _ => .of_stream) fun _ => .of_stream) _ h

theorem settleKept_entryFlares (es : List ProvEntry) (h : Hub) : SettleKept h (entryFlares es h).1 :=
  .foldl_fst (fun y _ => .foldl_fst (fun z _ => by dsimp only; split <;> exact .of_stream) _ y) es (h, [])

theorem settleKept_passEntries (f : Nat) (h : Hub) : SettleKept h (passEntries f h).1 := by
  unfold passEntries
  dsimp only
  generalize hdriven : List.foldl _ _ _ = g
  have hg : SettleKept h g := by
    subst hdriven
    exact .trans (.trans .of_stream (.foldl (fun g r => settleKept_emit r g) _ _)) (.foldl (fun g e => settleKept_loopEntry _ e g) _ _)
  split
  · exact hg
  · exact hg.trans (settleKept_entryFlares ..)

theorem settleKept_releaseWaiting (h : Hub) : SettleKept h (releaseWaiting h).1 :=
  SettleKept.foldl_fst (f := fun x f => ((passEntries f x.1).1, x.2 ++ (passEntries f x.1).2))
    (fun y f => settleKept_passEntries f y.1) _ (h, [])

/-! ## The record of a settled frame (09 R205, 08 R189, R191) -/

theorem settleKept_seedNext (cs : List Nat) (h : Hub) : SettleKept h (seedNext cs h) := .foldl (fun _ _ => .of_stream) cs h

theorem settleKept_noteEnable (f : Frame) (h : Hub) : SettleKept h (noteEnable f h) := by
  unfold noteEnable
  dsimp only
  refine .trans (g := if compEnable f.comp && !h.stream.wasEnabled then seedNext (List.range 512) h else h) ?_ .of_stream
  exact iteInduction (fun _ => settleKept_seedNext _ h) fun _ => .refl h

theorem settleKept_afterBlocks (n : Nat) (xs : List (BlockIn × BlockOut)) (h : Hub) : SettleKept h (afterBlocks n xs h) :=
  .foldl (fun _ _ => .of_stream) xs h

theorem settleKept_raiseNow (source inst sub : Nat) (detail : BitVec 64) (h : Hub) : SettleKept h (raiseNow source inst sub detail h) :=
  .of_stream (raiseNow_power ..) (raiseNow_time ..) (raiseNow_frames ..) (congrArg (·.due) (raiseNow_stream ..))

/-- The frame's record falls due, and nothing takes it back. -/
theorem encodeFrame_frameRec (f : Frame) (mismatch : Bool) (h : Hub) :
    ∃ g on bs, SettleKept h g ∧ SettleKept (emit (frameRec g f on bs) g) (encodeFrame f mismatch h) := by
  refine ⟨noteEnable f h, compEnable f.comp && !(mismatch || (noteEnable f h).stream.badBodies != 0), frameBlocks (noteEnable f h) f,
    settleKept_noteEnable f h, ?_⟩
  unfold encodeFrame
  extract_lets g bs bad on outs h1 h2
  have h1kept : SettleKept (emit (frameRec g f on bs) g) h1 := settleKept_afterBlocks ..
  have h2kept : SettleKept h1 h2 := iteInduction (fun _ => settleKept_seedNext ..) fun _ => .refl h1
  exact (h1kept.trans h2kept).trans (iteInduction (fun _ => settleKept_raiseNow ..) fun _ => .of_stream)

/-! ## Flares and captures on a settled frame (07 R151, R165, R170, R172) -/

theorem settleKept_frameFlares (f : Frame) (h : Hub) : SettleKept h (frameFlares f h).1 := by
  unfold frameFlares
  extract_lets _ g
  refine SettleKept.trans (g := g) .of_stream (.foldl_fst (fun y u => ?_) _ (g, []))
  exact iteInduction (motive := fun z : Hub × List Cand => SettleKept y.1 z.1) (fun _ => .refl _) fun _ => .of_stream

theorem settleKept_countSegs (d : Nat) (c : Capture) (pos : Nat) (ss : List CapSeg)
    (h : Hub) : SettleKept h (countSegs d c pos ss h) := by
  rw [countsOnly_countSegs d c ss pos h]
  exact .of_stream

theorem settleKept_capFinish (d n : Nat) (h : Hub) (c : Capture) : SettleKept h (capFinish d n h c) := by
  unfold capFinish
  split
  · exact .refl h
  next =>
    extract_lets r cost g k
    have hg : SettleKept h g := (settleKept_emit r h).trans .of_stream
    have hk : SettleKept g k := iteInduction (fun _ => settleKept_countSegs ..) fun _ => .refl g
    exact (hg.trans hk).trans (iteInduction (fun _ => .of_stream) fun _ => .of_stream)

theorem settleKept_overwritten (d : Nat) (c : Capture) (h : Hub) : SettleKept h (overwritten d c h) :=
  iteInduction (motive := SettleKept h) (fun _ => .of_stream) fun _ => .refl h

theorem settleKept_revokeOverwritten (h : Hub) : SettleKept h (revokeOverwritten h) :=
  .foldl (fun g d => .foldl (fun k c => settleKept_overwritten d c k) _ g) _ h

theorem settleKept_capSettle (f : Frame) (h : Hub) : SettleKept h (capSettle f h) := by
  unfold capSettle
  dsimp only
  refine .trans (.trans ?_ (.foldl (fun g d => .foldl (fun k c => settleKept_capFinish d f.n k c) _ g) _ _))
    (settleKept_revokeOverwritten _)
  exact .of_stream

theorem settleKept_holdLoops (es : List ProvEntry) (h : Hub) : SettleKept h (holdLoops es h) := .of_stream

/-! ## A frame settles (02 R31) -/

/-- The frame leaves the raw window and its FRAME record falls due. -/
theorem settleFrame_leaves {f : Frame} {h : Hub} (hd : h.power.drain = none) (mismatch : Bool) :
    (settleFrame f mismatch h).1.frames = h.frames.filter (·.n != f.n) ∧
      ∃ r ∈ (settleFrame f mismatch h).1.stream.due, r.ty = 1 ∧ r.frame = some f.n := by
  unfold settleFrame
  extract_lets out
  split
  next d hdrain => exact absurd (hd.symm.trans hdrain) (Option.some_ne_none d).symm
  next e a b _ _ =>
    rw [if_neg Bool.false_ne_true]
    dsimp only
    obtain ⟨g, on, bs, hbefore, hafter⟩ := encodeFrame_frameRec f mismatch out
    have ha : SettleKept e a.1 := iteInduction (motive := fun z : Hub × List Cand => SettleKept e z.1)
      (fun _ => .refl e) fun _ => settleKept_frameFlares f e
    have hb : SettleKept a.1 b.1 :=
      iteInduction (motive := fun z : Hub × List Cand => SettleKept a.1 z.1)
        (fun _ => settleKept_holdLoops ..) fun _ => settleKept_passEntries f.n a.1
    have hall : SettleKept (emit (frameRec g f on bs) g) (capSettle f b.1) :=
      ((hafter.trans ha).trans hb).trans (settleKept_capSettle f b.1)
    exact ⟨hall.frames.trans hbefore.frames, frameRec g f on bs, hall.due.subset (mem_due_emit _ g), rfl, rfl⟩

/-- The front frame settles at the tick V + 1 after its own, and not before. -/
theorem nextSettled_of_front {h : Hub} {f : Frame} {rest : List Frame} (hf : h.frames = f :: rest) (n : Nat) :
    nextSettled n h = if f.n + f.v + 1 ≤ n then some f else none := by
  rw [nextSettled, hf]

/-- The hub once its front frame has settled for the coming tick, the results that waited having left before it (02 R41). -/
def frontSettled (f : Frame) (mismatch : Bool) (h : Hub) : Hub :=
  let w := releaseWaiting h
  let r := settleFrame f mismatch w.1
  { r.1 with pair.flares := r.1.pair.flares ++ (w.2 ++ r.2).map fun c => (h.time.tick + 1, c) }

section
variable {s : State} (hup : isUp s.hub = true) (hactive : isStandby s.hub = false)
include hup hactive

theorem exec_frameSettle_of_due {f : Frame} {mismatch : Bool} (hf : nextSettled (s.hub.time.tick + 1) s.hub = some f) :
    exec (.frameSettle mismatch) s = hubNext s (frontSettled f mismatch s.hub) := by
  simp only [exec, execFrameSettle, hup, hactive, hf]
  rfl

theorem exec_frameSettle_of_early {mismatch : Bool} (hf : nextSettled (s.hub.time.tick + 1) s.hub = none) :
    exec (.frameSettle mismatch) s = .next s := by
  simp only [exec, execFrameSettle, hup, hactive, hf]
  rfl

theorem exec_reductionPeriodClose (node : Nat) : exec (.reductionPeriodClose node) s = hubNext s (closeNode node s.hub) := by
  simp only [exec, execReductionPeriodClose, hup, hactive]
  rfl

end

/-- The mark that REDUCTION_PERIOD_CLOSE closes the open frame with: that of the coming tick. -/
def comingMark (h : Hub) : CloseMark :=
  { tick := h.time.tick + 1, index := tickIndex h.time.tCode (nextInst h), trunc := h.time.rateDue.isSome
    step := h.time.jump.isSome, stamp := stampOf h (nextInst h) }

/-- The provisional queue once a node's entries of a frame stand for the earlier ones. -/
def requeued (node n : Nat) (es q : List ProvEntry) : List ProvEntry :=
  (q.filter fun e => !(e.frame == n && e.node == node)) ++ es.filter (·.node == node)

theorem mem_requeued {node n : Nat} {es q : List ProvEntry} {e : ProvEntry} :
    e ∈ requeued node n es q ↔ (e ∈ q ∧ ¬(e.frame = n ∧ e.node = node)) ∨ (e ∈ es ∧ e.node = node) := by
  simp only [requeued, List.mem_append, List.mem_filter, Bool.not_eq_true', Bool.and_eq_false_iff, beq_eq_false_iff_ne, beq_iff_eq]
  tauto

theorem closeNode_of_open {h : Hub} {f : Frame} (hf : h.frames.find? (·.n == h.time.tick) = some f) (node : Nat) :
    closeNode node h = { h with arr.provQ := requeued node f.n (runFrame h.arr f (comingMark h) h.arr.nodes).2 h.arr.provQ } := by
  rw [closeNode, hf]
  rfl

/-- Settles O40: the front frame goes by `settleFrame_leaves`, what waited having gone before it; the node's entries by `mem_requeued`. -/
theorem framesSettle : Obligations.FramesSettle := by
  intro s hup hactive h
  refine ⟨fun f rest mismatch hf hd => ⟨fun hdue => ?settles, fun hearly => ?waits⟩, fun node f hf => ?close⟩
  case settles =>
    have hw : SettleKept h (releaseWaiting h).1 := settleKept_releaseWaiting h
    obtain ⟨hframes, hrec⟩ := settleFrame_leaves (f := f) ((congrArg (·.drain) hw.power).trans hd) mismatch
    refine ⟨frontSettled f mismatch h, exec_frameSettle_of_due hup hactive ?_, hframes.trans (congrArg (List.filter _) hw.frames), hrec⟩
    exact (nextSettled_of_front hf _).trans (if_pos hdue)
  case waits => exact exec_frameSettle_of_early hup hactive ((nextSettled_of_front hf _).trans (if_neg (Nat.not_le.mpr hearly)))
  case close =>
    refine ⟨_, comingMark h, ?_, rfl, rfl, rfl, fun e => mem_requeued⟩
    rw [exec_reductionPeriodClose hup hactive, closeNode_of_open hf]
    rfl

end Sys2Proof.Machine
end

