-- ==== Sys2Proof/Proofs/ChangesTakeEffect.lean ====
section
/-! PROOFS. What is booked for the coming tick takes effect: accepted changes, the tick rate, a graph, slot tables, a time step, system
coefficients, LEDGER_PERIOD, SCHEDULE units (02 R42, 03 R68, 05 R113, 06 R140, 07 R151, 09 R211, 10 R253, R447, 11 R281; log 3). -/

namespace Sys2Proof.Machine

/-! ## Changes that carry nothing through (03 R68, 09 R207, R218) -/

theorem noteLedger_of_same {before : List (Nat × Nat × Nat)} {h : Hub} (hk : ledgerKeys h = before) : noteLedger before h = h :=
  if_pos (beq_iff_eq.mpr hk.symm)

theorem custodyChange_of_same {before h : Hub} (hc : custodyOutlet h = custodyOutlet before) :
    custodyChange before h = h := if_pos hc.symm

theorem directionChange_of_same {before h : Hub} (hc : custodyLink h.cfg = custodyLink before.cfg) : directionChange before h = h :=
  if_pos hc.symm

/-- What LEDGER tells of the channels depends on their descriptors, the tick rate and the channels. -/
theorem ledgerKeys_congr {g h : Hub} (hchan : g.cfg.chan = h.cfg.chan) (hgroup : g.cfg.group = h.cfg.group)
    (ht : g.time.tCode = h.time.tCode) (hc : g.chans = h.chans) : ledgerKeys g = ledgerKeys h := by
  unfold ledgerKeys chanDelay chanState chDesc grDesc chanAt
  rw [hchan, hgroup, ht, hc]

/-! ## Items that write the configuration alone -/

/-- An item of excitation supplies, calibration, outlets with the same CUSTODY, faults, SELF_MERGE or loop supply. -/
def WritesOnly (custody : Nat) (i : Item) : Prop :=
  (∃ a b, i = .supply a b) ∨ (∃ b, i = .cal b) ∨ (∃ b : BitVec 64, i = .outlets b ∧ bitsOf b.toNat 1 0 = custody) ∨
    (∃ a b, i = .fault a b) ∨ (∃ b, i = .selfMerge b) ∨ ∃ v, i = .loopV v

/-- Descriptors of channels and groups, CUSTODY and the time source are the same. -/
structure CfgKept (c d : Cfg) : Prop where
  chan : d.chan = c.chan
  group : d.group = c.group
  custody : bitsOf d.outlets.toNat 1 0 = bitsOf c.outlets.toNat 1 0
  timeBlock : d.timeBlock = c.timeBlock

theorem CfgKept.refl (c : Cfg) : CfgKept c c := ⟨rfl, rfl, rfl, rfl⟩

theorem CfgKept.trans {c d e : Cfg} (hd : CfgKept c d) (he : CfgKept d e) : CfgKept c e :=
  ⟨he.chan.trans hd.chan, he.group.trans hd.group, he.custody.trans hd.custody, he.timeBlock.trans hd.timeBlock⟩

theorem CfgKept.custodyLink {c d : Cfg} (hd : CfgKept c d) : custodyLink d = custodyLink c := by
  unfold Machine.custodyLink
  rw [hd.custody, hd.timeBlock]

/-- CUSTODY and the custody direction have not changed. -/
theorem outletsStay {h g : Hub} (hg : CfgKept h.cfg g.cfg) : directionChange h (custodyChange h g) = g := by
  rw [custodyChange_of_same (before := h) (h := g) hg.custody, directionChange_of_same hg.custodyLink]

section
variable {custody : Nat} {i : Item}

theorem WritesOnly.cfgKept (hi : WritesOnly custody i) {c : Cfg} (hc : bitsOf c.outlets.toNat 1 0 = custody) :
    CfgKept c (cfgItem i c) := by
  obtain ⟨_, _, rfl⟩ | ⟨_, rfl⟩ | ⟨_, rfl, hb⟩ | ⟨_, _, rfl⟩ | ⟨_, rfl⟩ | ⟨_, rfl⟩ := hi
  case inr.inr.inl => exact ⟨rfl, rfl, hb.trans hc.symm, rfl⟩
  all_goals exact ⟨rfl, rfl, rfl, rfl⟩

/-- Such an item is none of those that a change instant carries further, and has no effect of its own. -/
theorem WritesOnly.plain (hi : WritesOnly custody i) :
    (∀ h, sameCapture h i = false) ∧ isDesc i = false ∧ isUplink i = false ∧ ∀ t inst h, itemEffect t inst i h = h := by
  obtain ⟨_, _, rfl⟩ | ⟨_, rfl⟩ | ⟨_, rfl, _⟩ | ⟨_, _, rfl⟩ | ⟨_, rfl⟩ | ⟨_, rfl⟩ := hi
  all_goals exact ⟨fun _ => rfl, rfl, rfl, fun _ _ _ => rfl⟩

end

section
variable {items : List Item} {h : Hub} (hi : ∀ i ∈ items, WritesOnly (custodyOutlet h) i)
include hi

theorem cfgKept_foldl_cfgItem : CfgKept h.cfg (items.foldl (fun c i => cfgItem i c) h.cfg) :=
  List.foldlRecOn (motive := CfgKept h.cfg) items _ (.refl h.cfg) fun _ hc i hmem => hc.trans ((hi i hmem).cfgKept hc.custody)

theorem foldl_itemEffect_of_writesOnly (t : Nat) (inst : Inst) (g : Hub) : items.foldl (fun x i => itemEffect t inst i x) g = g :=
  List.foldlRecOn (motive := fun x => x = g) items _ rfl fun x hx i hmem => by rw [(hi i hmem).plain.2.2.2, hx]

/-- They enter the configuration, and nothing else moves. -/
theorem applyItems_of_writesOnly (t : Nat) (inst : Inst) :
    applyItems t inst items h = { h with cfg := items.foldl (fun c i => cfgItem i c) h.cfg } := by
  have hall : items.filter (!sameCapture h ·) = items := List.filter_eq_self.mpr fun i hmem => by simp [(hi i hmem).plain.1]
  have hdesc : items.any isDesc = false := List.any_eq_false.mpr fun i hmem => by simp [(hi i hmem).plain.2.1]
  have huplink : items.any isUplink = false := List.any_eq_false.mpr fun i hmem => by simp [(hi i hmem).plain.2.2.1]
  unfold applyItems
  dsimp only
  rw [hall, hdesc, huplink, if_neg Bool.false_ne_true, if_neg Bool.false_ne_true, foldl_itemEffect_of_writesOnly hi]
  exact outletsStay (cfgKept_foldl_cfgItem hi)

end

/-! ## CFG_UPLINK at its tick (14 R358) -/

/-- The addresses are resolved anew, and the PTP port starts anew where a field of its own changes. -/
theorem applyItems_uplink (t : Nat) (inst : Inst) (b : Bytes) (h : Hub) :
    applyItems t inst [.uplink b] h =
      { h with
        cfg.uplink := b, eth.arp := []
        eth.ptp := if fieldAt h.cfg.uplink 6 2 = fieldAt b 6 2 ∧ fieldAt h.cfg.uplink 24 4 = fieldAt b 24 4 then h.eth.ptp else {} } := by
  have hcut : applyItems t inst [.uplink b] h =
      directionChange h (custodyChange h (uplinkChange h.cfg.uplink { h with cfg.uplink := b })) := rfl
  refine hcut.trans ((outletsStay (g := uplinkChange h.cfg.uplink { h with cfg.uplink := b }) ⟨rfl, rfl, rfl, rfl⟩).trans ?_)
  simp only [uplinkChange, Bool.and_eq_true, beq_iff_eq]

/-! ## CHANGE_INSTANT (03 R68) -/

/-- The changes due at a tick have left the list. -/
def withoutDue (t : Nat) (h : Hub) : Hub := { h with changes := h.changes.filter fun c => !decide (c.tick ≤ t) }

theorem applyChanges_of_due {t : Nat} {h : Hub} (hdue : sortBy (·.tick) (h.changes.filter fun c => decide (c.tick ≤ t)) ≠ [])
    (inst : Inst) :
    applyChanges t inst h = applyItems t inst ((sortBy (·.tick) (h.changes.filter fun c => decide (c.tick ≤ t))).map (·.item))
      (withoutDue t h) :=
  if_neg fun he => hdue (List.isEmpty_iff.mp he)

theorem applyChanges_of_none {t : Nat} {h : Hub} (hnone : ∀ c ∈ h.changes, t < c.tick) (inst : Inst) : applyChanges t inst h = h := by
  have hdue : (h.changes.filter fun c => decide (c.tick ≤ t)) = [] := List.filter_eq_nil_iff.mpr fun c hc => by simp [hnone c hc]
  unfold applyChanges
  rw [hdue]
  rfl

theorem exec_changeInstant {s : State} (hup : isUp s.hub = true) :
    exec .changeInstant s =
      hubNext s (noteLedger (ledgerKeys s.hub) (applyChanges (s.hub.time.tick + 1) (nextInst s.hub) s.hub)) := by
  simp only [exec, execChangeInstant, hup, if_true]

/-- Changes due that leave what LEDGER tells of the channels. -/
theorem exec_changeInstant_of_due {s : State} {n : Nat} {items : List Item} {g : Hub} (hup : isUp s.hub = true)
    (hn : n = s.hub.time.tick + 1)
    (hitems : (sortBy (·.tick) (s.hub.changes.filter fun c => decide (c.tick ≤ n))).map (·.item) = items) (hne : items ≠ [])
    (happlied : applyItems n (nextInst s.hub) items (withoutDue n s.hub) = g) (hkeys : ledgerKeys g = ledgerKeys s.hub) :
    exec .changeInstant s = hubNext s g := by
  subst hn
  have hdue : sortBy (·.tick) (s.hub.changes.filter fun c => decide (c.tick ≤ s.hub.time.tick + 1)) ≠ [] :=
    fun hd => hne (by rw [← hitems, hd, List.map_nil])
  rw [exec_changeInstant hup, applyChanges_of_due hdue, hitems, happlied, noteLedger_of_same hkeys]

/-! ## TICK_RATE_CHANGE (02 R42) -/

/-- A boundary that the coming tick reaches or passes. -/
def boundaryPast (h : Hub) (x : Nat × Nat × Nat) : Bool := decide ((x.1 : Int) * secUnits ≤ nextInst h)

section
variable {h : Hub} {passed rest : List (Nat × Nat × Nat)} {x : Nat × Nat × Nat} (hall : h.time.newTicks = passed ++ x :: rest)
  (hrest : ∀ y ∈ rest, boundaryPast h y = false)
include hall hrest

/-- The latest boundary reached is booked, and those before it are gone. -/
theorem bookRate_of_past (hpassed : ∀ y ∈ passed, boundaryPast h y = true) (hx : boundaryPast h x = true) :
    bookRate h = { h with time.rateDue := some x.2, time.newTicks := rest } := by
  have hpast : h.time.newTicks.filter (boundaryPast h) = passed ++ [x] := by
    rw [hall, List.filter_append, List.filter_cons_of_pos hx, List.filter_eq_self.mpr hpassed,
      List.filter_eq_nil_iff.mpr fun y hy => by simp [hrest y hy]]
  have hleft : h.time.newTicks.filter (!boundaryPast h ·) = rest := by
    rw [hall, List.filter_append, List.filter_cons_of_neg (by simp [hx]), List.filter_eq_nil_iff.mpr fun y hy => by simp [hpassed y hy],
      List.nil_append, List.filter_eq_self.mpr fun y hy => by simp [hrest y hy]]
  unfold bookRate
  change (match (h.time.newTicks.filter (boundaryPast h)).getLast? with
    | some x => { h with time.rateDue := some x.2, time.newTicks := h.time.newTicks.filter (!boundaryPast h ·) }
    | none => h) = _
  rw [hpast, hleft, List.getLast?_append_of_ne_nil _ (List.cons_ne_nil x [])]
  rfl

theorem bookRate_of_future (hpassed : passed = []) (hx : boundaryPast h x = false) : bookRate h = h := by
  have hpast : h.time.newTicks.filter (boundaryPast h) = [] := by
    rw [hall, hpassed]
    exact List.filter_eq_nil_iff.mpr (List.forall_mem_cons.mpr ⟨by simp [hx], fun y hy => by simp [hrest y hy]⟩)
  unfold bookRate
  change (match (h.time.newTicks.filter (boundaryPast h)).getLast? with
    | some x => { h with time.rateDue := some x.2, time.newTicks := h.time.newTicks.filter (!boundaryPast h ·) }
    | none => h) = _
  rw [hpast]
  rfl

end

theorem exec_tickRateChange {s : State} (hup : isUp s.hub = true) : exec .tickRateChange s = hubNext s (bookRate s.hub) := by
  simp only [exec, execTickRateChange, hup, if_true]

/-! ## GRAPH_ACTIVATION (06 R140), SLOT_TABLE_SWAP (11 R281) -/

/-- The activation due takes the loaded graph over. -/
theorem activateDue_of_shadow {h : Hub} {n : Nat} {gid : BitVec 32} {g : Graph} (ha : h.arr.activate = some (gid, n))
    (hsince : h.arr.since ≠ n)
    (hnamed : h.arr.named = none) (hshadow : h.arr.shadow = some g) (hgid : gid ≠ 0) :
    activateDue n h =
      { h with
        cfg.graph := g, arr.outgoing := some h.arr.active, arr.active := g, arr.shadow := none, arr.since := n } := by
  have hg : graphNamed h.arr gid = g := by
    rw [graphNamed, if_neg hgid, hnamed, hshadow]
    rfl
  have hloaded : ¬(gid = 0 ∨ h.arr.named.isSome = true) := not_or.mpr ⟨hgid, by simp [hnamed]⟩
  unfold activateDue
  rw [ha]
  dsimp only
  rw [if_pos ⟨rfl, hsince⟩]
  unfold activateAt
  dsimp only
  rw [hg, if_neg hloaded, ← hnamed]

theorem exec_graphActivation {s : State} (hup : isUp s.hub = true) :
    exec .graphActivation s = hubNext s (activateDue (s.hub.time.tick + 1) s.hub) := by
  simp only [exec, execGraphActivation, hup, if_true]

theorem swapTable_of_due {h : Hub} {lane t n : Nat} {table : List Nat} (ht : (laneAt h lane).shadowTable = some (t, table)) (hn : t ≤ n) :
    swapTable n lane h =
      { updLane lane (fun x => { x with shadowTable := none }) h with cfg.slots := setAt h.cfg.slots lane table } := by
  unfold swapTable
  rw [ht]
  exact if_pos hn

theorem exec_slotTableSwap {s : State} (hup : isUp s.hub = true) (lane : Nat) :
    exec (.slotTableSwap lane) s = hubNext s (swapTable (s.hub.time.tick + 1) lane s.hub) := by
  simp only [exec, execSlotTableSwap, hup, if_true]

/-! ## A time step (10 R252 to R255, R447) -/

/-- A step that reaches a reading below 0 is discarded with its record. -/
theorem discardDue_of_negative {h : Hub} {d : Inst} (hs : h.time.step = some (h.time.tick + 1, d)) (he : exitStepDue h = none)
    (hl : exitSlewDue h = none) (hneg : frameEnd h + d < 0) :
    discardDue h = jChange 0x3015 (deltaBytes d ++ leNat 1 1) { h with time.step := none } := by
  unfold discardDue discardStep
  rw [hs]
  dsimp only
  rw [he, hl]
  simp [hneg]

theorem discardDue_of_reading {h : Hub} {d : Inst} (hs : h.time.step = some (h.time.tick + 1, d)) (he : exitStepDue h = none)
    (hl : exitSlewDue h = none) (hpos : 0 ≤ frameEnd h + d) : discardDue h = h := by
  unfold discardDue
  rw [hs]
  dsimp only
  rw [he, hl]
  simp [hpos]

theorem exitStepDue_of_none {h : Hub} (he : h.time.exitStep = none) : exitStepDue h = none := by simp [exitStepDue, he]

theorem exitSlewDue_of_none {h : Hub} (he : h.time.exitSlew = none) : exitSlewDue h = none := by simp [exitSlewDue, he]

theorem nextEpoch_of_active {h : Hub} (ha : isActive h = true) :
    nextEpoch h = { h with time.epoch := (h.time.epoch + 1) % 65536, flash.epoch := (h.time.epoch + 1) % 65536 } :=
  if_neg (by simp [ha])

/-- A step that a command asked for: the next epoch, and the notice. -/
theorem bookJump_of_command (d : Inst) (before : Stamp) (h : Hub) :
    bookJump d false before h =
      let g := nextEpoch { h with time.jump := some d, time.firstAfterStep := true }
      timeNotice 0 (streamTick g + 1) before (stampOf g (frameEnd h + d)) g := rfl

/-- The hub once a step of Δ that a command asked for is booked: the timebase moves at the coming tick, in the next epoch. -/
def stepBooked (d : Inst) (h : Hub) : Hub :=
  { h with
    time.step := none, time.secondsSet := true, time.jump := some d, time.firstAfterStep := true
    time.epoch := (h.time.epoch + 1) % 65536, flash.epoch := (h.time.epoch + 1) % 65536 }

/-- A step of the coming tick that no exit meets is booked by itself, with its notice. -/
theorem bookStep_of_due {h : Hub} {d : Inst} (hs : h.time.step = some (h.time.tick + 1, d)) (he : exitStepDue h = none)
    (hl : exitSlewDue h = none) (hpos : 0 ≤ frameEnd h + d) (ha : isActive h = true) :
    bookStep h = timeNotice 0 (streamTick h + 1) (stampOf h (frameEnd h)) (stampOf (stepBooked d h) (frameEnd h + d))
      (stepBooked d h) := by
  have halone : bookStep h = bookJump d false (stampOf h (frameEnd h)) { h with time.step := none, time.secondsSet := true } := by
    unfold bookStep
    rw [discardDue_of_reading hs he hl hpos]
    dsimp only
    rw [he, hl, hs]
    simp
  have hepoch : nextEpoch { h with time.step := none, time.secondsSet := true, time.jump := some d, time.firstAfterStep := true } =
      stepBooked d h := nextEpoch_of_active ha
  rw [halone, bookJump_of_command]
  dsimp only
  rw [hepoch]
  rfl

theorem exec_timeStepApply {s : State} (hup : isUp s.hub = true) : exec .timeStepApply s = hubNext s (bookStep s.hub) := by
  simp only [exec, execTimeStepApply, hup, if_true]

/-- A TIME_NOTICE of KIND 0 carries the stamp before the step at offset 16 (09 R214). -/
theorem timeNotice_fields (source : Nat) (utc : Int) (tick : Nat) (before : Stamp) (after : Bytes) :
    let p := leNat 1 0 ++ leNat 1 source ++ leInt 2 utc ++ zeros 4 ++ leNat 8 tick ++ stampBytes before ++ after
    fieldAt p 0 1 = 0 ∧ (p.drop 16).take 16 = stampBytes before := by
  have hfront : (leNat 1 0 ++ leNat 1 source ++ leInt 2 utc ++ zeros 4 ++ leNat 8 tick).length = 16 := by simp [leInt, zeros]
  have hstamp : (stampBytes before).length = 16 := by
    rw [stampBytes_eq, partsBytes_length]
    rfl
  refine ⟨rfl, ?_⟩
  rw [List.append_assoc, List.drop_left' hfront, List.take_left' hstamp]

/-! ## System coefficients (05 R113), SCHEDULE units (07 R151) -/

/-- A channel's accepted coefficients are spent, and come into force in their mode and range. -/
theorem sysEffect_of_new {h : Hub} {c : Nat} {x : Chan} {set : SysCoef} {old : Nat × Int} (hx : x.newSys = some (set, old)) :
    sysEffect h c x = if isSys c (dMode (chDesc h c)) x.rangeNow set then { x with gSys := set.g, oSys := set.o, newSys := none }
      else { x with newSys := none } := by
  rw [sysEffect, hx]

theorem sysEffect_of_none {h : Hub} {c : Nat} {x : Chan} (hx : x.newSys = none) : sysEffect h c x = x := by
  rw [sysEffect, hx]

theorem getElem?_mapI {α β : Type} {l : List α} {i : Nat} {x : α} (hx : l[i]? = some x) (f : Nat → α → β) :
    (mapI f l)[i]? = some (f i x) := by
  rw [mapI, List.getElem?_mapIdx, hx, Option.map_some]

section
variable {h : Hub} {u tCode : Nat} {i : Inst} (ha : isActive h = true) (he : fEnable (unitDesc h u) = true)
  (hsrc : fSource (unitDesc h u) = 5)
  (hA : fA (unitDesc h u) ≠ 0)
include ha he hsrc hA

/-- An enabled SCHEDULE unit flares at the ticks of its phase. -/
theorem scheduleAt_of_phase (tick : Nat) (shift : Inst)
    (hp : tickIndex tCode i % fA (unitDesc h u) = fB (unitDesc h u) % fA (unitDesc h u)) :
    scheduleAt u tick i shift tCode h =
      queueEvent { unit := u, inst := i, epoch := h.time.epoch, shift := some shift, due := tick + 1 } h :=
  if_pos (by simp [takesFlares, unitOn, ha, he, hsrc, hA, hp])

omit ha he hsrc hA in
theorem scheduleAt_of_other (tick : Nat) (shift : Inst)
    (hp : tickIndex tCode i % fA (unitDesc h u) ≠ fB (unitDesc h u) % fA (unitDesc h u)) :
    scheduleAt u tick i shift tCode h = h :=
  if_neg (by simp [hp])

end

/-! ## LEDGER_PERIOD (09 R211) -/

theorem exec_ledgerPeriod {s : State} (hup : isUp s.hub = true) (hnone : s.hub.stream.due.any (·.ledger) = false)
    (hperiod : (streamTick s.hub + 1) % max 1 (ledgerPeriod s.hub) = 0) :
    exec .ledgerPeriod s = hubNext s (emit { ty := 6, order := 7, ledger := true } s.hub) := by
  simp [exec, execLedgerPeriod, hup, hperiod, queueLedger, ledgerQueued, hnone]

/-- Settles O39, clause by clause. -/
theorem changesTakeEffectAtTheirTick : Obligations.ChangesTakeEffectAtTheirTick := by
  intro s hup h n
  refine ⟨fun items hitems hne hi => ?changes, fun t b hdue => ?uplink, fun hnone => ?none,
    fun passed b tc v rest hall hrest => ⟨fun hpassed hb => ?rate, fun hpassed hb => ?noRate⟩,
    fun gid g ha hsince hnamed hshadow hgid => ?graph,
    fun lane t table ht hn => ?table, fun d hs he hl hpos ha => ?step, fun d hs he hl hneg => ?discard, ⟨_, rfl,
      fun c x hx => ?coefficients⟩, fun hnone hperiod => ⟨_, exec_ledgerPeriod hup hnone hperiod, rfl, rfl⟩,
    fun u ha he hsrc hA => ⟨fun hp => ?otherTick, fun hp hnew => ?schedule⟩⟩
  case changes =>
    have hkept := cfgKept_foldl_cfgItem (h := h) hi
    exact exec_changeInstant_of_due hup rfl hitems hne (applyItems_of_writesOnly (h := withoutDue n h) hi n _)
      (ledgerKeys_congr hkept.chan hkept.group rfl rfl)
  case uplink =>
    have hitems : (sortBy (·.tick) (h.changes.filter fun c => decide (c.tick ≤ n))).map (·.item) = [.uplink b] :=
      congrArg (fun l => (sortBy (·.tick) l).map (·.item)) hdue
    exact exec_changeInstant_of_due hup rfl hitems (List.cons_ne_nil _ _) (applyItems_uplink n _ b (withoutDue n h))
      (ledgerKeys_congr rfl rfl rfl rfl)
  case none => rw [exec_changeInstant hup, applyChanges_of_none hnone, noteLedger_of_same rfl]; rfl
  case rate =>
    rw [exec_tickRateChange hup, bookRate_of_past hall (fun y hy => decide_eq_false (Int.not_le.mpr (hrest y hy)))
      (fun y hy => decide_eq_true (hpassed y hy)) (decide_eq_true hb)]
    rfl
  case noRate =>
    rw [exec_tickRateChange hup, bookRate_of_future hall (fun y hy => decide_eq_false (Int.not_le.mpr (hrest y hy))) hpassed
      (decide_eq_false (Int.not_le.mpr hb))]
    rfl
  case graph =>
    rw [exec_graphActivation hup, activateDue_of_shadow ha hsince hnamed hshadow hgid]
    rfl
  case table =>
    rw [exec_slotTableSwap hup, swapTable_of_due ht hn]
    rfl
  case step =>
    obtain ⟨hkind, hbefore⟩ := timeNotice_fields h.time.source h.time.utc (streamTick h + 1) (stampOf h (frameEnd h))
      (stampBytes (stampOf (stepBooked d h) (frameEnd h + d)))
    refine ⟨_, _, (exec_timeStepApply hup).trans (congrArg (hubNext s)
      (bookStep_of_due hs (exitStepDue_of_none he) (exitSlewDue_of_none hl) hpos ha)),
        rfl, rfl, rfl, rfl, rfl, rfl, rfl, rfl, hkind, hbefore, rfl, rfl, rfl⟩
  case discard =>
    refine ⟨_, rfl, ?_⟩
    rw [discardDue_of_negative hs (exitStepDue_of_none he) (exitSlewDue_of_none hl) hneg]
    exact ⟨jChange_time .., nextIndex_jChange .., journalOnly_jChange ..⟩
  case coefficients =>
    exact ⟨fun set old hnew => (getElem?_mapI hx _).trans (congrArg some (sysEffect_of_new hnew)),
      fun hnew => (getElem?_mapI hx _).trans (congrArg some (sysEffect_of_none hnew))⟩
  case otherTick => exact congrArg (hubNext s) (scheduleAt_of_other _ _ hp)
  case schedule => exact congrArg (hubNext s) ((scheduleAt_of_phase ha he hsrc hA _ _ hp).trans
      (queueEvent_of_new fun x hx hinst hunit => hnew x hx ⟨hunit, hinst⟩))

end Sys2Proof.Machine
end

