-- ==== Sys2Proof/Proofs/TickKept.lean ====
section
/-! PROOFS. What a tick leaves as it is: its number, once the tick has opened, and a reset that waits for its response (02 R24,
14 R365). The closure rules, the journal, the records and their release. -/

namespace Sys2Proof.Machine

/-- The tick and a reset that waits for its response are the same. -/
@[simp, reducible] def TickKept (h g : Hub) : Prop := g.time.tick = h.time.tick ∧ g.power.resetDue = h.power.resetDue

theorem TickKept.refl (h : Hub) : TickKept h h := ⟨rfl, rfl⟩

theorem TickKept.trans {h g k : Hub} (hg : TickKept h g) (gk : TickKept g k) : TickKept h k := ⟨gk.1.trans hg.1, gk.2.trans hg.2⟩

/-- A function that leaves time and power as they are keeps the tick. -/
theorem TickKept.of_eq {h g : Hub} (ht : g.time = h.time) (hp : g.power = h.power) : TickKept h g := by simp [ht, hp]

theorem SettleKept.tickKept {h g : Hub} (hk : SettleKept h g) : TickKept h g := .of_eq hk.time hk.power

/-- A repeated change keeps the tick when each one does. -/
@[simp] theorem TickKept.foldl {α : Type} {f : Hub → α → Hub} (hf : ∀ g x, TickKept g (f g x)) (xs : List α) (h : Hub) :
    TickKept h (xs.foldl f h) :=
  List.foldlRecOn (motive := TickKept h) xs f (.refl h) fun g hg x _ => hg.trans (hf g x)

/-- So does one that carries a result beside the hub. -/
theorem TickKept.foldl_fst {α β : Type} {f : Hub × β → α → Hub × β} (hf : ∀ y x, TickKept y.1 (f y x).1) (xs : List α)
    (y : Hub × β) : TickKept y.1 (xs.foldl f y).1 :=
  List.foldlRecOn (motive := fun z => TickKept y.1 z.1) xs f (.refl _) fun z hz x _ => hz.trans (hf z x)

theorem TickKept.foldl_snd {α β : Type} {f : β × Hub → α → β × Hub} (hf : ∀ y x, TickKept y.2 (f y x).2) (xs : List α)
    (y : β × Hub) : TickKept y.2 (xs.foldl f y).2 :=
  List.foldlRecOn (motive := fun z => TickKept y.2 z.2) xs f (.refl _) fun z hz x _ => hz.trans (hf z x)

/-- A choice of hubs takes its tick from the one chosen. -/
@[simp] theorem ite_tickKept (c : Prop) [Decidable c] (a b : Hub) :
    (if c then a else b).time.tick = (if c then a.time.tick else b.time.tick) ∧
    (if c then a else b).power.resetDue = (if c then a.power.resetDue else b.power.resetDue) :=
  ⟨apply_ite (fun h : Hub => h.time.tick) .., apply_ite (fun h : Hub => h.power.resetDue) ..⟩

/-! ## The journal (15 R391 to R394, 13 R325, R326) -/

@[simp] theorem tickKept_revokeWindows (sel : Window → Bool) (h : Hub) : TickKept h (revokeWindows sel h) := by simp [revokeWindows]

@[simp] theorem tickKept_closeRun (code : Nat) (h : Hub) : TickKept h (closeRun code h) := by
  unfold closeRun
  split <;> simp

/-! ## Records that fall due (09 R204) -/

@[simp] theorem tickKept_timeNotice (kind : Nat) (tick : Nat) (before after : Stamp) (h : Hub) :
    TickKept h (timeNotice kind tick before after h) := by simp [timeNotice]

/-! ## What leaves the hub (log 12) -/

@[simp] theorem tickKept_drawFree (h : Hub) : TickKept h (drawFree h).2 := by simp [drawFree]

@[simp] theorem tickKept_drawSound (h : Hub) : TickKept h (drawSound h).2 := by simp [drawSound]

/-! ## Staging (14 R343) -/

@[simp] theorem tickKept_dropStaged (origin : BitVec 32) (code : Nat) (h : Hub) : TickKept h (dropStaged origin code h) := by
  simp [dropStaged]

@[simp] theorem tickKept_schedule (tick : Nat) (items : List Item) (h : Hub) : TickKept h (schedule tick items h) := by simp [schedule]

/-! ## Bodies (R177, R187) -/

@[simp] theorem tickKept_bodyChecked (h : Hub) : TickKept h (bodyChecked h) := by simp [bodyChecked]

/-! ## Verdicts (02 R30, 12 R302) -/

@[simp] theorem tickKept_issue (vs : List Verdict) (h : Hub) : TickKept h (issue vs h) := by simp [issue]

/-! ## Over-range (03 R62 to R65) -/

@[simp] theorem tickKept_deadlineVerdict (fe : Nat) (h : Hub) : TickKept h (deadlineVerdict fe h) := by
  unfold deadlineVerdict
  split <;> simp

/-! ## Detectors and merging (15 R387) -/

@[simp] theorem tickKept_raiseOrMerge (r : Raise) (once : Bool) (h : Hub) : TickKept h (raiseOrMerge r once h) := by
  simp [raiseOrMerge, mergeNewest]

/-! ## The ledger (09 R210 to R213) -/

@[simp] theorem tickKept_countSlots (ss : List (Nat × Nat)) (f : Nat → Chan → Chan) (h : Hub) : TickKept h (countSlots ss f h) := by
  simp [countSlots]

@[simp] theorem tickKept_bookCreated (ss : List (Nat × Nat)) (h : Hub) : TickKept h (bookCreated ss h) := by simp [bookCreated]

/-! ## FRAME records (09 R205, R206, 08 R189) -/

@[simp] theorem tickKept_seedNext (cs : List Nat) (h : Hub) : TickKept h (seedNext cs h) := by simp [seedNext]

@[simp] theorem tickKept_encodeFrame (f : Frame) (mismatch : Bool) (h : Hub) : TickKept h (encodeFrame f mismatch h) := by
  simp [encodeFrame, noteEnable, afterBlocks]

/-! ## Reseed repair (08 R190) -/

@[simp] theorem tickKept_repairFuel (gone : List Rec) (n : Nat) (work : List (Nat × Nat)) (h : Hub) :
    TickKept h (repairFuel gone n work h) := by
  induction n generalizing work h with
  | zero => exact .refl h
  | succ n ih =>
    cases work with
    | nil => exact .refl h
    | cons x more =>
      unfold repairFuel
      dsimp only
      split
      case h_1 => exact ih ..
      case h_2 => exact TickKept.trans (by simp) (ih ..)
      case h_3 => exact iteInduction (motive := TickKept h) (fun _ => ih ..) fun _ => .trans (by simp) (ih ..)
      case h_4 => exact .trans (by simp) (ih ..)

@[simp] theorem tickKept_repair (gone : List Rec) (h : Hub) : TickKept h (repair gone h) := tickKept_repairFuel ..

/-! ## Withdrawing and dropping (09 R223, R225) -/

@[simp] theorem tickKept_withdraw (reason : Nat) (sel : Held → Bool) (h : Hub) : TickKept h (withdraw reason sel h) := by simp [withdraw]

@[simp] theorem tickKept_dropSpan (h : Hub) : TickKept h (dropSpan h) := by
  unfold dropSpan
  split <;> simp

@[simp] theorem tickKept_dropFuel (n : Nat) (h : Hub) : TickKept h (dropFuel n h) := by
  induction n generalizing h with
  | zero => exact .refl h
  | succ n ih => simp [dropFuel, ih]

@[simp] theorem tickKept_makeDrops (h : Hub) : TickKept h (makeDrops h) := by simp [makeDrops]

/-! ## Custody (09 R226 to R228) -/

@[simp] theorem tickKept_applyAcks (h : Hub) : TickKept h (applyAcks h) := by simp [applyAcks, bookCustody]

/-! ## Release (09 R203, R204) -/

@[simp] theorem tickKept_assignAt (st : Stamp) (h : Hub) (r : Rec) : TickKept h (assignAt st h r) := by simp [assignAt, bookOcculted]

@[simp] theorem tickKept_releaseDue (h : Hub) : TickKept h (releaseDue h) := by simp [releaseDue, assign]

/-! ## A change of the custody outlet (R218) -/

@[simp] theorem tickKept_unsend (sel : Held → Bool) (h : Hub) : TickKept h (unsend sel h) := by simp [unsend]

@[simp] theorem tickKept_flushLane (h : Hub) : TickKept h (flushLane h) := by simp [flushLane]

@[simp] theorem tickKept_flushEth (h : Hub) : TickKept h (flushEth h) := by simp [flushEth]

@[simp] theorem tickKept_custodyChange (before : Hub) (h : Hub) : TickKept h (custodyChange before h) := by simp [custodyChange]

end Sys2Proof.Machine
end

