-- ==== Sys2Proof/Proofs/TickKeptInCaptures.lean ====
section
/-! PROOFS. The array and the captures leave the tick and a waiting reset as they are (06 R130 to R144, 07 R145 to R171). -/

namespace Sys2Proof.Machine

/-! ## Applying and closing a frame (R136) -/

@[simp] theorem tickKept_arrClose (earliest : Option Nat) (h : Hub) : TickKept h (arrClose earliest h) := by
  unfold arrClose
  dsimp only
  split
  · exact ⟨rfl, rfl⟩
  · split <;> exact ⟨rfl, rfl⟩

@[simp] theorem tickKept_arrPrune (h : Hub) : TickKept h (arrPrune h) := by simp [arrPrune]

/-! ## Activation (R140, R141, R144) -/

@[simp] theorem tickKept_activateAt (tick : Nat) (gid : BitVec 32) (h : Hub) : TickKept h (activateAt tick gid h) := by simp [activateAt]

@[simp] theorem tickKept_activateDue (n : Nat) (h : Hub) : TickKept h (activateDue n h) := by
  unfold activateDue
  split <;> simp

@[simp] theorem tickKept_activationDone (n : Nat) (h : Hub) : TickKept h (activationDone n h) := by
  unfold activationDone
  split <;> simp

/-! ## SUMMARY records (R130, R131, R137) -/

@[simp] theorem tickKept_takeEntries (f : Nat) (h : Hub) : TickKept h (takeEntries f h).2 := by simp [takeEntries]

/-! ## Statistics (R166, R167) -/

@[simp] theorem tickKept_countWords (d : Nat) (c : Capture) (s : CapSeg) (pos ch : Nat) (ws : List Word) (h : Hub) :
    TickKept h (countWords d c s pos ch ws h) := by simp [countWords]

@[simp] theorem tickKept_countSeg (d : Nat) (c : Capture) (pos : Nat) (s : CapSeg) (h : Hub) : TickKept h (countSeg d c pos s h) := by
  unfold countSeg
  split <;> simp

@[simp] theorem tickKept_countSegs (d : Nat) (c : Capture) (pos : Nat) (ss : List CapSeg) (h : Hub) :
    TickKept h (countSegs d c pos ss h) := by
  induction ss generalizing pos h with
  | nil => exact .refl h
  | cons s ss ih => exact (tickKept_countSeg ..).trans (ih ..)

/-! ## Records (R170, R171) -/

@[simp] theorem tickKept_dataChecked (r : Rec) (h : Hub) : TickKept h (dataChecked r h) := by simp [dataChecked]

/-! ## Export under STREAM (R171) -/

@[simp] theorem tickKept_updCapture (d id : Nat) (f : Capture → Capture) (h : Hub) : TickKept h (updCapture d id f h) := by
  simp [updCapture]

@[simp] theorem tickKept_dropCapture (d id : Nat) (h : Hub) : TickKept h (dropCapture d id h) := by simp [dropCapture]

@[simp] theorem tickKept_exportOne (d : Nat) (h : Hub) : TickKept h (exportOne d h).1 := by
  unfold exportOne
  dsimp only
  split
  · exact .refl h
  next c _ =>
    split
    · simp
    next r run _ => exact iteInduction (motive := fun y : Hub × Bool => TickKept h y.1) (fun _ => by simp) fun _ => .refl h

@[simp] theorem tickKept_exportFuel (n d : Nat) (h : Hub) : TickKept h (exportFuel n d h) := by
  induction n generalizing h with
  | zero => exact .refl h
  | succ n ih =>
    have hone := tickKept_exportOne d h
    exact iteInduction (motive := TickKept h) (fun _ => hone.trans (ih _)) fun _ => hone

@[simp] theorem tickKept_exportTick (h : Hub) (d : Nat) : TickKept h (exportTick h d) := by
  unfold exportTick
  split <;> simp

/-! ## The end of a capture (R170) -/

@[simp] theorem tickKept_capFinish (d n : Nat) (h : Hub) (c : Capture) : TickKept h (capFinish d n h c) :=
  (settleKept_capFinish d n h c).tickKept

@[simp] theorem tickKept_revokeOverwritten (h : Hub) : TickKept h (revokeOverwritten h) := by simp [revokeOverwritten, overwritten]

@[simp] theorem tickKept_capSettle (f : Frame) (h : Hub) : TickKept h (capSettle f h) := by simp [capSettle, ringPush]

@[simp] theorem tickKept_cutDef (d tick : Nat) (h : Hub) : TickKept h (cutDef d tick h) := by simp [cutDef]

/-! ## Triggering (R156 to R164) -/

@[simp] theorem tickKept_missFlare (d unit : Nat) (tooOld : Bool) (st : Stamp) (h : Hub) : TickKept h (missFlare d unit tooOld st h) := by
  simp [missFlare]

@[simp] theorem tickKept_giveUpBuffer (d : Nat) (c : Capture) (h : Hub) : TickKept h (giveUpBuffer d c h) := by
  simp [giveUpBuffer, revokeCapture]

@[simp] theorem tickKept_recycle (d : Nat) (h : Hub) : TickKept h (recycle d h) := by
  unfold recycle
  split <;> simp

@[simp] theorem tickKept_startCapture (d unit : Nat) (st : Stamp) (before : Nat) (h : Hub) :
    TickKept h (startCapture d unit st before h) := by simp [startCapture]

@[simp] theorem tickKept_triggerDef (unit : Nat) (st : Stamp) (t : Inst) (h : Hub) (d : Nat) : TickKept h (triggerDef unit st t h d) := by
  unfold triggerDef
  refine iteInduction (motive := TickKept h) (fun _ => .refl h) fun _ => ?_
  dsimp only
  split
  · simp
  · split <;> simp

/-! ## Deciding flares (R151, R152) -/

@[simp] theorem tickKept_setUnit (u : Nat) (x : FlareUnit) (h : Hub) : TickKept h (setUnit u x h) := by simp [setUnit]

@[simp] theorem tickKept_frameFlares (f : Frame) (h : Hub) : TickKept h (frameFlares f h).1 := (settleKept_frameFlares f h).tickKept

@[simp] theorem tickKept_eventFlares (h : Hub) : TickKept h (eventFlares h).1 := by simp [eventFlares]

@[simp] theorem tickKept_coincide (new : Member) (acc : Hub × List Cand) (cu : Nat) : TickKept acc.1 (coincide new acc cu).1 := by
  refine iteInduction (motive := fun y : Hub × List Cand => TickKept acc.1 y.1) (fun _ => .refl _) fun _ => ?_
  split
  · exact .refl _
  · exact iteInduction (motive := fun y : Hub × List Cand => TickKept acc.1 y.1) (fun _ => .refl _) fun _ => ⟨rfl, rfl⟩

@[simp] theorem tickKept_decideFuel (n : Nat) (cs done : List Cand) (h : Hub) : TickKept h (decideFuel n cs done h).1 := by
  induction n generalizing cs done h with
  | zero => exact .refl h
  | succ n ih =>
    cases cs with
    | nil => exact .refl h
    | cons c cs =>
      refine iteInduction (motive := fun y : Hub × List Cand => TickKept h y.1) (fun _ => ih ..) fun _ => .trans ?_ (ih ..)
      exact .trans (by simp) (TickKept.foldl_fst (tickKept_coincide _) _ _)

@[simp] theorem tickKept_decideFlares (cs : List Cand) (h : Hub) : TickKept h (decideFlares cs h).1 :=
  (tickKept_decideFuel ..).trans (.foldl (fun g _ => .foldl (fun _ _ => tickKept_triggerDef ..) _ g) _ _)

@[simp] theorem tickKept_expireMembers (sel : Nat → Bool) (h : Hub) : TickKept h (expireMembers sel h) := by simp [expireMembers]

/-! ## Events (R151, R153, R169) -/

@[simp] theorem tickKept_broadcastFlares (cs : List Cand) (h : Hub) : TickKept h (broadcastFlares cs h) := by simp [broadcastFlares]

/-! ## Resets of armed states and time steps (R150, R165) -/

@[simp] theorem tickKept_disarmChannel (t c : Nat) (h : Hub) : TickKept h (disarmChannel t c h) := by simp [disarmChannel]

@[simp] theorem tickKept_stepCaptures (h : Hub) : TickKept h (stepCaptures h) := by simp [stepCaptures]

@[simp] theorem tickKept_moveCaptures (old : Hub) (before after : Inst) (h : Hub) : TickKept h (moveCaptures old before after h) := by
  simp [moveCaptures]

/-! ## Changes of the configuration -/

@[simp] theorem tickKept_acceptItems (tick : Nat) (items : List Item) (h : Hub) : TickKept h (acceptItems tick items h) := by
  simp [acceptItems]

end Sys2Proof.Machine
end

