-- ==== Sys2Proof/Proofs/TickKeptInLinks.lean ====
section
/-! PROOFS. Calibration, commits, the links and the shadow leave the tick and a waiting reset as they are (chapters 4, 11, 12, 14). -/

namespace Sys2Proof.Machine

/-! ## The spare (R52, R108, 15 R371) -/

@[simp] theorem tickKept_connect (c : Nat) (p : PairConn) (fe : Option Nat) (h : Hub) : TickKept h (connect c p fe h) := by simp [connect]

@[simp] theorem tickKept_overlap (c : Nat) (h : Hub) : TickKept h (overlap c h) := by simp [overlap]

@[simp] theorem tickKept_rejoin (c : Nat) (h : Hub) : TickKept h (rejoin c h) := by simp [rejoin]

@[simp] theorem tickKept_addHold (c : Nat) (start stop : Inst) (h : Hub) : TickKept h (addHold c start stop h) := by simp [addHold]

@[simp] theorem tickKept_endHold (c : Nat) (stop : Inst) (h : Hub) : TickKept h (endHold c stop h) := by simp [endHold]

@[simp] theorem tickKept_breakMake (c : Nat) (toSpare : Bool) (t : Inst) (h : Hub) : TickKept h (breakMake c toSpare t h) := by
  simp [breakMake]

/-! ## Turns (R104 to R109) -/

@[simp] theorem tickKept_endTurn (t : Nat) (h : Hub) : TickKept h (endTurn t h) := by simp [endTurn]

@[simp] theorem tickKept_urgent (source sub : Nat) (collector calibration : Bool) (h : Hub) :
    TickKept h (urgent source sub collector calibration h) := by simp [urgent]

@[simp] theorem tickKept_writeQuality (fe : Nat) (qs : List Quality) (h : Hub) : TickKept h (writeQuality fe qs h) := by simp [writeQuality]

@[simp] theorem tickKept_beginReturn (t c : Nat) (h : Hub) : TickKept h (beginReturn t c h) := by simp [beginReturn, setStep]

@[simp] theorem tickKept_sourceBack (c : Nat) (h : Hub) : TickKept h (sourceBack c h) := by simp [sourceBack]

@[simp] theorem tickKept_abandonTurn (c : Nat) (at_ : Inst) (h : Hub) : TickKept h (abandonTurn c at_ h) := by
  unfold abandonTurn
  dsimp only
  split
  · exact .refl h
  next u _ =>
    refine iteInduction (fun _ => .refl h) fun _ => ?_
    cases u.step <;> simp

/-! ## The path check (R118) -/

@[simp] theorem tickKept_pathTick (t : Nat) (h : Hub) : TickKept h (pathTick t h) := by
  unfold pathTick
  split <;> simp

/-! ## Runs (R97, R104) -/

@[simp] theorem tickKept_switchFault (c : Nat) (h : Hub) : TickKept h (switchFault c h) := by simp [switchFault]

/-! ## Retirement (03 R61, 15 R376 to R378) -/

@[simp] theorem tickKept_retire (c : Nat) (h : Hub) : TickKept h (retire c h) := by simp [retire, isolate]

@[simp] theorem tickKept_retireChannel (c source : Nat) (noSpare : Bool) (h : Hub) : TickKept h (retireChannel c source noSpare h) := by
  simp [retireChannel]

@[simp] theorem tickKept_markEntry (source inst reaction : Nat) (h : Hub) : TickKept h (markEntry source inst reaction h) := by
  simp [markEntry]

/-! ## Overlap comparison (R105, R106) -/

@[simp] theorem tickKept_pairAtTick (c : Nat) (p : PairConn) (fe : Nat) (h : Hub) : TickKept h (pairAtTick c p fe h) := by simp [pairAtTick]

@[simp] theorem tickKept_applyPairs (h : Hub) : TickKept h (applyPairs h) := by
  unfold applyPairs
  extract_lets due g
  have hg : TickKept h g := .foldl (fun k c => by split <;> simp) due h
  clear_value g
  exact hg

@[simp] theorem tickKept_abandonSpare (t : Nat) (u : Turn) (h : Hub) : TickKept h (abandonSpare t u h) := by simp [abandonSpare]

@[simp] theorem tickKept_returnAt (c : Nat) (inst : Inst) (h : Hub) : TickKept h (returnAt c inst h) := by simp [returnAt]

@[simp] theorem tickKept_giveBack (t : Nat) (u : Turn) (inst : Inst) (h : Hub) : TickKept h (giveBack t u inst h) := by
  refine iteInduction (fun _ => tickKept_abandonSpare t u h) fun _ => ?_
  cases u.step <;> simp

/-! ## System calibration (R111 to R113) -/

@[simp] theorem tickKept_applySys (h : Hub) : TickKept h (applySys h) := by simp [applySys]

/-! ## Holding, storing and committing -/

@[simp] theorem tickKept_checkBase (h : Hub) : TickKept h (checkBase h) := by simp [checkBase]

@[simp] theorem tickKept_takeItems (tick : Nat) (items : List Item) (h : Hub) : TickKept h (takeItems tick items h) := by simp [takeItems]

/-! ## CFG_TICK (02 R42) -/

@[simp] theorem tickKept_addRate (b tc v : Nat) (h : Hub) : TickKept h (addRate b tc v h) := by simp [addRate]

/-! ## Graphs (06 R139) -/

@[simp] theorem tickKept_graphChecked (g : Graph) (h : Hub) : TickKept h (graphChecked g h) := by simp [graphChecked]

/-! ## Compression jobs (08 R194 to R196) -/

@[simp] theorem tickKept_setJob (j : Nat) (x : Option Job) (h : Hub) : TickKept h (setJob j x h) := by simp [setJob]

@[simp] theorem tickKept_revokeJob (j : Nat) (h : Hub) : TickKept h (revokeJob j h) := by simp [revokeJob]

/-! ## Cells (R270) -/

@[simp] theorem tickKept_queueCells (k : Nat) (cs : List Cell) (h : Hub) : TickKept h (queueCells k cs h) := by simp [queueCells]

/-! ## Forwarding (R285, R289) -/

@[simp] theorem tickKept_forwardEth (c : Cell) (h : Hub) : TickKept h (forwardEth c h) := by simp [forwardEth, recordDatagram]

@[simp] theorem tickKept_freeSources (cs : List Cell) (h : Hub) : TickKept h (freeSources cs h) := by
  refine .foldl (fun g c => ?_) cs h
  split <;> simp

@[simp] theorem tickKept_queuePass (toward : Nat) (cs : List Cell) (h : Hub) : TickKept h (queuePass toward cs h) := by
  simp [queuePass, drainPass]

/-! ## Loss of a link (R278) -/

@[simp] theorem tickKept_cutPass (k : Nat) (h : Hub) : TickKept h (cutPass k h) := by
  unfold cutPass
  dsimp only
  split <;> simp

@[simp] theorem tickKept_cutOwn (k : Nat) (h : Hub) : TickKept h (cutOwn k h) := by
  unfold cutOwn
  split <;> simp

@[simp] theorem tickKept_linkDown (k : Nat) (h : Hub) : TickKept h (linkDown k h) := by simp [linkDown, abortOnward]

/-! ## A change of the custody direction (01 R21, 09 R218) -/

@[simp] theorem tickKept_directionChange (before : Hub) (h : Hub) : TickKept h (directionChange before h) := by
  simp [directionChange, redirectPass]

/-! ## Entering and leaving UP (R265 to R268, R277) -/

@[simp] theorem tickKept_laneTo (st : LaneState) (l : Nat) (h : Hub) : TickKept h (laneTo st l h) := by simp [laneTo, leaveLink, linkResync]

@[simp] theorem tickKept_retireLane (l source : Nat) (h : Hub) : TickKept h (retireLane l source h) := by simp [retireLane]

/-! ## Units on lane P (12 R301) -/

@[simp] theorem tickKept_sendUnit (kind tile tick : Nat) (body : Bytes) (h : Hub) : TickKept h (sendUnit kind tile tick body h) := by
  simp [sendUnit]

/-! ## The messages that made the configuration (R312) -/

@[simp] theorem tickKept_noteAccepted (effect mailbox : Nat) (m : Bytes) (h : Hub) : TickKept h (noteAccepted effect mailbox m h) := by
  simp [noteAccepted]

/-! ## Loss of the shadow -/

@[simp] theorem tickKept_stopLive (h : Hub) : TickKept h (stopLive h) := by simp [stopLive]

@[simp] theorem tickKept_dropShadow (h : Hub) : TickKept h (dropShadow h) := by simp [dropShadow]

@[simp] theorem tickKept_detach (h : Hub) : TickKept h (detach h) := by
  unfold detach
  split <;> simp

@[simp] theorem tickKept_afterLanes (before : Hub) (h : Hub) : TickKept h (afterLanes before h) := by simp [afterLanes, pairLinkLost]

@[simp] theorem tickKept_toResync (wait : Bool) (h : Hub) : TickKept h (toResync wait h) := by simp [toResync]

@[simp] theorem tickKept_shadowLost (h : Hub) : TickKept h (shadowLost h) := by simp [shadowLost]

/-! ## The steps (R324) -/

@[simp] theorem tickKept_raiseCounter (o : BitVec 32) (slot n : Nat) (h : Hub) : TickKept h (raiseCounter o slot n h) := by
  simp [raiseCounter]

@[simp] theorem tickKept_acceptRec (code : Nat) (r : Req) (p : Reply) (h : Hub) : TickKept h (acceptRec code r p h) := by simp [acceptRec]

end Sys2Proof.Machine
end

