-- ==== Sys2Proof/Proofs/TickKeptInReactions.lean ====
section
/-! PROOFS. The timebase's bookings and the collector leave the tick and a waiting reset as they are (10 R233 to R255, chapter 15). -/

namespace Sys2Proof.Machine

/-! ## Compression jobs (08 R195) -/

@[simp] theorem tickKept_jobAdvance (j : Nat) (h : Hub) : TickKept h (jobAdvance j h) := by
  unfold jobAdvance
  split <;> simp

/-! ## The servo (10 R242 to R244) -/

@[simp] theorem tickKept_freqFault (h : Hub) : TickKept h (freqFault h) := by simp [freqFault]

/-! ## Loss and qualification (10 R246, R248) -/

@[simp] theorem tickKept_loseSource (h : Hub) : TickKept h (loseSource h) := by simp [loseSource]

/-! ## Epochs, steps and the exits at a tick (10 R245, R252 to R255, R447) -/

@[simp] theorem tickKept_discardStep (reason : Nat) (h : Hub) : TickKept h (discardStep reason h) := by
  unfold discardStep
  split <;> simp

@[simp] theorem tickKept_discardDue (h : Hub) : TickKept h (discardDue h) := by
  unfold discardDue
  split <;> simp

@[simp] theorem tickKept_nextEpoch (h : Hub) : TickKept h (nextEpoch h) := by simp [nextEpoch]

@[simp] theorem tickKept_bookJump (d : Inst) (hardware : Bool) (before : Stamp) (h : Hub) : TickKept h (bookJump d hardware before h) := by
  simp [bookJump]

@[simp] theorem tickKept_noticeNext (kind : Nat) (h : Hub) : TickKept h (noticeNext kind h) := by simp [noticeNext]

@[simp] theorem tickKept_leaveHoldover (servo : Servo) (h : Hub) : TickKept h (leaveHoldover servo h) := by simp [leaveHoldover]

@[simp] theorem tickKept_bookStep (h : Hub) : TickKept h (bookStep h) := by
  unfold bookStep
  refine (tickKept_discardDue h).trans ?_
  generalize discardDue h = g
  dsimp only
  split
  · simp
  · cases exitSlewDue g <;> split <;> split <;> simp

@[simp] theorem tickKept_bookHoldover (h : Hub) : TickKept h (bookHoldover h) := by simp [bookHoldover]

@[simp] theorem tickKept_findLoss (h : Hub) : TickKept h (findLoss h) := by simp [findLoss]

@[simp] theorem tickKept_applyTime (block : BitVec 64) (h : Hub) : TickKept h (applyTime block h) := by simp [applyTime, newSource]

@[simp] theorem tickKept_bookUtc (h : Hub) : TickKept h (bookUtc h) := by simp [bookUtc]

/-! ## PTP (11 R291, 10 R240) -/

@[simp] theorem tickKept_ptpTick (h : Hub) : TickKept h (ptpTick h) := by simp [ptpTick, masterTick]

/-! ## Loop outputs at their fault current (03 R72) -/

@[simp] theorem tickKept_loopToFault (k : Nat) (h : Hub) : TickKept h (loopToFault k h) := by simp [loopToFault]

@[simp] theorem tickKept_loopsToFault (h : Hub) : TickKept h (loopsToFault h) := by simp [loopsToFault]

/-! ## Retirement and remap (R376 to R378, 03 R61) -/

@[simp] theorem tickKept_retireGroup (g source : Nat) (h : Hub) : TickKept h (retireGroup g source h) := by simp [retireGroup]

@[simp] theorem tickKept_cancelHandover (c : Nat) (h : Hub) : TickKept h (cancelHandover c h) := by simp [cancelHandover]

@[simp] theorem tickKept_spareFaulty (g source : Nat) (h : Hub) : TickKept h (spareFaulty g source h) := by
  unfold spareFaulty
  dsimp only
  generalize hlost : updGroup g _ h = k
  have hk : TickKept h k := by subst hlost; simp
  refine hk.trans ?_
  split <;> split <;> simp

@[simp] theorem tickKept_remapReaction (fe source : Nat) (h : Hub) : TickKept h (remapReaction fe source h) := by
  refine iteInduction (fun _ => ?_) fun _ => iteInduction (fun _ => ?_) fun _ => ?_
  all_goals simp

@[simp] theorem tickKept_retireReaction (source inst : Nat) (h : Hub) : TickKept h (retireReaction source inst h) := by
  unfold retireReaction
  split
  case h_2 =>
    dsimp only
    split
    · simp
    · split <;> simp
  all_goals simp

/-! ## Pages (16 R403) -/

@[simp] theorem tickKept_retirePage (page : Nat) (h : Hub) : TickKept h (retirePage page h) := by simp [retirePage]

/-! ## The eclipse state (R379 to R382) -/

@[simp] theorem tickKept_abandonTurns (h : Hub) : TickKept h (abandonTurns h) := by
  refine .foldl (fun g t => ?_) _ h
  split <;> simp

@[simp] theorem tickKept_shutDown (h : Hub) : TickKept h (shutDown h) := by simp [shutDown]

@[simp] theorem tickKept_eclipseActions (h : Hub) : TickKept h (eclipseActions h) := by simp [eclipseActions]

@[simp] theorem tickKept_enterEclipse (source inst cls : Nat) (ended : Option Inst) (at_ : Inst) (h : Hub) :
    TickKept h (enterEclipse source inst cls ended at_ h) := by
  unfold enterEclipse
  dsimp only
  split <;> simp

@[simp] theorem tickKept_causeAgain (source inst : Nat) (ended : Option Inst) (h : Hub) : TickKept h (causeAgain source inst ended h) := by
  simp [causeAgain]

@[simp] theorem tickKept_bookExit (h : Hub) : TickKept h (bookExit h) := by
  unfold bookExit
  split <;> simp

@[simp] theorem tickKept_eclipseOcc (h : Hub) : TickKept h (eclipseOcc h) := by
  unfold eclipseOcc
  split <;> simp

/-! ## Handling (R373, R376, R384 to R388) -/

@[simp] theorem tickKept_failover (source : Nat) (h : Hub) : TickKept h (failover source h) := by simp [failover]

@[simp] theorem tickKept_react (source inst cls reaction : Nat) (ended : Option Inst) (at_ : Inst) (h : Hub) :
    TickKept h (react source inst cls reaction ended at_ h) := by
  unfold react
  split <;> simp

@[simp] theorem tickKept_declare (source inst cls reaction occurrences : Nat) (ended : Option Inst) (at_ : Inst) (h : Hub) :
    TickKept h (declare source inst cls reaction occurrences ended at_ h) := by simp [declare]

@[simp] theorem tickKept_countOne (source inst : Nat) (h : Hub) : TickKept h (countOne source inst h).1 := by simp [countOne, setCounts]

@[simp] theorem tickKept_mergedVerdict (source inst : Nat) (h : Hub) : TickKept h (mergedVerdict source inst h) := by
  unfold mergedVerdict
  split <;> simp

@[simp] theorem tickKept_handleMerged (x : Nat × Nat) (h : Hub) : TickKept h (handleMerged x h) := by simp [handleMerged]

@[simp] theorem tickKept_writeEntry (e : Hist) (h : Hub) : TickKept h (writeEntry e h) := by simp [writeEntry, pushHistory]

@[simp] theorem tickKept_retryLane (source : Nat) (h : Hub) : TickKept h (retryLane source h) := by simp [retryLane]

@[simp] theorem tickKept_collectorAsks (source inst : Nat) (h : Hub) : TickKept h (collectorAsks source inst h) := by simp [collectorAsks]

@[simp] theorem tickKept_handleRaise (r : Raise) (h : Hub) : TickKept h (handleRaise r h) := by
  unfold handleRaise
  extract_lets cfg c occ v g flags taken k l _ m n o q
  have hc : TickKept h c.1 :=
    iteInduction (motive := fun y : Hub × Bool × Nat => TickKept h y.1) (fun _ => tickKept_countOne ..) fun _ => .refl h
  have hk : TickKept c.1 k := by simp [k, g]
  have hm : TickKept k m := by simp [m, l]
  have hq : TickKept m q := by simp [q, o, n]
  exact (((hc.trans hk).trans hm).trans hq).trans (by simp)

@[simp] theorem tickKept_eclipseFirst (r : Raise) (q : List Raise) (h : Hub) : TickKept h (eclipseFirst r q h) := by
  refine iteInduction (motive := TickKept h) (fun _ => ?_) fun _ => .refl h
  split <;> simp

@[simp] theorem tickKept_handleNext (h : Hub) : TickKept h (handleNext h) := by
  unfold handleNext
  split
  · exact .refl h
  · exact .trans (by simp) (tickKept_handleRaise ..)

@[simp] theorem tickKept_handleFuel (n : Nat) (h : Hub) : TickKept h (handleFuel n h) := by
  induction n generalizing h with
  | zero => exact .refl h
  | succ n ih => simp [handleFuel, ih]

/-! ## Persistence (R373) -/

@[simp] theorem tickKept_persistExpire (source inst : Nat) (h : Hub) : TickKept h (persistExpire source inst h) := by
  unfold persistExpire
  split <;> simp

/-! ## The journal's timed work (R393, R394) -/

@[simp] theorem tickKept_refillTokens (h : Hub) : TickKept h (refillTokens h) := by simp [refillTokens]

@[simp] theorem tickKept_closeOldRuns (h : Hub) : TickKept h (closeOldRuns h) := by simp [closeOldRuns, closeIfOld]

end Sys2Proof.Machine
end

