-- ==== Sys2Proof/Proofs/TickKeptInChanges.lean ====
section
/-! PROOFS. Changes, settling, and the state that changes at a tick leave the tick and a waiting reset as they are
(02 R24 to R43, 03 R68). -/

namespace Sys2Proof.Machine

/-! ## Pairs, ports and sources as configured -/

@[simp] theorem tickKept_homePair (c : Nat) (h : Hub) : TickKept h (homePair c h) := by simp [homePair]

@[simp] theorem tickKept_homePort (g : Nat) (h : Hub) : TickKept h (homePort g h) := by simp [homePort]

@[simp] theorem tickKept_powerUp (h : Hub) : TickKept h (powerUp h) := by simp [powerUp]

@[simp] theorem tickKept_settleAll (h : Hub) : TickKept h (settleAll h) := by simp [settleAll]

/-! ## Channel and group descriptors -/

@[simp] theorem tickKept_setPhase (t : Nat) (inst : Inst) (c : Nat) (h : Hub) : TickKept h (setPhase t inst c h) := by simp [setPhase]

@[simp] theorem tickKept_setPhases (t : Nat) (inst : Inst) (h : Hub) : TickKept h (setPhases t inst h) := by simp [setPhases]

@[simp] theorem tickKept_chanChange (t : Nat) (inst : Inst) (h0 : Hub) (h : Hub) (c : Nat) : TickKept h (chanChange t inst h0 h c) := by
  simp [chanChange, endOverlap, chainChange, rateChange, loadSys]

@[simp] theorem tickKept_groupChange (h0 : Hub) (h : Hub) (g : Nat) : TickKept h (groupChange h0 h g) := by simp [groupChange]

/-! ## Remap and revive (14 R349, 15 R377) -/

@[simp] theorem tickKept_freeSpare (c : Nat) (inst : Inst) (h : Hub) : TickKept h (freeSpare c inst h) := by
  unfold freeSpare
  split <;> simp

@[simp] theorem tickKept_remapItem (t : Nat) (inst : Inst) (c : Nat) (undo : Bool) (h : Hub) : TickKept h (remapItem t inst c undo h) := by
  simp [remapItem, remapSwap]

@[simp] theorem tickKept_reviveItem (c : Nat) (h : Hub) : TickKept h (reviveItem c h) := by simp [reviveItem, forgetFaults]

/-! ## The other items -/

@[simp] theorem tickKept_flareItem (u : Nat) (h : Hub) : TickKept h (flareItem u h) := by simp [flareItem]

@[simp] theorem tickKept_captureItem (t d : Nat) (h : Hub) : TickKept h (captureItem t d h) := by simp [captureItem]

@[simp] theorem tickKept_clearStats (what : Nat) (h : Hub) : TickKept h (clearStats what h) := by simp [clearStats]

@[simp] theorem tickKept_markAhead (source inst : Nat) (h : Hub) : TickKept h (markAhead source inst h) := by simp [markAhead]

@[simp] theorem tickKept_forceItem (t source inst mode : Nat) (at_ : Inst) (h : Hub) : TickKept h (forceItem t source inst mode at_ h) := by
  unfold forceItem
  dsimp only
  split <;> simp

@[simp] theorem tickKept_itemEffect (t : Nat) (inst : Inst) (i : Item) (h : Hub) : TickKept h (itemEffect t inst i h) := by
  unfold itemEffect
  split <;> simp

@[simp] theorem tickKept_applyChanges (t : Nat) (inst : Inst) (h : Hub) : TickKept h (applyChanges t inst h) := by
  simp [applyChanges, applyItems, uplinkChange, descChanges]

/-! ## Tick rate and slot tables (02 R42, 11 R281) -/

@[simp] theorem tickKept_bookRate (h : Hub) : TickKept h (bookRate h) := by
  unfold bookRate
  dsimp only
  split <;> simp

@[simp] theorem tickKept_swapTable (t l : Nat) (h : Hub) : TickKept h (swapTable t l h) := by
  unfold swapTable
  split <;> simp

/-! ## Closing a frame -/

@[simp] theorem tickKept_loseSlots (f : Frame) (h : Hub) : TickKept h (loseSlots f h) := by simp [loseSlots]

@[simp] theorem tickKept_addSpan (n : Nat) (slots : List (Nat × Nat)) (h : Hub) : TickKept h (addSpan n slots h) := by simp [addSpan]

@[simp] theorem tickKept_closeFrame (n : Nat) (h : Hub) : TickKept h (closeFrame n h) := by
  unfold closeFrame
  split <;> simp

/-! ## Verdicts (02 R30, R34, R35) -/

@[simp] theorem tickKept_spoilWindows (xs : List (Frame × Frame)) (h : Hub) : TickKept h (spoilWindows xs h) := by
  induction xs generalizing h with
  | nil => exact .refl h
  | cons x xs ih => exact .trans (by simp) (ih _)

@[simp] theorem tickKept_applyVerdicts (n : Nat) (vs : List Verdict) (h : Hub) : TickKept h (applyVerdicts n vs h).1 := by
  simp [applyVerdicts]

/-! ## Settling (02 R31 to R33) -/

@[simp] theorem tickKept_holdLoops (es : List ProvEntry) (h : Hub) : TickKept h (holdLoops es h) := by simp [holdLoops]

@[simp] theorem tickKept_passEntries (f : Nat) (h : Hub) : TickKept h (passEntries f h).1 := (settleKept_passEntries f h).tickKept

@[simp] theorem tickKept_releaseWaiting (h : Hub) : TickKept h (releaseWaiting h).1 := (settleKept_releaseWaiting h).tickKept

@[simp] theorem tickKept_settleFrame (f : Frame) (mismatch : Bool) (h : Hub) : TickKept h (settleFrame f mismatch h).1 := by
  unfold settleFrame
  extract_lets g e a b
  have hg : TickKept h g := ⟨rfl, rfl⟩
  have he : TickKept g e := tickKept_encodeFrame f mismatch g
  have ha : TickKept e a.1 :=
    iteInduction (motive := fun y : Hub × List Cand => TickKept e y.1) (fun _ => .refl e) fun _ => tickKept_frameFlares f e
  have hb : TickKept a.1 b.1 :=
    iteInduction (motive := fun y : Hub × List Cand => TickKept a.1 y.1) (fun _ => tickKept_holdLoops ..)
      fun _ => tickKept_passEntries f.n a.1
  have hall : TickKept g (capSettle f b.1) := ((he.trans ha).trans hb).trans (tickKept_capSettle f b.1)
  refine iteInduction (motive := fun y : Hub × List Cand => TickKept h y.1)
    (fun _ => hg.trans (tickKept_takeEntries f.n g)) fun _ => ?_
  dsimp only
  exact hg.trans hall

@[simp] theorem tickKept_settleFuel (n k : Nat) (x : Hub × List Cand) : TickKept x.1 (settleFuel n k x).1 := by
  induction k generalizing x with
  | zero => exact .refl x.1
  | succ k ih =>
    obtain ⟨h, cs⟩ := x
    unfold settleFuel
    split
    · exact .refl h
    next f _ => exact (tickKept_settleFrame f false h).trans (ih _)

@[simp] theorem tickKept_settleDue (n : Nat) (h : Hub) : TickKept h (settleDue n h).1 := by simp [settleDue]

/-! ## Flares, captures and export of a tick (07 R151 to R171) -/

@[simp] theorem tickKept_finishSettled (h : Hub) : TickKept h (finishSettled h) := by
  unfold finishSettled
  split <;> simp

@[simp] theorem tickKept_flaresOfTick (cs : List Cand) (h : Hub) : TickKept h (flaresOfTick cs h) := by
  unfold flaresOfTick
  extract_lets g d k l
  have hg : TickKept h g := by simp [g]
  have hd : TickKept g d.1 :=
    iteInduction (motive := fun y : Hub × List Cand => TickKept g y.1) (fun _ => .refl g) fun _ => tickKept_decideFlares cs g
  exact (hg.trans hd).trans (by simp [l, k])

@[simp] theorem tickKept_schedules (h : Hub) : TickKept h (schedules h) := by simp [schedules, scheduleAt, queueEvent]

/-! ## LEDGER (09 R211) -/

@[simp] theorem tickKept_queueLedger (h : Hub) : TickKept h (queueLedger h) := by simp [queueLedger]

@[simp] theorem tickKept_ledgerAt (t : Nat) (h : Hub) : TickKept h (ledgerAt t h) := by simp [ledgerAt]

/-! ## Before the tick -/

@[simp] theorem tickKept_timeChanges (h : Hub) : TickKept h (timeChanges h) := by simp [timeChanges]

@[simp] theorem tickKept_deadlines (h : Hub) : TickKept h (deadlines h) := by simp [deadlines]

@[simp] theorem tickKept_pauseVerdicts (h : Hub) : TickKept h (pauseVerdicts h) := by simp [pauseVerdicts]

@[simp] theorem tickKept_standingVerdicts (h : Hub) : TickKept h (standingVerdicts h) := by simp [standingVerdicts]

@[simp] theorem tickKept_bookTick (h : Hub) : TickKept h (bookTick h) := by simp [bookTick, rampTick, takeLane]

/-! ## The tick (02 R24, R25, R42, R43) -/

@[simp] theorem tickKept_layMark (old h : Hub) : TickKept h (layMark old h) := by simp [layMark]

/-! ## REMAP (15 R377, R378) -/

@[simp] theorem tickKept_resolveRemap (fe source : Nat) (h : Hub) : TickKept h (resolveRemap fe source h) := by
  simp [resolveRemap, remapTo, noSpareLeft]

@[simp] theorem tickKept_resolveRemaps (h : Hub) : TickKept h (resolveRemaps h) := by simp [resolveRemaps]

/-! ## State that changes at a tick -/

@[simp] theorem tickKept_applyRetirements (h : Hub) : TickKept h (applyRetirements h) := by simp [applyRetirements]

@[simp] theorem tickKept_leaveEclipse (h : Hub) : TickKept h (leaveEclipse h) := by
  unfold leaveEclipse
  split <;> simp

@[simp] theorem tickKept_startDrain (h : Hub) : TickKept h (startDrain h) := by
  unfold startDrain
  split <;> simp

@[simp] theorem tickKept_changeTick (old h : Hub) : TickKept h (changeTick old h) := by
  simp [changeTick, stopDetectors, rateSlots, stepSlots, noteLedger]

/-! ## The frame that opens (02 R24, R26) -/

@[simp] theorem tickKept_openFrame (h : Hub) : TickKept h (openFrame h) := by simp [openFrame]

/-! ## The release of a tick (09 R204, 16 R396) -/

@[simp] theorem tickKept_noteHeader (h : Hub) (r : Rec) : TickKept h (noteHeader h r) := by simp [noteHeader]

@[simp] theorem tickKept_releaseAll (h : Hub) : TickKept h (releaseAll h) := by simp [releaseAll, cutAfterFinal]

end Sys2Proof.Machine
end

