-- ==== Sys2Proof/Proofs/TickKeptInUnits.lean ====
section
/-! PROOFS. The units of a pair leave the tick and a waiting reset as they are; so does every command that is shadowed
(12 R302 to R312). -/

namespace Sys2Proof.Machine

/-! ## Units of a tick (R302) -/

@[simp] theorem tickKept_sendStatus (h : Hub) : TickKept h (sendStatus h) := by simp [sendStatus]

@[simp] theorem tickKept_sendRaw (f : Frame) (h : Hub) : TickKept h (sendRaw f h) := by simp [sendRaw]

@[simp] theorem tickKept_sendLive (raw : Option Frame) (vs : List Verdict) (events : List Cand) (h : Hub) :
    TickKept h (sendLive raw vs events h) := by
  refine iteInduction (motive := TickKept h) (fun _ => .refl h) fun _ => ?_
  cases raw <;> simp

/-! ## The snapshot (R311, R312) -/

@[simp] theorem tickKept_copyFuel (n : Nat) (h : Hub) : TickKept h (copyFuel n h) := by
  induction n generalizing h with
  | zero => exact .refl h
  | succ n ih =>
    unfold copyFuel
    split
    · exact .refl h
    next q qs _ =>
      refine iteInduction (fun _ => .refl h) fun _ => .trans ?_ (ih _)
      cases h.stream.reserve.find? (·.record.seq == q) <;> simp

@[simp] theorem tickKept_copyTick (h : Hub) : TickKept h (copyTick h) := by simp [copyTick, copyReserve, sendSnapshot]

@[simp] theorem tickKept_sendJournal (h : Hub) : TickKept h (sendJournal h) := by simp [sendJournal]

/-! ## A change at one of the hub's own ticks -/

@[simp] theorem tickKept_atTick (t : Nat) {f : Hub → Hub} (hf : ∀ g, (f g).power.resetDue = g.power.resetDue) (h : Hub) :
    TickKept h (atTick t f h) := ⟨rfl, hf _⟩

/-! ## RAW (R302, R303) -/

@[simp] theorem tickKept_noteWords (h : Hub) (x : Nat × List Word) : TickKept h (noteWords h x) := by
  unfold noteWords
  split <;> simp

@[simp] theorem tickKept_setStamp (n : Nat) (st : Stamp) (h : Hub) : TickKept h (setStamp n st h) := by simp [setStamp]

@[simp] theorem tickKept_takeRaw (f : Frame) (tile : Nat) (body : Bytes) (h : Hub) : TickKept h (takeRaw f tile body h) := by simp [takeRaw]

@[simp] theorem tickKept_rawUnit (n tile : Nat) (body : Bytes) (h : Hub) : TickKept h (rawUnit n tile body h) := by
  unfold rawUnit
  split <;> simp

/-! ## Settling and releasing (R306) -/

@[simp] theorem tickKept_settleAt (m : Nat) (h : Hub) : TickKept h (settleAt m h) := by simp [settleAt]

@[simp] theorem tickKept_settleReady (h : Hub) : TickKept h (settleReady h) := by simp [settleReady]

@[simp] theorem tickKept_withdrawNamed (r : Rec) (h : Hub) : TickKept h (withdrawNamed r h) := by simp [withdrawNamed]

@[simp] theorem tickKept_withdrawUncopied (p : Bytes) (held : Nat) (h : Hub) : TickKept h (withdrawUncopied p held h) := by
  simp [withdrawUncopied]

@[simp] theorem tickKept_countNamed (h : Hub) (r : Rec) : TickKept h (countNamed h r).2 := by
  refine iteInduction (motive := fun y : Rec × Hub => TickKept h y.2) (fun _ => .refl h) fun _ => ?_
  refine iteInduction (motive := fun y : Rec × Hub => TickKept h y.2) (fun _ => by simp) fun _ => ?_
  split <;> simp

@[simp] theorem tickKept_namedRecords (rs : List Rec) (h : Hub) : TickKept h (namedRecords rs h).2 := by
  induction rs generalizing h with
  | nil => exact .refl h
  | cons r rs ih => exact (tickKept_countNamed h r).trans (ih _)

@[simp] theorem tickKept_releaseShadow (h : Hub) : TickKept h (releaseShadow h) := by simp [releaseShadow]

@[simp] theorem tickKept_finishAt (m : Nat) (h : Hub) : TickKept h (finishAt m h) := by simp [finishAt]

@[simp] theorem tickKept_finishFuel (n m : Nat) (h : Hub) : TickKept h (finishFuel n m h) := by
  induction n generalizing h with
  | zero => exact .refl h
  | succ n ih => simp [finishFuel, ih]

/-! ## VERDICT, EVENT, RECORD, DIGEST (R302, R306) -/

@[simp] theorem tickKept_verdictUnit (m : Nat) (body : Bytes) (h : Hub) : TickKept h (verdictUnit m body h) := by simp [verdictUnit]

@[simp] theorem tickKept_eventUnit (m : Nat) (body : Bytes) (h : Hub) : TickKept h (eventUnit m body h) := by simp [eventUnit]

@[simp] theorem tickKept_raiseFrom (h : Hub) (j : Bytes) : TickKept h (raiseFrom h j) := by simp [raiseFrom]

@[simp] theorem tickKept_recordUnit (m : Nat) (body : Bytes) (h : Hub) : TickKept h (recordUnit m body h) := by
  unfold recordUnit
  split <;> simp

@[simp] theorem tickKept_digestUnit (m : Nat) (body : Bytes) (h : Hub) : TickKept h (digestUnit m body h) := by simp [digestUnit]

/-! ## COMMAND (R304) -/

@[simp] theorem tickKept_catchUp (h : Hub) : TickKept h (catchUp h) := by simp [catchUp]

/-- What a command answers with, unless it is an error, leaves a reset that waits for its response as it is. -/
structure DueKept {α : Type} (dst : α → Hub) (h : Hub) (x : Except Reply α) : Prop where
  keeps : ∀ y, x = .ok y → (dst y).power.resetDue = h.power.resetDue

section
variable {α β : Type} {dst : β → Hub} {h : Hub}

/-- After a check or a step of a command, what follows decides; it may use what the step has given. -/
@[simp] theorem dueKept_bind {x : Except Reply α} {f : α → Except Reply β} :
    DueKept dst h (x >>= f) ↔ ∀ a, x = .ok a → DueKept dst h (f a) := by
  cases x with
  | error e => exact ⟨fun _ _ ha => (nomatch ha), fun _ => ⟨fun _ hy => nomatch hy⟩⟩
  | ok a => exact ⟨fun hf b hb => Except.ok.inj hb ▸ hf, fun hf => hf a rfl⟩

@[simp] theorem dueKept_pure {y : β} : DueKept dst h (pure y) ↔ (dst y).power.resetDue = h.power.resetDue :=
  ⟨fun hy => hy.keeps y rfl, fun hy => ⟨fun _ hz => Except.ok.inj hz ▸ hy⟩⟩

@[simp] theorem dueKept_map {x : Except Reply α} {f : α → β} :
    DueKept dst h (f <$> x) ↔ ∀ a, x = .ok a → (dst (f a)).power.resetDue = h.power.resetDue := by
  rw [map_eq_pure_bind, dueKept_bind]
  simp only [dueKept_pure]

@[simp] theorem dueKept_throw {e : Reply} : DueKept dst h (throw e) := ⟨fun _ hy => nomatch hy⟩

end

/-! ### Shadowed commands (R304, R312) -/

theorem dueKept_stage (origin : BitVec 32) (code : Nat) (items : List Item) (h : Hub) : DueKept id h (stage origin code items h) := by
  refine iteInduction (fun _ => dueKept_pure.mpr ?_) fun _ => dueKept_throw
  simp

theorem dueKept_commitItems (chans : Option Bool) (hd : Head) (tick : Nat) (items : List Item) (h : Hub) :
    DueKept id h (commitItems chans hd tick items h) :=
  dueKept_bind.mpr fun _ _ => dueKept_bind.mpr fun _ _ => dueKept_pure.mpr (tickKept_takeItems ..).2

@[simp] theorem dueKept_stageOrCommit (chans : Option Bool) (c : Ctx) (hd : Head) (tick : Nat) (items : List Item) (args : Bytes)
    (rest : List Item → Bytes) (h : Hub) : DueKept Prod.snd h (stageOrCommit chans c hd tick items args rest h) := by
  refine iteInduction (fun _ => dueKept_bind.mpr fun g hg => ?_) fun _ => dueKept_bind.mpr fun g hg => ?_
  · exact dueKept_pure.mpr ((dueKept_stage _ _ _ h).keeps g hg)
  · exact dueKept_pure.mpr (((dueKept_commitItems _ _ _ _ _).keeps g hg).trans (tickKept_dropStaged ..).2)

@[simp] theorem dueKept_simpleCommit (c : Ctx) (hd : Head) (tick : Nat) (items : List Item) (args : Bytes) (h : Hub) :
    DueKept Prod.snd h (simpleCommit c hd tick items args h) := by
  refine iteInduction (fun _ => dueKept_bind.mpr fun g hg => ?_) fun _ => dueKept_pure.mpr ?_
  · exact dueKept_pure.mpr ((dueKept_stage _ _ _ h).keeps g hg)
  · simp

@[simp] theorem dueKept_cmdLoadGraph (c : Ctx) (h : Hub) : DueKept Prod.snd h (cmdLoadGraph c h) := by
  unfold cmdLoadGraph
  repeat refine dueKept_bind.mpr fun _ _ => ?_
  refine iteInduction (fun _ => dueKept_pure.mpr rfl) fun _ => dueKept_bind.mpr fun _ _ => ?_
  dsimp only
  split
  · exact dueKept_throw
  · exact dueKept_bind.mpr fun _ _ => dueKept_pure.mpr rfl

@[simp] theorem dueKept_cmdActivateGraph (c : Ctx) (h : Hub) : DueKept Prod.snd h (cmdActivateGraph c h) := by
  unfold cmdActivateGraph
  repeat refine dueKept_bind.mpr fun _ _ => ?_
  refine iteInduction (fun _ => dueKept_throw) fun _ => ?_
  repeat refine dueKept_bind.mpr fun _ _ => ?_
  exact dueKept_pure.mpr (by simp)

@[simp] theorem dueKept_cmdCfgFlare (c : Ctx) (h : Hub) : DueKept Prod.snd h (cmdCfgFlare c h) := by
  unfold cmdCfgFlare
  repeat refine dueKept_bind.mpr fun _ _ => ?_
  exact iteInduction (fun _ => dueKept_throw) fun _ => dueKept_simpleCommit ..

@[simp] theorem dueKept_cmdCfgCapture (c : Ctx) (h : Hub) : DueKept Prod.snd h (cmdCfgCapture c h) := by
  unfold cmdCfgCapture
  repeat refine dueKept_bind.mpr fun _ _ => ?_
  refine iteInduction (fun _ => dueKept_bind.mpr fun g hg => dueKept_pure.mpr ((dueKept_stage _ _ _ h).keeps g hg)) fun _ => ?_
  repeat refine dueKept_bind.mpr fun _ _ => ?_
  exact dueKept_pure.mpr (by simp)

@[simp] theorem dueKept_cmdReleaseCapture (c : Ctx) (h : Hub) : DueKept Prod.snd h (cmdReleaseCapture c h) := by
  unfold cmdReleaseCapture
  repeat refine dueKept_bind.mpr fun _ _ => ?_
  split
  · exact dueKept_throw
  · exact dueKept_pure.mpr (tickKept_giveUpBuffer ..).2

@[simp] theorem dueKept_cmdCfgOutlets (c : Ctx) (h : Hub) : DueKept Prod.snd h (cmdCfgOutlets c h) := by
  unfold cmdCfgOutlets
  repeat refine dueKept_bind.mpr fun g hg => ?_
  exact dueKept_pure.mpr ((dueKept_commitItems ..).keeps g hg)

@[simp] theorem dueKept_cmdCompressJob (c : Ctx) (h : Hub) : DueKept Prod.snd h (cmdCompressJob c h) := by
  unfold cmdCompressJob
  repeat refine dueKept_bind.mpr fun _ _ => ?_
  dsimp only
  split
  · exact dueKept_throw
  · repeat refine dueKept_bind.mpr fun _ _ => ?_
    split
    · exact dueKept_throw
    · exact dueKept_bind.mpr fun _ _ => dueKept_pure.mpr (by simp)

@[simp] theorem dueKept_cmdResumeCompress (c : Ctx) (h : Hub) : DueKept Prod.snd h (cmdResumeCompress c h) := by
  unfold cmdResumeCompress
  repeat refine dueKept_bind.mpr fun _ _ => ?_
  dsimp only
  split
  · exact dueKept_throw
  · exact dueKept_bind.mpr fun _ _ => dueKept_pure.mpr (by simp)

@[simp] theorem dueKept_cmdCancelCompress (c : Ctx) (h : Hub) : DueKept Prod.snd h (cmdCancelCompress c h) := by
  unfold cmdCancelCompress
  repeat refine dueKept_bind.mpr fun _ _ => ?_
  dsimp only
  split
  · exact dueKept_throw
  · exact dueKept_pure.mpr (by simp)

@[simp] theorem dueKept_cmdCfgLoopOutput (c : Ctx) (h : Hub) : DueKept Prod.snd h (cmdCfgLoopOutput c h) := by
  unfold cmdCfgLoopOutput
  repeat refine dueKept_bind.mpr fun g hg => ?_
  exact dueKept_pure.mpr ((dueKept_commitItems ..).keeps g hg)

/-- The shadowed commands of a table leave a reset that waits for its response as it is. -/
def ShadowedKept (table : List (Nat × Cmd)) : Prop :=
  ∀ p ∈ table, isShadowed p.1 = true → ∀ (c : Ctx) (h : Hub), DueKept Prod.snd h (p.2 c h)

theorem shadowedKept_table0 : ShadowedKept table0 := by
  simp [ShadowedKept, table0, isShadowed, cmdCfgChannel, cmdCfgExcitation, cmdCfgRemap, cmdReviveChannel, cmdReadChannel, cmdCfgTick,
    cmdCfgCalibration, cmdCalSelf, cmdCalSystem, cmdCfgHousekeeping, cmdReadCalQuality, cmdReadHousekeeping]

theorem shadowedKept_table4 : ShadowedKept table4 := by
  simp [ShadowedKept, table4, isShadowed, cmdReadGraph, cmdFlareNow, cmdClearCaptureStats, cmdReadCaptures, cmdCfgCompression,
    cmdCustodyAck, cmdCustodyRetransmit]

theorem shadowedKept_table8 : ShadowedKept table8 := by
  simp [ShadowedKept, table8, isShadowed, cmdReadLoop]

theorem dueKept_of_shadowed {code : Nat} {f : Cmd} (hf : cmdOf code = some f) (hs : isShadowed code = true) (c : Ctx) (h : Hub) :
    DueKept Prod.snd h (f c h) := by
  obtain ⟨p, hp, rfl⟩ := Option.map_eq_some_iff.mp hf
  obtain rfl : p.1 = code := beq_iff_eq.mp (List.find?_some (p := fun q : Nat × Cmd => q.1 == code) hp)
  have hmem := List.mem_of_find?_eq_some hp
  rw [List.mem_append, List.mem_append] at hmem
  obtain (h0 | h4) | h8 := hmem
  · exact shadowedKept_table0 p h0 hs c h
  · exact shadowedKept_table4 p h4 hs c h
  · exact shadowedKept_table8 p h8 hs c h

@[simp] theorem tickKept_commandUnit (m : Nat) (body : Bytes) (h : Hub) : TickKept h (commandUnit m body h) := by
  unfold commandUnit
  dsimp only
  split
  · exact tickKept_shadowLost h
  next code r _ =>
    split
    · exact tickKept_shadowLost h
    next hok =>
      have hs : isShadowed code = true := by
        simp only [Bool.or_eq_true, not_or, Bool.not_eq_true, Bool.not_eq_false'] at hok
        exact hok.2
      split
      · simp
      next f hf =>
        refine .trans ?_ (.trans (tickKept_atTick m (fun g => ?_) _) (tickKept_catchUp _))
        · simp
        · split
          · rfl
          next p k hk =>
            have hkept : k.power.resetDue = g.power.resetDue := (dueKept_of_shadowed hf hs _ g).keeps (p, k) hk
            simp [hkept]

end Sys2Proof.Machine
end

