-- ==== Sys2Proof/Proofs/TickKeptInRoles.lean ====
section
/-! PROOFS. The takeover, the grant, and the tick by role leave the tick and a waiting reset as they are
(12 R298 to R313, 17 R422 to R430). -/

namespace Sys2Proof.Machine

/-! ## A new sequence block (09 R203, R230, 17 R430) -/

@[simp] theorem tickKept_newBlock (tick : Nat) (st : Stamp) (h : Hub) : TickKept h (newBlock tick st h) := by
  unfold newBlock
  extract_lets b base occ _ _ g
  have hg : TickKept h g := .of_eq (jChange_time ..) (jChange_power ..)
  exact hg.trans (by simp)

/-! ## Takeover (R308, R309) -/

@[simp] theorem tickKept_issueTakeover (h : Hub) : TickKept h (issueTakeover h) := by simp [issueTakeover]

@[simp] theorem tickKept_takeFresh (h : Hub) : TickKept h (takeFresh h) := by simp [takeFresh]

@[simp] theorem tickKept_loseFrame (acc : List (Nat × Nat) × Hub) (f : Frame) : TickKept acc.2 (loseFrame acc f).2 := by simp [loseFrame]

@[simp] theorem tickKept_takeArr (redo from_ : Nat) (h : Hub) : TickKept h (takeArr redo from_ h) := by simp [takeArr]

@[simp] theorem tickKept_takeClose (h : Hub) : TickKept h (takeClose h).2 := by
  unfold takeClose
  extract_lets a l g vs k first lost held m x n
  have hg : TickKept h g := by simp [g]
  have hm : TickKept g m := by simp [m, k]
  have hx : TickKept m x.2 := TickKept.foldl_snd tickKept_loseFrame _ _
  have hn : TickKept x.2 n := by simp [n]
  exact (((hg.trans hm).trans hx).trans hn).trans (by simp)

@[simp] theorem tickKept_takeStart (lost : Nat) (slots : List (Nat × Nat)) (h : Hub) : TickKept h (takeStart lost slots h) := by
  simp [takeStart]

/-! ## Release (R310) -/

@[simp] theorem tickKept_releaseRole (h : Hub) : TickKept h (releaseRole h) := by simp [releaseRole, stopOutlets]

@[simp] theorem tickKept_releaseIfRemoved (h : Hub) : TickKept h (releaseIfRemoved h) := by simp [releaseIfRemoved]

/-! ## The grant and its conflicts (R298, R299) -/

@[simp] theorem tickKept_conflictTick (h : Hub) : TickKept h (conflictTick h) := by simp [conflictTick, conflictLasts]

/-! ## Units received (R302) -/

@[simp] theorem tickKept_liveUnit (u : Bytes) (h : Hub) : TickKept h (liveUnit u h) := by
  unfold liveUnit
  dsimp only
  split <;> simp

@[simp] theorem tickKept_earlyFuel (n : Nat) (h : Hub) : TickKept h (earlyFuel n h) := by
  induction n generalizing h with
  | zero => exact .refl h
  | succ n ih =>
    unfold earlyFuel
    split
    · exact .refl h
    · exact iteInduction (fun _ => .trans (by simp) (ih _)) fun _ => .refl h

/-! ## Resynchronisation (R311 to R313, 14 R364) -/

@[simp] theorem tickKept_requestResync (h : Hub) : TickKept h (requestResync h) := by
  unfold requestResync
  split <;> simp

@[simp] theorem tickKept_resyncTick (h : Hub) : TickKept h (resyncTick h) := by simp [resyncTick]

@[simp] theorem tickKept_pairTick (h : Hub) : TickKept h (pairTick h) := by
  simp [pairTick, resyncDone, silentFor, unreadyNotice, takeIfFree]

/-! ## The end of the interval -/

@[simp] theorem tickKept_endInterval (h : Hub) : TickKept h (endInterval h) :=
  (tickKept_handleFuel 128 h).trans ((tickKept_issueTakeover _).trans ((tickKept_releaseIfRemoved _).trans (tickKept_bookTick _)))

@[simp] theorem tickKept_noteOverrun (h : Hub) : TickKept h (noteOverrun h) := by simp [noteOverrun]

@[simp] theorem tickKept_overrunAt (n : Nat) (step2 : Bool) (h : Hub) : TickKept h (overrunAt n step2 h) := by simp [overrunAt]

@[simp] theorem tickKept_closeInterval (old h : Hub) : TickKept h (closeInterval old h).2 := by simp [closeInterval]

/-! ## The tick by role -/

@[simp] theorem tickKept_activeTick (old h : Hub) : TickKept h (activeTick old h).2 := by simp [activeTick]

@[simp] theorem tickKept_takeoverTick (old h : Hub) : TickKept h (takeoverTick old h) := by simp [takeoverTick]

@[simp] theorem tickKept_standbyTick (old h : Hub) : TickKept h (standbyTick old h) := by simp [standbyTick]

/-! ## Results of the tick -/

@[simp] theorem tickKept_decideTick (h : Hub) : TickKept h (decideTick h).2 := by
  unfold decideTick
  extract_lets n w r s mine k _ e
  have hs : TickKept h s.1 := (tickKept_releaseWaiting h).trans (tickKept_settleDue n w.1)
  have he : TickKept s.1 e.1 := by simp [e, k]
  refine hs.trans (iteInduction (motive := fun y : List Cand × Hub => TickKept s.1 y.2) (fun _ => ?_) fun _ => he.trans ?_)
  all_goals simp

@[simp] theorem tickKept_finalDone (h : Hub) : TickKept h (finalDone h) := by simp [finalDone]

@[simp] theorem tickKept_releaseTick (c : Closed) (events : List Cand) (h : Hub) : TickKept h (releaseTick c events h) := by
  simp [releaseTick, finalLedger, eclipsePeriod, takeBlocks, moveBlock, mirrorJournal]

/-! ## Beside the stream -/

@[simp] theorem tickKept_lanesTick (h : Hub) : TickKept h (lanesTick h) := by simp [lanesTick]

@[simp] theorem tickKept_housekeep (h : Hub) : TickKept h (housekeep h) := by
  simp [housekeep, noteView, heartbeat, logSeconds, loopFaults, persistAll]

end Sys2Proof.Machine
end

