-- ==== Sys2Proof/Proofs/MeridianTick.lean ====
section
/-! PROOFS. MERIDIAN_TICK: the timebase a tick opens, the number it keeps, and the requests it serves
(02 R24, R25, R42, 09 R205, R227, 17 R422). -/

namespace Sys2Proof.Machine

/-! ## The timebase at a tick (02 R24, R25, R42, 09 R205, 17 R422) -/

/-- Ending the occurrences of one interval touches the faults alone. -/
theorem endOnce_frame (i : Inst) (h : Hub) : endOnce i h = { h with faults := (endOnce i h).faults } := by
  unfold endOnce
  generalize hg : List.foldl _ h _ = g
  have hframe : g = { h with faults := g.faults } := by
    subst hg
    exact List.foldlRecOn (motive := fun k : Hub => k = { h with faults := k.faults }) _ _ rfl
      fun k hk o _ => by rw [clearOcc_frame, hk]
  rw [hframe]

/-- A step of the timebase moves what stands from before it, and nothing else. -/
theorem shiftStarts_frame (d : Inst) (h : Hub) :
    shiftStarts d h = { h with
      faults := (shiftStarts d h).faults, cap := (shiftStarts d h).cap, fes := (shiftStarts d h).fes
      chans := (shiftStarts d h).chans, groups := (shiftStarts d h).groups } := by
  unfold shiftStarts
  split <;> rfl

theorem shiftStarts_zero (h : Hub) : shiftStarts 0 h = h := if_pos rfl

theorem noteHist_frame (h : Hub) : noteHist h = { h with time := { h.time with yHist := (noteHist h).time.yHist } } := by
  unfold noteHist
  split <;> rfl

/-- What the interval that ends leaves to the coming tick: the occurrences of one interval ended, instants moved by a booked step. -/
def intervalEnded (h : Hub) : Hub := shiftStarts (h.time.jump.getD 0) (endOnce (nextInst h) h)

/-- Ending the interval changes neither the timebase nor the power, the configuration and the stream. -/
theorem intervalEnded_kept (h : Hub) :
    (intervalEnded h).time = h.time ∧ (intervalEnded h).power = h.power ∧ (intervalEnded h).cfg = h.cfg ∧
      (intervalEnded h).stream = h.stream := by
  rw [intervalEnded, shiftStarts_frame, endOnce_frame]
  exact ⟨rfl, rfl, rfl, rfl⟩

theorem intervalEnded_chans {h : Hub} (hj : h.time.jump = none) : (intervalEnded h).chans = h.chans := by
  rw [intervalEnded, hj, Option.getD_none, shiftStarts_zero, endOnce_frame]

/-- The timebase as the coming tick opens it, but for the servo's history. -/
def openedTime (i : Inst) (t : TimeSt) : TimeSt :=
  let r := t.rateDue.getD (t.tCode, t.v)
  { t with
    tick := t.tick + 1
    tickInst := i
    tCode := r.1
    v := r.2
    frameLen := if t.jump.isSome then tickAfterStep r.1 i - i else tickLen r.1
    frameFlags := b2n t.jump.isSome + 2 * b2n t.rateDue.isSome
    op4k := t.op4k + 4000 / tickHz t.tCode
    shift := t.shift + t.jump.getD 0
    jump := none
    rateDue := none
    laneMeas := t.laneMeas.map fun m => { m with age := min 255 (m.age + 1) } }

/-- A tick opens the timebase on what the interval has left, and the occurrences that have cleared are gone. -/
theorem advance_eq (h : Hub) :
    advance h = { intervalEnded h with
      time := { openedTime (nextInst h) h.time with yHist := (advance h).time.yHist }
      faults.occ := (intervalEnded h).faults.occ.filter fun o => !o.cleared } := by
  obtain ⟨htime, -, -, -⟩ := intervalEnded_kept h
  rw [← htime]
  exact noteHist_frame _

/-- Ticks of the coming rate last one period, and T of them make a second. -/
theorem tickLen_mul_tickHz {t : Nat} (ht : t ≤ 5) : tickLen t * tickHz t = secUnits := by
  interval_cases t <;> rfl

theorem opPerTick_mul_tickHz {t : Nat} (ht : t ≤ 5) : 4000 / tickHz t * tickHz t = 4000 := by
  interval_cases t <;> rfl

@[simp] theorem advance_power (h : Hub) : (advance h).power = h.power := by
  rw [advance_eq]
  exact (intervalEnded_kept h).2.1

theorem advance_tick (h : Hub) : (advance h).time.tick = h.time.tick + 1 := by rw [advance_eq]; rfl

theorem advance_timebase (h : Hub) :
    let t := advance h
    t.time.tick = h.time.tick + 1 ∧ t.time.tickInst = h.time.tickInst + h.time.frameLen + h.time.jump.getD 0 ∧
      (h.time.rateDue = none → t.time.tCode = h.time.tCode ∧ t.time.v = h.time.v) ∧
      (∀ r, h.time.rateDue = some r → t.time.tCode = r.1 ∧ t.time.v = r.2) ∧
      (h.time.jump = none → t.time.frameLen = tickLen t.time.tCode ∧ bitOf t.time.frameFlags 0 = false) ∧
      (h.time.tCode ≤ 5 → (h.time.rateDue = none → tickLen t.time.tCode * tickHz t.time.tCode = secUnits) ∧
        (t.time.op4k - h.time.op4k) * tickHz h.time.tCode = 4000) ∧
      t.time.jump = none ∧ t.time.rateDue = none ∧ (h.time.jump = none → t.chans = h.chans) ∧ t.cfg = h.cfg ∧ t.stream = h.stream ∧
      ∀ o ∈ t.faults.occ, o.cleared = false := by
  obtain ⟨-, -, hcfg, hstream⟩ := intervalEnded_kept h
  intro t
  have ht : t = _ := advance_eq h
  clear_value t
  subst ht
  refine ⟨rfl, rfl, fun hr => ?rate, fun r hr => ?newRate, fun hj => ?frame, fun hcode => ⟨fun hr => ?second, ?opTime⟩, rfl, rfl,
    fun hj => intervalEnded_chans hj, hcfg, hstream, fun o ho => ?cleared⟩
  case rate => simp [openedTime, hr]
  case newRate => simp [openedTime, hr]
  case frame =>
    refine ⟨by simp [openedTime, hj], ?_⟩
    cases hr : h.time.rateDue <;> simp [openedTime, hj, hr, bitOf, b2n]
  case second => simpa [openedTime, hr] using tickLen_mul_tickHz hcode
  case opTime => simp [openedTime, opPerTick_mul_tickHz hcode]
  case cleared => simpa using (List.mem_filter.mp ho).2

/-! ## The hub's part -/

/-- The hub's part from the tick's opening on, by its role in the interval that ended as `old`. -/
def openedTick (overrun : Option Bool) (old h : Hub) : Hub :=
  let takes := isStandby h && h.pair.takeoverAt == some h.time.tick
  if isStandby h && !takes then
    sendJournal (sendStatus (programAll (standbyTick old (if overrun.isSome then noteOverrun h else h))))
  else
    let r := if takes then (({ verdicts := h.verdicts } : Closed), takeoverTick old h) else activeTick old h
    let h := match overrun with | some step2 => overrunAt (r.2.time.tick - 1) step2 r.2 | none => r.2
    let e := decideTick h
    releaseTick r.1 e.1 e.2

theorem hubTick_eq (overrun : Option Bool) (h : Hub) :
    hubTick overrun h = housekeep (openedTick overrun (endInterval h) (advance (endInterval h))) := rfl

/-- From the tick's opening on, the hub's part keeps the tick and a reset that waits, in any role. -/
theorem tickKept_openedTick (overrun : Option Bool) (old h : Hub) : TickKept h (openedTick overrun old h) := by
  unfold openedTick
  extract_lets takes r k e
  refine iteInduction (motive := TickKept h) (fun _ => by simp) fun _ => ?_
  have hr : TickKept h r.2 :=
    iteInduction (motive := fun y : Closed × Hub => TickKept h y.2) (fun _ => tickKept_takeoverTick old h)
      fun _ => tickKept_activeTick old h
  have hk : TickKept r.2 k := by
    unfold k
    cases overrun <;> simp
  exact (hr.trans hk).trans ((tickKept_decideTick k).trans (tickKept_releaseTick r.1 e.1 e.2))

theorem hubTick_tickKept (overrun : Option Bool) (h : Hub) : TickKept (advance (endInterval h)) (hubTick overrun h) := by
  rw [hubTick_eq]
  exact (tickKept_openedTick ..).trans (tickKept_housekeep _)

theorem hubTick_tick (overrun : Option Bool) (h : Hub) : (hubTick overrun h).time.tick = h.time.tick + 1 := by
  rw [(hubTick_tickKept overrun h).1, advance_tick, (tickKept_endInterval h).1]

theorem hubTick_resetDue (overrun : Option Bool) (h : Hub) : (hubTick overrun h).power.resetDue = h.power.resetDue := by
  rw [(hubTick_tickKept overrun h).2, advance_power, (tickKept_endInterval h).2]

/-! ## What leaves the hub (09 R218 to R227, 12 R305) -/

/-- The tick, a reset that waits and the role stay, and nothing asks for a retransmission anew. -/
structure LeavingKept (s t : State) : Prop where
  tick : TickKept s.hub t.hub
  active : isActive t.hub = isActive s.hub
  retx : t.hub.stream.retx = s.hub.stream.retx

theorem LeavingKept.trans {s t u : State} (ht : LeavingKept s t) (hu : LeavingKept t u) : LeavingKept s u :=
  ⟨ht.tick.trans hu.tick, hu.active.trans ht.active, hu.retx.trans ht.retx⟩

theorem OutletsOnly.tickKept {s t : State} (ho : OutletsOnly s t) : TickKept s.hub t.hub := by
  rw [ho]
  exact ⟨rfl, rfl⟩

theorem feed_retx (h : Hub) (f : Fifo) : (feed h f).1.stream.retx = h.stream.retx :=
  feedFuel_induction (P := fun y : Hub × Fifo => y.1.stream.retx = h.stream.retx) (fun _ _ _ _ hy => hy) _ _ rfl

theorem leavingKept_feedCustody (s : State) : LeavingKept s (feedCustody s) := by
  have ho := outletsOnly_feedCustody s
  refine ⟨ho.tickKept, by rw [ho]; rfl, ?_⟩
  unfold feedCustody
  split <;> exact feed_retx ..

theorem leavingKept_deliverResponse (mb : Nat) (m : Bytes) (s : State) : LeavingKept s (deliverResponse mb m s) := by
  unfold deliverResponse
  split
  · constructor <;> simp [setAttn]
  · split
    · have hframe := queueCells_frame 2 (unitCells 1 6 0 s.hub.flash.hubId m) s.hub
      exact ⟨by simp, by rw [hframe]; rfl, by rw [hframe]⟩
    · exact ⟨by simp, rfl, rfl⟩

theorem leavingKept_releaseHeld (s : State) : LeavingKept s (releaseHeld s) :=
  List.foldlRecOn (motive := LeavingKept s) _ _ ⟨⟨rfl, rfl⟩, rfl, rfl⟩
    fun _ ht x _ => ht.trans (leavingKept_deliverResponse x.2.1 x.2.2 _)

theorem tickKept_leaveRole (before : Hub) (s : State) : TickKept s.hub (leaveRole before s).hub :=
  iteInduction (motive := fun t : State => TickKept s.hub t.hub) (fun _ => tickKept_unsend ..) fun _ => .refl _

/-- With no reset that waits for its response, none starts. -/
theorem resetLeft_of_none {s : State} (hd : s.hub.power.resetDue = none) : resetLeft s = s := by rw [resetLeft, hd]

/-- A tick's number is one more, and an active hub's requests for retransmission have been served. -/
theorem tick_of_noReset (overrun : Option Bool) {s : State} (hd : s.hub.power.resetDue = none) :
    (tick overrun s).hub.time.tick = s.hub.time.tick + 1 ∧
      (isActive s.hub = true → isActive (tick overrun s).hub = true → (tick overrun s).hub.stream.retx = []) := by
  unfold tick
  extract_lets g
  have hg : TickKept (hubTick overrun s.hub) g.hub := (tickKept_leaveRole s.hub _).trans (outletsOnly_copyReleased _).tickKept
  have hdue : g.hub.power.resetDue = none := hg.2.trans ((hubTick_resetDue overrun s.hub).trans hd)
  have htick : g.hub.time.tick = s.hub.time.tick + 1 := hg.1.trans (hubTick_tick overrun s.hub)
  clear_value g
  generalize hk : (if isActive g.hub then { g with hub := serveRetx g.hub } else g) = k
  have hkept : TickKept g.hub k.hub ∧ (isActive k.hub = true → k.hub.stream.retx = []) := by
    subst hk
    split
    · exact ⟨⟨rfl, rfl⟩, fun _ => rfl⟩
    next hidle => exact ⟨.refl _, fun ha => absurd ha hidle⟩
  obtain ⟨hk, hserved⟩ := hkept
  have hleft := (leavingKept_feedCustody k).trans (leavingKept_releaseHeld _)
  rw [resetLeft_of_none (hleft.tick.2.trans (hk.2.trans hdue))]
  exact ⟨hleft.tick.1.trans (hk.1.trans htick), fun _ ha => hleft.retx.trans (hserved (hleft.active.symm.trans ha))⟩

/-- Settles O38: a tick opens the timebase on what the interval left; the work that follows it, in any role, keeps the number. -/
theorem meridianTickAdvances : Obligations.MeridianTickAdvances := by
  refine ⟨advance_timebase, fun s overrun => ⟨fun hup => ?running, fun hdown => ?idle⟩⟩
  case running => exact ⟨tick overrun s, congrArg Host.Outcome.next (if_pos hup), sameQueue_tick overrun s, tick_of_noReset overrun⟩
  case idle => exact congrArg Host.Outcome.next (if_neg (by simp [hdown]))

end Sys2Proof.Machine
end
